-- ==== Sys2Proof/Word.lean ====
section
/-! DEFINITION. The word types of the S3264 model and the apply points its registers name. -/

namespace Sys2Proof

/-- A byte of memory. -/
abbrev Byte := BitVec 8

/-- A register dword, and a sequencer general register (R8). -/
abbrev W32 := BitVec 32

/-- A 64-bit instruction word (R101) or 64-bit value pair (R63). -/
abbrev W64 := BitVec 64

/-- A count of ticks of device time (R6, R245); arithmetic is mod 2^64 (R246). -/
abbrev Tick := BitVec 64

/-- Apply points of a register field (R50). -/
inductive Apply | imm | tick | block | seg | idle
deriving DecidableEq, Repr

end Sys2Proof
end

