-- ==== Sys2Proof/Syntax.lean ====
section
/-! DEFINITION. The commands of the S3264: one constructor per row of spec/opcode_table.json, in the table's order.
A sequencer instruction carries its channel and the raw operand fields A, B and X of R101; the row fixes OP and the
selector bit that tells it from its sister row. A command that stands for an outcome of the world outside the digital
state (a sense result, a received cell, a training result) carries that outcome as an operand. -/

namespace Sys2Proof

/-- Adold link ports (R295). -/
inductive Port | e | w
deriving DecidableEq, Repr

/-- Kinds of an output-stage calibration run (R236). -/
inductive CalKind | idle | window | forced
deriving DecidableEq, Repr

/-- What the checks of one rotation step or verify pass found on a sub-DAC (R230, R231): whether the check passed, the
coarse units in use, the connection order, the fine string, the skew trim and the residual INL. -/
structure CheckResult where
  passed : Bool
  use : BitVec 80
  ord : BitVec 8
  fine : Bool
  skew : BitVec 6
  rinl : BitVec 16
deriving DecidableEq, Repr

/-- What a training slice found (R340, R343). -/
inductive SliceResult | more | passed | comparePasses | compareFails
deriving DecidableEq, Repr

/-- What a march of one region found (R356, R358). -/
inductive MarchResult | clean | cellFails | unreadable
deriving DecidableEq, Repr

/-- What a start-up stage brings (R384, R385): `done`, or a stop code of R385; Stage D the pseudo-channels that passed first
training. -/
inductive StageResult
  | stop (code : BitVec 8)
  | done
  | trained (passing : BitVec 128)
deriving DecidableEq, Repr

/-- What a configuration request changes of the PCIe function's state (R397, R400, R401): power state D3hot or D0, MSI-X enable and
function mask, log2 of the size of BAR4. -/
inductive ConfigWrite
  | power (d3 : Bool)
  | msix (enable mask : Bool)
  | bar4 (log2 : Nat)
deriving DecidableEq, Repr

/-- The memories that background scrub and Sirocco reach (R351, R356). -/
inductive Sram | oasis | segTable | programStore | context | reckoner
deriving DecidableEq, Repr

/-- The commands of the block, one per row of the operation table. -/
inductive Instr
  -- sequencer instructions (chapter 04)
  | nop (c : Fin 32) (a b : BitVec 4) (x : BitVec 48)
  | halt (c : Fin 32) (a b : BitVec 4) (x : BitVec 48)
  | jmp (c : Fin 32) (a b : BitVec 4) (x : BitVec 48)
  | jcc (c : Fin 32) (a b : BitVec 4) (x : BitVec 48)
  | call (c : Fin 32) (a b : BitVec 4) (x : BitVec 48)
  | ret (c : Fin 32) (a b : BitVec 4) (x : BitVec 48)
  | loop (c : Fin 32) (a b : BitVec 4) (x : BitVec 48)
  | endl (c : Fin 32) (a b : BitVec 4) (x : BitVec 48)
  | mov (c : Fin 32) (a b : BitVec 4) (x : BitVec 48)
  | add (c : Fin 32) (a b : BitVec 4) (x : BitVec 48)
  | sub (c : Fin 32) (a b : BitVec 4) (x : BitVec 48)
  | mul (c : Fin 32) (a b : BitVec 4) (x : BitVec 48)
  | and (c : Fin 32) (a b : BitVec 4) (x : BitVec 48)
  | or (c : Fin 32) (a b : BitVec 4) (x : BitVec 48)
  | xor (c : Fin 32) (a b : BitVec 4) (x : BitVec 48)
  | shl (c : Fin 32) (a b : BitVec 4) (x : BitVec 48)
  | shr (c : Fin 32) (a b : BitVec 4) (x : BitVec 48)
  | sar (c : Fin 32) (a b : BitVec 4) (x : BitVec 48)
  | min (c : Fin 32) (a b : BitVec 4) (x : BitVec 48)
  | max (c : Fin 32) (a b : BitVec 4) (x : BitVec 48)
  | movi (c : Fin 32) (a b : BitVec 4) (x : BitVec 48)
  | addi (c : Fin 32) (a b : BitVec 4) (x : BitVec 48)
  | subi (c : Fin 32) (a b : BitVec 4) (x : BitVec 48)
  | muli (c : Fin 32) (a b : BitVec 4) (x : BitVec 48)
  | andi (c : Fin 32) (a b : BitVec 4) (x : BitVec 48)
  | ori (c : Fin 32) (a b : BitVec 4) (x : BitVec 48)
  | xori (c : Fin 32) (a b : BitVec 4) (x : BitVec 48)
  | shli (c : Fin 32) (a b : BitVec 4) (x : BitVec 48)
  | shri (c : Fin 32) (a b : BitVec 4) (x : BitVec 48)
  | sari (c : Fin 32) (a b : BitVec 4) (x : BitVec 48)
  | mini (c : Fin 32) (a b : BitVec 4) (x : BitVec 48)
  | maxi (c : Fin 32) (a b : BitVec 4) (x : BitVec 48)
  | waitImm (c : Fin 32) (a b : BitVec 4) (x : BitVec 48)
  | waitReg (c : Fin 32) (a b : BitVec 4) (x : BitVec 48)
  | waitt (c : Fin 32) (a b : BitVec 4) (x : BitVec 48)
  | sync (c : Fin 32) (a b : BitVec 4) (x : BitVec 48)
  | waitev (c : Fin 32) (a b : BitVec 4) (x : BitVec 48)
  | play (c : Fin 32) (a b : BitVec 4) (x : BitVec 48)
  | playg (c : Fin 32) (a b : BitVec 4) (x : BitVec 48)
  | playgRing (c : Fin 32) (a b : BitVec 4) (x : BitVec 48)
  | playn (c : Fin 32) (a b : BitVec 4) (x : BitVec 48)
  | hold (c : Fin 32) (a b : BitVec 4) (x : BitVec 48)
  | park (c : Fin 32) (a b : BitVec 4) (x : BitVec 48)
  | jev (c : Fin 32) (a b : BitVec 4) (x : BitVec 48)
  | bev (c : Fin 32) (a b : BitVec 4) (x : BitVec 48)
  | sig (c : Fin 32) (a b : BitVec 4) (x : BitVec 48)
  | sigArray (c : Fin 32) (a b : BitVec 4) (x : BitVec 48)
  | mark (c : Fin 32) (a b : BitVec 4) (x : BitVec 48)
  | setf (c : Fin 32) (a b : BitVec 4) (x : BitVec 48)
  | setfp (c : Fin 32) (a b : BitVec 4) (x : BitVec 48)
  | setfSlot (c : Fin 32) (a b : BitVec 4) (x : BitVec 48)
  | setfpSlot (c : Fin 32) (a b : BitVec 4) (x : BitVec 48)
  | setp (c : Fin 32) (a b : BitVec 4) (x : BitVec 48)
  | shiftp (c : Fin 32) (a b : BitVec 4) (x : BitVec 48)
  | self (c : Fin 32) (a b : BitVec 4) (x : BitVec 48)
  | seta (c : Fin 32) (a b : BitVec 4) (x : BitVec 48)
  | mix (c : Fin 32) (a b : BitVec 4) (x : BitVec 48)
  | pop (c : Fin 32) (a b : BitVec 4) (x : BitVec 48)
  | popLedger (c : Fin 32) (a b : BitVec 4) (x : BitVec 48)
  | peek (c : Fin 32) (a b : BitVec 4) (x : BitVec 48)
  | rdy (c : Fin 32) (a b : BitVec 4) (x : BitVec 48)
  | ack (c : Fin 32) (a b : BitVec 4) (x : BitVec 48)
  | calw (c : Fin 32) (a b : BitVec 4) (x : BitVec 48)
  | tstamp (c : Fin 32) (a b : BitVec 4) (x : BitVec 48)
  | irq (c : Fin 32) (a b : BitVec 4) (x : BitVec 48)
  | irqAt (c : Fin 32) (a b : BitVec 4) (x : BitVec 48)
  -- what the sequencer and the output do on their ticks (chapters 03, 05, 07)
  | runaheadResume (c : Fin 32)
  | queueFullResume (c : Fin 32)
  | ringReadyResume (c : Fin 32)
  | ringTimeout (c : Fin 32)
  | decisionResolve (c : Fin 32)
  | waitevMatch (c : Fin 32)
  | waitevTimeout (c : Fin 32)
  | actionDispatch (c : Fin 32)
  | actionTakeEffect (c : Fin 32)
  | blockCommit (c : Fin 32)
  | scheduleDry (c : Fin 32)
  | faultPark (c : Fin 32)
  | stopEnd (c : Fin 32)
  | drainEnd (c : Fin 32)
  | eventStart (c : Fin 32)
  -- host commands of a channel
  | go (c : Fin 32)
  | stop (c : Fin 32)
  | brk (c : Fin 32)
  | resume (c : Fin 32)
  | step (c : Fin 32)
  | faultClear (c : Fin 32)
  | gWrite (c : Fin 32) (i : Fin 16) (be : BitVec 4) (v : W32)
  | programStoreWrite (c : Fin 32) (off : Nat) (data : List Byte)
  | ncoWrite (c : Fin 32) (r : Fin 9) (be : BitVec 4) (v : W32)
  | ledgerWr (c : Fin 32) (slot : BitVec 8) (andRead : Bool)
  | ledgerRd (c : Fin 32) (slot : BitVec 8)
  | firCoefWrite (c : Fin 32) (bank : Fin 2) (i : Fin 32) (be : BitVec 4) (v : W32)
  -- the register interface (chapter 02)
  | registerWrite (addr : Nat) (be : BitVec 4) (v : W32) (meets : Bool) (more : List W32 := []) (last : BitVec 4 := 0xF)
      (cfg : Option ConfigWrite := none)
  | applyPoint (pt : Apply) (block : Nat)
  | aliasWrite (addr : Nat) (v : W32)
  | lockWrite (addr : Nat) (be : BitVec 4) (v : W32)
  | pairCommit (addrHi : Nat) (be : BitVec 4) (v : W32)
  | abacusGo
  | abacusAbort
  | abacusCopy
  | abacusDone
  | parkAll
  | profileApply
  | deviceReset (pcie : Bool := false) (cut : Bool := false)
  | channelReset (c : Fin 32)
  | msixRearm (v : Fin 2048)
  | msixMessage (v : Fin 2048)
  -- segments and Oasis (chapters 05, 14)
  | descriptorWrite (k : Fin 8) (off : Nat) (data : List Byte)
  | stageRequest (c : Fin 32)
  | stageFillArrive (c : Fin 32)
  | tgtCfgWrite (c : Fin 32) (i : Fin 16) (be : BitVec 4) (v : W32)
  | reload (c : Fin 32) (i : Fin 16)
  | headLoadEnd (c : Fin 32) (i : Fin 16)
  | fillGo (k : Fin 8)
  | fillAbort (k : Fin 8)
  | fillEnd (k : Fin 8)
  | oasisWrite (k : Fin 8) (off : Nat) (data : List Byte) (meets : Bool)
  -- events (chapter 10)
  | trigEdge (i : Fin 16) (high : Bool) (m : Fin 16) (held : Nat) (late : Bool)
  | markerEdge (i : Fin 16) (rising : Bool) (m : Fin 16)
  | timerEn (i : Fin 8) (en : Bool)
  | timerFire (i : Fin 8)
  | hostEvGo
  | hostEvEmit
  | frameClose (t : Tick)
  | eventPresent (c : Fin 32) (code : BitVec 8) (stamp : Tick)
  | dtLoad
  | dtResume
  | logWrite
  -- rings (chapter 11)
  | bind (q : BitVec 18)
  | unbind (q : BitVec 18)
  | recheck (q : BitVec 18)
  | contextWrite (off : Nat) (data : List Byte)
  | doorbell (off : Nat) (size : Nat) (v : W64)
  | prodAdvance (q : BitVec 18)
  | recordFetch (q : BitVec 18) (index : W32)
  | d2hRecordWrite
  | statusRecord (m : Fin 4) (src : BitVec 18)
  -- arrays (chapter 12)
  | form
  | linkAbort
  | leave
  | cellReceive (port : Port) (w0a w1a w0b w1b : W64)
  | hello (port : Port) (content : W32) (origin : BitVec 4)
  | phase (port : Port) (content : W32) (origin hops : BitVec 4)
  | probe (port : Port) (content : W32) (origin : BitVec 4)
  | echo (port : Port) (content : W32) (origin : BitVec 4)
  | timeHi (port : Port) (content : W32) (origin hops : BitVec 4)
  | timeLo (port : Port) (content : W32) (origin hops : BitVec 4)
  | beacon (port : Port) (content : W32) (origin hops : BitVec 4)
  | verify (port : Port) (content : W32) (origin hops : BitVec 4)
  | result (port : Port) (content : W32) (origin hops : BitVec 4)
  | breakNotice (port : Port) (content : W32) (origin hops : BitVec 4)
  | arrayEventReceive (port : Port) (body : BitVec 54)
  | arrayEventEnter
  | linkHostEv
  | portDown (port : Port) (cause : BitVec 3)
  | linkRecalibration (now : BitVec 10)
  -- waveform memory (chapter 13)
  | bar4Write (addr : Nat) (data : List Byte)
  | bar4Read (addr : Nat) (len : Nat)
  | fence
  | fenceDone
  | refresh (p : Fin 128) (bank : Fin 32) (waiting : Bool) (exceeded : Bool)
  | scrubRead (addr : Nat) (raced : Bool)
  | freqChange (relocked : Bool)
  | freqRelockTimeout
  | retrain
  | retrainSlice (p : Fin 128) (r : SliceResult)
  | remap
  | selfRefreshEntry (s : Fin 4)
  | sramScrub (m : Sram) (addr : Nat) (raced : Bool)
  | siroccoRegion (engine : Fin 9) (m : Sram) (addr : Nat) (accessed : Bool) (r : MarchResult)
  -- clocks (chapter 15)
  | spllApply
  | lockWindow (count : Nat)
  | syncEdge (pin : Bool)
  | syncTimeout
  | emit
  | refinLoss
  | coastWindow (ferr : W32)
  | lockTmo
  | sourceLoss (src : Fin 9)
  | restart
  | sysApply
  | gateRequest (domain : Fin 45)
  | gateErr (domain : Fin 45)
  | clusterWake (k : Fin 8)
  | aonStable
  -- start-up, mailbox, board (chapters 16, 17)
  | powerGood (nresetLow : Bool := false)
  | nresetLow (ns : Nat)
  | supplyFail (analogueInRange : Bool)
  | stageAdvance (r : StageResult)
  | otherSlotVerify (ok : Bool)
  | reckonerRestart
  | reckonerReady
  | info
  | calRead (mtpError : Bool := false)
  | health
  | mgmtRestart
  | report (readBackOk : Bool) (fails : Nat := 0)
  | identity
  | extend
  | flashWrite (readBackOk : Bool)
  | challenge
  | respond
  | mgmtAbort
  | regRead (off : Nat)
  | regWrite (off : Nat) (v : W32) (badPec : Bool := false)
  | smbStatus
  | alertSrc
  | smbReset (data : Byte) (badPec : Bool := false)
  | alertResponse
  | pcieLinkLoss
  | jtagInstruction (ir : BitVec 8)
  -- converters, calibration, telemetry, security (chapters 08, 09, 18, 19)
  | rotationStep (c : Fin 32) (saturated : Bool) (r : CheckResult)
  | calCompare (c : Fin 32)
  | calRunStart (c : Fin 32) (kind : CalKind)
  | calRunEnd (c : Fin 32) (gain ofs : BitVec 16) (failed : BitVec 18)
  | calAbort (c : Fin 32) (reason : BitVec 4)
  | run (c : Fin 32)
  | save (c : Fin 32)
  | mtpRecordWrite (c : Fin 32) (readBackOk : Bool)
  | mtpDeferExpiry (c : Fin 32)
  | rangeChange (c : Fin 32)
  | rangeEnd (c : Fin 32)
  | rateChange (d : Fin 4)
  | rateChangeEnd (d : Fin 4)
  | telemConversion (sensor : Fin 40) (valid : Bool) (v : BitVec 16)
  | trip (sensor : Fin 24)
  | advanceSvn
  | scrap
  | revokeRoot (r : Fin 4)
  | dbgCtrlWrite (be : BitVec 4) (v : W32)
  | tick
  | laneLock (port : Port) (lane : Fin 4)
  | refinReturn
  | sourceBack (src : Fin 9)
  | slewEnd
  | applyLockTimeout
  | sysBypass
  | formPhaseLimit (reason : BitVec 4) (pos : BitVec 4)
  | windowRead (addr : Nat) (len : Nat) (bar2 : Bool := false) (cfg : Bool := false)
  | stackWake (s : Fin 4)
  | frequencyMonitorWindow (khz : Nat)
deriving DecidableEq, Repr

end Sys2Proof
end

