-- ==== Sys2Proof/Decode.lean ====
section
/-! DEFINITION. Words of the operation table. spec/opcode_table.json gives no row any bits: the commands of this block are
not fetched as words. -/

namespace Sys2Proof

/-- The command that a word spells by the table's bits: none, since no row has bits. -/
def decodeTableWord (_nbits _w : Nat) : Option Instr := none

end Sys2Proof
end

