-- ==== Sys2Proof/Machine/Regs.lean ====
section
/-! DEFINITION. The BAR0 register map: every field card of the spec (chapters 02 to 19) as data, and one named
constant per field. A card gives a register's base address, its index strides, and its fields with class, apply
point and reset value, exactly as the card of the spec prints them (R12, R48 to R50).
Made from the spec's own field cards; bits a card leaves reserved are rows without a constant. -/

namespace Sys2Proof.Machine

/-- Access classes of R48. -/
inductive Cls | rw | ro | rwh | w1c | w1s | cmd | lock
deriving DecidableEq, Repr

/-- Reset domains of R49. -/
inductive Dom | powerOn | device | channel
deriving DecidableEq, Repr

/-- One field row of a card: its lowest bit, its width, class, apply point and reset value. -/
structure FieldSpec where
  lo : Nat
  len : Nat
  cls : Cls
  ap : Apply
  reset : Nat
deriving DecidableEq, Repr

/-- One card: its name, the address of its register with every index 0, the (stride, count) of each index from the
largest stride down, its reset domain and its fields. -/
structure Card where
  name : String
  base : Nat
  dims : List (Nat × Nat)
  dom : Dom
  fields : List FieldSpec
deriving DecidableEq, Repr

/-- A field of a register: the register's BAR0 address, the lowest bit and the width. -/
structure Fld where
  addr : Nat
  lo : Nat
  len : Nat
deriving DecidableEq, Repr

/-- Field cards of the DEV block, part 1. -/
def cardsDevA : List Card := [
  ⟨"DEV_ID", 0x0, [], .powerOn,
    [⟨0, 8, .ro, .imm, 0⟩, ⟨8, 4, .ro, .imm, 1⟩, ⟨12, 4, .ro, .imm, 0⟩, ⟨16, 16, .ro, .imm, 0x3264⟩]⟩,
  ⟨"DEV_STAGE", 0x10, [], .powerOn,
    [⟨0, 4, .ro, .imm, 0⟩, ⟨4, 4, .ro, .imm, 0⟩, ⟨8, 8, .ro, .imm, 0⟩, ⟨16, 1, .ro, .imm, 0⟩, ⟨17, 15, .ro, .imm, 0⟩]⟩,
  ⟨"DEV_PROFILE", 0x14, [], .device,
    [⟨0, 3, .rwh, .idle, 0⟩, ⟨3, 1, .w1c, .imm, 0⟩, ⟨4, 28, .ro, .imm, 0⟩]⟩,
  ⟨"DEV_CTRL", 0x20, [], .device,
    [⟨0, 1, .rw, .imm, 0⟩, ⟨1, 1, .cmd, .imm, 0⟩, ⟨2, 1, .ro, .imm, 0⟩, ⟨3, 29, .ro, .imm, 0⟩]⟩,
  ⟨"DEV_IRQ_CH", 0x100, [], .device,
    [⟨0, 32, .ro, .imm, 0⟩]⟩,
  ⟨"DEV_IRQ_BLK", 0x104, [], .device,
    [⟨0, 1, .ro, .imm, 0⟩, ⟨1, 1, .ro, .imm, 0⟩, ⟨2, 1, .ro, .imm, 0⟩, ⟨3, 1, .ro, .imm, 0⟩, ⟨4, 1, .ro, .imm, 0⟩, ⟨5, 1, .ro, .imm, 0⟩, ⟨6, 1, .ro, .imm, 0⟩, ⟨7, 1, .ro, .imm, 0⟩, ⟨8, 4, .ro, .imm, 0⟩, ⟨12, 1, .ro, .imm, 0⟩, ⟨13, 1, .ro, .imm, 0⟩, ⟨14, 8, .ro, .imm, 0⟩, ⟨22, 10, .ro, .imm, 0⟩]⟩,
  ⟨"DEV_IRQ_MASK_CH", 0x108, [], .device,
    [⟨0, 32, .rw, .imm, 0⟩]⟩,
  ⟨"DEV_IRQ_MASK_BLK", 0x10C, [], .device,
    [⟨0, 22, .rw, .imm, 0⟩, ⟨22, 10, .ro, .imm, 0⟩]⟩,
  ⟨"DEV_ERR_STATUS", 0x120, [], .device,
    [⟨0, 1, .w1c, .imm, 0⟩, ⟨1, 1, .w1c, .imm, 0⟩, ⟨2, 1, .w1c, .imm, 0⟩, ⟨3, 1, .w1c, .imm, 0⟩, ⟨4, 28, .ro, .imm, 0⟩]⟩,
  ⟨"DEV_ERR_ADDR", 0x124, [], .device,
    [⟨0, 28, .ro, .imm, 0⟩, ⟨28, 3, .ro, .imm, 0⟩, ⟨31, 1, .ro, .imm, 0⟩]⟩,
  ⟨"DEV_RST", 0x30, [], .powerOn,
    [⟨0, 1, .cmd, .imm, 0⟩, ⟨1, 1, .ro, .imm, 0⟩, ⟨2, 30, .ro, .imm, 0⟩]⟩,
  ⟨"DEV_RST_CH", 0x34, [], .device,
    [⟨0, 5, .rw, .imm, 0⟩, ⟨5, 1, .cmd, .imm, 0⟩, ⟨6, 1, .ro, .imm, 0⟩, ⟨7, 4, .ro, .imm, 0⟩, ⟨11, 1, .ro, .imm, 0⟩, ⟨12, 5, .ro, .imm, 0⟩, ⟨17, 15, .ro, .imm, 0⟩]⟩]

/-- Field cards of the DEV block, part 2. -/
def cardsDevB : List Card := [
  ⟨"DEV_ALERT_MASK", 0x110, [], .device,
    [⟨0, 24, .rw, .imm, 0x8000c0⟩, ⟨24, 8, .ro, .imm, 0⟩]⟩,
  ⟨"DEV_ALERT_SRC", 0x114, [], .device,
    [⟨0, 22, .ro, .imm, 0⟩, ⟨22, 1, .ro, .imm, 0⟩, ⟨23, 1, .ro, .imm, 0⟩, ⟨24, 8, .ro, .imm, 0⟩]⟩,
  ⟨"DEV_PIN_STATUS", 0x118, [], .powerOn,
    [⟨0, 16, .ro, .imm, 0⟩, ⟨16, 1, .ro, .imm, 0⟩, ⟨17, 1, .ro, .imm, 0⟩, ⟨18, 1, .ro, .imm, 0⟩, ⟨19, 2, .ro, .imm, 0⟩, ⟨21, 11, .ro, .imm, 0⟩]⟩,
  ⟨"DEV_MSIX_REARM", 0x200, [(0x4, 64)], .device,
    [⟨0, 32, .w1s, .imm, 0⟩]⟩,
  ⟨"DEV_MSIX_MOD", 0x2000, [(0x4, 2048)], .device,
    [⟨0, 16, .rw, .imm, 0⟩, ⟨16, 16, .ro, .imm, 0⟩]⟩,
  ⟨"DEV_MSIX_PBA", 0x4000, [(0x4, 64)], .device,
    [⟨0, 32, .ro, .imm, 0⟩]⟩,
  ⟨"DEV_MSIX_ADDR", 0x8000, [(0x10, 2048), (0x4, 2)], .device,
    [⟨0, 32, .rw, .imm, 0⟩]⟩,
  ⟨"DEV_MSIX_DATA", 0x8008, [(0x10, 2048)], .device,
    [⟨0, 32, .rw, .imm, 0⟩]⟩,
  ⟨"DEV_MSIX_CTRL", 0x800C, [(0x10, 2048)], .device,
    [⟨0, 1, .rw, .imm, 1⟩, ⟨1, 31, .ro, .imm, 0⟩]⟩]

/-- Field cards of the CLK block, part 1. -/
def cardsClkA : List Card := [
  ⟨"CLK_SPLL_CFG", 0x10000, [], .device,
    [⟨0, 4, .rw, .imm, 0⟩, ⟨4, 11, .rw, .imm, 0x80⟩, ⟨15, 17, .ro, .imm, 0⟩]⟩,
  ⟨"CLK_SPLL_FRAC", 0x10004, [], .device,
    [⟨0, 32, .rw, .imm, 0⟩]⟩,
  ⟨"CLK_SPLL_CTRL", 0x10008, [], .device,
    [⟨0, 1, .cmd, .imm, 0⟩, ⟨1, 1, .ro, .imm, 0⟩, ⟨2, 30, .ro, .imm, 0⟩]⟩,
  ⟨"CLK_SPLL_STATUS", 0x1000C, [], .device,
    [⟨0, 3, .ro, .imm, 0⟩, ⟨3, 4, .ro, .imm, 0⟩, ⟨7, 2, .ro, .imm, 0⟩, ⟨9, 3, .ro, .imm, 0⟩, ⟨12, 4, .ro, .imm, 0⟩, ⟨16, 1, .ro, .imm, 1⟩, ⟨17, 1, .ro, .imm, 1⟩, ⟨18, 14, .ro, .imm, 0⟩]⟩,
  ⟨"CLK_SYNC_CFG", 0x10010, [], .device,
    [⟨0, 2, .rw, .imm, 0⟩, ⟨2, 4, .rw, .imm, 0⟩, ⟨6, 2, .rw, .tick, 0⟩, ⟨8, 1, .cmd, .imm, 0⟩, ⟨9, 1, .ro, .imm, 0⟩, ⟨10, 8, .rw, .imm, 0xa⟩, ⟨18, 14, .ro, .imm, 0⟩]⟩,
  ⟨"CLK_SYNC_STATUS", 0x10014, [], .device,
    [⟨0, 1, .w1c, .imm, 0⟩, ⟨1, 1, .ro, .imm, 0⟩, ⟨2, 14, .ro, .imm, 0⟩, ⟨16, 16, .rwh, .imm, 0⟩]⟩,
  ⟨"CLK_SYS_CFG", 0x10020, [], .powerOn,
    [⟨0, 1, .rw, .imm, 0⟩, ⟨1, 5, .rw, .imm, 4⟩, ⟨6, 1, .rw, .imm, 0⟩, ⟨7, 7, .rw, .imm, 1⟩, ⟨14, 7, .rw, .imm, 0x20⟩, ⟨21, 11, .ro, .imm, 0⟩]⟩,
  ⟨"CLK_MON_CFG", 0x10030, [], .device,
    [⟨0, 8, .rw, .imm, 0xa⟩, ⟨8, 24, .ro, .imm, 0⟩]⟩,
  ⟨"CLK_FERR", 0x10034, [], .device,
    [⟨0, 32, .ro, .imm, 0⟩]⟩,
  ⟨"CLK_REFIN_FREQ", 0x10038, [], .device,
    [⟨0, 20, .ro, .imm, 0⟩, ⟨20, 11, .ro, .imm, 0⟩, ⟨31, 1, .ro, .imm, 0⟩]⟩,
  ⟨"CLK_LOSS", 0x10040, [], .powerOn,
    [⟨0, 10, .w1c, .imm, 0⟩, ⟨10, 6, .ro, .imm, 0⟩, ⟨16, 10, .ro, .imm, 0⟩, ⟨26, 6, .ro, .imm, 0⟩]⟩,
  ⟨"CLK_CMD", 0x10044, [], .device,
    [⟨0, 1, .cmd, .imm, 0⟩, ⟨1, 1, .cmd, .imm, 0⟩, ⟨2, 1, .ro, .imm, 0⟩, ⟨3, 29, .ro, .imm, 0⟩]⟩]

/-- Field cards of the CLK block, part 2. -/
def cardsClkB : List Card := [
  ⟨"CLK_CMD_STATUS", 0x10048, [], .device,
    [⟨0, 4, .ro, .imm, 0⟩, ⟨4, 2, .ro, .imm, 0⟩, ⟨6, 2, .ro, .imm, 0⟩, ⟨8, 24, .ro, .imm, 0⟩]⟩,
  ⟨"CLK_IRQ_STATUS", 0x10050, [], .device,
    [⟨0, 1, .w1c, .imm, 0⟩, ⟨1, 1, .w1c, .imm, 0⟩, ⟨2, 1, .w1c, .imm, 0⟩, ⟨3, 1, .w1c, .imm, 0⟩, ⟨4, 1, .w1c, .imm, 0⟩, ⟨5, 1, .w1c, .imm, 0⟩, ⟨6, 1, .w1c, .imm, 0⟩, ⟨7, 1, .w1c, .imm, 0⟩, ⟨8, 24, .ro, .imm, 0⟩]⟩,
  ⟨"CLK_IRQ_EN", 0x10054, [], .device,
    [⟨0, 8, .rw, .imm, 0⟩, ⟨8, 24, .ro, .imm, 0⟩]⟩,
  ⟨"CLK_GATE_ERR", 0x10058, [], .device,
    [⟨0, 6, .ro, .imm, 0⟩, ⟨6, 2, .ro, .imm, 0⟩, ⟨8, 16, .rwh, .imm, 0⟩, ⟨24, 7, .ro, .imm, 0⟩, ⟨31, 1, .w1c, .imm, 0⟩]⟩,
  ⟨"CLK_RUN", 0x10060, [(0x4, 2)], .device,
    [⟨0, 32, .ro, .imm, 0⟩]⟩,
  ⟨"CLK_PLL_STATUS", 0x10070, [], .device,
    [⟨0, 1, .ro, .imm, 0⟩, ⟨1, 4, .ro, .imm, 0⟩, ⟨5, 1, .ro, .imm, 0⟩, ⟨6, 1, .ro, .imm, 0⟩, ⟨7, 1, .ro, .imm, 0⟩, ⟨8, 1, .ro, .imm, 0⟩, ⟨9, 23, .ro, .imm, 0⟩]⟩,
  ⟨"CLK_CKO_CFG", 0x10080, [(0x8, 2)], .device,
    [⟨0, 1, .rw, .imm, 0⟩, ⟨1, 1, .rw, .imm, 0⟩, ⟨2, 12, .rw, .imm, 0x40⟩, ⟨14, 18, .ro, .imm, 0⟩]⟩,
  ⟨"CLK_CKO_SSC", 0x10084, [(0x8, 2)], .device,
    [⟨0, 1, .rw, .imm, 0⟩, ⟨1, 6, .rw, .imm, 1⟩, ⟨7, 7, .rw, .imm, 0x20⟩, ⟨14, 18, .ro, .imm, 0⟩]⟩]

/-- Field cards of the ABACUS block. -/
def cardsAbacus : List Card := [
  ⟨"ABACUS_TIME_LO", 0x20000, [], .device,
    [⟨0, 32, .rw, .imm, 0⟩]⟩,
  ⟨"ABACUS_TIME_HI", 0x20004, [], .device,
    [⟨0, 32, .rw, .imm, 0⟩]⟩,
  ⟨"ABACUS_CTRL", 0x20008, [], .device,
    [⟨0, 1, .cmd, .imm, 0⟩, ⟨1, 1, .cmd, .imm, 0⟩, ⟨2, 1, .ro, .imm, 0⟩, ⟨3, 29, .ro, .imm, 0⟩]⟩,
  ⟨"ABACUS_STATUS", 0x2000C, [], .device,
    [⟨0, 4, .ro, .imm, 0⟩, ⟨4, 2, .ro, .imm, 0⟩, ⟨6, 26, .ro, .imm, 0⟩]⟩,
  ⟨"ABACUS_DONE", 0x20010, [], .device,
    [⟨0, 1, .ro, .imm, 0⟩, ⟨1, 7, .ro, .imm, 0⟩, ⟨8, 9, .ro, .imm, 0⟩, ⟨17, 9, .ro, .imm, 0⟩, ⟨26, 6, .ro, .imm, 0⟩]⟩]

/-- Field cards of the EVT block, part 1. -/
def cardsEvtA : List Card := [
  ⟨"EVT_DT", 0x30000, [(0x4, 2)], .powerOn,
    [⟨0, 32, .ro, .imm, 0⟩]⟩,
  ⟨"EVT_DT_LOAD", 0x30008, [(0x4, 2)], .device,
    [⟨0, 32, .rw, .imm, 0⟩]⟩,
  ⟨"EVT_CTRL", 0x30010, [], .device,
    [⟨0, 1, .cmd, .imm, 0⟩, ⟨1, 1, .ro, .imm, 0⟩, ⟨2, 30, .ro, .imm, 0⟩]⟩,
  ⟨"EVT_STATUS", 0x30014, [], .device,
    [⟨0, 4, .ro, .imm, 0⟩, ⟨4, 2, .ro, .imm, 0⟩, ⟨6, 1, .ro, .imm, 0⟩, ⟨7, 1, .ro, .imm, 0⟩, ⟨8, 24, .ro, .imm, 0⟩]⟩,
  ⟨"EVT_DT_GAP", 0x30018, [], .device,
    [⟨0, 32, .ro, .imm, 0⟩]⟩,
  ⟨"EVT_IRQ_STATUS", 0x30020, [], .device,
    [⟨0, 1, .w1c, .imm, 0⟩, ⟨1, 1, .w1c, .imm, 0⟩, ⟨2, 1, .w1c, .imm, 0⟩, ⟨3, 1, .w1c, .imm, 0⟩, ⟨4, 1, .w1c, .imm, 0⟩, ⟨5, 1, .w1c, .imm, 0⟩, ⟨6, 26, .ro, .imm, 0⟩]⟩,
  ⟨"EVT_IRQ_EN", 0x30024, [], .device,
    [⟨0, 6, .rw, .imm, 0⟩, ⟨6, 26, .ro, .imm, 0⟩]⟩,
  ⟨"EVT_HOST_T", 0x30030, [(0x4, 2)], .device,
    [⟨0, 32, .rw, .imm, 0⟩]⟩,
  ⟨"EVT_HOST_EV", 0x30038, [], .device,
    [⟨0, 8, .rw, .imm, 0⟩, ⟨8, 1, .rw, .imm, 0⟩, ⟨9, 1, .cmd, .imm, 0⟩, ⟨10, 1, .ro, .imm, 0⟩, ⟨11, 21, .ro, .imm, 0⟩]⟩,
  ⟨"EVT_HOST_STATUS", 0x3003C, [], .device,
    [⟨0, 4, .ro, .imm, 0⟩, ⟨4, 2, .ro, .imm, 0⟩, ⟨6, 26, .ro, .imm, 0⟩]⟩,
  ⟨"EVT_TRIG_CFG", 0x30100, [(0x4, 16)], .device,
    [⟨0, 1, .rw, .tick, 0⟩, ⟨1, 2, .rw, .tick, 0⟩, ⟨3, 1, .ro, .imm, 0⟩, ⟨4, 8, .rw, .tick, 0⟩, ⟨12, 3, .rw, .tick, 0⟩, ⟨15, 1, .ro, .imm, 0⟩, ⟨16, 16, .rw, .tick, 0⟩]⟩,
  ⟨"EVT_TRIG_LAST", 0x30180, [(0x8, 16), (0x4, 2)], .device,
    [⟨0, 32, .ro, .imm, 0⟩]⟩]

/-- Field cards of the EVT block, part 2. -/
def cardsEvtB : List Card := [
  ⟨"EVT_TRIG_CNT", 0x30200, [(0x4, 16)], .device,
    [⟨0, 24, .rwh, .imm, 0⟩, ⟨24, 8, .rwh, .imm, 0⟩]⟩,
  ⟨"EVT_TRIG_SNAP", 0x30240, [(0x4, 16)], .device,
    [⟨0, 24, .ro, .imm, 0⟩, ⟨24, 8, .ro, .imm, 0⟩]⟩,
  ⟨"EVT_MK_CFG", 0x30280, [(0x4, 16)], .device,
    [⟨0, 1, .rw, .tick, 0⟩, ⟨1, 2, .rw, .tick, 0⟩, ⟨3, 5, .rw, .tick, 0⟩, ⟨8, 2, .rw, .tick, 0⟩, ⟨10, 8, .rw, .tick, 0⟩, ⟨18, 14, .ro, .imm, 0⟩]⟩,
  ⟨"EVT_TMR_START", 0x30300, [(0x20, 8), (0x4, 2)], .device,
    [⟨0, 32, .rw, .idle, 0⟩]⟩,
  ⟨"EVT_TMR_PERIOD", 0x30308, [(0x20, 8)], .device,
    [⟨0, 32, .rw, .idle, 0⟩]⟩,
  ⟨"EVT_TMR_CTRL", 0x3030C, [(0x20, 8)], .device,
    [⟨0, 1, .rw, .tick, 0⟩, ⟨1, 7, .ro, .imm, 0⟩, ⟨8, 8, .rw, .idle, 0⟩, ⟨16, 16, .rw, .idle, 0⟩]⟩,
  ⟨"EVT_TMR_STAT", 0x30310, [(0x20, 8)], .device,
    [⟨0, 1, .ro, .imm, 0⟩, ⟨1, 1, .w1c, .imm, 0⟩, ⟨2, 14, .ro, .imm, 0⟩, ⟨16, 16, .ro, .imm, 0⟩]⟩,
  ⟨"EVT_LOG_MASK", 0x30400, [(0x4, 8)], .device,
    [⟨0, 32, .rw, .tick, 0⟩]⟩,
  ⟨"EVT_LOG_CFG", 0x30420, [], .device,
    [⟨0, 18, .rw, .tick, 0⟩, ⟨18, 13, .ro, .imm, 0⟩, ⟨31, 1, .rw, .tick, 0⟩]⟩,
  ⟨"EVT_CNT", 0x30440, [(0x8, 4), (0x4, 2)], .device,
    [⟨0, 32, .rwh, .imm, 0⟩]⟩,
  ⟨"EVT_SNAP", 0x30460, [(0x8, 4), (0x4, 2)], .device,
    [⟨0, 32, .ro, .imm, 0⟩]⟩]

/-- Field cards of the SEC block. -/
def cardsSec : List Card := [
  ⟨"SEC_BOOT", 0x40000, [], .device,
    [⟨0, 1, .ro, .imm, 0⟩, ⟨1, 1, .ro, .imm, 0⟩, ⟨2, 1, .ro, .imm, 0⟩, ⟨3, 1, .ro, .imm, 0⟩, ⟨4, 28, .ro, .imm, 0⟩]⟩,
  ⟨"SEC_BOOT_VER", 0x40004, [], .device,
    [⟨0, 32, .ro, .imm, 0⟩]⟩,
  ⟨"SEC_LC", 0x40008, [], .powerOn,
    [⟨0, 2, .ro, .imm, 0⟩, ⟨2, 2, .ro, .imm, 0⟩, ⟨4, 7, .ro, .imm, 0⟩, ⟨11, 4, .ro, .imm, 0⟩, ⟨15, 4, .ro, .imm, 0⟩, ⟨19, 1, .ro, .imm, 0⟩, ⟨20, 12, .ro, .imm, 0⟩]⟩,
  ⟨"SEC_SERIAL", 0x40010, [(0x4, 2)], .powerOn,
    [⟨0, 32, .ro, .imm, 0⟩]⟩,
  ⟨"SEC_DBG_CTRL", 0x40020, [], .device,
    [⟨0, 1, .lock, .imm, 0⟩, ⟨1, 1, .lock, .imm, 0⟩, ⟨2, 1, .lock, .imm, 0⟩, ⟨3, 29, .lock, .imm, 0⟩]⟩,
  ⟨"SEC_IDX", 0x40030, [(0x4, 2)], .device,
    [⟨0, 21, .ro, .imm, 0⟩, ⟨21, 11, .ro, .imm, 0⟩]⟩,
  ⟨"SEC_CMD", 0x40040, [], .device,
    [⟨0, 4, .rw, .imm, 0⟩, ⟨4, 2, .rw, .imm, 0⟩, ⟨6, 1, .cmd, .imm, 0⟩, ⟨7, 1, .ro, .imm, 0⟩, ⟨8, 8, .ro, .imm, 0⟩, ⟨16, 16, .rw, .imm, 0⟩]⟩,
  ⟨"SEC_CMD_STATUS", 0x40044, [], .device,
    [⟨0, 4, .ro, .imm, 0⟩, ⟨4, 2, .ro, .imm, 0⟩, ⟨6, 26, .ro, .imm, 0⟩]⟩,
  ⟨"SEC_IRQ_STATUS", 0x40050, [], .device,
    [⟨0, 1, .w1c, .imm, 0⟩, ⟨1, 1, .w1c, .imm, 0⟩, ⟨2, 1, .w1c, .imm, 0⟩, ⟨3, 1, .w1c, .imm, 0⟩, ⟨4, 28, .ro, .imm, 0⟩]⟩,
  ⟨"SEC_IRQ_EN", 0x40054, [], .device,
    [⟨0, 4, .rw, .imm, 0⟩, ⟨4, 28, .ro, .imm, 0⟩]⟩]

/-- Field cards of the MGMT block. -/
def cardsMgmt : List Card := [
  ⟨"MGMT_CMD", 0x50000, [], .device,
    [⟨0, 8, .rw, .imm, 0⟩, ⟨8, 1, .cmd, .imm, 0⟩, ⟨9, 1, .cmd, .imm, 0⟩, ⟨10, 1, .ro, .imm, 0⟩, ⟨11, 21, .ro, .imm, 0⟩]⟩,
  ⟨"MGMT_STATUS", 0x50004, [], .device,
    [⟨0, 4, .ro, .imm, 0⟩, ⟨4, 2, .ro, .imm, 0⟩, ⟨6, 8, .ro, .imm, 0⟩, ⟨14, 1, .ro, .imm, 0⟩, ⟨15, 17, .ro, .imm, 0⟩]⟩,
  ⟨"MGMT_ARG", 0x50010, [(0x4, 8)], .device,
    [⟨0, 32, .rw, .imm, 0⟩]⟩,
  ⟨"MGMT_RES", 0x50030, [(0x4, 8)], .device,
    [⟨0, 32, .ro, .imm, 0⟩]⟩,
  ⟨"MGMT_LEN", 0x50050, [], .device,
    [⟨0, 13, .ro, .imm, 0⟩, ⟨13, 19, .ro, .imm, 0⟩]⟩,
  ⟨"MGMT_IRQ_STATUS", 0x50058, [], .device,
    [⟨0, 1, .w1c, .imm, 0⟩, ⟨1, 1, .w1c, .imm, 0⟩, ⟨2, 1, .w1c, .imm, 0⟩, ⟨3, 29, .ro, .imm, 0⟩]⟩,
  ⟨"MGMT_IRQ_EN", 0x5005C, [], .device,
    [⟨0, 3, .rw, .imm, 0⟩, ⟨3, 29, .ro, .imm, 0⟩]⟩,
  ⟨"MGMT_BUF", 0x51000, [(0x4, 1024)], .device,
    [⟨0, 32, .rwh, .imm, 0⟩]⟩]

/-- Field cards of the TELEM block. -/
def cardsTelem : List Card := [
  ⟨"TELEM_TEMP", 0x60000, [(0x4, 24)], .powerOn,
    [⟨0, 16, .ro, .imm, 0⟩, ⟨16, 1, .ro, .imm, 0⟩, ⟨17, 15, .ro, .imm, 0⟩]⟩,
  ⟨"TELEM_VOLT", 0x60080, [(0x4, 16)], .powerOn,
    [⟨0, 16, .ro, .imm, 0⟩, ⟨16, 1, .ro, .imm, 0⟩, ⟨17, 1, .ro, .imm, 0⟩, ⟨18, 1, .ro, .imm, 0⟩, ⟨19, 13, .ro, .imm, 0⟩]⟩,
  ⟨"TELEM_VLIM", 0x600C0, [(0x4, 16)], .device,
    [⟨0, 16, .rw, .imm, 0⟩, ⟨16, 16, .rw, .imm, 0⟩]⟩,
  ⟨"TELEM_THERM", 0x60100, [], .device,
    [⟨0, 8, .rw, .imm, 0⟩, ⟨8, 8, .rw, .imm, 0⟩, ⟨16, 4, .rw, .imm, 2⟩, ⟨20, 2, .ro, .imm, 0⟩, ⟨22, 5, .ro, .imm, 0⟩, ⟨27, 5, .ro, .imm, 0⟩]⟩,
  ⟨"TELEM_PEAK", 0x60104, [], .powerOn,
    [⟨0, 16, .rwh, .imm, 0x8000⟩, ⟨16, 5, .ro, .imm, 0⟩, ⟨21, 11, .ro, .imm, 0⟩]⟩,
  ⟨"TELEM_IRQ_STATUS", 0x60110, [], .device,
    [⟨0, 1, .w1c, .imm, 0⟩, ⟨1, 1, .w1c, .imm, 0⟩, ⟨2, 1, .w1c, .imm, 0⟩, ⟨3, 1, .w1c, .imm, 0⟩, ⟨4, 1, .w1c, .imm, 0⟩, ⟨5, 1, .w1c, .imm, 0⟩, ⟨6, 1, .w1c, .imm, 0⟩, ⟨7, 25, .ro, .imm, 0⟩]⟩,
  ⟨"TELEM_IRQ_EN", 0x60114, [], .device,
    [⟨0, 7, .rw, .imm, 6⟩, ⟨7, 25, .ro, .imm, 0⟩]⟩,
  ⟨"TELEM_PWR_CL", 0x60120, [], .device,
    [⟨0, 8, .rwh, .imm, 0⟩, ⟨8, 1, .w1c, .imm, 0⟩, ⟨9, 23, .ro, .imm, 0⟩]⟩,
  ⟨"TELEM_PWR_CTRL", 0x60124, [], .device,
    [⟨0, 1, .rw, .imm, 1⟩, ⟨1, 7, .ro, .imm, 0⟩, ⟨8, 8, .rw, .imm, 0xa⟩, ⟨16, 16, .ro, .imm, 0⟩]⟩,
  ⟨"TELEM_SW_RATE", 0x60128, [], .device,
    [⟨0, 8, .rwh, .idle, 0⟩, ⟨8, 1, .w1c, .imm, 0⟩, ⟨9, 4, .ro, .imm, 0⟩, ⟨13, 19, .ro, .imm, 0⟩]⟩]

/-- Field cards of the LINK block, part 1. -/
def cardsLinkA : List Card := [
  ⟨"LINK_CFG", 0x80000, [], .device,
    [⟨0, 1, .rw, .idle, 0⟩, ⟨1, 1, .rw, .idle, 0⟩, ⟨2, 4, .rw, .idle, 0⟩, ⟨6, 4, .rw, .idle, 0⟩, ⟨10, 1, .rw, .imm, 0⟩, ⟨11, 1, .rw, .imm, 0⟩, ⟨12, 8, .rw, .imm, 0⟩, ⟨20, 12, .ro, .imm, 0⟩]⟩,
  ⟨"LINK_CMD", 0x80004, [], .device,
    [⟨0, 1, .cmd, .imm, 0⟩, ⟨1, 1, .cmd, .imm, 0⟩, ⟨2, 1, .cmd, .imm, 0⟩, ⟨3, 1, .ro, .imm, 0⟩, ⟨4, 28, .ro, .imm, 0⟩]⟩,
  ⟨"LINK_CMD_STATUS", 0x80008, [], .device,
    [⟨0, 4, .ro, .imm, 0⟩, ⟨4, 2, .ro, .imm, 0⟩, ⟨6, 4, .ro, .imm, 0⟩, ⟨10, 4, .ro, .imm, 0⟩, ⟨14, 3, .ro, .imm, 0⟩, ⟨17, 15, .ro, .imm, 0⟩]⟩,
  ⟨"LINK_STATUS", 0x8000C, [], .device,
    [⟨0, 2, .ro, .imm, 0⟩, ⟨2, 1, .ro, .imm, 0⟩, ⟨3, 1, .ro, .imm, 0⟩, ⟨4, 1, .ro, .imm, 0⟩, ⟨5, 4, .ro, .imm, 0⟩, ⟨9, 1, .ro, .imm, 0⟩, ⟨10, 3, .ro, .imm, 0⟩, ⟨13, 19, .ro, .imm, 0⟩]⟩,
  ⟨"LINK_TICK_OFS", 0x80010, [], .device,
    [⟨0, 9, .ro, .imm, 0⟩, ⟨9, 7, .ro, .imm, 0⟩, ⟨16, 10, .ro, .imm, 0⟩, ⟨26, 6, .ro, .imm, 0⟩]⟩,
  ⟨"LINK_PORT", 0x80020, [(0x4, 2)], .device,
    [⟨0, 8, .ro, .imm, 0⟩, ⟨8, 4, .ro, .imm, 0⟩, ⟨12, 16, .rwh, .imm, 0⟩, ⟨28, 4, .rwh, .imm, 0⟩]⟩,
  ⟨"LINK_HOST_T", 0x80030, [(0x4, 2)], .device,
    [⟨0, 32, .rw, .imm, 0⟩]⟩,
  ⟨"LINK_HOST_EV", 0x80038, [], .device,
    [⟨0, 8, .rw, .imm, 0⟩, ⟨8, 1, .cmd, .imm, 0⟩, ⟨9, 1, .ro, .imm, 0⟩, ⟨10, 4, .ro, .imm, 0⟩, ⟨14, 18, .ro, .imm, 0⟩]⟩,
  ⟨"LINK_FWD", 0x80040, [(0x4, 8)], .device,
    [⟨0, 1, .rw, .tick, 0⟩, ⟨1, 8, .rw, .tick, 0⟩, ⟨9, 8, .rw, .tick, 0⟩, ⟨17, 15, .rw, .tick, 0x28⟩]⟩,
  ⟨"LINK_IRQ_STATUS", 0x80060, [], .device,
    [⟨0, 1, .w1c, .imm, 0⟩, ⟨1, 1, .w1c, .imm, 0⟩, ⟨2, 1, .w1c, .imm, 0⟩, ⟨3, 1, .w1c, .imm, 0⟩, ⟨4, 1, .w1c, .imm, 0⟩, ⟨5, 1, .w1c, .imm, 0⟩, ⟨6, 26, .ro, .imm, 0⟩]⟩,
  ⟨"LINK_IRQ_EN", 0x80064, [], .device,
    [⟨0, 6, .rw, .imm, 0⟩, ⟨6, 26, .ro, .imm, 0⟩]⟩,
  ⟨"LINK_EVCNT", 0x80070, [], .device,
    [⟨0, 16, .rwh, .imm, 0⟩, ⟨16, 16, .rwh, .imm, 0⟩]⟩]

/-- Field cards of the LINK block, part 2. -/
def cardsLinkB : List Card := [
  ⟨"LINK_CNT", 0x80100, [(0x10, 2), (0x8, 2), (0x4, 2)], .device,
    [⟨0, 32, .rwh, .imm, 0⟩]⟩,
  ⟨"LINK_SNAP", 0x80120, [(0x10, 2), (0x8, 2), (0x4, 2)], .device,
    [⟨0, 32, .ro, .imm, 0⟩]⟩]

/-- Field cards of the HBM block. -/
def cardsHbm : List Card := [
  ⟨"HBM_STATUS", 0x100000, [(0x10000, 4)], .powerOn,
    [⟨0, 2, .ro, .imm, 0⟩, ⟨2, 2, .ro, .imm, 0⟩, ⟨4, 1, .ro, .imm, 0⟩, ⟨5, 3, .ro, .imm, 0⟩, ⟨8, 8, .ro, .imm, 0⟩, ⟨16, 16, .ro, .imm, 0⟩]⟩,
  ⟨"HBM_REF", 0x100004, [(0x10000, 4)], .device,
    [⟨0, 32, .rwh, .imm, 0⟩]⟩,
  ⟨"HBM_CTL_CNT", 0x100010, [(0x10000, 4), (0x8, 2), (0x4, 2)], .device,
    [⟨0, 32, .rwh, .imm, 0⟩]⟩,
  ⟨"HBM_CTL_SNAP", 0x100020, [(0x10000, 4), (0x8, 2), (0x4, 2)], .device,
    [⟨0, 32, .ro, .imm, 0⟩]⟩,
  ⟨"HBM_PC_CNT", 0x100100, [(0x10000, 4), (0x10, 32), (0x8, 2), (0x4, 2)], .device,
    [⟨0, 32, .rwh, .imm, 0⟩]⟩,
  ⟨"HBM_PC_SNAP", 0x100300, [(0x10000, 4), (0x10, 32), (0x8, 2), (0x4, 2)], .device,
    [⟨0, 32, .ro, .imm, 0⟩]⟩,
  ⟨"HBM_EYE", 0x100800, [(0x10000, 4), (0x20, 32), (0x4, 8)], .powerOn,
    [⟨0, 8, .ro, .imm, 0⟩, ⟨8, 8, .ro, .imm, 0⟩, ⟨16, 8, .ro, .imm, 0⟩, ⟨24, 8, .ro, .imm, 0⟩]⟩]

/-- Field cards of the MEM block, part 1. -/
def cardsMemA : List Card := [
  ⟨"MEM_HEALTH", 0x180000, [], .powerOn,
    [⟨0, 8, .ro, .imm, 0⟩, ⟨8, 8, .ro, .imm, 0⟩, ⟨16, 8, .ro, .imm, 0⟩, ⟨24, 8, .ro, .imm, 0⟩]⟩,
  ⟨"MEM_FENCE", 0x180010, [], .device,
    [⟨0, 1, .cmd, .imm, 0⟩, ⟨1, 1, .ro, .imm, 0⟩, ⟨2, 4, .ro, .imm, 0⟩, ⟨6, 26, .ro, .imm, 0⟩]⟩,
  ⟨"MEM_MAP_CTRL", 0x180020, [], .device,
    [⟨0, 1, .cmd, .imm, 0⟩, ⟨1, 1, .ro, .imm, 0⟩, ⟨2, 30, .ro, .imm, 0⟩]⟩,
  ⟨"MEM_MAP_STATUS", 0x180024, [], .device,
    [⟨0, 4, .ro, .imm, 0⟩, ⟨4, 2, .ro, .imm, 0⟩, ⟨6, 2, .ro, .imm, 0⟩, ⟨8, 24, .ro, .imm, 0⟩]⟩,
  ⟨"MEM_FREQ_CTRL", 0x180030, [], .device,
    [⟨0, 2, .rwh, .idle, 0⟩, ⟨2, 1, .w1c, .imm, 0⟩, ⟨3, 29, .ro, .imm, 0⟩]⟩,
  ⟨"MEM_FREQ_STATUS", 0x180034, [], .device,
    [⟨0, 4, .ro, .imm, 0⟩, ⟨4, 2, .ro, .imm, 0⟩, ⟨6, 1, .ro, .imm, 0⟩, ⟨7, 2, .ro, .imm, 0⟩, ⟨9, 2, .ro, .imm, 0⟩, ⟨11, 21, .ro, .imm, 0⟩]⟩,
  ⟨"MEM_TRAIN_CMD", 0x180040, [], .device,
    [⟨0, 7, .rw, .imm, 0⟩, ⟨7, 1, .rw, .imm, 0⟩, ⟨8, 1, .cmd, .imm, 0⟩, ⟨9, 1, .ro, .imm, 0⟩, ⟨10, 22, .ro, .imm, 0⟩]⟩,
  ⟨"MEM_TRAIN_STATUS", 0x180044, [], .device,
    [⟨0, 4, .ro, .imm, 0⟩, ⟨4, 2, .ro, .imm, 0⟩, ⟨6, 7, .ro, .imm, 0⟩, ⟨13, 1, .ro, .imm, 0⟩, ⟨14, 18, .ro, .imm, 0⟩]⟩,
  ⟨"MEM_RETRAIN_CFG", 0x180048, [], .device,
    [⟨0, 5, .rw, .imm, 0xa⟩, ⟨5, 1, .rw, .imm, 1⟩, ⟨6, 2, .ro, .imm, 0⟩, ⟨8, 8, .rw, .imm, 0x14⟩, ⟨16, 16, .ro, .imm, 0⟩]⟩,
  ⟨"MEM_QOS", 0x180060, [(0x4, 6)], .device,
    [⟨0, 1, .rwh, .imm, 0⟩, ⟨1, 1, .w1c, .imm, 0⟩, ⟨2, 6, .ro, .imm, 0⟩, ⟨8, 16, .rw, .imm, 0⟩, ⟨24, 8, .ro, .imm, 0⟩]⟩,
  ⟨"MEM_SCRUB", 0x180080, [], .device,
    [⟨0, 1, .rw, .imm, 1⟩, ⟨1, 7, .ro, .imm, 0⟩, ⟨8, 8, .rw, .imm, 0x18⟩, ⟨16, 16, .rwh, .imm, 0⟩]⟩,
  ⟨"MEM_ECC", 0x180090, [(0x4, 2)], .device,
    [⟨0, 32, .rwh, .imm, 0⟩]⟩]

/-- Field cards of the MEM block, part 2. -/
def cardsMemB : List Card := [
  ⟨"MEM_ADDR", 0x1800A0, [(0x8, 2), (0x4, 2)], .device,
    [⟨0, 32, .ro, .imm, 0⟩]⟩,
  ⟨"MEM_IRQ_STATUS", 0x1800C0, [], .device,
    [⟨0, 1, .w1c, .imm, 0⟩, ⟨1, 1, .w1c, .imm, 0⟩, ⟨2, 1, .w1c, .imm, 0⟩, ⟨3, 1, .w1c, .imm, 0⟩, ⟨4, 1, .w1c, .imm, 0⟩, ⟨5, 1, .w1c, .imm, 0⟩, ⟨6, 1, .w1c, .imm, 0⟩, ⟨7, 1, .w1c, .imm, 0⟩, ⟨8, 1, .w1c, .imm, 0⟩, ⟨9, 23, .ro, .imm, 0⟩]⟩,
  ⟨"MEM_IRQ_EN", 0x1800C4, [], .device,
    [⟨0, 9, .rw, .imm, 0⟩, ⟨9, 23, .ro, .imm, 0⟩]⟩,
  ⟨"MEM_PC_STAT", 0x180100, [(0x4, 128)], .powerOn,
    [⟨0, 2, .ro, .imm, 0⟩, ⟨2, 7, .ro, .imm, 0⟩, ⟨9, 7, .ro, .imm, 0⟩, ⟨16, 8, .ro, .imm, 0⟩, ⟨24, 8, .rwh, .imm, 0⟩]⟩]

/-- Field cards of the CARAVAN block. -/
def cardsCaravan : List Card := [
  ⟨"CARAVAN_CMD", 0x200000, [], .device,
    [⟨0, 18, .rw, .imm, 0⟩, ⟨18, 2, .rw, .imm, 0⟩, ⟨20, 1, .cmd, .imm, 0⟩, ⟨21, 1, .ro, .imm, 0⟩, ⟨22, 10, .ro, .imm, 0⟩]⟩,
  ⟨"CARAVAN_CMD_STATUS", 0x200004, [], .device,
    [⟨0, 4, .ro, .imm, 0⟩, ⟨4, 2, .ro, .imm, 0⟩, ⟨6, 4, .ro, .imm, 0⟩, ⟨10, 22, .ro, .imm, 0⟩]⟩,
  ⟨"CARAVAN_IRQ_STATUS", 0x200010, [], .device,
    [⟨0, 1, .w1c, .imm, 0⟩, ⟨1, 1, .w1c, .imm, 0⟩, ⟨2, 1, .w1c, .imm, 0⟩, ⟨3, 1, .w1c, .imm, 0⟩, ⟨4, 1, .w1c, .imm, 0⟩, ⟨5, 27, .ro, .imm, 0⟩]⟩,
  ⟨"CARAVAN_IRQ_EN", 0x200014, [], .device,
    [⟨0, 5, .rw, .imm, 0⟩, ⟨5, 27, .ro, .imm, 0⟩]⟩,
  ⟨"CARAVAN_ERR", 0x200018, [], .device,
    [⟨0, 18, .ro, .imm, 0⟩, ⟨18, 5, .ro, .imm, 0⟩, ⟨23, 8, .ro, .imm, 0⟩, ⟨31, 1, .ro, .imm, 0⟩]⟩,
  ⟨"CARAVAN_STAT_RING", 0x200020, [(0x4, 4)], .device,
    [⟨0, 18, .rw, .tick, 0⟩, ⟨18, 13, .ro, .imm, 0⟩, ⟨31, 1, .rw, .tick, 0⟩]⟩,
  ⟨"CARAVAN_STAT_MASK", 0x200030, [(0x4, 3)], .device,
    [⟨0, 32, .rw, .tick, 0⟩]⟩,
  ⟨"CARAVAN_STAT_Q", 0x200040, [], .device,
    [⟨0, 9, .ro, .imm, 0⟩, ⟨9, 7, .ro, .imm, 0⟩, ⟨16, 16, .rwh, .imm, 0⟩]⟩,
  ⟨"CARAVAN_CNT", 0x200100, [(0x8, 4), (0x4, 2)], .device,
    [⟨0, 32, .rwh, .imm, 0⟩]⟩,
  ⟨"CARAVAN_SNAP", 0x200120, [(0x8, 4), (0x4, 2)], .device,
    [⟨0, 32, .ro, .imm, 0⟩]⟩,
  ⟨"CARAVAN_SRAM_ERR", 0x200300, [], .device,
    [⟨0, 18, .ro, .imm, 0⟩, ⟨18, 12, .rwh, .imm, 0⟩, ⟨30, 1, .ro, .imm, 0⟩, ⟨31, 1, .w1c, .imm, 0⟩]⟩]

/-- Field cards of the CL block, part 1. -/
def cardsClA : List Card := [
  ⟨"CL_STAGE_CTRL", 0x1000000, [(0x100000, 8), (0x4, 4)], .device,
    [⟨0, 1, .rw, .idle, 0⟩, ⟨1, 5, .rw, .idle, 0⟩, ⟨6, 7, .rw, .imm, 0x10⟩, ⟨13, 1, .rw, .idle, 0⟩, ⟨14, 7, .rw, .idle, 0⟩, ⟨21, 11, .ro, .imm, 0⟩]⟩,
  ⟨"CL_STAGE_STAT", 0x1000010, [(0x100000, 8), (0x4, 4)], .device,
    [⟨0, 14, .ro, .imm, 0⟩, ⟨14, 1, .ro, .imm, 0⟩, ⟨15, 17, .ro, .imm, 0⟩]⟩,
  ⟨"CL_IRQ_STATUS", 0x1000020, [(0x100000, 8)], .device,
    [⟨0, 1, .w1c, .imm, 0⟩, ⟨1, 1, .w1c, .imm, 0⟩, ⟨2, 1, .w1c, .imm, 0⟩, ⟨3, 29, .ro, .imm, 0⟩]⟩,
  ⟨"CL_IRQ_EN", 0x1000024, [(0x100000, 8)], .device,
    [⟨0, 3, .rw, .imm, 0⟩, ⟨3, 29, .ro, .imm, 0⟩]⟩,
  ⟨"CL_CH_IRQ_STATUS", 0x1000030, [(0x100000, 8), (0x4, 4)], .device,
    [⟨0, 1, .w1c, .imm, 0⟩, ⟨1, 1, .w1c, .imm, 0⟩, ⟨2, 1, .w1c, .imm, 0⟩, ⟨3, 1, .w1c, .imm, 0⟩, ⟨4, 28, .ro, .imm, 0⟩]⟩,
  ⟨"CL_CH_IRQ_EN", 0x1000040, [(0x100000, 8), (0x4, 4)], .device,
    [⟨0, 4, .rw, .imm, 0⟩, ⟨4, 28, .ro, .imm, 0⟩]⟩,
  ⟨"CL_CH_COUNT", 0x1000050, [(0x100000, 8), (0x4, 4)], .device,
    [⟨0, 16, .rwh, .imm, 0⟩, ⟨16, 16, .rwh, .imm, 0⟩]⟩,
  ⟨"CL_FILL_SRC", 0x1000060, [(0x100000, 8), (0x4, 2)], .device,
    [⟨0, 32, .rw, .imm, 0⟩]⟩,
  ⟨"CL_FILL_DST", 0x1000068, [(0x100000, 8)], .device,
    [⟨0, 23, .rw, .imm, 0⟩, ⟨23, 9, .ro, .imm, 0⟩]⟩,
  ⟨"CL_FILL_LEN", 0x100006C, [(0x100000, 8)], .device,
    [⟨0, 24, .rw, .imm, 0⟩, ⟨24, 8, .ro, .imm, 0⟩]⟩,
  ⟨"CL_FILL_CTRL", 0x1000070, [(0x100000, 8)], .device,
    [⟨0, 1, .cmd, .imm, 0⟩, ⟨1, 1, .cmd, .imm, 0⟩, ⟨2, 1, .ro, .imm, 0⟩, ⟨3, 29, .ro, .imm, 0⟩]⟩,
  ⟨"CL_FILL_STATUS", 0x1000074, [(0x100000, 8)], .device,
    [⟨0, 4, .ro, .imm, 0⟩, ⟨4, 2, .ro, .imm, 0⟩, ⟨6, 3, .ro, .imm, 0⟩, ⟨9, 23, .ro, .imm, 0⟩]⟩]

/-- Field cards of the CL block, part 2. -/
def cardsClB : List Card := [
  ⟨"CL_PORT_BYTES", 0x1000080, [(0x100000, 8), (0x8, 2), (0x4, 2)], .device,
    [⟨0, 32, .rwh, .imm, 0⟩]⟩,
  ⟨"CL_PORT_SNAP", 0x1000090, [(0x100000, 8), (0x8, 2), (0x4, 2)], .device,
    [⟨0, 32, .ro, .imm, 0⟩]⟩,
  ⟨"CL_TGT_CFG", 0x1000100, [(0x100000, 8), (0x40, 4), (0x4, 16)], .device,
    [⟨0, 14, .rw, .imm, 0⟩, ⟨14, 1, .rw, .imm, 0⟩, ⟨15, 1, .cmd, .imm, 0⟩, ⟨16, 1, .ro, .imm, 0⟩, ⟨17, 15, .ro, .imm, 0⟩]⟩,
  ⟨"CL_TGT_STAT", 0x1000200, [(0x100000, 8), (0x40, 4), (0x4, 16)], .device,
    [⟨0, 4, .ro, .imm, 0⟩, ⟨4, 2, .ro, .imm, 0⟩, ⟨6, 1, .ro, .imm, 0⟩, ⟨7, 1, .ro, .imm, 0⟩, ⟨8, 3, .ro, .imm, 0⟩, ⟨11, 21, .ro, .imm, 0⟩]⟩,
  ⟨"CL_XBAR_MASK", 0x1000300, [(0x100000, 8), (0x20, 4), (0x4, 8)], .device,
    [⟨0, 32, .rw, .tick, 0⟩]⟩,
  ⟨"CL_EV_STAT", 0x1000380, [(0x100000, 8), (0x4, 4)], .device,
    [⟨0, 1, .w1c, .imm, 0⟩, ⟨1, 10, .ro, .imm, 0⟩, ⟨11, 5, .ro, .imm, 0⟩, ⟨16, 16, .rwh, .imm, 0⟩]⟩,
  ⟨"CL_OASIS_ERR", 0x1000400, [(0x100000, 8)], .device,
    [⟨0, 23, .ro, .imm, 0⟩, ⟨23, 2, .ro, .imm, 0⟩, ⟨25, 2, .ro, .imm, 0⟩, ⟨27, 4, .ro, .imm, 0⟩, ⟨31, 1, .w1c, .imm, 0⟩]⟩,
  ⟨"CL_OASIS_CNT", 0x1000410, [(0x100000, 8), (0x4, 4)], .device,
    [⟨0, 32, .rwh, .imm, 0⟩]⟩,
  ⟨"CL_SIR_CTRL", 0x1000420, [(0x100000, 8)], .device,
    [⟨0, 1, .rw, .imm, 1⟩, ⟨1, 31, .ro, .imm, 0⟩]⟩,
  ⟨"CL_SIR_STATUS", 0x1000424, [(0x100000, 8)], .device,
    [⟨0, 1, .w1c, .imm, 0⟩, ⟨1, 7, .ro, .imm, 0⟩, ⟨8, 16, .rwh, .imm, 0⟩, ⟨24, 8, .ro, .imm, 0⟩]⟩,
  ⟨"CL_SIR_FAIL_ADDR", 0x1000428, [(0x100000, 8)], .device,
    [⟨0, 23, .ro, .imm, 0⟩, ⟨23, 2, .ro, .imm, 0⟩, ⟨25, 2, .ro, .imm, 0⟩, ⟨27, 4, .ro, .imm, 0⟩, ⟨31, 1, .ro, .imm, 0⟩]⟩]

/-- Field cards of the PAT block. -/
def cardsPat : List Card := [
  ⟨"PAT_SEL", 0x1080000, [(0x200000, 4), (0x4, 16)], .device,
    [⟨0, 2, .rw, .tick, 0⟩, ⟨2, 1, .rw, .tick, 0⟩, ⟨3, 3, .rw, .tick, 0⟩, ⟨6, 2, .rw, .tick, 0⟩, ⟨8, 6, .rw, .tick, 0⟩, ⟨14, 18, .ro, .imm, 0⟩]⟩,
  ⟨"PAT_LEVEL", 0x1080040, [(0x200000, 4)], .device,
    [⟨0, 16, .ro, .imm, 0⟩, ⟨16, 16, .ro, .imm, 0⟩]⟩]

/-- Field cards of the CH block, part 1. -/
def cardsChA : List Card := [
  ⟨"CH_SEQ_CTRL", 0x2000000, [(0x100000, 32)], .channel,
    [⟨0, 1, .cmd, .imm, 0⟩, ⟨1, 1, .cmd, .imm, 0⟩, ⟨2, 1, .cmd, .imm, 0⟩, ⟨3, 1, .cmd, .imm, 0⟩, ⟨4, 1, .cmd, .imm, 0⟩, ⟨5, 1, .ro, .imm, 0⟩, ⟨6, 26, .ro, .imm, 0⟩]⟩,
  ⟨"CH_SEQ_STATUS", 0x2000004, [(0x100000, 32)], .channel,
    [⟨0, 3, .ro, .imm, 0⟩, ⟨3, 3, .ro, .imm, 0⟩, ⟨6, 4, .ro, .imm, 0⟩, ⟨10, 2, .ro, .imm, 0⟩, ⟨12, 1, .w1c, .imm, 0⟩, ⟨13, 7, .ro, .imm, 0⟩, ⟨20, 4, .ro, .imm, 0⟩, ⟨24, 3, .ro, .imm, 0⟩, ⟨27, 5, .rwh, .imm, 0⟩]⟩,
  ⟨"CH_SEQ_MODE", 0x2000008, [(0x100000, 32)], .channel,
    [⟨0, 2, .rw, .idle, 0⟩, ⟨2, 1, .rwh, .idle, 0⟩, ⟨3, 1, .w1c, .imm, 0⟩, ⟨4, 4, .ro, .imm, 0⟩, ⟨8, 8, .rw, .idle, 0⟩, ⟨16, 15, .rw, .idle, 0⟩, ⟨31, 1, .ro, .imm, 0⟩]⟩,
  ⟨"CH_SEQ_START", 0x2000010, [(0x100000, 32), (0x4, 2)], .channel,
    [⟨0, 32, .rw, .idle, 0⟩]⟩,
  ⟨"CH_SEQ_SC", 0x2000018, [(0x100000, 32), (0x4, 2)], .channel,
    [⟨0, 32, .ro, .imm, 0⟩]⟩,
  ⟨"CH_SEQ_PC", 0x2000020, [(0x100000, 32)], .channel,
    [⟨0, 15, .ro, .imm, 0⟩, ⟨15, 17, .ro, .imm, 0⟩]⟩,
  ⟨"CH_SEQ_RING_TMO", 0x2000024, [(0x100000, 32)], .channel,
    [⟨0, 24, .rw, .idle, 0x1000⟩, ⟨24, 8, .ro, .imm, 0⟩]⟩,
  ⟨"CH_SEQ_IRQ_EN", 0x2000040, [(0x100000, 32)], .channel,
    [⟨0, 1, .rw, .imm, 0⟩, ⟨1, 1, .rw, .imm, 0⟩, ⟨2, 1, .rw, .imm, 0⟩, ⟨3, 1, .rw, .imm, 0⟩, ⟨4, 1, .rw, .imm, 0⟩, ⟨5, 27, .ro, .imm, 0⟩]⟩,
  ⟨"CH_SEQ_IRQ_STATUS", 0x2000044, [(0x100000, 32)], .channel,
    [⟨0, 1, .w1c, .imm, 0⟩, ⟨1, 1, .w1c, .imm, 0⟩, ⟨2, 1, .w1c, .imm, 0⟩, ⟨3, 1, .w1c, .imm, 0⟩, ⟨4, 1, .w1c, .imm, 0⟩, ⟨5, 27, .ro, .imm, 0⟩]⟩,
  ⟨"CH_SEQ_FAULT", 0x2000060, [(0x100000, 32)], .channel,
    [⟨0, 1, .w1c, .imm, 0⟩, ⟨1, 3, .ro, .imm, 0⟩, ⟨4, 3, .ro, .imm, 0⟩, ⟨7, 1, .ro, .imm, 0⟩, ⟨8, 24, .ro, .imm, 0⟩]⟩,
  ⟨"CH_SEQ_FAULT_PC", 0x2000064, [(0x100000, 32)], .channel,
    [⟨0, 15, .ro, .imm, 0⟩, ⟨15, 17, .ro, .imm, 0⟩]⟩,
  ⟨"CH_SEQ_FAULT_B", 0x2000068, [(0x100000, 32), (0x4, 2)], .channel,
    [⟨0, 32, .ro, .imm, 0⟩]⟩]

/-- Field cards of the CH block, part 2. -/
def cardsChB : List Card := [
  ⟨"CH_SEQ_FAULT_ARG", 0x2000070, [(0x100000, 32)], .channel,
    [⟨0, 32, .ro, .imm, 0⟩]⟩,
  ⟨"CH_SEQ_G", 0x2000080, [(0x100000, 32), (0x4, 16)], .channel,
    [⟨0, 32, .rwh, .imm, 0⟩]⟩,
  ⟨"CH_SEQ_L", 0x20000C0, [(0x100000, 32), (0x4, 4)], .channel,
    [⟨0, 32, .ro, .imm, 0⟩]⟩,
  ⟨"CH_SEQ_CNT", 0x2000100, [(0x100000, 32), (0x8, 2), (0x4, 2)], .channel,
    [⟨0, 32, .rwh, .imm, 0⟩]⟩,
  ⟨"CH_SEQ_SNAP", 0x2000110, [(0x100000, 32), (0x8, 3), (0x4, 2)], .channel,
    [⟨0, 32, .ro, .imm, 0⟩]⟩,
  ⟨"CH_NCO_MIX", 0x2000200, [(0x100000, 32)], .channel,
    [⟨0, 8, .rwh, .imm, 0⟩, ⟨8, 1, .rwh, .imm, 0⟩, ⟨9, 1, .w1c, .imm, 0⟩, ⟨10, 22, .ro, .imm, 0⟩]⟩,
  ⟨"CH_NCO_OSC", 0x2000210, [(0x100000, 32), (0x4, 8)], .channel,
    [⟨0, 8, .rwh, .imm, 0⟩, ⟨8, 16, .rwh, .imm, 0x7fff⟩, ⟨24, 1, .w1c, .imm, 0⟩, ⟨25, 7, .ro, .imm, 0⟩]⟩,
  ⟨"CH_LEDGER_STG_FTW", 0x2000240, [(0x100000, 32), (0x4, 2)], .channel,
    [⟨0, 32, .rw, .imm, 0⟩]⟩,
  ⟨"CH_LEDGER_STG_PHI", 0x2000248, [(0x100000, 32), (0x4, 2)], .channel,
    [⟨0, 32, .rw, .imm, 0⟩]⟩,
  ⟨"CH_LEDGER_STG_T0", 0x2000250, [(0x100000, 32), (0x4, 2)], .channel,
    [⟨0, 32, .rw, .imm, 0⟩]⟩,
  ⟨"CH_LEDGER_CMD", 0x2000260, [(0x100000, 32)], .channel,
    [⟨0, 8, .rw, .imm, 0⟩, ⟨8, 1, .cmd, .imm, 0⟩, ⟨9, 1, .cmd, .imm, 0⟩, ⟨10, 1, .ro, .imm, 0⟩, ⟨11, 21, .ro, .imm, 0⟩]⟩,
  ⟨"CH_LEDGER_STATUS", 0x2000264, [(0x100000, 32)], .channel,
    [⟨0, 4, .ro, .imm, 0⟩, ⟨4, 2, .ro, .imm, 0⟩, ⟨6, 2, .ro, .imm, 0⟩, ⟨8, 24, .ro, .imm, 0⟩]⟩]

/-- Field cards of the CH block, part 3. -/
def cardsChC : List Card := [
  ⟨"CH_LEDGER_RD", 0x2000270, [(0x100000, 32), (0x8, 4), (0x4, 2)], .channel,
    [⟨0, 32, .ro, .imm, 0⟩]⟩,
  ⟨"CH_DP_CTRL", 0x2000300, [(0x100000, 32)], .channel,
    [⟨0, 1, .rw, .seg, 0⟩, ⟨1, 31, .ro, .imm, 0⟩]⟩,
  ⟨"CH_DP_GAIN", 0x2000304, [(0x100000, 32)], .channel,
    [⟨0, 16, .rw, .block, 0x4000⟩, ⟨16, 16, .rw, .block, 0⟩]⟩,
  ⟨"CH_DP_STATUS", 0x2000308, [(0x100000, 32)], .channel,
    [⟨0, 1, .w1c, .imm, 0⟩, ⟨1, 1, .w1c, .imm, 0⟩, ⟨2, 1, .w1c, .imm, 0⟩, ⟨3, 29, .ro, .imm, 0⟩]⟩,
  ⟨"CH_DP_MDLY", 0x200030C, [(0x100000, 32)], .channel,
    [⟨0, 8, .rw, .idle, 0⟩, ⟨8, 8, .rw, .idle, 0⟩, ⟨16, 8, .rw, .idle, 0⟩, ⟨24, 8, .rw, .idle, 0⟩]⟩,
  ⟨"CH_DP_CNT", 0x2000310, [(0x100000, 32), (0x8, 3), (0x4, 2)], .channel,
    [⟨0, 32, .rwh, .imm, 0⟩]⟩,
  ⟨"CH_DP_SNAP", 0x2000328, [(0x100000, 32), (0x8, 3), (0x4, 2)], .channel,
    [⟨0, 32, .ro, .imm, 0⟩]⟩,
  ⟨"CH_FIR_CTRL", 0x2000380, [(0x100000, 32)], .channel,
    [⟨0, 1, .rw, .seg, 0⟩, ⟨1, 1, .rw, .seg, 0⟩, ⟨2, 30, .ro, .imm, 0⟩]⟩,
  ⟨"CH_FIR_COEF", 0x2000400, [(0x100000, 32), (0x80, 2), (0x4, 32)], .channel,
    [⟨0, 16, .rw, .imm, 0⟩, ⟨16, 16, .ro, .imm, 0⟩]⟩,
  ⟨"CH_DAC_CTRL", 0x2000600, [(0x100000, 32)], .channel,
    [⟨0, 2, .rw, .idle, 1⟩, ⟨2, 1, .rw, .idle, 0⟩, ⟨3, 1, .rwh, .idle, 1⟩, ⟨4, 1, .w1c, .imm, 0⟩, ⟨5, 27, .ro, .imm, 0⟩]⟩,
  ⟨"CH_DAC_STATUS", 0x2000604, [(0x100000, 32)], .powerOn,
    [⟨0, 1, .ro, .imm, 0⟩, ⟨1, 1, .w1c, .imm, 0⟩, ⟨2, 1, .ro, .imm, 0⟩, ⟨3, 1, .w1c, .imm, 0⟩, ⟨4, 1, .w1c, .imm, 0⟩, ⟨5, 1, .ro, .imm, 0⟩, ⟨6, 5, .ro, .imm, 0x12⟩, ⟨11, 21, .ro, .imm, 0⟩]⟩,
  ⟨"CH_DAC_SKEW", 0x2000608, [(0x100000, 32)], .device,
    [⟨0, 9, .rw, .tick, 0⟩, ⟨9, 7, .ro, .imm, 0⟩, ⟨16, 9, .ro, .imm, 0⟩, ⟨25, 7, .ro, .imm, 0⟩]⟩]

/-- Field cards of the CH block, part 4. -/
def cardsChD : List Card := [
  ⟨"CH_DAC_MAP", 0x2000610, [(0x100000, 32), (0x4, 4)], .powerOn,
    [⟨0, 5, .ro, .imm, 0⟩, ⟨5, 3, .ro, .imm, 0⟩, ⟨8, 5, .ro, .imm, 0⟩, ⟨13, 3, .ro, .imm, 0⟩, ⟨16, 5, .ro, .imm, 0⟩, ⟨21, 3, .ro, .imm, 0⟩, ⟨24, 5, .ro, .imm, 0⟩, ⟨29, 3, .ro, .imm, 0⟩]⟩,
  ⟨"CH_DAC_SUB", 0x2000620, [(0x100000, 32), (0x4, 18)], .powerOn,
    [⟨0, 2, .ro, .imm, 0⟩, ⟨2, 2, .ro, .imm, 0⟩, ⟨4, 4, .ro, .imm, 0⟩, ⟨8, 1, .ro, .imm, 0⟩, ⟨9, 7, .ro, .imm, 0⟩, ⟨16, 6, .ro, .imm, 0⟩, ⟨22, 10, .ro, .imm, 0⟩]⟩,
  ⟨"CH_CAL_CTRL", 0x2000680, [(0x100000, 32)], .device,
    [⟨0, 6, .rw, .imm, 8⟩, ⟨6, 2, .ro, .imm, 0⟩, ⟨8, 5, .rw, .imm, 0xc⟩, ⟨13, 1, .rw, .imm, 1⟩, ⟨14, 1, .cmd, .imm, 0⟩, ⟨15, 1, .cmd, .imm, 0⟩, ⟨16, 1, .ro, .imm, 0⟩, ⟨17, 15, .ro, .imm, 0⟩]⟩,
  ⟨"CH_CAL_STATUS", 0x2000684, [(0x100000, 32)], .device,
    [⟨0, 1, .ro, .imm, 0⟩, ⟨1, 1, .ro, .imm, 0⟩, ⟨2, 1, .ro, .imm, 0⟩, ⟨3, 1, .ro, .imm, 0⟩, ⟨4, 2, .ro, .imm, 0⟩, ⟨6, 4, .ro, .imm, 0⟩, ⟨10, 2, .ro, .imm, 0⟩, ⟨12, 1, .ro, .imm, 0⟩, ⟨13, 19, .ro, .imm, 0⟩]⟩,
  ⟨"CH_CAL_ABORT", 0x2000688, [(0x100000, 32)], .device,
    [⟨0, 4, .ro, .imm, 0⟩, ⟨4, 2, .ro, .imm, 0⟩, ⟨6, 10, .ro, .imm, 0⟩, ⟨16, 8, .rwh, .imm, 0⟩, ⟨24, 7, .ro, .imm, 0⟩, ⟨31, 1, .w1c, .imm, 0⟩]⟩,
  ⟨"CH_CAL_IRQ_STATUS", 0x2000690, [(0x100000, 32)], .device,
    [⟨0, 1, .w1c, .imm, 0⟩, ⟨1, 1, .w1c, .imm, 0⟩, ⟨2, 1, .w1c, .imm, 0⟩, ⟨3, 1, .w1c, .imm, 0⟩, ⟨4, 1, .w1c, .imm, 0⟩, ⟨5, 27, .ro, .imm, 0⟩]⟩,
  ⟨"CH_CAL_IRQ_EN", 0x2000694, [(0x100000, 32)], .device,
    [⟨0, 5, .rw, .imm, 0⟩, ⟨5, 27, .ro, .imm, 0⟩]⟩,
  ⟨"CH_CAL_QUAL", 0x20006A0, [(0x100000, 32)], .device,
    [⟨0, 12, .ro, .imm, 0⟩, ⟨12, 4, .ro, .imm, 0⟩, ⟨16, 8, .ro, .imm, 0⟩, ⟨24, 8, .ro, .imm, 0⟩]⟩,
  ⟨"CH_CAL_AGE", 0x20006A4, [(0x100000, 32)], .device,
    [⟨0, 24, .ro, .imm, 0⟩, ⟨24, 7, .ro, .imm, 0⟩, ⟨31, 1, .ro, .imm, 0⟩]⟩,
  ⟨"CH_CAL_TEMP", 0x20006A8, [(0x100000, 32)], .device,
    [⟨0, 16, .ro, .imm, 0⟩, ⟨16, 16, .ro, .imm, 0⟩]⟩,
  ⟨"CH_CAL_MTP", 0x20006B0, [(0x100000, 32)], .device,
    [⟨0, 12, .rw, .imm, 0x258⟩, ⟨12, 4, .ro, .imm, 0⟩, ⟨16, 1, .ro, .imm, 0⟩, ⟨17, 15, .ro, .imm, 0⟩]⟩,
  ⟨"CH_CAL_GEN", 0x20006B4, [(0x100000, 32)], .device,
    [⟨0, 32, .ro, .imm, 0⟩]⟩]

/-- Field cards of the CH block, part 5. -/
def cardsChE : List Card := [
  ⟨"CH_CAL_CNT", 0x20006C0, [(0x100000, 32), (0x4, 2)], .device,
    [⟨0, 16, .rwh, .imm, 0⟩, ⟨16, 16, .rwh, .imm, 0⟩]⟩]

/-- The cards that can hold the register at a BAR0 address: the block map of R45. -/
def cardsFor (a : Nat) : List Card :=
  if a < 0x10000 then cardsDevA ++ cardsDevB
  else if a < 0x20000 then cardsClkA ++ cardsClkB
  else if a < 0x30000 then cardsAbacus
  else if a < 0x40000 then cardsEvtA ++ cardsEvtB
  else if a < 0x50000 then cardsSec
  else if a < 0x60000 then cardsMgmt
  else if a < 0x70000 then cardsTelem
  else if a < 0x100000 then cardsLinkA ++ cardsLinkB
  else if a < 0x180000 then cardsHbm
  else if a < 0x200000 then cardsMemA ++ cardsMemB
  else if a < 0x800000 then cardsCaravan
  else if a < 0x2000000 then cardsClA ++ cardsClB ++ cardsPat
  else if a < 0x4000000 then cardsChA ++ cardsChB ++ cardsChC ++ cardsChD ++ cardsChE
  else []

/-- The index values that take offset `off` to a register under strides `dims`, if there are any. -/
def indexOf : List (Nat × Nat) → Nat → Option (List Nat)
  | [], off => if off = 0 then some [] else none
  | (stride, count) :: rest, off =>
    let i := min (off / stride) (count - 1)
    (indexOf rest (off - i * stride)).map (i :: ·)

/-- The card and the indices of the register at dword address `a` (R44, R45): none when the address is reserved. -/
def findCard (a : Nat) : List Card → Option (Card × List Nat)
  | [] => none
  | c :: cs =>
    if a < c.base then findCard a cs
    else match indexOf c.dims (a - c.base) with
      | some ix => some (c, ix)
      | none => findCard a cs

/-- The card and indices of the register at BAR0 dword address `a`. -/
def cardAt (a : Nat) : Option (Card × List Nat) := findCard a (cardsFor a)

/-- The word a list of fields resets to, as its cards print it. -/
def resetOfFields : List FieldSpec → Nat
  | [] => 0
  | f :: fs => f.reset * 2 ^ f.lo + resetOfFields fs

/-- Limits in mV of a voltage rail (TELEM.VLIM_i, R435): LO and HI in one word. -/
def vlimReset (i : Nat) : Nat :=
  if i < 4 ∨ i = 14 then 713 + 788 * 65536
  else if i < 6 then 760 + 840 * 65536
  else if i < 10 ∨ i = 15 then 1710 + 1890 * 65536
  else 1045 + 1155 * 65536

/-- Latency targets of MEM.QOS_m at reset, with SCHEME 1 for class 0 (R327). -/
def qosReset (m : Nat) : Nat :=
  let tgt := if m = 0 ∨ m = 2 then 12 else if m = 1 then 100 else if m = 3 then 25 else if m = 4 then 50 else 25000
  (if m = 0 then 1 else 0) + tgt * 256

/-- Reset words that depend on a register's index, and the fuse, strap and MTP values the model names
(DESIGN CHOICE, log entry 5). -/
def resetSpecial (base : Nat) (ix : List Nat) : Option Nat :=
  let last := ix.getLast?.getD 0
  if base = 0x2000210 then some (last + 0x7FFF * 256)  -- CH.NCO_OSC
  else if base = 0x2000400 then some (if last = 8 then 0x4000 else 0)  -- CH.FIR_COEF
  else if base = 0x2000610 then some (4 * last + (4 * last + 1) * 256 + (4 * last + 2) * 65536 + (4 * last + 3) * 16777216)  -- CH.DAC_MAP
  else if base = 0x2000620 then some (if last < 16 then last * 16 else 2)  -- CH.DAC_SUB
  else if base = 0x30100 then some (last * 16)  -- EVT.TRIG_CFG
  else if base = 0x600C0 then some (vlimReset last)  -- TELEM.VLIM
  else if base = 0x60100 then some (95 + 105 * 256 + 2 * 65536)  -- TELEM.THERM
  else if base = 0x180060 then some (qosReset last)  -- MEM.QOS
  else if base = 0x40008 then some (1 + 1 * 4 + 1 * 2048)  -- SEC.LC
  else none

/-- The reset word of the register at `a` (R49): its card's reset values; 0 where no card stands. -/
def regReset (a : Nat) : BitVec 32 :=
  match cardAt a with
  | some (c, ix) => BitVec.ofNat 32 ((resetSpecial c.base ix).getD (resetOfFields c.fields))
  | none => 0

/-- The field of a register read from its word. -/
def Fld.read (f : Fld) (w : BitVec 32) : Nat := w.toNat / 2 ^ f.lo % 2 ^ f.len

/-- The register's word with the field set to `v` (taken mod its width) and every other bit kept. -/
def Fld.write (f : Fld) (w : BitVec 32) (v : Nat) : BitVec 32 :=
  BitVec.ofNat 32 (w.toNat % 2 ^ f.lo + v % 2 ^ f.len * 2 ^ f.lo + w.toNat / 2 ^ (f.lo + f.len) * 2 ^ (f.lo + f.len))

namespace R

/-- DEV.ID (spec/02_register_interface.md). -/
abbrev DEV_ID : Nat := 0x0
/-- DEV.STAGE (spec/02_register_interface.md). -/
abbrev DEV_STAGE : Nat := 0x10
/-- DEV.PROFILE (spec/02_register_interface.md). -/
abbrev DEV_PROFILE : Nat := 0x14
/-- DEV.CTRL (spec/02_register_interface.md). -/
abbrev DEV_CTRL : Nat := 0x20
/-- DEV.IRQ_CH (spec/02_register_interface.md). -/
abbrev DEV_IRQ_CH : Nat := 0x100
/-- DEV.IRQ_BLK (spec/02_register_interface.md). -/
abbrev DEV_IRQ_BLK : Nat := 0x104
/-- DEV.IRQ_MASK_CH (spec/02_register_interface.md). -/
abbrev DEV_IRQ_MASK_CH : Nat := 0x108
/-- DEV.IRQ_MASK_BLK (spec/02_register_interface.md). -/
abbrev DEV_IRQ_MASK_BLK : Nat := 0x10C
/-- DEV.ERR_STATUS (spec/02_register_interface.md). -/
abbrev DEV_ERR_STATUS : Nat := 0x120
/-- DEV.ERR_ADDR (spec/02_register_interface.md). -/
abbrev DEV_ERR_ADDR : Nat := 0x124
/-- DEV.RST (spec/16_startup_reset_recovery.md). -/
abbrev DEV_RST : Nat := 0x30
/-- DEV.RST_CH (spec/16_startup_reset_recovery.md). -/
abbrev DEV_RST_CH : Nat := 0x34
/-- DEV.ALERT_MASK (spec/17_host_and_board_interfaces.md). -/
abbrev DEV_ALERT_MASK : Nat := 0x110
/-- DEV.ALERT_SRC (spec/17_host_and_board_interfaces.md). -/
abbrev DEV_ALERT_SRC : Nat := 0x114
/-- DEV.PIN_STATUS (spec/17_host_and_board_interfaces.md). -/
abbrev DEV_PIN_STATUS : Nat := 0x118
/-- DEV.MSIX_REARM_w, w = 0–63 (spec/17_host_and_board_interfaces.md). -/
abbrev DEV_MSIX_REARM (w : Nat) : Nat := 0x200 + 0x4 * w
/-- DEV.MSIX_MOD_v, v = 0–2,047 (spec/17_host_and_board_interfaces.md). -/
abbrev DEV_MSIX_MOD (v : Nat) : Nat := 0x2000 + 0x4 * v
/-- MSI-X Pending Bit Array (R403) (spec/17_host_and_board_interfaces.md). -/
abbrev DEV_MSIX_PBA (w : Nat) : Nat := 0x4000 + 0x4 * w
/-- MSI-X table message address (R403) (spec/17_host_and_board_interfaces.md). -/
abbrev DEV_MSIX_ADDR (v h : Nat) : Nat := 0x8000 + 0x10 * v + 0x4 * h
/-- MSI-X table message data (R403) (spec/17_host_and_board_interfaces.md). -/
abbrev DEV_MSIX_DATA (v : Nat) : Nat := 0x8008 + 0x10 * v
/-- MSI-X table vector control (R403) (spec/17_host_and_board_interfaces.md). -/
abbrev DEV_MSIX_CTRL (v : Nat) : Nat := 0x800C + 0x10 * v
/-- CLK.SPLL_CFG (spec/15_clocks_and_plls.md). -/
abbrev CLK_SPLL_CFG : Nat := 0x10000
/-- CLK.SPLL_FRAC (spec/15_clocks_and_plls.md). -/
abbrev CLK_SPLL_FRAC : Nat := 0x10004
/-- CLK.SPLL_CTRL (spec/15_clocks_and_plls.md). -/
abbrev CLK_SPLL_CTRL : Nat := 0x10008
/-- CLK.SPLL_STATUS (spec/15_clocks_and_plls.md). -/
abbrev CLK_SPLL_STATUS : Nat := 0x1000C
/-- CLK.SYNC_CFG (spec/15_clocks_and_plls.md). -/
abbrev CLK_SYNC_CFG : Nat := 0x10010
/-- CLK.SYNC_STATUS (spec/15_clocks_and_plls.md). -/
abbrev CLK_SYNC_STATUS : Nat := 0x10014
/-- CLK.SYS_CFG (spec/15_clocks_and_plls.md). -/
abbrev CLK_SYS_CFG : Nat := 0x10020
/-- CLK.MON_CFG (spec/15_clocks_and_plls.md). -/
abbrev CLK_MON_CFG : Nat := 0x10030
/-- CLK.FERR (spec/15_clocks_and_plls.md). -/
abbrev CLK_FERR : Nat := 0x10034
/-- CLK.REFIN_FREQ (spec/15_clocks_and_plls.md). -/
abbrev CLK_REFIN_FREQ : Nat := 0x10038
/-- CLK.LOSS (spec/15_clocks_and_plls.md). -/
abbrev CLK_LOSS : Nat := 0x10040
/-- CLK.CMD (spec/15_clocks_and_plls.md). -/
abbrev CLK_CMD : Nat := 0x10044
/-- CLK.CMD_STATUS (spec/15_clocks_and_plls.md). -/
abbrev CLK_CMD_STATUS : Nat := 0x10048
/-- CLK.IRQ_STATUS (spec/15_clocks_and_plls.md). -/
abbrev CLK_IRQ_STATUS : Nat := 0x10050
/-- CLK.IRQ_EN (spec/15_clocks_and_plls.md). -/
abbrev CLK_IRQ_EN : Nat := 0x10054
/-- CLK.GATE_ERR (spec/15_clocks_and_plls.md). -/
abbrev CLK_GATE_ERR : Nat := 0x10058
/-- CLK.RUN_w, w = 0–1 (spec/15_clocks_and_plls.md). -/
abbrev CLK_RUN (w : Nat) : Nat := 0x10060 + 0x4 * w
/-- CLK.PLL_STATUS (spec/15_clocks_and_plls.md). -/
abbrev CLK_PLL_STATUS : Nat := 0x10070
/-- CLK.CKO_CFG_x, x = 0–1 (spec/15_clocks_and_plls.md). -/
abbrev CLK_CKO_CFG (x : Nat) : Nat := 0x10080 + 0x8 * x
/-- CLK.CKO_SSC_x, x = 0–1 (spec/15_clocks_and_plls.md). -/
abbrev CLK_CKO_SSC (x : Nat) : Nat := 0x10084 + 0x8 * x
/-- ABACUS.TIME_LO (spec/02_register_interface.md). -/
abbrev ABACUS_TIME_LO : Nat := 0x20000
/-- ABACUS.TIME_HI (spec/02_register_interface.md). -/
abbrev ABACUS_TIME_HI : Nat := 0x20004
/-- ABACUS.CTRL (spec/02_register_interface.md). -/
abbrev ABACUS_CTRL : Nat := 0x20008
/-- ABACUS.STATUS (spec/02_register_interface.md). -/
abbrev ABACUS_STATUS : Nat := 0x2000C
/-- ABACUS.DONE (spec/02_register_interface.md). -/
abbrev ABACUS_DONE : Nat := 0x20010
/-- EVT.DT_LO and EVT.DT_HI (spec/10_events_and_device_time.md). -/
abbrev EVT_DT (h : Nat) : Nat := 0x30000 + 0x4 * h
/-- EVT.DT_LOAD_LO and EVT.DT_LOAD_HI (spec/10_events_and_device_time.md). -/
abbrev EVT_DT_LOAD (h : Nat) : Nat := 0x30008 + 0x4 * h
/-- EVT.CTRL (spec/10_events_and_device_time.md). -/
abbrev EVT_CTRL : Nat := 0x30010
/-- EVT.STATUS (spec/10_events_and_device_time.md). -/
abbrev EVT_STATUS : Nat := 0x30014
/-- EVT.DT_GAP (spec/10_events_and_device_time.md). -/
abbrev EVT_DT_GAP : Nat := 0x30018
/-- EVT.IRQ_STATUS (spec/10_events_and_device_time.md). -/
abbrev EVT_IRQ_STATUS : Nat := 0x30020
/-- EVT.IRQ_EN (spec/10_events_and_device_time.md). -/
abbrev EVT_IRQ_EN : Nat := 0x30024
/-- EVT.HOST_T_LO and EVT.HOST_T_HI (spec/10_events_and_device_time.md). -/
abbrev EVT_HOST_T (h : Nat) : Nat := 0x30030 + 0x4 * h
/-- EVT.HOST_EV (spec/10_events_and_device_time.md). -/
abbrev EVT_HOST_EV : Nat := 0x30038
/-- EVT.HOST_STATUS (spec/10_events_and_device_time.md). -/
abbrev EVT_HOST_STATUS : Nat := 0x3003C
/-- EVT.TRIG_CFG_i, i = 0–15 (spec/10_events_and_device_time.md). -/
abbrev EVT_TRIG_CFG (i : Nat) : Nat := 0x30100 + 0x4 * i
/-- EVT.TRIG_LAST_i, i = 0–15 (spec/10_events_and_device_time.md). -/
abbrev EVT_TRIG_LAST (i h : Nat) : Nat := 0x30180 + 0x8 * i + 0x4 * h
/-- EVT.TRIG_CNT_i and EVT.TRIG_SNAP_i, i = 0–15 (spec/10_events_and_device_time.md). -/
abbrev EVT_TRIG_CNT (i : Nat) : Nat := 0x30200 + 0x4 * i
/-- EVT.TRIG_CNT_i and EVT.TRIG_SNAP_i, i = 0–15 (spec/10_events_and_device_time.md). -/
abbrev EVT_TRIG_SNAP (i : Nat) : Nat := 0x30240 + 0x4 * i
/-- EVT.MK_CFG_i, i = 0–15 (spec/10_events_and_device_time.md). -/
abbrev EVT_MK_CFG (i : Nat) : Nat := 0x30280 + 0x4 * i
/-- EVT.TMR_i, i = 0–7 (spec/10_events_and_device_time.md). -/
abbrev EVT_TMR_START (i h : Nat) : Nat := 0x30300 + 0x20 * i + 0x4 * h
/-- EVT.TMR_i, i = 0–7 (spec/10_events_and_device_time.md). -/
abbrev EVT_TMR_PERIOD (i : Nat) : Nat := 0x30308 + 0x20 * i
/-- EVT.TMR_i, i = 0–7 (spec/10_events_and_device_time.md). -/
abbrev EVT_TMR_CTRL (i : Nat) : Nat := 0x3030C + 0x20 * i
/-- EVT.TMR_i, i = 0–7 (spec/10_events_and_device_time.md). -/
abbrev EVT_TMR_STAT (i : Nat) : Nat := 0x30310 + 0x20 * i
/-- EVT.LOG_MASK_w, w = 0–7 (spec/10_events_and_device_time.md). -/
abbrev EVT_LOG_MASK (w : Nat) : Nat := 0x30400 + 0x4 * w
/-- EVT.LOG_CFG (spec/10_events_and_device_time.md). -/
abbrev EVT_LOG_CFG : Nat := 0x30420
/-- EVT.CNT and EVT.SNAP (spec/10_events_and_device_time.md). -/
abbrev EVT_CNT (m h : Nat) : Nat := 0x30440 + 0x8 * m + 0x4 * h
/-- EVT.CNT and EVT.SNAP (spec/10_events_and_device_time.md). -/
abbrev EVT_SNAP (m h : Nat) : Nat := 0x30460 + 0x8 * m + 0x4 * h
/-- SEC.BOOT (spec/18_security_and_attestation.md). -/
abbrev SEC_BOOT : Nat := 0x40000
/-- SEC.BOOT_VER (spec/18_security_and_attestation.md). -/
abbrev SEC_BOOT_VER : Nat := 0x40004
/-- SEC.LC (spec/18_security_and_attestation.md). -/
abbrev SEC_LC : Nat := 0x40008
/-- SEC.SERIAL_LO and SEC.SERIAL_HI (spec/18_security_and_attestation.md). -/
abbrev SEC_SERIAL (h : Nat) : Nat := 0x40010 + 0x4 * h
/-- SEC.DBG_CTRL (spec/18_security_and_attestation.md). -/
abbrev SEC_DBG_CTRL : Nat := 0x40020
/-- SEC.IDX_NEXT and SEC.IDX_END (spec/18_security_and_attestation.md). -/
abbrev SEC_IDX (m : Nat) : Nat := 0x40030 + 0x4 * m
/-- SEC.CMD (spec/18_security_and_attestation.md). -/
abbrev SEC_CMD : Nat := 0x40040
/-- SEC.CMD_STATUS (spec/18_security_and_attestation.md). -/
abbrev SEC_CMD_STATUS : Nat := 0x40044
/-- SEC.IRQ_STATUS (spec/18_security_and_attestation.md). -/
abbrev SEC_IRQ_STATUS : Nat := 0x40050
/-- SEC.IRQ_EN (spec/18_security_and_attestation.md). -/
abbrev SEC_IRQ_EN : Nat := 0x40054
/-- MGMT.CMD (spec/16_startup_reset_recovery.md). -/
abbrev MGMT_CMD : Nat := 0x50000
/-- MGMT.STATUS (spec/16_startup_reset_recovery.md). -/
abbrev MGMT_STATUS : Nat := 0x50004
/-- MGMT.ARG_i and MGMT.RES_i, i = 0–7 (spec/16_startup_reset_recovery.md). -/
abbrev MGMT_ARG (i : Nat) : Nat := 0x50010 + 0x4 * i
/-- MGMT.ARG_i and MGMT.RES_i, i = 0–7 (spec/16_startup_reset_recovery.md). -/
abbrev MGMT_RES (i : Nat) : Nat := 0x50030 + 0x4 * i
/-- MGMT.LEN (spec/16_startup_reset_recovery.md). -/
abbrev MGMT_LEN : Nat := 0x50050
/-- MGMT.IRQ_STATUS (spec/16_startup_reset_recovery.md). -/
abbrev MGMT_IRQ_STATUS : Nat := 0x50058
/-- MGMT.IRQ_EN (spec/16_startup_reset_recovery.md). -/
abbrev MGMT_IRQ_EN : Nat := 0x5005C
/-- MGMT.BUF_i, i = 0–1,023 (spec/16_startup_reset_recovery.md). -/
abbrev MGMT_BUF (i : Nat) : Nat := 0x51000 + 0x4 * i
/-- TELEM.TEMP_i, i = 0–23 (spec/19_background_work_and_telemetry.md). -/
abbrev TELEM_TEMP (i : Nat) : Nat := 0x60000 + 0x4 * i
/-- TELEM.VOLT_i, i = 0–15 (spec/19_background_work_and_telemetry.md). -/
abbrev TELEM_VOLT (i : Nat) : Nat := 0x60080 + 0x4 * i
/-- TELEM.VLIM_i, i = 0–15 (spec/19_background_work_and_telemetry.md). -/
abbrev TELEM_VLIM (i : Nat) : Nat := 0x600C0 + 0x4 * i
/-- TELEM.THERM (spec/19_background_work_and_telemetry.md). -/
abbrev TELEM_THERM : Nat := 0x60100
/-- TELEM.PEAK (spec/19_background_work_and_telemetry.md). -/
abbrev TELEM_PEAK : Nat := 0x60104
/-- TELEM.IRQ_STATUS (spec/19_background_work_and_telemetry.md). -/
abbrev TELEM_IRQ_STATUS : Nat := 0x60110
/-- TELEM.IRQ_EN (spec/19_background_work_and_telemetry.md). -/
abbrev TELEM_IRQ_EN : Nat := 0x60114
/-- TELEM.PWR_CL (spec/19_background_work_and_telemetry.md). -/
abbrev TELEM_PWR_CL : Nat := 0x60120
/-- TELEM.PWR_CTRL (spec/19_background_work_and_telemetry.md). -/
abbrev TELEM_PWR_CTRL : Nat := 0x60124
/-- TELEM.SW_RATE (spec/19_background_work_and_telemetry.md). -/
abbrev TELEM_SW_RATE : Nat := 0x60128
/-- LINK.CFG (spec/12_array_operation.md). -/
abbrev LINK_CFG : Nat := 0x80000
/-- LINK.CMD (spec/12_array_operation.md). -/
abbrev LINK_CMD : Nat := 0x80004
/-- LINK.CMD_STATUS (spec/12_array_operation.md). -/
abbrev LINK_CMD_STATUS : Nat := 0x80008
/-- LINK.STATUS (spec/12_array_operation.md). -/
abbrev LINK_STATUS : Nat := 0x8000C
/-- LINK.TICK_OFS (spec/12_array_operation.md). -/
abbrev LINK_TICK_OFS : Nat := 0x80010
/-- LINK.PORT_x, x = 0 E, 1 W (spec/12_array_operation.md). -/
abbrev LINK_PORT (x : Nat) : Nat := 0x80020 + 0x4 * x
/-- LINK.HOST_T_LO and LINK.HOST_T_HI (spec/12_array_operation.md). -/
abbrev LINK_HOST_T (h : Nat) : Nat := 0x80030 + 0x4 * h
/-- LINK.HOST_EV (spec/12_array_operation.md). -/
abbrev LINK_HOST_EV : Nat := 0x80038
/-- LINK.FWD_i, i = 0–7 (spec/12_array_operation.md). -/
abbrev LINK_FWD (i : Nat) : Nat := 0x80040 + 0x4 * i
/-- LINK.IRQ_STATUS (spec/12_array_operation.md). -/
abbrev LINK_IRQ_STATUS : Nat := 0x80060
/-- LINK.IRQ_EN (spec/12_array_operation.md). -/
abbrev LINK_IRQ_EN : Nat := 0x80064
/-- LINK.EVCNT (spec/12_array_operation.md). -/
abbrev LINK_EVCNT : Nat := 0x80070
/-- LINK.CNT and LINK.SNAP (spec/12_array_operation.md). -/
abbrev LINK_CNT (x m h : Nat) : Nat := 0x80100 + 0x10 * x + 0x8 * m + 0x4 * h
/-- LINK.CNT and LINK.SNAP (spec/12_array_operation.md). -/
abbrev LINK_SNAP (x m h : Nat) : Nat := 0x80120 + 0x10 * x + 0x8 * m + 0x4 * h
/-- HBM.STATUS (spec/13_waveform_memory.md). -/
abbrev HBM_STATUS (s : Nat) : Nat := 0x100000 + 0x10000 * s
/-- HBM.REF (spec/13_waveform_memory.md). -/
abbrev HBM_REF (s : Nat) : Nat := 0x100004 + 0x10000 * s
/-- HBM.CTL_CNT and HBM.CTL_SNAP (spec/13_waveform_memory.md). -/
abbrev HBM_CTL_CNT (s m h : Nat) : Nat := 0x100010 + 0x10000 * s + 0x8 * m + 0x4 * h
/-- HBM.CTL_CNT and HBM.CTL_SNAP (spec/13_waveform_memory.md). -/
abbrev HBM_CTL_SNAP (s m h : Nat) : Nat := 0x100020 + 0x10000 * s + 0x8 * m + 0x4 * h
/-- HBM.PC_CNT and HBM.PC_SNAP, i = 0–31 (spec/13_waveform_memory.md). -/
abbrev HBM_PC_CNT (s i m h : Nat) : Nat := 0x100100 + 0x10000 * s + 0x10 * i + 0x8 * m + 0x4 * h
/-- HBM.PC_CNT and HBM.PC_SNAP, i = 0–31 (spec/13_waveform_memory.md). -/
abbrev HBM_PC_SNAP (s i m h : Nat) : Nat := 0x100300 + 0x10000 * s + 0x10 * i + 0x8 * m + 0x4 * h
/-- HBM.EYE_i_w, i = 0–31, w = 0–7 (spec/13_waveform_memory.md). -/
abbrev HBM_EYE (s i w : Nat) : Nat := 0x100800 + 0x10000 * s + 0x20 * i + 0x4 * w
/-- MEM.HEALTH (spec/13_waveform_memory.md). -/
abbrev MEM_HEALTH : Nat := 0x180000
/-- MEM.FENCE (spec/13_waveform_memory.md). -/
abbrev MEM_FENCE : Nat := 0x180010
/-- MEM.MAP_CTRL (spec/13_waveform_memory.md). -/
abbrev MEM_MAP_CTRL : Nat := 0x180020
/-- MEM.MAP_STATUS (spec/13_waveform_memory.md). -/
abbrev MEM_MAP_STATUS : Nat := 0x180024
/-- MEM.FREQ_CTRL (spec/13_waveform_memory.md). -/
abbrev MEM_FREQ_CTRL : Nat := 0x180030
/-- MEM.FREQ_STATUS (spec/13_waveform_memory.md). -/
abbrev MEM_FREQ_STATUS : Nat := 0x180034
/-- MEM.TRAIN_CMD (spec/13_waveform_memory.md). -/
abbrev MEM_TRAIN_CMD : Nat := 0x180040
/-- MEM.TRAIN_STATUS (spec/13_waveform_memory.md). -/
abbrev MEM_TRAIN_STATUS : Nat := 0x180044
/-- MEM.RETRAIN_CFG (spec/13_waveform_memory.md). -/
abbrev MEM_RETRAIN_CFG : Nat := 0x180048
/-- MEM.QOS_m, m = 0–5 (spec/13_waveform_memory.md). -/
abbrev MEM_QOS (m : Nat) : Nat := 0x180060 + 0x4 * m
/-- MEM.SCRUB (spec/13_waveform_memory.md). -/
abbrev MEM_SCRUB : Nat := 0x180080
/-- MEM.ECC_CE and MEM.ECC_UE (spec/13_waveform_memory.md). -/
abbrev MEM_ECC (m : Nat) : Nat := 0x180090 + 0x4 * m
/-- MEM.ECC_ADDR and MEM.ERR_ADDR, LO and HI (spec/13_waveform_memory.md). -/
abbrev MEM_ADDR (m h : Nat) : Nat := 0x1800A0 + 0x8 * m + 0x4 * h
/-- MEM.IRQ_STATUS (spec/13_waveform_memory.md). -/
abbrev MEM_IRQ_STATUS : Nat := 0x1800C0
/-- MEM.IRQ_EN (spec/13_waveform_memory.md). -/
abbrev MEM_IRQ_EN : Nat := 0x1800C4
/-- MEM.PC_STAT_p, p = 0–127 (spec/13_waveform_memory.md). -/
abbrev MEM_PC_STAT (p : Nat) : Nat := 0x180100 + 0x4 * p
/-- CARAVAN.CMD (spec/11_caravan_rings.md). -/
abbrev CARAVAN_CMD : Nat := 0x200000
/-- CARAVAN.CMD_STATUS (spec/11_caravan_rings.md). -/
abbrev CARAVAN_CMD_STATUS : Nat := 0x200004
/-- CARAVAN.IRQ_STATUS (spec/11_caravan_rings.md). -/
abbrev CARAVAN_IRQ_STATUS : Nat := 0x200010
/-- CARAVAN.IRQ_EN (spec/11_caravan_rings.md). -/
abbrev CARAVAN_IRQ_EN : Nat := 0x200014
/-- CARAVAN.ERR (spec/11_caravan_rings.md). -/
abbrev CARAVAN_ERR : Nat := 0x200018
/-- CARAVAN.STAT_RING_m, m = 0–3 (spec/11_caravan_rings.md). -/
abbrev CARAVAN_STAT_RING (m : Nat) : Nat := 0x200020 + 0x4 * m
/-- CARAVAN.STAT_MASK_m, m = 0–2 (spec/11_caravan_rings.md). -/
abbrev CARAVAN_STAT_MASK (m : Nat) : Nat := 0x200030 + 0x4 * m
/-- CARAVAN.STAT_Q (spec/11_caravan_rings.md). -/
abbrev CARAVAN_STAT_Q : Nat := 0x200040
/-- CARAVAN.CNT and CARAVAN.SNAP (spec/11_caravan_rings.md). -/
abbrev CARAVAN_CNT (m h : Nat) : Nat := 0x200100 + 0x8 * m + 0x4 * h
/-- CARAVAN.CNT and CARAVAN.SNAP (spec/11_caravan_rings.md). -/
abbrev CARAVAN_SNAP (m h : Nat) : Nat := 0x200120 + 0x8 * m + 0x4 * h
/-- CARAVAN.SRAM_ERR (spec/14_oasis_and_onchip_memory.md). -/
abbrev CARAVAN_SRAM_ERR : Nat := 0x200300
/-- CL.STAGE_CTRL_j (spec/05_segments_and_playback.md). -/
abbrev CL_STAGE_CTRL (k j : Nat) : Nat := 0x1000000 + 0x100000 * k + 0x4 * j
/-- CL.STAGE_STAT_j (spec/05_segments_and_playback.md). -/
abbrev CL_STAGE_STAT (k j : Nat) : Nat := 0x1000010 + 0x100000 * k + 0x4 * j
/-- CL.IRQ_STATUS (spec/05_segments_and_playback.md). -/
abbrev CL_IRQ_STATUS (k : Nat) : Nat := 0x1000020 + 0x100000 * k
/-- CL.IRQ_EN (spec/05_segments_and_playback.md). -/
abbrev CL_IRQ_EN (k : Nat) : Nat := 0x1000024 + 0x100000 * k
/-- CL.CH_IRQ_STATUS_j (spec/05_segments_and_playback.md). -/
abbrev CL_CH_IRQ_STATUS (k j : Nat) : Nat := 0x1000030 + 0x100000 * k + 0x4 * j
/-- CL.CH_IRQ_EN_j (spec/05_segments_and_playback.md). -/
abbrev CL_CH_IRQ_EN (k j : Nat) : Nat := 0x1000040 + 0x100000 * k + 0x4 * j
/-- CL.CH_COUNT_j (spec/05_segments_and_playback.md). -/
abbrev CL_CH_COUNT (k j : Nat) : Nat := 0x1000050 + 0x100000 * k + 0x4 * j
/-- CL.FILL_SRC_LO and CL.FILL_SRC_HI (spec/05_segments_and_playback.md). -/
abbrev CL_FILL_SRC (k h : Nat) : Nat := 0x1000060 + 0x100000 * k + 0x4 * h
/-- CL.FILL_DST (spec/05_segments_and_playback.md). -/
abbrev CL_FILL_DST (k : Nat) : Nat := 0x1000068 + 0x100000 * k
/-- CL.FILL_LEN (spec/05_segments_and_playback.md). -/
abbrev CL_FILL_LEN (k : Nat) : Nat := 0x100006C + 0x100000 * k
/-- CL.FILL_CTRL (spec/05_segments_and_playback.md). -/
abbrev CL_FILL_CTRL (k : Nat) : Nat := 0x1000070 + 0x100000 * k
/-- CL.FILL_STATUS (spec/05_segments_and_playback.md). -/
abbrev CL_FILL_STATUS (k : Nat) : Nat := 0x1000074 + 0x100000 * k
/-- CL.PORT_BYTES (spec/05_segments_and_playback.md). -/
abbrev CL_PORT_BYTES (k m h : Nat) : Nat := 0x1000080 + 0x100000 * k + 0x8 * m + 0x4 * h
/-- CL.PORT_SNAP (spec/05_segments_and_playback.md). -/
abbrev CL_PORT_SNAP (k m h : Nat) : Nat := 0x1000090 + 0x100000 * k + 0x8 * m + 0x4 * h
/-- CL.TGT_CFG, i = 0–15 (spec/05_segments_and_playback.md). -/
abbrev CL_TGT_CFG (k j i : Nat) : Nat := 0x1000100 + 0x100000 * k + 0x40 * j + 0x4 * i
/-- CL.TGT_STAT, i = 0–15 (spec/05_segments_and_playback.md). -/
abbrev CL_TGT_STAT (k j i : Nat) : Nat := 0x1000200 + 0x100000 * k + 0x40 * j + 0x4 * i
/-- CL.XBAR_MASK_j_w, j = 0–3, w = 0–7 (spec/10_events_and_device_time.md). -/
abbrev CL_XBAR_MASK (k j w : Nat) : Nat := 0x1000300 + 0x100000 * k + 0x20 * j + 0x4 * w
/-- CL.EV_STAT_j, j = 0–3 (spec/10_events_and_device_time.md). -/
abbrev CL_EV_STAT (k j : Nat) : Nat := 0x1000380 + 0x100000 * k + 0x4 * j
/-- CL.OASIS_ERR (spec/14_oasis_and_onchip_memory.md). -/
abbrev CL_OASIS_ERR (k : Nat) : Nat := 0x1000400 + 0x100000 * k
/-- CL.OASIS_CNT_m, m = 0–3 (spec/14_oasis_and_onchip_memory.md). -/
abbrev CL_OASIS_CNT (k m : Nat) : Nat := 0x1000410 + 0x100000 * k + 0x4 * m
/-- CL.SIR_CTRL (spec/14_oasis_and_onchip_memory.md). -/
abbrev CL_SIR_CTRL (k : Nat) : Nat := 0x1000420 + 0x100000 * k
/-- CL.SIR_STATUS (spec/14_oasis_and_onchip_memory.md). -/
abbrev CL_SIR_STATUS (k : Nat) : Nat := 0x1000424 + 0x100000 * k
/-- CL.SIR_FAIL_ADDR (spec/14_oasis_and_onchip_memory.md). -/
abbrev CL_SIR_FAIL_ADDR (k : Nat) : Nat := 0x1000428 + 0x100000 * k
/-- PAT.SEL_i, i = 0–15 (spec/07_channel_datapath_and_markers.md). -/
abbrev PAT_SEL (d i : Nat) : Nat := 0x1080000 + 0x200000 * d + 0x4 * i
/-- PAT.LEVEL (spec/07_channel_datapath_and_markers.md). -/
abbrev PAT_LEVEL (d : Nat) : Nat := 0x1080040 + 0x200000 * d
/-- CH.SEQ_CTRL (spec/03_sequencer_model.md). -/
abbrev CH_SEQ_CTRL (c : Nat) : Nat := 0x2000000 + 0x100000 * c
/-- CH.SEQ_STATUS (spec/03_sequencer_model.md). -/
abbrev CH_SEQ_STATUS (c : Nat) : Nat := 0x2000004 + 0x100000 * c
/-- CH.SEQ_MODE (spec/03_sequencer_model.md). -/
abbrev CH_SEQ_MODE (c : Nat) : Nat := 0x2000008 + 0x100000 * c
/-- CH.SEQ_START_LO and CH.SEQ_START_HI (spec/03_sequencer_model.md). -/
abbrev CH_SEQ_START (c h : Nat) : Nat := 0x2000010 + 0x100000 * c + 0x4 * h
/-- CH.SEQ_SC_LO and CH.SEQ_SC_HI (spec/03_sequencer_model.md). -/
abbrev CH_SEQ_SC (c h : Nat) : Nat := 0x2000018 + 0x100000 * c + 0x4 * h
/-- CH.SEQ_PC (spec/03_sequencer_model.md). -/
abbrev CH_SEQ_PC (c : Nat) : Nat := 0x2000020 + 0x100000 * c
/-- CH.SEQ_RING_TMO (spec/03_sequencer_model.md). -/
abbrev CH_SEQ_RING_TMO (c : Nat) : Nat := 0x2000024 + 0x100000 * c
/-- CH.SEQ_IRQ_EN (spec/03_sequencer_model.md). -/
abbrev CH_SEQ_IRQ_EN (c : Nat) : Nat := 0x2000040 + 0x100000 * c
/-- CH.SEQ_IRQ_STATUS (spec/03_sequencer_model.md). -/
abbrev CH_SEQ_IRQ_STATUS (c : Nat) : Nat := 0x2000044 + 0x100000 * c
/-- CH.SEQ_FAULT (spec/03_sequencer_model.md). -/
abbrev CH_SEQ_FAULT (c : Nat) : Nat := 0x2000060 + 0x100000 * c
/-- CH.SEQ_FAULT_PC (spec/03_sequencer_model.md). -/
abbrev CH_SEQ_FAULT_PC (c : Nat) : Nat := 0x2000064 + 0x100000 * c
/-- CH.SEQ_FAULT_B_LO and CH.SEQ_FAULT_B_HI (spec/03_sequencer_model.md). -/
abbrev CH_SEQ_FAULT_B (c h : Nat) : Nat := 0x2000068 + 0x100000 * c + 0x4 * h
/-- CH.SEQ_FAULT_ARG (spec/03_sequencer_model.md). -/
abbrev CH_SEQ_FAULT_ARG (c : Nat) : Nat := 0x2000070 + 0x100000 * c
/-- CH.SEQ_Gi, i = 0–15 (spec/03_sequencer_model.md). -/
abbrev CH_SEQ_G (c i : Nat) : Nat := 0x2000080 + 0x100000 * c + 0x4 * i
/-- CH.SEQ_Lj, j = 0–3 (spec/03_sequencer_model.md). -/
abbrev CH_SEQ_L (c j : Nat) : Nat := 0x20000C0 + 0x100000 * c + 0x4 * j
/-- CH.SEQ_ISSUED_LO, _HI and CH.SEQ_STALLED_LO, _HI (spec/03_sequencer_model.md). -/
abbrev CH_SEQ_CNT (c m h : Nat) : Nat := 0x2000100 + 0x100000 * c + 0x8 * m + 0x4 * h
/-- CH.SEQ_SNAP_* (spec/03_sequencer_model.md). -/
abbrev CH_SEQ_SNAP (c m h : Nat) : Nat := 0x2000110 + 0x100000 * c + 0x8 * m + 0x4 * h
/-- CH.NCO_MIX (spec/06_ncos_and_phase_ledger.md). -/
abbrev CH_NCO_MIX (c : Nat) : Nat := 0x2000200 + 0x100000 * c
/-- CH.NCO_OSC_n, n = 0–7 (spec/06_ncos_and_phase_ledger.md). -/
abbrev CH_NCO_OSC (c n : Nat) : Nat := 0x2000210 + 0x100000 * c + 0x4 * n
/-- CH.LEDGER_STG_FTW_LO and _HI (spec/06_ncos_and_phase_ledger.md). -/
abbrev CH_LEDGER_STG_FTW (c h : Nat) : Nat := 0x2000240 + 0x100000 * c + 0x4 * h
/-- CH.LEDGER_STG_PHI_LO and _HI (spec/06_ncos_and_phase_ledger.md). -/
abbrev CH_LEDGER_STG_PHI (c h : Nat) : Nat := 0x2000248 + 0x100000 * c + 0x4 * h
/-- CH.LEDGER_STG_T0_LO and _HI (spec/06_ncos_and_phase_ledger.md). -/
abbrev CH_LEDGER_STG_T0 (c h : Nat) : Nat := 0x2000250 + 0x100000 * c + 0x4 * h
/-- CH.LEDGER_CMD (spec/06_ncos_and_phase_ledger.md). -/
abbrev CH_LEDGER_CMD (c : Nat) : Nat := 0x2000260 + 0x100000 * c
/-- CH.LEDGER_STATUS (spec/06_ncos_and_phase_ledger.md). -/
abbrev CH_LEDGER_STATUS (c : Nat) : Nat := 0x2000264 + 0x100000 * c
/-- CH.LEDGER_RD_FTW, _PHI, _T0 and _DT, LO and HI (spec/06_ncos_and_phase_ledger.md). -/
abbrev CH_LEDGER_RD (c m h : Nat) : Nat := 0x2000270 + 0x100000 * c + 0x8 * m + 0x4 * h
/-- CH.DP_CTRL (spec/07_channel_datapath_and_markers.md). -/
abbrev CH_DP_CTRL (c : Nat) : Nat := 0x2000300 + 0x100000 * c
/-- CH.DP_GAIN (spec/07_channel_datapath_and_markers.md). -/
abbrev CH_DP_GAIN (c : Nat) : Nat := 0x2000304 + 0x100000 * c
/-- CH.DP_STATUS (spec/07_channel_datapath_and_markers.md). -/
abbrev CH_DP_STATUS (c : Nat) : Nat := 0x2000308 + 0x100000 * c
/-- CH.DP_MDLY (spec/07_channel_datapath_and_markers.md). -/
abbrev CH_DP_MDLY (c : Nat) : Nat := 0x200030C + 0x100000 * c
/-- CH.DP_CNT (spec/07_channel_datapath_and_markers.md). -/
abbrev CH_DP_CNT (c m h : Nat) : Nat := 0x2000310 + 0x100000 * c + 0x8 * m + 0x4 * h
/-- CH.DP_SNAP (spec/07_channel_datapath_and_markers.md). -/
abbrev CH_DP_SNAP (c m h : Nat) : Nat := 0x2000328 + 0x100000 * c + 0x8 * m + 0x4 * h
/-- CH.FIR_CTRL (spec/07_channel_datapath_and_markers.md). -/
abbrev CH_FIR_CTRL (c : Nat) : Nat := 0x2000380 + 0x100000 * c
/-- CH.FIR_COEF_b_i, b = 0–1, i = 0–31 (spec/07_channel_datapath_and_markers.md). -/
abbrev CH_FIR_COEF (c b i : Nat) : Nat := 0x2000400 + 0x100000 * c + 0x80 * b + 0x4 * i
/-- CH.DAC_CTRL (spec/08_converters_and_outputs.md). -/
abbrev CH_DAC_CTRL (c : Nat) : Nat := 0x2000600 + 0x100000 * c
/-- CH.DAC_STATUS (spec/08_converters_and_outputs.md). -/
abbrev CH_DAC_STATUS (c : Nat) : Nat := 0x2000604 + 0x100000 * c
/-- CH.DAC_SKEW (spec/08_converters_and_outputs.md). -/
abbrev CH_DAC_SKEW (c : Nat) : Nat := 0x2000608 + 0x100000 * c
/-- CH.DAC_MAP_w, w = 0–3 (spec/08_converters_and_outputs.md). -/
abbrev CH_DAC_MAP (c w : Nat) : Nat := 0x2000610 + 0x100000 * c + 0x4 * w
/-- CH.DAC_SUB_u, u = 0–17 (spec/08_converters_and_outputs.md). -/
abbrev CH_DAC_SUB (c u : Nat) : Nat := 0x2000620 + 0x100000 * c + 0x4 * u
/-- CH.CAL_CTRL (spec/09_calibration.md). -/
abbrev CH_CAL_CTRL (c : Nat) : Nat := 0x2000680 + 0x100000 * c
/-- CH.CAL_STATUS (spec/09_calibration.md). -/
abbrev CH_CAL_STATUS (c : Nat) : Nat := 0x2000684 + 0x100000 * c
/-- CH.CAL_ABORT (spec/09_calibration.md). -/
abbrev CH_CAL_ABORT (c : Nat) : Nat := 0x2000688 + 0x100000 * c
/-- CH.CAL_IRQ_STATUS (spec/09_calibration.md). -/
abbrev CH_CAL_IRQ_STATUS (c : Nat) : Nat := 0x2000690 + 0x100000 * c
/-- CH.CAL_IRQ_EN (spec/09_calibration.md). -/
abbrev CH_CAL_IRQ_EN (c : Nat) : Nat := 0x2000694 + 0x100000 * c
/-- CH.CAL_QUAL (spec/09_calibration.md). -/
abbrev CH_CAL_QUAL (c : Nat) : Nat := 0x20006A0 + 0x100000 * c
/-- CH.CAL_AGE (spec/09_calibration.md). -/
abbrev CH_CAL_AGE (c : Nat) : Nat := 0x20006A4 + 0x100000 * c
/-- CH.CAL_TEMP (spec/09_calibration.md). -/
abbrev CH_CAL_TEMP (c : Nat) : Nat := 0x20006A8 + 0x100000 * c
/-- CH.CAL_MTP (spec/09_calibration.md). -/
abbrev CH_CAL_MTP (c : Nat) : Nat := 0x20006B0 + 0x100000 * c
/-- CH.CAL_GEN (spec/09_calibration.md). -/
abbrev CH_CAL_GEN (c : Nat) : Nat := 0x20006B4 + 0x100000 * c
/-- CH.CAL_CNT_m, m = 0–1 (spec/09_calibration.md). -/
abbrev CH_CAL_CNT (c m : Nat) : Nat := 0x20006C0 + 0x100000 * c + 0x4 * m

end R

namespace F

abbrev DEV_ID_STEPPING : Fld := ⟨R.DEV_ID, 8, 4⟩
abbrev DEV_ID_GRADE : Fld := ⟨R.DEV_ID, 12, 4⟩
abbrev DEV_ID_DEVICE : Fld := ⟨R.DEV_ID, 16, 16⟩
abbrev DEV_STAGE_STAGE : Fld := ⟨R.DEV_STAGE, 0, 4⟩
abbrev DEV_STAGE_STOP_CODE : Fld := ⟨R.DEV_STAGE, 8, 8⟩
abbrev DEV_STAGE_STOPPED : Fld := ⟨R.DEV_STAGE, 16, 1⟩
abbrev DEV_PROFILE_PROFILE : Fld := ⟨R.DEV_PROFILE, 0, 3⟩
abbrev DEV_PROFILE_COLLIDE : Fld := ⟨R.DEV_PROFILE, 3, 1⟩
abbrev DEV_CTRL_IRQ_EN : Fld := ⟨R.DEV_CTRL, 0, 1⟩
abbrev DEV_CTRL_PARK_ALL : Fld := ⟨R.DEV_CTRL, 1, 1⟩
abbrev DEV_CTRL_PENDING : Fld := ⟨R.DEV_CTRL, 2, 1⟩
abbrev DEV_IRQ_CH_CH : Fld := ⟨R.DEV_IRQ_CH, 0, 32⟩
abbrev DEV_IRQ_BLK_DEV_ERR : Fld := ⟨R.DEV_IRQ_BLK, 0, 1⟩
abbrev DEV_IRQ_BLK_CLK : Fld := ⟨R.DEV_IRQ_BLK, 1, 1⟩
abbrev DEV_IRQ_BLK_ABACUS : Fld := ⟨R.DEV_IRQ_BLK, 2, 1⟩
abbrev DEV_IRQ_BLK_EVT : Fld := ⟨R.DEV_IRQ_BLK, 3, 1⟩
abbrev DEV_IRQ_BLK_SEC : Fld := ⟨R.DEV_IRQ_BLK, 4, 1⟩
abbrev DEV_IRQ_BLK_MGMT : Fld := ⟨R.DEV_IRQ_BLK, 5, 1⟩
abbrev DEV_IRQ_BLK_TELEM : Fld := ⟨R.DEV_IRQ_BLK, 6, 1⟩
abbrev DEV_IRQ_BLK_LINK : Fld := ⟨R.DEV_IRQ_BLK, 7, 1⟩
abbrev DEV_IRQ_BLK_HBM : Fld := ⟨R.DEV_IRQ_BLK, 8, 4⟩
abbrev DEV_IRQ_BLK_MEM : Fld := ⟨R.DEV_IRQ_BLK, 12, 1⟩
abbrev DEV_IRQ_BLK_CARAVAN : Fld := ⟨R.DEV_IRQ_BLK, 13, 1⟩
abbrev DEV_IRQ_BLK_CL : Fld := ⟨R.DEV_IRQ_BLK, 14, 8⟩
abbrev DEV_IRQ_MASK_CH_MASK : Fld := ⟨R.DEV_IRQ_MASK_CH, 0, 32⟩
abbrev DEV_IRQ_MASK_BLK_MASK : Fld := ⟨R.DEV_IRQ_MASK_BLK, 0, 22⟩
abbrev DEV_ERR_STATUS_LOCK_VIOL : Fld := ⟨R.DEV_ERR_STATUS, 0, 1⟩
abbrev DEV_ERR_STATUS_UNMAPPED : Fld := ⟨R.DEV_ERR_STATUS, 1, 1⟩
abbrev DEV_ERR_STATUS_ALIAS_DENIED : Fld := ⟨R.DEV_ERR_STATUS, 2, 1⟩
abbrev DEV_ERR_STATUS_BAD_WIDTH : Fld := ⟨R.DEV_ERR_STATUS, 3, 1⟩
abbrev DEV_ERR_ADDR_ADDR : Fld := ⟨R.DEV_ERR_ADDR, 0, 28⟩
abbrev DEV_ERR_ADDR_KIND : Fld := ⟨R.DEV_ERR_ADDR, 28, 3⟩
abbrev DEV_ERR_ADDR_VALID : Fld := ⟨R.DEV_ERR_ADDR, 31, 1⟩
abbrev DEV_RST_DEVICE : Fld := ⟨R.DEV_RST, 0, 1⟩
abbrev DEV_RST_PENDING : Fld := ⟨R.DEV_RST, 1, 1⟩
abbrev DEV_RST_CH_C : Fld := ⟨R.DEV_RST_CH, 0, 5⟩
abbrev DEV_RST_CH_GO : Fld := ⟨R.DEV_RST_CH, 5, 1⟩
abbrev DEV_RST_CH_PENDING : Fld := ⟨R.DEV_RST_CH, 6, 1⟩
abbrev DEV_RST_CH_CODE : Fld := ⟨R.DEV_RST_CH, 7, 4⟩
abbrev DEV_RST_CH_LAST : Fld := ⟨R.DEV_RST_CH, 12, 5⟩
abbrev DEV_ALERT_MASK_MASK : Fld := ⟨R.DEV_ALERT_MASK, 0, 24⟩
abbrev DEV_ALERT_SRC_BLK : Fld := ⟨R.DEV_ALERT_SRC, 0, 22⟩
abbrev DEV_ALERT_SRC_CH : Fld := ⟨R.DEV_ALERT_SRC, 22, 1⟩
abbrev DEV_ALERT_SRC_FAULT : Fld := ⟨R.DEV_ALERT_SRC, 23, 1⟩
abbrev DEV_PIN_STATUS_TRIG : Fld := ⟨R.DEV_PIN_STATUS, 0, 16⟩
abbrev DEV_PIN_STATUS_SYNCIN : Fld := ⟨R.DEV_PIN_STATUS, 16, 1⟩
abbrev DEV_PIN_STATUS_NFAULT : Fld := ⟨R.DEV_PIN_STATUS, 17, 1⟩
abbrev DEV_PIN_STATUS_ALERT : Fld := ⟨R.DEV_PIN_STATUS, 18, 1⟩
abbrev DEV_PIN_STATUS_ADDR : Fld := ⟨R.DEV_PIN_STATUS, 19, 2⟩
abbrev DEV_MSIX_REARM_REARM (w : Nat) : Fld := ⟨R.DEV_MSIX_REARM w, 0, 32⟩
abbrev DEV_MSIX_MOD_HOLDOFF (v : Nat) : Fld := ⟨R.DEV_MSIX_MOD v, 0, 16⟩
abbrev DEV_MSIX_PBA_PBA (w : Nat) : Fld := ⟨R.DEV_MSIX_PBA w, 0, 32⟩
abbrev DEV_MSIX_ADDR_ADDR (v h : Nat) : Fld := ⟨R.DEV_MSIX_ADDR v h, 0, 32⟩
abbrev DEV_MSIX_DATA_DATA (v : Nat) : Fld := ⟨R.DEV_MSIX_DATA v, 0, 32⟩
abbrev DEV_MSIX_CTRL_MASK (v : Nat) : Fld := ⟨R.DEV_MSIX_CTRL v, 0, 1⟩
abbrev CLK_SPLL_CFG_PRE_M1 : Fld := ⟨R.CLK_SPLL_CFG, 0, 4⟩
abbrev CLK_SPLL_CFG_N : Fld := ⟨R.CLK_SPLL_CFG, 4, 11⟩
abbrev CLK_SPLL_FRAC_F : Fld := ⟨R.CLK_SPLL_FRAC, 0, 32⟩
abbrev CLK_SPLL_CTRL_APPLY : Fld := ⟨R.CLK_SPLL_CTRL, 0, 1⟩
abbrev CLK_SPLL_CTRL_PENDING : Fld := ⟨R.CLK_SPLL_CTRL, 1, 1⟩
abbrev CLK_SPLL_STATUS_STATE : Fld := ⟨R.CLK_SPLL_STATUS, 0, 3⟩
abbrev CLK_SPLL_STATUS_CODE : Fld := ⟨R.CLK_SPLL_STATUS, 3, 4⟩
abbrev CLK_SPLL_STATUS_ABRT : Fld := ⟨R.CLK_SPLL_STATUS, 7, 2⟩
abbrev CLK_SPLL_STATUS_REASON : Fld := ⟨R.CLK_SPLL_STATUS, 9, 3⟩
abbrev CLK_SPLL_STATUS_WINS : Fld := ⟨R.CLK_SPLL_STATUS, 12, 4⟩
abbrev CLK_SPLL_STATUS_MUTED : Fld := ⟨R.CLK_SPLL_STATUS, 16, 1⟩
abbrev CLK_SPLL_STATUS_BYPASS : Fld := ⟨R.CLK_SPLL_STATUS, 17, 1⟩
abbrev CLK_SYNC_CFG_SRC : Fld := ⟨R.CLK_SYNC_CFG, 0, 2⟩
abbrev CLK_SYNC_CFG_DLY : Fld := ⟨R.CLK_SYNC_CFG, 2, 4⟩
abbrev CLK_SYNC_CFG_OUT : Fld := ⟨R.CLK_SYNC_CFG, 6, 2⟩
abbrev CLK_SYNC_CFG_EMIT : Fld := ⟨R.CLK_SYNC_CFG, 8, 1⟩
abbrev CLK_SYNC_CFG_PENDING : Fld := ⟨R.CLK_SYNC_CFG, 9, 1⟩
abbrev CLK_SYNC_CFG_SYNC_TMO : Fld := ⟨R.CLK_SYNC_CFG, 10, 8⟩
abbrev CLK_SYNC_STATUS_FALLBACK : Fld := ⟨R.CLK_SYNC_STATUS, 0, 1⟩
abbrev CLK_SYNC_STATUS_WAITING : Fld := ⟨R.CLK_SYNC_STATUS, 1, 1⟩
abbrev CLK_SYNC_STATUS_SEEN : Fld := ⟨R.CLK_SYNC_STATUS, 16, 16⟩
abbrev CLK_SYS_CFG_SRC : Fld := ⟨R.CLK_SYS_CFG, 0, 1⟩
abbrev CLK_SYS_CFG_SYS_PRE : Fld := ⟨R.CLK_SYS_CFG, 1, 5⟩
abbrev CLK_SYS_CFG_SSC_EN : Fld := ⟨R.CLK_SYS_CFG, 6, 1⟩
abbrev CLK_SYS_CFG_SSC_DEPTH : Fld := ⟨R.CLK_SYS_CFG, 7, 7⟩
abbrev CLK_SYS_CFG_SSC_RATE : Fld := ⟨R.CLK_SYS_CFG, 14, 7⟩
abbrev CLK_MON_CFG_LOCK_TMO : Fld := ⟨R.CLK_MON_CFG, 0, 8⟩
abbrev CLK_FERR_ERR : Fld := ⟨R.CLK_FERR, 0, 32⟩
abbrev CLK_REFIN_FREQ_KHZ : Fld := ⟨R.CLK_REFIN_FREQ, 0, 20⟩
abbrev CLK_REFIN_FREQ_VALID : Fld := ⟨R.CLK_REFIN_FREQ, 31, 1⟩
abbrev CLK_LOSS_LOST : Fld := ⟨R.CLK_LOSS, 0, 10⟩
abbrev CLK_LOSS_BACK : Fld := ⟨R.CLK_LOSS, 16, 10⟩
abbrev CLK_CMD_RESTART : Fld := ⟨R.CLK_CMD, 0, 1⟩
abbrev CLK_CMD_SYS_APPLY : Fld := ⟨R.CLK_CMD, 1, 1⟩
abbrev CLK_CMD_PENDING : Fld := ⟨R.CLK_CMD, 2, 1⟩
abbrev CLK_CMD_STATUS_CODE : Fld := ⟨R.CLK_CMD_STATUS, 0, 4⟩
abbrev CLK_CMD_STATUS_ABRT : Fld := ⟨R.CLK_CMD_STATUS, 4, 2⟩
abbrev CLK_CMD_STATUS_REASON : Fld := ⟨R.CLK_CMD_STATUS, 6, 2⟩
abbrev CLK_IRQ_STATUS_LOCK : Fld := ⟨R.CLK_IRQ_STATUS, 0, 1⟩
abbrev CLK_IRQ_STATUS_COAST : Fld := ⟨R.CLK_IRQ_STATUS, 1, 1⟩
abbrev CLK_IRQ_STATUS_PARKED : Fld := ⟨R.CLK_IRQ_STATUS, 2, 1⟩
abbrev CLK_IRQ_STATUS_LOSS : Fld := ⟨R.CLK_IRQ_STATUS, 3, 1⟩
abbrev CLK_IRQ_STATUS_GATE_ERR : Fld := ⟨R.CLK_IRQ_STATUS, 4, 1⟩
abbrev CLK_IRQ_STATUS_WIN_FAIL : Fld := ⟨R.CLK_IRQ_STATUS, 5, 1⟩
abbrev CLK_IRQ_STATUS_APPLY : Fld := ⟨R.CLK_IRQ_STATUS, 6, 1⟩
abbrev CLK_IRQ_STATUS_CMD : Fld := ⟨R.CLK_IRQ_STATUS, 7, 1⟩
abbrev CLK_IRQ_EN_EN : Fld := ⟨R.CLK_IRQ_EN, 0, 8⟩
abbrev CLK_GATE_ERR_DOMAIN : Fld := ⟨R.CLK_GATE_ERR, 0, 6⟩
abbrev CLK_GATE_ERR_COUNT : Fld := ⟨R.CLK_GATE_ERR, 8, 16⟩
abbrev CLK_GATE_ERR_VALID : Fld := ⟨R.CLK_GATE_ERR, 31, 1⟩
abbrev CLK_RUN_RUN (w : Nat) : Fld := ⟨R.CLK_RUN w, 0, 32⟩
abbrev CLK_PLL_STATUS_SYS_LOCK : Fld := ⟨R.CLK_PLL_STATUS, 0, 1⟩
abbrev CLK_PLL_STATUS_HBM_LOCK : Fld := ⟨R.CLK_PLL_STATUS, 1, 4⟩
abbrev CLK_PLL_STATUS_PCIE_LOCK : Fld := ⟨R.CLK_PLL_STATUS, 5, 1⟩
abbrev CLK_PLL_STATUS_LINK_LOCK : Fld := ⟨R.CLK_PLL_STATUS, 6, 1⟩
abbrev CLK_PLL_STATUS_SYS_COAST : Fld := ⟨R.CLK_PLL_STATUS, 7, 1⟩
abbrev CLK_PLL_STATUS_SYS_BYPASS : Fld := ⟨R.CLK_PLL_STATUS, 8, 1⟩
abbrev CLK_CKO_CFG_EN (x : Nat) : Fld := ⟨R.CLK_CKO_CFG x, 0, 1⟩
abbrev CLK_CKO_CFG_SRC (x : Nat) : Fld := ⟨R.CLK_CKO_CFG x, 1, 1⟩
abbrev CLK_CKO_CFG_DIV (x : Nat) : Fld := ⟨R.CLK_CKO_CFG x, 2, 12⟩
abbrev CLK_CKO_SSC_EN (x : Nat) : Fld := ⟨R.CLK_CKO_SSC x, 0, 1⟩
abbrev CLK_CKO_SSC_DEPTH (x : Nat) : Fld := ⟨R.CLK_CKO_SSC x, 1, 6⟩
abbrev CLK_CKO_SSC_RATE (x : Nat) : Fld := ⟨R.CLK_CKO_SSC x, 7, 7⟩
abbrev ABACUS_TIME_LO_T_LO : Fld := ⟨R.ABACUS_TIME_LO, 0, 32⟩
abbrev ABACUS_TIME_HI_T_HI : Fld := ⟨R.ABACUS_TIME_HI, 0, 32⟩
abbrev ABACUS_CTRL_GO : Fld := ⟨R.ABACUS_CTRL, 0, 1⟩
abbrev ABACUS_CTRL_ABORT : Fld := ⟨R.ABACUS_CTRL, 1, 1⟩
abbrev ABACUS_CTRL_PENDING : Fld := ⟨R.ABACUS_CTRL, 2, 1⟩
abbrev ABACUS_STATUS_CODE : Fld := ⟨R.ABACUS_STATUS, 0, 4⟩
abbrev ABACUS_STATUS_ABRT : Fld := ⟨R.ABACUS_STATUS, 4, 2⟩
abbrev ABACUS_DONE_ALL : Fld := ⟨R.ABACUS_DONE, 0, 1⟩
abbrev ABACUS_DONE_UNITS : Fld := ⟨R.ABACUS_DONE, 8, 9⟩
abbrev ABACUS_DONE_COPIED : Fld := ⟨R.ABACUS_DONE, 17, 9⟩
abbrev EVT_DT_DT (h : Nat) : Fld := ⟨R.EVT_DT h, 0, 32⟩
abbrev EVT_DT_LOAD_VALUE (h : Nat) : Fld := ⟨R.EVT_DT_LOAD h, 0, 32⟩
abbrev EVT_CTRL_LOAD : Fld := ⟨R.EVT_CTRL, 0, 1⟩
abbrev EVT_CTRL_PENDING : Fld := ⟨R.EVT_CTRL, 1, 1⟩
abbrev EVT_STATUS_CODE : Fld := ⟨R.EVT_STATUS, 0, 4⟩
abbrev EVT_STATUS_ABRT : Fld := ⟨R.EVT_STATUS, 4, 2⟩
abbrev EVT_STATUS_COUNTING : Fld := ⟨R.EVT_STATUS, 6, 1⟩
abbrev EVT_STATUS_COAST : Fld := ⟨R.EVT_STATUS, 7, 1⟩
abbrev EVT_DT_GAP_GAP : Fld := ⟨R.EVT_DT_GAP, 0, 32⟩
abbrev EVT_IRQ_STATUS_LATE : Fld := ⟨R.EVT_IRQ_STATUS, 0, 1⟩
abbrev EVT_IRQ_STATUS_HOST : Fld := ⟨R.EVT_IRQ_STATUS, 1, 1⟩
abbrev EVT_IRQ_STATUS_TMR_LATE : Fld := ⟨R.EVT_IRQ_STATUS, 2, 1⟩
abbrev EVT_IRQ_STATUS_DT_RESUMED : Fld := ⟨R.EVT_IRQ_STATUS, 3, 1⟩
abbrev EVT_IRQ_STATUS_LOAD : Fld := ⟨R.EVT_IRQ_STATUS, 4, 1⟩
abbrev EVT_IRQ_STATUS_LOGFULL : Fld := ⟨R.EVT_IRQ_STATUS, 5, 1⟩
abbrev EVT_IRQ_EN_EN : Fld := ⟨R.EVT_IRQ_EN, 0, 6⟩
abbrev EVT_HOST_T_T (h : Nat) : Fld := ⟨R.EVT_HOST_T h, 0, 32⟩
abbrev EVT_HOST_EV_CODE : Fld := ⟨R.EVT_HOST_EV, 0, 8⟩
abbrev EVT_HOST_EV_AT : Fld := ⟨R.EVT_HOST_EV, 8, 1⟩
abbrev EVT_HOST_EV_GO : Fld := ⟨R.EVT_HOST_EV, 9, 1⟩
abbrev EVT_HOST_EV_PENDING : Fld := ⟨R.EVT_HOST_EV, 10, 1⟩
abbrev EVT_HOST_STATUS_CODE : Fld := ⟨R.EVT_HOST_STATUS, 0, 4⟩
abbrev EVT_HOST_STATUS_ABRT : Fld := ⟨R.EVT_HOST_STATUS, 4, 2⟩
abbrev EVT_TRIG_CFG_EN (i : Nat) : Fld := ⟨R.EVT_TRIG_CFG i, 0, 1⟩
abbrev EVT_TRIG_CFG_EDGE (i : Nat) : Fld := ⟨R.EVT_TRIG_CFG i, 1, 2⟩
abbrev EVT_TRIG_CFG_CODE (i : Nat) : Fld := ⟨R.EVT_TRIG_CFG i, 4, 8⟩
abbrev EVT_TRIG_CFG_MINW (i : Nat) : Fld := ⟨R.EVT_TRIG_CFG i, 12, 3⟩
abbrev EVT_TRIG_CFG_HOLDOFF (i : Nat) : Fld := ⟨R.EVT_TRIG_CFG i, 16, 16⟩
abbrev EVT_TRIG_LAST_VALUE (i h : Nat) : Fld := ⟨R.EVT_TRIG_LAST i h, 0, 32⟩
abbrev EVT_TRIG_CNT_EVENTS (i : Nat) : Fld := ⟨R.EVT_TRIG_CNT i, 0, 24⟩
abbrev EVT_TRIG_CNT_SUPPRESSED (i : Nat) : Fld := ⟨R.EVT_TRIG_CNT i, 24, 8⟩
abbrev EVT_TRIG_SNAP_EVENTS (i : Nat) : Fld := ⟨R.EVT_TRIG_SNAP i, 0, 24⟩
abbrev EVT_TRIG_SNAP_SUPPRESSED (i : Nat) : Fld := ⟨R.EVT_TRIG_SNAP i, 24, 8⟩
abbrev EVT_MK_CFG_EN (i : Nat) : Fld := ⟨R.EVT_MK_CFG i, 0, 1⟩
abbrev EVT_MK_CFG_EDGE (i : Nat) : Fld := ⟨R.EVT_MK_CFG i, 1, 2⟩
abbrev EVT_MK_CFG_CH (i : Nat) : Fld := ⟨R.EVT_MK_CFG i, 3, 5⟩
abbrev EVT_MK_CFG_BIT (i : Nat) : Fld := ⟨R.EVT_MK_CFG i, 8, 2⟩
abbrev EVT_MK_CFG_CODE (i : Nat) : Fld := ⟨R.EVT_MK_CFG i, 10, 8⟩
abbrev EVT_TMR_START_START (i h : Nat) : Fld := ⟨R.EVT_TMR_START i h, 0, 32⟩
abbrev EVT_TMR_PERIOD_PERIOD (i : Nat) : Fld := ⟨R.EVT_TMR_PERIOD i, 0, 32⟩
abbrev EVT_TMR_CTRL_EN (i : Nat) : Fld := ⟨R.EVT_TMR_CTRL i, 0, 1⟩
abbrev EVT_TMR_CTRL_CODE (i : Nat) : Fld := ⟨R.EVT_TMR_CTRL i, 8, 8⟩
abbrev EVT_TMR_CTRL_COUNT (i : Nat) : Fld := ⟨R.EVT_TMR_CTRL i, 16, 16⟩
abbrev EVT_TMR_STAT_RUNNING (i : Nat) : Fld := ⟨R.EVT_TMR_STAT i, 0, 1⟩
abbrev EVT_TMR_STAT_LATE (i : Nat) : Fld := ⟨R.EVT_TMR_STAT i, 1, 1⟩
abbrev EVT_TMR_STAT_LEFT (i : Nat) : Fld := ⟨R.EVT_TMR_STAT i, 16, 16⟩
abbrev EVT_LOG_MASK_MASK (w : Nat) : Fld := ⟨R.EVT_LOG_MASK w, 0, 32⟩
abbrev EVT_LOG_CFG_RING : Fld := ⟨R.EVT_LOG_CFG, 0, 18⟩
abbrev EVT_LOG_CFG_EN : Fld := ⟨R.EVT_LOG_CFG, 31, 1⟩
abbrev EVT_CNT_COUNT (m h : Nat) : Fld := ⟨R.EVT_CNT m h, 0, 32⟩
abbrev EVT_SNAP_COUNT (m h : Nat) : Fld := ⟨R.EVT_SNAP m h, 0, 32⟩
abbrev SEC_BOOT_SLOT : Fld := ⟨R.SEC_BOOT, 0, 1⟩
abbrev SEC_BOOT_OTHER_DONE : Fld := ⟨R.SEC_BOOT, 1, 1⟩
abbrev SEC_BOOT_OTHER_OK : Fld := ⟨R.SEC_BOOT, 2, 1⟩
abbrev SEC_BOOT_CFG_OK : Fld := ⟨R.SEC_BOOT, 3, 1⟩
abbrev SEC_BOOT_VER_VERSION : Fld := ⟨R.SEC_BOOT_VER, 0, 32⟩
abbrev SEC_LC_STATE : Fld := ⟨R.SEC_LC, 0, 2⟩
abbrev SEC_LC_BURNED : Fld := ⟨R.SEC_LC, 2, 2⟩
abbrev SEC_LC_MIN_SVN : Fld := ⟨R.SEC_LC, 4, 7⟩
abbrev SEC_LC_ROOT_VALID : Fld := ⟨R.SEC_LC, 11, 4⟩
abbrev SEC_LC_ROOT_REVOKED : Fld := ⟨R.SEC_LC, 15, 4⟩
abbrev SEC_LC_IDKEY_RETIRED : Fld := ⟨R.SEC_LC, 19, 1⟩
abbrev SEC_SERIAL_SERIAL (h : Nat) : Fld := ⟨R.SEC_SERIAL h, 0, 32⟩
abbrev SEC_DBG_CTRL_JTAG : Fld := ⟨R.SEC_DBG_CTRL, 0, 1⟩
abbrev SEC_DBG_CTRL_TRACE : Fld := ⟨R.SEC_DBG_CTRL, 1, 1⟩
abbrev SEC_DBG_CTRL_RDBG : Fld := ⟨R.SEC_DBG_CTRL, 2, 1⟩
abbrev SEC_IDX_VALUE (m : Nat) : Fld := ⟨R.SEC_IDX m, 0, 21⟩
abbrev SEC_CMD_OP : Fld := ⟨R.SEC_CMD, 0, 4⟩
abbrev SEC_CMD_R : Fld := ⟨R.SEC_CMD, 4, 2⟩
abbrev SEC_CMD_GO : Fld := ⟨R.SEC_CMD, 6, 1⟩
abbrev SEC_CMD_PENDING : Fld := ⟨R.SEC_CMD, 7, 1⟩
abbrev SEC_CMD_CONFIRM : Fld := ⟨R.SEC_CMD, 16, 16⟩
abbrev SEC_CMD_STATUS_CODE : Fld := ⟨R.SEC_CMD_STATUS, 0, 4⟩
abbrev SEC_CMD_STATUS_ABRT : Fld := ⟨R.SEC_CMD_STATUS, 4, 2⟩
abbrev SEC_IRQ_STATUS_CMD : Fld := ⟨R.SEC_IRQ_STATUS, 0, 1⟩
abbrev SEC_IRQ_STATUS_IDX_LOW : Fld := ⟨R.SEC_IRQ_STATUS, 1, 1⟩
abbrev SEC_IRQ_STATUS_RETIRED : Fld := ⟨R.SEC_IRQ_STATUS, 2, 1⟩
abbrev SEC_IRQ_STATUS_UNLOCK : Fld := ⟨R.SEC_IRQ_STATUS, 3, 1⟩
abbrev SEC_IRQ_EN_EN : Fld := ⟨R.SEC_IRQ_EN, 0, 4⟩
abbrev MGMT_CMD_OP : Fld := ⟨R.MGMT_CMD, 0, 8⟩
abbrev MGMT_CMD_GO : Fld := ⟨R.MGMT_CMD, 8, 1⟩
abbrev MGMT_CMD_ABORT : Fld := ⟨R.MGMT_CMD, 9, 1⟩
abbrev MGMT_CMD_PENDING : Fld := ⟨R.MGMT_CMD, 10, 1⟩
abbrev MGMT_STATUS_CODE : Fld := ⟨R.MGMT_STATUS, 0, 4⟩
abbrev MGMT_STATUS_ABRT : Fld := ⟨R.MGMT_STATUS, 4, 2⟩
abbrev MGMT_STATUS_REASON : Fld := ⟨R.MGMT_STATUS, 6, 8⟩
abbrev MGMT_STATUS_READY : Fld := ⟨R.MGMT_STATUS, 14, 1⟩
abbrev MGMT_ARG_VALUE (i : Nat) : Fld := ⟨R.MGMT_ARG i, 0, 32⟩
abbrev MGMT_RES_VALUE (i : Nat) : Fld := ⟨R.MGMT_RES i, 0, 32⟩
abbrev MGMT_LEN_BYTES : Fld := ⟨R.MGMT_LEN, 0, 13⟩
abbrev MGMT_IRQ_STATUS_DONE : Fld := ⟨R.MGMT_IRQ_STATUS, 0, 1⟩
abbrev MGMT_IRQ_STATUS_READY : Fld := ⟨R.MGMT_IRQ_STATUS, 1, 1⟩
abbrev MGMT_IRQ_STATUS_RESTART : Fld := ⟨R.MGMT_IRQ_STATUS, 2, 1⟩
abbrev MGMT_IRQ_EN_EN : Fld := ⟨R.MGMT_IRQ_EN, 0, 3⟩
abbrev MGMT_BUF_DATA (i : Nat) : Fld := ⟨R.MGMT_BUF i, 0, 32⟩
abbrev TELEM_TEMP_VALUE (i : Nat) : Fld := ⟨R.TELEM_TEMP i, 0, 16⟩
abbrev TELEM_TEMP_VALID (i : Nat) : Fld := ⟨R.TELEM_TEMP i, 16, 1⟩
abbrev TELEM_VOLT_MV (i : Nat) : Fld := ⟨R.TELEM_VOLT i, 0, 16⟩
abbrev TELEM_VOLT_VALID (i : Nat) : Fld := ⟨R.TELEM_VOLT i, 16, 1⟩
abbrev TELEM_VOLT_LOW (i : Nat) : Fld := ⟨R.TELEM_VOLT i, 17, 1⟩
abbrev TELEM_VOLT_HIGH (i : Nat) : Fld := ⟨R.TELEM_VOLT i, 18, 1⟩
abbrev TELEM_VLIM_LO (i : Nat) : Fld := ⟨R.TELEM_VLIM i, 0, 16⟩
abbrev TELEM_VLIM_HI (i : Nat) : Fld := ⟨R.TELEM_VLIM i, 16, 16⟩
abbrev TELEM_THERM_WARN : Fld := ⟨R.TELEM_THERM, 0, 8⟩
abbrev TELEM_THERM_CRIT : Fld := ⟨R.TELEM_THERM, 8, 8⟩
abbrev TELEM_THERM_HYST : Fld := ⟨R.TELEM_THERM, 16, 4⟩
abbrev TELEM_THERM_LEVEL : Fld := ⟨R.TELEM_THERM, 20, 2⟩
abbrev TELEM_THERM_SENSOR : Fld := ⟨R.TELEM_THERM, 22, 5⟩
abbrev TELEM_PEAK_VALUE : Fld := ⟨R.TELEM_PEAK, 0, 16⟩
abbrev TELEM_PEAK_SENSOR : Fld := ⟨R.TELEM_PEAK, 16, 5⟩
abbrev TELEM_IRQ_STATUS_WARN : Fld := ⟨R.TELEM_IRQ_STATUS, 0, 1⟩
abbrev TELEM_IRQ_STATUS_CRIT : Fld := ⟨R.TELEM_IRQ_STATUS, 1, 1⟩
abbrev TELEM_IRQ_STATUS_TRIP : Fld := ⟨R.TELEM_IRQ_STATUS, 2, 1⟩
abbrev TELEM_IRQ_STATUS_VOLT : Fld := ⟨R.TELEM_IRQ_STATUS, 3, 1⟩
abbrev TELEM_IRQ_STATUS_SENSOR : Fld := ⟨R.TELEM_IRQ_STATUS, 4, 1⟩
abbrev TELEM_IRQ_STATUS_RATE : Fld := ⟨R.TELEM_IRQ_STATUS, 5, 1⟩
abbrev TELEM_IRQ_STATUS_COOL : Fld := ⟨R.TELEM_IRQ_STATUS, 6, 1⟩
abbrev TELEM_IRQ_EN_EN : Fld := ⟨R.TELEM_IRQ_EN, 0, 7⟩
abbrev TELEM_PWR_CL_GATED : Fld := ⟨R.TELEM_PWR_CL, 0, 8⟩
abbrev TELEM_PWR_CL_COLLIDE : Fld := ⟨R.TELEM_PWR_CL, 8, 1⟩
abbrev TELEM_PWR_CTRL_HBM_SLEEP : Fld := ⟨R.TELEM_PWR_CTRL, 0, 1⟩
abbrev TELEM_PWR_CTRL_HBM_IDLE : Fld := ⟨R.TELEM_PWR_CTRL, 8, 8⟩
abbrev TELEM_SW_RATE_RATE_d : Fld := ⟨R.TELEM_SW_RATE, 0, 8⟩
abbrev TELEM_SW_RATE_COLLIDE : Fld := ⟨R.TELEM_SW_RATE, 8, 1⟩
abbrev TELEM_SW_RATE_BUSY : Fld := ⟨R.TELEM_SW_RATE, 9, 4⟩
abbrev LINK_CFG_EN : Fld := ⟨R.LINK_CFG, 0, 1⟩
abbrev LINK_CFG_ROLE : Fld := ⟨R.LINK_CFG, 1, 1⟩
abbrev LINK_CFG_POS : Fld := ⟨R.LINK_CFG, 2, 4⟩
abbrev LINK_CFG_N_M1 : Fld := ⟨R.LINK_CFG, 6, 4⟩
abbrev LINK_CFG_ON_BREAK : Fld := ⟨R.LINK_CFG, 10, 1⟩
abbrev LINK_CFG_STOP_EN : Fld := ⟨R.LINK_CFG, 11, 1⟩
abbrev LINK_CFG_STOP_CODE : Fld := ⟨R.LINK_CFG, 12, 8⟩
abbrev LINK_CMD_FORM : Fld := ⟨R.LINK_CMD, 0, 1⟩
abbrev LINK_CMD_ABORT : Fld := ⟨R.LINK_CMD, 1, 1⟩
abbrev LINK_CMD_LEAVE : Fld := ⟨R.LINK_CMD, 2, 1⟩
abbrev LINK_CMD_PENDING : Fld := ⟨R.LINK_CMD, 3, 1⟩
abbrev LINK_CMD_STATUS_CODE : Fld := ⟨R.LINK_CMD_STATUS, 0, 4⟩
abbrev LINK_CMD_STATUS_ABRT : Fld := ⟨R.LINK_CMD_STATUS, 4, 2⟩
abbrev LINK_CMD_STATUS_REASON : Fld := ⟨R.LINK_CMD_STATUS, 6, 4⟩
abbrev LINK_CMD_STATUS_POS_FAIL : Fld := ⟨R.LINK_CMD_STATUS, 10, 4⟩
abbrev LINK_CMD_STATUS_PHASE : Fld := ⟨R.LINK_CMD_STATUS, 14, 3⟩
abbrev LINK_STATUS_STATE : Fld := ⟨R.LINK_STATUS, 0, 2⟩
abbrev LINK_STATUS_E_UP : Fld := ⟨R.LINK_STATUS, 2, 1⟩
abbrev LINK_STATUS_W_UP : Fld := ⟨R.LINK_STATUS, 3, 1⟩
abbrev LINK_STATUS_TIME_COAST : Fld := ⟨R.LINK_STATUS, 4, 1⟩
abbrev LINK_STATUS_BROKEN_POS : Fld := ⟨R.LINK_STATUS, 5, 4⟩
abbrev LINK_STATUS_BROKEN_PORT : Fld := ⟨R.LINK_STATUS, 9, 1⟩
abbrev LINK_STATUS_CAUSE : Fld := ⟨R.LINK_STATUS, 10, 3⟩
abbrev LINK_TICK_OFS_RESID : Fld := ⟨R.LINK_TICK_OFS, 0, 9⟩
abbrev LINK_TICK_OFS_NOW : Fld := ⟨R.LINK_TICK_OFS, 16, 10⟩
abbrev LINK_PORT_RAW (x : Nat) : Fld := ⟨R.LINK_PORT x, 0, 8⟩
abbrev LINK_PORT_LANES (x : Nat) : Fld := ⟨R.LINK_PORT x, 8, 4⟩
abbrev LINK_PORT_CORRECTED (x : Nat) : Fld := ⟨R.LINK_PORT x, 12, 16⟩
abbrev LINK_PORT_SLIPPED (x : Nat) : Fld := ⟨R.LINK_PORT x, 28, 4⟩
abbrev LINK_HOST_T_T (h : Nat) : Fld := ⟨R.LINK_HOST_T h, 0, 32⟩
abbrev LINK_HOST_EV_CODE : Fld := ⟨R.LINK_HOST_EV, 0, 8⟩
abbrev LINK_HOST_EV_GO : Fld := ⟨R.LINK_HOST_EV, 8, 1⟩
abbrev LINK_HOST_EV_PENDING : Fld := ⟨R.LINK_HOST_EV, 9, 1⟩
abbrev LINK_HOST_EV_CODE_ST : Fld := ⟨R.LINK_HOST_EV, 10, 4⟩
abbrev LINK_FWD_EN (i : Nat) : Fld := ⟨R.LINK_FWD i, 0, 1⟩
abbrev LINK_FWD_SRC (i : Nat) : Fld := ⟨R.LINK_FWD i, 1, 8⟩
abbrev LINK_FWD_DST (i : Nat) : Fld := ⟨R.LINK_FWD i, 9, 8⟩
abbrev LINK_FWD_D4 (i : Nat) : Fld := ⟨R.LINK_FWD i, 17, 15⟩
abbrev LINK_IRQ_STATUS_FORM : Fld := ⟨R.LINK_IRQ_STATUS, 0, 1⟩
abbrev LINK_IRQ_STATUS_BREAK : Fld := ⟨R.LINK_IRQ_STATUS, 1, 1⟩
abbrev LINK_IRQ_STATUS_DRIFT : Fld := ⟨R.LINK_IRQ_STATUS, 2, 1⟩
abbrev LINK_IRQ_STATUS_EV_LOST : Fld := ⟨R.LINK_IRQ_STATUS, 3, 1⟩
abbrev LINK_IRQ_STATUS_TARDY : Fld := ⟨R.LINK_IRQ_STATUS, 4, 1⟩
abbrev LINK_IRQ_STATUS_HOST : Fld := ⟨R.LINK_IRQ_STATUS, 5, 1⟩
abbrev LINK_IRQ_EN_EN : Fld := ⟨R.LINK_IRQ_EN, 0, 6⟩
abbrev LINK_EVCNT_TARDY : Fld := ⟨R.LINK_EVCNT, 0, 16⟩
abbrev LINK_EVCNT_EV_LOST : Fld := ⟨R.LINK_EVCNT, 16, 16⟩
abbrev LINK_CNT_COUNT (x m h : Nat) : Fld := ⟨R.LINK_CNT x m h, 0, 32⟩
abbrev LINK_SNAP_COUNT (x m h : Nat) : Fld := ⟨R.LINK_SNAP x m h, 0, 32⟩
abbrev HBM_STATUS_POWER (s : Nat) : Fld := ⟨R.HBM_STATUS s, 0, 2⟩
abbrev HBM_STATUS_SET (s : Nat) : Fld := ⟨R.HBM_STATUS s, 2, 2⟩
abbrev HBM_STATUS_HOT (s : Nat) : Fld := ⟨R.HBM_STATUS s, 4, 1⟩
abbrev HBM_STATUS_TEMP (s : Nat) : Fld := ⟨R.HBM_STATUS s, 8, 8⟩
abbrev HBM_REF_FORCED (s : Nat) : Fld := ⟨R.HBM_REF s, 0, 32⟩
abbrev HBM_CTL_CNT_COUNT (s m h : Nat) : Fld := ⟨R.HBM_CTL_CNT s m h, 0, 32⟩
abbrev HBM_CTL_SNAP_COUNT (s m h : Nat) : Fld := ⟨R.HBM_CTL_SNAP s m h, 0, 32⟩
abbrev HBM_PC_CNT_COUNT (s i m h : Nat) : Fld := ⟨R.HBM_PC_CNT s i m h, 0, 32⟩
abbrev HBM_PC_SNAP_COUNT (s i m h : Nat) : Fld := ⟨R.HBM_PC_SNAP s i m h, 0, 32⟩
abbrev HBM_EYE_L0 (s i w : Nat) : Fld := ⟨R.HBM_EYE s i w, 0, 8⟩
abbrev HBM_EYE_L1 (s i w : Nat) : Fld := ⟨R.HBM_EYE s i w, 8, 8⟩
abbrev HBM_EYE_L2 (s i w : Nat) : Fld := ⟨R.HBM_EYE s i w, 16, 8⟩
abbrev HBM_EYE_L3 (s i w : Nat) : Fld := ⟨R.HBM_EYE s i w, 24, 8⟩
abbrev MEM_HEALTH_MAPPED : Fld := ⟨R.MEM_HEALTH, 0, 8⟩
abbrev MEM_HEALTH_RETIRED : Fld := ⟨R.MEM_HEALTH, 8, 8⟩
abbrev MEM_HEALTH_FENCED : Fld := ⟨R.MEM_HEALTH, 16, 8⟩
abbrev MEM_HEALTH_DEGRADED : Fld := ⟨R.MEM_HEALTH, 24, 8⟩
abbrev MEM_FENCE_GO : Fld := ⟨R.MEM_FENCE, 0, 1⟩
abbrev MEM_FENCE_PENDING : Fld := ⟨R.MEM_FENCE, 1, 1⟩
abbrev MEM_FENCE_CODE : Fld := ⟨R.MEM_FENCE, 2, 4⟩
abbrev MEM_MAP_CTRL_REMAP : Fld := ⟨R.MEM_MAP_CTRL, 0, 1⟩
abbrev MEM_MAP_CTRL_PENDING : Fld := ⟨R.MEM_MAP_CTRL, 1, 1⟩
abbrev MEM_MAP_STATUS_CODE : Fld := ⟨R.MEM_MAP_STATUS, 0, 4⟩
abbrev MEM_MAP_STATUS_ABRT : Fld := ⟨R.MEM_MAP_STATUS, 4, 2⟩
abbrev MEM_MAP_STATUS_REASON : Fld := ⟨R.MEM_MAP_STATUS, 6, 2⟩
abbrev MEM_FREQ_CTRL_RATE : Fld := ⟨R.MEM_FREQ_CTRL, 0, 2⟩
abbrev MEM_FREQ_CTRL_COLLIDE : Fld := ⟨R.MEM_FREQ_CTRL, 2, 1⟩
abbrev MEM_FREQ_STATUS_CODE : Fld := ⟨R.MEM_FREQ_STATUS, 0, 4⟩
abbrev MEM_FREQ_STATUS_ABRT : Fld := ⟨R.MEM_FREQ_STATUS, 4, 2⟩
abbrev MEM_FREQ_STATUS_DEFERRED : Fld := ⟨R.MEM_FREQ_STATUS, 6, 1⟩
abbrev MEM_FREQ_STATUS_REASON : Fld := ⟨R.MEM_FREQ_STATUS, 7, 2⟩
abbrev MEM_FREQ_STATUS_SETS : Fld := ⟨R.MEM_FREQ_STATUS, 9, 2⟩
abbrev MEM_TRAIN_CMD_P : Fld := ⟨R.MEM_TRAIN_CMD, 0, 7⟩
abbrev MEM_TRAIN_CMD_ALL : Fld := ⟨R.MEM_TRAIN_CMD, 7, 1⟩
abbrev MEM_TRAIN_CMD_RETRAIN : Fld := ⟨R.MEM_TRAIN_CMD, 8, 1⟩
abbrev MEM_TRAIN_CMD_PENDING : Fld := ⟨R.MEM_TRAIN_CMD, 9, 1⟩
abbrev MEM_TRAIN_STATUS_CODE : Fld := ⟨R.MEM_TRAIN_STATUS, 0, 4⟩
abbrev MEM_TRAIN_STATUS_ABRT : Fld := ⟨R.MEM_TRAIN_STATUS, 4, 2⟩
abbrev MEM_TRAIN_STATUS_CUR : Fld := ⟨R.MEM_TRAIN_STATUS, 6, 7⟩
abbrev MEM_TRAIN_STATUS_BUSY : Fld := ⟨R.MEM_TRAIN_STATUS, 13, 1⟩
abbrev MEM_RETRAIN_CFG_DELTA : Fld := ⟨R.MEM_RETRAIN_CFG, 0, 5⟩
abbrev MEM_RETRAIN_CFG_AUTO : Fld := ⟨R.MEM_RETRAIN_CFG, 5, 1⟩
abbrev MEM_RETRAIN_CFG_GAP : Fld := ⟨R.MEM_RETRAIN_CFG, 8, 8⟩
abbrev MEM_QOS_SCHEME (m : Nat) : Fld := ⟨R.MEM_QOS m, 0, 1⟩
abbrev MEM_QOS_COLLIDE (m : Nat) : Fld := ⟨R.MEM_QOS m, 1, 1⟩
abbrev MEM_QOS_TARGET (m : Nat) : Fld := ⟨R.MEM_QOS m, 8, 16⟩
abbrev MEM_SCRUB_EN : Fld := ⟨R.MEM_SCRUB, 0, 1⟩
abbrev MEM_SCRUB_PERIOD : Fld := ⟨R.MEM_SCRUB, 8, 8⟩
abbrev MEM_SCRUB_PASSES : Fld := ⟨R.MEM_SCRUB, 16, 16⟩
abbrev MEM_ECC_COUNT (m : Nat) : Fld := ⟨R.MEM_ECC m, 0, 32⟩
abbrev MEM_ADDR_VALUE (m h : Nat) : Fld := ⟨R.MEM_ADDR m h, 0, 32⟩
abbrev MEM_IRQ_STATUS_UE : Fld := ⟨R.MEM_IRQ_STATUS, 0, 1⟩
abbrev MEM_IRQ_STATUS_DEGRADED : Fld := ⟨R.MEM_IRQ_STATUS, 1, 1⟩
abbrev MEM_IRQ_STATUS_FENCED : Fld := ⟨R.MEM_IRQ_STATUS, 2, 1⟩
abbrev MEM_IRQ_STATUS_FREQ : Fld := ⟨R.MEM_IRQ_STATUS, 3, 1⟩
abbrev MEM_IRQ_STATUS_TRAIN : Fld := ⟨R.MEM_IRQ_STATUS, 4, 1⟩
abbrev MEM_IRQ_STATUS_REMAP : Fld := ⟨R.MEM_IRQ_STATUS, 5, 1⟩
abbrev MEM_IRQ_STATUS_FENCED_WR : Fld := ⟨R.MEM_IRQ_STATUS, 6, 1⟩
abbrev MEM_IRQ_STATUS_BEYOND : Fld := ⟨R.MEM_IRQ_STATUS, 7, 1⟩
abbrev MEM_IRQ_STATUS_POISON_RMW : Fld := ⟨R.MEM_IRQ_STATUS, 8, 1⟩
abbrev MEM_IRQ_EN_EN : Fld := ⟨R.MEM_IRQ_EN, 0, 9⟩
abbrev MEM_PC_STAT_STATE (p : Nat) : Fld := ⟨R.MEM_PC_STAT p, 0, 2⟩
abbrev MEM_PC_STAT_INDEX (p : Nat) : Fld := ⟨R.MEM_PC_STAT p, 2, 7⟩
abbrev MEM_PC_STAT_EYE_MIN (p : Nat) : Fld := ⟨R.MEM_PC_STAT p, 16, 8⟩
abbrev MEM_PC_STAT_RETRAINS (p : Nat) : Fld := ⟨R.MEM_PC_STAT p, 24, 8⟩
abbrev CARAVAN_CMD_Q : Fld := ⟨R.CARAVAN_CMD, 0, 18⟩
abbrev CARAVAN_CMD_OP : Fld := ⟨R.CARAVAN_CMD, 18, 2⟩
abbrev CARAVAN_CMD_GO : Fld := ⟨R.CARAVAN_CMD, 20, 1⟩
abbrev CARAVAN_CMD_PENDING : Fld := ⟨R.CARAVAN_CMD, 21, 1⟩
abbrev CARAVAN_CMD_STATUS_CODE : Fld := ⟨R.CARAVAN_CMD_STATUS, 0, 4⟩
abbrev CARAVAN_CMD_STATUS_ABRT : Fld := ⟨R.CARAVAN_CMD_STATUS, 4, 2⟩
abbrev CARAVAN_CMD_STATUS_REASON : Fld := ⟨R.CARAVAN_CMD_STATUS, 6, 4⟩
abbrev CARAVAN_IRQ_STATUS_CMD : Fld := ⟨R.CARAVAN_IRQ_STATUS, 0, 1⟩
abbrev CARAVAN_IRQ_STATUS_DB_ERR : Fld := ⟨R.CARAVAN_IRQ_STATUS, 1, 1⟩
abbrev CARAVAN_IRQ_STATUS_RING_ERR : Fld := ⟨R.CARAVAN_IRQ_STATUS, 2, 1⟩
abbrev CARAVAN_IRQ_STATUS_STATUS_LOST : Fld := ⟨R.CARAVAN_IRQ_STATUS, 3, 1⟩
abbrev CARAVAN_IRQ_STATUS_CTX_DENIED : Fld := ⟨R.CARAVAN_IRQ_STATUS, 4, 1⟩
abbrev CARAVAN_IRQ_EN_EN : Fld := ⟨R.CARAVAN_IRQ_EN, 0, 5⟩
abbrev CARAVAN_ERR_Q : Fld := ⟨R.CARAVAN_ERR, 0, 18⟩
abbrev CARAVAN_ERR_CAUSE : Fld := ⟨R.CARAVAN_ERR, 18, 5⟩
abbrev CARAVAN_ERR_VALID : Fld := ⟨R.CARAVAN_ERR, 31, 1⟩
abbrev CARAVAN_STAT_RING_Q (m : Nat) : Fld := ⟨R.CARAVAN_STAT_RING m, 0, 18⟩
abbrev CARAVAN_STAT_RING_EN (m : Nat) : Fld := ⟨R.CARAVAN_STAT_RING m, 31, 1⟩
abbrev CARAVAN_STAT_MASK_MASK (m : Nat) : Fld := ⟨R.CARAVAN_STAT_MASK m, 0, 32⟩
abbrev CARAVAN_STAT_Q_DEPTH : Fld := ⟨R.CARAVAN_STAT_Q, 0, 9⟩
abbrev CARAVAN_STAT_Q_LOST : Fld := ⟨R.CARAVAN_STAT_Q, 16, 16⟩
abbrev CARAVAN_CNT_COUNT (m h : Nat) : Fld := ⟨R.CARAVAN_CNT m h, 0, 32⟩
abbrev CARAVAN_SNAP_COUNT (m h : Nat) : Fld := ⟨R.CARAVAN_SNAP m h, 0, 32⟩
abbrev CARAVAN_SRAM_ERR_Q : Fld := ⟨R.CARAVAN_SRAM_ERR, 0, 18⟩
abbrev CARAVAN_SRAM_ERR_COUNT : Fld := ⟨R.CARAVAN_SRAM_ERR, 18, 12⟩
abbrev CARAVAN_SRAM_ERR_VALID : Fld := ⟨R.CARAVAN_SRAM_ERR, 31, 1⟩
abbrev CL_STAGE_CTRL_EN (k j : Nat) : Fld := ⟨R.CL_STAGE_CTRL k j, 0, 1⟩
abbrev CL_STAGE_CTRL_BASE (k j : Nat) : Fld := ⟨R.CL_STAGE_CTRL k j, 1, 5⟩
abbrev CL_STAGE_CTRL_PANIC (k j : Nat) : Fld := ⟨R.CL_STAGE_CTRL k j, 6, 7⟩
abbrev CL_STAGE_CTRL_HEAD_EN (k j : Nat) : Fld := ⟨R.CL_STAGE_CTRL k j, 13, 1⟩
abbrev CL_STAGE_CTRL_HEAD_BASE (k j : Nat) : Fld := ⟨R.CL_STAGE_CTRL k j, 14, 7⟩
abbrev CL_STAGE_STAT_FILL (k j : Nat) : Fld := ⟨R.CL_STAGE_STAT k j, 0, 14⟩
abbrev CL_STAGE_STAT_PANIC (k j : Nat) : Fld := ⟨R.CL_STAGE_STAT k j, 14, 1⟩
abbrev CL_IRQ_STATUS_FILL (k : Nat) : Fld := ⟨R.CL_IRQ_STATUS k, 0, 1⟩
abbrev CL_IRQ_STATUS_OASIS_DENIED (k : Nat) : Fld := ⟨R.CL_IRQ_STATUS k, 1, 1⟩
abbrev CL_IRQ_STATUS_AREA_CONFLICT (k : Nat) : Fld := ⟨R.CL_IRQ_STATUS k, 2, 1⟩
abbrev CL_IRQ_EN_EN (k : Nat) : Fld := ⟨R.CL_IRQ_EN k, 0, 3⟩
abbrev CL_CH_IRQ_STATUS_LOW (k j : Nat) : Fld := ⟨R.CL_CH_IRQ_STATUS k j, 0, 1⟩
abbrev CL_CH_IRQ_STATUS_TGT_FAIL (k j : Nat) : Fld := ⟨R.CL_CH_IRQ_STATUS k j, 1, 1⟩
abbrev CL_CH_IRQ_STATUS_HEAD_MISS (k j : Nat) : Fld := ⟨R.CL_CH_IRQ_STATUS k j, 2, 1⟩
abbrev CL_CH_IRQ_STATUS_HINT_MISS (k j : Nat) : Fld := ⟨R.CL_CH_IRQ_STATUS k j, 3, 1⟩
abbrev CL_CH_IRQ_EN_EN (k j : Nat) : Fld := ⟨R.CL_CH_IRQ_EN k j, 0, 4⟩
abbrev CL_CH_COUNT_HINT_MISS (k j : Nat) : Fld := ⟨R.CL_CH_COUNT k j, 0, 16⟩
abbrev CL_CH_COUNT_HEAD_MISS (k j : Nat) : Fld := ⟨R.CL_CH_COUNT k j, 16, 16⟩
abbrev CL_FILL_SRC_ADDR (k h : Nat) : Fld := ⟨R.CL_FILL_SRC k h, 0, 32⟩
abbrev CL_FILL_DST_OFFSET (k : Nat) : Fld := ⟨R.CL_FILL_DST k, 0, 23⟩
abbrev CL_FILL_LEN_LEN (k : Nat) : Fld := ⟨R.CL_FILL_LEN k, 0, 24⟩
abbrev CL_FILL_CTRL_GO (k : Nat) : Fld := ⟨R.CL_FILL_CTRL k, 0, 1⟩
abbrev CL_FILL_CTRL_ABORT (k : Nat) : Fld := ⟨R.CL_FILL_CTRL k, 1, 1⟩
abbrev CL_FILL_CTRL_PENDING (k : Nat) : Fld := ⟨R.CL_FILL_CTRL k, 2, 1⟩
abbrev CL_FILL_STATUS_CODE (k : Nat) : Fld := ⟨R.CL_FILL_STATUS k, 0, 4⟩
abbrev CL_FILL_STATUS_ABRT (k : Nat) : Fld := ⟨R.CL_FILL_STATUS k, 4, 2⟩
abbrev CL_FILL_STATUS_REASON (k : Nat) : Fld := ⟨R.CL_FILL_STATUS k, 6, 3⟩
abbrev CL_PORT_BYTES_COUNT (k m h : Nat) : Fld := ⟨R.CL_PORT_BYTES k m h, 0, 32⟩
abbrev CL_PORT_SNAP_VALUE (k m h : Nat) : Fld := ⟨R.CL_PORT_SNAP k m h, 0, 32⟩
abbrev CL_TGT_CFG_INDEX (k j i : Nat) : Fld := ⟨R.CL_TGT_CFG k j i, 0, 14⟩
abbrev CL_TGT_CFG_EN (k j i : Nat) : Fld := ⟨R.CL_TGT_CFG k j i, 14, 1⟩
abbrev CL_TGT_CFG_RELOAD (k j i : Nat) : Fld := ⟨R.CL_TGT_CFG k j i, 15, 1⟩
abbrev CL_TGT_CFG_PENDING (k j i : Nat) : Fld := ⟨R.CL_TGT_CFG k j i, 16, 1⟩
abbrev CL_TGT_STAT_CODE (k j i : Nat) : Fld := ⟨R.CL_TGT_STAT k j i, 0, 4⟩
abbrev CL_TGT_STAT_ABRT (k j i : Nat) : Fld := ⟨R.CL_TGT_STAT k j i, 4, 2⟩
abbrev CL_TGT_STAT_RESIDENT (k j i : Nat) : Fld := ⟨R.CL_TGT_STAT k j i, 6, 1⟩
abbrev CL_TGT_STAT_PINNED (k j i : Nat) : Fld := ⟨R.CL_TGT_STAT k j i, 7, 1⟩
abbrev CL_TGT_STAT_REASON (k j i : Nat) : Fld := ⟨R.CL_TGT_STAT k j i, 8, 3⟩
abbrev CL_XBAR_MASK_MASK (k j w : Nat) : Fld := ⟨R.CL_XBAR_MASK k j w, 0, 32⟩
abbrev CL_EV_STAT_ABSORB (k j : Nat) : Fld := ⟨R.CL_EV_STAT k j, 0, 1⟩
abbrev CL_EV_STAT_WAITING (k j : Nat) : Fld := ⟨R.CL_EV_STAT k j, 1, 10⟩
abbrev CL_EV_STAT_ABSORBED (k j : Nat) : Fld := ⟨R.CL_EV_STAT k j, 16, 16⟩
abbrev CL_OASIS_ERR_OFFSET (k : Nat) : Fld := ⟨R.CL_OASIS_ERR k, 0, 23⟩
abbrev CL_OASIS_ERR_MEM (k : Nat) : Fld := ⟨R.CL_OASIS_ERR k, 23, 2⟩
abbrev CL_OASIS_ERR_J (k : Nat) : Fld := ⟨R.CL_OASIS_ERR k, 25, 2⟩
abbrev CL_OASIS_ERR_VALID (k : Nat) : Fld := ⟨R.CL_OASIS_ERR k, 31, 1⟩
abbrev CL_OASIS_CNT_COUNT (k m : Nat) : Fld := ⟨R.CL_OASIS_CNT k m, 0, 32⟩
abbrev CL_SIR_CTRL_EN (k : Nat) : Fld := ⟨R.CL_SIR_CTRL k, 0, 1⟩
abbrev CL_SIR_STATUS_FAIL (k : Nat) : Fld := ⟨R.CL_SIR_STATUS k, 0, 1⟩
abbrev CL_SIR_STATUS_PASSES (k : Nat) : Fld := ⟨R.CL_SIR_STATUS k, 8, 16⟩
abbrev CL_SIR_FAIL_ADDR_OFFSET (k : Nat) : Fld := ⟨R.CL_SIR_FAIL_ADDR k, 0, 23⟩
abbrev CL_SIR_FAIL_ADDR_MEM (k : Nat) : Fld := ⟨R.CL_SIR_FAIL_ADDR k, 23, 2⟩
abbrev CL_SIR_FAIL_ADDR_J (k : Nat) : Fld := ⟨R.CL_SIR_FAIL_ADDR k, 25, 2⟩
abbrev CL_SIR_FAIL_ADDR_VALID (k : Nat) : Fld := ⟨R.CL_SIR_FAIL_ADDR k, 31, 1⟩
abbrev PAT_SEL_MODE (d i : Nat) : Fld := ⟨R.PAT_SEL d i, 0, 2⟩
abbrev PAT_SEL_INV (d i : Nat) : Fld := ⟨R.PAT_SEL d i, 2, 1⟩
abbrev PAT_SEL_CH (d i : Nat) : Fld := ⟨R.PAT_SEL d i, 3, 3⟩
abbrev PAT_SEL_BIT (d i : Nat) : Fld := ⟨R.PAT_SEL d i, 6, 2⟩
abbrev PAT_SEL_TRIM (d i : Nat) : Fld := ⟨R.PAT_SEL d i, 8, 6⟩
abbrev PAT_LEVEL_PIN (d : Nat) : Fld := ⟨R.PAT_LEVEL d, 0, 16⟩
abbrev CH_SEQ_CTRL_GO (c : Nat) : Fld := ⟨R.CH_SEQ_CTRL c, 0, 1⟩
abbrev CH_SEQ_CTRL_STOP (c : Nat) : Fld := ⟨R.CH_SEQ_CTRL c, 1, 1⟩
abbrev CH_SEQ_CTRL_BREAK (c : Nat) : Fld := ⟨R.CH_SEQ_CTRL c, 2, 1⟩
abbrev CH_SEQ_CTRL_RESUME (c : Nat) : Fld := ⟨R.CH_SEQ_CTRL c, 3, 1⟩
abbrev CH_SEQ_CTRL_STEP (c : Nat) : Fld := ⟨R.CH_SEQ_CTRL c, 4, 1⟩
abbrev CH_SEQ_CTRL_PENDING (c : Nat) : Fld := ⟨R.CH_SEQ_CTRL c, 5, 1⟩
abbrev CH_SEQ_STATUS_STATE (c : Nat) : Fld := ⟨R.CH_SEQ_STATUS c, 0, 3⟩
abbrev CH_SEQ_STATUS_STALL (c : Nat) : Fld := ⟨R.CH_SEQ_STATUS c, 3, 3⟩
abbrev CH_SEQ_STATUS_CODE (c : Nat) : Fld := ⟨R.CH_SEQ_STATUS c, 6, 4⟩
abbrev CH_SEQ_STATUS_ABRT (c : Nat) : Fld := ⟨R.CH_SEQ_STATUS c, 10, 2⟩
abbrev CH_SEQ_STATUS_WR_DENIED (c : Nat) : Fld := ⟨R.CH_SEQ_STATUS c, 12, 1⟩
abbrev CH_SEQ_STATUS_QDEPTH (c : Nat) : Fld := ⟨R.CH_SEQ_STATUS c, 13, 7⟩
abbrev CH_SEQ_STATUS_RDEPTH (c : Nat) : Fld := ⟨R.CH_SEQ_STATUS c, 20, 4⟩
abbrev CH_SEQ_STATUS_LDEPTH (c : Nat) : Fld := ⟨R.CH_SEQ_STATUS c, 24, 3⟩
abbrev CH_SEQ_STATUS_REBASE (c : Nat) : Fld := ⟨R.CH_SEQ_STATUS c, 27, 5⟩
abbrev CH_SEQ_MODE_START_MODE (c : Nat) : Fld := ⟨R.CH_SEQ_MODE c, 0, 2⟩
abbrev CH_SEQ_MODE_EVMODE (c : Nat) : Fld := ⟨R.CH_SEQ_MODE c, 2, 1⟩
abbrev CH_SEQ_MODE_COLLIDE (c : Nat) : Fld := ⟨R.CH_SEQ_MODE c, 3, 1⟩
abbrev CH_SEQ_MODE_START_EV (c : Nat) : Fld := ⟨R.CH_SEQ_MODE c, 8, 8⟩
abbrev CH_SEQ_MODE_ENTRY (c : Nat) : Fld := ⟨R.CH_SEQ_MODE c, 16, 15⟩
abbrev CH_SEQ_START_T (c h : Nat) : Fld := ⟨R.CH_SEQ_START c h, 0, 32⟩
abbrev CH_SEQ_SC_SC (c h : Nat) : Fld := ⟨R.CH_SEQ_SC c h, 0, 32⟩
abbrev CH_SEQ_PC_PC (c : Nat) : Fld := ⟨R.CH_SEQ_PC c, 0, 15⟩
abbrev CH_SEQ_RING_TMO_TMO (c : Nat) : Fld := ⟨R.CH_SEQ_RING_TMO c, 0, 24⟩
abbrev CH_SEQ_IRQ_EN_FAULT (c : Nat) : Fld := ⟨R.CH_SEQ_IRQ_EN c, 0, 1⟩
abbrev CH_SEQ_IRQ_EN_DONE (c : Nat) : Fld := ⟨R.CH_SEQ_IRQ_EN c, 1, 1⟩
abbrev CH_SEQ_IRQ_EN_SEQ (c : Nat) : Fld := ⟨R.CH_SEQ_IRQ_EN c, 2, 1⟩
abbrev CH_SEQ_IRQ_EN_CL (c : Nat) : Fld := ⟨R.CH_SEQ_IRQ_EN c, 3, 1⟩
abbrev CH_SEQ_IRQ_EN_BREAK (c : Nat) : Fld := ⟨R.CH_SEQ_IRQ_EN c, 4, 1⟩
abbrev CH_SEQ_IRQ_STATUS_FAULT (c : Nat) : Fld := ⟨R.CH_SEQ_IRQ_STATUS c, 0, 1⟩
abbrev CH_SEQ_IRQ_STATUS_DONE (c : Nat) : Fld := ⟨R.CH_SEQ_IRQ_STATUS c, 1, 1⟩
abbrev CH_SEQ_IRQ_STATUS_SEQ (c : Nat) : Fld := ⟨R.CH_SEQ_IRQ_STATUS c, 2, 1⟩
abbrev CH_SEQ_IRQ_STATUS_CL (c : Nat) : Fld := ⟨R.CH_SEQ_IRQ_STATUS c, 3, 1⟩
abbrev CH_SEQ_IRQ_STATUS_BREAK (c : Nat) : Fld := ⟨R.CH_SEQ_IRQ_STATUS c, 4, 1⟩
abbrev CH_SEQ_FAULT_VALID (c : Nat) : Fld := ⟨R.CH_SEQ_FAULT c, 0, 1⟩
abbrev CH_SEQ_FAULT_CAUSE (c : Nat) : Fld := ⟨R.CH_SEQ_FAULT c, 1, 3⟩
abbrev CH_SEQ_FAULT_SUB (c : Nat) : Fld := ⟨R.CH_SEQ_FAULT c, 4, 3⟩
abbrev CH_SEQ_FAULT_MORE (c : Nat) : Fld := ⟨R.CH_SEQ_FAULT c, 7, 1⟩
abbrev CH_SEQ_FAULT_PC_PC (c : Nat) : Fld := ⟨R.CH_SEQ_FAULT_PC c, 0, 15⟩
abbrev CH_SEQ_FAULT_B_B (c h : Nat) : Fld := ⟨R.CH_SEQ_FAULT_B c h, 0, 32⟩
abbrev CH_SEQ_FAULT_ARG_ARG (c : Nat) : Fld := ⟨R.CH_SEQ_FAULT_ARG c, 0, 32⟩
abbrev CH_SEQ_G_VALUE (c i : Nat) : Fld := ⟨R.CH_SEQ_G c i, 0, 32⟩
abbrev CH_SEQ_L_COUNT (c j : Nat) : Fld := ⟨R.CH_SEQ_L c j, 0, 32⟩
abbrev CH_SEQ_CNT_COUNT (c m h : Nat) : Fld := ⟨R.CH_SEQ_CNT c m h, 0, 32⟩
abbrev CH_SEQ_SNAP_VALUE (c m h : Nat) : Fld := ⟨R.CH_SEQ_SNAP c m h, 0, 32⟩
abbrev CH_NCO_MIX_ENA (c : Nat) : Fld := ⟨R.CH_NCO_MIX c, 0, 8⟩
abbrev CH_NCO_MIX_MODE (c : Nat) : Fld := ⟨R.CH_NCO_MIX c, 8, 1⟩
abbrev CH_NCO_MIX_COLLIDE (c : Nat) : Fld := ⟨R.CH_NCO_MIX c, 9, 1⟩
abbrev CH_NCO_OSC_SLOT (c n : Nat) : Fld := ⟨R.CH_NCO_OSC c n, 0, 8⟩
abbrev CH_NCO_OSC_AMP (c n : Nat) : Fld := ⟨R.CH_NCO_OSC c n, 8, 16⟩
abbrev CH_NCO_OSC_COLLIDE (c n : Nat) : Fld := ⟨R.CH_NCO_OSC c n, 24, 1⟩
abbrev CH_LEDGER_STG_FTW_VALUE (c h : Nat) : Fld := ⟨R.CH_LEDGER_STG_FTW c h, 0, 32⟩
abbrev CH_LEDGER_STG_PHI_VALUE (c h : Nat) : Fld := ⟨R.CH_LEDGER_STG_PHI c h, 0, 32⟩
abbrev CH_LEDGER_STG_T0_VALUE (c h : Nat) : Fld := ⟨R.CH_LEDGER_STG_T0 c h, 0, 32⟩
abbrev CH_LEDGER_CMD_SLOT (c : Nat) : Fld := ⟨R.CH_LEDGER_CMD c, 0, 8⟩
abbrev CH_LEDGER_CMD_WR (c : Nat) : Fld := ⟨R.CH_LEDGER_CMD c, 8, 1⟩
abbrev CH_LEDGER_CMD_RD (c : Nat) : Fld := ⟨R.CH_LEDGER_CMD c, 9, 1⟩
abbrev CH_LEDGER_CMD_PENDING (c : Nat) : Fld := ⟨R.CH_LEDGER_CMD c, 10, 1⟩
abbrev CH_LEDGER_STATUS_CODE (c : Nat) : Fld := ⟨R.CH_LEDGER_STATUS c, 0, 4⟩
abbrev CH_LEDGER_STATUS_ABRT (c : Nat) : Fld := ⟨R.CH_LEDGER_STATUS c, 4, 2⟩
abbrev CH_LEDGER_STATUS_REASON (c : Nat) : Fld := ⟨R.CH_LEDGER_STATUS c, 6, 2⟩
abbrev CH_LEDGER_RD_VALUE (c m h : Nat) : Fld := ⟨R.CH_LEDGER_RD c m h, 0, 32⟩
abbrev CH_DP_CTRL_S16_PATH (c : Nat) : Fld := ⟨R.CH_DP_CTRL c, 0, 1⟩
abbrev CH_DP_GAIN_GAIN (c : Nat) : Fld := ⟨R.CH_DP_GAIN c, 0, 16⟩
abbrev CH_DP_GAIN_OFFSET (c : Nat) : Fld := ⟨R.CH_DP_GAIN c, 16, 16⟩
abbrev CH_DP_STATUS_SAT (c : Nat) : Fld := ⟨R.CH_DP_STATUS c, 0, 1⟩
abbrev CH_DP_STATUS_CLIP (c : Nat) : Fld := ⟨R.CH_DP_STATUS c, 1, 1⟩
abbrev CH_DP_STATUS_FIR_DENIED (c : Nat) : Fld := ⟨R.CH_DP_STATUS c, 2, 1⟩
abbrev CH_DP_MDLY_D0 (c : Nat) : Fld := ⟨R.CH_DP_MDLY c, 0, 8⟩
abbrev CH_DP_MDLY_D1 (c : Nat) : Fld := ⟨R.CH_DP_MDLY c, 8, 8⟩
abbrev CH_DP_MDLY_D2 (c : Nat) : Fld := ⟨R.CH_DP_MDLY c, 16, 8⟩
abbrev CH_DP_MDLY_D3 (c : Nat) : Fld := ⟨R.CH_DP_MDLY c, 24, 8⟩
abbrev CH_DP_CNT_COUNT (c m h : Nat) : Fld := ⟨R.CH_DP_CNT c m h, 0, 32⟩
abbrev CH_DP_SNAP_VALUE (c m h : Nat) : Fld := ⟨R.CH_DP_SNAP c m h, 0, 32⟩
abbrev CH_FIR_CTRL_BANK (c : Nat) : Fld := ⟨R.CH_FIR_CTRL c, 0, 1⟩
abbrev CH_FIR_CTRL_EN (c : Nat) : Fld := ⟨R.CH_FIR_CTRL c, 1, 1⟩
abbrev CH_FIR_COEF_H (c b i : Nat) : Fld := ⟨R.CH_FIR_COEF c b i, 0, 16⟩
abbrev CH_DAC_CTRL_RANGE (c : Nat) : Fld := ⟨R.CH_DAC_CTRL c, 0, 2⟩
abbrev CH_DAC_CTRL_RECON (c : Nat) : Fld := ⟨R.CH_DAC_CTRL c, 2, 1⟩
abbrev CH_DAC_CTRL_ROT (c : Nat) : Fld := ⟨R.CH_DAC_CTRL c, 3, 1⟩
abbrev CH_DAC_CTRL_COLLIDE (c : Nat) : Fld := ⟨R.CH_DAC_CTRL c, 4, 1⟩
abbrev CH_DAC_STATUS_RANGING (c : Nat) : Fld := ⟨R.CH_DAC_STATUS c, 0, 1⟩
abbrev CH_DAC_STATUS_RANGE_PARKED (c : Nat) : Fld := ⟨R.CH_DAC_STATUS c, 1, 1⟩
abbrev CH_DAC_STATUS_ROT_ACTIVE (c : Nat) : Fld := ⟨R.CH_DAC_STATUS c, 2, 1⟩
abbrev CH_DAC_STATUS_ROT_LOST (c : Nat) : Fld := ⟨R.CH_DAC_STATUS c, 3, 1⟩
abbrev CH_DAC_STATUS_SUB_FAIL (c : Nat) : Fld := ⟨R.CH_DAC_STATUS c, 4, 1⟩
abbrev CH_DAC_STATUS_UNUSABLE (c : Nat) : Fld := ⟨R.CH_DAC_STATUS c, 5, 1⟩
abbrev CH_DAC_STATUS_GOOD (c : Nat) : Fld := ⟨R.CH_DAC_STATUS c, 6, 5⟩
abbrev CH_DAC_SKEW_TRIM (c : Nat) : Fld := ⟨R.CH_DAC_SKEW c, 0, 9⟩
abbrev CH_DAC_SKEW_FACT (c : Nat) : Fld := ⟨R.CH_DAC_SKEW c, 16, 9⟩
abbrev CH_DAC_MAP_U0 (c w : Nat) : Fld := ⟨R.CH_DAC_MAP c w, 0, 5⟩
abbrev CH_DAC_MAP_U1 (c w : Nat) : Fld := ⟨R.CH_DAC_MAP c w, 8, 5⟩
abbrev CH_DAC_MAP_U2 (c w : Nat) : Fld := ⟨R.CH_DAC_MAP c w, 16, 5⟩
abbrev CH_DAC_MAP_U3 (c w : Nat) : Fld := ⟨R.CH_DAC_MAP c w, 24, 5⟩
abbrev CH_DAC_SUB_ROLE (c u : Nat) : Fld := ⟨R.CH_DAC_SUB c u, 0, 2⟩
abbrev CH_DAC_SUB_POS (c u : Nat) : Fld := ⟨R.CH_DAC_SUB c u, 4, 4⟩
abbrev CH_DAC_SUB_FINE (c u : Nat) : Fld := ⟨R.CH_DAC_SUB c u, 8, 1⟩
abbrev CH_DAC_SUB_SKEW (c u : Nat) : Fld := ⟨R.CH_DAC_SUB c u, 16, 6⟩
abbrev CH_CAL_CTRL_CAL_DELTA (c : Nat) : Fld := ⟨R.CH_CAL_CTRL c, 0, 6⟩
abbrev CH_CAL_CTRL_CAL_FORCE (c : Nat) : Fld := ⟨R.CH_CAL_CTRL c, 8, 5⟩
abbrev CH_CAL_CTRL_IDLE_EN (c : Nat) : Fld := ⟨R.CH_CAL_CTRL c, 13, 1⟩
abbrev CH_CAL_CTRL_RUN (c : Nat) : Fld := ⟨R.CH_CAL_CTRL c, 14, 1⟩
abbrev CH_CAL_CTRL_SAVE (c : Nat) : Fld := ⟨R.CH_CAL_CTRL c, 15, 1⟩
abbrev CH_CAL_CTRL_PENDING (c : Nat) : Fld := ⟨R.CH_CAL_CTRL c, 16, 1⟩
abbrev CH_CAL_STATUS_DUE (c : Nat) : Fld := ⟨R.CH_CAL_STATUS c, 0, 1⟩
abbrev CH_CAL_STATUS_FORCE_DUE (c : Nat) : Fld := ⟨R.CH_CAL_STATUS c, 1, 1⟩
abbrev CH_CAL_STATUS_RUNNING (c : Nat) : Fld := ⟨R.CH_CAL_STATUS c, 2, 1⟩
abbrev CH_CAL_STATUS_STALE (c : Nat) : Fld := ⟨R.CH_CAL_STATUS c, 3, 1⟩
abbrev CH_CAL_STATUS_KIND (c : Nat) : Fld := ⟨R.CH_CAL_STATUS c, 4, 2⟩
abbrev CH_CAL_STATUS_CODE (c : Nat) : Fld := ⟨R.CH_CAL_STATUS c, 6, 4⟩
abbrev CH_CAL_STATUS_ABRT (c : Nat) : Fld := ⟨R.CH_CAL_STATUS c, 10, 2⟩
abbrev CH_CAL_STATUS_NO_RECORD (c : Nat) : Fld := ⟨R.CH_CAL_STATUS c, 12, 1⟩
abbrev CH_CAL_ABORT_REASON (c : Nat) : Fld := ⟨R.CH_CAL_ABORT c, 0, 4⟩
abbrev CH_CAL_ABORT_KIND (c : Nat) : Fld := ⟨R.CH_CAL_ABORT c, 4, 2⟩
abbrev CH_CAL_ABORT_COUNT (c : Nat) : Fld := ⟨R.CH_CAL_ABORT c, 16, 8⟩
abbrev CH_CAL_ABORT_VALID (c : Nat) : Fld := ⟨R.CH_CAL_ABORT c, 31, 1⟩
abbrev CH_CAL_IRQ_STATUS_DONE (c : Nat) : Fld := ⟨R.CH_CAL_IRQ_STATUS c, 0, 1⟩
abbrev CH_CAL_IRQ_STATUS_ABORT (c : Nat) : Fld := ⟨R.CH_CAL_IRQ_STATUS c, 1, 1⟩
abbrev CH_CAL_IRQ_STATUS_FORCED (c : Nat) : Fld := ⟨R.CH_CAL_IRQ_STATUS c, 2, 1⟩
abbrev CH_CAL_IRQ_STATUS_DAC (c : Nat) : Fld := ⟨R.CH_CAL_IRQ_STATUS c, 3, 1⟩
abbrev CH_CAL_IRQ_STATUS_MTP_ERR (c : Nat) : Fld := ⟨R.CH_CAL_IRQ_STATUS c, 4, 1⟩
abbrev CH_CAL_IRQ_EN_EN (c : Nat) : Fld := ⟨R.CH_CAL_IRQ_EN c, 0, 5⟩
abbrev CH_CAL_QUAL_INL (c : Nat) : Fld := ⟨R.CH_CAL_QUAL c, 0, 12⟩
abbrev CH_CAL_QUAL_SPUR (c : Nat) : Fld := ⟨R.CH_CAL_QUAL c, 16, 8⟩
abbrev CH_CAL_AGE_SECONDS (c : Nat) : Fld := ⟨R.CH_CAL_AGE c, 0, 24⟩
abbrev CH_CAL_AGE_DEG (c : Nat) : Fld := ⟨R.CH_CAL_AGE c, 24, 7⟩
abbrev CH_CAL_AGE_FROM_MTP (c : Nat) : Fld := ⟨R.CH_CAL_AGE c, 31, 1⟩
abbrev CH_CAL_TEMP_NOW (c : Nat) : Fld := ⟨R.CH_CAL_TEMP c, 0, 16⟩
abbrev CH_CAL_TEMP_AT_RUN (c : Nat) : Fld := ⟨R.CH_CAL_TEMP c, 16, 16⟩
abbrev CH_CAL_MTP_MTP_MIN (c : Nat) : Fld := ⟨R.CH_CAL_MTP c, 0, 12⟩
abbrev CH_CAL_MTP_SLOT (c : Nat) : Fld := ⟨R.CH_CAL_MTP c, 12, 4⟩
abbrev CH_CAL_MTP_DEFERRED (c : Nat) : Fld := ⟨R.CH_CAL_MTP c, 16, 1⟩
abbrev CH_CAL_GEN_GEN (c : Nat) : Fld := ⟨R.CH_CAL_GEN c, 0, 32⟩
abbrev CH_CAL_CNT_LO (c m : Nat) : Fld := ⟨R.CH_CAL_CNT c m, 0, 16⟩
abbrev CH_CAL_CNT_HI (c m : Nat) : Fld := ⟨R.CH_CAL_CNT c m, 16, 16⟩

end F

end Sys2Proof.Machine
end

