-- ==== Sys2Proof/Machine/Tab.lean ====
section
/-! DEFINITION. Sparse tables: a list of (key, value) pairs with strictly rising keys in which no entry equals what an
unlisted key reads as. Every memory and the register bank are such tables, so equal contents are equal lists. -/

namespace Sys2Proof.Machine

/-- Value at key `k`; `dflt k` when `k` is not listed. -/
def Tab.get {α : Type} (dflt : Nat → α) : List (Nat × α) → Nat → α
  | [], k => dflt k
  | (j, v) :: t, k => if k = j then v else Tab.get dflt t k

/-- The entry `(k, v)` put in front of the first entry with a greater key. -/
def Tab.insert {α : Type} (k : Nat) (v : α) : List (Nat × α) → List (Nat × α)
  | [] => [(k, v)]
  | (j, w) :: t => if k < j then (k, v) :: (j, w) :: t else (j, w) :: Tab.insert k v t

/-- The table without key `k`. -/
def Tab.erase {α : Type} (k : Nat) : List (Nat × α) → List (Nat × α)
  | [] => []
  | (j, w) :: t => if k = j then Tab.erase k t else (j, w) :: Tab.erase k t

/-- The table with `v` at key `k`. Writing the value an unlisted key reads as removes the entry. -/
def Tab.put {α : Type} [DecidableEq α] (dflt : Nat → α) (t : List (Nat × α)) (k : Nat) (v : α) : List (Nat × α) :=
  if v = dflt k then Tab.erase k t else Tab.insert k v (Tab.erase k t)

/-- Every key of the table lies above `lo`, the keys rise, and no entry is the default. -/
def Tab.wfAbove {α : Type} [DecidableEq α] (dflt : Nat → α) : Option Nat → List (Nat × α) → Bool
  | _, [] => true
  | lo, (j, v) :: t => (match lo with | none => true | some l => decide (l < j)) && decide (v ≠ dflt j) && Tab.wfAbove dflt (some j) t

/-- The canonical form of a table. -/
def Tab.wf {α : Type} [DecidableEq α] (dflt : Nat → α) (t : List (Nat × α)) : Bool := Tab.wfAbove dflt none t

end Sys2Proof.Machine
end

