-- ==== Sys2Proof/Machine/State.lean ====
section
/-! DEFINITION. The state of the S3264 as plain data. One datum has one home: what the model treats as structure
(channel states, stacks, queues, events, stage buffers) stands in named fields, every other register in the bank. -/

namespace Sys2Proof.Machine

/-- Channel states of R93. -/
inductive ChSt | idle | armed | run | halted | drain | faulted
deriving DecidableEq, Repr

/-- Values of CH.SEQ_STATUS.STALL. -/
inductive Stall | none | runahead | queueFull | decision | ring | event | wake | busy
deriving DecidableEq, Repr

/-- One Ledger slot (R182). -/
structure Slot where
  ftw : BitVec 48
  phi : BitVec 48
  t0 : Tick
deriving DecidableEq, Repr

/-- One oscillator: the slot it follows and its amplitude (R194). -/
structure Osc where
  slot : BitVec 8
  amp : BitVec 16
deriving DecidableEq, Repr

/-- A descriptor's four dwords (R157). -/
structure Desc where
  w0 : W32
  w1 : W32
  w2 : W32
  w3 : W32
deriving DecidableEq, Repr

/-- Where a play takes its descriptor: an index of the segment table (the value of G[B] for PLAYG, which may be 16,384
or more), or a ring record's copy, with the scheduler slot it came from (R123, R158, R177). -/
inductive PlaySrc
  | table (idx : W32)
  | record (d : Desc) (slot : BitVec 13)
deriving DecidableEq, Repr

/-- The slot an oscillator or Ledger action acts on: the slot an oscillator follows at that tick, or a slot (R134,
R135). -/
inductive SlotSel
  | osc (n : BitVec 3)
  | slot (l : BitVec 8)
deriving DecidableEq, Repr

/-- What a timed action does at its tick. -/
inductive Act
  | play (src : PlaySrc) (pid : Nat)
  | playn (n : W32)
  | hold (n : W32)
  | park (n : W32)
  | sig (e : BitVec 8)
  | mark (value mask : BitVec 4)
  | setf (t : SlotSel) (ftw : BitVec 48)
  | setfp (t : SlotSel) (ftw : BitVec 48)
  | setp (t : SlotSel) (p : W32)
  | shiftp (t : SlotSel) (p : W32)
  | self (n : BitVec 3) (l : BitVec 8)
  | seta (n : BitVec 3) (amp : BitVec 16)
  | mix (ena : BitVec 8) (baseband : Bool)
  | ledger (entries : List (BitVec 8 × Slot))
  | calw (n : W32)
  | irq
deriving DecidableEq, Repr

/-- A timed action and its tick (R78). -/
structure TAct where
  tick : Tick
  act : Act
deriving DecidableEq, Repr

/-- An event waiting in a channel's store (R261): its code, its stamp, the tick of its presentation, and whether its
delivery woke a gated cluster (R434). -/
structure StoreEv where
  code : BitVec 8
  stamp : Tick
  pres : Tick
  woke : Bool
deriving DecidableEq, Repr

/-- What a block carries (R198). A segment block holds the data read for it at its commit. -/
inductive BlkKind
  | rest
  | seg (d : Desc) (data track : List Byte)
  | osc
  | hold
  | park
deriving DecidableEq, Repr

/-- A committed block (R154): its first tick, the first tick of its action, the tick at which the action ends (rest
follows), what it carries. -/
structure Blk where
  first : Tick
  start : Tick
  stop : Tick
  kind : BlkKind
deriving DecidableEq, Repr

/-- A running segment play, from its dispatch: descriptor in force, FAULT_ARG of R177, identity, length in blocks, the
head slot it uses (R172), whether it named an enabled entry and started cold, and the STREAM ring that feeds it. -/
structure SegPlay where
  d : Desc
  arg : W32
  pid : Nat
  head : Option (Fin 16)
  cold : Bool
  ring : Option Nat
deriving DecidableEq, Repr

/-- What the output carries out at present: a segment play, or another kind of block. -/
inductive CurKind
  | rest
  | seg (p : SegPlay)
  | osc
  | hold
  | park
deriving DecidableEq, Repr

/-- The play in progress: its kind, its first tick, the tick at which it ends. -/
structure Cur where
  kind : CurKind
  first : Tick
  stop : Tick
deriving DecidableEq, Repr

/-- One sample carried at the reference plane: FIR delay-line input in units of 2^-17, final code, source markers, whether
the output was parked, whether the code came by the direct path, and whether its markers show in no container, the output stage
having parked it (R157, R198, R205, R220). -/
structure Samp where
  x : BitVec 20
  code : BitVec 12
  mrk : BitVec 4
  parked : Bool
  direct : Bool
  mute : Bool
deriving DecidableEq, Repr

/-- A placed play as the fetch engine serves it (R166): identity, descriptor read as its hint and then at its dispatch, STREAM
ring that feeds it, first block that goes through the stage buffer, next block to request. -/
structure Fetch where
  pid : Nat
  d : Desc
  ring : Option Nat
  start : Nat
  next : Nat
deriving DecidableEq, Repr

/-- A block requested for the stage buffer (R166): the 32-byte places of the buffer that it takes, the place of its request
among those of all ports (R23), whether it has arrived, and the pseudo-channel when it carries a poison mark (R179). -/
structure StageBlk where
  pid : Nat
  idx : Nat
  bytes : Nat
  grans : List Nat
  seq : Nat
  arrived : Bool
  poison : Option Nat
deriving DecidableEq, Repr

/-- A record copy in a channel's record buffer (R281). -/
structure RecCopy where
  q : Nat
  index : W32
  data : List Byte
  poison : Option Nat
deriving DecidableEq, Repr

/-- One channel: sequencer, schedule, output, oscillators, buffers (chapters 03 to 07, 11). -/
structure Chan where
  st : ChSt
  stall : Stall
  pc : BitVec 16
  /-- address of the instruction whose completion led to `pc` (R91) -/
  leadPc : BitVec 15
  sc : Tick
  g : Vector W32 16
  l : Vector W32 4
  /-- start addresses of the open loops, innermost first (R112) -/
  loops : List (BitVec 16)
  /-- return addresses, last pushed first (R111) -/
  rets : List (BitVec 16)
  /-- the instruction that waits, whole (R79, R80, R84, R143) -/
  held : Option W64
  /-- tick in which the waiting instruction issued (R84, R86, R120) -/
  heldAt : Tick
  /-- ticks the waiting ring instruction has spent with its ring not ready (R143) -/
  ringWait : Nat
  /-- a STEP is running (R97) -/
  stepping : Bool
  /-- a BREAK waits for the next instruction boundary (R97) -/
  breakReq : Bool
  /-- a GO is accepted and not yet taken (R94) -/
  goReq : Bool
  goTick : Tick
  /-- first SC of the run, and whether a block of the run has been committed (R96) -/
  firstSc : Tick
  committed : Bool
  cutoff : Tick
  store : List StoreEv
  queue : List TAct
  /-- actions dispatched and not yet in effect (R78) -/
  dispatched : List TAct
  /-- boundary B of a STOP in progress (R96) -/
  stopB : Option Tick
  /-- from this tick the output is parked (STOP, DRAIN, fault) -/
  parkAt : Option Tick
  /-- boundary B of the fault of the last run, until its hold is over (R98) -/
  faultB : Option Tick
  /-- the tick at which the fault hold ends (R98) -/
  faultEnd : Tick
  /-- fault holds that the output has still to carry, first tick and end: of this run and of runs before it (R98) -/
  holds : List (Tick × Tick)
  /-- the sequencer detected the fault of the present tick, or one of them (R99) -/
  seqFault : Bool
  cur : Cur
  /-- first tick of the next block to be committed -/
  nextS : Option Tick
  blks : List Blk
  /-- samples carried, newest first (R198, R200, R204) -/
  hist : List Samp
  /-- containers of the last tick carried, oldest first (R5) -/
  outs : List (BitVec 16)
  /-- repeated code C_r of the M4 play in progress (R157) -/
  cr : BitVec 12
  marker : BitVec 4
  osc : Vector Osc 8
  mixEna : BitVec 8
  baseband : Bool
  ledger : List (Nat × Slot)
  /-- calibration window declared by CALW: first tick and length (R147) -/
  calWin : Option (Tick × W32)
  nextPid : Nat
  fetches : List Fetch
  stage : List StageBlk
  panic : Bool
  recs : List RecCopy
  /-- active scheduler slots, most recently named first (R281) -/
  active : List Nat
deriving DecidableEq, Repr

/-- Default of a Ledger slot: all zero (R182). -/
def Slot.zero : Slot := ⟨0, 0, 0⟩

/-- A channel at reset (R182, R194; stacks, queue and store empty, the output parked). -/
def Chan.reset : Chan :=
  { st := .idle, stall := .none, pc := 0, leadPc := 0, sc := 0, g := Vector.replicate 16 0, l := Vector.replicate 4 0,
    loops := [], rets := [], held := none, heldAt := 0, ringWait := 0, stepping := false, breakReq := false, goReq := false,
    goTick := 0, firstSc := 0, committed := false, cutoff := 0, store := [], queue := [], dispatched := [],
    stopB := none, parkAt := none, faultB := none, faultEnd := 0, holds := [], seqFault := false, cur := ⟨.park, 0, 0⟩, nextS := none, blks := [], hist := [],
    outs := [], cr := 0, marker := 0, osc := #v[⟨0, 0x7FFF⟩, ⟨1, 0x7FFF⟩, ⟨2, 0x7FFF⟩, ⟨3, 0x7FFF⟩, ⟨4, 0x7FFF⟩, ⟨5, 0x7FFF⟩, ⟨6, 0x7FFF⟩, ⟨7, 0x7FFF⟩],
    mixEna := 0, baseband := false, ledger := [], calWin := none, nextPid := 0, fetches := [], stage := [],
    panic := false, recs := [], active := [] }

/-- A memory: its bytes, and the addresses of its protected units that hold a correctable error, hold an
uncorrectable error, or carry a poison mark (R351 to R354, R457). -/
structure Store where
  cells : List Host.Cell
  ce : List Nat
  ue : List Nat
  poison : List Nat
deriving DecidableEq, Repr

/-- A memory with nothing listed. -/
def Store.empty : Store := ⟨[], [], [], []⟩

/-- One occurrence of an event: sample index, source kind and index, marks, and the tick at which its fast copy entered (R252). -/
structure Occ where
  m : BitVec 4
  kind : BitVec 4
  idx : BitVec 16
  coast : Bool
  late : Bool
  fastAt : Tick
deriving DecidableEq, Repr

/-- One event of the fabric (R252, R258). `fastAt` is the tick at which its fast copy entered. -/
structure FrameEv where
  code : BitVec 8
  stamp : Tick
  m : BitVec 4
  kind : BitVec 4
  idx : BitVec 16
  coast : Bool
  late : Bool
  fastAt : Tick
  /-- the lockstep frame has closed (R259) -/
  closed : Bool
  /-- bit c: presented to channel c, in its event mode -/
  presented : BitVec 32
  /-- the occurrences merged in it -/
  occs : List Occ
deriving DecidableEq, Repr

/-- A held array event (R302). -/
structure HeldEv where
  code : BitVec 8
  target : Tick
  port : Port
deriving DecidableEq, Repr

/-- Device time and the event fabric (chapter 10). -/
structure Events where
  dt : Tick
  counting : Bool
  /-- DT has counted since power-on (R245) -/
  started : Bool
  /-- tick boundaries since power-on, on the PLL or on bypass (R50) -/
  elapsed : Nat
  frames : List FrameEv
  /-- events queued for the log, oldest first (R264) -/
  log : List FrameEv
  /-- value that DT takes at the next tick boundary (R249) -/
  load : Option Tick
  /-- accepted host AT event: code and tick (R257) -/
  hostEv : Option (BitVec 8 × Tick)
  /-- next firing number of each running timer, and the tick its start took effect (R256) -/
  tmrNext : Vector Nat 8
  tmrStart : Vector Tick 8
  /-- tick of the last event of each trigger pin (R253) -/
  trigLast : Vector (Option Tick) 16
  /-- tick of the last event of each marker source (R255) -/
  mkLast : Vector (Option Tick) 16
  /-- qualified levels of the TRIG pins (R253) -/
  trig : BitVec 16
  /-- levels of the TRIG pins at the end of the present tick and of the next, and as sampled at the end of the last (R415) -/
  pins : BitVec 16
  pinsNext : BitVec 16
  sampled : BitVec 16
  /-- tick from which a cluster's clock ran again after its last wake (R434) -/
  wokeAt : Vector (Option Tick) 8
  /-- boundary count at which the log last wrote a record (R264), and at which DT was last held (R247) -/
  logAt : Option Nat
  heldSince : Nat
deriving DecidableEq, Repr

/-- A written value that waits for its apply point (R51): register address, the bits written, their values, the apply
point, and the tick of acceptance. A BLOCK or SEG value that the commit of a block has fixed has that block's first tick in
`due`; a later write no longer replaces it (R50, R154). -/
structure PendW where
  addr : Nat
  mask : W32
  val : W32
  ap : Apply
  acc : Nat
  due : Option Tick
deriving DecidableEq, Repr

/-- A running CL.FILL copy (R181): captured source, destination and length. -/
structure FillOp where
  src : Nat
  dst : Nat
  len : Nat
deriving DecidableEq, Repr

/-- A STATUS record (R287): its source class and source, its ring, and its 64 bytes before the generation is put in. -/
structure StatusRec where
  cls : Nat
  src : Nat
  ring : Nat
  data : List Byte
deriving DecidableEq, Repr

/-- A doorbell accepted and not yet in effect (R276), with the number of BAR4 writes received before it. -/
structure PendDb where
  q : Nat
  index : W32
  writes : Nat
deriving DecidableEq, Repr

/-- Rings (chapter 11) beyond their contexts, which stand in the context memory. -/
structure Rings where
  /-- index of the stale record of a STALLED ring (R279) -/
  stale : List (Nat × W32)
  /-- accepted doorbells waiting for earlier writes, or behind such a one (R276) -/
  doorbells : List PendDb
  /-- rings whose stale record is to be read again when the memory serves (R279, R335) -/
  again : List Nat
  /-- records of completions that have not entered the queue yet, and the queue of 256 (R287) -/
  due : List StatusRec
  statusQ : List StatusRec
  /-- boundary count of Caravan's last work (R433) -/
  workAt : Nat
deriving DecidableEq, Repr

/-- The memories: waveform memory, the on-chip SRAMs, the MTP blocks and the boot flash. The Oasis of cluster k stands
at k × 8 MiB, its segment table at k × 256 KiB, the program store of channel c at c × 256 KiB. -/
structure Mems where
  hbm : Store
  oasis : Store
  segtab : Store
  prog : Store
  ctx : Store
  reckoner : Store
  mtp : Store
  flash : Store
deriving DecidableEq, Repr

/-- MSI-X pending latches (R404): vectors with the latch set, the tick of each vector's last message, and the summary
bits as last seen (DEV.IRQ_BLK in [21:0], DEV.IRQ_CH in [53:22], gated by DEV.CTRL.IRQ_EN). -/
structure Msix where
  latch : List Nat
  last : List (Nat × Nat)
  seen : BitVec 54
  /-- the last message: vector, address, data -/
  sent : Option (Nat × W64 × W32)
deriving DecidableEq, Repr

/-- A word waiting in a send queue (R301): its rank (0 forwarded event, 1 control, 2 local event), TYPE and BODY, and
whether its content takes the launch tick (R297: PROBE, BEACON, VERIFY, TIME). -/
structure LinkWord where
  rank : Nat
  ty : BitVec 2
  body : BitVec 54
  stamped : Bool
deriving DecidableEq, Repr

/-- A word in a send queue: the boundary count at which it came, and whether it came in on the other port and goes on, which it
may do in the tick it arrives in (R299, R301). -/
structure QueuedWord where
  word : LinkWord
  came : Nat
  fwd : Bool
deriving DecidableEq, Repr

/-- One link port (R295 to R301): whether its lanes have locked, so that it carries words, and the cells launched since; send
queue, the two words of the cell last launched, the count of cells since training ended, the learnt receive sequence number, the run
of cells out of sequence; whether cells are scrambled, the scrambler of each lane, and what the four lanes carried in the last tick,
none in electrical idle (R298, R374). -/
structure LinkPort where
  trained : Bool
  cells : Nat
  sendQ : List QueuedWord
  out : W64 × W64
  sent : Nat
  seqExp : Option (BitVec 8)
  slips : Nat
  scrambled : Bool
  scramblers : List (BitVec 58)
  lanes : Option (List W64)
deriving DecidableEq, Repr

/-- A port at reset: nothing waits, every lane in electrical idle. -/
def LinkPort.reset : LinkPort :=
  { trained := false, cells := 0, sendQ := [], out := (0, 0), sent := 0, seqExp := none, slips := 0, scrambled := false, scramblers := List.replicate 4 0, lanes := none }

/-- The array link (chapter 12): both ports, held array events (R302), and the forming of the array (R307). -/
structure Link where
  e : LinkPort
  w : LinkPort
  hold : List HeldEv
  /-- the ports whose share of the present phase is done: E, W -/
  eDone : Bool
  wDone : Bool
  /-- this device's share of the present phase is done and reported -/
  reported : Bool
  /-- positions that have ended the present phase -/
  results : List Nat
  /-- a phase announced for a tick: its number, and bits [23:0] of the tick -/
  phaseAt : Option (Nat × Nat)
  /-- a TIME_HI received, and the DT load due: the boundary count, and the value (R297) -/
  timeHi : Option W32
  dtLoad : Option (Nat × Tick)
  /-- phase TIME has loaded DT, so SEQ follows DT (R298) -/
  timed : Bool
  /-- boundary count at which the present phase began -/
  since : Nat
  /-- the SYNC edge of phase ALIGN has come; whole samples the divider phase was slipped by there (R307) -/
  aligned : Bool
  slip : Nat
  /-- the queued LINK.CMD command is LEAVE (R58) -/
  queuedLeave : Bool
deriving DecidableEq, Repr

/-- Waveform memory beyond its contents and registers (chapter 13). -/
structure Hbm where
  /-- open pages: 32 × pseudo-channel + bank, and the row (R319) -/
  pages : List (Nat × Nat)
  /-- pseudo-channels due for retraining (R340) -/
  due : List Nat
  /-- pseudo-channels that the running RETRAIN command named and that have not ended; whether one of them failed -/
  named : List Nat
  namedBad : Bool
  /-- rates whose timing set has been trained since power-on (R336) -/
  trained : List Nat
  /-- stack temperature at the training of a set: 128 × rate + pseudo-channel (R336, R340) -/
  trainedAt : List (Nat × BitVec 8)
  /-- widths of the read eyes of a set at its last training: 128 × rate + pseudo-channel, and the 32 lanes (R336, R339) -/
  eyes : List (Nat × List Nat)
  /-- training in progress: rate of the set, and pseudo-channel (R338, R340) -/
  training : Option (Nat × Nat)
  /-- slices run of it, the slice that holds its pseudo-channel: what it finds, and the boundary count of its end; and the tick
  boundary count at which the last slice started (R340) -/
  slices : Nat
  slice : Option (SliceResult × Nat)
  lastSlice : Option Nat
  /-- rate of the change that holds the memory, its start, and its end when its PLLs relock (R335, R337) -/
  newRate : Option Nat
  changeAt : Nat
  changeEnd : Option Nat
  /-- a change taken during a slice: its rate, and whether its PLLs relock (R341) -/
  deferred : Option (Nat × Bool)
  /-- boundary count of the last request to each stack (R433) -/
  lastReq : Vector Nat 4
  /-- running head loads: 16 × channel + entry, and the descriptor index (R170) -/
  loads : List (Nat × Nat)
  /-- stage-buffer requests made since reset (R23) -/
  reqs : Nat
  /-- BAR4 writes received and not yet whole in HBM, oldest first, and the count of all received (R24) -/
  posted : List (Nat × List Byte)
  received : Nat
  /-- BAR4 writes received before the fence that runs and before the one queued (R323) -/
  fences : List Nat
  /-- BAR4 reads that wait for the end of a rate change or a slice: address, length, BAR4 writes received before (R335, R340) -/
  reads : List (Nat × Nat × Nat)
  /-- next unit of patrol scrub, and the start of its pass (R331) -/
  scrubAt : Nat
  passAt : Option Nat
deriving DecidableEq, Repr

/-- A region under test: its place in the pass of its engine, the boundary count at which it was taken up, the save copy (R356). -/
structure RegionTest where
  idx : Nat
  start : Nat
  saved : List Byte
deriving DecidableEq, Repr

/-- Sirocco (R356 to R358): of each engine the next region of its pass, the region under test, and the abandoned regions with how
many regions come before each is tried again; the first failing location and the failures of the device engine, and the Oasis
words mapped to spare rows. -/
structure Sirocco where
  next : Vector Nat 9
  test : Vector (Option RegionTest) 9
  again : Vector (List (Nat × Nat)) 9
  failed : Option (Sram × Nat)
  fails : Nat
  spared : List Nat
deriving DecidableEq, Repr

/-- The last completion the device has returned to a read: its bytes, and the poisoned (EP) mark (R325). -/
structure Reply where
  data : List Byte
  ep : Bool
deriving DecidableEq, Repr

/-- What calibration holds for one sub-DAC beyond CH.DAC_SUB_u: the coarse units in use, the connection order, the
residual INL and the boundary count of its last check (R230, R241), and the residual mismatches it measured (R243). -/
structure SubDac where
  use : BitVec 80
  ord : BitVec 8
  rinl : BitVec 16
  checked : Nat
  ofs : Int
  gain : Int
  slip : Int
deriving DecidableEq, Repr

/-- Output-stage values of one range (R241). -/
structure OutVal where
  gain : BitVec 16
  ofs : BitVec 16
  temp : BitVec 16
  valid : Bool
  /-- boundary count of the last run in this range, or of the Stage C load (R243) -/
  ran : Nat
deriving DecidableEq, Repr

/-- Calibration of one channel (chapter 09). Times are boundary counts. -/
structure Cal where
  subs : Vector SubDac 18
  outs : Vector OutVal 3
  /-- start of the check in progress, and the sub-DAC whose failed check it repeats (R230, R231) -/
  stepAt : Nat
  failedOnce : Option Nat
  /-- positions whose sub-DAC failed and that no other serves yet (R217) -/
  vacant : List Nat
  /-- sub-DAC that passed its check and waits for the next frame boundary (R229) -/
  swapDue : Option Nat
  /-- output-stage run in progress: kind and start; the last sample before it; end of CAL_HOLD after an abort -/
  run : Option (CalKind × Nat)
  /-- start and kind of the last output-stage run begun (R237) -/
  ranAt : Nat
  ranKind : CalKind
  hold : Option Samp
  staleEnd : Option Nat
  /-- the pins have stood in PARK since the run began (R237), and the sensor's reading then (R238) -/
  fromPark : Bool
  runTemp : BitVec 16
  /-- the last comparison, and whether it found the temperature moved more than CAL_DELTA (R235) -/
  compAt : Nat
  moved : Bool
  /-- calibration made due by RUN or by a rate change (R233, R235) -/
  dueKept : Bool
  /-- when FORCE_DUE was set; temperature of an abort that bars FORCED runs; end of the wait before an IDLE run (R238) -/
  forceAt : Nat
  barred : Option (BitVec 16)
  retryAt : Nat
  /-- last record write (R242) -/
  lastWrite : Option Nat
  /-- the record of the write under way; a SAVE waits for its end; slots unusable until power-on; read-backs failed in it -/
  saving : Option (List Byte)
  saveNext : Bool
  badSlots : List Nat
  fails : Nat
  /-- the queued CH.CAL_CTRL command is SAVE, not RUN -/
  queuedSave : Bool
  /-- tick from which an unusable channel is parked (R217) -/
  unusableAt : Option Tick
  /-- end of a range change (R219) -/
  rangeEnd : Nat
deriving DecidableEq, Repr

/-- Calibration before any record is loaded: the built-in values of R242. -/
def Cal.reset : Cal :=
  { subs := Vector.replicate 18 ⟨0xFFFFFFFFFFFFFFFF, 0, 0, 0, 0, 0, 0⟩, outs := Vector.replicate 3 ⟨0, 0, 0, false, 0⟩, stepAt := 0
    failedOnce := none, vacant := [], swapDue := none, run := none, ranAt := 0, ranKind := .idle, hold := none, staleEnd := none, fromPark := false
    runTemp := 0, compAt := 0, moved := false, dueKept := false, forceAt := 0
    barred := none, retryAt := 0, lastWrite := none, saving := none, saveNext := false, badSlots := [], fails := 0
    queuedSave := false, unusableAt := none, rangeEnd := 0 }

/-- The clocks beyond their registers (chapter 15). Times are boundary counts; multipliers are in units of 2^-32. -/
structure Clk where
  /-- the oscillation of AON_CLK is stable (R361) -/
  aon : Bool
  /-- sources that do not run at present, bit i as CLK.LOSS (R374) -/
  down : BitVec 10
  /-- PRE and multiplier in force, and both when lock was last declared (R364) -/
  pre : Nat
  mult : Nat
  lockPre : Nat
  lockMult : Nat
  /-- APPLY that runs: whether it relocks, its multiplier, its start -/
  apply : Option (Bool × Nat × Nat)
  /-- start of the coast; the loop is released and pulls in; the coast is beyond limits and waits for parks (R371, R372) -/
  coastAt : Nat
  pulling : Bool
  beyond : Bool
  /-- start of WAIT_SYNC; boundary count of the first tick boundary of dividers that are released (R368) -/
  waitAt : Nat
  firstTick : Option Nat
  /-- end of the SYNCOUT pulse (R369) -/
  pulse : Option Nat
  /-- the system PLL is fed from REFIN; start of its coast (R373) -/
  sysRefin : Bool
  sysCoastAt : Nat
  /-- the queued CLK.CMD command is SYS_APPLY -/
  queuedSys : Bool
  /-- sources that have stopped and that no RESTART has relocked yet, bits as CLK.LOSS (R375) -/
  stopped : BitVec 10
  /-- outputs stand in their safe states (R374) -/
  safe : Bool
  /-- running gate handshakes: domain and start (R379) -/
  gates : List (Nat × Nat)
deriving DecidableEq, Repr

/-- The board side (chapters 16, 17): the supplies, PCIe configuration space, the test port, SMBus, a channel reset that
runs. -/
structure Board where
  /-- every monitored rail is in range; the 1.8 V analogue rail is; power good (R382, R383) -/
  rails : Bool
  analog : Bool
  good : Bool
  /-- PCIe configuration space (R397 to R401): MSI-X enable, function mask, power state D0, log2 of the size of BAR4 -/
  msixOn : Bool
  funcMask : Bool
  d0 : Bool
  barLog2 : Nat
  /-- test-port instruction in force (R414) -/
  jtag : BitVec 8
  /-- status of the last SMBus REG_WRITE: discarded (R407) -/
  smbBad : Bool
  /-- channel of the channel reset that runs (R389) -/
  rst : Option (Fin 32)
  /-- sites whose comparator has sensed TRIP and whose sensor has not read below it since (R438) -/
  tripSites : BitVec 24
deriving DecidableEq, Repr

/-- Security beyond its registers (chapter 18). MIN_SVN and the revocations in SEC.LC are those sensed at the last device
reset; here stand those blown. -/
structure Sec where
  svn : Nat
  revoked : BitVec 4
  /-- ROOT_HASH_r; zero is unprogrammed (R416) -/
  roots : Vector (BitVec 256) 4
  /-- RUN_MEAS and the EXTEND count (R421); FW_MEAS and CFG_MEAS (R422) -/
  runMeas : List Byte
  extends_ : Nat
  fwMeas : List Byte
  cfgMeas : List Byte
  /-- at Stage B the root of the identity key was not found again (R420) -/
  rootLost : Bool
  /-- nonce of the outstanding challenge (R426) -/
  challenge : Option (List Byte)
  /-- IDKEY_SEED, which no command reads (R416) -/
  idkeySeed : BitVec 512
deriving DecidableEq, Repr

/-- Reckoner and its mailbox (R391 to R394): the command that runs, with its captured arguments; the command of SEC.CMD that waits
behind it, its OP, R and CONFIRM (R429); Reckoner restarts and Reckoner SRAM correctable errors since power-on. -/
structure Mgmt where
  cmd : Option (Nat × List W32)
  sec : Option (Nat × Nat × Nat)
  restarts : Nat
  ce : Nat
deriving DecidableEq, Repr

/-- The running Abacus snapshot (R65 to R67): its target, the pseudo-channels and the link ports that take part, and
whether its units have copied. -/
structure Abacus where
  target : Tick
  pcs : List Nat
  ports : List Port
  copied : Bool
deriving DecidableEq, Repr

/-- Everything of the machine but its command queue. -/
structure Dev where
  /-- registers by BAR0 dword address; an unlisted address reads its reset word -/
  regs : List (Nat × W32)
  pend : List PendW
  /-- LO halves held in staging (R63), by the address of NAME_LO -/
  staged : List (Nat × W32)
  /-- addresses of locked LOCK registers (R61) -/
  locked : List Nat
  chans : Vector Chan 32
  ev : Events
  mem : Mems
  hbm : Hbm
  sirocco : Sirocco
  reply : Reply
  rings : Rings
  cals : Vector Cal 32
  /-- ends of the chiplets' rate changes (R441) -/
  rateEnd : Vector Nat 4
  clk : Clk
  msix : Msix
  link : Link
  /-- what the last load of a head slot recorded, by 16 × channel + entry (R170) -/
  heads : List (Nat × Desc)
  fills : Vector (Option FillOp) 8
  board : Board
  sec : Sec
  mgmt : Mgmt
  /-- the running snapshot of Abacus -/
  snap : Option Abacus
  /-- count of free values drawn (the model's own, log entry 12) -/
  free : Nat
deriving DecidableEq, Repr

/-- The machine: the device and the queue of commands that wait, first in, first out. -/
structure State where
  dev : Dev
  pending : List Instr
deriving DecidableEq, Repr

/-- Reasons the machine stops with a fault. -/
inductive Fault
  /-- No command raises it: the model has no stop of this kind. Safe: it removes no behaviour. -/
  | none
deriving DecidableEq, Repr

/-- Reasons a command is refused. -/
inductive Refusal
  /-- No meaning yet for the command of this mnemonic; raised by Dispatch only. Safe: the run stops there. -/
  | notModelled (mnemonic : String)
  /-- A private test-port opcode while debug is unlocked: the spec gives it no effect (R414). Raised by JTAG_INSTRUCTION.
  Safe: the run stops there. -/
  | privateJtag
deriving DecidableEq, Repr

/-- The device at the start of a power-on reset that keeps nothing (R387): supplies not yet good, STAGE 0, every register at
its reset word, every SRAM with nothing written. MTP, flash, fuses and the count of free values are kept. -/
def Dev.cold (mtp flash : Store) (sec : Sec) (free : Nat) : Dev :=
  { regs := [], pend := [], staged := [], locked := [], chans := Vector.replicate 32 Chan.reset
    ev := { dt := 0, counting := false, started := false, elapsed := 0, frames := [], log := [], load := none, hostEv := none
            tmrNext := Vector.replicate 8 0, tmrStart := Vector.replicate 8 0, trigLast := Vector.replicate 16 none
            mkLast := Vector.replicate 16 none, trig := 0, pins := 0, pinsNext := 0, sampled := 0, wokeAt := Vector.replicate 8 none, logAt := none, heldSince := 0 }
    mem := { hbm := Store.empty, oasis := Store.empty, segtab := Store.empty, prog := Store.empty, ctx := Store.empty
             reckoner := Store.empty, mtp := mtp, flash := flash }
    hbm := { pages := [], due := [], named := [], namedBad := false, trained := [], trainedAt := [], eyes := []
             training := none, slices := 0, slice := none, lastSlice := none, newRate := none, changeAt := 0, changeEnd := none
             deferred := none, lastReq := Vector.replicate 4 0, loads := [], reqs := 0, posted := [], received := 0, fences := []
             reads := [], scrubAt := 0, passAt := none }
    sirocco := ⟨Vector.replicate 9 0, Vector.replicate 9 none, Vector.replicate 9 [], none, 0, []⟩
    reply := ⟨[], false⟩
    rings := ⟨[], [], [], [], [], 0⟩
    cals := Vector.replicate 32 Cal.reset
    rateEnd := Vector.replicate 4 0
    clk := { aon := false, down := 0, pre := 1, mult := 128 * 2 ^ 32, lockPre := 1, lockMult := 128 * 2 ^ 32, apply := none
             coastAt := 0, pulling := false, beyond := false, waitAt := 0, firstTick := none, pulse := none, sysRefin := false
             sysCoastAt := 0, queuedSys := false, stopped := 0, safe := false, gates := [] }
    msix := ⟨[], [], 0, none⟩
    link := { e := LinkPort.reset, w := LinkPort.reset, hold := [], eDone := false, wDone := false
              reported := false, results := [], phaseAt := none, timeHi := none, dtLoad := none, timed := false, since := 0
              aligned := false, slip := 0, queuedLeave := false }
    heads := []
    fills := Vector.replicate 8 none
    board := { rails := false, analog := false, good := false, msixOn := true, funcMask := false, d0 := true, barLog2 := 37
               jtag := 1, smbBad := false, rst := none, tripSites := 0 }
    sec := { sec with runMeas := List.replicate 32 0, extends_ := 0, fwMeas := [], cfgMeas := [], rootLost := false, challenge := none }
    mgmt := ⟨none, none, 0, 0⟩
    snap := none
    free := free }

/-- Security as manufacture leaves it (DESIGN CHOICE, log entry 5): root 0 programmed, nothing blown but the lifecycle
step of PRODUCTION. -/
def Sec.made : Sec :=
  { svn := 0, revoked := 0, roots := #v[0x0101010101010101010101010101010101010101010101010101010101010101, 0, 0, 0]
    runMeas := List.replicate 32 0, extends_ := 0, fwMeas := [], cfgMeas := [], rootLost := false, challenge := none, idkeySeed := 1 }

/-- The machine right after a power-on reset (R387), its supplies not yet good, no command waiting. -/
def State.reset : State := ⟨Dev.cold Store.empty Store.empty Sec.made 0, []⟩

end Sys2Proof.Machine
end

