-- ==== Sys2Proof/Machine/Ops.lean ====
section
/-! DEFINITION. The operations every meaning is written over: the register bank, the channels, the memories, time
comparison, interrupt causes, completion records, STATUS records. -/

namespace Sys2Proof.Machine

/-! ### Time -/

/-- `T` is not after `U` in the order of R246. -/
def notAfter (t u : Tick) : Bool := (u - t).toNat < 2 ^ 63

/-- `T` is before `U` in the order of R246. -/
def before (t u : Tick) : Bool := t ≠ u && notAfter t u

/-- The earlier of two times (R246). -/
def tmin (t u : Tick) : Tick := if notAfter t u then t else u

/-- The later of two times (R246). -/
def tmax (t u : Tick) : Tick := if notAfter t u then u else t

/-- A count as a tick. -/
abbrev tk (n : Nat) : Tick := BitVec.ofNat 64 n

/-! ### Bits and bytes -/

/-- Bit range `[hi:lo]` of a word, as a number. -/
def bits {n : Nat} (w : BitVec n) (hi lo : Nat) : Nat := w.toNat / 2 ^ lo % 2 ^ (hi + 1 - lo)

/-- Value of a Boolean as a register bit. -/
def bit (b : Bool) : Nat := if b then 1 else 0

/-- Little-endian value of a byte list. -/
def leNat : List Byte → Nat
  | [] => 0
  | b :: bs => b.toNat + 256 * leNat bs

/-- The `n` little-endian bytes of a number. -/
def leBytes : Nat → Nat → List Byte
  | 0, _ => []
  | n + 1, v => BitVec.ofNat 8 v :: leBytes n (v / 256)

/-- Item `i` of a byte list, 0 beyond its end. -/
def byteAt (bs : List Byte) (i : Nat) : Byte := bs.getD i 0

/-! ### The register bank -/

/-- The bytes of a written dword that the byte enables select, over the old dword (R42). -/
def mergeBytes (old : W32) (be : BitVec 4) (v : W32) : W32 :=
  let m (i : Nat) : W32 := if be.getLsbD i then 0xFF#32 <<< (8 * i) else 0
  let mask := m 0 ||| m 1 ||| m 2 ||| m 3
  (old &&& ~~~mask) ||| (v &&& mask)

/-- The word the bank holds for a register address. -/
def Dev.rd (d : Dev) (a : Nat) : W32 := Tab.get regReset d.regs a

/-- The bank with a word at a register address. -/
def Dev.wr (d : Dev) (a : Nat) (w : W32) : Dev := { d with regs := Tab.put regReset d.regs a w }

/-- A field's value in force. -/
def Dev.get (d : Dev) (f : Fld) : Nat := f.read (d.rd f.addr)

/-- A one-bit field read as a Boolean. -/
def Dev.flag (d : Dev) (f : Fld) : Bool := d.get f != 0

/-- A field set to a value, every other bit of its register kept. -/
def Dev.set (d : Dev) (f : Fld) (v : Nat) : Dev := d.wr f.addr (f.write (d.rd f.addr) v)

/-- A field set to a value when a condition holds. -/
def Dev.setIf (d : Dev) (p : Bool) (f : Fld) (v : Nat) : Dev := if p then d.set f v else d

/-- The 64-bit value of a register pair (R63). -/
def Dev.get64 (d : Dev) (lo : Nat) : W64 := d.rd (lo + 4) ++ d.rd lo

/-- A register pair set to a 64-bit value. -/
def Dev.set64 (d : Dev) (lo : Nat) (v : W64) : Dev := (d.wr lo (v.setWidth 32)).wr (lo + 4) ((v >>> 32).setWidth 32)

/-- `n` added to a 64-bit count, mod 2^64. -/
def Dev.count64 (d : Dev) (lo : Nat) (n : Nat) : Dev := if n = 0 then d else d.set64 lo (d.get64 lo + BitVec.ofNat 64 n)

/-- 1 added to a field, saturating at its width. -/
def Dev.countSat (d : Dev) (f : Fld) : Dev := d.set f (min (d.get f + 1) (2 ^ f.len - 1))

/-- 1 added to a field, mod its width. -/
def Dev.countMod (d : Dev) (f : Fld) : Dev := d.set f (d.get f + 1)

/-- The sample PLL coasts (CLK.SPLL_STATUS.STATE 0b100), so stamps carry the COAST mark (R248). -/
def Dev.coasting (d : Dev) : Bool := d.get F.CLK_SPLL_STATUS_STATE == 4

/-- EVT_CLK and the cluster clocks run on bypass (R367). -/
def Dev.bypassed (d : Dev) : Bool := d.flag F.CLK_SPLL_STATUS_BYPASS

/-- DEV.STAGE.STAGE: 0 before Stage A, 1 A, 2 B, 3 C, 4 D, 5 E (R384). -/
def Dev.stage (d : Dev) : Nat := d.get F.DEV_STAGE_STAGE

/-! ### Channels -/

/-- Channel `c`. -/
def Dev.ch (d : Dev) (c : Fin 32) : Chan := d.chans[c]

/-- Channel `c` replaced. -/
def Dev.setCh (d : Dev) (c : Fin 32) (x : Chan) : Dev := { d with chans := d.chans.set c x }

/-- Channel `c` changed. -/
def Dev.modCh (d : Dev) (c : Fin 32) (f : Chan → Chan) : Dev := d.setCh c (f (d.ch c))

/-- The channel has no run (states IDLE and FAULTED of R50). -/
def Chan.quiet (x : Chan) : Bool := x.st = .idle || x.st = .faulted

/-- The output has carried out every fault hold (R98). -/
def Chan.parked (x : Chan) : Bool := x.faultB.isNone && x.holds.isEmpty

/-- The channel has a run (R96: ARMED, RUN, HALTED or DRAIN). -/
def Chan.active? (x : Chan) : Bool := x.st = .armed || x.st = .run || x.st = .halted || x.st = .drain

/-- Channel number of an index. -/
abbrev chanNo (n : Nat) : Fin 32 := ⟨n % 32, Nat.mod_lt _ (by decide)⟩

/-- Cluster of a channel. -/
abbrev clu (c : Fin 32) : Nat := c.val / 4

/-- Place of a channel in its cluster. -/
abbrev sub (c : Fin 32) : Nat := c.val % 4

/-- Chiplet of a channel. -/
abbrev chiplet (c : Fin 32) : Nat := c.val / 8

/-- Value of TELEM.SW_RATE for chiplet `n`: 0 6.4, 1 3.2, 2 1.6 GS/s. -/
def Dev.rate (d : Dev) (n : Nat) : Nat := d.get F.TELEM_SW_RATE_RATE_d / 4 ^ n % 4

/-- Samples per tick of channel `c` (R3). -/
def Dev.spt (d : Dev) (c : Fin 32) : Nat := 16 / 2 ^ d.rate (chiplet c)

/-- Ticks of a block of channel `c` (R4). -/
def Dev.blockTicks (d : Dev) (c : Fin 32) : Nat := 4 * 2 ^ d.rate (chiplet c)

/-- The channel runs in fast event mode (CH.SEQ_MODE.EVMODE). -/
def Dev.fast (d : Dev) (c : Fin 32) : Bool := d.flag (F.CH_SEQ_MODE_EVMODE c)

/-! ### Memories -/

/-- Contents of a byte of memory that nothing has written. -/
def blank (_ : Nat) : Byte := 0

/-- Contents of the boot flash as the board carries it (DESIGN CHOICE, log entry 7): slot A begins with the header of an image of SVN 0
and release 1 that every lifecycle state may boot, with an empty body (R410, R417); every other byte is erased. -/
def boardFlash (a : Nat) : Byte :=
  if a < 0x100000 then 0xFF
  else [0x53, 0x46, 0x4B, 0x57, 0x01, 0x00, 0x01, 0x00, 0x01, 0x00, 0xF0, 0x00, 0x00, 0x00, 0x00, 0x00].getD (a - 0x100000) 0xFF

/-- One byte of a memory. -/
def Store.byte (m : Store) (a : Nat) : Byte := Tab.get blank m.cells a

/-- `n` bytes of a memory from `a` on. -/
def Store.bytes (m : Store) (a : Nat) : Nat → List Byte
  | 0 => []
  | n + 1 => m.byte a :: Store.bytes m (a + 1) n

/-- Cells with bytes written from `a` on, those of `es` that read true only. -/
def writeCells (dflt : Nat → Byte) (t : List Host.Cell) (a : Nat) : List Byte → List Host.Cell
  | [] => t
  | b :: bs => writeCells dflt (Tab.put dflt t a b) (a + 1) bs

/-- A memory with bytes written from `a` on; its check marks are kept. -/
def Store.write (m : Store) (a : Nat) (bs : List Byte) : Store := { m with cells := writeCells blank m.cells a bs }

/-- A little-endian number of `n` bytes at `a`. -/
def Store.num (m : Store) (a n : Nat) : Nat := leNat (m.bytes a n)

/-- The canonical form of a memory with unlisted contents `dflt`. -/
def Memory.wf (dflt : Nat → Byte) (t : List Host.Cell) : Bool := Tab.wf dflt t

/-- The units of `u` bytes that `n` bytes from `a` touch. -/
def unitsOf (u a n : Nat) : List Nat :=
  if n = 0 then [] else (List.range ((a + n - 1) / u + 1 - a / u)).map fun i => (a / u + i) * u

/-- Write the bytes of whole and partial units of `u` bytes: a partial write to a poison-marked or uncorrectable unit
is discarded, a whole write clears its marks (R353, R457, R324). -/
def Store.writeUnits (m : Store) (u a : Nat) (bs : List Byte) : Store :=
  (unitsOf u a bs.length).foldl (fun m x =>
    let lo := max a x
    let hi := min (a + bs.length) (x + u)
    let part := (bs.drop (lo - a)).take (hi - lo)
    if hi - lo = u then
      { m.write lo part with ce := m.ce.filter (· ≠ x), ue := m.ue.filter (· ≠ x), poison := m.poison.filter (· ≠ x) }
    else if m.poison.contains x || m.ue.contains x then m
    else m.write lo part) m

/-- Oasis byte address of offset `off` in cluster `k`. -/
abbrev oasisAt (k off : Nat) : Nat := k * 0x800000 + off

/-- Segment-table byte address of offset `off` in cluster `k`. -/
abbrev segAt (k off : Nat) : Nat := k * 0x40000 + off

/-- Program-store byte address of offset `off` of channel `c`. -/
abbrev progAt (c off : Nat) : Nat := c * 0x40000 + off

/-- The instruction word at address `i` of channel `c` (R92). -/
def Dev.progWord (d : Dev) (c : Fin 32) (i : Nat) : W64 := BitVec.ofNat 64 (d.mem.prog.num (progAt c (8 * i)) 8)

/-- Descriptor `i` of cluster `k` (R155). -/
def Dev.descAt (d : Dev) (k i : Nat) : Desc :=
  let w (j : Nat) : W32 := BitVec.ofNat 32 (d.mem.segtab.num (segAt k (16 * i + 4 * j)) 4)
  ⟨w 0, w 1, w 2, w 3⟩

/-- Uncorrectable error found in a unit of Oasis (`mem` 0), the segment table (1) or a program store (2) of cluster
`k`: counted and captured (R353, R457). -/
def Dev.ueFound (d : Dev) (k mem j off : Nat) : Dev :=
  let d := d.countSat (F.CL_OASIS_CNT_COUNT k 1)
  if d.flag (F.CL_OASIS_ERR_VALID k) then d
  else (((d.set (F.CL_OASIS_ERR_OFFSET k) (off / 64 * 64)).set (F.CL_OASIS_ERR_MEM k) mem).set (F.CL_OASIS_ERR_J k) j).set
    (F.CL_OASIS_ERR_VALID k) 1

/-- A unit found uncorrectable takes the poison mark. -/
def Store.markPoison (m : Store) (x : Nat) : Store :=
  { m with ue := m.ue.filter (· ≠ x), poison := if m.poison.contains x then m.poison else m.poison ++ [x] }

/-- A unit reads uncorrectable or poison-marked. -/
def Store.bad (m : Store) (x : Nat) : Bool := m.ue.contains x || m.poison.contains x

/-- Engine of Sirocco that tests the location `a` of a memory, and the place of its region in that engine's pass: Oasis, segment
table, program stores; context SRAM, Reckoner SRAM (R351, R356). -/
def regionOf (m : Sram) (a : Nat) : Option (Nat × Nat) :=
  match m with
  | .oasis => if a < 0x4000000 then some (a / 0x800000, a % 0x800000 / 256) else none
  | .segTable => if a < 0x200000 then some (a / 0x40000, 32768 + a % 0x40000 / 256) else none
  | .programStore => if a < 0x800000 then some (a / 0x100000, 33792 + a % 0x100000 / 256) else none
  | .context => if a < 0x800000 then some (8, a / 256) else none
  | .reckoner => if a < 0x100000 then some (8, 32768 + a / 256) else none

/-- The region under test of an engine. -/
def Dev.testing (d : Dev) (e : Nat) : Option RegionTest := d.sirocco.test[e]?.join

/-- The test of region `i` given up by engine `e`, to be tried again after `n` more regions. -/
def Sirocco.giveUp (s : Sirocco) (e i n : Nat) : Sirocco :=
  { s with test := s.test.setIfInBounds e none, again := s.again.setIfInBounds e (s.again[e]?.getD [] ++ [(i, n)]) }

/-- An access to location `a` of a memory: a region under test there is restored and abandoned (R357). -/
def Dev.abandonAt (d : Dev) (m : Sram) (a : Nat) : Dev :=
  match regionOf m a with
  | none => d
  | some (e, i) =>
    if (d.testing e).any fun t => t.idx = i then
      let d := { d with sirocco := d.sirocco.giveUp e i 64 }
      if e < 8 then d.countSat (F.CL_OASIS_CNT_COUNT e 3) else d
    else d

/-- An access to `n` bytes from `a` on. -/
def Dev.abandonOver (d : Dev) (m : Sram) (a n : Nat) : Dev := (unitsOf 256 a n).foldl (fun (d : Dev) u => d.abandonAt m u) d

/-- A read of the 64-bit unit at `x` of the segment table of cluster `k`, at offset `off` (R354, R357, R457). -/
def Dev.touchSeg (d : Dev) (k off : Nat) : Dev :=
  let x := segAt k (off / 8 * 8)
  let d := d.abandonAt .segTable x
  if d.mem.segtab.ue.contains x then
    ({ d with mem := { d.mem with segtab := d.mem.segtab.markPoison x } }).ueFound k 1 0 off
  else d

/-- A read of the unit at offset `off` of the program store of channel `c` (R92, R357, R457). -/
def Dev.touchProg (d : Dev) (c : Fin 32) (off : Nat) : Dev :=
  let x := progAt c (off / 8 * 8)
  let d := d.abandonAt .programStore x
  if d.mem.prog.ue.contains x then
    ({ d with mem := { d.mem with prog := d.mem.prog.markPoison x } }).ueFound (clu c) 2 (sub c) off
  else d

/-- A read of the 64-byte Oasis word that holds offset `off` of cluster `k` (R353, R357): a correctable error is counted, an
uncorrectable one marks the word, is counted and captured; a word that is marked already counts nothing. -/
def Dev.touchOasis (d : Dev) (k off : Nat) : Dev :=
  let x := oasisAt k (off / 64 * 64)
  let d := d.abandonAt .oasis x
  if d.mem.oasis.ue.contains x then
    ({ d with mem := { d.mem with oasis := d.mem.oasis.markPoison x } }).ueFound k 0 0 off
  else if d.mem.oasis.ce.contains x && !d.mem.oasis.poison.contains x then d.countSat (F.CL_OASIS_CNT_COUNT k 0)
  else d

/-! ### Interrupt causes of a cluster's channel -/

/-- Cause bit `f` of CL.CH_IRQ_STATUS_j set for channel `c`; CH.SEQ_IRQ_STATUS.CL is set when CL.CH_IRQ_EN_j enables
bit `i`. -/
def Dev.clCause (d : Dev) (c : Fin 32) (f : Fld) : Dev :=
  let d := d.set f 1
  d.setIf (d.get (F.CL_CH_IRQ_EN_EN (clu c) (sub c)) / 2 ^ f.lo % 2 == 1) (F.CH_SEQ_IRQ_STATUS_CL c) 1

/-! ### STATUS records (R287, R288) -/

/-- A STATUS record is lost: counted, flagged, and counted in the ring it was bound for (R287). -/
def Dev.statusLost (d : Dev) (q : Nat) : Dev :=
  let d := (d.countSat F.CARAVAN_STAT_Q_LOST).set F.CARAVAN_IRQ_STATUS_STATUS_LOST 1
  let d := d.abandonAt .context (32 * q)
  let n := d.mem.ctx.num (32 * q + 0x1C) 2
  { d with mem := { d.mem with ctx := d.mem.ctx.write (32 * q + 0x1C) (leBytes 2 (min (n + 1) 0xFFFF)) } }

/-- A completion of source class `m` and source `src` has a record due when the class is enabled and bit `src` of its
mask is 1 (R287). `body` is the payload from byte 8 on. -/
def Dev.emitStatus (d : Dev) (m src : Nat) (body : List Byte) : Dev :=
  if !d.flag (F.CARAVAN_STAT_RING_EN m) then d
  else if m < 3 && d.get (F.CARAVAN_STAT_MASK_MASK m) / 2 ^ src % 2 == 0 then d
  else
    let hdr : List Byte := [0, 2, 0, 0] ++ leBytes 4 d.ev.dt.toNat
    let rec_ : StatusRec := ⟨m, src, d.get (F.CARAVAN_STAT_RING_Q m), hdr ++ body ++ List.replicate (56 - body.length) 0⟩
    { d with rings := { d.rings with due := d.rings.due ++ [rec_] } }

/-- STATUS_RECORD (R287): the oldest record due of a source enters the queue of 256, or is lost. -/
def Dev.statusRecord (d : Dev) (m src : Nat) : Dev :=
  match d.rings.due.find? fun r => r.cls = m && r.src = src with
  | none => d
  | some r =>
    let d := { d with rings := { d.rings with due := d.rings.due.erase r } }
    if d.rings.statusQ.length < 256 then { d with rings := { d.rings with statusQ := d.rings.statusQ ++ [r] } }
    else d.statusLost r.ring

/-! ### Runs: completion, output, faults -/

/-- The channel's output parked and its run's buffers discarded (R180, R282, R262). -/
def Chan.parkOutput (x : Chan) : Chan :=
  { x with queue := [], dispatched := [], stopB := none, parkAt := none, faultB := none, holds := [], cur := ⟨.park, 0, 0⟩,
           nextS := none, blks := [], fetches := [], stage := [], panic := false, recs := [] }

/-- The sequencer stopped: nothing waits, no step or break is under way. -/
def Chan.stopIssue (x : Chan) : Chan :=
  { x with held := none, stall := .none, ringWait := 0, stepping := false, breakReq := false }

/-- The payload from byte 8 on of the STATUS record of a run that ended (R288). -/
def Dev.runBody (d : Dev) (c : Fin 32) (code abrt : Nat) : List Byte :=
  [0, BitVec.ofNat 8 c.val, BitVec.ofNat 8 (code + 16 * abrt),
    BitVec.ofNat 8 (d.get (F.CH_SEQ_FAULT_CAUSE c) + 8 * d.get (F.CH_SEQ_FAULT_SUB c) + 64 * d.get (F.CH_SEQ_FAULT_MORE c))]
  ++ leBytes 4 (d.rd (R.CH_SEQ_FAULT_ARG c)).toNat
  ++ leBytes 8 (if code = 4 then (d.get64 (R.CH_SEQ_FAULT_B c 0)).toNat else 0)

/-- The completion record of a run (R59, R94 to R98): CODE, ABRT, interrupt cause, the command bits, a queued GO, the
STATUS record. A queued GO is discarded after ABORTED and FAILED and starts
otherwise (R58, R94). -/
def Dev.completeRun (d : Dev) (c : Fin 32) (code abrt : Nat) : Dev :=
  let d := (d.set (F.CH_SEQ_STATUS_CODE c) code).set (F.CH_SEQ_STATUS_ABRT c) abrt
  let d := if code = 4 then d.set (F.CH_SEQ_IRQ_STATUS_FAULT c) 1 else d.set (F.CH_SEQ_IRQ_STATUS_DONE c) 1
  let again := code ≠ 3 && code ≠ 4 && d.flag (F.CH_SEQ_CTRL_PENDING c)
  let d := d.set ⟨R.CH_SEQ_CTRL c, 0, 6⟩ (bit again)
  let d := d.modCh c fun x => { x with goReq := again }
  d.emitStatus 0 c.val (d.runBody c code abrt)

/-- The action begins blocks of its own at its tick (R153): PLAY, PLAYG, PLAYN, HOLD, PARK. -/
def Act.output : Act → Bool
  | .play _ _ | .playn _ | .hold _ | .park _ => true
  | _ => false

/-- Ticks of the queued actions that begin blocks, in queue order. -/
def Chan.origins (x : Chan) : List Tick := (x.queue.filter (·.act.output)).map (·.tick)

/-- The first block boundary not yet committed (R98): the next block of the grid, or an earlier queued play's tick. -/
def Chan.nextBoundary (x : Chan) : Tick :=
  let s := x.nextS.getD x.sc
  match x.origins with
  | o :: _ => tmin o s
  | [] => s

/-- The first point at or after `t` of the grid of `bt` ticks that starts at `o`. -/
def gridFrom (o : Tick) (bt : Nat) (t : Tick) : Tick :=
  if notAfter t o then o else o + tk (((t - o).toNat + bt - 1) / bt * bt)

/-- The first block boundary at or after `t` (R153), over the grids that start at `o` and at each later origin. -/
def boundaryFrom (bt : Nat) (t : Tick) : Tick → List Tick → Tick
  | o, [] => gridFrom o bt t
  | o, n :: ns => if notAfter n t then boundaryFrom bt t n ns else tmin n (gridFrom o bt t)

/-- The first block boundary of channel `c` at or after `t`. -/
def Dev.boundaryAfter (d : Dev) (c : Fin 32) (t : Tick) : Tick :=
  let x := d.ch c
  boundaryFrom (d.blockTicks c) t (x.nextS.getD x.sc) x.origins

/-- Order of fault causes in R99: POISON, UNDERRUN, SEG_INVALID, RING_TIMEOUT, LEDGER_RANGE, STACK, ILLEGAL. -/
def causeRank (cause : Nat) : Nat :=
  match cause with | 5 => 0 | 3 => 1 | 4 => 2 | 6 => 3 | 7 => 4 | 2 => 5 | _ => 6

/-- The fault record written (R99, R100). -/
def Dev.faultRecord (d : Dev) (c : Fin 32) (cause sub arg pc : Nat) (b : Tick) : Dev :=
  let d := d.wr (R.CH_SEQ_FAULT c) (BitVec.ofNat 32 (1 + 2 * cause + 16 * sub))
  let d := d.wr (R.CH_SEQ_FAULT_PC c) (BitVec.ofNat 32 (pc % 32768))
  let d := d.set64 (R.CH_SEQ_FAULT_B c 0) b
  d.wr (R.CH_SEQ_FAULT_ARG c) (BitVec.ofNat 32 arg)

/-- The output cut off at boundary `b` with blocks of `bt` ticks, as a fault does it (R98): the actions at `b` or later are discarded,
and a hold of one block from `b` comes before the park. A run with no block committed leaves the output parked as it stood, so it
holds nothing. -/
def Chan.cutAt (x : Chan) (b : Tick) (bt : Nat) : Chan :=
  { x with queue := x.queue.filter fun a => before a.tick b
           dispatched := x.dispatched.filter fun a => before a.tick b
           stopB := none, faultB := some b, faultEnd := b + tk bt, parkAt := some (b + tk bt)
           holds := if x.committed then x.holds ++ [(b, b + tk bt)] else x.holds
           recs := [], store := [] }

/-- The sequencer has nothing to issue: it is stopped, or the run drains or stands halted. -/
def Chan.noIssue (x : Chan) : Bool := x.stopB.isSome || !(x.st = .run || x.stepping)

/-- A fault of channel `c` with boundary `b` (R98, R99): the record, the output cut off at `b`, the run ended FAILED. The instruction
that waits has no effect any more; a fault that it meets in the same tick still counts. -/
def Dev.faultAt (d : Dev) (c : Fin 32) (cause sub arg pc : Nat) (b : Tick) : Dev :=
  let d := d.faultRecord c cause sub arg pc b
  let d := d.modCh c fun x =>
    { x.cutAt b (d.blockTicks c) with st := .faulted, goTick := d.ev.dt, stepping := false, breakReq := false, seqFault := x.noIssue }
  d.completeRun c 4 (d.get (F.CH_SEQ_STATUS_ABRT c))

/-- The STATUS record of a run of channel `c` that ended FAILED in the present tick (R288). -/
def Dev.failRecord (d : Dev) (c : Fin 32) (r : StatusRec) : Bool :=
  r.cls = 0 && r.src = c.val && (byteAt r.data 10).toNat % 16 = 4 && leNat ((r.data.drop 4).take 4) = d.ev.dt.toNat % 2 ^ 32

/-- The last item of a list that satisfies `p` changed. -/
def changeLast {α : Type} (p : α → Bool) (f : α → α) (l : List α) : List α :=
  let new := l.reverse.takeWhile fun r => !p r
  let old := l.reverse.dropWhile fun r => !p r
  (new ++ (old.take 1).map f ++ old.drop 1).reverse

/-- The STATUS record of the run that ended FAILED in this tick, not yet written to its ring, takes the present fault record
(R99, R288). -/
def Dev.faultReport (d : Dev) (c : Fin 32) : Dev :=
  let body := d.runBody c 4 (d.get (F.CH_SEQ_STATUS_ABRT c))
  let fix (r : StatusRec) : StatusRec := { r with data := r.data.take 8 ++ body ++ r.data.drop (8 + body.length) }
  if d.rings.due.any (d.failRecord c) then { d with rings := { d.rings with due := changeLast (d.failRecord c) fix d.rings.due } }
  else { d with rings := { d.rings with statusQ := changeLast (d.failRecord c) fix d.rings.statusQ } }

/-- A fault detected in the tick of an earlier one (R99): the earlier B stands, then the order of causes; MORE is set. With an
earlier B the output stops there. -/
def Dev.faultMore (d : Dev) (c : Fin 32) (cause sub arg pc : Nat) (b : Tick) : Dev :=
  let b0 := d.get64 (R.CH_SEQ_FAULT_B c 0)
  let wins := before b b0 || (b = b0 && causeRank cause < causeRank (d.get (F.CH_SEQ_FAULT_CAUSE c)))
  let d := if wins then d.faultRecord c cause sub arg pc b else d
  let bt := d.blockTicks c
  let d := if before b b0 then d.modCh c fun x =>
      { x with queue := x.queue.filter fun a => before a.tick b
               dispatched := x.dispatched.filter fun a => before a.tick b
               faultB := some b, faultEnd := b + tk bt, parkAt := some (b + tk bt)
               holds := x.holds.map fun h => if h = (b0, b0 + tk bt) then (b, b + tk bt) else h }
    else d
  (d.set (F.CH_SEQ_FAULT_MORE c) 1).faultReport c

/-- Channel `x` has faulted in tick `t`: what is detected in one tick counts as detected in one cycle (R99, DESIGN CHOICE, log
entry 46). -/
def Chan.faultedIn (x : Chan) (t : Tick) : Bool := x.st = .faulted && x.goTick = t

/-- A fault that the output detects (R98, R99). -/
def Dev.outFault (d : Dev) (c : Fin 32) (cause sub arg : Nat) (b : Tick) : Dev :=
  if (d.ch c).faultedIn d.ev.dt then d.faultMore c cause sub arg (d.ch c).pc.toNat b
  else d.faultAt c cause sub arg (d.ch c).pc.toNat b

/-! ### Events into the fabric -/

/-- The occurrence that a merge keeps: the lower sample index, then the kind, then the index (R258). -/
def FrameEv.keeps (a b : FrameEv) : Bool :=
  a.m.toNat < b.m.toNat || (a.m = b.m && (a.kind.toNat < b.kind.toNat || (a.kind = b.kind && a.idx.toNat ≤ b.idx.toNat)))

/-- Two occurrences of one code with one stamp, merged (R258): one fast copy, at the earlier fast entry. -/
def FrameEv.merge (a b : FrameEv) : FrameEv :=
  let k := if a.keeps b then a else b
  { k with fastAt := tmin a.fastAt b.fastAt, presented := a.presented, closed := a.closed, occs := a.occs ++ b.occs }

/-- Event `f` as occurrence `o` alone. -/
def FrameEv.only (f : FrameEv) (o : Occ) : FrameEv :=
  { f with m := o.m, kind := o.kind, idx := o.idx, coast := o.coast, late := o.late, fastAt := o.fastAt, occs := [o] }

/-- Event `f` without the occurrences that satisfy `p`; none when nothing is left of it. -/
def FrameEv.without (f : FrameEv) (p : Occ → Bool) : Option FrameEv :=
  match f.occs.filter fun o => !p o with
  | [] => none
  | o :: os => some (os.foldl (fun g o => g.merge (f.only o)) (f.only o))

/-- An occurrence entered in the frames, merged with one of the same code and stamp. -/
def mergeFrame (e : FrameEv) : List FrameEv → List FrameEv × Bool
  | [] => ([e], false)
  | f :: fs =>
    if f.code = e.code && f.stamp = e.stamp && !f.closed then (f.merge e :: fs, true)
    else ((f :: (mergeFrame e fs).1), (mergeFrame e fs).2)

/-- An event enters the fabric (R252, R258): merged occurrences count in EVT.CNT MERGED. Nothing is stamped while DT
does not count (R247). -/
def Dev.emit (d : Dev) (code : BitVec 8) (stamp : Tick) (m kind : BitVec 4) (idx : BitVec 16) (late : Bool)
    (fastAt : Tick) : Dev :=
  if !d.ev.counting then d
  else
    let coast := d.coasting
    let r := mergeFrame ⟨code, stamp, m, kind, idx, coast, late, fastAt, false, 0, [⟨m, kind, idx, coast, late, fastAt⟩]⟩ d.ev.frames
    let d := { d with ev := { d.ev with frames := r.1 } }
    d.count64 (R.EVT_CNT 1 0) (bit r.2)

end Sys2Proof.Machine
end

