-- ==== Sys2Proof/Machine/Pending.lean ====
section
/-! DEFINITION. Values held pending until their apply points (R51), and what DEV.PROFILE reports (R28, R30). -/

namespace Sys2Proof.Machine

/-- The bits of a field. -/
def Fld.mask (f : Fld) : W32 := BitVec.ofNat 32 ((2 ^ f.len - 1) * 2 ^ f.lo)

/-- The pending value of a field and the boundary count of its acceptance: the value that no block has fixed yet, else
the fixed one. -/
def Dev.pendingOf (d : Dev) (f : Fld) : Option (Nat × Nat) :=
  let of_ (fixed : Bool) := d.pend.find? fun p => p.addr = f.addr && p.mask.getLsbD f.lo && p.due.isSome == fixed
  ((of_ false).orElse fun _ => of_ true).map fun p => (f.read p.val, p.acc)

/-- Bits of a pending write dropped, but of one that a block has fixed (R154); a write with no bit left is dropped whole. -/
def dropBits (addr : Nat) (mask : W32) (ps : List PendW) : List PendW :=
  (ps.map fun p => if p.addr = addr && p.due.isNone then { p with mask := p.mask &&& ~~~mask } else p).filter fun p => p.mask ≠ 0

/-- The pending value of a field dropped. -/
def Dev.dropPending (d : Dev) (f : Fld) : Dev := { d with pend := dropBits f.addr f.mask d.pend }

/-- A value held pending for some bits of a register; it replaces what was held for them (R51). -/
def Dev.hold (d : Dev) (addr : Nat) (mask v : W32) (ap : Apply) : Dev :=
  if mask = 0 then d
  else { d with pend := dropBits addr mask d.pend ++ [⟨addr, mask, v &&& mask, ap, d.ev.elapsed, none⟩] }

/-- The block of BAR0 that holds an address, counted as APPLY_POINT names it: 64 KiB blocks below 0x100_0000, then the
1 MiB CL blocks from 0x100 and CH blocks from 0x110. -/
def unitOf (a : Nat) : Nat := if a < 0x1000000 then a / 0x10000 else 0x100 + (a - 0x1000000) / 0x100000

/-- The channel whose CH block holds an address, or whose settings a register of a CL block holds. -/
def channelOf (a : Nat) : Fin 32 :=
  if a < 0x2000000 then chanNo (4 * ((a - 0x1000000) / 0x100000) + a % 0x100000 / 4) else chanNo ((a - 0x2000000) / 0x100000)

/-- A field's apply point is a block boundary of channel `c`, or a segment boundary when `seg`. -/
def PendW.forBlock (p : PendW) (c : Fin 32) (seg : Bool) : Bool :=
  0x1000000 ≤ p.addr && channelOf p.addr = c && (p.ap = .block || (seg && p.ap = .seg))

/-- The commit of the block of channel `c` with first tick `s` fixes the BLOCK fields, and with a segment boundary the SEG fields,
that have waited a full tick (R50, R154). -/
def Dev.fixFields (d : Dev) (c : Fin 32) (s : Tick) (seg : Bool) : Dev :=
  { d with pend := d.pend.map fun p =>
      if p.forBlock c seg && p.due.isNone && p.acc + 2 ≤ d.ev.elapsed then { p with due := some s } else p }

/-- The word of register `a` in force in tick `t`: fixed values count from their block's first tick on (R50, R203). -/
def Dev.rdAt (d : Dev) (t : Tick) (a : Nat) : W32 :=
  (d.pend.filter fun p => p.addr = a && p.due.any (notAfter · t)).foldl
    (fun w p => (w &&& ~~~p.mask) ||| (p.val &&& p.mask)) (d.rd a)

/-- A field's value in force in tick `t`. -/
def Dev.getAt (d : Dev) (t : Tick) (f : Fld) : Nat := f.read (d.rdAt t f.addr)

/-- Every switch in force has the value of profile `p` (R28): chiplet rates, HBM pin rate, rotation, event mode, QoS
schemes, idle cluster clocks. -/
def Dev.matchesProfile (d : Dev) (p : Nat) : Bool :=
  d.get F.TELEM_SW_RATE_RATE_d = p * 0x55 && d.get F.MEM_FREQ_CTRL_RATE = p &&
  (List.range 32).all (fun c => d.flag (F.CH_DAC_CTRL_ROT c) && !d.flag (F.CH_SEQ_MODE_EVMODE c)) &&
  (List.range 6).all (fun m => d.get (F.MEM_QOS_SCHEME m) = bit (m = 0)) &&
  d.get F.TELEM_PWR_CL_GATED = (if p = 2 then 0xFF else 0)

/-- The profile that the switches in force match: 0 ERG, 1 SEIF, 2 HAMADA, 7 CUSTOM. -/
def Dev.profile (d : Dev) : Nat := ((List.range 3).find? d.matchesProfile).getD 7

/-- DEV.PROFILE.PROFILE follows the switches in force (R30). -/
def Dev.profileSync (d : Dev) : Dev := d.set F.DEV_PROFILE_PROFILE d.profile

end Sys2Proof.Machine
end

