-- ==== Sys2Proof/Machine/Flags.lean ====
section
/-! DEFINITION. The arithmetic of R113 and the comparisons of R110. The instruction set keeps no flags (R114): a
program tests values with JCC. -/

namespace Sys2Proof.Machine

/-- The operations of R113, in the order of their opcodes 0x10 + i and 0x20 + i. -/
inductive AluOp | mov | add | sub | mul | and | or | xor | shl | shr | sar | min | max
deriving DecidableEq, Repr

/-- The result of an arithmetic instruction on G[B] and the right-hand side, mod 2^32 (R113, R114). -/
def AluOp.eval : AluOp → W32 → W32 → W32
  | .mov, _, y => y
  | .add, x, y => x + y
  | .sub, x, y => x - y
  | .mul, x, y => x * y
  | .and, x, y => x &&& y
  | .or, x, y => x ||| y
  | .xor, x, y => x ^^^ y
  | .shl, x, y => x <<< (y.toNat % 32)
  | .shr, x, y => x >>> (y.toNat % 32)
  | .sar, x, y => x.sshiftRight (y.toNat % 32)
  | .min, x, y => if x.toInt ≤ y.toInt then x else y
  | .max, x, y => if x.toInt ≤ y.toInt then y else x

/-- Whether a JCC condition holds of G[A] and the right-hand side; none for a reserved COND (R110). -/
def condHolds (cond : Nat) (x y : W32) : Option Bool :=
  match cond with
  | 0 => some (decide (x = y))
  | 1 => some (decide (x ≠ y))
  | 2 => some (decide (x.toInt < y.toInt))
  | 3 => some (decide (y.toInt ≤ x.toInt))
  | 4 => some (decide (x.toNat < y.toNat))
  | 5 => some (decide (y.toNat ≤ x.toNat))
  | 6 => some (decide (x &&& y ≠ 0))
  | 7 => some (decide (x &&& y = 0))
  | _ => none

end Sys2Proof.Machine
end

