-- ==== Sys2Proof/Machine/Operands.lean ====
section
/-! DEFINITION. The fields of an instruction word and the encodings each opcode allows (R101, R102, R109 to R146). -/

namespace Sys2Proof.Machine

/-- Opcode of an instruction word (R101). -/
def opOf (w : W64) : Nat := bits w 63 56

/-- Field A. -/
def fA (w : W64) : BitVec 4 := (w >>> 52).setWidth 4

/-- Field B. -/
def fB (w : W64) : BitVec 4 := (w >>> 48).setWidth 4

/-- Operand X. -/
def fX (w : W64) : BitVec 48 := w.setWidth 48

/-- Bit range of X as a number. -/
def xr (w : W64) (hi lo : Nat) : Nat := bits (fX w) hi lo

/-- Bit `i` of X. -/
def xb (w : W64) (i : Nat) : Bool := (fX w).getLsbD i

/-- The instruction word of an opcode with fields A, B and X (R101). -/
def mkWord (op : BitVec 8) (a b : BitVec 4) (x : BitVec 48) : W64 := op ++ a ++ b ++ x

/-- X with bit `i` set to `v`: the selector bit that tells two rows of one opcode apart. -/
def withBit (x : BitVec 48) (i : Nat) (v : Bool) : BitVec 48 :=
  if v then x ||| BitVec.twoPow 48 i else x &&& ~~~ BitVec.twoPow 48 i

/-- The opcode is one of the map of R106. -/
def opDefined (op : Nat) : Bool :=
  op < 0x08 || (0x10 ≤ op && op < 0x1C) || (0x20 ≤ op && op < 0x2C) || (0x30 ≤ op && op < 0x35) ||
  (0x40 ≤ op && op < 0x45) || (0x60 ≤ op && op < 0x64) || (0x70 ≤ op && op < 0x78) || (0x90 ≤ op && op < 0x94) ||
  (0xA0 ≤ op && op < 0xA3)

/-- The unused fields are 0 and no reserved value is used: what R102 asks of a word with a defined opcode. -/
def encOk (w : W64) : Bool :=
  let a := fA w
  let b := fB w
  let z := xr w
  let op := opOf w
  match op with
  | 0x00 | 0x01 | 0x05 | 0x07 => a = 0 && b = 0 && fX w = 0
  | 0x02 | 0x04 => a = 0 && b = 0 && z 47 15 = 0
  | 0x03 => z 15 15 = 0 && z 31 21 = 0 && z 19 16 < 8 && (if xb w 20 then b = 0 else z 47 32 = 0)
  | 0x06 => a = 0 && (if xb w 15 then z 47 16 = 0 else b = 0)
  | 0x30 => a = 0 && b = 0 && z 47 32 = 0
  | 0x31 => a = 0 && fX w = 0
  | 0x32 => fX w = 0
  | 0x33 => a = 0 && b = 0 && z 5 0 ≤ 32 && z 15 6 = 0
  | 0x34 => z 47 41 = 0 && (xb w 40 || (a = 0 && b = 0))
  | 0x40 => a = 0 && b = 0 && z 47 14 = 0
  | 0x41 => a = 0 && z 13 13 = 0 && z 47 16 = 0 && z 15 14 ≠ 3 &&
      (z 15 14 = 1 || z 12 0 = 0) && (z 15 14 ≠ 1 || b = 0)
  | 0x42 | 0x43 | 0x44 | 0xA0 => a = 0 && z 47 33 = 0 && (if xb w 32 then z 31 0 = 0 else b = 0)
  | 0x60 => b = 0 && z 15 15 = 0 && z 47 33 = 0 && (xb w 32 || a = 0)
  | 0x61 => b = 0 && z 15 15 = 0 && z 47 40 = 0 && (xb w 39 || a = 0) && z 14 0 + z 23 16 ≤ 32767
  | 0x62 => a = 0 && b = 0 && z 47 9 = 0
  | 0x63 => a = 0 && b = 0 && z 47 8 = 0
  | 0x70 | 0x71 => b = 0 && a.toNat < 8
  | 0x72 => z 47 10 = 0 && b.toNat % 2 = 0 && (if xb w 8 then z 7 0 = 0 else a = 0)
  | 0x73 | 0x74 => z 15 11 = 0 && z 9 8 ≠ 3 && (z 9 8 ≠ 0 || z 7 3 = 0) && (z 9 8 ≠ 2 || z 7 0 = 0) &&
      (z 9 8 = 2 || a = 0) && (if xb w 10 then z 47 16 = 0 else b = 0)
  | 0x75 => a.toNat < 8 && z 47 9 = 0 && (if xb w 8 then z 7 0 = 0 else b = 0)
  | 0x76 => a.toNat < 8 && z 47 17 = 0 && (if xb w 16 then z 15 0 = 0 else b = 0)
  | 0x77 => a = 0 && b = 0 && z 47 9 = 0
  | 0x90 => z 47 19 = 0 && (if xb w 13 then z 12 0 = 0 else b = 0) &&
      (if xb w 18 then a = 0 && z 17 14 = 0 else z 17 14 < 14 && a.toNat + z 17 14 + 1 ≤ 16)
  | 0x91 => z 47 18 = 0 && (if xb w 13 then z 12 0 = 0 else b = 0) && z 17 14 < 14 && a.toNat + z 17 14 + 1 ≤ 16
  | 0x92 => z 47 30 = 0 && (if xb w 13 then z 12 0 = 0 else b = 0)
  | 0x93 => a = 0 && z 47 18 = 0 && (if xb w 13 then z 12 0 = 0 else b = 0)
  | 0xA1 => b = 0 && z 47 3 = 0 && z 2 0 ≤ 4
  | 0xA2 => a = 0 && b = 0 && z 47 1 = 0
  | _ =>
    if 0x10 ≤ op && op < 0x1C then z 47 4 = 0 && (op ≠ 0x10 || z 3 0 = 0)
    else if 0x20 ≤ op && op < 0x2C then z 47 32 = 0 && (op ≠ 0x20 || b = 0)
    else false

/-- The instruction places an action or advances SC, so that R79 and R80 hold it back (R106, R127). `n` is its tick
count, for PLAYN, HOLD and PARK. -/
def scheduling (w : W64) (n : W32) : Bool :=
  match opOf w with
  | 0x30 | 0x31 | 0x32 | 0x33 | 0x34 | 0x40 | 0x41 | 0x63 | 0x70 | 0x71 | 0x72 | 0x73 | 0x74 | 0x75 | 0x76 | 0x77 | 0xA0 => true
  | 0x42 | 0x43 | 0x44 => n ≠ 0
  | 0x62 => !xb w 8
  | 0x90 => xb w 18
  | 0xA2 => xb w 0
  | _ => false

/-- The instruction places an entry in the timed-action queue (R80, R106). -/
def places (w : W64) (n : W32) : Bool :=
  scheduling w n && !(0x30 ≤ opOf w && opOf w ≤ 0x34)

/-- G register `r` of a channel. -/
def Chan.rg (x : Chan) (r : BitVec 4) : W32 := x.g[r.toFin]

/-- G register `r` written. -/
def Chan.setG (x : Chan) (r : BitVec 4) (v : W32) : Chan := { x with g := x.g.set r.toFin v }

/-- The tick count n of PLAYN, HOLD, PARK and CALW: X[31:0], or G[B] when REG = 1 (R121). -/
def tickCount (x : Chan) (w : W64) : W32 := if xb w 32 then x.rg (fB w) else BitVec.ofNat 32 (xr w 31 0)

/-- The ring scheduler slot of a ring instruction: X[12:0], or G[B] when SLOTREG = 1 (R142). -/
def ringSlot (x : Chan) (w : W64) : Nat := if xb w 13 then (x.rg (fB w)).toNat else xr w 12 0

end Sys2Proof.Machine
end

