-- ==== Sys2Proof/Machine/RingOps.lean ====
section
/-! DEFINITION. Ring contexts, readiness, record copies and consumption (chapter 11). -/

namespace Sys2Proof.Machine

/-- A field of the context of ring `q`: `n` bytes at offset `off` (R269). -/
def Dev.ctx (d : Dev) (q off n : Nat) : Nat := d.mem.ctx.num (32 * q + off) n

/-- Bytes of the context of ring `q` written. -/
def Dev.setCtx (d : Dev) (q off n v : Nat) : Dev :=
  { d with mem := { d.mem with ctx := d.mem.ctx.write (32 * q + off) (leBytes n v) } }

/-- The context holds an uncorrectable error, and acts as STATE OFF (R354). -/
def Dev.ctxBad (d : Dev) (q : Nat) : Bool := [0, 8, 16, 24].any fun i => d.mem.ctx.bad (32 * q + i)

/-- STATE of ring `q`: 0 OFF, 1 LIVE, 2 STALLED (R269, R354). -/
def Dev.ringState (d : Dev) (q : Nat) : Nat := if d.ctxBad q then 0 else d.ctx q 0x0B 1 % 4

/-- STATE and the ring error cause of ring `q` written. -/
def Dev.setRingState (d : Dev) (q st cause : Nat) : Dev := d.setCtx q 0x0B 1 (st + 4 * cause)

/-- KIND of ring `q` (R268). -/
def Dev.ringKind (d : Dev) (q : Nat) : Nat := d.ctx q 0x04 1 % 8

/-- PROD of ring `q`. -/
def Dev.prod (d : Dev) (q : Nat) : W32 := BitVec.ofNat 32 (d.ctx q 0x0C 4)

/-- CONS of ring `q`. -/
def Dev.cons (d : Dev) (q : Nat) : W32 := BitVec.ofNat 32 (d.ctx q 0x10 4)

/-- Occupancy of ring `q` (R266). -/
def Dev.occ (d : Dev) (q : Nat) : Nat := (d.prod q - d.cons q).toNat

/-- LOG2 of ring `q`. -/
def Dev.log2 (d : Dev) (q : Nat) : Nat := d.ctx q 0x05 1

/-- HBM byte address of the record of ring `q` at index `i` (R265). -/
def Dev.recAddr (d : Dev) (q : Nat) (i : W32) : Nat := d.ctx q 0 4 % 2 ^ 25 * 4096 + 64 * (i.toNat % 2 ^ d.log2 q)

/-- The generation of index `i` of ring `q` (R267). -/
def Dev.gen (d : Dev) (q : Nat) (i : W32) : Byte := BitVec.ofNat 8 (i.toNat / 2 ^ d.log2 q)

/-- The kind is host to device (R268). -/
def kindH2d (k : Nat) : Bool := k = 1 || k = 2 || k = 3

/-- The kind is device to host (R268). -/
def kindD2h (k : Nat) : Bool := k = 4 || k = 5

/-- Rings whose context lists a STATE byte: every ring that is not OFF is among them. -/
def Dev.boundRings (d : Dev) : List Nat := (d.mem.ctx.cells.filter fun p => p.1 % 32 = 0x0B).map fun p => p.1 / 32

/-- The host-to-device ring bound to scheduler slot `slot` of channel `c` (R141). -/
def Dev.ringOfSlot (d : Dev) (c : Fin 32) (slot : Nat) : Option Nat :=
  d.boundRings.find? fun q =>
    d.ringState q ≠ 0 && kindH2d (d.ringKind q) && d.ctx q 0x08 1 % 64 = c.val && d.ctx q 0x06 2 = slot

/-- The LIVE STREAM ring of channel `c` that feeds descriptor index `idx` (R283). -/
def Dev.streamRing (d : Dev) (c : Fin 32) (idx : Nat) : Option Nat :=
  d.boundRings.find? fun q =>
    d.ringState q = 1 && d.ringKind q = 3 && d.ctx q 0x08 1 % 64 = c.val && d.ctx q 0x16 2 = idx

/-- Index of the stale record of ring `q` (R279). -/
def Dev.staleOf (d : Dev) (q : Nat) : Option W32 := (d.rings.stale.find? fun p => p.1 = q).map (·.2)

/-- The ready count of ring `q` (R280). -/
def Dev.ready (d : Dev) (q : Nat) : Nat :=
  match d.ringState q, d.staleOf q with
  | 1, _ => d.occ q
  | 2, some i => (i - d.cons q).toNat
  | _, _ => 0

/-- MSI-X latch of vector `v` set (R404). -/
def Dev.latchVector (d : Dev) (v : Nat) : Dev :=
  { d with msix := { d.msix with latch := if d.msix.latch.contains v then d.msix.latch else d.msix.latch ++ [v] } }

/-- The watermark interrupt of ring `q` after its occupancy went from `o` to its present value (R289). -/
def Dev.watermark (d : Dev) (q o : Nat) : Dev :=
  let vec := d.ctx q 0x14 2
  let wm := d.ctx q 0x18 4
  let n := d.occ q
  let crossed :=
    if kindH2d (d.ringKind q) then decide (wm < o) && decide (n ≤ wm)
    else decide (o < max wm 1) && decide (max wm 1 ≤ n)
  if d.ringState q = 1 && 0x8000 ≤ vec && crossed then d.latchVector (vec % 2048) else d

/-- `n` records of ring `q` consumed (R144, R145, R282, R357). -/
def Dev.consume (d : Dev) (q n : Nat) : Dev :=
  let o := d.occ q
  let d := d.abandonAt .context (32 * q)
  (d.setCtx q 0x10 4 ((d.cons q).toNat + n)).watermark q o

/-- The copy of the head record of ring `q` in the record buffer of channel `c` (R281). -/
def Dev.headCopy (d : Dev) (c : Fin 32) (q : Nat) : Option RecCopy :=
  (d.ch c).recs.find? fun r => r.q = q && r.index = d.cons q

/-- Copies below the consumer index of ring `q` dropped from the record buffer. -/
def Dev.dropConsumed (d : Dev) (c : Fin 32) (q : Nat) : Dev :=
  let i := d.cons q
  d.modCh c fun x => { x with recs := x.recs.filter fun r => r.q ≠ q || (r.index - i).toNat < 2 ^ 31 }

/-- Slot `slot` named by an instruction of channel `c`: it becomes the most recently named of at most 16 active slots
(R281). -/
def Chan.nameSlot (x : Chan) (slot : Nat) : Chan :=
  { x with active := (slot :: x.active.filter (· ≠ slot)).take 16 }

/-- Slot `slot` with a ring newly bound: active, if fewer than 16 slots are; no instruction has named it (R281). -/
def Chan.boundSlot (x : Chan) (slot : Nat) : Chan :=
  if x.active.contains slot || 16 ≤ x.active.length then x else { x with active := x.active ++ [slot] }

/-- Slot `slot` named: the copies of a slot thereby deactivated leave the record buffer (R281, DEDUCED, log entry 32). -/
def Dev.nameSlot (d : Dev) (c : Fin 32) (slot : Nat) : Dev :=
  let x := d.ch c
  let y := x.nameSlot slot
  let off := (x.active.filter fun j => !y.active.contains j).filterMap (d.ringOfSlot c)
  d.setCh c { y with recs := y.recs.filter fun r => !off.contains r.q }

/-- Caravan reaches the context of ring `q` (R354, R357): an uncorrectable one is recorded in CARAVAN.SRAM_ERR. -/
def Dev.ctxError (d : Dev) (q : Nat) : Dev :=
  let d := d.abandonAt .context (32 * q)
  if !d.ctxBad q then d
  else
    let d := d.countSat F.CARAVAN_SRAM_ERR_COUNT
    if d.flag F.CARAVAN_SRAM_ERR_VALID then d
    else (d.set F.CARAVAN_SRAM_ERR_Q q).set F.CARAVAN_SRAM_ERR_VALID 1

/-- An error captured in CARAVAN.ERR while VALID reads 0, with its interrupt cause (R274, R275). -/
def Dev.ringErr (d : Dev) (q cause : Nat) (irq : Fld) : Dev :=
  let d := d.set irq 1
  if d.flag F.CARAVAN_ERR_VALID then d
  else ((d.set F.CARAVAN_ERR_Q q).set F.CARAVAN_ERR_CAUSE cause).set F.CARAVAN_ERR_VALID 1

end Sys2Proof.Machine
end

