-- ==== Sys2Proof/Machine/Fetching.lean ====
section
/-! DEFINITION. Descriptors, checks, hints, heads and stage buffers (R157 to R179, R283, R284). -/

namespace Sys2Proof.Machine

/-- V of a descriptor (R157). -/
def Desc.valid (x : Desc) : Bool := x.w0.getLsbD 0

/-- FMT: 0 S16, 1 IQ16, 2 E8, 3 M4. -/
def Desc.fmt (x : Desc) : Nat := bits x.w0 2 1

/-- LOC: the segment is streamed from HBM. -/
def Desc.streamed (x : Desc) : Bool := x.w0.getLsbD 3

/-- MSRC: 0 the data, 1 the marker register, 2 a marker track. -/
def Desc.msrc (x : Desc) : Nat := bits x.w0 6 5

/-- M4_CODE. -/
def Desc.m4code (x : Desc) : Bool := x.w0.getLsbD 7

/-- Length in blocks, LEN_M1 + 1. -/
def Desc.len (x : Desc) : Nat := bits x.w0 31 8 + 1

/-- GAIN, signed Q1.15. -/
def Desc.gain (x : Desc) : Int := (x.w2.setWidth 16).toInt

/-- Byte address of the data. -/
def Desc.addr (x : Desc) : Nat := x.w1.toNat * 32

/-- Byte address of the marker track. -/
def Desc.track (x : Desc) : Nat := x.w3.toNat * 32

/-- The segment has a marker track. -/
def Desc.hasTrack (x : Desc) : Bool := x.msrc = 2

/-- Bytes of one block of a format (R4, R159). -/
def fmtBytes (fmt : Nat) : Nat :=
  match fmt with | 0 => 128 | 1 => 256 | 2 => 64 | _ => 32

/-- Bytes of a block's data. -/
def Desc.blockBytes (x : Desc) : Nat := fmtBytes x.fmt

/-- Bytes a block draws with its track. -/
def Desc.drawBytes (x : Desc) : Nat := x.blockBytes + if x.hasTrack then 32 else 0

/-- The ✓ fields of two descriptors agree (R157, R167, R172). -/
def Desc.same (x y : Desc) : Bool :=
  x.w0 ||| 0x10 = y.w0 ||| 0x10 && x.w1 = y.w1 && (x.w2.setWidth 16 : BitVec 16) = y.w2.setWidth 16 && x.w3 = y.w3

/-- A reserved encoding of a descriptor (R157, R161, R176 sub-cause 0b010). -/
def Desc.reserved (x : Desc) : Bool :=
  let okMsrc := match x.fmt with
    | 0 => x.msrc ≤ 2
    | 1 | 2 => x.msrc = 1 || x.msrc = 2
    | _ => x.msrc = 0
  !okMsrc || (x.m4code && x.fmt ≠ 3) || (x.fmt ≠ 2 && x.w2.setWidth 16 ≠ (0 : BitVec 16)) ||
  (x.w3 ≠ 0 && x.msrc ≠ 2) || x.w0.getLsbD 4 || bits x.w2 23 16 ≠ 0

/-- Usable capacity of waveform memory in bytes: 1 GiB for each mapped pseudo-channel (MEM.HEALTH.MAPPED). -/
def Dev.capacity (d : Dev) : Nat := if d.stage < 4 then 0 else d.get F.MEM_HEALTH_MAPPED * 0x40000000

/-- Two byte ranges overlap. -/
def overlap (a n b m : Nat) : Bool := n ≠ 0 && m ≠ 0 && a < b + m && b < a + n

/-- Enabled areas of the Oasis of cluster `k`: (base, size) of stage buffers and head areas (R164). -/
def Dev.areas (d : Dev) (k : Nat) : List (Nat × Nat) :=
  (List.range 4).flatMap fun j =>
    (if d.flag (F.CL_STAGE_CTRL_EN k j) then [(d.get (F.CL_STAGE_CTRL_BASE k j) * 0x40000, 0x40000)] else []) ++
    (if d.flag (F.CL_STAGE_CTRL_HEAD_EN k j) then [(d.get (F.CL_STAGE_CTRL_HEAD_BASE k j) * 0x10000, 0x10000)] else [])

/-- A range of the Oasis of cluster `k` touches an enabled area. -/
def Dev.inArea (d : Dev) (k off n : Nat) : Bool := (d.areas k).any fun p => overlap off n p.1 p.2

/-- Bytes of a segment's data. -/
def Desc.dataBytes (x : Desc) : Nat := x.len * x.blockBytes

/-- Bytes of a segment's track. -/
def Desc.trackBytes (x : Desc) : Nat := if x.hasTrack then x.len * 32 else 0

/-- The checks of R176 but 0b000: the lowest sub-cause that applies. -/
def Dev.segCheck (d : Dev) (c : Fin 32) (x : Desc) : Option Nat :=
  let cap := if x.streamed then d.capacity else 0x800000
  if !x.valid then some 1
  else if x.reserved then some 2
  else if cap < x.addr + x.dataBytes || (x.hasTrack && cap < x.track + x.trackBytes) then some 3
  else if x.streamed && !d.flag (F.CL_STAGE_CTRL_EN (clu c) (sub c)) then some 4
  else if !x.streamed && (d.inArea (clu c) x.addr x.dataBytes || d.inArea (clu c) x.track x.trackBytes) then some 5
  else none

/-- Blocks of a head (R171). -/
def Desc.headN (x : Desc) : Nat :=
  min x.len (match x.fmt, x.hasTrack with
    | 0, false => 32 | 0, true => 25 | 1, false => 16 | 1, true => 14 | 2, false => 64 | 2, true => 42 | _, _ => 128)

/-- The descriptor that head slot `i` of channel `c` records. -/
def Dev.headOf (d : Dev) (c : Fin 32) (i : Nat) : Option Desc :=
  (d.heads.find? fun p => p.1 = 16 * c.val + i).map (·.2)

/-- Target entry `i` of channel `c` names index `idx` and is enabled (R172). -/
def Dev.entryNamed (d : Dev) (c : Fin 32) (idx : Nat) (i : Nat) : Bool :=
  d.flag (F.CL_TGT_CFG_EN (clu c) (sub c) i) && d.get (F.CL_TGT_CFG_INDEX (clu c) (sub c) i) = idx

/-- The head a streamed play of table index `idx` with descriptor `x` uses: the lowest entry that qualifies (R172). -/
def Dev.headFor (d : Dev) (c : Fin 32) (idx : Nat) (x : Desc) : Option (Fin 16) :=
  (List.finRange 16).find? fun i =>
    d.entryNamed c idx i && d.flag (F.CL_TGT_STAT_RESIDENT (clu c) (sub c) i) &&
    (match d.headOf c i with | some h => h.same x && h.streamed | none => false)

/-- The STREAM ring that feeds a streamed play of table index `idx` with descriptor `x` (R283). -/
def Dev.feeding (d : Dev) (c : Fin 32) (idx : Nat) (x : Desc) : Option Nat :=
  if x.streamed && x.fmt ≠ 3 && x.msrc ≠ 2 then d.streamRing c idx else none

/-- The descriptor as a hint (R167): none when its unit is uncorrectable (R354). -/
def Dev.hintAt (d : Dev) (k i : Nat) : Option Desc :=
  if d.mem.segtab.bad (segAt k (16 * i)) || d.mem.segtab.bad (segAt k (16 * i + 8)) then none else some (d.descAt k i)

/-- Both units of descriptor `i` read. -/
def Dev.touchDesc (d : Dev) (k i : Nat) : Dev := (d.touchSeg k (16 * i)).touchSeg k (16 * i + 8)

/-- The fetch entry of a play from its hint (R166, R167): it starts at block 0, or behind the blocks that a resident head
covers. A hint that names a pinned segment is kept for the comparison at dispatch. -/
def Dev.hintFetch (d : Dev) (c : Fin 32) (pid : Nat) (src : PlaySrc) (x : Desc) : List Fetch :=
  match src with
  | .record _ _ => if x.streamed then [⟨pid, x, none, 0, 0⟩] else []
  | .table idx =>
    match d.feeding c idx.toNat x with
    | some q => [⟨pid, x, some q, 0, 0⟩]
    | none =>
      let n := if (d.headFor c idx.toNat x).isSome then x.headN else 0
      [⟨pid, x, none, n, n⟩]

/-- The first `n` of the 32-byte places from `g` on, `fuel` of them at most, that `used` leaves free: how the stage buffer gives out
its places (DESIGN CHOICE, log entry 48). -/
def freeGrans (used : List Nat) : Nat → Nat → Nat → List Nat
  | 0, _, _ => []
  | fuel + 1, g, n =>
    if n = 0 then [] else if used.contains g then freeGrans used fuel (g + 1) n else g :: freeGrans used fuel (g + 1) (n - 1)

/-- Places of the stage buffer for a block of `n` bytes. -/
def Chan.grans (x : Chan) (n : Nat) : List Nat := freeGrans (x.stage.flatMap (·.grans)) 8192 0 (n / 32)

/-- Bytes held or requested in the stage buffer of a channel (R166, R169). -/
def Chan.stageUsed (x : Chan) : Nat := x.stage.foldl (fun n b => n + b.bytes) 0

/-- Bytes arrived and not yet committed, CL.STAGE_STAT_j.FILL (R169). -/
def Chan.stageFill (x : Chan) : Nat := x.stage.foldl (fun n b => n + if b.arrived then b.bytes else 0) 0

/-- A streamed play of the channel is queued or running (R169). -/
def Chan.streaming (x : Chan) : Bool :=
  x.fetches.any (·.d.streamed) || (match x.cur.kind with | .seg p => p.d.streamed | _ => false)

/-- The panic signal of channel `c` re-evaluated (R169): each entry into panic sets LOW. -/
def Dev.panicCheck (d : Dev) (c : Fin 32) : Dev :=
  let x := d.ch c
  let thr := min (d.get (F.CL_STAGE_CTRL_PANIC (clu c) (sub c))) 64 * 4096
  let now := decide (x.stageFill < thr) && x.streaming
  let d' := d.setCh c { x with panic := now }
  if now && !x.panic then d'.clCause c (F.CL_CH_IRQ_STATUS_LOW (clu c) (sub c)) else d'

/-- A play placed at SC (R75, R122, R123, R167): its action, the advance of SC by `blocks` blocks, its hint. A streamed play on
an empty stage buffer may raise panic (R169). -/
def Dev.placePlay (d : Dev) (c : Fin 32) (src : PlaySrc) (blocks : Nat) (hint : Option Desc) : Dev :=
  let x := d.ch c
  let bt := d.blockTicks c
  let f := match hint with | some h => d.hintFetch c x.nextPid src h | none => []
  (d.setCh c { x with
    queue := x.queue ++ [⟨x.sc, .play src x.nextPid⟩], sc := x.sc + tk (blocks * bt), nextPid := x.nextPid + 1
    fetches := x.fetches ++ f }).panicCheck c

end Sys2Proof.Machine
end

