-- ==== Sys2Proof/Machine/Fabric.lean ====
section
/-! DEFINITION. The memory fabric: the hashing map, reads and writes of waveform memory in 64-byte units, their counts,
errors and poison (R318 to R325, R344), and wakes of clusters and stacks (R432). -/

namespace Sys2Proof.Machine

/-! ### Clocks of blocks -/

/-- Domain `n` of R26 runs (CLK.RUN). -/
def Dev.runs (d : Dev) (n : Nat) : Bool := d.rd (R.CLK_RUN ((n - 1) / 32)) |>.getLsbD ((n - 1) % 32)

/-- Domain `n` of R26 runs or stops; a wake cancels a gate handshake (R379). -/
def Dev.setRuns (d : Dev) (n : Nat) (on : Bool) : Dev :=
  { (d.set ⟨R.CLK_RUN ((n - 1) / 32), (n - 1) % 32, 1⟩ (bit on)) with
    clk := { d.clk with gates := d.clk.gates.filter (·.1 ≠ n) } }

/-- PCIE_LINK_LOSS (R401): configuration space returns to its reset values; BAR0 registers stay, play goes on. -/
def Dev.pcieLinkLoss (d : Dev) : Dev :=
  { d with board := { d.board with msixOn := false, funcMask := false, d0 := true, barLog2 := 37 } }

/-- The PCIe link is up: from Stage B on, its PLL locked (R374, R385). -/
def Dev.linkUp (d : Dev) : Bool := 2 ≤ d.stage && d.flag F.CLK_PLL_STATUS_PCIE_LOCK

/-- The host reaches the BARs: the PCIe link is up in power state D0 (R401). -/
def Dev.hostReach (d : Dev) : Bool := d.linkUp && d.board.d0

/-- The host reaches `n` bytes of BAR4 from offset `a` on, at the size that it has (R400). -/
def Dev.bar4Reach (d : Dev) (a n : Nat) : Bool := d.hostReach && a + n ≤ 2 ^ d.board.barLog2

/-- The thermal TRIP is latched: every Demand and Service domain stands, the stacks in self-refresh (R438). -/
def Dev.tripped (d : Dev) : Bool := d.get F.TELEM_THERM_LEVEL = 3

/-- The clock of cluster `k` restarted by an access to the cluster (R25, R432); none after a TRIP (R438). -/
def Dev.wakeCluster (d : Dev) (k : Nat) : Dev := if 3 ≤ d.stage && !d.tripped then d.setRuns (7 + k) true else d

/-- Engine `e` of Sirocco runs: 0 to 7 of a cluster while it is enabled, 8 of the device (R356). -/
def Dev.engineRuns (d : Dev) (e : Nat) : Bool := if e < 8 then 3 ≤ d.stage && d.flag (F.CL_SIR_CTRL_EN e) else 2 ≤ d.stage

/-- Caravan woken, and its work noted (R432, R433); it stands after a TRIP (R438). -/
def Dev.wakeCaravan (d : Dev) : Dev :=
  if 2 ≤ d.stage && !d.tripped then { (d.setRuns 6 true) with rings := { d.rings with workAt := d.ev.elapsed } } else d

/-! ### The map -/

/-- State of pseudo-channel `p`: 0 GOOD, 1 DEGRADED, 2 FENCED, 3 RETIRED (R317). -/
def Dev.pcState (d : Dev) (p : Nat) : Nat := d.get (F.MEM_PC_STAT_STATE p)

/-- Stack `s` has a mapped pseudo-channel. -/
def Dev.stackMapped (d : Dev) (s : Nat) : Bool := (List.range 32).any fun i => d.pcState (32 * s + i) ≠ 3

/-- Stack `s` is active, its domains running. -/
def Dev.stackUp (d : Dev) (s : Nat) : Dev := ((d.set (F.HBM_STATUS_POWER s) 2).setRuns (23 + s) true).setRuns (27 + s) true

/-- Stack `s` woken from self-refresh by a request (R333, R432); one with no mapped pseudo-channel is never woken (R342), and none
after a TRIP (R438). -/
def Dev.wakeStack (d : Dev) (s : Nat) : Dev :=
  if d.get (F.HBM_STATUS_POWER s) = 1 && d.stackMapped s && !d.tripped then d.stackUp s else d

/-- The mapped pseudo-channels in ascending order (R318). -/
def Dev.mapped (d : Dev) : List Nat := (List.range 128).filter fun p => d.pcState p ≠ 3

/-- Pseudo-channel and granule row of a byte address (R318). -/
def mapAddr (list : List Nat) (a : Nat) : Nat × Nat :=
  let g := a / 256
  let m := list.length
  let x := g % m
  let r := g / m
  let h := (r &&& 0x7F) ^^^ (r / 128 &&& 0x7F) ^^^ (r / 16384 &&& 0xFF)
  (list.getD ((x + h) % m) 0, r)

/-- Offset within its pseudo-channel of a byte address with granule row `r` (R318). -/
def mapOffset (r a : Nat) : Nat := r * 256 + a % 256

/-- Pseudo-channel of a byte address. -/
def Dev.pcOf (d : Dev) (a : Nat) : Nat := (mapAddr d.mapped a).1

/-- The unit at `u` lies on a FENCED pseudo-channel. -/
def Dev.fencedAt (d : Dev) (u : Nat) : Bool := d.pcState (d.pcOf u) = 2

/-- Every pseudo-channel is held by a rate change (R335). -/
def Dev.memHeld (d : Dev) : Bool := d.hbm.newRate.isSome

/-- The pseudo-channel that the slice in progress holds (R340). -/
def Hbm.sliced (h : Hbm) : Option Nat := if h.slice.isSome then h.training.map (·.2) else none

/-- Requests to `n` bytes from `a` on wait: behind a rate change, a TRIP, or a slice of a pseudo-channel that holds one of them
(R335, R340, R438). -/
def Dev.heldAt (d : Dev) (a n : Nat) : Bool :=
  d.memHeld || d.tripped || match d.hbm.sliced with
    | some p => (unitsOf 256 a n).any fun u => d.pcOf u = p
    | none => false

/-- Requests to some of the ranges wait. -/
def Dev.rangesHeld (d : Dev) (rs : List (Nat × Nat)) : Bool := rs.any fun r => d.heldAt r.1 r.2

/-- The stacks of `n` bytes from `a` on woken by requests that come for them (R333, R432). -/
def Dev.rouse (d : Dev) (a n : Nat) : Dev := (unitsOf 256 a n).foldl (fun (d : Dev) u => d.wakeStack (d.pcOf u / 32)) d

/-! ### One unit -/

/-- A request for `n` bytes of the unit at `u` reaches its controller: the stack wakes, the page opens, the counts run
(R319, R333, HBM.CTL_CNT, HBM.PC_CNT with `m` 0 read and 1 written). -/
def Dev.request (d : Dev) (u n m : Nat) : Dev :=
  let (p, r) := mapAddr d.mapped u
  let s := p / 32
  let d := d.wakeStack s
  let bank := 32 * p + r / 4 % 32
  let row := r / 128
  let hit := d.hbm.pages.contains (bank, row)
  let d := { d with hbm := { d.hbm with pages := (bank, row) :: d.hbm.pages.filter (·.1 ≠ bank),
                                        lastReq := d.hbm.lastReq.setIfInBounds s d.ev.elapsed } }
  (d.count64 (R.HBM_CTL_CNT s (bit !hit) 0) 1).count64 (R.HBM_PC_CNT s (p % 32) m 0) n

/-- An address captured in MEM.ECC_ADDR (`m` 0) or MEM.ERR_ADDR (1) while its VALID reads 0; source `src` (R320, R324). -/
def Dev.memCapture (d : Dev) (m a src : Nat) : Dev :=
  if (d.rd (R.MEM_ADDR m 1)).getLsbD 31 then d
  else (d.wr (R.MEM_ADDR m 0) (BitVec.ofNat 32 a)).wr (R.MEM_ADDR m 1)
    (BitVec.ofNat 32 (a / 2 ^ 32 % 32 + src * 2 ^ 28 + 2 ^ 31))

/-- One unit read by source `src`, for `n` of its bytes (R324, R344). -/
def Dev.readUnit (d : Dev) (src u n : Nat) : Dev :=
  if d.fencedAt u then d
  else
    let d := d.request u n 0
    if d.mem.hbm.ue.contains u then
      let d := { d with mem := { d.mem with hbm := d.mem.hbm.markPoison u } }
      ((d.countSat (F.MEM_ECC_COUNT 1)).set F.MEM_IRQ_STATUS_UE 1).memCapture 0 u src
    else if !d.mem.hbm.poison.contains u && d.mem.hbm.ce.contains u then d.countSat (F.MEM_ECC_COUNT 0)
    else d

/-- A unit reads with a poison mark (R324, R344). -/
def Dev.poisoned (d : Dev) (u : Nat) : Bool := d.fencedAt u || d.mem.hbm.bad u

/-- Bytes of the range of `n` bytes at `a` that the 64-byte unit at `u` holds. -/
def inUnit (a n u : Nat) : Nat := min (a + n) (u + 64) - max a u

/-! ### Ranges -/

/-- `n` bytes at `a` read by source `src`: every unit in turn (R321). -/
def Dev.hbmRead (d : Dev) (src a n : Nat) : Dev :=
  (unitsOf 64 a n).foldl (fun d u => d.readUnit src u (inUnit a n u)) d

/-- The pseudo-channel of the first poisoned unit of a range. -/
def Dev.firstPoison (d : Dev) (a n : Nat) : Option Nat := ((unitsOf 64 a n).find? d.poisoned).map d.pcOf

/-- The bytes of a range as a poison-aware reader sees them: 0xFF in every dword of a poisoned unit (R325). -/
def Dev.hbmSeen (d : Dev) (a n : Nat) : List Byte :=
  (List.range n).map fun i => if d.poisoned ((a + i) / 64 * 64) then 0xFF else d.mem.hbm.byte (a + i)

/-- The part of a write that falls in the unit at `u`. -/
def partOf (a : Nat) (bs : List Byte) (u : Nat) : List Byte :=
  (bs.drop (max a u - a)).take (inUnit a bs.length u)

/-- One unit written: refused on a FENCED pseudo-channel, else whole, or merged into a unit without poison (R321, R324,
R344). The flags are those of a host write. -/
def Dev.writeUnit (d : Dev) (a : Nat) (bs : List Byte) (u : Nat) : Dev :=
  let part := partOf a bs u
  if d.fencedAt u then d.set F.MEM_IRQ_STATUS_FENCED_WR 1
  else
    let d := if part.length < 64 then d.readUnit 3 u 0 else d
    let d := d.request u part.length 1
    if part.length < 64 && d.mem.hbm.poison.contains u then d.set F.MEM_IRQ_STATUS_POISON_RMW 1
    else { d with mem := { d.mem with hbm := d.mem.hbm.writeUnits 64 (max a u) part } }

/-- Bytes written by the host, unit by unit. -/
def Dev.hbmWrite (d : Dev) (a : Nat) (bs : List Byte) : Dev :=
  (unitsOf 64 a bs.length).foldl (fun d u => d.writeUnit a bs u) d

/-- BAR4 writes received that are whole in HBM. -/
def Hbm.landed (h : Hbm) : Nat := h.received - h.posted.length

/-- The BAR4 writes among the first `n` received made whole in HBM, oldest first (R24, R276, R323). -/
def Dev.land (d : Dev) (n : Nat) : Dev :=
  let k := n - d.hbm.landed
  let e := (d.hbm.posted.take k).foldl (fun (e : Dev) w => e.hbmWrite w.1 w.2) d
  { e with hbm := { e.hbm with posted := d.hbm.posted.drop k } }

/-- A BAR4 write among the first `n` received cannot land yet: its requests wait (R323, R335, R340). -/
def Dev.writesHeld (d : Dev) (n : Nat) : Bool := (d.hbm.posted.take (n - d.hbm.landed)).any fun w => d.heldAt w.1 w.2.length

/-- A snapshot whose units have not copied keeps the Demand domains of its units awake (R66). -/
def Dev.snapWaits (d : Dev) : Bool := match d.snap with | some s => !s.copied | none => false

end Sys2Proof.Machine
end

