-- ==== Sys2Proof/Machine/Commits.lean ====
section
/-! DEFINITION. Commits of blocks, dispatch of timed actions, and the faults that the sequencer and the output meet in one tick
(R78, R98, R99, R153 to R180). -/

namespace Sys2Proof.Machine

/-- The first block of a run, with first tick `s`, ends what faults of runs before it still hold there. -/
def Chan.cutHolds (x : Chan) (s : Tick) : Chan :=
  if x.committed then x else { x with holds := (x.holds.filter fun h => before h.1 s).map fun h => (h.1, tmin h.2 s) }

/-- A committed block put behind the others; the next boundary lies one block later (R153, R154). The commit fixes the fields that
wait for this boundary: the first SC of a run and the first tick of an action are segment boundaries (R50, R203). -/
def Dev.pushBlock (d : Dev) (c : Fin 32) (s : Tick) (start stop : Tick) (k : BlkKind) : Dev :=
  let bt := d.blockTicks c
  let d := d.fixFields c s ((k ≠ .rest && start = s) || s = (d.ch c).firstSc)
  d.modCh c fun x => { x.cutHolds s with blks := x.blks ++ [⟨s, start, stop, k⟩], nextS := some (s + tk bt), committed := true }

/-- Records of a STREAM ring that a block of a format takes (R284). -/
def ringRecords (fmt : Nat) : Nat :=
  match fmt with | 0 => 2 | 1 => 4 | _ => 1

/-! ### Where a block lies in Oasis -/

/-- Oasis offset of head slot `i` of channel `c` (R163). -/
def Dev.slotBase (d : Dev) (c : Fin 32) (i : Nat) : Nat := d.get (F.CL_STAGE_CTRL_HEAD_BASE (clu c) (sub c)) * 0x10000 + i * 4096

/-- Oasis offset of 32-byte place `g` of the stage buffer of channel `c` (R163). -/
def Dev.granBase (d : Dev) (c : Fin 32) (g : Nat) : Nat := d.get (F.CL_STAGE_CTRL_BASE (clu c) (sub c)) * 0x40000 + 32 * g

/-- The 64-byte words of Oasis that a list of ranges touches, each once (R348). -/
def wordsOf (rs : List (Nat × Nat)) : List Nat := (rs.flatMap fun r => unitsOf 64 r.1 r.2).eraseDups

/-- Bytes of a list of ranges of the Oasis of cluster `k`. -/
def Dev.oasisBytes (d : Dev) (k : Nat) (rs : List (Nat × Nat)) : List Byte := rs.flatMap fun r => d.mem.oasis.bytes (oasisAt k r.1) r.2

/-- The words of a list of ranges read (R353). -/
def Dev.touchWords (d : Dev) (k : Nat) (rs : List (Nat × Nat)) : Dev := (wordsOf rs).foldl (fun (d : Dev) w => d.touchOasis k w) d

/-- Bytes written to the Oasis of cluster `k`, in whole and partial words (R353, R357). -/
def Dev.oasisPut (d : Dev) (k off : Nat) (bs : List Byte) : Dev :=
  let d := d.abandonOver .oasis (oasisAt k off) bs.length
  { d with mem := { d.mem with oasis := d.mem.oasis.writeUnits 64 (oasisAt k off) bs } }

/-- The first word of a list of ranges that is uncorrectable or poisoned. -/
def Dev.badWord (d : Dev) (k : Nat) (rs : List (Nat × Nat)) : Option Nat := (wordsOf rs).find? fun w => d.mem.oasis.bad (oasisAt k w)

/-- The arrived block `i` of play `p` in the stage buffer. -/
def Chan.staged (x : Chan) (p : SegPlay) (i : Nat) : Option StageBlk := x.stage.find? fun b => b.pid = p.pid && b.idx = i && b.arrived

/-- The block comes from the head slot that the play uses (R172). -/
def SegPlay.inHead (p : SegPlay) (i : Nat) : Option (Fin 16) := p.head.filter fun _ => i < p.d.headN

/-- Where block `i` of play `p` lies in Oasis: data, then track (R162, R163, R172; within a head slot and a stage buffer as log
entry 48 has it). None for a block that is not whole there. -/
def Dev.blockRanges (d : Dev) (c : Fin 32) (p : SegPlay) (i : Nat) : Option (List (Nat × Nat) × List (Nat × Nat)) :=
  let n := p.d.blockBytes
  let trk (o : Nat) : List (Nat × Nat) := if p.d.hasTrack then [(o, 32)] else []
  if !p.d.streamed then some ([(p.d.addr + i * n, n)], trk (p.d.track + i * 32))
  else match p.inHead i with
    | some h =>
      let o := d.slotBase c h + i * p.d.drawBytes
      some ([(o, n)], trk (o + n))
    | none =>
      ((d.ch c).staged p i).map fun b =>
        ((b.grans.take (n / 32)).map fun g => (d.granBase c g, 32), (b.grans.drop (n / 32)).map fun g => (d.granBase c g, 32))

/-! ### Commits -/

/-- The fault that the commit of block `i` of play `p` meets: UNDERRUN, POISON of HBM data, POISON of an Oasis word (R178, R179).
A late block of a ring-fed play is one whose records came too late, whatever entry the play names (R284, R291; DESIGN CHOICE, log
entry 47). -/
def Dev.commitFault (d : Dev) (c : Fin 32) (p : SegPlay) (i : Nat) : Option (Nat × Nat × Nat) :=
  match d.blockRanges c p i with
  | none => some (3, if p.cold && p.ring.isNone && i < p.d.headN then 2 else 1, p.arg.toNat)
  | some r =>
    match if p.d.streamed && (p.inHead i).isNone then ((d.ch c).staged p i).bind (·.poison) else none with
    | some pc => some (5, 0, pc)
    | none => (d.badWord (clu c) (r.1 ++ r.2)).map fun w => (5, 1, w)

/-- A block of the stage buffer committed: its places are free, and the records behind it consumed (R166, R284). -/
def Dev.leaveStage (d : Dev) (c : Fin 32) (p : SegPlay) (i : Nat) : Dev :=
  let d := d.modCh c fun x => { x with stage := x.stage.filter fun y => !(y.pid = p.pid && y.idx = i) }
  match p.ring with
  | some q => d.consume q (ringRecords p.d.fmt)
  | none => d

/-- Block `i` of play `p` at its commit: read from Oasis, or a fault there (R162, R163, R172, R178, R179, R353). -/
def Dev.commitSeg (d : Dev) (c : Fin 32) (p : SegPlay) (i : Nat) (s start stop : Tick) : Dev :=
  let r := (d.blockRanges c p i).getD ([], [])
  let e := d.touchWords (clu c) (r.1 ++ r.2)
  match d.commitFault c p i with
  | some (cause, sub, arg) => e.outFault c cause sub arg s
  | none =>
    let f := e.pushBlock c s start stop (.seg p.d (e.oasisBytes (clu c) r.1) (e.oasisBytes (clu c) r.2))
    if p.d.streamed && (p.inHead i).isNone then f.leaveStage c p i else f

/-- The fetch entry of an ended play removed. -/
def Dev.endFetch (d : Dev) (c : Fin 32) (pid : Nat) : Dev :=
  d.modCh c fun x => { x with fetches := x.fetches.filter (·.pid ≠ pid), stage := x.stage.filter (·.pid ≠ pid) }

/-- The ring-fed plays placed behind play `pid` are fetched again, from CONS onward, when records move (R283, R284). -/
def Chan.restream (x : Chan) (pid : Nat) : Chan :=
  let moved (g : Fetch) : Bool := g.ring.isSome && decide (pid < g.pid)
  { x with
    stage := x.stage.filter fun b => !x.fetches.any fun g => moved g && g.pid = b.pid
    fetches := x.fetches.map fun g => if moved g then { g with next := g.start } else g }

/-- The play in progress ends where the next action begins: its blocks still in the stage buffer are dropped, and
consume nothing (R123, R284). -/
def Dev.cutPlay (d : Dev) (c : Fin 32) : Dev :=
  match (d.ch c).cur.kind with
  | .seg p =>
    (d.modCh c fun x =>
      if p.ring.isSome && x.stage.any (·.pid = p.pid) then x.restream p.pid else x).endFetch c p.pid
  | _ => d

/-- The block with first tick `s` committed, of the play in progress or of rest (R76, R154). -/
def Dev.commitBlock (d : Dev) (c : Fin 32) (s : Tick) : Dev :=
  let x := d.ch c
  let rest (d : Dev) : Dev :=
    (d.modCh c fun x => { x with cur := ⟨.rest, s, s⟩ }).pushBlock c s s s .rest
  let span (k : BlkKind) : Dev :=
    if before s x.cur.stop then d.pushBlock c s x.cur.first x.cur.stop k else rest d
  match x.cur.kind with
  | .rest => rest d
  | .osc => span .osc
  | .hold => span .hold
  | .park => span .park
  | .seg p =>
    let i := (s - x.cur.first).toNat / d.blockTicks c
    if i < p.d.len then
      d.commitSeg c p i s x.cur.first x.cur.stop
    else rest (d.endFetch c p.pid)

/-- PLAYN, HOLD or PARK dispatched (R124 to R126, R154). -/
def Dev.startSpan (d : Dev) (c : Fin 32) (t : Tick) (n : W32) (k : CurKind) : Dev :=
  ((d.cutPlay c).modCh c fun x => { x with cur := ⟨k, t, t + n.setWidth 64⟩ }).commitBlock c t

/-! ### Dispatch -/

/-- A play that names an enabled entry and cannot use a head (R172): HEAD_MISS. -/
def Dev.headMiss (d : Dev) (c : Fin 32) : Dev :=
  (d.countSat (F.CL_CH_COUNT_HEAD_MISS (clu c) (sub c))).clCause c (F.CL_CH_IRQ_STATUS_HEAD_MISS (clu c) (sub c))

/-- A hint that differs from the dispatch-time descriptor (R167): HINT_MISS. -/
def Dev.hintMiss (d : Dev) (c : Fin 32) : Dev :=
  (d.countSat (F.CL_CH_COUNT_HINT_MISS (clu c) (sub c))).clCause c (F.CL_CH_IRQ_STATUS_HINT_MISS (clu c) (sub c))

/-- A hint that differs from the descriptor of the dispatch, of a play that either reads as streamed (R167). -/
def Dev.noteHint (d : Dev) (c : Fin 32) (pid : Nat) (x : Desc) : Dev :=
  match (d.ch c).fetches.find? (·.pid = pid) with
  | some f => if !f.d.same x && (f.d.streamed || x.streamed) then d.hintMiss c else d
  | none => d

/-- A fetch entry put in its place among those of the other plays (R166). -/
def insertFetch (f : Fetch) (fs : List Fetch) : List Fetch :=
  fs.filter (·.pid < f.pid) ++ f :: fs.filter fun g => f.pid < g.pid

/-- The fetch entry of play `pid` brought in line with its dispatch (R167, R172): blocks fetched from another
descriptor, ring or start are discarded and the fetch begins again. -/
def Dev.alignFetch (d : Dev) (c : Fin 32) (pid : Nat) (x : Desc) (ring : Option Nat) (start : Nat) : Dev :=
  let fresh : Fetch := ⟨pid, x, ring, start, start⟩
  match (d.ch c).fetches.find? (·.pid = pid) with
  | none => if x.streamed then d.modCh c fun y => { y with fetches := insertFetch fresh y.fetches } else d
  | some f =>
    if !x.streamed then
      d.modCh c fun y => { y with stage := y.stage.filter (·.pid ≠ pid), fetches := y.fetches.filter (·.pid ≠ pid) }
    else if !f.d.same x || f.ring ≠ ring || start < f.start then
      d.modCh c fun y =>
        let y := if f.ring.isSome || ring.isSome then y.restream pid else y
        { y with stage := y.stage.filter (·.pid ≠ pid), fetches := insertFetch fresh y.fetches }
    else d.modCh c fun y => { y with
      stage := y.stage.filter fun b => !(b.pid = pid && b.idx < start)
      fetches := y.fetches.map fun g => if g.pid = pid then { g with start := start, next := max g.next start } else g }

/-- Caravan reaches the contexts of the STREAM rings that a streamed play of index `i` names (R354, R357): an uncorrectable one is
recorded, and feeds nothing. -/
def Dev.probeStream (d : Dev) (c : Fin 32) (x : Desc) : Option Nat → Dev
  | some i =>
    if x.streamed && x.fmt ≠ 3 && x.msrc ≠ 2 then
      (d.boundRings.filter fun q => d.ringKind q = 3 && (d.ctxBad q || d.ringState q = 1) && d.ctx q 0x08 1 % 64 = c.val && d.ctx q 0x16 2 = i).foldl
        (fun (d : Dev) q => d.ctxError q) d
    else d
  | none => d

/-- A play whose descriptor is read begins at tick `t`, or faults SEG_INVALID there (R172, R176, R283). -/
def Dev.beginPlay (d : Dev) (c : Fin 32) (t : Tick) (pid : Nat) (x : Desc) (arg : W32) (tab : Option Nat) : Dev :=
  let d := d.probeStream c x tab
  match d.segCheck c x with
  | some sub => d.outFault c 4 sub arg.toNat t
  | none =>
    let ring := match tab with | some i => d.feeding c i x | none => none
    let head := match tab with | some i => if x.streamed && ring.isNone then d.headFor c i x else none | none => none
    let named := match tab with | some i => x.streamed && (List.range 16).any (d.entryNamed c i) | none => false
    let cold := named && head.isNone
    let d := if cold then d.headMiss c else d
    let d := (d.cutPlay c).alignFetch c pid x ring (if head.isSome then x.headN else 0)
    let p : SegPlay := ⟨x, arg, pid, head, cold, ring⟩
    (d.modCh c fun y => { y with cur := ⟨.seg p, t, t + tk (x.len * d.blockTicks c)⟩ }).commitBlock c t

/-- A play dispatched (R122, R123, R158, R176, R177, R354). -/
def Dev.startPlay (d : Dev) (c : Fin 32) (t : Tick) (src : PlaySrc) (pid : Nat) : Dev :=
  let k := clu c
  match src with
  | .record x slot => d.beginPlay c t pid x (BitVec.ofNat 32 (0x80000000 + slot.toNat)) none
  | .table idx =>
    let i := idx.toNat
    if 16384 ≤ i then d.outFault c 4 0 i t
    else
      let d := d.touchDesc k i
      if (d.hintAt k i).isNone then d.outFault c 5 3 i t
      else (d.noteHint c pid (d.descAt k i)).beginPlay c t pid (d.descAt k i) idx (some i)

/-- One timed action leaves the queue at the start of tick T − 31 and is committed (R78, R80, R154); a CALW too short, or
with no run due, leaves its ticks to the schedule (R236). -/
def Dev.dispatch (d : Dev) (c : Fin 32) : Dev :=
  let x := d.ch c
  match x.queue with
  | [] => d
  | a :: rest =>
    if notAfter (a.tick - 31) d.ev.dt then
      let d := d.setCh c { x with queue := rest }
      match a.act with
      | .play src pid => (d.startPlay c a.tick src pid).panicCheck c
      | .playn n => (d.startSpan c a.tick n .osc).panicCheck c
      | .hold n => (d.startSpan c a.tick n .hold).panicCheck c
      | .park n => (d.startSpan c a.tick n .park).panicCheck c
      | .calw n =>
        if n.toNat < 48000 then d.countSat (F.CH_CAL_CNT_HI c 1)
        else if d.flag (F.CH_CAL_STATUS_DUE c) then d.modCh c fun y => { y with dispatched := y.dispatched ++ [a] }
        else d
      | _ => d.modCh c fun y => { y with dispatched := y.dispatched ++ [a] }
    else d

/-- The next block boundary can be committed: its commit tick has begun, no play begins at it or before it, and the
output is not to be parked there (R154). The hold of an earlier fault is over before a new run's blocks. -/
def Dev.commitDue (d : Dev) (c : Fin 32) : Option Tick :=
  let x := d.ch c
  match x.nextS with
  | none => none
  | some s =>
    let ok := notAfter (s - 31) d.ev.dt
      && (match x.origins with | o :: _ => before s o | [] => true)
      && (match x.parkAt with | some p => before s p | none => true)
      && (x.active? || (match x.faultB with | some b => before s b | none => true))
    if ok then some s else none

/-- BLOCK_COMMIT: the next block boundary is committed when it is due (R154). -/
def Dev.blockCommit (d : Dev) (c : Fin 32) : Dev :=
  match d.commitDue c with
  | some s => (d.commitBlock c s).panicCheck c
  | none => d

/-! ### Faults of the sequencer -/

/-- What the output has to do in this tick: dispatch the oldest action, or commit the next block. -/
def Dev.outputStep (d : Dev) (c : Fin 32) : Dev :=
  match (d.ch c).queue with
  | a :: _ => if a.act.output && notAfter (a.tick - 31) d.ev.dt then d.dispatch c else d.blockCommit c
  | [] => d.blockCommit c

/-- What the output has to do in this tick ends in a fault. -/
def Dev.outputFaults (d : Dev) (c : Fin 32) : Bool := ((d.outputStep c).ch c).faultedIn d.ev.dt

/-- A fault of the sequencer, recorded with `pc`, at the first uncommitted boundary (R98); a fault of the output in the same tick
is decided with it (R99). -/
def Dev.seqFaultAt (d : Dev) (c : Fin 32) (cause sub arg pc : Nat) : Dev :=
  let b := (d.ch c).nextBoundary
  let e := if d.outputFaults c then (d.outputStep c).faultMore c cause sub arg pc b else d.faultAt c cause sub arg pc b
  e.modCh c fun x => { x with seqFault := true }

/-- A fault of the instruction the sequencer stands at. -/
def Dev.fault (d : Dev) (c : Fin 32) (cause sub arg : Nat) : Dev := d.seqFaultAt c cause sub arg (d.ch c).pc.toNat

/-- A fault of the sequencer in the tick in which the output has faulted (R99). -/
def Dev.faultAlso (d : Dev) (c : Fin 32) (cause sub arg : Nat) : Dev :=
  (d.faultMore c cause sub arg (d.ch c).pc.toNat (d.ch c).nextBoundary).modCh c fun x => { x with seqFault := true }

end Sys2Proof.Machine
end

