-- ==== Sys2Proof/Machine/LinkOps.lean ====
section
/-! DEFINITION. The Adold link: words, send queues, array events (R295 to R304). -/

namespace Sys2Proof.Machine

/-- LINK.STATUS.STATE: 0 OFF, 1 FORMING, 2 FORMED, 3 BROKEN. -/
def Dev.linkState (d : Dev) : Nat := d.get F.LINK_STATUS_STATE

/-- Devices of the array, N. -/
def Dev.arrayN (d : Dev) : Nat := d.get F.LINK_CFG_N_M1 + 1

/-- Position of this device. -/
def Dev.arrayPos (d : Dev) : Nat := d.get F.LINK_CFG_POS

/-- The port is in service. -/
def Dev.portUp (d : Dev) : Port → Bool
  | .e => d.flag F.LINK_STATUS_E_UP
  | .w => d.flag F.LINK_STATUS_W_UP

/-- Index of a port in register arrays: 0 E, 1 W. -/
def portIdx : Port → Nat
  | .e => 0
  | .w => 1

/-- The other port. -/
def portOther : Port → Port
  | .e => .w
  | .w => .e

/-- The state of a port. -/
def Link.port (l : Link) : Port → LinkPort
  | .e => l.e
  | .w => l.w

/-- The state of a port replaced. -/
def Link.setPort (l : Link) (p : Port) (x : LinkPort) : Link :=
  match p with
  | .e => { l with e := x }
  | .w => { l with w := x }

/-- The send queue of a port has no room (R301). -/
def Dev.sendFull (d : Dev) (p : Port) : Bool := 64 ≤ (d.link.port p).sendQ.length

/-- A queue with a word put behind every word of its rank or a lower one (R301). -/
def insertWord (w : QueuedWord) : List QueuedWord → List QueuedWord
  | [] => [w]
  | v :: vs => if w.word.rank < v.word.rank then w :: v :: vs else v :: insertWord w vs

/-- A dropped array event copy (R302, R315): EV_LOST. -/
def Dev.evLost (d : Dev) : Dev := (d.countSat F.LINK_EVCNT_EV_LOST).set F.LINK_IRQ_STATUS_EV_LOST 1

/-- The port carries words: its four lanes have locked, though it enters service only with scrambled cells (R297, R298). -/
def Dev.carries (d : Dev) (p : Port) : Bool := (d.link.port p).trained

/-- A word queued on a port. A word that finds the queue full or the port carrying none is dropped; an event word so dropped is
counted EV_LOST (R315). -/
def Dev.queueWord (d : Dev) (p : Port) (fwd : Bool) (w : LinkWord) : Dev :=
  if d.carries p && !d.sendFull p then
    let x := d.link.port p
    { d with link := d.link.setPort p { x with sendQ := insertWord ⟨w, d.ev.elapsed, fwd⟩ x.sendQ } }
  else if w.ty = 1 then d.evLost
  else d

/-- A word of this device queued on a port. -/
def Dev.sendWord (d : Dev) (p : Port) (w : LinkWord) : Dev := d.queueWord p false w

/-- BODY of an event word (R296). -/
def eventBody (code : BitVec 8) (t : Tick) (origin hops : Nat) : BitVec 54 :=
  BitVec.ofNat 54 (code.toNat + t.toNat % 2 ^ 24 * 2 ^ 8 + origin % 16 * 2 ^ 32 + hops % 16 * 2 ^ 36)

/-- BODY of a control word (R297). -/
def controlBody (ty : Nat) (content : W32) (origin hops : Nat) : BitVec 54 :=
  BitVec.ofNat 54 (content.toNat + origin % 16 * 2 ^ 32 + hops % 16 * 2 ^ 36 + ty % 64 * 2 ^ 48)

/-- A copy of an array event reaches this device in tick DT (R302). -/
def Dev.takeCopy (d : Dev) (p : Port) (code : BitVec 8) (t : Tick) : Dev :=
  let a := d.ev.dt
  let idx := BitVec.ofNat 16 (portIdx p)
  if notAfter a t then
    if d.link.hold.length < 1024 then { d with link := { d.link with hold := d.link.hold ++ [⟨code, t, p⟩] } }
    else d.evLost
  else if before a (t + 20) then
    ((d.emit code t 0 6 idx false a).countSat F.LINK_EVCNT_TARDY).set F.LINK_IRQ_STATUS_TARDY 1
  else
    ((d.emit code a 0 6 idx true a).count64 (R.EVT_CNT 2 0) 1).set F.EVT_IRQ_STATUS_LATE 1

/-- Hops of the copy sent on a port (R300). -/
def Dev.hopsOn (d : Dev) : Port → Nat
  | .e => d.arrayN / 2
  | .w => (d.arrayN - 1) / 2

/-- The copies of a word of this device sent both ways (R300): none where H is 0. -/
def Dev.sendBoth (d : Dev) (rank : Nat) (ty : BitVec 2) (stamped : Bool) (body : Nat → BitVec 54) : Dev :=
  let d := if d.hopsOn .e = 0 then d else d.sendWord .e ⟨rank, ty, body (d.hopsOn .e), stamped⟩
  if d.hopsOn .w = 0 then d else d.sendWord .w ⟨rank, ty, body (d.hopsOn .w), stamped⟩

/-- An array event of this device (R300, R304, R315): copies on both ports while the array is FORMED or BROKEN, and the
local copy, logged with index 0. -/
def Dev.arrayEvent (d : Dev) (code : BitVec 8) (t : Tick) : Dev :=
  let d := if 2 ≤ d.linkState then d.sendBoth 2 1 false fun h => eventBody code t d.arrayPos h else d
  d.takeCopy .e code t

end Sys2Proof.Machine
end

