-- ==== Sys2Proof/Machine/Issue.lean ====
section
/-! DEFINITION. How an instruction issues (R73 to R80, R91, R97 to R107): fetch errors, encodings, the waits, the
effect, the advance of the PC. The effects themselves stand in Effects.lean. -/

namespace Sys2Proof.Machine

/-- What an instruction's effect comes to: done, with the next PC; a wait, showing a STALL; a fault. -/
inductive Res
  | done (d : Dev) (pc : BitVec 16)
  | wait (d : Dev) (why : Stall)
  | fault (d : Dev) (cause sub arg : Nat)

/-- The effect of an instruction word on the device, for a channel. -/
abbrev Effect := Dev → Fin 32 → W64 → Res

/-- The instruction completed with its PC advanced by 1 (R105). -/
def Res.next (d : Dev) (c : Fin 32) : Res := .done d ((d.ch c).pc + 1)

/-- Run-ahead (R79): SC is more than 4,096 ticks after DT. -/
def Dev.aheadTooFar (d : Dev) (c : Fin 32) : Bool := !notAfter (d.ch c).sc (d.ev.dt + 4096)

/-- A word fetched at the channel's PC runs its effect, unless its fetch finds an uncorrectable program-store word
(R92), its opcode is undefined or an encoding reserved (R102, R107), or it has to wait (R79, R80). DESIGN CHOICE, unsafe (log
entry 46): a ring instruction that places an action shows RUNAHEAD or QUEUE_FULL before it looks at its ring. -/
def Dev.attempt (d : Dev) (c : Fin 32) (w : W64) (eff : Effect) : Res :=
  let x := d.ch c
  let d := d.touchProg c (8 * x.pc.toNat)
  if d.mem.prog.bad (progAt c (8 * x.pc.toNat)) then .fault d 5 2 x.pc.toNat
  else if x.st = .run && scheduling w (tickCount x w) && d.aheadTooFar c then .wait d .runahead
  else if places w (tickCount x w) && 64 ≤ x.queue.length then .wait d .queueFull
  else if !opDefined (opOf w) then .fault d 1 0 (bits w 63 32)
  else if !encOk w then .fault d 1 2 (bits w 63 32)
  else eff d c w

/-- State HALTED entered at an instruction boundary (R97): its interrupt cause is set and BREAK clears. -/
def Dev.halt (d : Dev) (c : Fin 32) : Dev :=
  let d := d.modCh c fun x => { x with st := .halted, breakReq := false }
  (d.set (F.CH_SEQ_CTRL_BREAK c) 0).set (F.CH_SEQ_IRQ_STATUS_BREAK c) 1

/-- A fetch from address 32,768 faults ILLEGAL 0b001 at the instruction that led to it (R91). -/
def Dev.fetchBeyond (d : Dev) (c : Fin 32) : Dev :=
  d.seqFaultAt c 1 1 0 (d.ch c).leadPc.toNat

/-- An instruction completes: the PC moves, ISSUED counts, a step or a waiting break ends, and a running sequencer
fetches next from the new PC (R91, R97, R105). -/
def Dev.complete (d : Dev) (c : Fin 32) (pc : BitVec 16) : Dev :=
  let x := d.ch c
  let d := d.count64 (R.CH_SEQ_CNT c 0 0) 1
  let d := d.setCh c { x with pc := pc, leadPc := x.pc.setWidth 15, held := none, stall := .none, ringWait := 0, stepping := false }
  let d := d.setIf x.stepping (F.CH_SEQ_CTRL_STEP c) 0
  if x.breakReq && x.st = .run then d.halt c
  else if x.st = .run && pc = 32768 then d.fetchBeyond c
  else d

/-- The outcome of an attempt carried into the state. A waiting instruction is held whole with its STALL. -/
def Dev.settleIssue (d : Dev) (c : Fin 32) (w : W64) : Res → Dev
  | .done e pc => e.complete c pc
  | .wait e why =>
    e.modCh c fun x =>
      { x with held := some w, stall := why, heldAt := if x.held.isSome && x.stall = why then x.heldAt else d.ev.dt }
  | .fault e cause sub arg => e.fault c cause sub arg

/-- The sequencer of channel `c` can issue a new instruction: RUN, nothing waiting, no STOP under way. -/
def Chan.canIssue (x : Chan) : Bool := x.st = .run && x.held.isNone && x.stopB.isNone

/-- The output has faulted in tick `t`, and the sequencer may still detect a fault of its own in it (R99). -/
def Chan.lateFault (x : Chan) (t : Tick) : Bool := x.faultedIn t && !x.seqFault

/-- What an attempt comes to in the tick in which the output has faulted: a fault is decided together with the output's, and
anything else has no effect (R98, R99). -/
def Dev.settleLate (d : Dev) (c : Fin 32) : Res → Dev
  | .fault e cause sub arg => (e.modCh c fun x => { x with st := .faulted }).faultAlso c cause sub arg
  | _ => d

/-- An instruction that issues in the tick in which the output has faulted. -/
def Dev.issueLate (d : Dev) (c : Fin 32) (w : W64) (eff : Effect) : Dev :=
  d.settleLate c ((d.modCh c fun x => { x with st := .run }).attempt c w eff)

/-- One instruction row: word `w` issues on channel `c` with its effect. It does nothing while the sequencer cannot
issue. -/
def Dev.issue (d : Dev) (c : Fin 32) (w : W64) (eff : Effect) : Dev :=
  if (d.ch c).canIssue then d.settleIssue c w (d.attempt c w eff)
  else if (d.ch c).lateFault d.ev.dt && (d.ch c).held.isNone then d.issueLate c w eff
  else d

/-- The instruction that waits with one of the given STALL kinds is tried again. -/
def Dev.retry (d : Dev) (c : Fin 32) (why : Stall) (eff : Effect) : Dev :=
  let x := d.ch c
  match x.held with
  | some w =>
    if x.stall ≠ why then d
    else if !x.quiet then d.settleIssue c w (d.attempt c w eff)
    else if x.lateFault d.ev.dt then d.issueLate c w eff
    else d
  | none => d

end Sys2Proof.Machine
end

