-- ==== Sys2Proof/Machine/Decisions.lean ====
section
/-! DEFINITION. Decision points (R83 to R87, R119, R120, R129, R130, R263): windows, resolution, cutoff. -/

namespace Sys2Proof.Machine

/-- The time by which an event mode orders events: the stamp in lockstep mode, the presentation in fast mode. -/
def StoreEv.key (e : StoreEv) (fast : Bool) : Tick := if fast then e.pres else e.stamp

/-- The word of register `a` with the held values whose tick boundary has come, whether or not their row has yet (R50). -/
def Dev.rdTick (d : Dev) (a : Nat) : W32 :=
  (d.pend.filter fun p => p.addr = a && p.ap = .tick && p.acc + 2 ≤ d.ev.elapsed).foldl
    (fun w p => (w &&& ~~~p.mask) ||| (p.val &&& p.mask)) (d.rd a)

/-- The crossbar passes a code to channel `c`: the mask in force at the start of the tick governs (R260, R263). -/
def Dev.passes (d : Dev) (c : Fin 32) (code : BitVec 8) : Bool :=
  (d.rdTick (R.CL_XBAR_MASK (clu c) (sub c) (code.toNat / 32))).getLsbD (code.toNat % 32)

/-- Cluster `k` slept in tick `a`: its clock stands, or ran again only after `a` (R432, R434). -/
def Dev.slept (d : Dev) (k : Fin 8) (a : Tick) : Bool :=
  d.get F.TELEM_PWR_CL_GATED / 2 ^ k.val % 2 = 1 &&
  (!d.runs (7 + k.val) || (match d.ev.wokeAt[k] with | some w => before a w | none => false))

/-- Cluster of a channel, as an index. -/
abbrev cluster (c : Fin 32) : Fin 8 := ⟨c.val / 4, by have := c.isLt; omega⟩

/-- Delay of a presentation that meets a sleeping cluster (R434). -/
def wakeDelay (asleep : Bool) : Tick := if asleep then 8 else 0

/-- The tick of the presentation of event `f` to channel `c`, and whether it woke the cluster (R259, R434). -/
def Dev.presentAt (d : Dev) (c : Fin 32) (f : FrameEv) : Tick × Bool :=
  if d.fast c then
    let z := d.passes c f.code && d.slept (cluster c) f.fastAt
    (f.fastAt + 1 + wakeDelay z, z)
  else
    let z := d.passes c f.code && d.slept (cluster c) (f.stamp + 23)
    (f.stamp + 24 + wakeDelay z, z)

/-- An event that the crossbar passes to channel `c` has to be presented in this tick and has not been. A decision point sees the
events presented in the tick in which it resolves, so it resolves behind them (R84, R86, R263). -/
def Dev.presentsDue (d : Dev) (c : Fin 32) : Bool :=
  d.ev.frames.any fun f => !f.presented.getLsbD c && d.passes c f.code && notAfter (d.presentAt c f).1 d.ev.dt

/-- The events after the cutoff and up to `hi` (R84, R86). -/
def Chan.window (x : Chan) (fast : Bool) (hi : Tick) : List StoreEv :=
  x.store.filter fun e => before x.cutoff (e.key fast) && notAfter (e.key fast) hi

/-- The window up to `hi` is seen: its events leave the store and the cutoff moves there (R83, R84, R86). -/
def Chan.closeWindow (x : Chan) (fast : Bool) (hi : Tick) : Chan :=
  { x with store := x.store.filter (fun e => before hi (e.key fast)), cutoff := tmax x.cutoff hi }

/-- Issue tick of the waiting or issuing decision. -/
def Dev.issueTick (d : Dev) (c : Fin 32) (why : Stall) : Tick :=
  let x := d.ch c
  if x.held.isSome && x.stall = why then x.heldAt else d.ev.dt

/-- A JEV or BEV with decision tick SC resolves now: at its issue under STEP (R97), else from T − 40 in lockstep mode
(R84) or T − 33 in fast mode (R86) on. -/
def Dev.decisionDue (d : Dev) (c : Fin 32) : Bool :=
  let x := d.ch c
  !d.presentsDue c && (x.stepping || notAfter (x.sc - if d.fast c then 33 else 40) d.ev.dt)

/-- Upper end of a JEV's or BEV's window (R84, R86). -/
def Dev.windowEnd (d : Dev) (c : Fin 32) : Tick :=
  let x := d.ch c
  if d.fast c then (if x.stepping then d.ev.dt else tmax (d.issueTick c .decision) (x.sc - 33)) else x.sc - 64

/-- Code order: the smaller of an optional code and a code. -/
def minCode (o : Option (BitVec 8)) (e : BitVec 8) : Option (BitVec 8) :=
  match o with
  | none => some e
  | some c => if e.toNat < c.toNat then some e else some c

/-- JEV (R129): branches when a code of its window is accepted; with W = 1, G[A] takes the lowest accepted code or
0xFFFF_FFFF. -/
def effJev : Effect := fun d c w =>
  if !d.decisionDue c then .wait d .decision
  else
    let hi := d.windowEnd c
    let x := d.ch c
    let v := BitVec.ofNat 8 (xr w 23 16)
    let m := BitVec.ofNat 8 (xr w 31 24)
    let hit := ((x.window (d.fast c) hi).filter fun e => e.code &&& m = v).foldl (fun o e => minCode o e.code) none
    let y := x.closeWindow (d.fast c) hi
    let y := if xb w 32 then y.setG (fA w) (match hit with | some e => e.setWidth 32 | none => 0xFFFFFFFF) else y
    .done (d.setCh c y) (if hit.isSome then BitVec.ofNat 16 (xr w 14 0) else x.pc + 1)

/-- The earlier of two events: by stamp, then by code (R130, R263). -/
def firstByStamp (o : Option StoreEv) (e : StoreEv) : Option StoreEv :=
  match o with
  | none => some e
  | some f => if before e.stamp f.stamp || (e.stamp = f.stamp && e.code.toNat < f.code.toNat) then some e else some f

/-- BEV (R130): branches through its table by the event with the earliest stamp, or to its default target. -/
def effBev : Effect := fun d c w =>
  if !d.decisionDue c then .wait d .decision
  else
    let hi := d.windowEnd c
    let x := d.ch c
    let m := BitVec.ofNat 8 (xr w 23 16)
    let pick := (x.window (d.fast c) hi).foldl firstByStamp none
    let y := x.closeWindow (d.fast c) hi
    let y := if xb w 39 then y.setG (fA w) (match pick with | some e => e.code.setWidth 32 | none => 0xFFFFFFFF) else y
    .done (d.setCh c y) (BitVec.ofNat 16 (match pick with
      | some e => xr w 14 0 + (e.code &&& m).toNat
      | none => xr w 38 24))

/-- Order of events at a WAITEV (R263): by stamp then code in lockstep mode; by presentation, stamp, code in fast
mode. -/
def firstWait (fast : Bool) (o : Option StoreEv) (e : StoreEv) : Option StoreEv :=
  match o with
  | none => some e
  | some f =>
    if fast && before e.pres f.pres then some e
    else if fast && before f.pres e.pres then some f
    else firstByStamp (some f) e

/-- The last tick at which a WAITEV with a deadline can match; it times out there (R97, R120). -/
def Dev.waitLimit (d : Dev) (c : Fin 32) (w : W64) : Option Tick :=
  let x := d.ch c
  let dl := x.sc + tk (xr w 39 16)
  if x.stepping then some d.ev.dt
  else if xr w 39 16 = 0 then none
  else some (tmax (d.issueTick c .event) (dl - if d.fast c then 33 else 40))

/-- The event a WAITEV matches now (R85, R86, R119, R120). -/
def Dev.waitMatch (d : Dev) (c : Fin 32) (w : W64) : Option StoreEv :=
  let x := d.ch c
  let fast := d.fast c
  let v := BitVec.ofNat 8 (xr w 7 0)
  let m := BitVec.ofNat 8 (xr w 15 8)
  let dl := x.sc + tk (xr w 39 16)
  let ok (e : StoreEv) : Bool :=
    e.code &&& m = v && before x.cutoff (e.key fast) &&
    (match d.waitLimit c w with | some r => notAfter e.pres r | none => true) &&
    (fast || xr w 39 16 = 0 || notAfter e.stamp (dl - 64))
  (x.store.filter ok).foldl (firstWait fast) none

/-- The channel after its wait has matched event `e` (R85, R86, R434): SC, cutoff, store. -/
def Dev.matched (d : Dev) (c : Fin 32) (e : StoreEv) (sc : Tick) (issue : Tick) : Chan :=
  let x := d.ch c
  if d.fast c then
    let a := tmax issue e.pres
    { x.closeWindow true a with sc := tmax sc (a + 33) }
  else { x.closeWindow false e.stamp with sc := tmax sc (e.stamp + if e.woke then 72 else 64) }

/-- G[A] and G[B] written by a WAITEV with W = 1 (R119, R120). With A = B the time stands (DESIGN CHOICE, log entry 46). -/
def waitRegs (x : Chan) (w : W64) (e stamp : W32) : Chan :=
  if xb w 40 then (x.setG (fA w) e).setG (fB w) stamp else x

/-- WAITEV (R119, R120): matches an accepted event, times out at its deadline, or waits. -/
def effWaitev : Effect := fun d c w =>
  let x := d.ch c
  if d.presentsDue c then .wait d .event
  else match d.waitMatch c w with
  | some e =>
    .done (d.setCh c (waitRegs (d.matched c e x.sc (d.issueTick c .event)) w (e.code.setWidth 32) (e.stamp.setWidth 32))) (x.pc + 1)
  | none =>
    match d.waitLimit c w with
    | some r =>
      if notAfter r d.ev.dt then
        let dl := x.sc + tk (xr w 39 16)
        let y := if d.fast c then { x.closeWindow true r with sc := tmax dl (r + 33) }
                 else { x.closeWindow false (dl - 64) with sc := tmax dl (r + 40) }
        .done (d.setCh c (waitRegs y w 0xFFFFFFFF (dl.setWidth 32))) (x.pc + 1)
      else .wait d .event
    | none => .wait d .event

end Sys2Proof.Machine
end

