-- ==== Sys2Proof/Machine/Effects.lean ====
section
/-! DEFINITION. The effect of each instruction (R109 to R149), and the map from an instruction word to its effect. -/

namespace Sys2Proof.Machine

/-! ### Control (R109 to R112) -/

/-- NOP (R109). -/
def effNop : Effect := fun d c _ => .next d c

/-- HALT (R95): the state becomes DRAIN and the output parks when it reaches SC. -/
def effHalt : Effect := fun d c _ =>
  .next (d.modCh c fun x => { x with st := .drain, parkAt := some x.sc }) c

/-- JMP (R109). -/
def effJmp : Effect := fun d _ w => .done d (BitVec.ofNat 16 (xr w 14 0))

/-- JCC (R110). -/
def effJcc : Effect := fun d c w =>
  let x := d.ch c
  let rhs := if xb w 20 then (BitVec.ofNat 16 (xr w 47 32)).signExtend 32 else x.rg (fB w)
  .done d (if condHolds (xr w 19 16) (x.rg (fA w)) rhs = some true then BitVec.ofNat 16 (xr w 14 0) else x.pc + 1)

/-- CALL (R111): a ninth entry faults STACK 0b000. -/
def effCall : Effect := fun d c w =>
  let x := d.ch c
  if 8 ≤ x.rets.length then .fault d 2 0 x.rets.length
  else .done (d.setCh c { x with rets := (x.pc + 1) :: x.rets }) (BitVec.ofNat 16 (xr w 14 0))

/-- RET (R111): an empty stack faults STACK 0b001. -/
def effRet : Effect := fun d c _ =>
  let x := d.ch c
  match x.rets with
  | [] => .fault d 2 1 0
  | r :: rs => .done (d.setCh c { x with rets := rs }) r

/-- Loop counter L of depth `i` written. -/
def Chan.setL (x : Chan) (i : Nat) (v : W32) : Chan := { x with l := x.l.setIfInBounds i v }

/-- Loop counter L of depth `i`. -/
def Chan.lc (x : Chan) (i : Nat) : W32 := x.l[i]?.getD 0

/-- LOOP (R112): a count of 0 goes to the exit address; a fifth nested loop faults STACK 0b010. -/
def effLoop : Effect := fun d c w =>
  let x := d.ch c
  let n := if xb w 15 then x.rg (fB w) else BitVec.ofNat 32 (xr w 47 16)
  if n = 0 then .done d (BitVec.ofNat 16 (xr w 14 0))
  else if 4 ≤ x.loops.length then .fault d 2 2 x.loops.length
  else .next (d.setCh c { x.setL x.loops.length n with loops := (x.pc + 1) :: x.loops }) c

/-- ENDL (R112): no open loop faults STACK 0b011. -/
def effEndl : Effect := fun d c _ =>
  let x := d.ch c
  match x.loops with
  | [] => .fault d 2 3 0
  | start :: rest =>
    let n := x.lc rest.length - 1
    let y := x.setL rest.length n
    if n = 0 then .next (d.setCh c { y with loops := rest }) c else .done (d.setCh c y) start

/-! ### Arithmetic (R113, R114) -/

/-- Register form: G[A] := G[B] op G[C]; MOV takes G[B]. -/
def effAluR (op : AluOp) : Effect := fun d c w =>
  let x := d.ch c
  let rhs := if op = .mov then x.rg (fB w) else x.rg (BitVec.ofNat 4 (xr w 3 0))
  .next (d.setCh c (x.setG (fA w) (op.eval (x.rg (fB w)) rhs))) c

/-- Immediate form: G[A] := G[B] op imm32. -/
def effAluI (op : AluOp) : Effect := fun d c w =>
  let x := d.ch c
  .next (d.setCh c (x.setG (fA w) (op.eval (x.rg (fB w)) (BitVec.ofNat 32 (xr w 31 0))))) c

/-! ### Timing (R115 to R118) -/

/-- SC advanced. -/
def Dev.setSc (d : Dev) (c : Fin 32) (t : Tick) : Dev := d.modCh c fun x => { x with sc := t }

/-- WAIT with an immediate (R116). -/
def effWaitImm : Effect := fun d c w => .next (d.setSc c ((d.ch c).sc + tk (xr w 31 0))) c

/-- WAIT with a register (R116). -/
def effWaitReg : Effect := fun d c w => .next (d.setSc c ((d.ch c).sc + ((d.ch c).rg (fB w)).setWidth 64)) c

/-- WAITT (R117): T is the time nearest SC with the given low 32 bits, from SC − 2^31 up to SC + 2^31 − 1. -/
def effWaitt : Effect := fun d c w =>
  let x := d.ch c
  let ahead : W32 := x.rg (fA w) - x.sc.setWidth 32
  if ahead.toNat < 2 ^ 31 then .next (d.setCh c ({ x with sc := x.sc + ahead.setWidth 64 }.setG (fB w) 0)) c
  else .next (d.setCh c (x.setG (fB w) (-ahead))) c

/-- SYNC (R118): SC moves to the next tick that is r mod 2^j. -/
def effSync : Effect := fun d c w =>
  let x := d.ch c
  let m := 2 ^ xr w 5 0
  .next (d.setSc c (x.sc + tk ((xr w 47 16 % m + (m - x.sc.toNat % m)) % m))) c

/-! ### Playback (R121 to R127) -/

/-- An action placed at SC (R78, R80). -/
def Dev.place (d : Dev) (c : Fin 32) (a : Act) : Dev :=
  d.modCh c fun x => { x with queue := x.queue ++ [⟨x.sc, a⟩] }

/-- A table play of index `i` placed (R122, R167); a play that names an enabled entry counts at its dispatch. A descriptor whose
unit is uncorrectable gives no hint, and SC moves by the LEN_M1 that its stored bytes hold (DESIGN CHOICE, log entry 46). -/
def Dev.playTable (d : Dev) (c : Fin 32) (i : W32) : Dev :=
  let k := clu c
  if i.toNat < 16384 then
    let d := d.touchDesc k i.toNat
    d.placePlay c (.table i) (d.descAt k i.toNat).len (d.hintAt k i.toNat)
  else d.placePlay c (.table i) 0 none

/-- PLAY (R122). -/
def effPlay : Effect := fun d c w => .next (d.playTable c (BitVec.ofNat 32 (xr w 13 0))) c

/-- What naming a ring slot comes to (R141, R143). -/
inductive Gate
  | illegal (slot : Nat)
  | notReady (q : Nat)
  | ready (q : Nat)

/-- The ring a slot names, of an accepted kind and with `need` ready records (R141, R143). -/
def Dev.gate (d : Dev) (c : Fin 32) (slot need : Nat) (kinds : Nat → Bool) : Gate :=
  if 8192 ≤ slot then .illegal slot
  else match d.ringOfSlot c slot with
    | none => .illegal slot
    | some q => if !kinds (d.ringKind q) then .illegal slot else if need ≤ d.ready q then .ready q else .notReady q

/-- Caravan reaches the contexts that hold a slot when the slot is named (R354, R357): an uncorrectable one is recorded. -/
def Dev.probeSlot (d : Dev) (c : Fin 32) (slot : Nat) : Dev :=
  (d.boundRings.filter fun q => (d.ctxBad q || d.ringState q ≠ 0) && d.ctx q 0x08 1 % 64 = c.val && d.ctx q 0x06 2 = slot).foldl
    (fun (d : Dev) q => d.ctxError q) d

/-- A ring instruction (R141 to R145): the slot is named, which wakes Caravan (R432), an unready ring waits with STALL RING, at once faulting
RING_TIMEOUT when CH.SEQ_RING_TMO is 0. -/
def ringInstr (slot need : Nat) (kinds : Nat → Bool) (act : Dev → Nat → Res) (d : Dev) (c : Fin 32) : Res :=
  let d := d.wakeCaravan.probeSlot c slot
  match d.gate c slot need kinds with
  | .illegal s => .fault d 1 4 s
  | .notReady q =>
    let d := d.nameSlot c slot
    if d.get (F.CH_SEQ_RING_TMO_TMO c) = 0 then .fault d 6 0 q else .wait d .ring
  | .ready q => act (d.nameSlot c slot) q

/-- The head record's copy for a ring instruction: a record not yet in the buffer is waited for, a poisoned one faults
POISON 0b000 and is not consumed (R144, R281). STALL reads RING during the fetch of a record on demand (DESIGN CHOICE, log
entry 46). -/
def withRecord (d : Dev) (c : Fin 32) (q : Nat) (act : Dev → RecCopy → Res) : Res :=
  match d.headCopy c q with
  | none => .wait d .ring
  | some r => match r.poison with
    | some p => .fault d 5 0 p
    | none => act d r

/-- One record of ring `q` consumed by channel `c`. -/
def Dev.takeRecord (d : Dev) (c : Fin 32) (q n : Nat) : Dev := (d.consume q n).dropConsumed c q

/-- A dword of a record. -/
def recWord (r : List Byte) (off : Nat) : W32 := BitVec.ofNat 32 (leNat ((r.drop off).take 4))

/-- The ring forms of PLAYG (R123). -/
def effPlaygRing : Effect := fun d c w =>
  let slot := if xr w 15 14 = 1 then xr w 12 0 else ((d.ch c).rg (fB w)).toNat
  ringInstr slot 1 (· = 2) (fun d q => withRecord d c q fun d r =>
    let x : Desc := ⟨recWord r.data 8, recWord r.data 12, recWord r.data 16, recWord r.data 20⟩
    let d := d.placePlay c (.record x (BitVec.ofNat 13 slot)) x.len (some x)
    .next (d.takeRecord c q 1) c) d c

/-- PLAYG (R123). -/
def effPlayg : Effect := fun d c w =>
  if xr w 15 14 = 0 then .next (d.playTable c ((d.ch c).rg (fB w))) c else effPlaygRing d c w

/-- PLAYN, HOLD and PARK (R124 to R127): nothing for 0 ticks. -/
def effSpan (a : W32 → Act) : Effect := fun d c w =>
  let n := tickCount (d.ch c) w
  if n = 0 then .next d c
  else .next ((d.place c (a n)).setSc c ((d.ch c).sc + n.setWidth 64)) c

/-! ### Events (R131 to R133) -/

/-- SIG, local (R131). -/
def effSigLocal : Effect := fun d c w => .next (d.place c (.sig (BitVec.ofNat 8 (xr w 7 0)))) c

/-- Array SIG (R132, R303, R304): it waits for run-ahead and for both send queues, and faults ILLEGAL 0b011 when SC is
less than 160 ticks after its issue tick. -/
def effSigArray : Effect := fun d c w =>
  let t := (d.ch c).sc
  if d.aheadTooFar c then .wait d .runahead
  else if 2 ≤ d.linkState && (d.sendFull .e || d.sendFull .w) then .wait d .busy
  else if before t (d.ev.dt + 160) then .fault d 1 3 (t.toNat % 2 ^ 32)
  else .next (d.arrayEvent (BitVec.ofNat 8 (xr w 7 0)) t) c

/-- SIG (R131, R132). -/
def effSig : Effect := fun d c w => if xb w 8 then effSigArray d c w else effSigLocal d c w

/-- MARK (R133). -/
def effMark : Effect := fun d c w =>
  .next (d.place c (.mark (BitVec.ofNat 4 (xr w 3 0)) (BitVec.ofNat 4 (xr w 7 4)))) c

/-! ### Oscillators and the Ledger (R134 to R140) -/

/-- SETF, oscillator form (R136). -/
def effSetf : Effect := fun d c w => .next (d.place c (.setf (.osc ((fA w).setWidth 3)) (fX w))) c

/-- SETFP, oscillator form (R136). -/
def effSetfp : Effect := fun d c w => .next (d.place c (.setfp (.osc ((fA w).setWidth 3)) (fX w))) c

/-- A slot index taken from a G register, faulting LEDGER_RANGE 0b000 when it is 256 or more (R108). -/
def slotFrom (d : Dev) (v : W32) (act : BitVec 8 → Res) : Res :=
  if 256 ≤ v.toNat then .fault d 7 0 v.toNat else act (v.setWidth 8)

/-- The slot form of SETF and SETFP (R136): the tuning word from G[B+1] and G[B], LEDGER_RANGE 0b001 when it is too wide. With a
slot out of range as well, 0b000 is recorded (DESIGN CHOICE, log entry 46). -/
def slotForm (act : SlotSel → BitVec 48 → Act) : Effect := fun d c w =>
  let x := d.ch c
  let go (l : BitVec 8) : Res :=
    let hi := x.rg (fB w + 1)
    if 65536 ≤ hi.toNat then .fault d 7 1 l.toNat
    else .next (d.place c (act (.slot l) ((hi.setWidth 16 : BitVec 16) ++ x.rg (fB w)))) c
  if xb w 8 then slotFrom d (x.rg (fA w)) go else go (BitVec.ofNat 8 (xr w 7 0))

/-- SETF, slot form (R136). -/
def effSetfSlot : Effect := slotForm .setf

/-- SETFP, slot form (R136). -/
def effSetfpSlot : Effect := slotForm .setfp

/-- Opcode 0x72: PRESET tells SETF from SETFP (R134, R136). -/
def effSlotForm : Effect := fun d c w => if xb w 9 then effSetfpSlot d c w else effSetfSlot d c w

/-- SETP and SHIFTP (R137), on the slot TSEL selects (R134). -/
def phaseForm (act : SlotSel → W32 → Act) : Effect := fun d c w =>
  let x := d.ch c
  let p := if xb w 10 then x.rg (fB w) else BitVec.ofNat 32 (xr w 47 16)
  match xr w 9 8 with
  | 0 => .next (d.place c (act (.osc (BitVec.ofNat 3 (xr w 2 0))) p)) c
  | 1 => .next (d.place c (act (.slot (BitVec.ofNat 8 (xr w 7 0))) p)) c
  | _ => slotFrom d (x.rg (fA w)) fun l => .next (d.place c (act (.slot l) p)) c

/-- SETP (R137). -/
def effSetp : Effect := phaseForm .setp

/-- SHIFTP (R137). -/
def effShiftp : Effect := phaseForm .shiftp

/-- SELF (R138). -/
def effSelf : Effect := fun d c w =>
  let x := d.ch c
  let go (l : BitVec 8) : Res := .next (d.place c (.self ((fA w).setWidth 3) l)) c
  if xb w 8 then slotFrom d (x.rg (fB w)) go else go (BitVec.ofNat 8 (xr w 7 0))

/-- SETA (R139). -/
def effSeta : Effect := fun d c w =>
  let x := d.ch c
  let amp : BitVec 16 := if xb w 16 then (x.rg (fB w)).setWidth 16 else BitVec.ofNat 16 (xr w 15 0)
  .next (d.place c (.seta ((fA w).setWidth 3) amp)) c

/-- MIX (R140). -/
def effMix : Effect := fun d c w => .next (d.place c (.mix (BitVec.ofNat 8 (xr w 7 0)) (xb w 8))) c

/-! ### Rings (R141 to R145) -/

/-- Payload words 0 to `m` − 1 copied into G registers from `r` on. -/
def copyWords (data : List Byte) : Nat → Nat → BitVec 4 → Chan → Chan
  | 0, _, _, x => x
  | m + 1, i, r, x => copyWords data m (i + 1) (r + 1) (x.setG r (recWord data (8 + 4 * i)))

/-- POP, word form (R144). -/
def effPop : Effect := fun d c w =>
  ringInstr (ringSlot (d.ch c) w) 1 (· = 1) (fun d q => withRecord d c q fun d r =>
    .next ((d.modCh c (copyWords r.data (xr w 17 14 + 1) 0 (fA w))).takeRecord c q 1) c) d c

/-- The Ledger entry at byte `off` of a record, when it is VALID (R278). -/
def ledgerEntry (r : List Byte) (off : Nat) : List (BitVec 8 × Slot) :=
  let num (o n : Nat) := leNat ((r.drop (off + o)).take n)
  if num 1 1 % 2 = 1 then [(BitVec.ofNat 8 (num 0 1), ⟨BitVec.ofNat 48 (num 2 6), BitVec.ofNat 48 (num 8 6), BitVec.ofNat 64 (num 16 8)⟩)]
  else []

/-- POP, Ledger form (R144, R278). -/
def effPopLedger : Effect := fun d c w =>
  ringInstr (ringSlot (d.ch c) w) 1 (· = 1) (fun d q => withRecord d c q fun d r =>
    .next ((d.place c (.ledger (ledgerEntry r.data 8 ++ ledgerEntry r.data 32))).takeRecord c q 1) c) d c

/-- Opcode 0x90: DEST tells the word form from the Ledger form (R142). -/
def effPopAny : Effect := fun d c w => if xb w 18 then effPopLedger d c w else effPop d c w

/-- PEEK (R145). -/
def effPeek : Effect := fun d c w =>
  ringInstr (ringSlot (d.ch c) w) 1 (· = 1) (fun d q => withRecord d c q fun d r =>
    .next (d.modCh c (copyWords r.data (xr w 17 14 + 1) 0 (fA w))) c) d c

/-- RDY (R145, R280). -/
def effRdy : Effect := fun d c w =>
  ringInstr (ringSlot (d.ch c) w) (xr w 29 14) (fun k => k = 1 || k = 2 || k = 3) (fun d q =>
    .next (d.modCh c (·.setG (fA w) (BitVec.ofNat 32 (min (d.ready q) 0xFFFFFFFF)))) c) d c

/-- ACK (R145). -/
def effAck : Effect := fun d c w =>
  ringInstr (ringSlot (d.ch c) w) (xr w 17 14 + 1) (fun k => k = 1 || k = 2) (fun d q =>
    .next (d.takeRecord c q (xr w 17 14 + 1)) c) d c

/-! ### System (R146 to R149) -/

/-- CALW (R147). -/
def effCalw : Effect := fun d c w => .next (d.place c (.calw (tickCount (d.ch c) w))) c

/-- The lead SC − DT, clamped to 32 bits (R148). -/
def leadOf (sc dt : Tick) : W32 :=
  let n := (sc - dt).toNat
  if 2 ^ 63 ≤ n then 0 else BitVec.ofNat 32 (min n 0xFFFFFFFF)

/-- TSTAMP (R148). -/
def effTstamp : Effect := fun d c w =>
  let x := d.ch c
  let dt := d.ev.dt
  let v : W32 := match xr w 2 0 with
    | 0 => x.sc.setWidth 32
    | 1 => (x.sc >>> 32).setWidth 32
    | 2 => dt.setWidth 32
    | 3 => (dt >>> 32).setWidth 32
    | _ => leadOf x.sc dt
  .next (d.setCh c (x.setG (fA w) v)) c

/-- IRQ in its issue cycle (R149). -/
def effIrqNow : Effect := fun d c _ => .next (d.set (F.CH_SEQ_IRQ_STATUS_SEQ c) 1) c

/-- IRQ AT (R149). -/
def effIrqAt : Effect := fun d c _ => .next (d.place c .irq) c

/-- IRQ (R149). -/
def effIrq : Effect := fun d c w => if xb w 0 then effIrqAt d c w else effIrqNow d c w

/-! ### From a word to its effect -/

/-- The effect of a word with a defined opcode (R106). -/
def effectOf : Effect := fun d c w =>
  match opOf w with
  | 0x00 => effNop d c w
  | 0x01 => effHalt d c w
  | 0x02 => effJmp d c w
  | 0x03 => effJcc d c w
  | 0x04 => effCall d c w
  | 0x05 => effRet d c w
  | 0x06 => effLoop d c w
  | 0x07 => effEndl d c w
  | 0x10 => effAluR .mov d c w
  | 0x11 => effAluR .add d c w
  | 0x12 => effAluR .sub d c w
  | 0x13 => effAluR .mul d c w
  | 0x14 => effAluR .and d c w
  | 0x15 => effAluR .or d c w
  | 0x16 => effAluR .xor d c w
  | 0x17 => effAluR .shl d c w
  | 0x18 => effAluR .shr d c w
  | 0x19 => effAluR .sar d c w
  | 0x1A => effAluR .min d c w
  | 0x1B => effAluR .max d c w
  | 0x20 => effAluI .mov d c w
  | 0x21 => effAluI .add d c w
  | 0x22 => effAluI .sub d c w
  | 0x23 => effAluI .mul d c w
  | 0x24 => effAluI .and d c w
  | 0x25 => effAluI .or d c w
  | 0x26 => effAluI .xor d c w
  | 0x27 => effAluI .shl d c w
  | 0x28 => effAluI .shr d c w
  | 0x29 => effAluI .sar d c w
  | 0x2A => effAluI .min d c w
  | 0x2B => effAluI .max d c w
  | 0x30 => effWaitImm d c w
  | 0x31 => effWaitReg d c w
  | 0x32 => effWaitt d c w
  | 0x33 => effSync d c w
  | 0x34 => effWaitev d c w
  | 0x40 => effPlay d c w
  | 0x41 => effPlayg d c w
  | 0x42 => effSpan .playn d c w
  | 0x43 => effSpan .hold d c w
  | 0x44 => effSpan .park d c w
  | 0x60 => effJev d c w
  | 0x61 => effBev d c w
  | 0x62 => effSig d c w
  | 0x63 => effMark d c w
  | 0x70 => effSetf d c w
  | 0x71 => effSetfp d c w
  | 0x72 => effSlotForm d c w
  | 0x73 => effSetp d c w
  | 0x74 => effShiftp d c w
  | 0x75 => effSelf d c w
  | 0x76 => effSeta d c w
  | 0x77 => effMix d c w
  | 0x90 => effPopAny d c w
  | 0x91 => effPeek d c w
  | 0x92 => effRdy d c w
  | 0x93 => effAck d c w
  | 0xA0 => effCalw d c w
  | 0xA1 => effTstamp d c w
  | _ => effIrq d c w

/-- The instruction at the channel's PC issues (R97, R101). -/
def Dev.issueNext (d : Dev) (c : Fin 32) : Dev :=
  let x := d.ch c
  if x.pc = 32768 then d.fetchBeyond c
  else d.settleIssue c (d.progWord c x.pc.toNat) (d.attempt c (d.progWord c x.pc.toNat) effectOf)

end Sys2Proof.Machine
end

