-- ==== Sys2Proof/Machine/Finish.lean ====
section
/-! DEFINITION. Interrupt summaries (R71, R403) and how a command's outcome is answered. -/

namespace Sys2Proof.Machine

/-- A status word and its enable word share a bit. -/
def Dev.cause (d : Dev) (status enable : Nat) : Bool := d.rd status &&& d.rd enable ≠ 0

/-- Channel `c` holds an unmasked cause (R71, R244). -/
def Dev.chCause (d : Dev) (c : Nat) : Bool :=
  d.cause (R.CH_SEQ_IRQ_STATUS c) (R.CH_SEQ_IRQ_EN c) || d.cause (R.CH_CAL_IRQ_STATUS c) (R.CH_CAL_IRQ_EN c)

/-- The source of DEV.IRQ_BLK bit `i` holds an unmasked cause. The cause of ABACUS, which the card calls a snapshot completed, is
DONE.ALL: it clears when the next GO is taken (DESIGN CHOICE, log entry 28). No register gives the HBM controllers a cause, so bits 8
to 11 are 0 (log entry 20). -/
def Dev.blkCause (d : Dev) (i : Nat) : Bool :=
  match i with
  | 0 => d.rd R.DEV_ERR_STATUS ≠ 0
  | 1 => d.cause R.CLK_IRQ_STATUS R.CLK_IRQ_EN
  | 2 => d.flag F.ABACUS_DONE_ALL
  | 3 => d.cause R.EVT_IRQ_STATUS R.EVT_IRQ_EN
  | 4 => d.cause R.SEC_IRQ_STATUS R.SEC_IRQ_EN
  | 5 => d.cause R.MGMT_IRQ_STATUS R.MGMT_IRQ_EN
  | 6 => d.cause R.TELEM_IRQ_STATUS R.TELEM_IRQ_EN
  | 7 => d.cause R.LINK_IRQ_STATUS R.LINK_IRQ_EN
  | 8 | 9 | 10 | 11 => false
  | 12 => d.cause R.MEM_IRQ_STATUS R.MEM_IRQ_EN
  | 13 => d.cause R.CARAVAN_IRQ_STATUS R.CARAVAN_IRQ_EN
  | _ => 14 ≤ i && i < 22 && d.cause (R.CL_IRQ_STATUS (i - 14)) (R.CL_IRQ_EN (i - 14))

/-- A word with bit `i` set where `p i` holds, for `i` below `n`. -/
def wordOf (n : Nat) (p : Nat → Bool) : Nat := (List.range n).foldl (fun w i => w + bit (p i) * 2 ^ i) 0

/-- DEV.IRQ_BLK (R71). -/
def Dev.irqBlk (d : Dev) : Nat := wordOf 22 fun i => d.blkCause i && d.rd R.DEV_IRQ_MASK_BLK &&& BitVec.twoPow 32 i ≠ 0

/-- DEV.IRQ_CH (R71). -/
def Dev.irqCh (d : Dev) : Nat := wordOf 32 fun c => d.chCause c && d.rd R.DEV_IRQ_MASK_CH &&& BitVec.twoPow 32 c ≠ 0

/-- The summary bits that may raise messages: DEV.IRQ_BLK and DEV.IRQ_CH while DEV.CTRL.IRQ_EN is 1 (R404). -/
def Dev.summary (d : Dev) : BitVec 54 :=
  if d.flag F.DEV_CTRL_IRQ_EN then BitVec.ofNat 54 (d.irqBlk + d.irqCh * 2 ^ 22) else 0

/-- The vector of summary bit `i` (R403). -/
def vectorOf (i : Nat) : Nat := if i < 22 then i else i + 10

/-- The MSI-X latches after the summary bits have moved to `now`: each rise sets its vector's latch (R404). -/
def Msix.follow (m : Msix) (now : BitVec 54) : Msix :=
  let up := now &&& ~~~m.seen
  { m with seen := now,
           latch := (List.range 54).foldl (fun l i =>
             if up.getLsbD i && !l.contains (vectorOf i) then l ++ [vectorOf i] else l) m.latch }

/-- The device after a command, its MSI-X latches brought up to its interrupt summaries. -/
def Dev.follow (d : Dev) : Dev := { d with msix := d.msix.follow d.summary }

/-- The answer of a command that leaves the device as `d`. -/
def done (s : State) (d : Dev) : Host.Outcome State Fault Refusal := .next { s with dev := d.follow }

end Sys2Proof.Machine
end

