-- ==== Sys2Proof/Machine/Arithmetic.lean ====
section
/-! DEFINITION. The sequencer instructions of the arithmetic group (R113, R114), one meaning each: the row fixes the opcode and the selector bit
that tells it from its sister row, and the word issues under R73 to R107. -/

namespace Sys2Proof.Machine

/-- MOV (R113). -/
def execMov (c : Fin 32) (a b : BitVec 4) (x : BitVec 48) (s : State) : Host.Outcome State Fault Refusal :=
  done s (s.dev.issue c (mkWord 0x10 a b x) (effAluR .mov))

/-- ADD (R113). -/
def execAdd (c : Fin 32) (a b : BitVec 4) (x : BitVec 48) (s : State) : Host.Outcome State Fault Refusal :=
  done s (s.dev.issue c (mkWord 0x11 a b x) (effAluR .add))

/-- SUB (R113). -/
def execSub (c : Fin 32) (a b : BitVec 4) (x : BitVec 48) (s : State) : Host.Outcome State Fault Refusal :=
  done s (s.dev.issue c (mkWord 0x12 a b x) (effAluR .sub))

/-- MUL (R113). -/
def execMul (c : Fin 32) (a b : BitVec 4) (x : BitVec 48) (s : State) : Host.Outcome State Fault Refusal :=
  done s (s.dev.issue c (mkWord 0x13 a b x) (effAluR .mul))

/-- AND (R113). -/
def execAnd (c : Fin 32) (a b : BitVec 4) (x : BitVec 48) (s : State) : Host.Outcome State Fault Refusal :=
  done s (s.dev.issue c (mkWord 0x14 a b x) (effAluR .and))

/-- OR (R113). -/
def execOr (c : Fin 32) (a b : BitVec 4) (x : BitVec 48) (s : State) : Host.Outcome State Fault Refusal :=
  done s (s.dev.issue c (mkWord 0x15 a b x) (effAluR .or))

/-- XOR (R113). -/
def execXor (c : Fin 32) (a b : BitVec 4) (x : BitVec 48) (s : State) : Host.Outcome State Fault Refusal :=
  done s (s.dev.issue c (mkWord 0x16 a b x) (effAluR .xor))

/-- SHL (R113). -/
def execShl (c : Fin 32) (a b : BitVec 4) (x : BitVec 48) (s : State) : Host.Outcome State Fault Refusal :=
  done s (s.dev.issue c (mkWord 0x17 a b x) (effAluR .shl))

/-- SHR (R113). -/
def execShr (c : Fin 32) (a b : BitVec 4) (x : BitVec 48) (s : State) : Host.Outcome State Fault Refusal :=
  done s (s.dev.issue c (mkWord 0x18 a b x) (effAluR .shr))

/-- SAR (R113). -/
def execSar (c : Fin 32) (a b : BitVec 4) (x : BitVec 48) (s : State) : Host.Outcome State Fault Refusal :=
  done s (s.dev.issue c (mkWord 0x19 a b x) (effAluR .sar))

/-- MIN (R113). -/
def execMin (c : Fin 32) (a b : BitVec 4) (x : BitVec 48) (s : State) : Host.Outcome State Fault Refusal :=
  done s (s.dev.issue c (mkWord 0x1A a b x) (effAluR .min))

/-- MAX (R113). -/
def execMax (c : Fin 32) (a b : BitVec 4) (x : BitVec 48) (s : State) : Host.Outcome State Fault Refusal :=
  done s (s.dev.issue c (mkWord 0x1B a b x) (effAluR .max))

/-- MOVI (R113). -/
def execMovi (c : Fin 32) (a b : BitVec 4) (x : BitVec 48) (s : State) : Host.Outcome State Fault Refusal :=
  done s (s.dev.issue c (mkWord 0x20 a b x) (effAluI .mov))

/-- ADDI (R113). -/
def execAddi (c : Fin 32) (a b : BitVec 4) (x : BitVec 48) (s : State) : Host.Outcome State Fault Refusal :=
  done s (s.dev.issue c (mkWord 0x21 a b x) (effAluI .add))

/-- SUBI (R113). -/
def execSubi (c : Fin 32) (a b : BitVec 4) (x : BitVec 48) (s : State) : Host.Outcome State Fault Refusal :=
  done s (s.dev.issue c (mkWord 0x22 a b x) (effAluI .sub))

/-- MULI (R113). -/
def execMuli (c : Fin 32) (a b : BitVec 4) (x : BitVec 48) (s : State) : Host.Outcome State Fault Refusal :=
  done s (s.dev.issue c (mkWord 0x23 a b x) (effAluI .mul))

/-- ANDI (R113). -/
def execAndi (c : Fin 32) (a b : BitVec 4) (x : BitVec 48) (s : State) : Host.Outcome State Fault Refusal :=
  done s (s.dev.issue c (mkWord 0x24 a b x) (effAluI .and))

/-- ORI (R113). -/
def execOri (c : Fin 32) (a b : BitVec 4) (x : BitVec 48) (s : State) : Host.Outcome State Fault Refusal :=
  done s (s.dev.issue c (mkWord 0x25 a b x) (effAluI .or))

/-- XORI (R113). -/
def execXori (c : Fin 32) (a b : BitVec 4) (x : BitVec 48) (s : State) : Host.Outcome State Fault Refusal :=
  done s (s.dev.issue c (mkWord 0x26 a b x) (effAluI .xor))

/-- SHLI (R113). -/
def execShli (c : Fin 32) (a b : BitVec 4) (x : BitVec 48) (s : State) : Host.Outcome State Fault Refusal :=
  done s (s.dev.issue c (mkWord 0x27 a b x) (effAluI .shl))

/-- SHRI (R113). -/
def execShri (c : Fin 32) (a b : BitVec 4) (x : BitVec 48) (s : State) : Host.Outcome State Fault Refusal :=
  done s (s.dev.issue c (mkWord 0x28 a b x) (effAluI .shr))

/-- SARI (R113). -/
def execSari (c : Fin 32) (a b : BitVec 4) (x : BitVec 48) (s : State) : Host.Outcome State Fault Refusal :=
  done s (s.dev.issue c (mkWord 0x29 a b x) (effAluI .sar))

/-- MINI (R113). -/
def execMini (c : Fin 32) (a b : BitVec 4) (x : BitVec 48) (s : State) : Host.Outcome State Fault Refusal :=
  done s (s.dev.issue c (mkWord 0x2A a b x) (effAluI .min))

/-- MAXI (R113). -/
def execMaxi (c : Fin 32) (a b : BitVec 4) (x : BitVec 48) (s : State) : Host.Outcome State Fault Refusal :=
  done s (s.dev.issue c (mkWord 0x2B a b x) (effAluI .max))

end Sys2Proof.Machine
end

