-- ==== Sys2Proof/Config.lean ====
section
/-! DEFINITION. What the spec leaves open: free values (opaque constants with no body), and the few choices the model
names. Each is a row of notes/assumptions. -/

namespace Sys2Proof.Config

/-- Free value (log entry 11): the 32-byte SHAKE256 digest of a byte string. The spec names SHAKE256 (R416 to R422)
and gives no digest. -/
opaque shake256 : List Byte → List Byte

/-- Free value (log entry 11): the XMSS signature of a message at an index under the identity key of a seed, behind its leading index
(R416, R423). -/
opaque xmssSign : BitVec 512 → Nat → List Byte → List Byte

/-- Free value (log entry 11): the root of an XMSS tree from its stored nodes of levels 10 to 20 and its public seed (R420). -/
opaque xmssRoot : List Byte → List Byte → List Byte

/-- Free value (log entry 11): whether an XMSS signature block verifies over a message (R418, R426). -/
opaque xmssVerifies : List Byte → List Byte → Bool

/-- Free value (log entry 12): byte `i` of draw `n` of the SEC entropy source (R426). -/
opaque entropyByte : Nat → Nat → Byte

/-- Free value (log entry 13): byte `i` of the tree nodes, the public seed, the certificate signer's key and the certificate
signature that manufacture writes into the security MTP block (R420, R421). -/
opaque certificateByte : Nat → Byte

/-- Free value (log entry 14): firmware version and build number that INFO returns (R393). -/
opaque firmwareWord : Nat → W32

/-- Free value (log entry 15): byte `i` of a completion that the spec does not fix. -/
opaque unstatedByte : Nat → Byte

/-- Free value (log entry 15): how many whole units an aborted CL.FILL copy has written (R181). -/
opaque abortPrefix : Nat → Nat

/-- Free value (log entry 15): ticks by which a manager's PHASE word leads the tick it names (R297). -/
opaque phaseLead : Nat → Nat

/-- Free value (log entry 15): ticks from gate request `n` to the quiesce report of its block (R379). -/
opaque quiesceTicks : Nat → Nat

/-- Free value (log entry 15): level of the SYNCIN pin in the tick of boundary count `n` (DEV.PIN_STATUS.SYNCIN). -/
opaque syncinLevel : Nat → Bool

/-- Free value (log entry 9): the vendor ID that PCIe configuration space reports (R2). -/
opaque vendorId : BitVec 16

/-- The first dword of PCIe configuration space: the vendor ID, and the device ID 0x3264 of both grades (R2, R397). -/
def configId : BitVec 32 := (0x3264 : BitVec 16) ++ vendorId

/-- The class code of the PCIe function: signal processing, other (R397). -/
def classCode : BitVec 24 := 0x118000

/-- What the capabilities of the PCIe function report (R397, R400): interrupts, errors, power states, and the offered log2 sizes of
BAR4. -/
structure PcieCaps where
  msixVectors : Nat
  msi : Bool
  intx : Bool
  advancedErrors : Bool
  d3hot : Bool
  noSoftReset : Bool
  aspmL1 : Bool
  maxPayloads : List Nat
  bar4Sizes : List Nat
deriving DecidableEq, Repr

/-- The capabilities of R397 and R400. -/
def pcieCaps : PcieCaps :=
  { msixVectors := 2048, msi := false, intx := false, advancedErrors := true, d3hot := true, noSoftReset := true, aspmL1 := true
    maxPayloads := [128, 256, 512], bar4Sizes := (List.range 10).map (· + 28) }

/-- Forune's JEP106 code in IDCODE, which the spec does not give: a free value (R414, log entry 42). -/
opaque jep106 : BitVec 11

/-- Free value (log entry 42): bit `n` of the boundary register in the tick of a boundary count (R414). -/
opaque boundaryCell : Nat → Nat → Bool

/-- Free value (log entry 45): whether the pin of external domain `n` (39 TCK, 40 SCL) carries a clock in the tick of a
boundary count (R25, R26). -/
opaque pinClock : Nat → Nat → Bool

/-- Free value (log entry 49): voltage across built coarse unit `j` of sub-DAC `u` of channel `c` above the least step (R211). -/
opaque coarseUnit : Nat → Nat → Nat → Nat

/-- Free value (log entry 49): place of coarse unit `j` in connection order `ord` (R213, R230). -/
opaque connection : BitVec 8 → Nat → Nat

/-- Free value (log entry 22): residual offset, gain and skew mismatch that check `n` measured, in 2^-20 of full scale, in
2^-20, and in units of 0.1 fs (R243). -/
opaque mismatch : Nat → Int × Int × Int

/-- Free value (log entry 29): ticks that training slice `n` takes (R340), and ticks that rate change `n` stalls the memory when its
PLLs relock (R335). -/
opaque sliceTicks : Nat → Nat
opaque changeTicks : Nat → Nat

/-- Free value (log entry 15): how far a slew that REFIN loss cuts off has come (R370). -/
opaque slewStop : Nat → Nat

end Sys2Proof.Config
end

