-- ==== Sys2Proof/Machine/Synthesis.lean ====
section
/-! DEFINITION. From blocks to samples: the phase law, the sine conversion, the carrier sum, the mixer, gain, FIR,
clip, markers (chapters 06 and 07). -/

namespace Sys2Proof.Machine

/-- The phase of a slot at tick `t` (R135, R183). -/
def Slot.phase (s : Slot) (t : Tick) : BitVec 48 := s.phi + s.ftw * 16 * (t - s.t0).setWidth 48

/-- Slot `l` of a channel's Ledger. -/
def Chan.slot (x : Chan) (l : BitVec 8) : Slot := Tab.get (fun _ => Slot.zero) x.ledger l.toNat

/-- Slot `l` written. -/
def Chan.setSlot (x : Chan) (l : BitVec 8) (s : Slot) : Chan :=
  { x with ledger := Tab.put (fun _ => Slot.zero) x.ledger l.toNat s }

/-- The slot an action acts on (R134, R135). -/
def Chan.target (x : Chan) : SlotSel → BitVec 8
  | .osc n => x.osc[n.toFin].slot
  | .slot l => l

/-- What an oscillator, Ledger or marker action does to its channel at tick `t` (R133, R136 to R140, R144, R186). -/
def Chan.applyAct (x : Chan) (t : Tick) : Act → Chan
  | .mark v m => { x with marker := (x.marker &&& ~~~m) ||| (v &&& m) }
  | .setf s f => let l := x.target s; x.setSlot l ⟨f, (x.slot l).phase t, t⟩
  | .setfp s f => x.setSlot (x.target s) ⟨f, 0, t⟩
  | .setp s p => let l := x.target s; x.setSlot l { x.slot l with phi := p.setWidth 48 <<< 16, t0 := t }
  | .shiftp s p => let l := x.target s; x.setSlot l { x.slot l with phi := (x.slot l).phi + p.setWidth 48 <<< 16 }
  | .self n l => { x with osc := x.osc.set n.toFin { x.osc[n.toFin] with slot := l } }
  | .seta n a => { x with osc := x.osc.set n.toFin { x.osc[n.toFin] with amp := a } }
  | .mix e b => { x with mixEna := e, baseband := b }
  | .ledger es => es.foldl (fun x p => x.setSlot p.1 p.2) x
  | .calw n => { x with calWin := some (t, n) }
  | _ => x

/-- qs of R190. -/
def qs (v : Nat) : Int :=
  let i := v / 256
  let f := v % 256
  if f = 0 then (sine i : Int)
  else (sine i : Int) + ((((sine (i + 1) : Int) - sine i) * f + 128) >>> 8)

/-- Cosine and sine of a sample phase, in units of 2^-17 (R190). -/
def cosSin (theta : BitVec 48) : Int × Int :=
  let r := bits theta 45 28
  match bits theta 47 46 with
  | 0 => (qs (2 ^ 18 - r), qs r)
  | 1 => (-qs r, qs (2 ^ 18 - r))
  | 2 => (-qs (2 ^ 18 - r), -qs r)
  | _ => (qs r, -qs (2 ^ 18 - r))

/-- Sample phase of oscillator `n` in sample `m` of tick `t`, with `spt` samples per tick (R185). -/
def Chan.theta (x : Chan) (spt : Nat) (n : Fin 8) (t : Tick) (m : Nat) : BitVec 48 :=
  let s := x.slot x.osc[n].slot
  s.phase t + s.ftw * BitVec.ofNat 48 (16 / spt * m)

/-- The carrier sum (cr, ci) of a sample (R191). -/
def Chan.carrier (x : Chan) (spt : Nat) (t : Tick) (m : Nat) : Int × Int :=
  (List.finRange 8).foldl (fun (acc : Int × Int) (n : Fin 8) =>
    if x.mixEna.getLsbD n then
      let cs := cosSin (x.theta spt n t m)
      let a := x.osc[n].amp.toInt
      (acc.1 + ((a * cs.1 + 2 ^ 14) >>> 15), acc.2 + ((a * cs.2 + 2 ^ 14) >>> 15))
    else acc) (0, 0)

/-- The mixer's value of an envelope sample (R192). -/
def Chan.mixed (x : Chan) (spt : Nat) (t : Tick) (m : Nat) (i q : Int) : Int :=
  if x.baseband then i * 4
  else
    let cc := x.carrier spt t m
    (i * cc.1 - q * cc.2 + 2 ^ 14) >>> 15

/-- Gain, offset and saturation of stage 3: w and whether it saturated (R199). -/
def gainStage (gain offset inp : Int) : Int × Bool :=
  let w := ((inp * gain + 2 ^ 13) >>> 14) + offset * 4
  if w > 2 ^ 19 - 1 then (2 ^ 19 - 1, true)
  else if w < -2 ^ 19 then (-2 ^ 19, true)
  else (w, false)

/-- A value limited to 12-bit codes, and whether it was limited (R201). -/
def clip12 (v : Int) : Int × Bool :=
  if v > 2047 then (2047, true) else if v < -2048 then (-2048, true) else (v, false)

/-- What one sample brings to the datapath (R198): delay-line input, source markers, how its code is formed, and
whether stage 3 saturated. -/
inductive CodePath | direct (c : Int) | filtered | held | parked
deriving DecidableEq, Repr

/-- A sample before stage 4. -/
structure Pre where
  x : Int
  mrk : BitVec 4
  path : CodePath
  sat : Bool
deriving DecidableEq, Repr

/-- The settings that one channel's datapath takes from its registers; `taps` are the coefficients h[0] to h[31], none with the
filter off. -/
structure DpSet where
  spt : Nat
  gain : Int
  offset : Int
  s16Filtered : Bool
  taps : Option (List Int)
deriving DecidableEq, Repr

/-- The datapath settings of channel `c` that govern the samples of tick `t` (R50, R200, R202, R203). -/
def Dev.dpSet (d : Dev) (c : Fin 32) (t : Tick) : DpSet :=
  let num (v : Nat) : Int := (BitVec.ofNat 16 v).toInt
  { spt := d.spt c
    gain := num (d.getAt t (F.CH_DP_GAIN_GAIN c))
    offset := num (d.getAt t (F.CH_DP_GAIN_OFFSET c))
    s16Filtered := d.getAt t (F.CH_DP_CTRL_S16_PATH c) ≠ 0
    taps := if d.getAt t (F.CH_FIR_CTRL_EN c) ≠ 0 then
        some ((List.range 32).map fun i => num (d.get (F.CH_FIR_COEF_H c (d.getAt t (F.CH_FIR_CTRL_BANK c)) i)))
      else none }

/-- Nibble `j` of a marker track or of M4 data (R159). -/
def nibble (bs : List Byte) (j : Nat) : BitVec 4 :=
  let b := byteAt bs (j / 2)
  if j % 2 = 0 then b.setWidth 4 else (b >>> 4).setWidth 4

/-- The markers of sample `j` of a block, by MSRC (R161). -/
def segMarkers (x : Chan) (d : Desc) (data track : List Byte) (j : Nat) : BitVec 4 :=
  match d.msrc with
  | 1 => x.marker
  | 2 => nibble track j
  | _ => match d.fmt with
    | 0 => (byteAt data (2 * j)).setWidth 4
    | 3 => nibble data j
    | _ => x.marker

/-- The sample that the channel carried last. -/
def Chan.last (x : Chan) : Samp := x.hist.headD ⟨0, 0, 0, true, true, false⟩

/-- The filtered value of an envelope or code through stages 2 and 3. -/
def filteredPre (s : DpSet) (inp : Int) (mrk : BitVec 4) : Pre :=
  let w := gainStage s.gain s.offset inp
  ⟨w.1, mrk, .filtered, w.2⟩

/-- Sample `j` of a committed segment block (`m`-th sample of tick `t`), with C_r the repeated code of an M4 play
(R157, R159, R160, R198). -/
def segPre (x : Chan) (s : DpSet) (d : Desc) (data track : List Byte) (cr : Int) (t : Tick) (m j : Nat) : Pre :=
  let mrk := segMarkers x d data track j
  let s16 (o : Nat) : Int := (byteAt data (o + 1) ++ byteAt data o).toInt
  match d.fmt with
  | 0 =>
    let code := s16 (2 * j) >>> 4
    if s.s16Filtered then filteredPre s (code * 64) mrk else ⟨code * 64, mrk, .direct code, false⟩
  | 1 => filteredPre s (x.mixed s.spt t m (s16 (4 * j)) (s16 (4 * j + 2))) mrk
  | 2 =>
    let e := ((byteAt data j).toInt * d.gain) >>> 7
    let i := if e > 32767 then 32767 else if e < -32768 then -32768 else e
    filteredPre s (x.mixed s.spt t m i 0) mrk
  | _ =>
    let code := if d.m4code then cr else 0
    ⟨code * 64, mrk, .direct code, false⟩

/-- The block that covers tick `t` (the last to begin at or before it). -/
def Chan.blockAt (x : Chan) (t : Tick) : Option Blk :=
  x.blks.foldl (fun o b => if notAfter b.first t then some b else o) none

/-- The repeated code C_r of an M4 play (R157): from the sample carried just before the play, its final code on the direct path;
0 after park. -/
def Chan.repeated (x : Chan) : Int :=
  if x.last.parked then 0 else if x.last.direct then x.last.code.toInt else (clip12 ((x.last.x.toInt + 32) >>> 6)).1

/-- A fault hold covers tick `t` (R98). -/
def Chan.holdAt (x : Chan) (t : Tick) : Bool := x.holds.any fun h => notAfter h.1 t && before t h.2

/-- A fault hold is over at tick `t`, and no block has begun behind it. -/
def Chan.overHold (x : Chan) (t : Tick) : Bool :=
  x.holds.any fun h => notAfter h.2 t && (x.blockAt t).all fun b => before b.first h.2

/-- Sample `m` of tick `t` of a channel (R76, R96, R98, R198). `cr` is C_r of a running M4 play. The samples of a fault hold have
no source markers, as R205 says of samples at or after B; R198 lists those of the held sample (log entry 47). -/
def Chan.preSample (x : Chan) (s : DpSet) (cr : Int) (t : Tick) (m : Nat) : Pre :=
  let park : Pre := ⟨0, 0, .parked, false⟩
  let rest : Pre := ⟨0, x.marker, .direct 0, false⟩
  let held (mrk : BitVec 4) : Pre := if x.last.parked then park else ⟨x.last.x.toInt, mrk, .held, false⟩
  if (match x.parkAt with | some p => notAfter p t | none => false) then park
  else if x.holdAt t then held 0
  else if x.overHold t then park
  else match x.blockAt t with
    | none => park
    | some b =>
      let inside := before t b.stop
      match b.kind with
      | .rest => rest
      | .park => if inside then park else rest
      | .hold => if inside then held x.last.mrk else rest
      | .osc => if inside then filteredPre s (x.mixed s.spt t m 0x7FFF 0) x.marker else rest
      | .seg d data track => segPre x s d data track cr t m (((t - b.first).toNat * s.spt + m) % 64)

/-- The samples of one tick before stage 4, oldest first. -/
def Chan.tickPre (x : Chan) (s : DpSet) (cr : Int) (t : Tick) : List Pre :=
  (List.range s.spt).map fun m => x.preSample s cr t m

/-- Delay-line input at place `j` of the stream `past` (newest first) followed by `fut`; 0 where nothing was fed. -/
def lineAt (past : List Samp) (fut : List Pre) (j : Int) : Int :=
  if j < 0 then (match past[(-j - 1).toNat]? with | some p => p.x.toInt | none => 0)
  else (match fut[j.toNat]? with | some p => p.x | none => 0)

/-- Stage 4 at place `j` (R200). -/
def DpSet.firAt (s : DpSet) (past : List Samp) (fut : List Pre) (j : Nat) : Int :=
  match s.taps with
  | some h => ((List.range 32).foldl (fun acc i => acc + h.getD i 0 * lineAt past fut ((j : Int) + 8 - i)) 0 + 2 ^ 13) >>> 14
  | none => lineAt past fut j

/-- The code of the pre-sample at place `j`, and whether it was limited (R198, R201). -/
def DpSet.codeAt (s : DpSet) (x : Chan) (fut : List Pre) (j : Nat) : Int × Bool :=
  match fut[j]? with
  | some ⟨_, _, .direct v, _⟩ => (v, false)
  | some ⟨_, _, .filtered, _⟩ => clip12 ((s.firAt x.hist fut j + 32) >>> 6)
  | some ⟨_, _, .held, _⟩ => (x.last.code.toInt, false)
  | _ => (0, false)

/-- A sample carried with a code. -/
def Pre.carried (p : Pre) (code : Int) : Samp :=
  ⟨BitVec.ofInt 20 p.x, BitVec.ofInt 12 code, p.mrk, p.path = .parked, p.path ≠ .filtered, false⟩

/-- The actions of a channel for ticks up to `t` that are dispatched, applied to a copy of it. -/
def Chan.appliedTo (x : Chan) (t : Tick) : Chan :=
  (x.dispatched.filter fun a => notAfter a.tick t).foldl (fun x a => x.applyAct a.tick a.act)
    { x with dispatched := x.dispatched.filter fun a => !notAfter a.tick t }

/-- The channel as the next tick of the look-ahead finds it. The last sample alone has its code, which a HOLD or an M4 play behind
it takes: what it is with the samples behind it equal to it, as a HOLD makes them (R157, R198). -/
def Chan.afterPre (x : Chan) (s : DpSet) (ps : List Pre) : Chan :=
  match ps.getLast? with
  | some p =>
    let code := (s.codeAt x (ps ++ List.replicate 8 p) (ps.length - 1)).1
    { x with hist := (p.carried code :: (ps.dropLast.map fun q => q.carried 0).reverse ++ x.hist).take 64 }
  | none => x

/-- C_r at tick `t`: kept through an M4 play, formed anew when a block with a new play begins (R157). -/
def Chan.crAt (x : Chan) (t : Tick) (cr : Int) : Int :=
  match x.blockAt t with
  | some b => if b.start = t then x.repeated else cr
  | none => cr

/-- Pre-samples of the `n` ticks from `t` on: what the pipeline already holds of later ticks (R200, R204, R209). -/
def Chan.ahead (set : Tick → DpSet) (cr : Int) : Nat → Tick → Chan → List Pre
  | 0, _, _ => []
  | n + 1, t, x =>
    let x := x.appliedTo t
    let cr := x.crAt t cr
    let ps := x.tickPre (set t) cr t
    ps ++ Chan.ahead set cr n (t + 1) (x.afterPre (set t) ps)

/-- Marker delay D_b of channel `c`, limited to −64 to 64 (R204). -/
def Dev.markerDelay (d : Dev) (c : Fin 32) (b : Nat) : Int :=
  let v := (BitVec.ofNat 8 (bits (d.rd (R.CH_DP_MDLY c)) (8 * b + 7) (8 * b))).toInt
  if v > 64 then 64 else if v < -64 then -64 else v

/-- An unusable channel is parked `n` ticks after DT (R217). -/
def Dev.unusableIn (d : Dev) (c : Fin 32) (n : Nat) : Bool :=
  match d.cals[c].unusableAt with
  | some u => ((d.ch c).st = .idle && (d.ch c).holds.isEmpty) || notAfter u (d.ev.dt + tk n)
  | none => false

/-- The output stage of channel `c` is held parked `n` ticks after DT, as far as that is known now: by a range change, a change of its
chiplet's rate, or the loss of its 16th good sub-DAC (R217, R219, R441). -/
def Dev.rangingIn (d : Dev) (c : Fin 32) (n : Nat) : Bool :=
  (d.flag (F.CH_DAC_STATUS_RANGING c) && (n = 0 || d.ev.elapsed + n < d.cals[c].rangeEnd)) ||
  (d.get F.TELEM_SW_RATE_BUSY / 2 ^ chiplet c % 2 == 1 && (n = 0 || d.ev.elapsed + n < d.rateEnd.toList.getD (chiplet c) 0)) ||
  d.unusableIn c n

/-- Source markers at place `j` of the stream: past samples newest first, then what is ahead; 0 where the output stage parks the
sample (R204, R205). -/
def markersAt (past : List Samp) (fut : List Pre) (mute : Nat → Bool) (j : Int) : BitVec 4 :=
  if j < 0 then (match past[(-j - 1).toNat]? with | some p => if p.mute then 0 else p.mrk | none => 0)
  else (match fut[j.toNat]? with | some p => if mute j.toNat then 0 else p.mrk | none => 0)

/-- Ticks that the datapath holds beyond the present one: enough for 64 samples. -/
def lookTicks (spt : Nat) : Nat := 64 / spt

/-- Everything the pipeline of channel `c` holds from tick DT on. -/
def Dev.stream (d : Dev) (c : Fin 32) (cr : Int) : List Pre :=
  Chan.ahead (d.dpSet c) cr (1 + lookTicks (d.spt c)) d.ev.dt (d.ch c)

/-- The output stands parked at tick `t` after a STOP, a fault or the end of its run (R205). -/
def Chan.stopped (x : Chan) (t : Tick) : Bool := x.parkAt.any (notAfter · t) || x.overHold t

/-- The channel carries nothing at tick `t`: no block of a run has begun, or the output stands parked (R205). -/
def Chan.off (x : Chan) (t : Tick) : Bool := (x.blockAt t).isNone || x.stopped t

/-- Marker bit `b` of the container at place `j` of tick DT (R204), of samples that the channel does not carry 0. The fault hold
repeats the last container, and from the park on every bit reads 0 (R205). -/
def Dev.containerBit (d : Dev) (c : Fin 32) (fut : List Pre) (j b : Nat) : Bool :=
  let x := d.ch c
  if x.stopped d.ev.dt then false
  else if x.holdAt d.ev.dt then ((x.outs.getLast?).getD 0).getLsbD b
  else (markersAt x.hist fut (fun i => d.rangingIn c (i / d.spt c)) ((j : Int) - d.markerDelay c b)).getLsbD b

/-- The container with code `v` at place `j` of tick DT (R5, R197). -/
def Dev.container (d : Dev) (c : Fin 32) (fut : List Pre) (v : Int) (j : Nat) : BitVec 16 :=
  let m := (List.range 4).foldl (fun n b => n + bit (d.containerBit c fut j b) * 2 ^ b) 0
  BitVec.ofInt 12 v ++ BitVec.ofNat 4 m

end Sys2Proof.Machine
end

