-- ==== Sys2Proof/Machine/Output.lean ====
section
/-! DEFINITION. Dispatch of timed actions, commits of blocks, and what the output does on its ticks (R78, R95, R96,
R98, R153 to R180, R186). -/

namespace Sys2Proof.Machine

/-- What an action in effect does beyond its channel (R131, R149). -/
def Dev.outerAct (d : Dev) (c : Fin 32) (a : TAct) : Dev :=
  match a.act with
  | .sig e => d.emit e a.tick 0 3 (BitVec.ofNat 16 c.val) false a.tick
  | .irq => d.set (F.CH_SEQ_IRQ_STATUS_SEQ c) 1
  | _ => d

/-- The dispatched actions whose tick has begun take effect, in order (R77, R186). -/
def Dev.takeEffect (d : Dev) (c : Fin 32) : Dev :=
  let x := d.ch c
  let due := x.dispatched.filter fun a => notAfter a.tick d.ev.dt
  due.foldl (fun d a => d.outerAct c a) (d.setCh c (x.appliedTo d.ev.dt))

/-- The output stage of channel `c` is held parked in tick DT (R217, R219, R441). -/
def Dev.ranging (d : Dev) (c : Fin 32) : Bool := d.rangingIn c 0

/-- What the pipeline of channel `c` holds from tick DT on. -/
def Dev.present (d : Dev) (c : Fin 32) : List Pre := d.stream c (d.ch c).cr.toInt

/-- The codes of tick DT before the output stage, and whether each was limited. -/
def Dev.tickCodes (d : Dev) (c : Fin 32) (fut : List Pre) : List (Int × Bool) :=
  (List.range (d.spt c)).map fun j => (d.dpSet c d.ev.dt).codeAt (d.ch c) fut j

/-- The containers of tick DT (R5, R197, R204, R205): none while the output stands parked with nothing committed. -/
def Dev.tickOuts (d : Dev) (c : Fin 32) (fut : List Pre) : List (BitVec 16) :=
  let x := d.ch c
  let codes := d.tickCodes c fut
  let parked := d.ranging c || x.off d.ev.dt
  if x.stopped d.ev.dt || x.blks = [] then []
  else (List.range (d.spt c)).map fun j => d.container c fut (if parked then 0 else (codes.getD j (0, false)).1) j

/-- The history after `n` samples with the output parked: 0 goes into the delay line, and the markers of earlier samples show no more
(R198, R205). One that holds nothing but 0 counts as empty. -/
def Chan.fed (x : Chan) (n : Nat) : List Samp :=
  let h := (List.replicate n (⟨0, 0, 0, true, true, false⟩ : Samp) ++ x.hist.map fun (s : Samp) => { s with mute := true }).take 64
  if h.all (·.x = 0) then [] else h

/-- The samples of tick DT of one channel leave the reference plane (R197 to R205): counts, flags, history. Ticks that a range
change parks carry park, and the stream behind the output stage goes on (R220); before its first block a run already sends the
markers that a negative delay brings forward (R204). Samples that the output stage parks, for a range change or on an unusable
channel, set and count neither SAT nor CLIP (DESIGN CHOICE, log entry 47). -/
def Dev.renderTick (d : Dev) (c : Fin 32) : Dev :=
  let x := d.ch c
  let t := d.ev.dt
  let fut := d.present c
  let outs := d.tickOuts c fut
  if x.off t then
    if x.hist = x.fed (d.spt c) && x.outs = outs && x.cr = 0 then d
    else d.setCh c { x with hist := x.fed (d.spt c), outs := outs, cr := 0 }
  else
    let rg := d.ranging c
    let cr := x.crAt t x.cr.toInt
    let pres := fut.take (d.spt c)
    let codes := d.tickCodes c fut
    let carried := if rg then 0 else (pres.filter fun p => p.path ≠ .parked).length
    let sats := if rg then 0 else (pres.filter (·.sat)).length
    let clips := if rg then 0 else (codes.filter (·.2)).length
    let samps := (pres.zip codes).map fun pc => ({ pc.1.carried pc.2.1 with mute := rg } : Samp)
    let d := d.setCh c { x with hist := (samps.reverse ++ x.hist).take 64, outs := outs, cr := BitVec.ofInt 12 cr,
                                blks := x.blks.filter fun b => notAfter (x.blockAt t |>.elim t (·.first)) b.first }
    let d := d.count64 (R.CH_DP_CNT c 0 0) carried
    let d := d.count64 (R.CH_DP_CNT c 1 0) sats
    let d := d.count64 (R.CH_DP_CNT c 2 0) clips
    let d := d.setIf (sats ≠ 0) (F.CH_DP_STATUS_SAT c) 1
    let d := d.setIf (clips ≠ 0) (F.CH_DP_STATUS_CLIP c) 1
    d.setIf (d.flag (F.CH_DAC_STATUS_RANGING c) && x.st ≠ .idle) (F.CH_DAC_STATUS_RANGE_PARKED c) 1

/-- The run of channel `c` ends at its output: what is due takes effect, the channel parks, its store empties, its record is written
(R77, R95, R96, R262). -/
def Dev.endRun (d : Dev) (c : Fin 32) (code abrt : Nat) : Dev :=
  ((d.takeEffect c).modCh c fun x => { x.stopIssue.parkOutput with st := .idle, store := [] }).completeRun c code abrt

/-- The schedule has run dry (R81). Between a STOP and its boundary B nothing is left to run dry: the check stands still (DESIGN
CHOICE, log entry 46). -/
def Dev.dry (d : Dev) (c : Fin 32) : Bool :=
  let x := d.ch c
  x.stopB.isNone && x.stall ≠ .event && notAfter (x.sc - 32) d.ev.dt

end Sys2Proof.Machine
end

