-- ==== Sys2Proof/Machine/ChannelOps.lean ====
section
/-! DEFINITION. What the sequencer and the output do by themselves, and the host commands of a channel (chapters 03,
06, 07). -/

namespace Sys2Proof.Machine

/-! ### Waiting instructions -/

/-- The ring, the records needed and the kinds accepted by a ring instruction word (R141 to R143). -/
def ringDemand (x : Chan) (w : W64) : Nat × Nat :=
  match opOf w with
  | 0x41 => (if xr w 15 14 = 1 then xr w 12 0 else (x.rg (fB w)).toNat, 1)
  | 0x92 => (ringSlot x w, xr w 29 14)
  | 0x93 => (ringSlot x w, xr w 17 14 + 1)
  | _ => (ringSlot x w, 1)

/-- The ring a waiting ring instruction finds not ready (R143). DESIGN CHOICE, unsafe (log entry 46): only its STALL RING counts
toward CH.SEQ_RING_TMO. -/
def Dev.starved (d : Dev) (c : Fin 32) : Option Nat :=
  let x := d.ch c
  match x.held with
  | some w =>
    if x.stall = .ring then
      let (slot, need) := ringDemand x w
      match d.ringOfSlot c slot with
      | some q => if d.ready q < need then some q else none
      | none => none
    else none
  | none => none

/-- RING_TIMEOUT: the ring is not ready and the wait has reached CH.SEQ_RING_TMO (R143, R291). -/
def Dev.ringTimeout (d : Dev) (c : Fin 32) : Dev :=
  match d.starved c with
  | some q =>
    if (d.ch c).ringWait < d.get (F.CH_SEQ_RING_TMO_TMO c) then d
    else if !(d.ch c).quiet then d.fault c 6 0 q
    else if (d.ch c).lateFault d.ev.dt then d.faultAlso c 6 0 q
    else d
  | none => d

/-- WAITEV_MATCH: a waiting WAITEV that matches an event resolves (R85, R86). -/
def Dev.waitevMatch (d : Dev) (c : Fin 32) : Dev :=
  match (d.ch c).held with
  | some w => if (d.waitMatch c w).isSome && !d.presentsDue c then d.retry c .event effectOf else d
  | none => d

/-- WAITEV_TIMEOUT: a waiting WAITEV that matches nothing resolves at its deadline (R120). -/
def Dev.waitevTimeout (d : Dev) (c : Fin 32) : Dev :=
  match (d.ch c).held with
  | some w => if (d.waitMatch c w).isNone && !d.presentsDue c then d.retry c .event effectOf else d
  | none => d

/-! ### The output -/

/-- DEV.CTRL.PARK_ALL clears when every channel has parked; a queued one begins (R58). -/
def Dev.parkAllCheck (d : Dev) : Dev :=
  if d.flag F.DEV_CTRL_PARK_ALL && (List.finRange 32).all (fun c => !(d.ch c).active? && (d.ch c).parked) then
    if d.flag F.DEV_CTRL_PENDING then (d.set F.DEV_CTRL_PENDING 0).set F.DEV_CTRL_PARK_ALL 0
    else d.set F.DEV_CTRL_PARK_ALL 0
  else d

/-- SCHEDULE_DRY (R81): UNDERRUN 0b000, with B the first block boundary at or after SC. A second fault of the same
tick sets MORE (R99). -/
def Dev.scheduleDry (d : Dev) (c : Fin 32) : Dev :=
  let x := d.ch c
  let b := d.boundaryAfter c x.sc
  let arg := x.sc.toNat % 2 ^ 32
  if x.st = .run && d.dry c then d.faultAt c 3 0 arg x.pc.toNat b
  else if x.faultedIn d.ev.dt && d.dry c && d.get (F.CH_SEQ_FAULT_CAUSE c) ≠ 3 then d.faultMore c 3 0 arg x.pc.toNat b
  else d

/-- The channel at tick `t`, the fault holds that have ended taken off its output: one with no run parks with the last of them, and a
run begun meanwhile keeps its own schedule (R98, R180). -/
def Chan.holdsOver (x : Chan) (t : Tick) : Chan :=
  let done (h : Tick × Tick) : Bool := notAfter h.2 t
  let left := x.holds.filter fun h => !done h
  let b := if notAfter x.faultEnd t then none else x.faultB
  if x.quiet && left = [] && b = none then x.parkOutput
  else { x with holds := left, faultB := b, blks := x.blks.filter fun k => !x.holds.any fun h => done h && before k.first h.2 }

/-- FAULT_PARK: a fault hold has ended and the channel parks (R98, R180). -/
def Dev.faultPark (d : Dev) (c : Fin 32) : Dev :=
  let x := d.ch c
  if (x.faultB.isSome && notAfter x.faultEnd d.ev.dt) || x.holds.any (fun h => notAfter h.2 d.ev.dt) then
    (d.setCh c (x.holdsOver d.ev.dt)).parkAllCheck
  else d

/-- STOP_END: the output of a stopped run reaches B (R96). -/
def Dev.stopEnd (d : Dev) (c : Fin 32) : Dev :=
  match (d.ch c).stopB with
  | some b => if notAfter b d.ev.dt then (d.endRun c 3 1).parkAllCheck else d
  | none => d

/-- DRAIN_END: the output of a draining channel reaches SC (R95). -/
def Dev.drainEnd (d : Dev) (c : Fin 32) : Dev :=
  let x := d.ch c
  if x.st = .drain && x.stopB.isNone && notAfter x.sc d.ev.dt then
    (d.endRun c 2 (d.get (F.CH_SEQ_STATUS_ABRT c))).parkAllCheck
  else d

/-! ### Runs -/

/-- The run's schedule begins at `t` (R94, R153). -/
def Chan.beginAt (x : Chan) (t : Tick) : Chan :=
  { x with st := .run, sc := t, firstSc := t, nextS := some t, committed := false }

/-- EVENT_START: an ARMED channel sees its START_EV (R94, R262). -/
def Dev.eventStart (d : Dev) (c : Fin 32) : Dev :=
  let x := d.ch c
  let fast := d.fast c
  let code := d.get (F.CH_SEQ_MODE_START_EV c)
  if x.st = .armed && !d.presentsDue c then
    match (x.store.filter fun e => e.code.toNat = code && before x.cutoff (e.key fast)).foldl (firstWait fast) none with
    | some e =>
      let y := d.matched c e x.goTick x.goTick
      d.setCh c (y.beginAt y.sc)
    | none => d
  else d

/-- A register has a value pending, or its LO half in staging (R51, R53, R63). -/
def Dev.waiting (d : Dev) (a : Nat) : Bool := d.pend.any (·.addr = a) || d.staged.any (·.1 = a)

/-- A test-port instruction that drives the pins is in force: EXTEST, HIGHZ, CLAMP, EXTEST_PULSE, EXTEST_TRAIN (R414). -/
def Board.pinsTaken (b : Board) : Bool := [0, 4, 5, 6, 7].contains b.jtag.toNat

/-- A GO taken in IDLE ends REJECTED: before Stage C (R384), on bypass (R367), at thermal level CRIT or TRIP (R438),
during a rate change of its chiplet (R441), under boundary scan (R414), or with START_MODE 0b11. -/
def Dev.goRejected (d : Dev) (c : Fin 32) : Bool :=
  d.stage < 3 || d.board.pinsTaken || d.bypassed || 2 ≤ d.get F.TELEM_THERM_LEVEL || d.get F.TELEM_SW_RATE_BUSY / 2 ^ chiplet c % 2 = 1 ||
  d.get (F.CH_SEQ_MODE_START_MODE c) = 3

/-- The output where a run begins, or ends before a block of it is committed: what faults of runs before it still have the output carry
out stays, with the actions dispatched for ticks before their boundaries B (R98, R149, R313); nothing of its buffers does (R180), but
the record copies are Caravan's (R281). -/
def Chan.leaveOld (x : Chan) (t : Tick) : Chan :=
  let hs := x.holds.filter fun h => before t h.2
  { x with parkAt := none, nextS := none, cur := ⟨.park, 0, 0⟩, fetches := [], stage := [], panic := false, faultB := none, holds := hs
           blks := if hs = [] then [] else x.blks
           dispatched := x.dispatched.filter fun a => hs.any fun h => before a.tick h.1 }

/-- An unusable channel whose run begins has committed nothing, so it is parked from then on; what faults of runs before it still
have it carry out ends first (R217). -/
def Dev.unusableNow (d : Dev) (c : Fin 32) : Dev :=
  let t := if (d.ch c).holds.isEmpty then d.ev.dt else d.ev.dt + 64
  { d with cals := d.cals.set c { d.cals[c] with unusableAt := d.cals[c].unusableAt.map fun u => tmin u t } }

/-- A run begins (R91, R94, R262): stacks, queue, store and counters empty, the PC at ENTRY, the marker register 0. -/
def Dev.beginRun (d : Dev) (c : Fin 32) : Dev :=
  let d := ((d.set (F.CH_SEQ_STATUS_CODE c) 1).set (F.CH_SEQ_STATUS_ABRT c) 0).set (F.CH_SEQ_CTRL_GO c) 1
  let entry := d.get (F.CH_SEQ_MODE_ENTRY c)
  (d.unusableNow c).modCh c fun x =>
    { x.stopIssue.leaveOld d.ev.dt with
                       goReq := false, goTick := d.ev.dt, cutoff := d.ev.dt, store := [], queue := []
                       loops := [], rets := [], l := Vector.replicate 4 0, marker := 0
                       pc := BitVec.ofNat 16 entry, leadPc := BitVec.ofNat 15 entry, committed := false }

/-- A GO ends at once with LATE or REJECTED (R94). -/
def Dev.goEnds (d : Dev) (c : Fin 32) (code : Nat) : Dev :=
  (d.modCh c fun x => { x with goReq := false }).completeRun c code 0

/-- GO taken in IDLE with its fields settled (R94). -/
def Dev.goIdle (d : Dev) (c : Fin 32) : Dev :=
  if d.goRejected c then d.goEnds c 6
  else
    let dt := d.ev.dt
    match d.get (F.CH_SEQ_MODE_START_MODE c) with
    | 0 => (d.beginRun c).modCh c (·.beginAt (dt + 64))
    | 1 =>
      let t := d.get64 (R.CH_SEQ_START c 0)
      let gap := (t - dt).toNat
      if 64 ≤ gap && gap < 2 ^ 63 then (d.beginRun c).modCh c (·.beginAt t) else d.goEnds c 5
    | _ => (d.beginRun c).modCh c fun x => { x with st := .armed, nextS := none }

/-- A field of CH.SEQ_MODE or CH.SEQ_START of channel `c` is pending, so no GO is taken (R53, R94). -/
def Dev.goHeld (d : Dev) (c : Fin 32) : Bool :=
  d.waiting (R.CH_SEQ_MODE c) || d.waiting (R.CH_SEQ_START c 0) || d.waiting (R.CH_SEQ_START c 1)

/-- GO (R94): once no field of CH.SEQ_MODE or CH.SEQ_START is pending it starts a run in IDLE and is rejected in FAULTED. In
every other state GO reads 1, so the write is queued at once (R58). -/
def Dev.go (d : Dev) (c : Fin 32) : Dev :=
  let wait := (d.set (F.CH_SEQ_CTRL_GO c) 1).modCh c fun x => { x with goReq := true }
  match (d.ch c).st with
  | .idle => if d.goHeld c then wait else d.goIdle c
  | .faulted => if d.goHeld c then wait else d.goEnds c 6
  | _ => d.set (F.CH_SEQ_CTRL_PENDING c) 1

/-- The faults that the present tick has for channel `c` whatever its sequencer does: of a ring wait, of the output, of a dry
schedule. They come before a STOP, BREAK or PARK_ALL of the tick (R99; one tick counts as one cycle, log entry 46). -/
def Dev.faultsFirst (d : Dev) (c : Fin 32) : Dev :=
  let d := d.ringTimeout c
  let d := if (d.ch c).active? && d.outputFaults c then d.outputStep c else d
  d.scheduleDry c

/-- The run ends with a code and an abort outcome before a block of it is committed (R96): the output stays as it stands. -/
def Dev.endEarly (d : Dev) (c : Fin 32) (code abrt : Nat) : Dev :=
  (d.modCh c fun x => { x.stopIssue.leaveOld d.ev.dt with st := .idle, queue := [], stopB := none, recs := [], store := [] }).completeRun c code abrt

/-- STOP with nothing to abort (R96): a queued GO is discarded (R60), and the record of a run that has failed in this tick shows
it (R99). -/
def Dev.stopIdle (d : Dev) (c : Fin 32) : Dev :=
  let d := (d.set (F.CH_SEQ_CTRL_PENDING c) 0).set (F.CH_SEQ_STATUS_ABRT c) 2
  if (d.ch c).faultedIn d.ev.dt then d.faultReport c else d

/-- STOP (R96), behind the faults of its tick (R99). A queued GO is discarded in every state (R60). -/
def Dev.stop (d : Dev) (c : Fin 32) : Dev :=
  let d := if (d.ch c).quiet || (d.ch c).stopB.isSome then d else d.faultsFirst c
  let x := d.ch c
  if x.quiet then d.stopIdle c
  else if x.stopB.isSome then d
  else
    let d := d.set (F.CH_SEQ_CTRL_PENDING c) 0
    let b := d.boundaryAfter c (d.ev.dt + 32)
    if x.st = .armed || (!x.committed && x.st ≠ .drain) then d.endEarly c 3 1
    else if x.st = .drain && before x.sc b then (d.set (F.CH_SEQ_CTRL_STOP c) 1).set (F.CH_SEQ_STATUS_ABRT c) 2
    else
      (d.set (F.CH_SEQ_CTRL_STOP c) 1).modCh c fun y =>
        { y.stopIssue with stopB := some b, parkAt := some b, queue := y.queue.filter fun a => before a.tick b }

/-- PARK_ALL (R96, R97): every active channel stops. -/
def Dev.parkAll (d : Dev) : Dev :=
  if d.flag F.DEV_CTRL_PARK_ALL then d.set F.DEV_CTRL_PENDING 1
  else
    let d := d.set F.DEV_CTRL_PARK_ALL 1
    ((List.finRange 32).foldl (fun d c => if (d.ch c).active? then d.stop c else d) d).parkAllCheck

/-- BREAK (R97), behind the faults of its tick (R99): at the next instruction boundary; ignored outside RUN. An instruction held back by run-ahead, a full queue or a full
send queue has not issued, so the boundary before it is taken at once; one that waits on a decision, an event or a ring has, and the
boundary behind it is awaited (DESIGN CHOICE, log entry 46). -/
def Dev.brk (d : Dev) (c : Fin 32) : Dev :=
  let d := if (d.ch c).st = .run && (d.ch c).stopB.isNone then d.faultsFirst c else d
  let x := d.ch c
  if x.st = .run && x.stopB.isNone then
    if x.stall = .decision || x.stall = .event || x.stall = .ring then
      (d.set (F.CH_SEQ_CTRL_BREAK c) 1).modCh c fun y => { y with breakReq := true }
    else (d.modCh c (·.stopIssue)).halt c
  else d

/-- SC re-based before RESUME or STEP (R97). -/
def Dev.rebase (d : Dev) (c : Fin 32) : Dev :=
  (d.countMod (F.CH_SEQ_STATUS_REBASE c)).modCh c fun x => { x with sc := tmax x.sc (d.ev.dt + 64) }

/-- RESUME (R97). -/
def Dev.resume (d : Dev) (c : Fin 32) : Dev :=
  if (d.ch c).st = .halted && (d.ch c).stopB.isNone then
    let d := (d.rebase c).modCh c fun x => { x with st := .run, stepping := false }
    let d := d.set (F.CH_SEQ_CTRL_STEP c) 0
    if (d.ch c).pc = 32768 then d.fetchBeyond c else d
  else d

/-- STEP (R97): one instruction from the program store, in HALTED. -/
def Dev.step (d : Dev) (c : Fin 32) : Dev :=
  let x := d.ch c
  if x.st = .halted && x.stopB.isNone && !x.stepping then
    let d := (d.rebase c).modCh c fun y => { y with stepping := true }
    (d.set (F.CH_SEQ_CTRL_STEP c) 1).issueNext c
  else d

/-- FAULT_CLEAR (R99). -/
def Dev.faultClear (d : Dev) (c : Fin 32) : Dev :=
  (d.wr (R.CH_SEQ_FAULT c) 0).modCh c fun x => if x.st = .faulted then { x with st := .idle } else x

/-! ### Host writes of a channel's own stores -/

/-- A G register write is accepted: IDLE, HALTED or FAULTED, and no STEP under way (R90). -/
def Chan.hostMayWrite (x : Chan) : Bool := x.quiet || (x.st = .halted && !x.stepping)

/-- A discarded write of a G register or the program store (R90, R92, R195). -/
def Dev.wrDenied (d : Dev) (c : Fin 32) : Dev := d.set (F.CH_SEQ_STATUS_WR_DENIED c) 1

/-- G_WRITE (R90). -/
def Dev.gWrite (d : Dev) (c : Fin 32) (i : Fin 16) (be : BitVec 4) (v : W32) : Dev :=
  let x := d.ch c
  if x.hostMayWrite then d.setCh c { x with g := x.g.set i (mergeBytes x.g[i] be v) } else d.wrDenied c

/-- PROGRAM_STORE_WRITE (R92, R357, R457). -/
def Dev.progWrite (d : Dev) (c : Fin 32) (off : Nat) (data : List Byte) : Dev :=
  let x := d.ch c
  if 0x40000 < off + data.length then d
  else if x.quiet || x.st = .halted then
    let d := d.abandonOver .programStore (progAt c off) data.length
    { d with mem := { d.mem with prog := d.mem.prog.writeUnits 8 (progAt c off) data } }
  else d.wrDenied c

/-- The host may write oscillators and slots (R195). -/
def Dev.ncoFree (d : Dev) (c : Fin 32) : Bool :=
  let x := d.ch c
  x.st = .idle || (x.st = .faulted && x.parked) ||
  (x.st = .halted && x.queue.isEmpty && !x.stepping && before x.sc d.ev.dt)

/-- CH.NCO_MIX as read (R195). -/
def Chan.mixWord (x : Chan) : W32 := BitVec.ofNat 32 (x.mixEna.toNat + 256 * bit x.baseband)

/-- CH.NCO_OSC_n as read. -/
def Chan.oscWord (x : Chan) (n : Fin 8) : W32 := BitVec.ofNat 32 (x.osc[n].slot.toNat + 256 * x.osc[n].amp.toNat)

/-- NCO_WRITE (R195): register 0 is CH.NCO_MIX, register n + 1 is CH.NCO_OSC_n. -/
def Dev.ncoWrite (d : Dev) (c : Fin 32) (r : Fin 9) (be : BitVec 4) (v : W32) : Dev :=
  let x := d.ch c
  if !d.ncoFree c then d.wrDenied c
  else if h : r.val = 0 then
    let w := mergeBytes x.mixWord be v
    d.setCh c { x with mixEna := w.setWidth 8, baseband := w.getLsbD 8 }
  else
    let n : Fin 8 := ⟨r.val - 1, by have := r.isLt; omega⟩
    let w := mergeBytes (x.oscWord n) be v
    d.setCh c { x with osc := x.osc.set n ⟨w.setWidth 8, (w >>> 8).setWidth 16⟩ }

/-- The completion of a Ledger command (R196). -/
def Dev.ledgerEnds (d : Dev) (c : Fin 32) (code reason : Nat) : Dev :=
  ((d.set (F.CH_LEDGER_STATUS_CODE c) code).set (F.CH_LEDGER_STATUS_ABRT c) 0).set (F.CH_LEDGER_STATUS_REASON c) reason

/-- The slot and DT copied into the readback registers (R196). -/
def Dev.ledgerCopy (d : Dev) (c : Fin 32) (l : BitVec 8) : Dev :=
  let s := (d.ch c).slot l
  let d := d.set64 (R.CH_LEDGER_RD c 0 0) (s.ftw.setWidth 64)
  let d := d.set64 (R.CH_LEDGER_RD c 1 0) (s.phi.setWidth 64)
  let d := d.set64 (R.CH_LEDGER_RD c 2 0) s.t0
  d.set64 (R.CH_LEDGER_RD c 3 0) d.ev.dt

/-- LEDGER_RD (R196). -/
def Dev.ledgerRd (d : Dev) (c : Fin 32) (l : BitVec 8) : Dev :=
  ((d.set (F.CH_LEDGER_CMD_SLOT c) l.toNat).ledgerCopy c l).ledgerEnds c 2 0

/-- LEDGER_WR, with the read of the same command when both bits are written (R195, R196). A state that forbids the write is reported
before a staged value that does not fit (DESIGN CHOICE, log entry 46). -/
def Dev.ledgerWr (d : Dev) (c : Fin 32) (l : BitVec 8) (andRead : Bool) : Dev :=
  let d := d.set (F.CH_LEDGER_CMD_SLOT c) l.toNat
  let ftw := d.get64 (R.CH_LEDGER_STG_FTW c 0)
  let phi := d.get64 (R.CH_LEDGER_STG_PHI c 0)
  if !d.ncoFree c then d.ledgerEnds c 6 1
  else if 2 ^ 48 ≤ ftw.toNat || 2 ^ 48 ≤ phi.toNat then d.ledgerEnds c 6 2
  else
    let d := d.modCh c (·.setSlot l ⟨ftw.setWidth 48, phi.setWidth 48, d.get64 (R.CH_LEDGER_STG_T0 c 0)⟩)
    (if andRead then d.ledgerCopy c l else d).ledgerEnds c 2 0

/-- A pending value, fixed by a block or not, gives bit `b` of register `a` the value `v` (R51). -/
def Dev.pendingGives (d : Dev) (a b : Nat) (v : Bool) : Bool :=
  d.pend.any fun p => p.addr = a && p.mask.getLsbD b && p.val.getLsbD b == v

/-- A coefficient write to `bank` of channel `c` is denied: the channel is busy, and the bank is in force or named by a pending
BANK value (R202). -/
def Dev.firDenies (d : Dev) (c : Fin 32) (bank : Fin 2) : Bool :=
  !(d.ch c).quiet && (d.get (F.CH_FIR_CTRL_BANK c) = bank.val || d.pendingGives (R.CH_FIR_CTRL c) 0 (bank = 1))

/-- FIR_COEF_WRITE (R202). -/
def Dev.firCoefWrite (d : Dev) (c : Fin 32) (bank : Fin 2) (i : Fin 32) (be : BitVec 4) (v : W32) : Dev :=
  let a := R.CH_FIR_COEF c bank i
  if d.firDenies c bank then d.set (F.CH_DP_STATUS_FIR_DENIED c) 1
  else d.wr a (mergeBytes (d.rd a) be v &&& 0xFFFF)

end Sys2Proof.Machine
end

