-- ==== Sys2Proof/Machine/ConvOps.lean ====
section
/-! DEFINITION. Converters: sub-DAC roles, rotation, range and rate changes (chapter 08), output-stage calibration and its
records (chapter 09). -/

namespace Sys2Proof.Machine

/-! ### Calibration state -/

/-- Calibration of channel `c`. -/
def Dev.cal (d : Dev) (c : Fin 32) : Cal := d.cals[c]

/-- Calibration of channel `c` changed. -/
def Dev.modCal (d : Dev) (c : Fin 32) (f : Cal → Cal) : Dev := { d with cals := d.cals.set c (f d.cals[c]) }

/-- The sensor assigned to channel `c` (R435). -/
def sensorOf (c : Fin 32) : Nat := c.val / 2

/-- The last reading of the sensor of channel `c`, and whether it is valid. -/
def Dev.tempWord (d : Dev) (c : Fin 32) : BitVec 16 := BitVec.ofNat 16 (d.get (F.TELEM_TEMP_VALUE (sensorOf c)))

/-- The sensor of channel `c` is valid. -/
def Dev.tempValid (d : Dev) (c : Fin 32) : Bool := d.flag (F.TELEM_TEMP_VALID (sensorOf c))

/-- Distance of two temperatures in 1/16 °C. -/
def tempMove (a b : BitVec 16) : Nat := (a.toInt - b.toInt).natAbs

/-- CAL_DELTA in 1/16 °C (R235). -/
def Dev.calDelta (d : Dev) (c : Fin 32) : Nat := 8 * min 32 (max 1 (d.get (F.CH_CAL_CTRL_CAL_DELTA c)))

/-- The output-stage values of the range in force. -/
def Dev.outVal (d : Dev) (c : Fin 32) : OutVal :=
  (d.cal c).outs.toList.getD (d.get (F.CH_DAC_CTRL_RANGE c)) ⟨0, 0, 0, false, 0⟩

/-- The temperature of channel `c` has moved more than `lim` from that of the last run in the range in force. -/
def Dev.tempMoved (d : Dev) (c : Fin 32) (lim : Nat) : Bool :=
  d.tempValid c && (d.outVal c).valid && lim < tempMove (d.tempWord c) (d.outVal c).temp

/-- Calibration of channel `c` is due, the temperature as the last comparison found it (R235). -/
def Dev.calDue (d : Dev) (c : Fin 32) : Bool := (d.cal c).dueKept || !(d.outVal c).valid || (d.cal c).moved

/-- CH.CAL_STATUS.DUE brought up to the conditions of R235. Only a due run is forced, and a CAL_FORCE of 0 never forces one. -/
def Dev.dueSync (d : Dev) (c : Fin 32) : Dev :=
  (d.set (F.CH_CAL_STATUS_DUE c) (bit (d.calDue c))).setIf (!d.calDue c || d.get (F.CH_CAL_CTRL_CAL_FORCE c) = 0) (F.CH_CAL_STATUS_FORCE_DUE c) 0

/-- The temperature of channel `c` compared with that of the last run in the range in force (R235, R239). -/
def Dev.compareTemp (d : Dev) (c : Fin 32) : Dev := d.modCal c fun k => { k with moved := d.tempMoved c (d.calDelta c) }

/-- An interrupt cause of CH.DAC_STATUS raised. -/
def Dev.dacCause (d : Dev) (c : Fin 32) (f : Fld) : Dev := (d.set f 1).set (F.CH_CAL_IRQ_STATUS_DAC c) 1

/-! ### Sub-DACs -/

/-- Role of sub-DAC `u`: 0 ACTIVE, 1 CAL, 2 STANDBY, 3 FAILED. -/
def Dev.role (d : Dev) (c : Fin 32) (u : Nat) : Nat := d.get (F.CH_DAC_SUB_ROLE c u)

/-- The first sub-DAC in a role. -/
def Dev.inRole (d : Dev) (c : Fin 32) (r : Nat) : Option Nat := (List.range 18).find? fun u => d.role c u = r

/-- A role that serves no position. -/
def Dev.setRole (d : Dev) (c : Fin 32) (u r : Nat) : Dev :=
  (d.set (F.CH_DAC_SUB_ROLE c u) r).set (F.CH_DAC_SUB_POS c u) 0

/-- Sub-DAC `u` serves position `p` (R216). -/
def Dev.serve (d : Dev) (c : Fin 32) (u p : Nat) : Dev :=
  let d := (d.set (F.CH_DAC_SUB_ROLE c u) 0).set (F.CH_DAC_SUB_POS c u) p
  d.set ⟨R.CH_DAC_MAP c (p / 4), 8 * (p % 4), 5⟩ u

/-- The check in progress starts over. -/
def Dev.restartCheck (d : Dev) (c : Fin 32) : Dev := d.modCal c fun x => { x with stepAt := d.ev.elapsed }

/-- The roles brought to the mix of R215: rotation runs with two spares or one, and a sub-DAC is in CAL while it does. -/
def Dev.roleMix (d : Dev) (c : Fin 32) : Dev :=
  let g := d.get (F.CH_DAC_STATUS_GOOD c)
  let rot := d.flag (F.CH_DAC_CTRL_ROT c)
  let run := rot && 17 ≤ g
  let d := if rot && g = 16 && !d.flag (F.CH_DAC_STATUS_ROT_LOST c) then d.dacCause c (F.CH_DAC_STATUS_ROT_LOST c) else d
  let d := d.set (F.CH_DAC_STATUS_ROT_ACTIVE c) (bit run)
  if run && (d.inRole c 1).isNone then
    match d.inRole c 2 with
    | some u => ((d.setRole c u 1).modCal c fun x => { x with failedOnce := none }).restartCheck c
    | none => d
  else d

/-! ### The bytes of a record (R241) -/

/-- One bit of CRC-32C in reflected form. -/
def crc32Bit (c : W32) : W32 := if c.getLsbD 0 then (c >>> 1) ^^^ 0x82F63B78 else c >>> 1

/-- One byte of CRC-32C. -/
def crc32Byte (c : W32) (b : Byte) : W32 :=
  let c := c ^^^ b.setWidth 32
  crc32Bit (crc32Bit (crc32Bit (crc32Bit (crc32Bit (crc32Bit (crc32Bit (crc32Bit c)))))))

/-- CRC-32C of RFC 3720 (R241). -/
def crc32c (bs : List Byte) : W32 := ~~~(bs.foldl crc32Byte 0xFFFFFFFF)

/-- A record's bytes before its CHECK. -/
def recordBody (gen ch good temp inl : Nat) (subs outs : List Byte) : List Byte :=
  leBytes 4 0x00010009 ++ leBytes 4 gen ++ leBytes 1 ch ++ leBytes 1 good ++ [0, 0] ++ leBytes 2 temp ++ leBytes 2 inl ++
  subs ++ outs ++ List.replicate 156 0

/-- A record with its CHECK. -/
def recordBytes (gen ch good temp inl : Nat) (subs outs : List Byte) : List Byte :=
  let b := recordBody gen ch good temp inl subs outs
  b ++ leBytes 4 (crc32c b).toNat

/-- A SUB entry of a record. -/
def subEntry (use ord flags skew rinl : Nat) : List Byte :=
  leBytes 10 use ++ leBytes 1 ord ++ leBytes 1 flags ++ leBytes 1 skew ++ [0] ++ leBytes 2 rinl

/-- The largest residual INL among the ACTIVE sub-DACs (R243). -/
def Dev.calInl (d : Dev) (c : Fin 32) : Nat :=
  (List.range 18).foldl (fun m u =>
    if d.role c u = 0 then max m (match (d.cal c).subs[u]? with | some s => s.rinl.toNat | none => 0) else m) 0

/-- The record of the values in force of channel `c` (R241, R242). -/
def Dev.calRecord (d : Dev) (c : Fin 32) (gen : Nat) : List Byte :=
  let k := d.cal c
  let subs := (List.range 18).flatMap fun u =>
    match k.subs[u]? with
    | some s => subEntry s.use.toNat s.ord.toNat
        (d.get (F.CH_DAC_SUB_FINE c u) + 2 * d.role c u + 8 * d.get (F.CH_DAC_SUB_POS c u)) (d.get (F.CH_DAC_SUB_SKEW c u)) s.rinl.toNat
    | none => []
  let outs := k.outs.toList.flatMap fun v =>
    leBytes 2 v.gain.toNat ++ leBytes 2 v.ofs.toNat ++ leBytes 2 v.temp.toNat ++ leBytes 1 (bit v.valid) ++ List.replicate 9 0
  recordBytes gen c.val (d.get (F.CH_DAC_STATUS_GOOD c)) (d.tempWord c).toNat (d.calInl c) subs outs

/-- Seconds in tick boundaries. -/
def seconds (n : Nat) : Nat := n * 400000000

/-- A record write begins with the values in force (R242). -/
def Dev.beginSave (d : Dev) (c : Fin 32) : Dev :=
  d.modCal c fun k => { k with saving := some (d.calRecord c (d.get (F.CH_CAL_GEN_GEN c) + 1)), fails := 0 }

/-- MTP_MIN has passed since the last record write (R242). -/
def Dev.mayWrite (d : Dev) (c : Fin 32) : Bool :=
  match (d.cal c).lastWrite with
  | some t => t + seconds (max 60 (d.get (F.CH_CAL_MTP_MTP_MIN c))) ≤ d.ev.elapsed
  | none => true

/-- A record write of channel `c` may begin: Reckoner is ready, and none is under way (R391). -/
def Dev.writerFree (d : Dev) (c : Fin 32) : Bool := (d.cal c).saving.isNone && d.flag F.MGMT_STATUS_READY

/-- A record write is requested (R242): it begins, or is deferred for MTP_MIN since the last write, or while Reckoner is not ready
(R391). -/
def Dev.requestRecord (d : Dev) (c : Fin 32) : Dev :=
  if d.writerFree c && d.mayWrite c then d.beginSave c else d.set (F.CH_CAL_MTP_DEFERRED c) 1

/-- Sub-DAC `u` declared FAILED (R217). An ACTIVE one leaves its position to a swap at the next frame boundary. -/
def Dev.failSub (d : Dev) (c : Fin 32) (u : Nat) : Dev :=
  if d.role c u = 3 then d
  else
    let pos := if d.role c u = 0 then [d.get (F.CH_DAC_SUB_POS c u)] else []
    let d := (d.setRole c u 3).modCal c fun x => { x with vacant := x.vacant ++ pos }
    let g := d.get (F.CH_DAC_STATUS_GOOD c) - 1
    let d := (d.set (F.CH_DAC_STATUS_GOOD c) g).dacCause c (F.CH_DAC_STATUS_SUB_FAIL c)
    let d := (d.roleMix c).requestRecord c
    if g < 16 && !d.flag (F.CH_DAC_STATUS_UNUSABLE c) then
      (d.dacCause c (F.CH_DAC_STATUS_UNUSABLE c)).modCal c fun x => { x with unusableAt := some (d.ch c).nextBoundary }
    else d

/-! ### Quality figures (R243) -/

/-- 65,536 times the mean of the squares of the deviations from their mean, of `n` values. -/
def spread (vs : List Int) : Nat :=
  let n := vs.length
  if n = 0 then 0
  else 65536 * (n * (vs.map fun v => v * v).sum - vs.sum * vs.sum).toNat / (n * n)

/-- SPUR of a term whose square is `x / 2^56`: the most steps of 0.5 dB by which one quarter of it lies below full scale. -/
def spurOf (x : Nat) : Nat :=
  (List.range 256).foldl (fun n i => if x ^ 20 * 10 ^ i ≤ 2 ^ 1200 then i else n) 0

/-- The spur estimate of R243 over the ACTIVE sub-DACs, from the mismatches of their last checks. The square of 2π is taken as
39.478417604. -/
def Dev.spur (d : Dev) (c : Fin 32) : Nat :=
  let subs := (List.range 18).filterMap fun u => if d.role c u = 0 then (d.cal c).subs[u]? else none
  let skew := 39478417604 * (8 * 10 ^ 8 / 2 ^ d.rate (chiplet c)) ^ 2 * 2 ^ 40 * spread (subs.map (·.slip)) / (10 ^ 9 * 10 ^ 32)
  spurOf (max (max (spread (subs.map (·.ofs))) (spread (subs.map (·.gain)))) skew)

/-- CH.CAL_QUAL.SPUR brought up to the ACTIVE sub-DACs. -/
def Dev.spurSync (d : Dev) (c : Fin 32) : Dev := d.set (F.CH_CAL_QUAL_SPUR c) (d.spur c)

/-- What a check chose goes into the sub-DAC (R213, R230), with the mismatches it measured. -/
def Dev.takeCheck (d : Dev) (c : Fin 32) (u : Nat) (r : CheckResult) : Dev :=
  let d := (d.set (F.CH_DAC_SUB_FINE c u) (bit r.fine)).set (F.CH_DAC_SUB_SKEW c u) r.skew.toNat
  let m := Config.mismatch d.free
  ({ d with free := d.free + 1 }.modCal c fun x =>
    { x with subs := x.subs.setIfInBounds u ⟨r.use, r.ord, r.rinl, d.ev.elapsed, m.1, m.2.1, m.2.2⟩ }).spurSync c

/-- Bits set in a word. -/
def popcount {n : Nat} (w : BitVec n) : Nat := ((List.range n).filter w.getLsbD).length

/-- The check found the sub-DAC within the limits of R231, with 64 units chosen (R213). -/
def checkGood (r : CheckResult) : Bool := r.passed && popcount r.use = 64 && r.rinl.toNat ≤ 16

/-- Boundary count of the last check of sub-DAC `u`. -/
def Cal.checkedAt (x : Cal) (u : Nat) : Nat := match x.subs[u]? with | some s => s.checked | none => 0

/-- The victim of R229: the ACTIVE sub-DAC whose last check ended earliest. -/
def Dev.victim (d : Dev) (c : Fin 32) : Option Nat :=
  (List.range 18).foldl (fun best u =>
    if d.role c u ≠ 0 then best
    else match best with
      | none => some u
      | some b => if (d.cal c).checkedAt u < (d.cal c).checkedAt b then some u else best) none

/-- The sub-DAC under check: the one in CAL, or with rotation off a STANDBY; the one whose check failed first (R231, R234). -/
def Dev.underCheck (d : Dev) (c : Fin 32) : Option Nat :=
  match d.inRole c 1 with
  | some u => some u
  | none =>
    let due (u : Nat) : Bool := d.role c u = 2 && (d.cal c).checkedAt u + 340000 ≤ d.ev.elapsed
    match (d.cal c).failedOnce with
    | some u => if due u then some u else (List.range 18).find? due
    | none => (List.range 18).find? due

/-- Boundary count at which the check of sub-DAC `u` began: with rotation off, each STANDBY has one every 0.9 ms (R234). -/
def Dev.checkStart (d : Dev) (c : Fin 32) (u : Nat) : Nat :=
  max (d.cal c).stepAt (if d.role c u = 2 then (d.cal c).checkedAt u + 340000 else 0)

/-- The swap that ends a rotation step (R229): sub-DAC `u`, just checked, or the STANDBY before it takes the victim's position. -/
def Dev.swapIn (d : Dev) (c : Fin 32) (u : Nat) : Dev :=
  if !d.flag (F.CH_DAC_STATUS_ROT_ACTIVE c) then d.setRole c u 2
  else match d.victim c with
    | none => d
    | some v =>
      let p := d.get (F.CH_DAC_SUB_POS c v)
      match d.inRole c 2 with
      | some s => ((d.serve c s p).setRole c v 1).setRole c u 2
      | none => (d.serve c u p).setRole c v 1

/-- A vacant position is taken by a STANDBY, or by the sub-DAC that passed its check (R217). -/
def Dev.fillVacant (d : Dev) (c : Fin 32) : Dev :=
  match (d.cal c).vacant with
  | [] => d
  | p :: ps =>
    match d.inRole c 2 with
    | some s => (d.serve c s p).modCal c fun x => { x with vacant := ps }
    | none => match (d.cal c).swapDue with
      | some u => ((d.serve c u p).modCal c fun x => { x with vacant := ps, swapDue := none }).countSat (F.CH_CAL_CNT_HI c 0)
      | none => d

/-- Ticks of an interleave frame of channel `c` (R214). -/
def Dev.frameTicks (d : Dev) (c : Fin 32) : Nat := 16 / d.spt c

/-- A frame boundary of channel `c` (R214): vacant positions are filled, and a check that passed ends with its swap; the next step
begins here (R216, R217, R229). A swap that is due when an output-stage run starts is made all the same (DESIGN CHOICE, log entry
19). -/
def Dev.frameTick (d : Dev) (c : Fin 32) : Dev :=
  if ((d.cal c).vacant = [] && (d.cal c).swapDue.isNone) || d.ev.dt.toNat % d.frameTicks c ≠ 0 then d
  else
    let d := (d.fillVacant c).fillVacant c
    let d := match (d.cal c).swapDue with
      | some u => (((d.modCal c fun x => { x with swapDue := none }).swapIn c u).countSat (F.CH_CAL_CNT_HI c 0)).restartCheck c
      | none => d
    (d.roleMix c).spurSync c

/-- The check of sub-DAC `u` ended with a pass: one in CAL waits for the frame boundary of its swap (R229), and with rotation
switched off becomes STANDBY (R233). -/
def Dev.checkPassed (d : Dev) (c : Fin 32) (u : Nat) : Dev :=
  let d := (d.modCal c fun x => { x with failedOnce := none }).restartCheck c
  if d.role c u ≠ 1 then d
  else if d.flag (F.CH_DAC_CTRL_ROT c) then d.modCal c fun x => { x with swapDue := some u }
  else d.setRole c u 2

/-- The check of sub-DAC `u` ended without one: with rotation switched off the one in CAL becomes STANDBY with the values it held
(R233), else what `go` does with it happens. -/
def Dev.checkLost (d : Dev) (c : Fin 32) (u : Nat) (go : Dev → Dev) : Dev :=
  if d.role c u = 1 && !d.flag (F.CH_DAC_CTRL_ROT c) then (d.setRole c u 2).modCal c fun x => { x with failedOnce := none }
  else go d

/-- ROTATION_STEP (R229 to R234): a check of 20,000 ticks ends, or is abandoned before. -/
def Dev.rotationStep (d : Dev) (c : Fin 32) (saturated : Bool) (r : CheckResult) : Dev :=
  let k := d.cal c
  if k.run.isSome || k.swapDue.isSome || !d.runs (19 + chiplet c) || d.flag F.CLK_PLL_STATUS_SYS_BYPASS then d
  else match d.underCheck c with
    | none => d
    | some u =>
      if d.ev.elapsed < d.checkStart c u then d
      else if saturated then
        d.checkLost c u fun d => (d.countSat (F.CH_CAL_CNT_LO c 1)).modCal c fun x => { x with stepAt := d.ev.elapsed + 1 }
      else if d.ev.elapsed < d.checkStart c u + 20000 then d
      else if checkGood r then (d.takeCheck c u r).checkPassed c u
      else if k.failedOnce = some u then
        d.checkLost c u fun d => ((d.modCal c fun x => { x with failedOnce := none }).failSub c u).restartCheck c
      else d.checkLost c u fun d => (d.modCal c fun x => { x with failedOnce := some u }).restartCheck c

/-- A phase boundary of a check before its Verify phase ends the check of a channel whose rotation was switched off: the
sub-DAC keeps its values and becomes STANDBY (R233). -/
def Dev.rotationOff (d : Dev) (c : Fin 32) : Dev :=
  if d.flag (F.CH_DAC_CTRL_ROT c) || (d.cal c).run.isSome then d
  else match d.inRole c 1 with
    | some u => if [800, 10400, 13600, 14400, 17600].contains (d.ev.elapsed - (d.cal c).stepAt) then
        (d.setRole c u 2).modCal c fun x => { x with failedOnce := none }
      else d
    | none => d

/-! ### Chiplets -/

/-- Chiplet `n` woken (R225, R432), its link with it (R26): a check that its sleep abandoned starts over (R233). The domains of
a running chiplet drop a gate attempt (R379). On bypass the converters stay stopped (R367), and after a TRIP (R438). -/
def Dev.wakeChiplet (d : Dev) (n : Nat) : Dev :=
  if d.stage < 3 || d.bypassed || d.tripped then d
  else
    let awake := d.runs (19 + n)
    let d := (d.setRuns (15 + n) true).setRuns (19 + n) true
    if awake then d else (List.finRange 32).foldl (fun d c => if chiplet c = n then d.restartCheck c else d) d

/-! ### Output-stage runs -/

/-- The record and STATUS record of an output-stage run (R59, R288). -/
def Dev.calEnds (d : Dev) (c : Fin 32) (code reason kind : Nat) : Dev :=
  let d := (d.set (F.CH_CAL_STATUS_CODE c) code).set (F.CH_CAL_STATUS_RUNNING c) 0
  d.emitStatus 1 c.val [1, BitVec.ofNat 8 c.val, BitVec.ofNat 8 code, BitVec.ofNat 8 (reason + 16 * kind)]

/-- KIND of a run. -/
def kindOf : CalKind → Nat
  | .idle => 0
  | .window => 1
  | .forced => 2

/-- A block of channel `c` begins at tick DT. -/
def Dev.atBoundary (d : Dev) (c : Fin 32) : Bool := (d.ch c).blks.any fun b => b.first = d.ev.dt

/-- The output of channel `c` has blocks (R50: it is playing). -/
def Dev.playing (d : Dev) (c : Fin 32) : Bool := (d.ch c).nextS.isSome || !(d.ch c).blks.isEmpty

/-- An output-stage run may begin on channel `c`: none is in progress, and the system PLL runs (R236, R373). -/
def Dev.runFree (d : Dev) (c : Fin 32) : Bool := 3 ≤ d.stage && (d.cal c).run.isNone && !d.flag F.CLK_PLL_STATUS_SYS_BYPASS

/-- An IDLE run of channel `c` is due: it wakes the chiplet, and starts once that is awake (R236, R432, R433). -/
def Dev.idleRunDue (d : Dev) (c : Fin 32) : Bool :=
  d.runFree c && (d.ch c).st = .idle && d.flag (F.CH_CAL_CTRL_IDLE_EN c) && d.flag (F.CH_CAL_STATUS_DUE c) &&
  !d.flag (F.CH_DAC_STATUS_RANGING c) && (d.cal c).retryAt ≤ d.ev.elapsed

/-- The start conditions of R236. A FORCED run of an ARMED channel, which has no block boundary, starts in any tick at least one after
FORCE_DUE was set (DESIGN CHOICE, log entry 19). -/
def Dev.runMayStart (d : Dev) (c : Fin 32) (kind : CalKind) : Bool :=
  let x := d.ch c
  let k := d.cal c
  d.runFree c &&
  match kind with
  | .idle => d.idleRunDue c && d.runs (19 + chiplet c)
  | .window => match x.calWin with | some (t, _) => t = d.ev.dt | none => false
  | .forced => x.active? && d.flag (F.CH_CAL_STATUS_FORCE_DUE c) && k.barred.isNone &&
      (if d.playing c then d.atBoundary c && k.forceAt + 32 ≤ d.ev.elapsed else k.forceAt + 1 ≤ d.ev.elapsed)

/-- CAL_RUN_START (R236, R237). A queued RUN makes calibration due again. -/
def Dev.calRunStart (d : Dev) (c : Fin 32) (kind : CalKind) : Dev :=
  if !d.runMayStart c kind then d
  else
    let again := d.flag (F.CH_CAL_CTRL_PENDING c) && !(d.cal c).queuedSave
    let d := d.setIf (d.flag (F.CH_CAL_CTRL_RUN c)) (F.CH_CAL_CTRL_RUN c) (bit again)
    let d := d.setIf again (F.CH_CAL_CTRL_PENDING c) 0
    let d := (d.set (F.CH_CAL_STATUS_RUNNING c) 1).set (F.CH_CAL_STATUS_STALE c) 1
    let d := (d.set (F.CH_CAL_STATUS_KIND c) (kindOf kind)).set (F.CH_CAL_STATUS_CODE c) 1
    let d := d.setIf (kind = .forced) (F.CH_CAL_IRQ_STATUS_FORCED c) 1
    let h := (d.ch c).hist.head?
    let d := d.modCh c fun x => { x with calWin := none }
    d.modCal c fun k => { k with run := some (kind, d.ev.elapsed), ranAt := d.ev.elapsed, ranKind := kind, hold := h, staleEnd := none
                                 fromPark := h.all (·.parked), runTemp := d.tempWord c }

/-- CAL_HOLD ends: the pins carry the schedule again. -/
def Dev.holdEnds (d : Dev) (c : Fin 32) : Dev :=
  (d.set (F.CH_CAL_STATUS_STALE c) 0).modCal c fun k => { k with hold := none, staleEnd := none }

/-- The output of channel `c` carries park in tick DT: an interval of PARK, what a HOLD repeats after one, or no run (R93, R125,
R126). -/
def Dev.carriesPark (d : Dev) (c : Fin 32) : Bool :=
  ((d.ch c).preSample (d.dpSet c d.ev.dt) 0 d.ev.dt 0).path = .parked

/-- A park, a fault hold or a STOP that began during the run in progress, or since it was aborted, holds tick DT (R237). -/
def Dev.newPark (d : Dev) (c : Fin 32) : Bool :=
  let x := d.ch c
  let t := d.ev.dt - tk (d.ev.elapsed - (d.cal c).ranAt)
  let since (p : Tick) : Bool := notAfter t p && notAfter p d.ev.dt
  x.holdAt d.ev.dt || x.parkAt.any since || x.holds.any (fun h => since h.2) ||
  (match x.blockAt d.ev.dt with | some b => b.kind = .park && since b.start | none => false) ||
  ((d.cal c).ranKind ≠ .idle && (x.quiet || before t x.goTick))

/-- A play that begins during a run, or a park, fault hold or STOP in it, ends the park level that the run found (R237). -/
def Dev.leavesPark (d : Dev) (c : Fin 32) : Dev :=
  if (d.cal c).fromPark && (!d.carriesPark c || d.newPark c) then d.modCal c fun k => { k with fromPark := false } else d

/-- CAL_HOLD of an aborted run ends at the first block boundary at least 64 ticks after the abort (R238). -/
def Dev.staleTick (d : Dev) (c : Fin 32) : Dev :=
  let d := d.leavesPark c
  match (d.cal c).staleEnd with
  | some t => if t ≤ d.ev.elapsed && ((d.ch c).st = .idle || !d.playing c || d.atBoundary c) then d.holdEnds c else d
  | none => d

/-- CAL_RUN_END (R234, R237, R242): the run completes, its values take force, every ACTIVE sub-DAC that failed its verify
pass is retired, and a record write is requested. -/
def Dev.calRunEnd (d : Dev) (c : Fin 32) (gain ofs : BitVec 16) (failed : BitVec 18) : Dev :=
  match (d.cal c).run with
  | none => d
  | some (kind, t) =>
    if d.ev.elapsed < t + 48000 then d
    else
      let v : OutVal := ⟨gain, ofs, d.tempWord c, true, d.ev.elapsed⟩
      let r := d.get (F.CH_DAC_CTRL_RANGE c)
      let d := d.modCal c fun k => { k with outs := k.outs.setIfInBounds r v, run := none, dueKept := d.flag (F.CH_CAL_CTRL_RUN c)
                                            moved := false }
      let d := (d.holdEnds c).calEnds c 2 0 (kindOf kind)
      let d := (d.countSat (F.CH_CAL_CNT_LO c 0)).set (F.CH_CAL_IRQ_STATUS_DONE c) 1
      let d := ((d.set (F.CH_CAL_AGE_FROM_MTP c) 0).set (F.CH_CAL_STATUS_FORCE_DUE c) 0).dueSync c
      let d := (List.range 18).foldl (fun d u => if failed.getLsbD u && d.role c u = 0 then d.failSub c u else d) d
      (d.requestRecord c).restartCheck c

/-- An output-stage run in progress aborts with a reason of R238: 7 is PREEMPTED. -/
def Dev.calAbortNow (d : Dev) (c : Fin 32) (reason : Nat) : Dev :=
  match (d.cal c).run with
  | none => d
  | some (kind, _) =>
    let d := d.calEnds c (if reason = 7 then 3 else 4) reason (kindOf kind)
    let d := (d.set (F.CH_CAL_ABORT_REASON c) reason).set (F.CH_CAL_ABORT_KIND c) (kindOf kind)
    let d := ((d.countSat (F.CH_CAL_ABORT_COUNT c)).set (F.CH_CAL_ABORT_VALID c) 1).set (F.CH_CAL_IRQ_STATUS_ABORT c) 1
    let e := d.ev.elapsed
    let d := d.modCal c fun k => { k with
      run := none, dueKept := k.dueKept || d.flag (F.CH_CAL_STATUS_DUE c)
      barred := if reason ≤ 3 then some (d.tempWord c) else k.barred
      retryAt := if reason ≤ 3 then k.retryAt else e + 40000000
      staleEnd := some (e + 64) }
    let d := d.restartCheck c
    if (d.ch c).st = .idle || reason = 7 then d.holdEnds c else d

/-- An IDLE run in progress on channel `c` aborts PREEMPTED (R239). -/
def Dev.preempt (d : Dev) (c : Fin 32) : Dev :=
  match (d.cal c).run with
  | some (.idle, _) => d.calAbortNow c 7
  | _ => d

/-- The assigned sensor has moved more than 1 °C since the run of channel `c` began (R238). -/
def Dev.tempSlewed (d : Dev) (c : Fin 32) : Bool := d.tempValid c && 16 < tempMove (d.tempWord c) (d.cal c).runTemp

/-- CAL_ABORT (R238): the sense loop finds a reason. TEMP_SLEW is judged from the sensor, and PREEMPTED comes of R239's meetings
only. -/
def Dev.calAbort (d : Dev) (c : Fin 32) (reason : BitVec 4) : Dev :=
  if (1 ≤ reason.toNat && reason.toNat ≤ 5) || (reason = 6 && d.tempSlewed c) then d.calAbortNow c reason.toNat else d

/-- A conversion of the sensor of channel `c` ends a run during which it has moved more than 1 °C (R238). -/
def Dev.slewCheck (d : Dev) (c : Fin 32) : Dev :=
  if (d.cal c).run.isSome && d.tempSlewed c then d.calAbortNow c 6 else d

/-- CAL_COMPARE (R235): the comparison made once per millisecond. -/
def Dev.calCompare (d : Dev) (c : Fin 32) : Dev :=
  if d.ev.elapsed < (d.cal c).compAt + 400000 then d
  else
  let d := d.modCal c fun k => { k with compAt := d.ev.elapsed }
  let d := d.setIf (d.tempValid c) (F.CH_CAL_TEMP_NOW c) (d.tempWord c).toNat
  let k := d.cal c
  let d := match k.barred with
    | some t => if d.tempValid c && d.calDelta c < tempMove (d.tempWord c) t then d.modCal c fun k => { k with barred := none } else d
    | none => d
  let d := (d.compareTemp c).dueSync c
  let lim := d.get (F.CH_CAL_CTRL_CAL_FORCE c)
  let force := lim ≠ 0 && d.flag (F.CH_CAL_STATUS_DUE c) && d.tempMoved c (16 * lim)
  let d := if force && !d.flag (F.CH_CAL_STATUS_FORCE_DUE c) then d.modCal c fun k => { k with forceAt := d.ev.elapsed } else d
  d.set (F.CH_CAL_STATUS_FORCE_DUE c) (bit force)

/-- RUN (R58, R235): calibration is due; queued while one RUN waits for its run. -/
def Dev.calRun (d : Dev) (c : Fin 32) : Dev :=
  let d := d.wakeChiplet (chiplet c)
  if d.flag (F.CH_CAL_CTRL_RUN c) then
    if d.flag (F.CH_CAL_CTRL_PENDING c) then d
    else (d.set (F.CH_CAL_CTRL_PENDING c) 1).modCal c fun k => { k with queuedSave := false }
  else ((d.set (F.CH_CAL_CTRL_RUN c) 1).modCal c fun k => { k with dueKept := true }).dueSync c

/-- CH.CAL_ABORT.VALID cleared: FORCED runs are allowed again (R238). -/
def Dev.abortCleared (d : Dev) (c : Fin 32) : Dev :=
  if d.flag (F.CH_CAL_ABORT_VALID c) then d else d.modCal c fun k => { k with barred := none }

/-! ### Records in MTP (R240 to R242) -/

/-- The record that manufacture writes: GEN 1, the built-in values, no output-stage values (DESIGN CHOICE, log entry
18). -/
def factoryRecord (ch : Nat) : List Byte :=
  recordBytes 1 ch 18 0 0
    ((List.range 18).flatMap fun u => subEntry 0xFFFFFFFFFFFFFFFF 0 (if u < 16 then 8 * u else 4) 0 0)
    (List.replicate 48 0)

/-- Places in the security MTP block, which stands behind the calibration block: the tree nodes of levels 10 to 20, the public key,
the certificate, and the 16 records of END (R420, R423; DESIGN CHOICE, log entry 18). -/
abbrev secNodes : Nat := 0x40000
abbrev secKey : Nat := 0x50000
abbrev secCert : Nat := 0x50100
abbrev secEnds_ : Nat := 0x51000

/-- The OID of XMSS-SHAKE_20_256, most significant byte first, as RFC 8391 has it (PRESUMED, log entry 11). -/
def xmssOid : List Byte := [0, 0, 0, 9]

/-- A record of END with its CRC-32C (R241, R423). -/
def endRecord (e : Nat) : List Byte := leBytes 4 e ++ leBytes 4 (crc32c (leBytes 4 e)).toNat

/-- What manufacture writes into the security MTP block: the nodes and the public key that go together, the certificate, and END 0 in
record slot 0 (R420, R423). -/
def secFactory (a : Nat) : Byte :=
  if a < secNodes + 65504 then Config.certificateByte a
  else if a < secKey then 0
  else if a < secKey + 4 then byteAt xmssOid (a - secKey)
  else if a < secKey + 36 then
    byteAt (Config.xmssRoot ((List.range 65504).map fun i => Config.certificateByte (secNodes + i))
      ((List.range 32).map fun i => Config.certificateByte (secKey + 36 + i))) (a - secKey - 4)
  else if a < secKey + 68 then Config.certificateByte a
  else if a < secCert then 0
  else if a < secCert + 4 then byteAt xmssOid (a - secCert)
  else if a < secCert + 2888 then Config.certificateByte a
  else if a < secEnds_ then 0
  else if a < secEnds_ + 8 then byteAt (endRecord 0) (a - secEnds_)
  else 0

/-- Contents of an MTP byte that nothing has written since manufacture (R242, R420, DESIGN CHOICE, log entry 18). -/
def factoryByte (a : Nat) : Byte :=
  if 0x40000 ≤ a then secFactory a
  else if a % 0x2000 < 0x200 then byteAt (factoryRecord (a / 0x2000)) (a % 0x200) else 0

/-- One byte of the MTP blocks. -/
def Dev.mtpByte (d : Dev) (a : Nat) : Byte := Tab.get factoryByte d.mem.mtp.cells a

/-- `n` bytes of the MTP blocks. -/
def Dev.mtpBytes (d : Dev) (a n : Nat) : List Byte := (List.range n).map fun i => d.mtpByte (a + i)

/-- Bytes written to the MTP blocks. -/
def Dev.mtpWrite (d : Dev) (a : Nat) (bs : List Byte) : Dev :=
  { d with mem := { d.mem with mtp := { d.mem.mtp with cells := writeCells factoryByte d.mem.mtp.cells a bs } } }

/-- MTP offset of a record slot (R240). -/
def slotAt (c : Fin 32) (i : Nat) : Nat := 0x2000 * c.val + 0x200 * i

/-- `n` bytes of a record as a number. -/
def recNum (r : List Byte) (off n : Nat) : Nat := leNat ((r.drop off).take n)

/-- A record is valid for channel `ch` (R242). -/
def recordValid (ch : Nat) (r : List Byte) : Bool :=
  recNum r 0x1FC 4 = (crc32c (r.take 0x1FC)).toNat && recNum r 0 4 = 0x00010009 && recNum r 8 1 = ch &&
  (List.range 18).all fun u => popcount (BitVec.ofNat 80 (recNum r (0x10 + 16 * u) 10)) = 64

/-- The valid records of channel `c`: slot and bytes. -/
def Dev.records (d : Dev) (c : Fin 32) : List (Nat × List Byte) :=
  ((List.range 16).map fun i => (i, d.mtpBytes (slotAt c i) 0x200)).filter fun p => recordValid c.val p.2

/-- The valid record with the highest GEN. -/
def Dev.newestRecord (d : Dev) (c : Fin 32) : Option (Nat × List Byte) :=
  (d.records c).foldl (fun best p => match best with
    | none => some p
    | some b => if recNum b.2 4 4 < recNum p.2 4 4 then some p else best) none

/-- The values of a record loaded into channel `c` (R242). -/
def Dev.loadRecord (d : Dev) (c : Fin 32) (r : List Byte) : Dev :=
  let sub (u : Nat) : SubDac :=
    ⟨BitVec.ofNat 80 (recNum r (0x10 + 16 * u) 10), BitVec.ofNat 8 (recNum r (0x1A + 16 * u) 1), BitVec.ofNat 16 (recNum r (0x1E + 16 * u) 2),
      d.ev.elapsed, (Config.mismatch (d.free + u)).1, (Config.mismatch (d.free + u)).2.1, (Config.mismatch (d.free + u)).2.2⟩
  let out (i : Nat) : OutVal :=
    ⟨BitVec.ofNat 16 (recNum r (0x130 + 16 * i) 2), BitVec.ofNat 16 (recNum r (0x132 + 16 * i) 2), BitVec.ofNat 16 (recNum r (0x134 + 16 * i) 2),
      recNum r (0x136 + 16 * i) 1 % 2 = 1, d.ev.elapsed⟩
  let d := (List.range 18).foldl (fun d u =>
    let fl := recNum r (0x1B + 16 * u) 1
    let d := (d.set (F.CH_DAC_SUB_FINE c u) (fl % 2)).set (F.CH_DAC_SUB_SKEW c u) (recNum r (0x1C + 16 * u) 1 % 64)
    if fl / 2 % 4 = 0 then d.serve c u (fl / 8 % 16) else d.setRole c u (fl / 2 % 4)) d
  let d := { d with free := d.free + 18 }.modCal c fun k => { k with subs := Vector.ofFn fun u => sub u.val, outs := Vector.ofFn fun i => out i.val }
  (d.set (F.CH_DAC_STATUS_GOOD c) (18 - ((List.range 18).filter fun u => d.role c u = 3).length)).spurSync c

/-- Calibration of a channel afresh at boundary count `e`; the unusable slots, the record writes and, until a power-on reset, the
park of an unusable channel are kept (R217, R242). -/
def Cal.renewed (k : Cal) (e : Nat) : Cal :=
  let r := Cal.reset
  { r with badSlots := k.badSlots, lastWrite := k.lastWrite, stepAt := e, compAt := e, unusableAt := k.unusableAt }

/-- The values that a channel takes from its newest valid record, or the built-in ones (R242). -/
def Dev.loadNewest (d : Dev) (c : Fin 32) : Option (Nat × List Byte) → Dev
  | some (i, r) =>
    let d := ((d.loadRecord c r).set (F.CH_CAL_MTP_SLOT c) i).set (F.CH_CAL_GEN_GEN c) (recNum r 4 4)
    d.set (F.CH_CAL_STATUS_NO_RECORD c) 0
  | none =>
    let d := (d.loadRecord c (factoryRecord c.val)).set (F.CH_CAL_STATUS_NO_RECORD c) 1
    (d.set (F.CH_CAL_MTP_SLOT c) 0).set (F.CH_CAL_GEN_GEN c) 0

/-- The positions that no ACTIVE sub-DAC serves. -/
def Dev.unserved (d : Dev) (c : Fin 32) : List Nat :=
  (List.range 16).filter fun p => !(List.range 18).any fun u => d.role c u = 0 && d.get (F.CH_DAC_SUB_POS c u) = p

/-- The positions that a record leaves without a sub-DAC taken by one in STANDBY, or else by the one in CAL, so that the mix of R215
holds: a record written before the swap of R217 has one. -/
def Dev.seat (d : Dev) (c : Fin 32) : Dev :=
  (d.unserved c).foldl (fun (d : Dev) p =>
    match (d.inRole c 2).orElse fun _ => d.inRole c 1 with
    | some u => d.serve c u p
    | none => d) d

/-- The calibration record of channel `c` loaded at Stage C, or the built-in values (R242). -/
def Dev.loadCal (d : Dev) (c : Fin 32) : Dev :=
  let d := d.modCal c fun k => k.renewed d.ev.elapsed
  let d := d.set (F.CH_CAL_AGE_FROM_MTP c) 1
  let d := d.loadNewest c (d.newestRecord c)
  let d := (((d.seat c).roleMix c).spurSync c).dueSync c
  if d.get (F.CH_DAC_STATUS_GOOD c) < 16 && !d.flag (F.CH_DAC_STATUS_UNUSABLE c) then
    (d.dacCause c (F.CH_DAC_STATUS_UNUSABLE c)).modCal c fun k => { k with unusableAt := some d.ev.dt }
  else d

/-- A SAVE starts: its write begins at once, after the one under way, or when Reckoner is ready (R391); a deferred write becomes one
with it (R242). -/
def Dev.startSave (d : Dev) (c : Fin 32) : Dev :=
  let d := (d.set (F.CH_CAL_CTRL_SAVE c) 1).set (F.CH_CAL_MTP_DEFERRED c) 0
  if (d.cal c).saving.isSome then d.modCal c fun k => { k with saveNext := true }
  else if d.writerFree c then d.beginSave c
  else d.set (F.CH_CAL_MTP_DEFERRED c) 1

/-- SAVE (R58, R242): a write begins at once. -/
def Dev.calSave (d : Dev) (c : Fin 32) : Dev :=
  let d := d.wakeChiplet (chiplet c)
  if d.flag (F.CH_CAL_CTRL_SAVE c) then
    if d.flag (F.CH_CAL_CTRL_PENDING c) then d
    else (d.set (F.CH_CAL_CTRL_PENDING c) 1).modCal c fun k => { k with queuedSave := true }
  else d.startSave c

/-- A record write has ended: the SAVE that waits for it begins; else SAVE clears, and a queued SAVE begins. -/
def Dev.saveEnds (d : Dev) (c : Fin 32) : Dev :=
  let next := (d.cal c).saveNext
  let d := d.modCal c fun k => { k with saving := none, saveNext := false, fails := 0 }
  if next then d.beginSave c
  else
    let again := d.flag (F.CH_CAL_CTRL_PENDING c) && (d.cal c).queuedSave
    let d := d.set (F.CH_CAL_CTRL_SAVE c) 0
    if again then ((d.set (F.CH_CAL_CTRL_PENDING c) 0).modCal c fun k => { k with queuedSave := false }).startSave c else d

/-- The first usable slot at or after `i`, of `n` looked at. -/
def usableSlot (bad : List Nat) : Nat → Nat → Nat
  | 0, i => i % 16
  | n + 1, i => if bad.contains (i % 16) then usableSlot bad n (i + 1) else i % 16

/-- Slot that the record write under way goes to (R242). -/
def Dev.writeSlot (d : Dev) (c : Fin 32) : Nat :=
  usableSlot (d.cal c).badSlots 16 (if d.get (F.CH_CAL_GEN_GEN c) = 0 then 0 else d.get (F.CH_CAL_MTP_SLOT c) + 1)

/-- MTP_RECORD_WRITE (R242): a slot is written and read back; a failed read-back leaves bytes that nothing states. -/
def Dev.mtpRecordWrite (d : Dev) (c : Fin 32) (ok : Bool) : Dev :=
  match (d.cal c).saving with
  | none => d
  | some bs =>
    let i := d.writeSlot c
    if !d.flag F.MGMT_STATUS_READY || d.tripped then d
    else if ok then
      let d := (d.mtpWrite (slotAt c i) bs).set (F.CH_CAL_MTP_SLOT c) i
      let d := d.set (F.CH_CAL_GEN_GEN c) (d.get (F.CH_CAL_GEN_GEN c) + 1)
      (d.modCal c fun k => { k with lastWrite := some d.ev.elapsed }).saveEnds c
    else
      let bs := (List.range 512).map fun j => Config.unstatedByte (d.free + j)
      let d := { d with free := d.free + 512 }.mtpWrite (slotAt c i) bs
      let d := d.modCal c fun k => { k with badSlots := k.badSlots ++ [i], fails := k.fails + 1 }
      if 3 ≤ (d.cal c).fails then (d.set (F.CH_CAL_IRQ_STATUS_MTP_ERR c) 1).saveEnds c else d

/-- MTP_DEFER_EXPIRY (R242, R391): the interval since the last write has passed, which a SAVE need not wait for, and Reckoner is
ready. -/
def Dev.mtpDeferExpiry (d : Dev) (c : Fin 32) : Dev :=
  if d.flag (F.CH_CAL_MTP_DEFERRED c) && d.writerFree c && (d.flag (F.CH_CAL_CTRL_SAVE c) || d.mayWrite c) then
    (d.set (F.CH_CAL_MTP_DEFERRED c) 0).beginSave c
  else d

/-! ### Ranges and rates -/

/-- RANGE_CHANGE (R219, R239): the pending range reaches its IDLE point. Writing the range in force changes nothing. -/
def Dev.rangeChange (d : Dev) (c : Fin 32) : Dev :=
  match d.pendingOf (F.CH_DAC_CTRL_RANGE c) with
  | none => d
  | some (v, acc) =>
    if (d.ch c).st ≠ .idle || d.ev.elapsed < acc + 2 || d.flag (F.CH_DAC_STATUS_RANGING c) then d
    else
      let d := (d.wakeChiplet (chiplet c)).dropPending (F.CH_DAC_CTRL_RANGE c)
      if v = d.get (F.CH_DAC_CTRL_RANGE c) then d
      else
        let d := (d.preempt c).set (F.CH_DAC_CTRL_RANGE c) v
        (d.set (F.CH_DAC_STATUS_RANGING c) 1).modCal c fun k => { k with rangeEnd := d.ev.elapsed + 8000 }

/-- RANGE_END (R219, R239). -/
def Dev.rangeEnds (d : Dev) (c : Fin 32) : Dev :=
  if d.flag (F.CH_DAC_STATUS_RANGING c) && (d.cal c).rangeEnd ≤ d.ev.elapsed then
    ((d.set (F.CH_DAC_STATUS_RANGING c) 0).compareTemp c).dueSync c
  else d

/-- The pair of TELEM.SW_RATE of chiplet `n`. -/
def rateFld (n : Nat) : Fld := ⟨R.TELEM_SW_RATE, 2 * n, 2⟩

/-- The rate-change flag of chiplet `n`. -/
def rateBusy (n : Nat) : Fld := ⟨R.TELEM_SW_RATE, 9 + n, 1⟩

/-- The channels of chiplet `n`. -/
def channelsOf (n : Nat) : List (Fin 32) := (List.finRange 32).filter fun c => chiplet c = n

/-- A rate change of chiplet `n` to rate `v` begins (R233, R441), and the spur estimates follow f_s (R243). -/
def Dev.beginRate (d : Dev) (n : Fin 4) (v : Nat) : Dev :=
  if d.get (rateFld n) = v then d
  else
    let d := ((d.wakeChiplet n).set (rateFld n) v).set (rateBusy n) 1
    let d := { d with rateEnd := d.rateEnd.set n (d.ev.elapsed + 4000) }
    ((channelsOf n).foldl (fun d c => (d.restartCheck c).spurSync c) d).profileSync

/-- RATE_CHANGE (R30, R441): the pending rate of chiplet `n` reaches its IDLE point. -/
def Dev.rateChange (d : Dev) (n : Fin 4) : Dev :=
  match d.pendingOf (rateFld n) with
  | none => d
  | some (v, acc) =>
    if !(channelsOf n).all (fun c => (d.ch c).st = .idle) || d.ev.elapsed < acc + 2 || d.flag (rateBusy n) then d
    else (d.dropPending (rateFld n)).beginRate n v

/-- RATE_CHANGE_END (R233, R441): rotation restarts with a full pass, in the order of the sub-DACs' numbers (DESIGN CHOICE, log entry
19), and calibration is due on every channel. -/
def Dev.rateChangeEnd (d : Dev) (n : Fin 4) : Dev :=
  if d.flag (rateBusy n) && d.rateEnd[n] ≤ d.ev.elapsed then
    let d := (d.set (rateBusy n) 0).set F.TELEM_IRQ_STATUS_RATE 1
    (channelsOf n).foldl (fun d c =>
      (d.modCal c fun k => { k with stepAt := d.ev.elapsed, failedOnce := none, swapDue := none, dueKept := true
                                    subs := k.subs.map fun s => { s with checked := 0 } }).dueSync c) d
  else d

/-! ### Pins -/

/-- Pin states of R223. -/
inductive PinState | unpowered | park | active | calHold
deriving DecidableEq, Repr

/-- The output stage of channel `c` has no schedule to follow in tick DT (R217, R219, R223, R374). -/
def Dev.heldOff (d : Dev) (c : Fin 32) : Bool :=
  d.stage = 0 || d.ranging c || !d.runs (19 + chiplet c) || d.bypassed || d.clk.safe

/-- A park, fault hold or STOP holds tick DT of channel `c` (R96, R98, R237). -/
def Dev.parksNow (d : Dev) (c : Fin 32) : Bool := d.carriesPark c || (d.ch c).holdAt d.ev.dt

/-- The pin state of AOUTc in tick DT (R223, R224, R237). -/
def Dev.pinState (d : Dev) (c : Fin 32) : PinState :=
  if !d.board.analog then .unpowered
  else if d.heldOff c then .park
  else if d.flag (F.CH_CAL_STATUS_STALE c) then
    if ((d.cal c).fromPark && !d.newPark c) || !d.parksNow c then .calHold else .park
  else if d.carriesPark c then .park
  else .active

end Sys2Proof.Machine
end

