-- ==== Sys2Proof/Machine/RingCmds.lean ====
section
/-! DEFINITION. Binding, doorbells, record fetches and device-to-host records (chapter 11). -/

namespace Sys2Proof.Machine

/-! ### Binding (R271, R272) -/

/-- A Caravan command's completion record. -/
def Dev.caravanEnds (d : Dev) (code reason : Nat) : Dev :=
  let d := (d.set F.CARAVAN_CMD_STATUS_CODE code).set F.CARAVAN_CMD_STATUS_REASON reason
  d.set F.CARAVAN_IRQ_STATUS_CMD 1

/-- KIND, LOG2, OWNER, SLOT or DIDX of ring `q` does not satisfy R269. -/
def Dev.badFields (d : Dev) (q : Nat) : Bool :=
  let kind := d.ctx q 0x04 1
  let owner := d.ctx q 0x08 1
  let slot := d.ctx q 0x06 2
  let didx := d.ctx q 0x16 2
  let d2h := kindD2h kind
  !(kindH2d kind || d2h) || d.log2 q < 6 || 24 < d.log2 q || 8192 ≤ slot || (d2h && slot ≠ 0) ||
  (if d2h then owner ≠ 0x20 else 32 ≤ owner) || 16384 ≤ didx || (kind ≠ 3 && didx ≠ 0)

/-- Another LIVE or STALLED ring of the same channel holds the slot of host-to-device ring `q`, or for STREAM its DIDX. -/
def Dev.slotTaken (d : Dev) (q : Nat) : Bool :=
  kindH2d (d.ringKind q) && d.boundRings.any fun p =>
    p ≠ q && d.ringState p ≠ 0 && kindH2d (d.ringKind p) && d.ctx p 0x08 1 % 64 = d.ctx q 0x08 1 &&
    (d.ctx p 0x06 2 = d.ctx q 0x06 2 || (d.ringKind p = 3 && d.ringKind q = 3 && d.ctx p 0x16 2 = d.ctx q 0x16 2))

/-- Why BIND of ring `q` is rejected: the first of R271's conditions, in its order, that fails. -/
def Dev.bindReason (d : Dev) (q : Nat) : Option Nat :=
  if d.ringState q ≠ 0 then some 5
  else if d.badFields q then some 1
  else if d.capacity < d.ctx q 0 4 % 2 ^ 25 * 4096 + 64 * 2 ^ d.log2 q then some 2
  else if d.prod q ≠ d.cons q then some 4
  else if d.slotTaken q then some 3
  else none

/-- The channel that owns host-to-device ring `q`. -/
def Dev.owner (d : Dev) (q : Nat) : Fin 32 := ⟨d.ctx q 0x08 1 % 32, Nat.mod_lt _ (by decide)⟩

/-- The cluster of the channel that owns host-to-device ring `q` woken by a doorbell or a record of the ring (R432). -/
def Dev.wakeOwner (d : Dev) (q : Nat) : Dev :=
  if d.ringState q ≠ 0 && kindH2d (d.ringKind q) then d.wakeCluster (clu (d.owner q)) else d

/-- Device-to-host doorbells at the front of the queue take effect (R273, R276, R357). -/
def Dev.takeCons (d : Dev) : List PendDb → Dev
  | [] => { d with rings := { d.rings with doorbells := [] } }
  | b :: rest =>
    if kindD2h (d.ringKind b.q) then ((d.abandonAt .context (32 * b.q)).setCtx b.q 0x10 4 b.index.toNat).takeCons rest
    else { d with rings := { d.rings with doorbells := b :: rest } }

/-- The stale record of ring `q` forgotten. -/
def Dev.clearStale (d : Dev) (q : Nat) : Dev :=
  { d with rings := { d.rings with stale := d.rings.stale.filter (·.1 ≠ q) } }

/-- A Caravan command's ring and operation put in CARAVAN.CMD, and the context reached (R354). -/
def Dev.caravanCmd (d : Dev) (q op : Nat) : Dev :=
  ((d.wakeCaravan.set F.CARAVAN_CMD_Q q).set F.CARAVAN_CMD_OP op).ctxError q

/-- BIND (R271, R281). -/
def Dev.bind (d : Dev) (q : Nat) : Dev :=
  let d := d.caravanCmd q 0
  match d.bindReason q with
  | some r => d.caravanEnds 6 r
  | none =>
    let d := (d.setRingState q 1 0).clearStale q
    let d := if kindH2d (d.ringKind q) then d.modCh (d.owner q) fun x => x.boundSlot (d.ctx q 0x06 2) else d
    d.caravanEnds 2 0

/-- UNBIND (R271): the ring's doorbells that wait are dropped, and those behind them may take effect (R276). -/
def Dev.unbind (d : Dev) (q : Nat) : Dev :=
  let d := d.caravanCmd q 1
  if d.ringState q = 0 then d.caravanEnds 6 5
  else if kindH2d (d.ringKind q) && !(d.ch (d.owner q)).quiet then d.caravanEnds 6 6
  else
    let d := (d.setRingState q 0 0).clearStale q
    let d := { d with rings := { d.rings with again := d.rings.again.filter (· ≠ q) },
                      chans := d.chans.map fun (x : Chan) => { x with recs := x.recs.filter (·.q ≠ q) } }
    (d.takeCons (d.rings.doorbells.filter (·.q ≠ q))).caravanEnds 2 0

/-! ### Stale records (R279) -/

/-- A record of ring `q` at index `i` read from waveform memory: its bytes, and the pseudo-channel when poisoned. -/
def Dev.readRecord (d : Dev) (q : Nat) (i : W32) : Dev × List Byte × Option Nat :=
  let a := d.recAddr q i
  let d := (d.hbmRead 2 a 64).count64 (R.CARAVAN_CNT 0 0) 1
  (d, d.mem.hbm.bytes a 64, d.firstPoison a 64)

/-- The header of a record carries the generation of its index. -/
def Dev.fresh (d : Dev) (q : Nat) (i : W32) (r : List Byte) : Bool := byteAt r 0 = d.gen q i

/-- Ring `q` becomes STALLED with a cause: flags, capture and STATUS record of class 3 (R275, R279, R287). -/
def Dev.stall (d : Dev) (q cause : Nat) : Dev :=
  let d := (d.setRingState q 2 cause).ringErr q cause F.CARAVAN_IRQ_STATUS_RING_ERR
  d.emitStatus 3 q ([3, 0, 0, BitVec.ofNat 8 cause] ++ leBytes 4 q)

/-- A record copy put into the owner's record buffer, where there is room and an active slot for it (R281). -/
def Dev.bufferRecord (d : Dev) (q : Nat) (i : W32) (r : List Byte) (p : Option Nat) : Dev :=
  d.modCh (d.owner q) fun x =>
    if x.recs.length < 64 && x.active.contains (d.ctx q 0x06 2) && !(x.recs.any fun r => r.q = q && r.index = i)
    then { x with recs := x.recs ++ [⟨q, i, r, p⟩] } else x

/-- A request of Caravan for the record of ring `q` at index `i` waits: where the memory is held, and behind an earlier one (R23,
R335, R340). -/
def Dev.recordHeld (d : Dev) (q : Nat) (i : W32) : Bool := !d.rings.again.isEmpty || d.heldAt (d.recAddr q i) 64

/-- The stale record of ring `q` read again: a match returns the ring to LIVE (R279). The record so read is the one fetched
(DEDUCED, log entry 32). -/
def Dev.reReadNow (d : Dev) (q : Nat) (i : W32) : Dev :=
  let (d, r, p) := d.readRecord q i
  if d.fresh q i r || p.isSome then ((d.setRingState q 1 0).clearStale q).bufferRecord q i r p else d

/-- The stale record of ring `q` is read again, at once or when the memory serves (R279, R335, R340). -/
def Dev.reRead (d : Dev) (q : Nat) : Dev :=
  match d.staleOf q with
  | none => d
  | some i => if d.recordHeld q i then { d with rings := { d.rings with again := d.rings.again ++ [q] } } else d.reReadNow q i

/-- The reads of stale records that have waited, in their order, up to one that waits still. -/
def Dev.readAgain (d : Dev) : List Nat → Dev
  | [] => { d with rings := { d.rings with again := [] } }
  | q :: qs =>
    match d.staleOf q with
    | none => d.readAgain qs
    | some i =>
      if d.heldAt (d.recAddr q i) 64 then { d with rings := { d.rings with again := q :: qs } } else (d.reReadNow q i).readAgain qs

/-- RECHECK (R271): it ends when it is taken, also where its read has to wait (DESIGN CHOICE, log entry 36). -/
def Dev.recheck (d : Dev) (q : Nat) : Dev :=
  let d := d.caravanCmd q 2
  if d.ringState q = 2 && (d.staleOf q).isSome then (d.reRead q).caravanEnds 2 0 else d.caravanEnds 6 5

/-! ### Contexts -/

/-- Bytes of a LIVE or STALLED ring's context that the host may write (R270). -/
def ctxOpen (b : Nat) : Bool := b = 0x09 || b = 0x0A || b = 0x14 || b = 0x15 || (0x18 ≤ b && b ≤ 0x1D)

/-- One byte written to the context window (R270): answers the device and whether the byte was denied. -/
def Dev.ctxByte (d : Dev) (a : Nat) (v : Byte) : Dev × Bool :=
  let b := a % 32
  let put : Dev := { d with mem := { d.mem with ctx := d.mem.ctx.write a [v] } }
  if d.ringState (a / 32) = 0 then (if b = 0x0B || d.mem.ctx.bad (a / 8 * 8) then d else put, false)
  else if ctxOpen b then (put, false)
  else (d, true)

/-- Units of the context SRAM that act as OFF and are written whole get new check bits; the STATE byte of their context becomes
OFF, as which it acted (R354). -/
def Dev.ctxRenew (d : Dev) (a n : Nat) : Dev :=
  (unitsOf 8 a n).foldl (fun d u =>
    if a ≤ u && u + 8 ≤ a + n && d.mem.ctx.bad u then
      let m := d.mem.ctx.write (u / 32 * 32 + 11) [0]
      { d with mem := { d.mem with ctx := { m with ce := m.ce.filter (· ≠ u), ue := m.ue.filter (· ≠ u),
                                                   poison := m.poison.filter (· ≠ u) } } }
    else d) d

/-- CONTEXT_WRITE (R270, R354). -/
def Dev.contextWrite (d : Dev) (off : Nat) (data : List Byte) : Dev :=
  if 0x800000 < off + data.length then d
  else
    let d := (d.wakeCaravan.abandonOver .context off data.length).ctxRenew off data.length
    ((List.range data.length).zip data).foldl (fun d iv =>
      let (d, denied) := d.ctxByte (off + iv.1) iv.2
      if denied then d.ringErr ((off + iv.1) / 32) 0x12 F.CARAVAN_IRQ_STATUS_CTX_DENIED else d) d

/-! ### Doorbells -/

/-- The index that doorbells of ring `q` replace, as left by every one accepted so far: PROD of a host-to-device ring, CONS of a
device-to-host one (R274). -/
def Dev.indexAhead (d : Dev) (q : Nat) : W32 :=
  match (d.rings.doorbells.filter (·.q = q)).getLast? with
  | some b => b.index
  | none => if kindH2d (d.ringKind q) then d.prod q else d.cons q

/-- Why a doorbell write of `size` bytes at offset `off` is discarded: the first cause of R274 that applies. -/
def Dev.doorbellCause (d : Dev) (off size : Nat) (v : W64) : Option Nat :=
  let q := off / 8
  let i : W32 := v.setWidth 32
  if size ≠ 8 || off % 8 ≠ 0 then some 4
  else if d.ringState q = 0 then some 1
  else if bits v 63 32 ≠ q % 2 ^ 16 then some 2
  else if kindH2d (d.ringKind q) then
    let p := d.indexAhead q
    if 2 ^ d.log2 q - (p - d.cons q).toNat < (i - p).toNat then some 3 else none
  else if (d.prod q - d.indexAhead q).toNat < (i - d.indexAhead q).toNat then some 3
  else none

/-- DOORBELL (R273, R274, R276): one of a device-to-host ring waits only behind earlier ones. -/
def Dev.doorbell (d : Dev) (off size : Nat) (v : W64) : Dev :=
  let q := off / 8
  if 2 ^ 18 ≤ q || !d.hostReach then d
  else
    let d := d.wakeCaravan.ctxError q
    match d.doorbellCause off size v with
    | some cause => (d.count64 (R.CARAVAN_CNT 3 0) 1).ringErr q cause F.CARAVAN_IRQ_STATUS_DB_ERR
    | none =>
      let d := (d.count64 (R.CARAVAN_CNT 2 0) 1).wakeOwner q
      d.takeCons (d.rings.doorbells ++ [⟨q, v.setWidth 32, d.hbm.received⟩])

/-- The arrival event of ring `q` (R252, R290). -/
def Dev.arrival (d : Dev) (q : Nat) : Dev :=
  if d.ctx q 0x09 1 % 2 = 1 then
    d.emit (BitVec.ofNat 8 (d.ctx q 0x0A 1)) d.ev.dt 0 5 (BitVec.ofNat 16 q) false (d.ev.dt + 1)
  else d

/-- PROD of host-to-device ring `q` moved by a doorbell (R276, R279, R290). -/
def Dev.advance (d : Dev) (q : Nat) (i : W32) : Dev :=
  if d.ringState q = 0 then d
  else
    let moved := d.prod q ≠ i
    let d := d.setCtx q 0x0C 4 i.toNat
    let d := if moved then d.arrival q else d
    if d.ringState q = 2 then d.reRead q else d

/-- PROD_ADVANCE (R24, R276, R290): the oldest accepted doorbell, when it is one of host-to-device ring `q`, takes effect once the BAR4 writes
before it are whole; a rate change or a slice delays them. -/
def Dev.prodAdvance (d : Dev) (q : Nat) : Dev :=
  match d.rings.doorbells with
  | [] => d
  | b :: rest =>
    if b.q ≠ q || !kindH2d (d.ringKind q) || d.writesHeld b.writes then d
    else (((d.land b.writes).ctxError q).advance q b.index).takeCons rest

/-! ### Records -/

/-- A record of ring `q` at index `i` may be fetched into its channel's buffer (R280, R281). -/
def Dev.fetchable (d : Dev) (q : Nat) (i : W32) : Bool :=
  let c := d.owner q
  let x := d.ch c
  (d.ringKind q = 1 || d.ringKind q = 2) && (i - d.cons q).toNat < min 4 (d.ready q) && x.recs.length < 64 &&
  x.active.contains (d.ctx q 0x06 2) && !(x.recs.any fun r => r.q = q && r.index = i) && !d.recordHeld q i

/-- RECORD_FETCH (R279, R281, R292, R354). Of two stale records the earlier is the one that stops the ring. -/
def Dev.recordFetch (d : Dev) (q : Nat) (i : W32) : Dev :=
  if d.ctxBad q then d.wakeCaravan.ctxError q
  else if !d.fetchable q i then d
  else
    let d := (d.wakeCaravan.ctxError q).wakeOwner q
    let (d, r, p) := d.readRecord q i
    if d.fresh q i r || p.isSome then d.bufferRecord q i r p
    else
      let d := if d.ringState q = 1 then d.stall q 0x10 else d
      { d with rings := { d.rings with stale := d.rings.stale.filter (·.1 ≠ q) ++ [(q, i)] } }

/-- LOST of ring `q` counted (R287, R290). -/
def Dev.ringLost (d : Dev) (q : Nat) : Dev := d.setCtx q 0x1C 2 (min (d.ctx q 0x1C 2 + 1) 0xFFFF)

/-- One record written to device-to-host ring `q` at PROD (R285, R290): refused on a FENCED pseudo-channel, where the
record is lost and the ring becomes STALLED. -/
def Dev.putRecord (d : Dev) (q : Nat) (data : List Byte) : Dev :=
  let i := d.prod q
  let a := d.recAddr q i
  let d := d.wakeCaravan.ctxError q
  if d.fencedAt a then (d.ringLost q).stall q 0x11
  else
    let o := d.occ q
    let d := d.hbmWrite a (d.gen q i :: data.tail)
    let d := (d.setCtx q 0x0C 4 (i.toNat + 1)).count64 (R.CARAVAN_CNT 1 0) 1
    (d.watermark q o).arrival q

/-- Device-to-host ring `q` is full (R285). -/
def Dev.ringFull (d : Dev) (q : Nat) : Bool := 2 ^ d.log2 q ≤ d.occ q

/-- Ring `q` is LIVE and of kind `k`. -/
def Dev.liveKind (d : Dev) (q k : Nat) : Bool := d.ringState q = 1 && d.ringKind q = k

/-- D2H_RECORD_WRITE (R285, R287): the oldest queued STATUS record whose ring does not make it wait is written, or is
lost. -/
def Dev.d2hRecordWrite (d : Dev) : Dev :=
  match d.rings.statusQ.find? fun r => !(d.liveKind r.ring 5 && d.ringFull r.ring) with
  | none => d
  | some r =>
    if d.liveKind r.ring 5 && d.recordHeld r.ring (d.prod r.ring) then d
    else
      let d := ({ d with rings := { d.rings with statusQ := d.rings.statusQ.erase r } } : Dev).ctxError r.ring
      if d.liveKind r.ring 5 then d.putRecord r.ring r.data else d.statusLost r.ring

end Sys2Proof.Machine
end

