-- ==== Sys2Proof/Machine/EventOps.lean ====
section
/-! DEFINITION. Device time, event sources, frames, presentation and the event log (chapter 10). -/

namespace Sys2Proof.Machine

/-! ### Sources -/

/-- Bit `i` of a 16-bit level word set to a level. -/
def setLevel (w : BitVec 16) (i : Nat) (v : Bool) : BitVec 16 :=
  if v then w ||| BitVec.twoPow 16 i else w &&& ~~~BitVec.twoPow 16 i

/-- EDGE selects an edge: 0 and 3 rising, 1 falling, 2 both (R253, R255). -/
def edgeSelected (edge : Nat) (rising : Bool) : Bool := edge = 2 || (edge = 1) ≠ rising

/-- The TRIG pins after pin `i` went to `high` at sample `m` of the present tick; an excursion lasts `held` samples, and is over at
the end of this tick or within the next (R415). -/
def Events.pinEdge (e : Events) (i : Fin 16) (high excursion : Bool) (m : Fin 16) (held : Nat) : Events :=
  { e with pins := setLevel e.pins i (high != (excursion && m.val + held < 16)), pinsNext := setLevel e.pinsNext i (high != excursion) }

/-- TRIG_EDGE (R252, R253): pin `i` went to level `high` at sample `m` of tick DT and held it for `held` samples; its fast
copy enters at t_e + 2, or + 3 when `late`. -/
def Dev.trigEdge (d : Dev) (i : Fin 16) (high : Bool) (m : Fin 16) (held : Nat) (late : Bool) : Dev :=
  let on := d.flag (F.EVT_TRIG_CFG_EN i)
  let short := on && d.ev.trig.getLsbD i ≠ high && held < d.get (F.EVT_TRIG_CFG_MINW i) + 1
  let d := { d with ev := d.ev.pinEdge i high short m held }
  if d.ev.trig.getLsbD i = high then d
  else if on && held < d.get (F.EVT_TRIG_CFG_MINW i) + 1 then d
  else
    let t := d.ev.dt
    let last := d.ev.trigLast[i]
    let d := { d with ev := { d.ev with trig := setLevel d.ev.trig i high } }
    if !on || !d.ev.counting || !edgeSelected (d.get (F.EVT_TRIG_CFG_EDGE i)) high then d
    else if (match last with | some l => decide ((t - l).toNat ≤ d.get (F.EVT_TRIG_CFG_HOLDOFF i)) | none => false) then
      d.countSat (F.EVT_TRIG_CNT_SUPPRESSED i)
    else
      let d := { d with ev := { d.ev with trigLast := d.ev.trigLast.set i (some t) } }
      let d := (d.countMod (F.EVT_TRIG_CNT_EVENTS i)).wr (R.EVT_TRIG_LAST i 0) (t.setWidth 32)
      let d := d.wr (R.EVT_TRIG_LAST i 1) (BitVec.ofNat 32 (m.val + 16 * bit d.coasting + 32))
      d.emit (BitVec.ofNat 8 (d.get (F.EVT_TRIG_CFG_CODE i))) t (BitVec.ofNat 4 m.val) 0 (BitVec.ofNat 16 i.val) false
        (t + if late then 3 else 2)

/-- Marker bit `b` of the samples channel `c` carries in tick DT, oldest first, after the last sample of the tick before
(R204, R205, R255). -/
def Dev.markerTrain (d : Dev) (c : Fin 32) (b : Nat) : List Bool :=
  let x := d.ch c
  let outs := d.tickOuts c (d.present c)
  (x.outs.getLast?.any (·.getLsbD b)) :: (List.range (d.spt c)).map fun j => (outs.getD j 0).getLsbD b

/-- The train changes to level `up` at its sample `m`. -/
def edgeAt (train : List Bool) (m : Nat) (up : Bool) : Bool := train[m]? = some (!up) && train[m + 1]? = some up

/-- MARKER_EDGE (R255): the marker bit that source `i` watches changes at sample `m` of tick DT. The first selected edge of the
tick is emitted. -/
def Dev.markerEdge (d : Dev) (i : Fin 16) (rising : Bool) (m : Fin 16) : Dev :=
  let c : Fin 32 := ⟨d.get (F.EVT_MK_CFG_CH i) % 32, Nat.mod_lt _ (by decide)⟩
  let train := d.markerTrain c (d.get (F.EVT_MK_CFG_BIT i))
  let t := d.ev.dt
  if !d.flag (F.EVT_MK_CFG_EN i) || !d.ev.counting || !edgeSelected (d.get (F.EVT_MK_CFG_EDGE i)) rising ||
     d.ev.mkLast[i] = some t || !edgeAt train m.val rising ||
     (List.range m.val).any (fun n => [false, true].any fun up => edgeSelected (d.get (F.EVT_MK_CFG_EDGE i)) up && edgeAt train n up)
  then d
  else
    let d := { d with ev := { d.ev with mkLast := d.ev.mkLast.set i (some t) } }
    d.emit (BitVec.ofNat 8 (d.get (F.EVT_MK_CFG_CODE i))) t (BitVec.ofNat 4 (m.val * 2 ^ d.rate (chiplet c))) 1
      (BitVec.ofNat 16 i.val) false t

/-! ### Timers -/

/-- LEFT at the start of a timer, and after a firing (R256). -/
def Dev.tmrLeft (d : Dev) (i : Fin 8) : Nat :=
  if d.get (F.EVT_TMR_PERIOD_PERIOD i) = 0 then 1 else d.get (F.EVT_TMR_CTRL_COUNT i)

/-- The occurrence comes from timer `i`. -/
def Occ.ofTimer (o : Occ) (i : Fin 8) : Bool := o.kind = 2 && o.idx.toNat = i.val

/-- The firing of timer `i` in the present tick withdrawn: none is emitted in the tick in which EN takes effect as 0 (R256, R263).
What merged with it stays, and MERGED counts it no more. -/
def Dev.withdrawFiring (d : Dev) (i : Fin 8) : Dev :=
  let hit (f : FrameEv) : Bool := f.stamp = d.ev.dt && !f.closed && f.occs.any (·.ofTimer i)
  let merged := (d.ev.frames.filter fun f => hit f && 1 < f.occs.length).length
  let e := { d with ev := { d.ev with frames := d.ev.frames.filterMap fun f => if hit f then f.without (·.ofTimer i) else some f } }
  if merged = 0 then e else e.set64 (R.EVT_CNT 1 0) (e.get64 (R.EVT_CNT 1 0) - BitVec.ofNat 64 merged)

/-- TIMER_EN (R256). -/
def Dev.timerEn (d : Dev) (i : Fin 8) (en : Bool) : Dev :=
  let d := d.set (F.EVT_TMR_CTRL_EN i) (bit en)
  if !en then ((d.withdrawFiring i).set (F.EVT_TMR_STAT_RUNNING i) 0).set (F.EVT_TMR_STAT_LEFT i) 0
  else if d.flag (F.EVT_TMR_STAT_RUNNING i) then d
  else
    let d := (d.set (F.EVT_TMR_STAT_RUNNING i) 1).set (F.EVT_TMR_STAT_LEFT i) (d.tmrLeft i)
    { d with ev := { d.ev with tmrNext := d.ev.tmrNext.set i 0, tmrStart := d.ev.tmrStart.set i d.ev.dt } }

/-- One firing done or skipped: RUNNING and LEFT follow (R256). -/
def Dev.tmrStep (d : Dev) (i : Fin 8) : Dev :=
  let n := d.ev.tmrNext[i] + 1
  let d := { d with ev := { d.ev with tmrNext := d.ev.tmrNext.set i n } }
  let endless := d.get (F.EVT_TMR_PERIOD_PERIOD i) ≠ 0 && d.get (F.EVT_TMR_CTRL_COUNT i) = 0
  let left := d.tmrLeft i - n
  if endless then d
  else (d.set (F.EVT_TMR_STAT_LEFT i) left).setIf (left = 0) (F.EVT_TMR_STAT_RUNNING i) 0

/-- TIMER_FIRE (R256): the next firing of timer `i` is skipped with too short a lead, else emitted at its tick, but in a tick in which
EN takes effect as 0 (R263). -/
def Dev.timerFire (d : Dev) (i : Fin 8) : Dev :=
  let f := d.get64 (R.EVT_TMR_START i 0) + tk (d.ev.tmrNext[i] * d.get (F.EVT_TMR_PERIOD_PERIOD i))
  let gap := (f - d.ev.tmrStart[i]).toNat
  if !d.flag (F.EVT_TMR_STAT_RUNNING i) || !d.ev.counting || !(d.rdTick (R.EVT_TMR_CTRL i)).getLsbD 0 then d
  else if gap < 32 || 2 ^ 63 ≤ gap then
    ((d.tmrStep i).set (F.EVT_TMR_STAT_LATE i) 1).set F.EVT_IRQ_STATUS_TMR_LATE 1
  else if notAfter f d.ev.dt then
    (d.emit (BitVec.ofNat 8 (d.get (F.EVT_TMR_CTRL_CODE i))) f 0 2 (BitVec.ofNat 16 i.val) false f).tmrStep i
  else d

/-! ### Host events -/

/-- A host event's completion record (R257). -/
def Dev.hostEvEnds (d : Dev) (code : Nat) : Dev :=
  let d := (d.set F.EVT_HOST_STATUS_CODE code).set F.EVT_HOST_EV_GO 0
  { (d.set F.EVT_IRQ_STATUS_HOST 1) with ev := { d.ev with hostEv := none } }

/-- A host event taken: CODE, AT and the tick captured (R257). -/
def Dev.startHostEv (d : Dev) : Dev :=
  let code := BitVec.ofNat 8 (d.get F.EVT_HOST_EV_CODE)
  let t := d.get64 (R.EVT_HOST_T 0)
  let gap := (t - d.ev.dt).toNat
  if !d.flag F.EVT_HOST_EV_AT then (d.emit code d.ev.dt 0 4 0 false d.ev.dt).hostEvEnds 2
  else if 32 ≤ gap && gap < 2 ^ 63 then
    { ((d.set F.EVT_HOST_STATUS_CODE 1).set F.EVT_HOST_EV_GO 1) with ev := { d.ev with hostEv := some (code, t) } }
  else d.hostEvEnds 5

/-- HOST_EV_GO (R257): queued behind one that is BUSY (R58). -/
def Dev.hostEvGo (d : Dev) : Dev :=
  if d.ev.hostEv.isSome then d.set F.EVT_HOST_EV_PENDING 1 else d.startHostEv

/-- HOST_EV_EMIT (R257). -/
def Dev.hostEvEmit (d : Dev) : Dev :=
  match d.ev.hostEv with
  | none => d
  | some (code, t) =>
    if d.ev.counting && notAfter t d.ev.dt then
      let d := (d.emit code t 0 4 0 false t).hostEvEnds 2
      if d.flag F.EVT_HOST_EV_PENDING then (d.set F.EVT_HOST_EV_PENDING 0).startHostEv else d
    else d

/-! ### Frames -/

/-- Insert an event in ascending code order. -/
def insertCode (e : FrameEv) : List FrameEv → List FrameEv
  | [] => [e]
  | f :: fs => if e.code.toNat < f.code.toNat then e :: f :: fs else f :: insertCode e fs

/-- One event of a closed frame queued for the log, or counted UNLOGGED (R264). -/
def Dev.logEvent (d : Dev) (e : FrameEv) : Dev :=
  if !d.flag F.EVT_LOG_CFG_EN || !(d.rd (R.EVT_LOG_MASK (e.code.toNat / 32))).getLsbD (e.code.toNat % 32) then d
  else if d.ev.log.length < 1024 then { d with ev := { d.ev with log := d.ev.log ++ [e] } }
  else (d.count64 (R.EVT_CNT 3 0) 1).set F.EVT_IRQ_STATUS_LOGFULL 1

/-- The forwarding entries turn an event of frame `t` into array events (R306). -/
def Dev.forwardEvent (d : Dev) (t : Tick) (e : FrameEv) : Dev :=
  if d.linkState < 2 then d
  else
    (List.range 8).foldl (fun d i =>
      if d.flag (F.LINK_FWD_EN i) && d.get (F.LINK_FWD_SRC i) = e.code.toNat then
        d.arrayEvent (BitVec.ofNat 8 (d.get (F.LINK_FWD_DST i))) (t + tk (4 * max 40 (d.get (F.LINK_FWD_D4 i))))
      else d) d

/-- Events presented to every channel whose frame has closed are forgotten. -/
def Events.purge (e : Events) : Events := { e with frames := e.frames.filter fun f => !(f.closed && f.presented = -1) }

/-- FRAME_CLOSE (R258, R259, R264, R306): the lockstep copies of frame `t` close from tick t + 20 on. -/
def Dev.frameClose (d : Dev) (t : Tick) : Dev :=
  if !notAfter (t + 20) d.ev.dt then d
  else
    let es := (d.ev.frames.filter fun f => f.stamp = t && !f.closed).foldl (fun l e => insertCode e l) []
    let d := { d with ev := { d.ev with frames := d.ev.frames.map fun (f : FrameEv) => if f.stamp = t then { f with closed := true } else f } }
    let d := d.count64 (R.EVT_CNT 0 0) es.length
    let d := es.foldl (fun d e => (d.logEvent e).forwardEvent t e) d
    { d with ev := d.ev.purge }

/-- An event put in the store of channel `c`, or absorbed in the later of two of its code (R261). One that the cutoff of the run lets
no decision see does not wait (R262). -/
def Dev.storeEvent (d : Dev) (c : Fin 32) (e : StoreEv) : Dev :=
  let x := d.ch c
  if x.active? && !before x.cutoff (e.key (d.fast c)) then d
  else if 2 ≤ (x.store.filter (·.code = e.code)).length then
    (d.countSat (F.CL_EV_STAT_ABSORBED (clu c) (sub c))).set (F.CL_EV_STAT_ABSORB (clu c) (sub c)) 1
  else d.setCh c { x with store := x.store ++ [e] }

/-- Cluster `k` woken by an event in tick DT; a running cluster drops a gate attempt (R379). -/
def Dev.eventWake (d : Dev) (k : Fin 8) : Dev :=
  if d.tripped then d
  else if d.runs (7 + k.val) then d.setRuns (7 + k.val) true
  else { (d.setRuns (7 + k.val) true) with ev := { d.ev with wokeAt := d.ev.wokeAt.set k (some d.ev.dt) } }

/-- EVENT_PRESENT (R259 to R261, R434): event `code` stamped `stamp` is presented to channel `c`. -/
def Dev.eventPresent (d : Dev) (c : Fin 32) (code : BitVec 8) (stamp : Tick) : Dev :=
  match d.ev.frames.find? fun f => f.code = code && f.stamp = stamp with
  | none => d
  | some f =>
    let (t, woke) := d.presentAt c f
    if f.presented.getLsbD c || !(f.closed || d.fast c) || !notAfter t d.ev.dt then d
    else
      let mark (g : FrameEv) : FrameEv := if g.code = code && g.stamp = stamp then
        { g with presented := g.presented ||| BitVec.twoPow 32 c.val } else g
      let pass := d.passes c code
      let d := { d with ev := ({ d.ev with frames := d.ev.frames.map mark } : Events).purge }
      if pass then (d.eventWake (cluster c)).storeEvent c ⟨code, stamp, d.ev.dt, woke⟩ else d

/-- At the end of a tick every event is presented whose presentation falls in it: a mask bit set later no longer lets it through
(R260). -/
def Dev.presentDue (d : Dev) : Dev :=
  d.ev.frames.foldl (fun (d : Dev) f => (List.finRange 32).foldl (fun (d : Dev) c => d.eventPresent c f.code f.stamp) d) d

/-! ### Loading and resuming DT -/

/-- Every condition of R249 holds. -/
def Dev.mayLoad (d : Dev) : Bool :=
  d.ev.counting && (List.finRange 32).all (fun c => (d.ch c).st = .idle) &&
  (List.range 8).all (fun i => !d.flag (F.EVT_TMR_STAT_RUNNING i)) && d.ev.hostEv.isNone &&
  d.get F.ABACUS_STATUS_CODE ≠ 1 && d.linkState = 0

/-- DT moved to a value at a tick boundary. The stamps that sources measure their own ticks against move with it (R253, R255). -/
def Events.jump (e : Events) (v : Tick) : Events :=
  let by_ : Tick := v - e.dt
  { e with dt := v, trigLast := e.trigLast.map fun o => o.map (· + by_), mkLast := e.mkLast.map fun o => o.map (· + by_) }

/-- A LOAD ends (R249). -/
def Dev.loadEnds (d : Dev) (code : Nat) : Dev :=
  { ((d.set F.EVT_STATUS_CODE code).set F.EVT_CTRL_LOAD 0).set F.EVT_IRQ_STATUS_LOAD 1 with ev := { d.ev with load := none } }

/-- A LOAD taken: DT takes the committed value at the next tick boundary (R249). -/
def Dev.startLoadDt (d : Dev) : Dev :=
  if d.mayLoad then
    { (d.set F.EVT_STATUS_CODE 1).set F.EVT_CTRL_LOAD 1 with ev := { d.ev with load := some (d.get64 (R.EVT_DT_LOAD 0)) } }
  else d.loadEnds 6

/-- DT_LOAD (R58, R249): queued behind one that waits for its boundary. -/
def Dev.dtLoad (d : Dev) : Dev := if d.ev.load.isSome then d.set F.EVT_CTRL_PENDING 1 else d.startLoadDt

/-- A LOAD that waits is carried out at the boundary at which DT has just counted, and a queued one is taken (R58, R249). -/
def Dev.loadTick (d : Dev) : Dev :=
  match d.ev.load with
  | some v =>
    if !d.ev.counting then d
    else
      let d := ({ d with ev := d.ev.jump v } : Dev).loadEnds 2
      if d.flag F.EVT_CTRL_PENDING then (d.set F.EVT_CTRL_PENDING 0).startLoadDt else d
  | none => d

/-! ### The log -/

/-- The 64 bytes of an EVENT record but for its generation (R278). -/
def eventRecord (e : FrameEv) : List Byte :=
  [0, 1, 0, 0] ++ leBytes 4 e.stamp.toNat ++
  [e.code, BitVec.ofNat 8 (e.m.toNat + 16 * bit e.coast + 32 * bit e.late), e.kind.setWidth 8, 0] ++
  leBytes 2 e.idx.toNat ++ List.replicate 50 0

/-- LOG_WRITE (R264, R286): the oldest queued event is written, one record per tick at most. -/
def Dev.logWrite (d : Dev) : Dev :=
  let q := d.get F.EVT_LOG_CFG_RING
  match d.ev.log with
  | [] => d
  | e :: rest =>
    if d.ctxBad q then d.ctxError q
    else if d.ev.logAt = some d.ev.elapsed || !d.liveKind q 4 || d.ringFull q || d.recordHeld q (d.prod q) then d
    else { d with ev := { d.ev with log := rest, logAt := some d.ev.elapsed } }.putRecord q (eventRecord e)

end Sys2Proof.Machine
end

