-- ==== Sys2Proof/Machine/LinkCmds.lean ====
section
/-! DEFINITION. Cells, control words, forming, breaks and host array events of the Adold link (chapter 12). -/

namespace Sys2Proof.Machine

/-! ### CRC-8 of a word (R295) -/

/-- One bit shifted into the CRC of polynomial 0x07. -/
def crc8Bit (c : BitVec 8) (b : Bool) : BitVec 8 :=
  let s := c <<< 1
  if c.getLsbD 7 ≠ b then s ^^^ 0x07 else s

/-- The CRC of the low `n` bits of a word, most significant bit first (PRESUMED, log entry 16). -/
def crc8Bits {w : Nat} (v : BitVec w) : Nat → BitVec 8 → BitVec 8
  | 0, c => c
  | n + 1, c => crc8Bits v n (crc8Bit c (v.getLsbD n))

/-- The CRC of a link word's bits [55:0] followed by SEQ. -/
def crc8 (v : BitVec 56) (seq : BitVec 8) : BitVec 8 := crc8Bits seq 8 (crc8Bits v 56 0)

/-- The 64-bit word of a TYPE and a BODY under a sequence number. -/
def linkWord64 (ty : BitVec 2) (body : BitVec 54) (seq : BitVec 8) : W64 :=
  let v : BitVec 56 := ty ++ body
  (crc8 v seq ++ v : BitVec 64)

/-- A received word passes against a sequence number. -/
def passesSeq (w : W64) (seq : BitVec 8) : Bool := crc8 (w.setWidth 56) seq = (w >>> 56).setWidth 8

/-! ### Runs ended by the link -/

/-- A run ended as by R98 steps 1 to 6 without a record: the first uncommitted boundary, the hold, the park; ABORTED with
ABRT 0b01 (R313, R371). A fault of the same tick takes precedence (R313, R380). -/
def Dev.parkAborted (d : Dev) (c : Fin 32) : Dev :=
  let d := d.faultsFirst c
  if (d.ch c).quiet then d
  else
  let b := (d.ch c).nextBoundary
  let d := d.modCh c fun x => { x.stopIssue.cutAt b (d.blockTicks c) with st := .idle }
  d.completeRun c 3 1

/-- Every channel with a run parked so. -/
def Dev.parkActive (d : Dev) : Dev :=
  (List.finRange 32).foldl (fun d c => if (d.ch c).active? then d.parkAborted c else d) d

/-! ### Forming: records and failures -/

/-- This device is the manager. -/
def Dev.manager (d : Dev) : Bool := d.flag F.LINK_CFG_ROLE

/-- Phase of R307 in progress. -/
def Dev.phaseNow (d : Dev) : Nat := d.get F.LINK_CMD_STATUS_PHASE

/-- The record of a LINK.CMD command. -/
def Dev.linkCmdEnds (d : Dev) (code abrt reason pos : Nat) : Dev :=
  let d := (d.set F.LINK_CMD_STATUS_CODE code).set F.LINK_CMD_STATUS_ABRT abrt
  let d := (d.set F.LINK_CMD_STATUS_REASON reason).set F.LINK_CMD_STATUS_POS_FAIL pos
  d.set F.LINK_IRQ_STATUS_FORM 1

/-- LEAVE (R315): STATE OFF, both ports out of service. -/
def Dev.leaveNow (d : Dev) : Dev :=
  let d := ((d.set F.LINK_STATUS_STATE 0).set F.LINK_STATUS_E_UP 0).set F.LINK_STATUS_W_UP 0
  let d := ((d.set (F.LINK_PORT_LANES 0) 0).set (F.LINK_PORT_LANES 1) 0).set F.LINK_STATUS_TIME_COAST 0
  let off (p : LinkPort) : LinkPort :=
    { p with trained := false, cells := 0, sendQ := [], seqExp := none, slips := 0, sent := 0, scrambled := false }
  let d := { d with link := { d.link with e := off d.link.e, w := off d.link.w, timed := false, phaseAt := none, timeHi := none,
                                          dtLoad := none, eDone := false, wDone := false } }
  d.linkCmdEnds 2 0 0 0

/-- A word to a neighbour on one port (R297). -/
def Dev.sendNeighbour (d : Dev) (p : Port) (ty : Nat) (content : W32) (stamped : Bool) : Dev :=
  d.sendWord p ⟨1, 2, controlBody ty content d.arrayPos 1, stamped⟩

/-- A control word sent both ways (R297). -/
def Dev.sendControl (d : Dev) (ty : Nat) (content : W32) (stamped : Bool) : Dev :=
  d.sendBoth 1 2 stamped fun h => controlBody ty content d.arrayPos h

/-- The manager's share of ALIGN (R307): one SYNC edge on SYNCOUT from the next tick boundary on; it lags itself by 0. -/
def Dev.alignManager (d : Dev) : Dev :=
  let d := (d.set F.LINK_TICK_OFS_RESID 0).set F.LINK_TICK_OFS_NOW 0
  { d with clk := { d.clk with pulse := some (d.ev.elapsed + 17) }
           link := { d.link with reported := true, results := [d.arrayPos] } }

/-- STATUS.E_UP or W_UP written. -/
def Dev.setUp (d : Dev) (p : Port) (v : Bool) : Dev :=
  match p with
  | .e => d.set F.LINK_STATUS_E_UP (bit v)
  | .w => d.set F.LINK_STATUS_W_UP (bit v)

/-- A port whose lanes have locked switches to scrambled cells: its training ends, and it is in service (R298). -/
def Dev.enterService (d : Dev) (p : Port) : Dev :=
  if d.portUp p || !d.carries p then d
  else { d.setUp p true with link := d.link.setPort p { d.link.port p with sent := 0, seqExp := none, slips := 0, scrambled := true } }

/-- A phase begins on this device (R307): with LATENCY the ports switch to scrambled cells (R298), and both round trips are
measured; in ALIGN the manager emits the SYNC edge; in TIME it sends the TIME pair, in VERIFY the probe event. -/
def Dev.enterPhase (d : Dev) (n : Nat) : Dev :=
  let d := d.set F.LINK_CMD_STATUS_PHASE n
  let d := if 2 ≤ n then (d.enterService .e).enterService .w else d
  let d := { d with link := { d.link with eDone := false, wDone := false, reported := false, results := [], phaseAt := none
                                          since := d.ev.elapsed, aligned := false } }
  match n with
  | 2 => (d.sendNeighbour .e 3 0 true).sendNeighbour .w 3 0 true
  | 3 => if d.manager then d.alignManager else d
  | 4 => if d.manager then (d.sendControl 5 0 true).sendControl 6 0 true else d
  | 5 => if d.manager then d.sendControl 8 0 true else d
  | _ => d

/-- The forming is over on this device: STATE OFF, and no phase or DT load that was announced comes any more (R308). -/
def Dev.formOver (d : Dev) : Dev :=
  let d := d.set F.LINK_STATUS_STATE 0
  { d with link := { d.link with phaseAt := none, timeHi := none, dtLoad := none, eDone := false, wDone := false } }

/-- FORM fails on this device (R308): on the manager the record is FAILED. A worker stays OFF until a new FORM reaches phase LATENCY
(log entry 17). -/
def Dev.formFails (d : Dev) (reason pos : Nat) : Dev :=
  let d := d.formOver
  if d.manager then (d.linkCmdEnds 4 0 reason pos).set F.LINK_CMD_FORM 0 else d

/-- This device finds that the phase cannot be completed (R308): a worker reports it. -/
def Dev.phaseFails (d : Dev) (reason : Nat) : Dev :=
  let d := if d.manager then d else d.sendControl 9 (BitVec.ofNat 32 (d.phaseNow + 8 * reason)) false
  d.formFails reason d.arrayPos

/-- The array is formed (R307). -/
def Dev.formed (d : Dev) : Dev :=
  let d := (d.set F.LINK_STATUS_STATE 2).set F.LINK_IRQ_STATUS_FORM 1
  let d := (d.setIf (d.stage = 4) F.DEV_STAGE_STAGE 5).set F.LINK_STATUS_TIME_COAST 0
  let d := d.set F.LINK_CMD_STATUS_PHASE 0
  if d.manager then (d.linkCmdEnds 2 0 0 0).set F.LINK_CMD_FORM 0 else d

/-- The manager announces the next phase with a PHASE word that leads its tick, and enters it in that tick itself (R297). -/
def Dev.nextPhase (d : Dev) : Dev :=
  let n := d.phaseNow + 1
  let t := (d.ev.dt + tk (Config.phaseLead d.free)).toNat % 2 ^ 24
  let d := { d with free := d.free + 1, link := { d.link with phaseAt := some (n, t) } }
  d.sendControl 2 (BitVec.ofNat 32 (n + 8 * t)) false

/-- Position `a` has ended the present phase. When all have, the manager starts the next one, and the array is formed
after VERIFY (R307). -/
def Dev.positionEnds (d : Dev) (a : Nat) : Dev :=
  let rs := if d.link.results.contains a then d.link.results else d.link.results ++ [a]
  let d := { d with link := { d.link with results := rs } }
  let all := (List.range d.arrayN).all rs.contains
  if d.linkState ≠ 1 || d.link.phaseAt.isSome then d
  else if d.manager then (if !all then d else if d.phaseNow = 5 then d.formed else d.nextPhase)
  else if d.phaseNow = 5 && (List.range d.arrayN).all (fun p => p = 0 || rs.contains p) then d.formed
  else d

/-- This device's share of the present phase is done: it is reported once (R297, R307). -/
def Dev.shareDone (d : Dev) : Dev :=
  if d.link.reported || d.linkState ≠ 1 then d
  else
    let d := { d with link := { d.link with reported := true } }
    let d := if d.manager then d else d.sendControl 9 (BitVec.ofNat 32 d.phaseNow) false
    d.positionEnds d.arrayPos

/-- A port's share of the phase is done. -/
def Dev.portDone (d : Dev) (p : Port) : Dev :=
  match p with
  | .e => { d with link := { d.link with eDone := true } }
  | .w => { d with link := { d.link with wDone := true } }

/-- A port's share of the phase is done; both make the device's share. -/
def Dev.portShare (d : Dev) (p : Port) : Dev :=
  let d := d.portDone p
  if d.link.eDone && d.link.wDone then d.shareDone else d

/-- Reasons CLOCK and NOT_IDLE of R308, which hold throughout FORM. A sample PLL that slews is locked (R364). -/
def Dev.formReason (d : Dev) : Option Nat :=
  if d.stage < 3 || (d.get F.CLK_SPLL_STATUS_STATE ≠ 2 && d.get F.CLK_SPLL_STATUS_STATE ≠ 3) then some 5
  else if !(List.finRange 32).all (fun c => (d.ch c).st = .idle) then some 4
  else none

/-- FORM taken (R307, R308). A worker, N = 1, EN = 0 or a STATE other than OFF makes it REJECTED (log entry 17). -/
def Dev.startForm (d : Dev) : Dev :=
  if !d.manager || d.arrayN < 2 || !d.flag F.LINK_CFG_EN || d.linkState ≠ 0 then d.linkCmdEnds 6 0 0 0
  else match d.formReason with
    | some r => d.linkCmdEnds 4 0 r d.arrayPos
    | none =>
      let d := (d.linkCmdEnds 1 0 0 0).set F.LINK_IRQ_STATUS_FORM (d.get F.LINK_IRQ_STATUS_FORM)
      let d := (d.set F.LINK_CMD_FORM 1).set F.LINK_STATUS_STATE 1
      { d with link := { d.link with timed := false } }.enterPhase 1

/-- A LINK.CMD command queued behind a FORM that runs; where one waits already, nothing is added (R58). -/
def Dev.queueLinkCmd (d : Dev) (leave : Bool) : Dev :=
  if d.flag F.LINK_CMD_PENDING then d
  else { (d.set F.LINK_CMD_PENDING 1) with link := { d.link with queuedLeave := leave } }

/-- FORM (R58, R307). -/
def Dev.form (d : Dev) : Dev := if d.flag F.LINK_CMD_FORM then d.queueLinkCmd false else d.startForm

/-- LEAVE (R58, R315): queued behind a FORM that runs. -/
def Dev.leave (d : Dev) : Dev := if d.flag F.LINK_CMD_FORM then d.queueLinkCmd true else d.leaveNow

/-- A queued LINK.CMD command starts when FORM has ended (R58). -/
def Dev.nextLinkCmd (d : Dev) : Dev :=
  if d.flag F.LINK_CMD_FORM || !d.flag F.LINK_CMD_PENDING then d
  else
    let d := d.set F.LINK_CMD_PENDING 0
    if d.link.queuedLeave then d.leaveNow else d.startForm

/-- FORM on this device meets CLOCK or NOT_IDLE (R308). -/
def Dev.formWatch (d : Dev) : Dev :=
  match d.formReason with
  | some r => if d.linkState = 1 then (d.phaseFails r).nextLinkCmd else d
  | none => d

/-- LINK_ABORT (R60, R308). -/
def Dev.linkAbort (d : Dev) : Dev :=
  if d.flag F.LINK_CMD_FORM then
    ((d.formOver.set F.LINK_CMD_FORM 0).linkCmdEnds 3 1 0 0).set F.LINK_CMD_PENDING 0
  else d.set F.LINK_CMD_STATUS_ABRT 2

/-- Limit of a phase in ticks (R307). -/
def phaseLimit (n : Nat) : Nat :=
  match n with | 1 => 2000000 | 3 => 800000 | _ => 400000

/-- FORM_PHASE_LIMIT (R307, R308). -/
def Dev.formPhaseLimit (d : Dev) (reason pos : BitVec 4) : Dev :=
  if d.linkState = 1 && d.link.since + phaseLimit d.phaseNow ≤ d.ev.elapsed then
    (if d.manager then d.formFails reason.toNat pos.toNat else d.phaseFails reason.toNat).nextLinkCmd
  else d

/-! ### Breaks -/

/-- Words of a port's send queue dropped; event words among them are counted EV_LOST (R315). -/
def Dev.dropQueue (d : Dev) (p : Port) : Dev :=
  let x := d.link.port p
  let n := (x.sendQ.filter (·.word.ty = 1)).length
  let y := { x with trained := false, cells := 0, sendQ := [], seqExp := none, slips := 0, scrambled := false }
  let d := { d with link := { d.link.setPort p y with eDone := d.link.eDone && p ≠ .e, wDone := d.link.wDone && p ≠ .w } }
  (List.range n).foldl (fun d _ => d.evLost) d

/-- STATE BROKEN recorded: the first report stands (R313, R314). -/
def Dev.recordBreak (d : Dev) (pos port cause : Nat) : Dev :=
  let d := if d.linkState = 3 then d else
    (((d.set F.LINK_STATUS_STATE 3).set F.LINK_STATUS_BROKEN_POS pos).set F.LINK_STATUS_BROKEN_PORT port).set
      F.LINK_STATUS_CAUSE cause
  d.set F.LINK_IRQ_STATUS_BREAK 1

/-- A port that is not in service loses its lanes, and trains anew (R298). -/
def Dev.untrain (d : Dev) (p : Port) : Dev := if d.carries p then (d.dropQueue p).set (F.LINK_PORT_LANES (portIdx p)) 0 else d

/-- PORT_DOWN (R308, R312, R313): a port in service goes down. -/
def Dev.portDown (d : Dev) (p : Port) (cause : Nat) : Dev :=
  if !d.portUp p then if cause = 1 then d.untrain p else d
  else
    let d := (d.setUp p false).dropQueue p
    let d := d.setIf (cause = 1) (F.LINK_PORT_LANES (portIdx p)) 0
    match d.linkState with
    | 0 => d
    | 1 => (d.phaseFails 7).nextLinkCmd
    | _ =>
      let d := d.parkActive.recordBreak d.arrayPos (portIdx p) cause
      let d := d.sendWord (portOther p)
        ⟨1, 2, controlBody 10 (BitVec.ofNat 32 (d.arrayPos + 16 * portIdx p + 32 * cause)) d.arrayPos (d.arrayN - 1), false⟩
      d.setIf (!d.manager) F.LINK_STATUS_TIME_COAST 1

/-- A word forwarded on the other port with one hop less (R300). -/
def Dev.forwardWord (d : Dev) (p : Port) (rank : Nat) (ty : BitVec 2) (body : Nat → BitVec 54) (hops : Nat) : Dev :=
  if hops ≤ 1 then d else d.queueWord (portOther p) true ⟨rank, ty, body (hops - 1), false⟩

/-- BREAK_NOTICE (R312, R314). On a worker beacons have ended with the state FORMED (R309, R315). -/
def Dev.breakNotice (d : Dev) (p : Port) (content : W32) (origin hops : Nat) : Dev :=
  if d.linkState < 2 || !d.portUp p then d
  else
    let pos := bits content 3 0
    let port := bits content 4 4
    let d := d.forwardWord p 1 2 (controlBody 10 content origin) hops
    let d := (d.recordBreak pos port (bits content 7 5)).setIf (!d.manager) F.LINK_STATUS_TIME_COAST 1
    let d := if port = 0 && (pos + 1) % d.arrayN = d.arrayPos then d.portDown .w 5
      else if port = 1 && (d.arrayPos + 1) % d.arrayN = pos then d.portDown .e 5
      else d
    if d.flag F.LINK_CFG_ON_BREAK then d.parkActive else d

/-! ### Control words -/

/-- Position of the neighbour on a port (R293). -/
def Dev.neighbour (d : Dev) : Port → Nat
  | .e => (d.arrayPos + 1) % d.arrayN
  | .w => (d.arrayPos + d.arrayN - 1) % d.arrayN

/-- Hops a forwarded word has travelled (R297). -/
def Dev.travelled (d : Dev) (p : Port) (origin : Nat) : Nat :=
  let n := d.arrayN
  match p with
  | .w => (d.arrayPos + n - origin % n) % n
  | .e => (origin + n - d.arrayPos % n) % n

/-- Content of this device's HELLO (R297). -/
def Dev.helloContent (d : Dev) : W32 :=
  BitVec.ofNat 32 (d.get F.LINK_CFG_N_M1 + 16 * d.get F.LINK_CFG_ROLE + 32 * d.get F.LINK_CFG_EN +
    64 * d.get F.DEV_ID_STEPPING)

/-- A port that re-enters service after training switches to scrambled cells with the HELLO exchange, which it answers (R298). -/
def Dev.switchOver (d : Dev) (p : Port) : Dev :=
  if d.portUp p then d else (d.sendNeighbour p 1 d.helloContent false).enterService p

/-- What a HELLO says disagrees with this device's LINK.CFG (R308). -/
def Dev.helloDiffers (d : Dev) (p : Port) (content : W32) (origin : Nat) : Bool :=
  bits content 3 0 ≠ d.get F.LINK_CFG_N_M1 || origin ≠ d.neighbour p || (content.getLsbD 4 && d.manager) || content.getLsbD 4 ≠ (origin = 0)

/-- What a worker that is OFF reports of TRAIN (R297, R307, R308, log entry 17): a disagreement, or, once both its ports have heard
their neighbours, that its share is done, or what makes it fail. -/
def Dev.trainReport (d : Dev) (p : Port) (differs : Bool) : Dev :=
  if differs then d.sendControl 9 (BitVec.ofNat 32 (1 + 8 * 2)) false
  else
    let d := d.portDone p
    if d.link.eDone && d.link.wDone then d.sendControl 9 (BitVec.ofNat 32 (1 + 8 * d.formReason.getD 0)) false else d

/-- HELLO (R297, R307, R308): in TRAIN a disagreement fails the FORM of the manager with CFG. A worker is not told of the FORM, and
reports the end of TRAIN with every HELLO it hears while it is OFF (log entry 17). -/
def Dev.hello (d : Dev) (p : Port) (content : W32) (origin : Nat) : Dev :=
  if !d.carries p || !d.flag F.LINK_CFG_EN then d
  else if 2 ≤ d.linkState then d.switchOver p
  else if d.manager then
    if d.linkState ≠ 1 || d.phaseNow ≠ 1 then d
    else if d.helloDiffers p content origin then (d.phaseFails 2).nextLinkCmd
    else d.portShare p
  else if d.linkState = 1 then d
  else d.trainReport p (d.helloDiffers p content origin)

/-- PHASE (R297, R307): the phase starts at the tick named, as this device counts DT; a worker that is OFF joins with LATENCY (log
entry 17). -/
def Dev.phase (d : Dev) (p : Port) (content : W32) (origin hops : Nat) : Dev :=
  if !d.carries p || 2 ≤ d.linkState || d.manager then d
  else
    let d := d.forwardWord p 1 2 (controlBody 2 content origin) hops
    if d.linkState = 1 || bits content 2 0 = 2 then
      { d with link := { d.link with phaseAt := some (bits content 2 0, bits content 26 3) } }
    else d

/-- The phase announced for this tick begins: a worker that is OFF joins the forming (R307). -/
def Dev.beginPhase (d : Dev) (n : Nat) : Dev :=
  let d := if d.linkState = 0 then { (d.set F.LINK_STATUS_STATE 1) with link := { d.link with timed := false } } else d
  d.enterPhase n

/-- PROBE (R297): answered by an ECHO, which takes the ticks up to its launch as it is launched. -/
def Dev.probe (d : Dev) (p : Port) (content : W32) : Dev :=
  if !d.portUp p then d
  else d.sendNeighbour p 4 (BitVec.ofNat 32 (bits content 23 0)) true

/-- ECHO (R297, R307): the round trip gives the raw latency of the hop; above 14 ticks LATENCY fails. -/
def Dev.echo (d : Dev) (p : Port) (content : W32) : Dev :=
  if !d.portUp p then d
  else
    let trip := (d.ev.dt.toNat + 2 ^ 24 - bits content 23 0) % 2 ^ 24 - bits content 31 24
    if d.linkState = 1 && d.phaseNow = 2 then
      if 28 < trip then (d.phaseFails 3).nextLinkCmd
      else (d.set (F.LINK_PORT_RAW (portIdx p)) (8 * trip)).portShare p
    else d

/-- TIME_HI (R297). -/
def Dev.timeHi (d : Dev) (p : Port) (content : W32) (origin hops : Nat) : Dev :=
  if !d.portUp p || d.linkState ≠ 1 || d.phaseNow ≠ 4 then d
  else { d.forwardWord p 1 2 (controlBody 5 content origin) hops with link :=
    { (d.forwardWord p 1 2 (controlBody 5 content origin) hops).link with timeHi := some content } }

/-- TIME_LO (R297): DT := L + 256 in the tick 256 − 16 × h ticks after the pair arrives. -/
def Dev.timeLo (d : Dev) (p : Port) (content : W32) (origin hops : Nat) : Dev :=
  if !d.portUp p || d.linkState ≠ 1 || d.phaseNow ≠ 4 then d
  else match d.link.timeHi with
    | none => d
    | some hi =>
      let d := d.forwardWord p 1 2 (controlBody 6 content origin) hops
      let l : W64 := hi ++ content
      let due := d.ev.elapsed + (256 - 16 * d.travelled p origin)
      { d with link := { d.link with timeHi := none, dtLoad := some (due, l + 256) } }

/-- BEACON (R309): a mismatch takes the receiving port down with cause TIME. -/
def Dev.beacon (d : Dev) (p : Port) (content : W32) (origin hops : Nat) : Dev :=
  if !d.portUp p || d.linkState < 2 then d
  else
    let d := d.forwardWord p 1 2 (controlBody 7 content origin) hops
    let want := content + BitVec.ofNat 32 (16 * d.travelled p origin)
    if !d.manager && d.ev.dt.setWidth 32 ≠ want then d.portDown p 4 else d

/-- VERIFY (R297, R307). -/
def Dev.verify (d : Dev) (p : Port) (content : W32) (origin hops : Nat) : Dev :=
  if !d.portUp p || d.linkState ≠ 1 || d.phaseNow ≠ 5 || d.manager then d
  else
    let d := d.forwardWord p 1 2 (controlBody 8 content origin) hops
    if d.ev.dt.toNat % 2 ^ 24 = (bits content 23 0 + 16 * d.travelled p origin) % 2 ^ 24 then d.shareDone
    else (d.phaseFails 6).nextLinkCmd

/-- RESULT (R297, R307, R308). -/
def Dev.result (d : Dev) (p : Port) (content : W32) (origin hops : Nat) : Dev :=
  if !d.carries p || 2 ≤ d.linkState then d
  else
    let d := d.forwardWord p 1 2 (controlBody 9 content origin) hops
    if d.linkState ≠ 1 then d
    else if bits content 6 3 ≠ 0 then (d.formFails (bits content 6 3) origin).nextLinkCmd
    else if bits content 2 0 = d.phaseNow then (d.positionEnds origin).nextLinkCmd
    else d

/-! ### Array events -/

/-- The unique time with low 24 bits `t` from DT − 2^23 up to DT + 2^23 (R296). -/
def expand24 (dt : Tick) (t : BitVec 24) : Tick :=
  let ahead : BitVec 24 := t - dt.setWidth 24
  dt + ahead.signExtend 64

/-- STOP_CODE acts as PARK_ALL (R311). -/
def Dev.arrayStop (d : Dev) (code : BitVec 8) : Dev :=
  if d.flag F.LINK_CFG_STOP_EN && d.get F.LINK_CFG_STOP_CODE = code.toNat then d.parkAll else d

/-- ARRAY_EVENT_RECEIVE (R296, R300, R302, R315). -/
def Dev.arrayEventReceive (d : Dev) (p : Port) (body : BitVec 54) : Dev :=
  if !d.portUp p || d.linkState < 2 then d
  else
    let code := BitVec.ofNat 8 (bits body 7 0)
    let t := expand24 d.ev.dt (BitVec.ofNat 24 (bits body 31 8))
    let d := (d.count64 (R.LINK_CNT (portIdx p) 1 0) 1).forwardWord p 0 1 (eventBody code t (bits body 35 32)) (bits body 39 36)
    let d := d.takeCopy p code t
    if before t d.ev.dt then d.arrayStop code else d

/-- ARRAY_EVENT_ENTER (R302, R311): the first held event whose target tick has come enters its frame. -/
def Dev.arrayEventEnter (d : Dev) : Dev :=
  match d.link.hold.find? fun e => notAfter e.target d.ev.dt with
  | none => d
  | some e =>
    let d := { d with link := { d.link with hold := d.link.hold.erase e } }
    (d.emit e.code e.target 0 6 (BitVec.ofNat 16 (portIdx e.port)) false d.ev.dt).arrayStop e.code

/-- LINK_HOST_EV (R305). -/
def Dev.linkHostEv (d : Dev) : Dev :=
  let t := d.get64 (R.LINK_HOST_T 0)
  let gap := (t - d.ev.dt).toNat
  let ends (d : Dev) (code : Nat) : Dev := (d.set F.LINK_HOST_EV_CODE_ST code).set F.LINK_IRQ_STATUS_HOST 1
  if d.linkState < 2 then ends d 6
  else if 160 ≤ gap && gap < 2 ^ 22 then ends (d.arrayEvent (BitVec.ofNat 8 (d.get F.LINK_HOST_EV_CODE)) t) 2
  else ends d 5

/-! ### Cells -/

/-- A received pair of copies taken against an expected SEQ (R295, R298): the word, whether it slipped, whether one copy
failed. -/
def takeWord (a b : W64) (seq : BitVec 8) : Option (W64 × Bool × Bool) :=
  let at_ (s : BitVec 8) (slip : Bool) : Option (W64 × Bool × Bool) :=
    if passesSeq a s then some (a, slip, !passesSeq b s) else if passesSeq b s then some (b, slip, true) else none
  at_ seq false <|> at_ (seq + 1) true <|> at_ (seq - 1) true <|> at_ (seq + 2) true <|> at_ (seq - 2) true

/-- The SEQ that a receiver learns from a cell (R298). -/
def learnSeq (w : W64) : Option (BitVec 8) :=
  ((List.range 256).map (BitVec.ofNat 8)).find? (passesSeq w)

/-- A control word received (R297). Reserved types are discarded. -/
def Dev.controlWord (d : Dev) (p : Port) (body : BitVec 54) : Dev :=
  let content : W32 := body.setWidth 32
  let origin := bits body 35 32
  let hops := bits body 39 36
  match bits body 53 48 with
  | 1 => d.hello p content origin
  | 2 => d.phase p content origin hops
  | 3 => d.probe p content
  | 4 => d.echo p content
  | 5 => d.timeHi p content origin hops
  | 6 => d.timeLo p content origin hops
  | 7 => d.beacon p content origin hops
  | 8 => d.verify p content origin hops
  | 9 => d.result p content origin hops
  | 10 => d.breakNotice p content origin hops
  | _ => d

/-- A taken word acted on. -/
def Dev.linkWordIn (d : Dev) (p : Port) (w : W64) : Dev :=
  match bits w 55 54 with
  | 1 => d.arrayEventReceive p (w.setWidth 54)
  | 2 => d.controlWord p (w.setWidth 54)
  | _ => d

/-- SEQ expected in this tick: a cell that is not scrambled passes under whatever SEQ it carries (R298). -/
def Dev.seqExp (d : Dev) (p : Port) (w : W64) : Option (BitVec 8) :=
  if !(d.link.port p).scrambled then learnSeq w
  else if d.link.timed then some ((d.ev.dt - 16).setWidth 8)
  else match (d.link.port p).seqExp with
    | some s => some s
    | none => learnSeq w

/-- A word taken although one of its copies failed is counted (R295). -/
def Dev.corrected (d : Dev) (p : Port) (r : Option (W64 × Bool × Bool)) : Dev :=
  if r.any fun r => r.2.2 then d.countSat (F.LINK_PORT_CORRECTED (portIdx p)) else d

/-- A cell that slipped is counted, and the run of such cells goes on or ends (R298, R312). -/
def Dev.slipped (d : Dev) (p : Port) (slip : Bool) (before_ : Nat) : Dev :=
  let d := if slip then d.countSat (F.LINK_PORT_SLIPPED (portIdx p)) else d
  { d with link := d.link.setPort p { (d.link.port p) with slips := if slip then before_ + 1 else 0 } }

/-- A word acted on where one was taken. -/
def Dev.takenWord (d : Dev) (p : Port) (r : Option (W64 × Bool × Bool)) : Dev :=
  match r with | some (w, _) => d.linkWordIn p w | none => d

/-- CELL_RECEIVE (R295, R298, R312): the copies of each word after descrambling. Each word is taken or lost by itself. -/
def Dev.cellReceive (d : Dev) (p : Port) (w0a w1a w0b w1b : W64) : Dev :=
  if !d.carries p then d
  else match d.seqExp p w0a with
    | none => d.portDown p 2
    | some s =>
      let x := d.link.port p
      let d := { d with link := d.link.setPort p { x with seqExp := if x.scrambled then some (s + 1) else none } }
      let r0 := takeWord w0a w0b s
      let r1 := takeWord w1a w1b s
      let slip := (r0.any fun r => r.2.1) || r1.any fun r => r.2.1
      let d := ((d.corrected p r0).corrected p r1).slipped p slip x.slips
      let d := (d.takenWord p r0).takenWord p r1
      if r0.isNone || r1.isNone then d.portDown p 2
      else if 4 ≤ (if slip then x.slips + 1 else 0) then d.portDown p 3
      else d

/-! ### Ports and alignment -/

/-- LANE_LOCK (R298): with all four lanes locked the port carries words, and enters service when both ends switch. -/
def Dev.laneLock (d : Dev) (p : Port) (lane : Fin 4) : Dev :=
  if !d.flag F.LINK_CFG_EN then d
  else
    let i := portIdx p
    let d := d.set ⟨R.LINK_PORT i, 8 + lane.val, 1⟩ 1
    if d.get (F.LINK_PORT_LANES i) = 15 && !d.carries p then
      { d with link := d.link.setPort p { d.link.port p with trained := true, cells := 0, sent := 0, seqExp := none, slips := 0 } }
    else d

/-- The whole samples in a lag of `n` steps of 0.5 ps, and the remainder in such steps (R307, R310). -/
def lagSamples (n : Nat) : Nat × Nat := (2 * n / 625, 2 * n % 625 / 2)

/-- LINK_RECALIBRATION (R307, R310): in ALIGN a worker that has had its SYNC edge slips its divider phase by the whole samples,
and the remainder becomes RESID; while formed the lag is compared with RESID. -/
def Dev.linkRecalibration (d : Dev) (now : BitVec 10) : Dev :=
  if d.linkState = 1 && d.phaseNow = 3 then
    if d.manager || !d.link.aligned then d
    else
      let lag := lagSamples now.toNat
      let d := { d with link := { d.link with slip := lag.1 } }
      ((d.set F.LINK_TICK_OFS_RESID lag.2).set F.LINK_TICK_OFS_NOW lag.2).shareDone.nextLinkCmd
  else if d.linkState = 2 then
    let d := d.set F.LINK_TICK_OFS_NOW now.toNat
    let r := d.get F.LINK_TICK_OFS_RESID
    d.setIf (r + 313 ≤ now.toNat || now.toNat + 313 ≤ r) F.LINK_IRQ_STATUS_DRIFT 1
  else d

/-! ### What a tick does on the link -/

/-- The body of a word launched in tick `t`, `held` ticks after it came: PROBE and VERIFY take bits [23:0] of the launch tick, BEACON
and TIME_LO bits [31:0], TIME_HI bits [63:32]; ECHO takes the ticks it was held (R297). -/
def LinkWord.launched (w : LinkWord) (t : Tick) (held : Nat) : BitVec 54 :=
  if !w.stamped then w.body
  else
    let v := match bits w.body 53 48 with
      | 3 | 8 => t.toNat % 2 ^ 24
      | 4 => bits w.body 23 0 + held % 256 * 2 ^ 24
      | 5 => t.toNat / 2 ^ 32
      | _ => t.toNat % 2 ^ 32
    (w.body &&& ~~~0xFFFFFFFF#54) ||| BitVec.ofNat 54 v

/-- A word is a control word of a type. -/
def LinkWord.control (w : LinkWord) (ty : Nat) : Bool := w.ty = 2 && bits w.body 53 48 = ty

/-- The words of the cell launched at boundary count `now`, of those that came in an earlier tick or go on from the other port:
TIME_HI only goes in W0 (R297, R299, R301). -/
def cellWords (now : Nat) (q : List QueuedWord) : List QueuedWord :=
  match q.filter fun w => w.fwd || w.came < now with
  | a :: b :: _ => if b.word.control 5 then [a] else [a, b]
  | l => l

/-- Bits of one lane scrambled, bit 0 first, by the self-synchronising scrambler x^58 + x^39 + 1 (R298). -/
def scramble (st : BitVec 58) (w : W64) : BitVec 58 × W64 :=
  (List.range 64).foldl (fun (p : BitVec 58 × W64) i =>
    let o := w.getLsbD i ^^ p.1.getLsbD 57 ^^ p.1.getLsbD 38
    (p.1 <<< 1 ||| if o then 1 else 0, if o then p.2 ||| BitVec.twoPow 64 i else p.2)) (st, 0)

/-- What lane `i` carries in a training cell (R298). -/
def trainingLane (i : Nat) : W64 := 0x0F0F5A5AC3C300F0 + BitVec.ofNat 64 i

/-- What the four lanes carry in a training cell (R298). -/
def trainingCell : List W64 := (List.range 4).map trainingLane

/-- The four lanes of a cell: W0 on lanes 0 and 2, W1 on lanes 1 and 3, scrambled once both ends have switched. Until then a cell
without a word is a training cell (R295, R298). -/
def LinkPort.drive (x : LinkPort) (empty : Bool) (w0 w1 : W64) : LinkPort :=
  if !x.scrambled then { x with lanes := some (if empty then trainingCell else [w0, w1, w0, w1]) }
  else
    let out := (x.scramblers.zip [w0, w1, w0, w1]).map fun p => scramble p.1 p.2
    { x with lanes := some (out.map (·.2)), scramblers := out.map (·.1) }

/-- The cell of tick DT launched on a port that carries words (R295, R299, R301): SEQ is DT while DT counts, else the count of cells (R298).
A port that trains sends training cells, any other is in electrical idle, as all are in the safe state (R374). -/
def Dev.launchCell (d : Dev) (p : Port) : Dev :=
  let x := d.link.port p
  let lanes (l : Option (List W64)) : Dev := { d with link := d.link.setPort p { x with lanes := l } }
  if d.clk.safe then lanes none
  else if !d.carries p then
    if d.flag F.LINK_CFG_EN && d.flag F.CLK_PLL_STATUS_LINK_LOCK then lanes (some trainingCell) else lanes none
  else
    let t := d.ev.dt
    let now := cellWords d.ev.elapsed x.sendQ
    let seq : BitVec 8 := if d.ev.counting then t.setWidth 8 else BitVec.ofNat 8 x.sent
    let word (i : Nat) : W64 := match now[i]? with
      | some w => linkWord64 w.word.ty (w.word.launched t (d.ev.elapsed - w.came)) seq
      | none => linkWord64 0 0 seq
    let timePair := now.any fun w => w.word.stamped && w.word.control 6
    let x' := { x with sendQ := now.foldl (·.erase ·) x.sendQ, out := (word 0, word 1), cells := x.cells + 1
                       sent := if x.scrambled then x.sent + 1 else 0 }
    let d := { d with link := d.link.setPort p (x'.drive now.isEmpty (word 0) (word 1)) }
    let d := d.count64 (R.LINK_CNT (portIdx p) 0 0) (now.filter (·.word.ty = 1)).length
    if timePair && d.link.dtLoad.isNone then
      { d with link := { d.link with dtLoad := some (d.ev.elapsed + 256, t + 256) } }
    else d

/-- HELLO words fall due once per 256 cells from lane lock until FORMED or, after a break, until the port is in service again, beacons every 4,096 ticks, and a worker's PROBE of its
upstream hop every 10 ms while FORMED (R297, R309, R310). -/
def Dev.dueWords (d : Dev) : Dev :=
  let hello (d : Dev) (p : Port) : Dev :=
    if d.carries p && (d.linkState < 2 || !d.portUp p) && (d.link.port p).cells % 256 = 0 then d.sendNeighbour p 1 d.helloContent false else d
  let d := hello (hello d .e) .w
  let d := if d.linkState = 2 && !d.manager && d.ev.elapsed % 4000000 = 0 then d.sendNeighbour .w 3 0 true else d
  if d.linkState = 2 && d.manager && d.ev.dt.toNat % 4096 = 0 then d.sendControl 7 0 true else d

/-- The link's part of a tick boundary: a DT load that falls due, which starts DT unless its clock stands on bypass; a phase at its
tick; a FORM that has lost its clock or an idle channel (R247, R297, R307, R308). -/
def Dev.linkBoundary (d : Dev) : Dev :=
  let d := match d.link.dtLoad with
    | some (at_, v) =>
      if at_ ≤ d.ev.elapsed then
        let d := { d with link := { d.link with dtLoad := none, timed := true } }
        let runs := !d.bypassed
        let d := { d with ev := { d.ev.jump v with counting := runs, started := d.ev.started || runs } }
        d.shareDone.nextLinkCmd
      else d
    | none => d
  let d := match d.link.phaseAt with
    | some (n, t) => if d.ev.dt.toNat % 2 ^ 24 = t then d.beginPhase n else d
    | none => d
  let d := d.formWatch
  if d.linkState = 1 && d.phaseNow = 5 && d.manager && !d.link.reported then d.shareDone.nextLinkCmd else d

end Sys2Proof.Machine
end

