-- ==== Sys2Proof/Machine/StageOps.lean ====
section
/-! DEFINITION. Segment tables, stage buffers, target heads, CL.FILL copies and Oasis writes (chapters 05 and 14). -/

namespace Sys2Proof.Machine

/-- Free values drawn for `n` bytes that the spec does not state. -/
def Dev.unstated (d : Dev) (n : Nat) : Dev × List Byte :=
  ({ d with free := d.free + n }, (List.range n).map fun i => Config.unstatedByte (d.free + i))

/-! ### Segment table -/

/-- DESCRIPTOR_WRITE (R155, R156, R457): a write to the segment-table window of cluster `k`. -/
def Dev.descriptorWrite (d : Dev) (k : Fin 8) (off : Nat) (data : List Byte) : Dev :=
  if 0x40000 < off + data.length then d
  else
    let d := (d.wakeCluster k.val).abandonOver .segTable (segAt k off) data.length
    { d with mem := { d.mem with segtab := d.mem.segtab.writeUnits 8 (segAt k off) data } }

/-! ### Stage buffers -/

/-- The first streamed play with a block not yet requested (R166). -/
def Chan.nextFetch (x : Chan) : Option Fetch := x.fetches.find? fun f => f.d.streamed && f.next < f.d.len

/-- Records of a STREAM ring already taken by requested blocks of the channel. -/
def Chan.claimed (x : Chan) (q : Nat) : Nat :=
  x.stage.foldl (fun n b => match x.fetches.find? (·.pid = b.pid) with
    | some f => if f.ring = some q then n + ringRecords f.d.fmt else n
    | none => n) 0

/-- A block request of channel `c` is ready to go: its records are published, and the buffer has room (R166, R284). -/
def Dev.requestReady (d : Dev) (c : Fin 32) : Option Fetch :=
  let x := d.ch c
  match x.nextFetch with
  | none => none
  | some f =>
    let room := d.flag (F.CL_STAGE_CTRL_EN (clu c) (sub c)) && x.stageUsed + f.d.drawBytes ≤ 0x40000
    let published := match f.ring with
      | some q => x.claimed q + ringRecords f.d.fmt ≤ d.ready q
      | none => true
    if room && published then some f else none

/-- Ticks of its draw that the stage buffer of channel `c` covers (R168): of the draw of the play whose block is requested next, in
whole ticks (DESIGN CHOICE, log entry 47). -/
def Dev.cover (d : Dev) (c : Fin 32) (f : Fetch) : Nat := (d.ch c).stageFill * d.blockTicks c / f.d.drawBytes

/-- No other channel of the cluster goes before channel `c` on the playback port (R168). -/
def Dev.goesFirst (d : Dev) (c : Fin 32) (f : Fetch) : Bool :=
  (List.finRange 32).all fun e =>
    e = c || clu e ≠ clu c ||
    (match d.requestReady e with
     | some g => d.cover c f < d.cover e g || (d.cover c f = d.cover e g && c.val < e.val)
     | none => true)

/-- STAGE_REQUEST (R166, R168): the next block of channel `c` is requested. -/
def Dev.stageRequest (d : Dev) (c : Fin 32) : Dev :=
  match d.requestReady c with
  | some f =>
    if d.goesFirst c f then
      let d := d.modCh c fun x => { x with
        stage := x.stage ++ [⟨f.pid, f.next, f.d.drawBytes, x.grans f.d.drawBytes, d.hbm.reqs, false, none⟩]
        fetches := x.fetches.map fun g => if g.pid = f.pid then { g with next := g.next + 1 } else g }
      { d with hbm := { d.hbm with reqs := d.hbm.reqs + 1 } }
    else d
  | none => d

/-- Where the data of block `i` of a fetch lies: (address, bytes) of its data and of its track (R159, R161, R265, R284). A
ring-fed block lies behind the records that earlier blocks in the buffer hold. -/
def Dev.blockPlace (d : Dev) (c : Fin 32) (f : Fetch) (i : Nat) : List (Nat × Nat) × List (Nat × Nat) :=
  match f.ring with
  | some q =>
    let x := d.ch c
    let before := { x with stage := x.stage.takeWhile fun b => !(b.pid = f.pid && b.idx = i) }.claimed q
    let n := ringRecords f.d.fmt
    let first := d.cons q + BitVec.ofNat 32 before
    ((List.range n).map fun j => (d.recAddr q (first + BitVec.ofNat 32 j), f.d.blockBytes / n), [])
  | none =>
    ([(f.d.addr + i * f.d.blockBytes, f.d.blockBytes)], if f.d.hasTrack then [(f.d.track + i * 32, 32)] else [])

/-- Ranges read by source `src`: their bytes, and the pseudo-channel of the first poisoned unit. -/
def Dev.readRanges (d : Dev) (src : Nat) (rs : List (Nat × Nat)) : Dev × List Byte × Option Nat :=
  let d := rs.foldl (fun d r => d.hbmRead src r.1 r.2) d
  (d, rs.flatMap fun r => d.mem.hbm.bytes r.1 r.2, rs.findSome? fun r => d.firstPoison r.1 r.2)

/-- Bytes written to places of a buffer at `base` of the Oasis of cluster `k`, a whole word at once where both its halves are
taken (R349). -/
def Dev.writeGrans (d : Dev) (k base : Nat) : List Nat → List Byte → Dev
  | [], _ => d
  | [g], bs => d.oasisPut k (base + 32 * g) (bs.take 32)
  | g :: h :: gs, bs =>
    if g % 2 = 0 && h = g + 1 then (d.oasisPut k (base + 32 * g) (bs.take 64)).writeGrans k base gs (bs.drop 64)
    else (d.oasisPut k (base + 32 * g) (bs.take 32)).writeGrans k base (h :: gs) (bs.drop 32)

/-- The playback port of the cluster has no older request than number `n` in flight (R23). -/
def Dev.portOldest (d : Dev) (c : Fin 32) (n : Nat) : Bool :=
  (List.finRange 32).all fun e => clu e ≠ clu c || (d.ch e).stage.all fun b => b.arrived || n ≤ b.seq

/-- STAGE_FILL_ARRIVE (R23, R166, R169, R179, R349): the oldest requested block of channel `c` arrives when no request of the
cluster's playback port goes before it. Its data land in the stage buffer and are read back for checking. -/
def Dev.stageFillArrive (d : Dev) (c : Fin 32) : Dev :=
  let x := d.ch c
  match x.stage.find? (!·.arrived) with
  | none => d
  | some b =>
    match x.fetches.find? (·.pid = b.pid) with
    | none => d
    | some f =>
      let pl := d.blockPlace c f b.idx
      if d.rangesHeld (pl.1 ++ pl.2) || !d.portOldest c b.seq then d
      else
        let (d, data, p1) := d.readRanges 0 pl.1
        let (d, trk, p2) := d.readRanges 0 pl.2
        let d := d.count64 (R.CL_PORT_BYTES (clu c) 0 0) b.bytes
        let d := d.writeGrans (clu c) (d.granBase c 0) b.grans (data ++ trk)
        let d := d.touchWords (clu c) (b.grans.map fun g => (d.granBase c g, 32))
        let d := d.modCh c fun x => { x with
          stage := x.stage.map fun y => if y.pid = b.pid && y.idx = b.idx then
            { y with arrived := true, poison := p1 <|> p2 } else y }
        d.panicCheck c

/-! ### Target heads -/

/-- Key of target entry `i` of channel `c`. -/
abbrev entryKey (c : Fin 32) (i : Fin 16) : Nat := 16 * c.val + i.val

/-- CODE, ABRT and REASON of a target entry written, and RELOAD cleared. -/
def Dev.tgtEnds (d : Dev) (c : Fin 32) (i : Fin 16) (code abrt reason : Nat) : Dev :=
  let k := clu c
  let j := sub c
  let d := (d.set (F.CL_TGT_STAT_CODE k j i) code).set (F.CL_TGT_STAT_ABRT k j i) abrt
  let d := (d.set (F.CL_TGT_STAT_REASON k j i) reason).set (F.CL_TGT_CFG_RELOAD k j i) 0
  if code = 4 || code = 6 then d.clCause c (F.CL_CH_IRQ_STATUS_TGT_FAIL k j) else d

/-- The slot of target entry `i` of channel `c` emptied. -/
def Dev.emptySlot (d : Dev) (c : Fin 32) (i : Fin 16) : Dev :=
  let d := { d with heads := d.heads.filter (·.1 ≠ entryKey c i) }
  (d.set (F.CL_TGT_STAT_RESIDENT (clu c) (sub c) i) 0).set (F.CL_TGT_STAT_PINNED (clu c) (sub c) i) 0

/-- A head load of entry `i` of channel `c` is running. -/
def Dev.loading (d : Dev) (c : Fin 32) (i : Fin 16) : Bool := d.hbm.loads.any (·.1 = entryKey c i)

/-- A head load starts (R170), or ends REJECTED with the head area disabled. RELOAD reads 1 while a load runs, whatever
started it (DEDUCED, log entry 31). -/
def Dev.startLoad (d : Dev) (c : Fin 32) (i : Fin 16) : Dev :=
  let k := clu c
  let j := sub c
  let d := (d.wakeCluster k).emptySlot c i
  if !d.flag (F.CL_STAGE_CTRL_HEAD_EN k j) then d.tgtEnds c i 6 0 3
  else
    let d := d.tgtEnds c i 1 0 0
    let d := d.set (F.CL_TGT_CFG_RELOAD k j i) 1
    { d with hbm := { d.hbm with loads := d.hbm.loads ++ [(entryKey c i, d.get (F.CL_TGT_CFG_INDEX k j i))] } }

/-- A head load requested: queued behind one of the same entry that runs (R58, R170). -/
def Dev.requestLoad (d : Dev) (c : Fin 32) (i : Fin 16) : Dev :=
  if d.loading c i then d.set (F.CL_TGT_CFG_PENDING (clu c) (sub c) i) 1 else d.startLoad c i

/-- A running or queued load of an entry dropped. -/
def Dev.dropLoad (d : Dev) (c : Fin 32) (i : Fin 16) : Dev :=
  { (d.set (F.CL_TGT_CFG_PENDING (clu c) (sub c) i) 0) with
    hbm := { d.hbm with loads := d.hbm.loads.filter (·.1 ≠ entryKey c i) } }

/-- RELOAD (R170): with EN reading 0 it ends REJECTED with REASON 0b100. -/
def Dev.reload (d : Dev) (c : Fin 32) (i : Fin 16) : Dev :=
  if d.flag (F.CL_TGT_CFG_EN (clu c) (sub c) i) then d.requestLoad c i
  else (d.emptySlot c i).tgtEnds c i 6 0 4

/-- TGT_CFG_WRITE (R170): EN and INDEX take their values; a load starts, is queued, or is aborted and the slot
emptied. A write that sets RELOAD too asks for one load. -/
def Dev.tgtCfgWrite (d : Dev) (c : Fin 32) (i : Fin 16) (be : BitVec 4) (v : W32) : Dev :=
  let k := clu c
  let j := sub c
  let d := d.wakeCluster k
  let a := R.CL_TGT_CFG k j i
  let old := d.rd a
  let new := (old &&& 0xFFFF8000) ||| (mergeBytes old be v &&& 0x7FFF)
  let again := be.getLsbD 1 && v.getLsbD 15
  let d := d.wr a new
  if !new.getLsbD 14 then
    let d := if d.loading c i then (d.dropLoad c i).tgtEnds c i 3 1 0 else d
    let d := d.emptySlot c i
    if again then d.reload c i else d
  else if !old.getLsbD 14 || bits old 13 0 ≠ bits new 13 0 || again then d.requestLoad c i
  else d

/-- The bytes of `n` blocks of a head as its slot holds them: the data and the track of each block in turn (R171; DESIGN CHOICE, log
entry 48). -/
def Dev.headBytes (d : Dev) (x : Desc) (n : Nat) : List Byte :=
  (List.range n).flatMap fun i =>
    d.mem.hbm.bytes (x.addr + i * x.blockBytes) x.blockBytes ++ if x.hasTrack then d.mem.hbm.bytes (x.track + i * 32) 32 else []

/-- Head slot `i` of channel `c` serves a play that has head blocks left to commit (R172). -/
def Dev.slotBusy (d : Dev) (c : Fin 32) (i : Nat) : Bool :=
  let x := d.ch c
  match x.cur.kind, x.nextS with
  | .seg p, some s => p.head.any (·.val = i) && (s - x.cur.first).toNat / d.blockTicks c < p.d.headN
  | _, _ => false

/-- The head slot of entry `i` of channel `c` holds descriptor `x`. -/
def Dev.slotHolds (d : Dev) (c : Fin 32) (i : Fin 16) (x : Desc) : Dev :=
  { d with heads := d.heads.filter (·.1 ≠ entryKey c i) ++ [(entryKey c i, x)] }

/-- The head of a streamed descriptor lands in its slot and is read back for checking (R170, R179, R349). -/
def Dev.loadHead (d : Dev) (c : Fin 32) (i : Fin 16) (x : Desc) : Dev :=
  let k := clu c
  let n := x.headN
  let r1 := d.readRanges 1 [(x.addr, n * x.blockBytes)]
  let r2 := r1.1.readRanges 1 (if x.hasTrack then [(x.track, n * 32)] else [])
  let d := r2.1.count64 (R.CL_PORT_BYTES k 1 0) (r1.2.1.length + r2.2.1.length)
  if (r1.2.2 <|> r2.2.2).isSome then d.tgtEnds c i 4 0 2
  else
    let place := [(d.slotBase c i, n * x.drawBytes)]
    let d := (d.oasisPut k (d.slotBase c i) (d.headBytes x n)).touchWords k place
    if (d.badWord k place).isSome then d.tgtEnds c i 4 0 2
    else ((d.tgtEnds c i 2 0 0).set (F.CL_TGT_STAT_RESIDENT k (sub c) i) 1).slotHolds c i x

/-- What a head load makes of the descriptor it read (R170, R171, R354). RESIDENT reads 1 for a pinned target too (DEDUCED, log
entry 31). A head area disabled meanwhile holds no head (log entry 48). -/
def Dev.loadOf (d : Dev) (c : Fin 32) (i : Fin 16) : Option Desc → Dev
  | none => d.tgtEnds c i 4 0 2
  | some x =>
    if (d.segCheck c x).isSome then d.tgtEnds c i 4 0 1
    else if !x.streamed then
      (((d.tgtEnds c i 2 0 0).set (F.CL_TGT_STAT_PINNED (clu c) (sub c) i) 1).set (F.CL_TGT_STAT_RESIDENT (clu c) (sub c) i) 1).slotHolds c i x
    else if !d.flag (F.CL_STAGE_CTRL_HEAD_EN (clu c) (sub c)) then d.tgtEnds c i 6 0 3
    else d.loadHead c i x

/-- The outcome of a head load of descriptor index `idx` (R170). -/
def Dev.loadOutcome (d : Dev) (c : Fin 32) (i : Fin 16) (idx : Nat) : Dev :=
  let d := d.touchDesc (clu c) idx
  d.loadOf c i (d.hintAt (clu c) idx)

/-- Channel and entry of a key. -/
abbrev keyCh (k : Nat) : Fin 32 := chanNo (k / 16)

/-- The fill port of cluster `k` serves the load of `key` next: head loads in the order of their requests (R23), but for those whose
slot still serves a play, which a load leaves alone until then (R163, R172; DESIGN CHOICE, log entry 48). -/
def Dev.loadNext (d : Dev) (k key : Nat) : Bool :=
  ((d.hbm.loads.filter fun p => p.1 / 64 = k).find? fun p => !d.slotBusy (keyCh p.1) (p.1 % 16)).any (·.1 = key)

/-- The blocks that a head load of descriptor index `idx` reads. -/
def Dev.headRanges (d : Dev) (c : Fin 32) (idx : Nat) : List (Nat × Nat) :=
  match d.hintAt (clu c) idx with
  | some x => if x.streamed && (d.segCheck c x).isNone then
      [(x.addr, x.headN * x.blockBytes)] ++ if x.hasTrack then [(x.track, x.headN * 32)] else [] else []
  | none => []

/-- HEAD_LOAD_END (R170, R171): the running load of entry `i` ends, and a queued one starts. -/
def Dev.headLoadEnd (d : Dev) (c : Fin 32) (i : Fin 16) : Dev :=
  match d.hbm.loads.find? (·.1 = entryKey c i) with
  | none => d
  | some (_, idx) =>
    if d.rangesHeld (d.headRanges c idx) || !d.loadNext (clu c) (entryKey c i) then d
    else
      let again := d.flag (F.CL_TGT_CFG_PENDING (clu c) (sub c) i)
      let d := (d.dropLoad c i).loadOutcome c i idx
      if again then d.startLoad c i else d

/-! ### CL.FILL -/

/-- A fill's completion record, interrupt cause and STATUS record (R59, R181, R288). -/
def Dev.fillRecord (d : Dev) (k : Fin 8) (code abrt reason : Nat) : Dev :=
  let d := ((d.set (F.CL_FILL_STATUS_CODE k) code).set (F.CL_FILL_STATUS_ABRT k) abrt).set (F.CL_FILL_STATUS_REASON k) reason
  let d := (d.set (F.CL_IRQ_STATUS_FILL k) 1).set (F.CL_FILL_CTRL_GO k) 0
  let d := { d with fills := d.fills.set k none }
  d.emitStatus 2 k.val [2, BitVec.ofNat 8 k.val, BitVec.ofNat 8 (code + 16 * abrt), BitVec.ofNat 8 reason]

/-- Why a copy is rejected (R181): where several hold, the lowest REASON that applies (DESIGN CHOICE, log entry 48: the spec gives no
order). -/
def Dev.fillReason (d : Dev) (k : Fin 8) (f : FillOp) : Option Nat :=
  if f.len = 0 || f.len % 64 ≠ 0 then some 1
  else if d.capacity < f.src + f.len then some 2
  else if 0x800000 < f.dst + f.len then some 3
  else if d.inArea k f.dst f.len then some 4
  else none

/-- A copy begins: SRC, DST and LEN are captured (R181). -/
def Dev.startFill (d : Dev) (k : Fin 8) : Dev :=
  let f : FillOp := ⟨(d.get64 (R.CL_FILL_SRC k 0)).toNat % 2 ^ 37 / 64 * 64, d.get (F.CL_FILL_DST_OFFSET k) / 64 * 64,
    d.get (F.CL_FILL_LEN_LEN k)⟩
  let d := d.wakeCluster k
  match d.fillReason k f with
  | some r => d.fillRecord k 6 0 r
  | none =>
    let d := ((d.set (F.CL_FILL_STATUS_CODE k) 1).set (F.CL_FILL_STATUS_ABRT k) 0).set (F.CL_FILL_STATUS_REASON k) 0
    { (d.set (F.CL_FILL_CTRL_GO k) 1) with fills := d.fills.set k (some f) }

/-- FILL_GO (R181): queued behind a running copy (R58). -/
def Dev.fillGo (d : Dev) (k : Fin 8) : Dev :=
  if d.fills[k].isSome then d.set (F.CL_FILL_CTRL_PENDING k) 1 else d.startFill k

/-- The first `n` units of a copy carried out in ascending order, up to the first poisoned one; the units read are counted
(R181). Answers whether every one of them was copied. -/
def Dev.copyUnits (d : Dev) (k : Fin 8) (f : FillOp) (n : Nat) : Dev × Bool :=
  (List.range n).foldl (fun (r : Dev × Bool) i =>
    if !r.2 then r
    else
      let u := f.src + 64 * i
      let d := (r.1.readUnit 1 u 64).count64 (R.CL_PORT_BYTES k 1 0) 64
      if d.poisoned u then (d, false)
      else (d.oasisPut k (f.dst + 64 * i) (d.mem.hbm.bytes u 64), true)) (d, true)

/-- FILL_END (R170, R181): the copy ends DONE or FAILED behind the head loads of its port, and a queued one starts. -/
def Dev.fillEnd (d : Dev) (k : Fin 8) : Dev :=
  match d.fills[k] with
  | none => d
  | some f =>
    if d.heldAt f.src f.len || d.hbm.loads.any (fun p => p.1 / 64 = k.val && !d.slotBusy (keyCh p.1) (p.1 % 16)) then d
    else
      let (d, ok) := d.copyUnits k f (f.len / 64)
      let d := if ok then d.fillRecord k 2 0 0 else d.fillRecord k 4 0 5
      if d.flag (F.CL_FILL_CTRL_PENDING k) then (d.set (F.CL_FILL_CTRL_PENDING k) 0).startFill k else d

/-- FILL_ABORT (R60, R181): a prefix of whole units is written, of a length the spec leaves open (a free value), and none of a copy
that began while a rate change held the memory (R334, R335); a queued copy is discarded. -/
def Dev.fillAbort (d : Dev) (k : Fin 8) : Dev :=
  match d.fills[k] with
  | none => (d.set (F.CL_FILL_STATUS_ABRT k) 2).set (F.CL_FILL_CTRL_PENDING k) 0
  | some f =>
    let n := if d.memHeld then 0 else Config.abortPrefix d.free % (f.len / 64)
    let d := ({ d with free := d.free + 1 }.copyUnits k f n).1
    (d.fillRecord k 3 1 0).set (F.CL_FILL_CTRL_PENDING k) 0

/-! ### Oasis -/

/-- OASIS_WRITE (R164, R350, R353, R359): a write of part of a word reads it. -/
def Dev.oasisWrite (d : Dev) (k : Fin 8) (off : Nat) (data : List Byte) : Dev :=
  if 0x800000 < off + data.length then d
  else
    let d := d.wakeCluster k
    if d.inArea k off data.length then d.set (F.CL_IRQ_STATUS_OASIS_DENIED k) 1
    else (((unitsOf 64 off data.length).filter fun u => u < off || off + data.length < u + 64).foldl
      (fun (d : Dev) u => d.touchOasis k u) d).oasisPut k off data

/-- A host write that reaches words of Oasis in the cycle of a port F whole-word write to each (R350). Port F is applied
first; COLLIDE counts each word that the host writes in part, or with other data. -/
def Dev.oasisCollide (d : Dev) (k : Fin 8) (off : Nat) (data : List Byte) : Dev :=
  if 0x800000 < off + data.length || d.inArea k off data.length then d
  else (unitsOf 64 off data.length).foldl (fun (d : Dev) u =>
    let whole := off ≤ u && u + 64 ≤ off + data.length
    if whole && d.mem.oasis.bytes (oasisAt k u) 64 = (data.drop (u - off)).take 64 then d
    else d.countSat (F.CL_OASIS_CNT_COUNT k 2)) d

end Sys2Proof.Machine
end

