-- ==== Sys2Proof/Machine/MemOps.lean ====
section
/-! DEFINITION. Waveform memory as the host and the background reach it: BAR4, fences, refresh, scrub, pin-rate changes,
training, the map, self-refresh (chapter 13). -/

namespace Sys2Proof.Machine

/-! ### BAR4 (R320, R321, R325) -/

/-- A BAR4 access beyond the usable capacity (R320). -/
def Dev.beyond (d : Dev) (a : Nat) : Dev := (d.memCapture 1 a 3).set F.MEM_IRQ_STATUS_BEYOND 1

/-- BAR4_WRITE (R24, R320, R321, R344): the bytes below the capacity are received, to be whole in HBM by a publication point; the
others are discarded. A request wakes its stack (R432). -/
def Dev.bar4Write (d : Dev) (a : Nat) (data : List Byte) : Dev :=
  if !d.bar4Reach a data.length then d
  else
    let cap := d.capacity
    let bs := data.take (cap - a)
    let d := if bs = [] then d
      else { d.rouse a bs.length with hbm := { d.hbm with posted := d.hbm.posted ++ [(a, bs)], received := d.hbm.received + 1 } }
    if cap < a + data.length then d.beyond (max a cap) else d

/-- The unit at `u` is written by one of the BAR4 writes `ws`. -/
def writtenBy (ws : List (Nat × List Byte)) (u : Nat) : Bool := ws.any fun w => w.1 < u + 64 && u < w.1 + w.2.length

/-- One unit read by the PCIe port: behind its own earlier writes `ws`, the read finds what they leave (R322). -/
def Dev.portRead (d : Dev) (ws : List (Nat × List Byte)) (u n : Nat) : Dev :=
  if writtenBy ws u then if d.fencedAt u then d else d.request u n 0 else d.readUnit 3 u n

/-- A BAR4 read behind the first `n` BAR4 writes completes (R320, R322, R324, R325, R344): bytes at or above the capacity read
0. -/
def Dev.bar4Serve (d : Dev) (a len n : Nat) : Dev :=
  let cap := d.capacity
  let m := min len (cap - a)
  let ws := d.hbm.posted.take (n - d.hbm.landed)
  let view := d.land n
  let d := (unitsOf 64 a m).foldl (fun (d : Dev) u => d.portRead ws u (inUnit a m u)) d
  let d := if cap < a + len then d.beyond (max a cap) else d
  { d with reply := ⟨view.hbmSeen a m ++ List.replicate (len - m) 0, (view.firstPoison a m).isSome⟩ }

/-- The bytes below the capacity of a BAR4 read wait (R335, R340). -/
def Dev.readHeld (d : Dev) (a len : Nat) : Bool := d.heldAt a (min len (d.capacity - a))

/-- A BAR4 read completes although a TRIP holds the stacks (R399, R438): with data that the spec does not state, of bytes below the
capacity, and a free poisoned mark. -/
def Dev.bar4Lost (d : Dev) (a len : Nat) : Dev :=
  let m := min len (d.capacity - a)
  let r := d.unstated (m + 1)
  { r.1 with reply := ⟨r.2.take m ++ List.replicate (len - m) 0, (byteAt r.2 m).getLsbD 0⟩ }

/-- BAR4_READ (R320, R325, R335, R340, R397): of at most 4,096 bytes; it waits where the memory is held, and behind an earlier one. -/
def Dev.bar4Read (d : Dev) (a len : Nat) : Dev :=
  if 4096 < len || !d.bar4Reach a len then d
  else if d.tripped then d.bar4Lost a len
  else if d.readHeld a len || !d.hbm.reads.isEmpty then
    { d with hbm := { d.hbm with reads := d.hbm.reads ++ [(a, len, d.hbm.received)] } }
  else d.bar4Serve a len d.hbm.received

/-- The BAR4 reads that have waited complete in their order, up to one that waits still. -/
def Dev.serveReads (d : Dev) : List (Nat × Nat × Nat) → Dev
  | [] => { d with hbm := { d.hbm with reads := [] } }
  | r :: rs =>
    if d.readHeld r.1 r.2.1 then { d with hbm := { d.hbm with reads := r :: rs } } else (d.bar4Serve r.1 r.2.1 r.2.2).serveReads rs

/-- FENCE (R58, R323): it takes in the BAR4 writes received so far. -/
def Dev.fence (d : Dev) : Dev :=
  if d.flag F.MEM_FENCE_GO then
    if d.flag F.MEM_FENCE_PENDING then d
    else { (d.set F.MEM_FENCE_PENDING 1) with hbm := { d.hbm with fences := d.hbm.fences ++ [d.hbm.received] } }
  else { ((d.set F.MEM_FENCE_GO 1).set F.MEM_FENCE_CODE 1) with hbm := { d.hbm with fences := [d.hbm.received] } }

/-- FENCE_DONE (R24, R323): the earlier BAR4 writes are whole; a fence completes after a stall. -/
def Dev.fenceDone (d : Dev) : Dev :=
  if !d.flag F.MEM_FENCE_GO || d.memHeld || d.tripped || d.writesHeld (d.hbm.fences.headD 0) then d
  else
    let again := d.flag F.MEM_FENCE_PENDING
    let d := d.land (d.hbm.fences.headD 0)
    let d := { d with hbm := { d.hbm with fences := d.hbm.fences.drop 1 } }
    let d := (d.set F.MEM_FENCE_CODE (if again then 1 else 2)).set F.MEM_FENCE_PENDING 0
    d.set F.MEM_FENCE_GO (bit again)

/-! ### Refresh and scrub -/

/-- The open page of a bank closed. -/
def Dev.closeBank (d : Dev) (p bank : Nat) : Dev :=
  { d with hbm := { d.hbm with pages := d.hbm.pages.filter (·.1 ≠ 32 * p + bank) } }

/-- REFRESH (R326): a bank with urgent requests waiting postpones its refresh until the allowance would be exceeded. -/
def Dev.refresh (d : Dev) (p : Fin 128) (bank : Fin 32) (waiting exceeded : Bool) : Dev :=
  let s := p.val / 32
  if d.stage < 4 || d.get (F.HBM_STATUS_POWER s) < 2 || d.memHeld then d
  else if !waiting then d.closeBank p bank
  else if exceeded then (d.closeBank p bank).countSat (F.HBM_REF_FORCED s)
  else d

/-- A pass of patrol scrub may begin: MEM.SCRUB.PERIOD hours after the last one did (R331). -/
def Dev.passDue (d : Dev) : Bool :=
  match d.hbm.passAt with
  | some t => t + 3600 * 400000000 * max 1 (d.get F.MEM_SCRUB_PERIOD) ≤ d.ev.elapsed
  | none => true

/-- The scrub port goes on past the unit at `u`; the last unit below the capacity completes a pass (R331). -/
def Dev.scrubOn (d : Dev) (u : Nat) : Dev :=
  let d := if u = 0 then { d with hbm := { d.hbm with passAt := some d.ev.elapsed } } else d
  let top := u + 64 = d.capacity
  let d := { d with hbm := { d.hbm with scrubAt := if top then 0 else u + 64 } }
  if top then d.countSat F.MEM_SCRUB_PASSES else d

/-- SCRUB_READ (R331, R332): patrol scrub reads the unit that holds an address, when it is the next of the pass, and writes back a
corrected one unless another source wrote it meanwhile. A pass takes the units in ascending order (DESIGN CHOICE, log entry
21). -/
def Dev.scrubRead (d : Dev) (a : Nat) (raced : Bool) : Dev :=
  let u := a / 64 * 64
  if !d.flag F.MEM_SCRUB_EN || d.capacity < u + 64 || d.heldAt u 64 || u ≠ d.hbm.scrubAt || (u = 0 && !d.passDue) then d
  else if d.fencedAt u then d.scrubOn u
  else
    let ce := d.mem.hbm.ce.contains u && !d.mem.hbm.bad u
    let d := d.readUnit 5 u 64
    let d := if ce && !raced then
        let d := d.request u 64 1
        { d with mem := { d.mem with hbm := { d.mem.hbm with ce := d.mem.hbm.ce.filter (· ≠ u) } } }
      else d
    d.scrubOn u

/-! ### The map -/

/-- Stacks with a mapped pseudo-channel. -/
def Dev.liveStacks (d : Dev) : List Nat := (List.range 4).filter d.stackMapped

/-- Stack `s` in self-refresh; its domains stop by a quiesce handshake (R333, R379). -/
def Dev.sleepStack (d : Dev) (s : Nat) : Dev :=
  let d := d.set (F.HBM_STATUS_POWER s) 1
  { d with hbm := { d.hbm with pages := d.hbm.pages.filter fun x => x.1 / 1024 ≠ s } }

/-- Pseudo-channels in a state. -/
def Dev.inPcState (d : Dev) (st : Nat) : List Nat := (List.range 128).filter fun p => d.pcState p = st

/-- MEM.HEALTH and the INDEX fields follow the states of the pseudo-channels (R317, R318). -/
def Dev.mapSync (d : Dev) : Dev :=
  let m := d.mapped
  let d := (List.range 128).foldl (fun d p => d.set (F.MEM_PC_STAT_INDEX p) (if d.pcState p = 3 then 0 else m.idxOf p)) d
  let d := (d.set F.MEM_HEALTH_MAPPED m.length).set F.MEM_HEALTH_RETIRED (d.inPcState 3).length
  (d.set F.MEM_HEALTH_FENCED (d.inPcState 2).length).set F.MEM_HEALTH_DEGRADED (d.inPcState 1).length

/-- A pseudo-channel takes a state while it stays in the map. -/
def Dev.setPcState (d : Dev) (p st : Nat) : Dev :=
  let d := d.set (F.MEM_PC_STAT_STATE p) st
  (d.set F.MEM_HEALTH_FENCED (d.inPcState 2).length).set F.MEM_HEALTH_DEGRADED (d.inPcState 1).length

/-- REMAP ends with a record. -/
def Dev.remapEnds (d : Dev) (code reason : Nat) : Dev :=
  let d := (d.set F.MEM_MAP_STATUS_CODE code).set F.MEM_MAP_STATUS_REASON reason
  (d.set F.MEM_IRQ_STATUS_REMAP 1).set F.MEM_MAP_CTRL_REMAP 0

/-- The map rebuilt over the GOOD and DEGRADED pseudo-channels (R342, R345): head slots empty, every unit zero, stacks out of the
map in self-refresh; patrol scrub starts over. Before Stage D there is no map (DESIGN CHOICE, log entry 29). -/
def Dev.remapNow (d : Dev) : Dev :=
  let d := (List.finRange 32).foldl (fun d c => (List.finRange 16).foldl (fun d i => d.emptySlot c i) d) d
  let d := (d.inPcState 2).foldl (fun d p => d.set (F.MEM_PC_STAT_STATE p) 3) d
  let d := { d with mem := { d.mem with hbm := Store.empty }
                    hbm := { d.hbm with pages := [], posted := [], scrubAt := 0 } }
  let d := (List.range 4).foldl (fun d s =>
    if !d.stackMapped s && d.get (F.HBM_STATUS_POWER s) ≠ 0 then d.sleepStack s else d) d
  (if d.stage < 4 then d else d.mapSync).remapEnds 2 0

/-- A training slice or a rate change runs (R341, R345). -/
def Dev.memBusy (d : Dev) : Bool := d.memHeld || d.hbm.slice.isSome

/-- A REMAP taken or REJECTED (R345); one taken while a slice or a rate change runs waits for its end. -/
def Dev.takeRemap (d : Dev) : Dev :=
  if !(List.finRange 32).all (fun c => (d.ch c).quiet) then d.remapEnds 6 1
  else if d.boundRings.any (fun q => d.ringState q ≠ 0) then d.remapEnds 6 2
  else if d.fills.toList.any (·.isSome) then d.remapEnds 6 3
  else if d.memBusy then (d.set F.MEM_MAP_CTRL_REMAP 1).set F.MEM_MAP_STATUS_CODE 1
  else d.remapNow

/-- REMAP (R58, R345): queued while one waits. -/
def Dev.remap (d : Dev) : Dev := if d.flag F.MEM_MAP_CTRL_REMAP then d.set F.MEM_MAP_CTRL_PENDING 1 else d.takeRemap

/-- A REMAP that waits for a slice or a rate change is carried out at its end, and a queued one taken (R58, R345). -/
def Dev.remapResume (d : Dev) : Dev :=
  if !d.flag F.MEM_MAP_CTRL_REMAP || d.memBusy then d
  else
    let d := d.remapNow
    if d.flag F.MEM_MAP_CTRL_PENDING then (d.set F.MEM_MAP_CTRL_PENDING 0).takeRemap else d

/-! ### Pin rate (R334 to R337) -/

/-- The rate in force. -/
def Dev.pinRate (d : Dev) : Nat := d.get F.MEM_FREQ_CTRL_RATE

/-- A queued action plays a streamed segment. -/
def Dev.playsStreamed (d : Dev) (c : Fin 32) (a : TAct) : Bool :=
  match a.act with
  | .play (.table i) _ => i.toNat < 16384 && (d.descAt (clu c) i.toNat).streamed
  | .play (.record x _) _ => x.streamed
  | _ => false

/-- Channel `c` has a streamed play queued or running. -/
def Dev.streaming (d : Dev) (c : Fin 32) : Bool :=
  let x := d.ch c
  x.fetches.any (·.d.streamed) || x.queue.any (d.playsStreamed c) ||
  match x.cur.kind with
  | .seg p => p.d.streamed && before d.ev.dt x.cur.stop && x.active?
  | _ => false

/-- The IDLE point of MEM.FREQ_CTRL.RATE (R334). -/
def Dev.freqIdle (d : Dev) : Bool :=
  (List.finRange 32).all (fun c => !d.streaming c) && d.hbm.loads.isEmpty && !d.fills.toList.any (·.isSome)

/-- MEM.FREQ_STATUS.SETS follows the trained sets (R336). -/
def Dev.setsSync (d : Dev) : Dev := d.set F.MEM_FREQ_STATUS_SETS (d.hbm.trained.filter (· ≠ d.pinRate)).length

/-- The temperature of a stack. -/
def Dev.stackTemp (d : Dev) (s : Nat) : BitVec 8 := BitVec.ofNat 8 (d.get (F.HBM_STATUS_TEMP s))

/-- The temperature at which set `rate` of pseudo-channel `p` was trained. -/
def Dev.trainedTemp (d : Dev) (rate p : Nat) : Option (BitVec 8) :=
  (d.hbm.trainedAt.find? fun x => x.1 = 128 * rate + p).map (·.2)

/-- The stack of `p` has moved more than MEM.RETRAIN_CFG.DELTA since `p` was trained in the set in force. -/
def Dev.drifted (d : Dev) (p : Nat) : Bool :=
  match d.trainedTemp d.pinRate p with
  | some t => max 1 (d.get F.MEM_RETRAIN_CFG_DELTA) < (t.toInt - (d.stackTemp (p / 32)).toInt).natAbs
  | none => false

/-- Pseudo-channels made due for retraining (R340): GOOD and DEGRADED ones, kept in ascending order. -/
def Dev.makeDue (d : Dev) (ps : List Nat) : Dev :=
  let due := (List.range 128).filter fun p => d.pcState p < 2 && (d.hbm.due.contains p || ps.contains p)
  { d with hbm := { d.hbm with due := due } }

/-- Longest eye of a set, in units of 2 ps: one unit interval (R339). -/
def eyeMax (rate : Nat) : Nat := match rate with | 0 => 78 | 1 => 104 | _ => 156

/-- HBM.EYE and EYE_MIN of pseudo-channel `p` show the last training of the set in force (R339). -/
def Dev.showEyes (d : Dev) (p : Nat) : Dev :=
  match d.hbm.eyes.find? (·.1 = 128 * d.pinRate + p) with
  | none => d
  | some (_, es) =>
    let e (i : Nat) : Nat := es.getD i 0
    let d := (List.range 8).foldl (fun d w => d.wr (R.HBM_EYE (p / 32) (p % 32) w)
      (BitVec.ofNat 32 (e (4 * w) + 256 * e (4 * w + 1) + 65536 * e (4 * w + 2) + 16777216 * e (4 * w + 3)))) d
    d.set (F.MEM_PC_STAT_EYE_MIN p) (es.foldl min 255)

/-- What has waited for the memory resumes: reads of the host and of Caravan, a REMAP (R279, R335, R340, R345). -/
def Dev.memServes (d : Dev) : Dev :=
  let d := d.serveReads d.hbm.reads
  (d.readAgain d.rings.again).remapResume

/-- A rate change ends (R335, R337): the memory serves again, and what waited resumes. -/
def Dev.changeEnds (d : Dev) (code reason : Nat) : Dev :=
  let d := { d with hbm := { d.hbm with newRate := none, changeEnd := none } }
  let d := d.liveStacks.foldl (fun d s => d.stackUp s) d
  (((d.set F.MEM_FREQ_STATUS_CODE code).set F.MEM_FREQ_STATUS_REASON reason).set F.MEM_IRQ_STATUS_FREQ 1).memServes

/-- The new rate comes into force (R30, R335, R336). -/
def Dev.takeRate (d : Dev) (v : Nat) : Dev :=
  let d := (List.range 4).foldl (fun d s => d.set (F.HBM_STATUS_SET s) v) (d.set F.MEM_FREQ_CTRL_RATE v)
  let d := { d with hbm := { d.hbm with training := none, slices := 0 } }.setsSync.profileSync
  let d := d.mapped.foldl (fun d p => d.showEyes p) d
  (d.makeDue ((List.range 128).filter d.drifted)).changeEnds 2 0

/-- A rate change begins (R335): every pseudo-channel is held. Its stall is a free value within the bound when its PLLs relock. -/
def Dev.startChange (d : Dev) (v : Nat) (relocked : Bool) : Dev :=
  let d := (d.liveStacks.foldl (fun d s => d.set (F.HBM_STATUS_POWER s) 3) d).set F.MEM_FREQ_STATUS_CODE 1
  let e := d.ev.elapsed
  { d with free := d.free + 1
           hbm := { d.hbm with newRate := some v, pages := [], changeAt := e
                               changeEnd := if relocked then some (e + 1 + Config.changeTicks d.free % 4800) else none } }

/-- FREQ_CHANGE (R334 to R336, R341): the pending pin rate reaches its IDLE point; `relocked` tells whether the PLLs relock
within 20 µs. During a slice the change is deferred to its end. -/
def Dev.freqChange (d : Dev) (relocked : Bool) : Dev :=
  match d.pendingOf F.MEM_FREQ_CTRL_RATE with
  | none => d
  | some (v, acc) =>
    if !d.freqIdle || d.memHeld || d.hbm.deferred.isSome || d.tripped || d.ev.elapsed < acc + 2 then d
    else
      let d := d.dropPending F.MEM_FREQ_CTRL_RATE
      if v = d.pinRate then (d.set F.MEM_FREQ_STATUS_CODE 2).set F.MEM_FREQ_STATUS_REASON 0
      else if !d.hbm.trained.contains v then
        ((d.set F.MEM_FREQ_STATUS_CODE 6).set F.MEM_FREQ_STATUS_REASON 1).set F.MEM_IRQ_STATUS_FREQ 1
      else if d.hbm.slice.isSome then
        let d := (d.set F.MEM_FREQ_STATUS_CODE 1).set F.MEM_FREQ_STATUS_DEFERRED 1
        { d with hbm := { d.hbm with deferred := some (v, relocked) } }
      else d.startChange v relocked

/-- A rate change whose PLLs have relocked ends with its stall (R335); after a TRIP it stands still (R438). -/
def Dev.freqTick (d : Dev) : Dev :=
  if d.tripped then d else match d.hbm.newRate, d.hbm.changeEnd with
  | some v, some t => if t ≤ d.ev.elapsed then d.takeRate v else d
  | _, _ => d

/-- FREQ_RELOCK_TIMEOUT (R337): 20 µs after its start the old set is restored. -/
def Dev.freqRelockTimeout (d : Dev) : Dev :=
  if d.memHeld && d.hbm.changeEnd.isNone && d.hbm.changeAt + 8000 ≤ d.ev.elapsed then d.changeEnds 4 2 else d

/-! ### Training (R338 to R343) -/

/-- Set `rate` of pseudo-channel `p` takes the results of a training at the present stack temperature: free eye widths of the 32
lanes, each within one unit interval (R336, R339). -/
def Dev.trainedNow (d : Dev) (rate p : Nat) : Dev :=
  let k := 128 * rate + p
  let es := (List.range 32).map fun i => (Config.unstatedByte (d.free + i)).toNat % (eyeMax rate + 1)
  let d := { d with free := d.free + 32
                    hbm := { d.hbm with trainedAt := (k, d.stackTemp (p / 32)) :: d.hbm.trainedAt.filter (·.1 ≠ k)
                                        eyes := (k, es) :: d.hbm.eyes.filter (·.1 ≠ k) } }
  d.showEyes p

/-- A RETRAIN command ends: a queued one starts with its next slices (R58). -/
def Dev.retrainEnds (d : Dev) (code : Nat) : Dev :=
  let d := (d.set F.MEM_TRAIN_STATUS_CODE code).set F.MEM_IRQ_STATUS_TRAIN 1
  (d.set F.MEM_TRAIN_CMD_RETRAIN 0).set F.MEM_TRAIN_STATUS_BUSY 0

/-- RETRAIN taken (R340): P, or every mapped pseudo-channel with ALL; FENCED ones are left out (R344). -/
def Dev.startRetrain (d : Dev) : Dev :=
  let p := d.get F.MEM_TRAIN_CMD_P
  let all := d.flag F.MEM_TRAIN_CMD_ALL
  if !all && d.pcState p = 3 then d.retrainEnds 6
  else
    let ps := (if all then d.mapped else [p]).filter fun p => d.pcState p < 2
    if ps.isEmpty then d.retrainEnds 2
    else
      let d := (d.set F.MEM_TRAIN_CMD_RETRAIN 1).set F.MEM_TRAIN_STATUS_CODE 1
      { d with hbm := { d.hbm with named := ps, namedBad := false } }.makeDue ps

/-- RETRAIN (R58, R340). -/
def Dev.retrain (d : Dev) : Dev :=
  if d.flag F.MEM_TRAIN_CMD_RETRAIN then d.set F.MEM_TRAIN_CMD_PENDING 1 else d.startRetrain

/-- The next set and pseudo-channel of the background training that follows Stage D (R338). -/
def Dev.nextTraining (d : Dev) : Option (Nat × Nat) :=
  ([0, 1, 2].filter fun r => r ≠ d.pinRate && !d.hbm.trained.contains r).findSome? fun r =>
    ((List.range 128).find? fun p => d.pcState p < 2 && (d.trainedTemp r p).isNone).map fun p => (r, p)

/-- A background training of pseudo-channel `p` in set `r` has passed (R338). -/
def Dev.setTrained (d : Dev) (r p : Nat) : Dev :=
  let d := d.trainedNow r p
  if (List.range 128).all (fun q => 2 ≤ d.pcState q || (d.trainedTemp r q).isSome) then
    { d with hbm := { d.hbm with trained := d.hbm.trained ++ [r] } }.setsSync
  else d

/-- Pseudo-channels `ps` of a RETRAIN command have no retrain to come: the command ends with the last (R340). -/
def Dev.namedEnd (d : Dev) (ps : List Nat) (bad : Bool) : Dev :=
  let hit := d.hbm.named.any ps.contains
  let d := { d with hbm := { d.hbm with named := d.hbm.named.filter (!ps.contains ·), namedBad := d.hbm.namedBad || (hit && bad) } }
  if hit && d.hbm.named.isEmpty then
    let d := d.retrainEnds (if d.hbm.namedBad then 4 else 2)
    if d.flag F.MEM_TRAIN_CMD_PENDING then (d.set F.MEM_TRAIN_CMD_PENDING 0).startRetrain else d
  else d

/-- A retrain of `p` has ended (R340). -/
def Dev.retrained (d : Dev) (p : Nat) (bad : Bool) : Dev :=
  let d := (d.countSat (F.MEM_PC_STAT_RETRAINS p)).set F.MEM_TRAIN_STATUS_BUSY 0
  { d with hbm := { d.hbm with due := d.hbm.due.filter (· ≠ p) } }.namedEnd [p] bad

/-- No slice runs any more: a deferred rate change begins, or what waited resumes (R341,
R345). -/
def Dev.afterSlice (d : Dev) : Dev :=
  match d.hbm.deferred with
  | some (v, relocked) =>
    ({ (d.set F.MEM_FREQ_STATUS_DEFERRED 0) with hbm := { d.hbm with deferred := none } }).startChange v relocked
  | none => d.memServes

/-- The slice in progress no longer holds its stack, that of pseudo-channel `p`. -/
def Dev.letGo (d : Dev) (p : Nat) : Dev :=
  let d := d.setIf (d.get (F.HBM_STATUS_POWER (p / 32)) = 3) (F.HBM_STATUS_POWER (p / 32)) 2
  { d with hbm := { d.hbm with slice := none } }

/-- The pseudo-channels of stack `s` become FENCED with the loss of its source (R374): a training of one of them ends, with the slice
that runs, and no retrain of theirs is to come. -/
def Dev.fenceStack (d : Dev) (s : Nat) : Dev :=
  let ps := (List.range 32).map fun i => 32 * s + i
  let d := ps.foldl (fun d p => if d.pcState p < 2 then d.setPcState p 2 else d) d
  let d := (d.set F.MEM_IRQ_STATUS_FENCED 1).makeDue []
  match d.hbm.training with
  | some (_, p) =>
    if ps.contains p then
      let cut := d.hbm.slice.isSome
      let d := if cut then d.letGo p else d
      let d := ({ (d.set F.MEM_TRAIN_STATUS_BUSY 0) with hbm := { d.hbm with training := none, slices := 0 } } : Dev).namedEnd ps true
      if cut then d.afterSlice else d
    else d.namedEnd ps true
  | none => d.namedEnd ps true

/-- A slice may start now (R340, R341, R391). -/
def Dev.sliceReady (d : Dev) : Bool :=
  4 ≤ d.stage && !d.memBusy && !d.tripped && d.flag F.MGMT_STATUS_READY &&
  match d.hbm.lastSlice with
  | some t => t + 4000 * max 2 (d.get F.MEM_RETRAIN_CFG_GAP) ≤ d.ev.elapsed
  | none => true

/-- Set and pseudo-channel of the next slice: of the training in progress, else of the lowest pseudo-channel due, else of the
background training of a set (R338, R340). -/
def Dev.nextSlice (d : Dev) : Option (Nat × Nat) :=
  match d.hbm.training, d.hbm.due with
  | some t, _ => some t
  | none, q :: _ => some (d.pinRate, q)
  | none, [] => d.nextTraining

/-- A slice begins (R340): its stack wakes, its pseudo-channel is held, and the next slice keeps its distance. Its length is a free
value within the bound. -/
def Dev.startSlice (d : Dev) (rate p : Nat) (r : SliceResult) : Dev :=
  let d := ((d.wakeStack (p / 32)).set (F.HBM_STATUS_POWER (p / 32)) 3).set F.MEM_TRAIN_STATUS_CUR p
  let d := d.setIf (rate = d.pinRate) F.MEM_TRAIN_STATUS_BUSY 1
  let e := d.ev.elapsed
  { d with free := d.free + 1
           hbm := { d.hbm with training := some (rate, p), slices := d.hbm.slices + 1, lastSlice := some e
                               slice := some (r, e + 1 + Config.sliceTicks d.free % 3200) } }

/-- RETRAIN_SLICE (R338 to R341): one slice of the next training; at most 16 make one. -/
def Dev.retrainSlice (d : Dev) (p : Fin 128) (r : SliceResult) : Dev :=
  match d.nextSlice with
  | none => d
  | some (rate, q) =>
    if !d.sliceReady || q ≠ p.val || (r = .more && 15 ≤ d.hbm.slices) then d else d.startSlice rate p r

/-- What a slice of pseudo-channel `p` in set `rate` found (R338, R340, R343). -/
def Dev.sliceFound (d : Dev) (rate p : Nat) (r : SliceResult) : Dev :=
  if r = .more then d
  else
    let d := { d with hbm := { d.hbm with training := none, slices := 0 } }
    if rate ≠ d.pinRate then if r = .passed then d.setTrained rate p else d
    else match r with
      | .more => d
      | .passed => ((d.trainedNow rate p).setPcState p 0).retrained p false
      | .comparePasses => ((d.setPcState p 1).set F.MEM_IRQ_STATUS_DEGRADED 1).retrained p true
      | .compareFails => ((d.setPcState p 2).set F.MEM_IRQ_STATUS_FENCED 1).retrained p true

/-- A slice ends with what it found (R340, R341, R345). -/
def Dev.sliceEnds (d : Dev) (rate p : Nat) (r : SliceResult) : Dev := ((d.letGo p).sliceFound rate p r).afterSlice

/-- The slice in progress at a tick boundary; after a TRIP it stands still (R438). -/
def Dev.sliceTick (d : Dev) : Dev :=
  if d.tripped then d else match d.hbm.slice, d.hbm.training with
  | some (r, t), some (rate, p) => if t ≤ d.ev.elapsed then d.sliceEnds rate p r else d
  | _, _ => d

/-! ### Self-refresh (R432, R433) -/

/-- A request waits for stack `s`: a BAR4 write not yet whole, or a BAR4 read (R433). -/
def Dev.stackAsked (d : Dev) (s : Nat) : Bool :=
  let on (a n : Nat) : Bool := (unitsOf 256 a n).any fun u => d.pcOf u / 32 = s
  d.hbm.posted.any (fun w => on w.1 w.2.length) || d.hbm.reads.any (fun r => on r.1 r.2.1)

/-- A condition of R433 keeps every stack awake. -/
def Dev.stacksKept (d : Dev) : Bool :=
  (List.finRange 32).any (fun c => (d.ch c).active? && (d.flag (F.CL_STAGE_CTRL_EN (clu c) (sub c)) ||
    d.boundRings.any fun q => d.ringState q = 1 && kindH2d (d.ringKind q) && d.owner q = c)) ||
  !d.hbm.loads.isEmpty || d.fills.toList.any (·.isSome)

/-- SELF_REFRESH_ENTRY (R66, R433): a snapshot that waits keeps the stacks awake. -/
def Dev.selfRefreshEntry (d : Dev) (s : Fin 4) : Dev :=
  let idle := 4000 * max 1 (d.get F.TELEM_PWR_CTRL_HBM_IDLE)
  if d.get (F.HBM_STATUS_POWER s) = 2 && d.flag F.TELEM_PWR_CTRL_HBM_SLEEP && !d.stacksKept && !d.stackAsked s && !d.memHeld && !d.snapWaits &&
     d.hbm.lastReq[s] + idle ≤ d.ev.elapsed then d.sleepStack s
  else d

/-- STACK_WAKE (R342, R432): a stack with mapped pseudo-channels leaves self-refresh. -/
def Dev.stackWake (d : Dev) (s : Fin 4) : Dev := d.wakeStack s

end Sys2Proof.Machine
end

