-- ==== Sys2Proof/Machine/ClockOps.lean ====
section
/-! DEFINITION. Sources, the sample PLL, resynchronisation, coast, stopped sources, gating (chapter 15). -/

namespace Sys2Proof.Machine

/-- The clocks changed. -/
def Dev.modClk (d : Dev) (f : Clk → Clk) : Dev := { d with clk := f d.clk }

/-- CLK.SPLL_STATUS.STATE: 0 OFF, 1 ACQUIRE, 2 LOCKED, 3 SLEW, 4 COAST, 5 WAIT_SYNC, 6 STOPPED. -/
def Dev.pll (d : Dev) : Nat := d.get F.CLK_SPLL_STATUS_STATE

/-- The state of the sample PLL written; CLK.FERR reads 0 outside coast (R371). -/
def Dev.setPll (d : Dev) (v : Nat) : Dev := (d.setIf (v ≠ 4) F.CLK_FERR_ERR 0).set F.CLK_SPLL_STATUS_STATE v

/-- Milliseconds in tick boundaries. -/
def millis (n : Nat) : Nat := n * 400000

/-- Source `i` of R374 does not run. -/
def Dev.sourceDown (d : Dev) (i : Nat) : Bool := d.clk.down.getLsbD i

/-- Source `i` of R374 has stopped and no RESTART has relocked it (R375). -/
def Dev.sourceStopped (d : Dev) (i : Nat) : Bool := d.clk.stopped.getLsbD i

/-- A loss recorded (R374). A source other than REFIN stays stopped until RESTART (R375). -/
def Dev.recordLoss (d : Dev) (i : Nat) : Dev :=
  let d := ((d.set ⟨R.CLK_LOSS, i, 1⟩ 1).set ⟨R.CLK_LOSS, 16 + i, 1⟩ 0).set F.CLK_IRQ_STATUS_LOSS 1
  d.modClk fun k => { k with down := k.down ||| BitVec.twoPow 10 i
                             stopped := if i = 9 then k.stopped else k.stopped ||| BitVec.twoPow 10 i }

/-- A recorded source runs again (R375). -/
def Dev.recordBack (d : Dev) (i : Nat) : Dev :=
  let d := d.setIf (d.flag ⟨R.CLK_LOSS, i, 1⟩) ⟨R.CLK_LOSS, 16 + i, 1⟩ 1
  d.modClk fun k => { k with down := k.down &&& ~~~BitVec.twoPow 10 i }

/-- The link PLL stops: both ports go down, cause lane lock (R374). -/
def Dev.linkPllDown (d : Dev) : Dev :=
  let d := if d.flag F.CLK_PLL_STATUS_LINK_LOCK then d.recordLoss 8 else d
  ((d.set F.CLK_PLL_STATUS_LINK_LOCK 0).portDown .e 1).portDown .w 1

/-! ### Bypass and return (R366 to R368) -/

/-- DT holds (R247). -/
def Dev.holdDt (d : Dev) : Dev :=
  if d.ev.counting then { d with ev := { d.ev with counting := false, heldSince := d.ev.elapsed } } else d

/-- The sample-derived domains move to bypass: outputs muted, converters stopped, the link PLL without reference (R366,
R367). -/
def Dev.toBypass (d : Dev) (st : Nat) : Dev :=
  let d := (((d.setPll st).set F.CLK_SPLL_STATUS_MUTED 1).set F.CLK_SPLL_STATUS_BYPASS 1).set F.CLK_SYNC_STATUS_WAITING 0
  let d := (List.range 8).foldl (fun d i => d.setRuns (15 + i) false) d.holdDt
  (d.modClk fun k => { k with beyond := false, pulling := false, firstTick := none }).formWatch.linkPllDown

/-- An APPLY ends (R364). -/
def Dev.applyEnds (d : Dev) (code reason : Nat) : Dev :=
  let d := (d.set F.CLK_SPLL_STATUS_CODE code).set F.CLK_SPLL_STATUS_REASON reason
  let d := (d.set F.CLK_SPLL_CTRL_APPLY 0).set F.CLK_IRQ_STATUS_APPLY 1
  d.modClk fun k => { k with apply := none }

/-- The staged PRE and multiplier satisfy R363 with the REFIN of the last measurement. -/
def Dev.spllInRange (d : Dev) : Bool :=
  let pre := d.get F.CLK_SPLL_CFG_PRE_M1 + 1
  let n := d.get F.CLK_SPLL_CFG_N
  let m := n * 2 ^ 32 + d.get F.CLK_SPLL_FRAC_F
  let khz := d.get F.CLK_REFIN_FREQ_KHZ
  let vco := khz * m
  let want := 12800000 * pre * 2 ^ 32
  let tol := 2560 * pre * 2 ^ 32
  10000 * pre ≤ khz && khz ≤ 100000 * pre && 128 ≤ n && n ≤ 1280 &&
  decide (vco ≤ want + tol) && decide (want ≤ vco + tol)

/-- APPLY taken (R364). With no valid measurement of REFIN a coast is looked at first, and else the values count as out of
range (log entry 26). -/
def Dev.startApply (d : Dev) : Dev :=
  let pre := d.get F.CLK_SPLL_CFG_PRE_M1 + 1
  let m := d.get F.CLK_SPLL_CFG_N * 2 ^ 32 + d.get F.CLK_SPLL_FRAC_F
  let dist := max (m - d.clk.lockMult) (d.clk.lockMult - m)
  let run (d : Dev) (relock : Bool) : Dev :=
    let d := (d.set F.CLK_SPLL_CTRL_APPLY 1).set F.CLK_SPLL_STATUS_CODE 1
    (d.set F.CLK_SPLL_STATUS_REASON 0).modClk fun k => { k with apply := some (relock, m, d.ev.elapsed) }
  if d.flag F.CLK_REFIN_FREQ_VALID && !d.spllInRange then d.applyEnds 6 1
  else if d.pll = 4 then d.applyEnds 6 2
  else if !d.flag F.CLK_REFIN_FREQ_VALID then d.applyEnds 6 1
  else if d.pll = 2 && pre = d.clk.lockPre && dist * 1000000 ≤ 50 * d.clk.lockMult then (run d false).setPll 3
  else if !(List.finRange 32).all (fun c => (d.ch c).st = .idle) || d.linkState ≠ 0 then d.applyEnds 6 3
  else ((run d true).toBypass 1).set F.CLK_SPLL_STATUS_WINS 0 |>.modClk fun k => { k with pre := pre, mult := m }

/-- SPLL_APPLY (R58, R364). -/
def Dev.spllApply (d : Dev) : Dev :=
  if d.flag F.CLK_SPLL_CTRL_APPLY then d.set F.CLK_SPLL_CTRL_PENDING 1 else d.startApply

/-- A queued APPLY starts when the running one has ended (R58). -/
def Dev.nextApply (d : Dev) : Dev :=
  if d.flag F.CLK_SPLL_CTRL_PENDING && !d.flag F.CLK_SPLL_CTRL_APPLY then (d.set F.CLK_SPLL_CTRL_PENDING 0).startApply else d

/-- SLEW_END (R364): the loop has reached the new multiplier. -/
def Dev.slewEnd (d : Dev) : Dev :=
  match d.clk.apply with
  | some (false, m, _) =>
    if d.pll = 3 then (((d.setPll 2).modClk fun k => { k with mult := m }).applyEnds 2 0).nextApply else d
  | _ => d

/-- APPLY_LOCK_TIMEOUT (R364): no lock 100 ms after a relocking APPLY began, whatever keeps the loop from it. -/
def Dev.applyLockTimeout (d : Dev) : Dev :=
  match d.clk.apply with
  | some (true, _, t) => if d.pll ≠ 5 && t + millis 100 ≤ d.ev.elapsed then (d.applyEnds 4 4).nextApply else d
  | _ => d

/-! ### Lock and resynchronisation -/

/-- A lock window passes: its count is within 4 of 2^15 × M (R365). -/
def windowPasses (mult count : Nat) : Bool :=
  decide (count * 2 ^ 17 ≤ mult + 4 * 2 ^ 17) && decide (mult ≤ (count + 4) * 2 ^ 17)

/-- Lock declared (R365, R368): the dividers wait for a SYNC edge. -/
def Dev.lockDeclared (d : Dev) : Dev :=
  let d := ((d.setPll 5).set F.CLK_IRQ_STATUS_LOCK 1).set F.CLK_SYNC_STATUS_WAITING 1
  d.modClk fun k => { k with lockPre := k.pre, lockMult := k.mult, waitAt := d.ev.elapsed, firstTick := none }

/-- LOCK_WINDOW (R365, R372): a window ends with a count of sample-clock cycles. -/
def Dev.lockWindow (d : Dev) (count : Nat) : Dev :=
  if d.sourceDown 9 then d
  else
    let ok := windowPasses d.clk.mult count
    let wins := if ok then min 8 (d.get F.CLK_SPLL_STATUS_WINS + 1) else 0
    match d.pll with
    | 1 =>
      let d := d.set F.CLK_SPLL_STATUS_WINS wins
      if wins = 8 then d.lockDeclared else d
    | 2 => (d.set F.CLK_SPLL_STATUS_WINS wins).setIf (!ok) F.CLK_IRQ_STATUS_WIN_FAIL 1
    | 3 => d.set F.CLK_SPLL_STATUS_WINS wins
    | 4 =>
      if d.clk.beyond || d.bypassed then d
      else
        let d := d.set F.CLK_SPLL_STATUS_WINS wins
        let d := d.modClk fun k => { k with pulling := k.pulling || ok }
        if wins = 8 then (d.setPll 2).modClk fun k => { k with pulling := false } else d
    | _ => d

/-- The first tick boundary after a release: the clocks return to the sample PLL, DT counts, and the APPLY that relocked ends
(R245, R247, R364, R368). A link PLL that has stopped waits for RESTART (R375). -/
def Dev.clocksReturn (d : Dev) : Dev :=
  let d := ((d.setPll 2).set F.CLK_SPLL_STATUS_MUTED 0).set F.CLK_SPLL_STATUS_BYPASS 0
  let d := (d.set F.CLK_SYNC_STATUS_WAITING 0).modClk fun k => { k with firstTick := none }
  let d := if d.tripped then d else (List.range 16).foldl (fun d i => d.setRuns (7 + i) true) d
  let d := if d.sourceDown 8 then d.recordBack 8 else d.setIf (!d.sourceStopped 8) F.CLK_PLL_STATUS_LINK_LOCK 1
  let d := { d with ev := { d.ev with counting := true, started := true } }
  match d.clk.apply with
  | some (true, _, _) => (d.applyEnds 2 0).nextApply
  | _ => d

/-- The held dividers released (R368): the first tick boundary falls 256 + DLY sample periods later, counted in whole tick
boundaries of the bypass clock (log entry 26). -/
def Dev.release (d : Dev) : Dev :=
  let wait := (256 + d.get F.CLK_SYNC_CFG_DLY + 15) / 16
  (d.set F.CLK_SYNC_STATUS_WAITING 0).modClk fun k => { k with firstTick := some (d.ev.elapsed + wait) }

/-- The first tick boundary after a release has come (R368). -/
def Dev.boundaryReached (d : Dev) : Bool := d.pll = 5 && match d.clk.firstTick with | some t => t ≤ d.ev.elapsed | none => false

/-- DT starts at the first tick boundary after the first release since power-on (R245). -/
def Dev.firstStart (d : Dev) : Dev := if d.boundaryReached && !d.ev.started then d.clocksReturn else d

/-- The array is in phase ALIGN of its forming, and the SYNC edge that it waits for has not come (R307, R369). -/
def Dev.aligning (d : Dev) : Bool := d.linkState = 1 && d.phaseNow = 3 && !d.link.aligned

/-- The edge on SYNCIN in phase ALIGN releases the dividers once more (R307, R369). -/
def Dev.alignEdge (d : Dev) : Dev := { d.release with link := { d.link with aligned := true } }

/-- SYNC_EDGE (R368, R369): an edge on SYNCIN (`pin`), or the internal edge. Before Stage A the pin is high impedance (R386). -/
def Dev.syncEdge (d : Dev) (pin : Bool) : Dev :=
  if pin && d.stage = 0 then d
  else if pin && d.aligning then d.alignEdge
  else if d.pll = 5 && d.clk.firstTick.isNone && pin = (d.get F.CLK_SYNC_CFG_SRC = 1) then d.release
  else if pin then d.countSat F.CLK_SYNC_STATUS_SEEN
  else d

/-- The first tick boundary after the edge of phase ALIGN: the worker measures the round trip to its upstream neighbour (R307). -/
def Dev.alignTick (d : Dev) : Dev :=
  if d.pll ≠ 5 && d.clk.firstTick.any fun t => t ≤ d.ev.elapsed then
    let d := d.modClk fun k => { k with firstTick := none }
    if d.linkState = 1 && d.phaseNow = 3 && !d.manager then d.sendNeighbour .w 3 0 true else d
  else d

/-- SYNC_TIMEOUT (R369): no SYNCIN edge within SYNC_TMO. -/
def Dev.syncTimeout (d : Dev) : Dev :=
  let tmo := 40000 * max 1 (d.get F.CLK_SYNC_CFG_SYNC_TMO)
  if d.pll = 5 && d.clk.firstTick.isNone && d.get F.CLK_SYNC_CFG_SRC = 1 && d.clk.waitAt + tmo ≤ d.ev.elapsed then
    (d.set F.CLK_SYNC_STATUS_FALLBACK 1).release
  else d

/-- DT_RESUME (R247, R368): DT resumes from its held value at the first tick boundary after the release; DT_GAP takes the
interval in units of 16 ticks. -/
def Dev.dtResume (d : Dev) : Dev :=
  if d.boundaryReached && d.ev.started then
    let gap := min 0xFFFFFFFF ((d.ev.elapsed - d.ev.heldSince) / 16)
    ((d.wr R.EVT_DT_GAP (BitVec.ofNat 32 gap)).set F.EVT_IRQ_STATUS_DT_RESUMED 1).clocksReturn
  else d

/-- A SYNCOUT pulse begins at the next tick boundary (R369). -/
def Dev.startPulse (d : Dev) : Dev :=
  if d.get F.CLK_SYNC_CFG_OUT = 2 && !d.flag F.CLK_SPLL_STATUS_MUTED then
    (d.set F.CLK_SYNC_CFG_EMIT 1).modClk fun k => { k with pulse := some (d.ev.elapsed + 17) }
  else d

/-- What SYNCOUT carries: low, a pulse, or the edges of SYNCIN after a fixed delay. -/
inductive SyncOut | low | high | forward
deriving DecidableEq, Repr

/-- SYNCOUT in the tick of the present boundary count (R366, R369, R374). -/
def Dev.syncOut (d : Dev) : SyncOut :=
  if d.clk.safe then .low
  else if d.clk.pulse.any fun t => t ≤ d.ev.elapsed + 16 then if d.flag F.CLK_SPLL_STATUS_MUTED then .low else .high
  else if d.get F.CLK_SYNC_CFG_OUT = 1 then .forward
  else .low

/-- EMIT (R58, R369): outside GENERATE, and while muted, nothing is driven. -/
def Dev.emitSync (d : Dev) : Dev :=
  if d.clk.pulse.isSome then d.set F.CLK_SYNC_CFG_PENDING 1 else d.startPulse

/-- The SYNCOUT pulse ends after 16 ticks, and a queued one begins. -/
def Dev.pulseTick (d : Dev) : Dev :=
  match d.clk.pulse with
  | some t =>
    if d.ev.elapsed < t then d
    else
      let d := (d.set F.CLK_SYNC_CFG_EMIT 0).modClk fun k => { k with pulse := none }
      if d.flag F.CLK_SYNC_CFG_PENDING then (d.set F.CLK_SYNC_CFG_PENDING 0).startPulse else d
  | none => d

/-! ### Reference loss and coast (R370 to R373) -/

/-- The multiplier that a slew has reached when it is cut off lies between the old one and the new; where is a free value
(R370). -/
def Dev.slewCut (d : Dev) : Dev :=
  match d.clk.apply with
  | some (false, m, _) =>
    let lo := min m d.clk.mult
    let d' := d.modClk fun k => { k with mult := lo + Config.slewStop d.free % (max m k.mult - lo + 1) }
    { d' with free := d.free + 1 }
  | _ => d

/-- REFIN_LOSS (R370, R373, R374, R380). -/
def Dev.refinLoss (d : Dev) : Dev :=
  let d := ((d.recordLoss 9).set F.CLK_REFIN_FREQ_VALID 0)
  let d := if d.clk.sysRefin && !d.flag F.CLK_PLL_STATUS_SYS_COAST then
      (d.set F.CLK_PLL_STATUS_SYS_COAST 1).modClk fun k => { k with sysCoastAt := d.ev.elapsed }
    else d
  let coast (d : Dev) : Dev :=
    let d := ((d.setPll 4).set F.CLK_IRQ_STATUS_COAST 1).set F.CLK_SPLL_STATUS_WINS 0
    d.modClk fun k => { k with coastAt := d.ev.elapsed, pulling := false, beyond := false }
  match d.pll with
  | 2 => coast d
  | 3 => ((coast d.slewCut).applyEnds 4 5).nextApply
  | 4 => d.modClk fun k => { k with pulling := false }
  | 5 => ((d.setPll 1).set F.CLK_SPLL_STATUS_WINS 0).set F.CLK_SYNC_STATUS_WAITING 0 |>.modClk fun k => { k with firstTick := none }
  | 1 => d.set F.CLK_SPLL_STATUS_WINS 0
  | _ => d

/-- Every channel has parked. -/
def Dev.allParked (d : Dev) : Bool := (List.finRange 32).all fun c => !(d.ch c).active? && (d.ch c).parked

/-- A coast beyond limits moves to bypass once every channel has parked; with REFIN back the loop acquires (R371). -/
def Dev.coastBypass (d : Dev) : Dev :=
  if d.clk.beyond && d.allParked then
    let d := d.toBypass (if d.sourceDown 9 then 4 else 1)
    d.set F.CLK_SPLL_STATUS_WINS 0
  else d

/-- The coast is beyond limits (R371). -/
def Dev.beyondLimits (d : Dev) : Dev :=
  let d := d.parkActive.set F.CLK_IRQ_STATUS_PARKED 1
  (d.modClk fun k => { k with beyond := true }).coastBypass

/-- A coast runs within its limits. -/
def Dev.coastWatched (d : Dev) : Bool := d.pll = 4 && !d.clk.pulling && !d.clk.beyond && !d.bypassed

/-- COAST_WINDOW (R371): a window of the coast differs by `ferr` in units of 0.01 ppm. -/
def Dev.coastWindow (d : Dev) (ferr : W32) : Dev :=
  if !d.coastWatched then d
  else
    let d := d.wr R.CLK_FERR ferr
    if 2000 < ferr.toInt.natAbs then d.beyondLimits else d

/-- LOCK_TMO in tick boundaries. -/
def Dev.lockTmo (d : Dev) : Nat := millis (max 1 (d.get F.CLK_MON_CFG_LOCK_TMO))

/-- LOCK_TMO (R371). -/
def Dev.lockTmoPasses (d : Dev) : Dev :=
  if d.coastWatched && d.clk.coastAt + d.lockTmo ≤ d.ev.elapsed then d.beyondLimits else d

/-- Calibration meets SENSE_CLK on AON_CLK: runs abort REF_RANGE and checks are abandoned (R373). -/
def Dev.senseLost (d : Dev) : Dev := (List.finRange 32).foldl (fun d c => (d.calAbortNow c 5).restartCheck c) d

/-- The system PLL's domains return; checks start over. A PLL that has stopped waits for RESTART (R375). -/
def Dev.sysReturn (d : Dev) : Dev :=
  let d := ((d.set F.CLK_PLL_STATUS_SYS_COAST 0).set F.CLK_PLL_STATUS_SYS_BYPASS 0).set F.CLK_PLL_STATUS_SYS_LOCK 1
  (List.finRange 32).foldl (fun d c => d.restartCheck c) d

/-- The reference of a coasting system PLL is back: it relocks, unless it has stopped (R373 to R375). -/
def Dev.coastOver (d : Dev) : Dev := if d.sourceStopped 1 then d.set F.CLK_PLL_STATUS_SYS_COAST 0 else d.sysReturn

/-- REFIN_RETURN (R371 to R373): edges resume; a loop on bypass acquires, a coasting one awaits a passing window. -/
def Dev.refinReturn (d : Dev) : Dev :=
  if !d.sourceDown 9 then d
  else
    let d := d.recordBack 9
    let d := if d.clk.sysRefin && d.flag F.CLK_PLL_STATUS_SYS_COAST then d.coastOver else d
    let d := d.setIf (d.pll ≠ 2) F.CLK_SPLL_STATUS_WINS 0
    if d.pll = 4 && d.bypassed then d.setPll 1 else d

/-- SYS_BYPASS (R373): a system PLL fed from REFIN has coasted past LOCK_TMO. One fed from AON_CLK coasts until AON_CLK returns
(R374). -/
def Dev.sysBypass (d : Dev) : Dev :=
  if d.clk.sysRefin && d.flag F.CLK_PLL_STATUS_SYS_COAST && !d.flag F.CLK_PLL_STATUS_SYS_BYPASS && d.clk.sysCoastAt + d.lockTmo ≤ d.ev.elapsed then
    (d.set F.CLK_PLL_STATUS_SYS_BYPASS 1).senseLost
  else d

/-! ### Stopped sources (R374, R375) -/

/-- Outputs to their safe states. -/
def Dev.toSafe (d : Dev) : Dev := d.modClk fun k => { k with safe := true }

/-- Runs end and outputs park without a tick of the stopped sample clock, which ends a PARK_ALL (R58, R371, R374). -/
def Dev.parkStopped (d : Dev) : Dev :=
  let d := d.parkActive
  { d with chans := d.chans.map Chan.parkOutput }.parkAllCheck

/-- A slewing APPLY that the loss of the sample clock cuts off ends FAILED with no reason (log entry 26). -/
def Dev.cutSlew (d : Dev) : Dev :=
  match d.clk.apply with
  | some (false, _, _) => (d.applyEnds 4 0).nextApply
  | _ => d

/-- AON_CLK is lost: the safe states, and an AON-fed system PLL coasts (R374). -/
def Dev.aonLost (d : Dev) : Dev :=
  let d := d.toSafe
  if d.clk.sysRefin || d.flag F.CLK_PLL_STATUS_SYS_COAST then d
  else (d.set F.CLK_PLL_STATUS_SYS_COAST 1).modClk fun k => { k with sysCoastAt := d.ev.elapsed }

/-- What the loss of source `i` does: 0 AON_CLK, 1 system, 2 sample, 3 to 6 HBM, 7 PCIe, 8 link. -/
def Dev.lossAction (d : Dev) (i : Nat) : Dev :=
  if i = 0 then d.aonLost
  else if i = 1 then
    ((d.set F.CLK_PLL_STATUS_SYS_LOCK 0).set F.CLK_PLL_STATUS_SYS_BYPASS 1).senseLost
  else if i = 2 then ((d.parkStopped.toSafe.toBypass 6).set F.CLK_SPLL_STATUS_WINS 0).cutSlew
  else if i = 7 then (d.set F.CLK_PLL_STATUS_PCIE_LOCK 0).pcieLinkLoss
  else if i = 8 then ((d.set F.CLK_PLL_STATUS_LINK_LOCK 0).portDown .e 1).portDown .w 1
  else if 3 ≤ i && i ≤ 6 then (d.set ⟨R.CLK_PLL_STATUS, i - 2, 1⟩ 0).fenceStack (i - 3)
  else d

/-- SOURCE_LOSS (R374). -/
def Dev.sourceLoss (d : Dev) (i : Fin 9) : Dev :=
  if d.sourceDown i then d else (d.recordLoss i).lossAction i

/-- SOURCE_BACK (R375): an AON-fed system PLL stops coasting when AON_CLK returns. -/
def Dev.sourceBack (d : Dev) (i : Fin 9) : Dev :=
  if !d.sourceDown i then d
  else
    let d := d.recordBack i
    if i.val = 0 && !d.clk.sysRefin && d.flag F.CLK_PLL_STATUS_SYS_COAST then d.coastOver else d

/-- A CLK.CMD command ends. -/
def Dev.clkCmdEnds (d : Dev) (code reason : Nat) : Dev :=
  ((d.set F.CLK_CMD_STATUS_CODE code).set F.CLK_CMD_STATUS_REASON reason).set F.CLK_IRQ_STATUS_CMD 1

/-- Source `i` is recorded in CLK.LOSS. -/
def Dev.lossRecorded (d : Dev) (i : Nat) : Bool := d.flag ⟨R.CLK_LOSS, i, 1⟩

/-- Source `i` has stopped and runs again, so RESTART relocks it (R375). -/
def Dev.mayRelock (d : Dev) (i : Nat) : Bool := d.sourceStopped i && !d.sourceDown i

/-- Each PLL that stopped relocks and its domains return (R375); the link PLL needs the sample clock. Stacks recover only by a
device reset. -/
def Dev.relock (d : Dev) : Dev :=
  let d := if d.mayRelock 1 then d.sysReturn else d
  let d := d.setIf (d.mayRelock 7) F.CLK_PLL_STATUS_PCIE_LOCK 1
  let d := d.setIf (d.mayRelock 8 && !d.bypassed) F.CLK_PLL_STATUS_LINK_LOCK 1
  let d := if d.pll = 6 && !d.sourceDown 2 then (d.setPll 1).set F.CLK_SPLL_STATUS_WINS 0 else d
  d.modClk fun k => { k with stopped := k.stopped &&& (k.down ||| 0x78) }

/-- RESTART (R375). A source still down keeps the safe states that its loss has set, and so does a TRIP (R438). -/
def Dev.restart (d : Dev) : Dev :=
  let lost := (List.range 9).filter d.lossRecorded
  if lost.any d.sourceDown then d.clkCmdEnds 6 1
  else if lost.any fun i => 3 ≤ i && i ≤ 6 then d.clkCmdEnds 6 2
  else (d.relock.modClk fun k => { k with safe := k.down &&& 5 ≠ 0 || d.tripped }).clkCmdEnds 2 0

/-- SYS_APPLY (R373): the system PLL relocks with CLK.SYS_CFG, its domains on AON_CLK meanwhile. -/
def Dev.sysApply (d : Dev) : Dev :=
  let p := d.get F.CLK_SYS_CFG_SYS_PRE
  if p = 0 || 20 < p then d.clkCmdEnds 6 3
  else
    let d := d.senseLost.modClk fun k => { k with sysRefin := d.flag F.CLK_SYS_CFG_SRC }
    let dead := if d.clk.sysRefin then d.sourceDown 9 else d.sourceDown 0
    let d := if dead then (d.set F.CLK_PLL_STATUS_SYS_COAST 1).modClk fun k => { k with sysCoastAt := d.ev.elapsed }
      else d.coastOver
    d.clkCmdEnds 2 0

/-- AON_STABLE (R361): domain 1 runs from then on. -/
def Dev.aonStable (d : Dev) : Dev :=
  if d.board.good then (d.modClk fun k => { k with aon := true }).setRuns 1 true else d

/-- FREQUENCY_MONITOR_WINDOW (R362): from Stage A on (R386). -/
def Dev.monitorWindow (d : Dev) (khz : Nat) : Dev :=
  if d.sourceDown 9 || d.stage = 0 then d
  else (d.set F.CLK_REFIN_FREQ_KHZ khz).set F.CLK_REFIN_FREQ_VALID (bit (khz ≠ 0))

/-! ### Gating (R82, R379, R432, R433) -/

/-- The output has carried rest or park for the 32 samples of the FIR history (R82). -/
def Chan.restful (x : Chan) : Bool :=
  x.hist = [] || (32 ≤ x.hist.length && (x.hist.take 32).all fun s => s.parked || s.x = 0)

/-- A block of rest or park. -/
def Blk.still (b : Blk) : Bool := b.kind = .rest || b.kind = .park

/-- Every play, PLAYN and HOLD that the channel has committed has ended by tick `t` (R82). -/
def Chan.actionsOver (x : Chan) (t : Tick) : Bool :=
  (x.cur.kind = .rest || x.cur.kind = .park || notAfter x.cur.stop t) && x.blks.all fun b => b.still || notAfter b.stop t

/-- The sequencer of channel `c` stands in a declared wait or on RUNAHEAD, and that stall does not end in tick DT (R81, R82). -/
def Dev.stallLasts (d : Dev) (c : Fin 32) : Bool :=
  let x := d.ch c
  x.st = .armed || (x.stall = .runahead && d.aheadTooFar c) ||
  (x.stall = .event && x.held.all fun w => (d.waitLimit c w).all fun r => before d.ev.dt r)

/-- Channel `c` lets its cluster's clock stop: it is idle, or rests in a declared wait or on RUNAHEAD, up to the tick in which that
stall ends by itself (R29, R81, R82). -/
def Dev.channelRests (d : Dev) (c : Fin 32) : Bool :=
  let x := d.ch c
  (x.quiet && x.parked) ||
  (!x.quiet && d.stallLasts c && x.queue.isEmpty && x.dispatched.isEmpty && x.actionsOver d.ev.dt && x.restful)

/-- Cluster `k` may stop (R29, R82). -/
def Dev.clusterIdle (d : Dev) (k : Nat) : Bool :=
  d.get F.TELEM_PWR_CL_GATED / 2 ^ k % 2 = 1 && !(d.fills.toList.getD k none).isSome &&
  !d.hbm.loads.any (fun p => p.1 / 64 = k) && (List.finRange 32).all fun c => clu c ≠ k || d.channelRests c

/-- A pattern pin of chiplet `n` keeps it awake (R207). -/
def Dev.pinsHold (d : Dev) (n : Nat) : Bool :=
  (List.range 16).any fun i => d.get (F.PAT_SEL_MODE n i) = 2 || (d.get (F.PAT_SEL_MODE n i) = 1 && d.flag (F.PAT_SEL_INV n i))

/-- Chiplet `n` may sleep (R225, R433): an IDLE run that is due holds it awake. -/
def Dev.chipletIdle (d : Dev) (n : Nat) : Bool :=
  !d.pinsHold n && (channelsOf n).all fun c => (d.ch c).quiet && (d.ch c).parked && (d.cal c).run.isNone && !d.idleRunDue c &&
    !d.flag (F.CH_DAC_STATUS_RANGING c)

/-- An image is read from the boot flash and verified: in Stage B, and after it the other slot (R412, R418). -/
def Dev.verifying (d : Dev) : Bool := d.stage = 1 || (2 ≤ d.stage && !d.flag F.SEC_BOOT_OTHER_DONE)

/-- What clock output `x` carries: nothing, REFIN buffered, or 6.4 GHz over a divider, with depth in units of 0.05 % and rate in
kHz of its spread (R377, R378). -/
inductive CkoOut | low | refin | sample (div : Nat) (spread : Option (Nat × Nat))
deriving DecidableEq, Repr

/-- A value limited to a range. -/
def clamp (lo hi n : Nat) : Nat := max lo (min hi n)

/-- CKOx (R366, R374, R377, R378). -/
def Dev.cko (d : Dev) (x : Nat) : CkoOut :=
  if d.stage = 0 || d.clk.safe || !d.flag (F.CLK_CKO_CFG_EN x) then .low
  else if !d.flag (F.CLK_CKO_CFG_SRC x) then if d.sourceDown 9 then .low else .refin
  else if d.flag F.CLK_SPLL_STATUS_MUTED then .low
  else .sample (max 13 (d.get (F.CLK_CKO_CFG_DIV x)))
    (if d.flag (F.CLK_CKO_SSC_EN x) then some (clamp 1 40 (d.get (F.CLK_CKO_SSC_DEPTH x)), clamp 10 100 (d.get (F.CLK_CKO_SSC_RATE x)))
     else none)

/-- Depth in units of 0.05 % and rate in kHz of the spread of the system PLL (R377). -/
def Dev.sysSpread (d : Dev) : Option (Nat × Nat) :=
  if d.flag F.CLK_SYS_CFG_SSC_EN then
    some (clamp 1 10 (d.get F.CLK_SYS_CFG_SSC_DEPTH), clamp 10 100 (d.get F.CLK_SYS_CFG_SSC_RATE))
  else none

/-- Domain `n` of R26 is a Demand or Service domain that is idle. The link of a chiplet has no attempt of its own: it stops
with the chiplet (R26). Stage B reads and verifies an image, and the other slot is verified after it (R412, R418). Trace
capture counts as enabled while SEC.DBG_CTRL.TRACE is 1 (DESIGN CHOICE, log entry 45). -/
def Dev.domainIdle (d : Dev) (n : Nat) : Bool :=
  if 6 ≤ n && n ≤ 30 && d.snapWaits then false
  else if n = 6 then d.rings.doorbells.isEmpty && d.rings.due.isEmpty && d.rings.statusQ.isEmpty && d.rings.workAt + 512 ≤ d.ev.elapsed
  else if 7 ≤ n && n ≤ 14 then d.clusterIdle (n - 7)
  else if 15 ≤ n && n ≤ 18 then false
  else if 19 ≤ n && n ≤ 22 then d.chipletIdle (n - 19)
  else if 23 ≤ n && n ≤ 30 then d.get (F.HBM_STATUS_POWER ((n - 23) % 4)) = 1
  else match n with
    | 33 => !d.flag F.LINK_CFG_EN && !d.portUp .e
    | 34 => !d.flag F.LINK_CFG_EN && !d.portUp .w
    | 35 => (List.finRange 32).all fun c => (d.cal c).run.isNone && !d.flag (F.CH_DAC_STATUS_ROT_ACTIVE c)
    | 36 => (List.range 9).all fun e => !d.engineRuns e
    | 37 => !d.verifying && !d.flag F.SEC_CMD_GO && !(d.flag F.MGMT_CMD_GO) && (List.finRange 32).all fun c => (d.cal c).saving.isNone
    | 41 => !d.verifying && !d.flag F.MGMT_CMD_GO
    | 42 => !d.flag (F.CLK_CKO_CFG_EN 0)
    | 43 => !d.flag (F.CLK_CKO_CFG_EN 1)
    | 44 => !d.flag F.SEC_DBG_CTRL_TRACE
    | _ => false

/-- Frequency of CKOx in kHz; an output held low counts at its highest frequency. -/
def Dev.ckoKhz (d : Dev) (x : Nat) : Nat :=
  match d.cko x with
  | .low => 500000
  | .refin => d.get F.CLK_REFIN_FREQ_KHZ
  | .sample div _ => 6400000 / div

/-- Frequency of domain `n` of R26 in kHz: those of a chiplet and of a stack scale with the sample rate and the pin rate; the
system PLL's domains run at 25 MHz on AON_CLK (R18, R26, R367, R373). A frequency given as a limit counts as that limit (DESIGN
CHOICE, log entry 45). -/
def Dev.domainKhz (d : Dev) (n : Nat) : Nat :=
  let sys (khz : Nat) : Nat := if d.flag F.CLK_PLL_STATUS_SYS_BYPASS then 25000 else khz
  let logic (khz : Nat) : Nat := if d.bypassed then sys khz else khz
  let pin (khz : Nat) : Nat := khz * (4 - d.pinRate) / 4
  if 7 ≤ n && n ≤ 14 then logic 800000
  else if 15 ≤ n && n ≤ 18 then 3200000 / 2 ^ d.rate (n - 15)
  else if 19 ≤ n && n ≤ 22 then 6400000 / 2 ^ d.rate (n - 19)
  else if 23 ≤ n && n ≤ 26 then pin 800000
  else if 27 ≤ n && n ≤ 30 then pin 3200000
  else match n with
    | 1 | 38 => 25000
    | 2 => d.get F.CLK_REFIN_FREQ_KHZ
    | 3 => 6400000
    | 4 | 37 | 44 => sys 400000
    | 5 => logic 400000
    | 6 | 36 => sys 800000
    | 31 | 32 => 1000000
    | 33 | 34 => 800000
    | 35 => sys 200000
    | 39 => 50000
    | 40 => 1000
    | 41 => sys 100000
    | 42 => d.ckoKhz 0
    | 43 => d.ckoKhz 1
    | _ => 0

/-- 1,024 cycles of domain `n` in ticks, rounded up (R26, R379). -/
def Dev.gateLimit (d : Dev) (n : Nat) : Nat := (1024 * 400000 + d.domainKhz n - 1) / max 1 (d.domainKhz n)

/-- A quiesced domain stops; the link of a chiplet stops with its converters (R26). -/
def Dev.stopDomain (d : Dev) (n : Nat) : Dev :=
  if 19 ≤ n && n ≤ 22 then (d.setRuns n false).setRuns (n - 4) false else d.setRuns n false

/-- The clock of the system PLL's domains: its output, or AON_CLK (R373, R374). -/
def Dev.sysClock (d : Dev) : Bool := if d.flag F.CLK_PLL_STATUS_SYS_BYPASS then !d.sourceDown 0 else !d.sourceDown 1

/-- The source that feeds domain `n` of R26 at present runs (R367, R373, R374). -/
def Dev.fed (d : Dev) (n : Nat) : Bool :=
  if 7 ≤ n && n ≤ 14 then if d.bypassed then d.sysClock else !d.sourceDown 2
  else if 15 ≤ n && n ≤ 22 then !d.sourceDown 2
  else if 23 ≤ n && n ≤ 30 then !d.sourceDown (3 + (n - 23) % 4)
  else match n with
    | 1 | 38 => !d.sourceDown 0
    | 3 => !d.sourceDown 2
    | 5 => if d.bypassed then d.sysClock else !d.sourceDown 2
    | 31 | 32 => !d.sourceDown 7
    | 33 | 34 => !d.sourceDown 8
    | 42 => if d.flag (F.CLK_CKO_CFG_SRC 0) then !d.sourceDown 2 else !d.sourceDown 9
    | 43 => if d.flag (F.CLK_CKO_CFG_SRC 1) then !d.sourceDown 2 else !d.sourceDown 9
    | _ => d.sysClock

/-- Domain `n` of R26 runs: it is not gated, and its source runs. External domains run as their pins do (R25, R379). -/
def Dev.clocked (d : Dev) (n : Nat) : Bool :=
  if n = 2 then d.board.good && !d.sourceDown 9
  else if n = 39 || n = 40 then d.board.good && Config.pinClock n d.ev.elapsed
  else d.runs n && d.fed n

/-- GATE_REQUEST (R379): an idle domain that runs starts the quiesce handshake. -/
def Dev.gateRequest (d : Dev) (n : Fin 45) : Dev :=
  if d.runs n && d.domainIdle n && 6 ≤ n.val && !d.clk.gates.any (·.1 = n.val) then
    d.modClk fun k => { k with gates := k.gates ++ [(n.val, d.ev.elapsed)] }
  else d

/-- GATE_ERR (R379): the report has not come within 1,024 cycles. -/
def Dev.gateErr (d : Dev) (n : Fin 45) : Dev :=
  match d.clk.gates.find? (·.1 = n.val) with
  | some (_, t) =>
    if t + d.gateLimit n ≤ d.ev.elapsed then
      let d := d.modClk fun k => { k with gates := k.gates.filter (·.1 ≠ n.val) }
      let d := (d.countSat F.CLK_GATE_ERR_COUNT).set F.CLK_IRQ_STATUS_GATE_ERR 1
      if d.flag F.CLK_GATE_ERR_VALID then d else (d.set F.CLK_GATE_ERR_DOMAIN n).set F.CLK_GATE_ERR_VALID 1
    else d
  | none => d

/-- An event that cluster `k` has still to present has arrived there (R259, R434). -/
def Dev.eventArrived (d : Dev) (k : Nat) : Bool :=
  d.ev.frames.any fun f => (List.finRange 32).any fun c => clu c = k && !f.presented.getLsbD c && d.passes c f.code &&
    notAfter (if d.fast c then f.fastAt else f.stamp + 23) d.ev.dt

/-- Domain `n` is asked for during a handshake: it is no longer idle, or an event has arrived at its cluster (R379, R434). -/
def Dev.domainAsked (d : Dev) (n : Nat) : Bool := !d.domainIdle n || (7 ≤ n && n ≤ 14 && d.eventArrived (n - 7))

/-- Handshakes at a tick boundary: a domain that is asked for keeps its clock; a report that came within its limit (a free
value) stops the clock. -/
def Dev.gateTick (d : Dev) : Dev :=
  d.clk.gates.foldl (fun d g =>
    let q := Config.quiesceTicks (45 * g.2 + g.1)
    if d.domainAsked g.1 then d.modClk fun k => { k with gates := k.gates.filter (·.1 ≠ g.1) }
    else if q < d.gateLimit g.1 && g.2 + q ≤ d.ev.elapsed then d.stopDomain g.1
    else d) d

/-- A stopped cluster or chiplet with a channel that must go on wakes by itself, and a running service runs its domain (R25,
R82): the ports of the link from Stage C on, the others from Stage A on. After a TRIP they stay stopped (R438). -/
def Dev.wakeTick (d : Dev) : Dev :=
  if d.tripped then d
  else
  let d := (List.range 8).foldl (fun d k =>
    if 3 ≤ d.stage && !d.runs (7 + k) && !d.clusterIdle k then d.setRuns (7 + k) true else d) d
  let d := (List.range 4).foldl (fun d n => if !d.runs (19 + n) && !d.chipletIdle n then d.wakeChiplet n else d) d
  [33, 34, 35, 36, 37, 41, 42, 43, 44].foldl (fun d n =>
    if (if n ≤ 34 then 3 else 1) ≤ d.stage && !d.runs n && !d.domainIdle n then d.setRuns n true else d) d

/-- CLUSTER_WAKE (R432). -/
def Dev.clusterWake (d : Dev) (k : Fin 8) : Dev := if 3 ≤ d.stage then d.eventWake k else d

end Sys2Proof.Machine
end

