-- ==== Sys2Proof/Machine/BootOps.lean ====
section
/-! DEFINITION. Supplies, start-up stages and resets (chapter 16), with what they do to the fuses and measurements of
chapter 18. -/

namespace Sys2Proof.Machine

/-! ### Fuses and digests -/

/-- The first 32 bytes of a SHAKE256 output (R421). -/
def digest32 (bs : List Byte) : List Byte := (List.range 32).map (byteAt (Config.shake256 bs))

/-! ### The reserved indices (R423) -/

/-- The records of END that hold their check: record slot and END. -/
def Dev.endSlots (d : Dev) : List (Nat × Nat) :=
  ((List.range 16).filter fun i => d.mtpBytes (secEnds_ + 8 * i) 8 = endRecord (leNat (d.mtpBytes (secEnds_ + 8 * i) 4))).map
    fun i => (i, leNat (d.mtpBytes (secEnds_ + 8 * i) 4))

/-- The newest record of END: the one with the highest. -/
def Dev.newestEnd (d : Dev) : Option (Nat × Nat) :=
  d.endSlots.foldl (fun best p => match best with
    | none => some p
    | some b => if b.2 < p.2 then some p else best) none

/-- END; with no record that holds its check no index is free (DESIGN CHOICE, log entry 18). -/
def Dev.idxEnd (d : Dev) : Nat := match d.newestEnd with | some p => p.2 | none => 2 ^ 20

/-- The next record slot of END. -/
def Dev.nextEndSlot (d : Dev) : Nat := match d.newestEnd with | some p => (p.1 + 1) % 16 | none => 0

/-- Record slot `i` of END takes `e`. -/
def Dev.putEnd (d : Dev) (i e : Nat) : Dev := d.mtpWrite (secEnds_ + 8 * (i % 16)) (endRecord e)

/-- Record slot `i` of END, written or cut off without success, fails its check (R242, R423). -/
def Dev.spoilEnd (d : Dev) (i : Nat) : Dev :=
  let bs := (List.range 4).map fun j => Config.unstatedByte (d.free + j)
  { d with free := d.free + 4 }.mtpWrite (secEnds_ + 8 * (i % 16)) (bs ++ leBytes 4 (~~~crc32c bs).toNat)

/-- `n` slots of END from slot `i` on written without success. -/
def Dev.spoilEnds (d : Dev) (i n : Nat) : Dev := (List.range n).foldl (fun (d : Dev) j => d.spoilEnd (i + j)) d

/-- A reservation of 256 indices written and read back, behind `fails` slots whose read-back fails (R423). -/
def Dev.reserve (d : Dev) (fails : Nat) : Dev :=
  let e := d.idxEnd + 256
  ((d.spoilEnds d.nextEndSlot fails).putEnd (d.nextEndSlot + fails) e).set (F.SEC_IDX_VALUE 1) e

/-- NEXT of R423. -/
def Dev.idxNext (d : Dev) : Nat := d.get (F.SEC_IDX_VALUE 0)

/-- A REPORT needs a reservation: NEXT has reached END (R423). -/
def Dev.needsIndices (d : Dev) : Bool :=
  !d.sec.rootLost && !d.flag F.SEC_LC_IDKEY_RETIRED && d.idxNext < 2 ^ 20 && d.idxNext = d.idxEnd

/-! ### The mailbox command that something cuts off -/

/-- Bytes written to the flash. -/
def Dev.flashPut (d : Dev) (a : Nat) (bs : List Byte) : Dev :=
  { d with mem := { d.mem with flash := { d.mem.flash with cells := writeCells boardFlash d.mem.flash.cells a bs } } }

/-- `n` flash bytes from `a` on take values that nothing states. -/
def Dev.flashSpoil (d : Dev) (a n : Nat) : Dev :=
  { d with free := d.free + n }.flashPut a ((List.range n).map fun i => Config.unstatedByte (d.free + i))

/-- Argument `i` of the command that runs. -/
def argOf (args : List W32) (i : Nat) : Nat := (args.getD i 0).toNat

/-- What a FLASH_WRITE cut short leaves of its sector (R413). -/
def Dev.flashCut (d : Dev) (args : List W32) : Dev :=
  if argOf args 2 % 2 = 1 then d.flashSpoil (argOf args 0) 4096 else d.flashSpoil (argOf args 0) (min 4096 (argOf args 1))

/-- What the running mailbox command leaves when a reset, a restart or, with `power`, a loss of power or a TRIP cuts it off: of a
REPORT that reserves indices, nothing, a record slot that fails its check, or the reservation (R423, R429, R439; which, a free value);
of a FLASH_WRITE a sector partly written. -/
def Dev.cutCommand (d : Dev) (power : Bool) : Dev :=
  match d.mgmt.cmd with
  | some (op, args) =>
    if op = 0x10 && argOf args 0 % 4 = 0 && d.needsIndices then
      let n := (Config.unstatedByte d.free).toNat % 3
      let d := { d with free := d.free + 1 }
      if n = 0 then d else if n = 1 then (if power then d.spoilEnd d.nextEndSlot else d) else d.reserve 0
    else if op = 0x11 then d.flashCut args
    else d
  | none => d

/-! ### Fuses -/

/-- The fuses sensed (R416): the values of SEC.LC that govern until the next device reset. -/
def Dev.sense (d : Dev) (burned retired : Nat) : Dev :=
  let d := (d.set F.SEC_LC_STATE burned).set F.SEC_LC_BURNED burned
  let d := (d.set F.SEC_LC_MIN_SVN d.sec.svn).set F.SEC_LC_ROOT_REVOKED d.sec.revoked.toNat
  let d := (d.set F.SEC_LC_ROOT_VALID (wordOf 4 fun r => d.sec.roots.toList.getD r 0 ≠ 0)).set F.SEC_LC_IDKEY_RETIRED retired
  (d.set (F.SEC_IDX_VALUE 0) d.idxEnd).set (F.SEC_IDX_VALUE 1) d.idxEnd

/-! ### Writes met by a reset -/

/-- A record write cut off by a power loss or a TRIP leaves its slot failing its check (R242, R439). -/
def Dev.cutWrite (d : Dev) (c : Fin 32) : Dev :=
  if (d.cal c).saving.isNone then d
  else
    let bs := (List.range 508).map fun j => Config.unstatedByte (d.free + j)
    ({ d with free := d.free + 508 }.mtpWrite (slotAt c (d.writeSlot c)) (bs ++ leBytes 4 (~~~crc32c bs).toNat)).modCal c fun k => { k with saving := none }

/-- A loss of power or a TRIP cuts off every write (R242, R423, R439). -/
def Dev.cutWrites (d : Dev) : Dev := ((List.finRange 32).foldl (fun (d : Dev) c => d.cutWrite c) d).cutCommand true

/-! ### Resets (R387, R388) -/

/-- The bank with the power-on domain registers only. -/
def powerOnRegs (t : List (Nat × W32)) : List (Nat × W32) :=
  t.filter fun p => match cardAt p.1 with | some (card, _) => card.dom = .powerOn | none => false

/-- A power-on reset: flash, eFuse and MTP are kept, and so are the supplies (R387). -/
def Dev.powerOnReset (d : Dev) : Dev :=
  let n := Dev.cold d.mem.mtp d.mem.flash d.sec d.free
  let n := { n with board := { n.board with rails := d.board.rails, analog := d.board.analog } }
  n.sense (d.get F.SEC_LC_BURNED) (d.get F.SEC_LC_IDKEY_RETIRED)

/-- The Oasis words on spare rows after a reset: each captured row is mapped to one of the 8 spare rows of its bank
(R358). -/
def Dev.spareRows (d : Dev) : List Nat :=
  (List.range 8).foldl (fun l k =>
    let x := oasisAt k (d.get (F.CL_SIR_FAIL_ADDR_OFFSET k) / 64 * 64)
    let bank := x / 64 % 32
    if d.flag (F.CL_SIR_FAIL_ADDR_VALID k) && d.get (F.CL_SIR_FAIL_ADDR_MEM k) = 0 && !l.contains x &&
       (l.filter fun y => y / 0x800000 = k && y / 64 % 32 = bank).length < 8 then l ++ [x] else l) d.sirocco.spared

/-- Calibration through a device reset: no run, no record write; what was measured stays until Stage C loads it. -/
def Cal.halted (k : Cal) : Cal :=
  { k with run := none, hold := none, staleEnd := none, fromPark := false, saving := none, saveNext := false, queuedSave := false, vacant := []
           swapDue := none, failedOnce := none, fails := 0 }

/-- The clocks that a device reset leaves: AON_CLK and the system PLL keep running, or wait for RESTART (R375, R388). -/
def Clk.kept (k cold : Clk) : Clk :=
  let down := k.down &&& 0x203
  { cold with aon := k.aon, down := down, stopped := k.stopped &&& 3, sysRefin := k.sysRefin, sysCoastAt := k.sysCoastAt
              safe := down.getLsbD 0 }

/-- Hardware status that a device reset leaves as the units report it: the PLLs, domains and PCIe link that keep running,
no conversion of range, no rotation, no stack up (R388). -/
def Dev.statusKept (n d : Dev) (stage : Nat) : Dev :=
  let n := (n.set F.CLK_PLL_STATUS_SYS_LOCK (d.get F.CLK_PLL_STATUS_SYS_LOCK)).set F.CLK_PLL_STATUS_SYS_COAST (d.get F.CLK_PLL_STATUS_SYS_COAST)
  let n := (n.set F.CLK_PLL_STATUS_SYS_BYPASS (d.get F.CLK_PLL_STATUS_SYS_BYPASS)).set F.CLK_PLL_STATUS_PCIE_LOCK (d.get F.CLK_PLL_STATUS_PCIE_LOCK)
  let n := [1, 4, 31, 32, 38].foldl (fun n i => n.setRuns i (d.runs i)) n
  let n := (List.range 4).foldl (fun n s => (n.set (F.HBM_STATUS_POWER s) 0).set (F.HBM_STATUS_SET s) 0) (n.set F.MEM_HEALTH_MAPPED 0)
  let n := (List.finRange 32).foldl (fun n c => (n.set (F.CH_DAC_STATUS_RANGING c) 0).set (F.CH_DAC_STATUS_ROT_ACTIVE c) 0) n
  let n := [2, 3, 4, 5, 6, 7, 8].foldl (fun n i => n.setIf (d.flag ⟨R.CLK_LOSS, i, 1⟩) ⟨R.CLK_LOSS, 16 + i, 1⟩ 1) n
  ((n.set F.DEV_STAGE_STAGE stage).set F.DEV_STAGE_STOPPED 0).set F.DEV_STAGE_STOP_CODE 0

/-- DEVICE_RESET (R388): MTP writes in progress finish, every channel parks, the device and channel domains
take their reset values, and start-up resumes at Stage A. HBM contents are not kept. -/
def Dev.deviceReset (d : Dev) : Dev :=
  if d.stage = 0 then d
  else
    let d := (List.finRange 32).foldl (fun d c => if (d.cal c).saving.isSome then d.mtpRecordWrite c true else d) (d.cutCommand false)
    let n := Dev.cold d.mem.mtp d.mem.flash d.sec d.free
    let n := { n with
      regs := powerOnRegs d.regs
      ev := { n.ev with dt := d.ev.dt, started := d.ev.started, elapsed := d.ev.elapsed, trig := d.ev.trig, pins := d.ev.pins
                        pinsNext := d.ev.pinsNext, sampled := d.ev.sampled
                        heldSince := if d.ev.counting then d.ev.elapsed else d.ev.heldSince }
      mem := { d.mem with hbm := Store.empty, ctx := Store.empty }
      sirocco := { n.sirocco with failed := d.sirocco.failed, fails := d.sirocco.fails, spared := d.spareRows }
      cals := d.cals.map Cal.halted
      clk := d.clk.kept n.clk
      board := { d.board with rst := none }
      mgmt := { d.mgmt with cmd := none, sec := none } }
    (n.statusKept d 1).sense (d.get F.SEC_LC_BURNED) (d.get F.SEC_LC_IDKEY_RETIRED)

/-- DEVICE_RESET (R387, R388): a reset of PCIe resets its configuration space too; a write of MTP not finished within 20 ms is cut
off. -/
def Dev.resetBy (d : Dev) (pcie cut : Bool) : Dev :=
  if d.stage = 0 then d
  else
    let d := if cut then { d.cutWrites with mgmt := { d.mgmt with cmd := none } } else d
    let d := d.deviceReset
    if pcie then d.pcieLinkLoss else d

/-! ### Supplies (R381 to R383) -/

/-- POWER_GOOD (R382): every rail has been in range for 1 ms. Start-up begins, unless nRESET is still `low`: the pins then stand as
R386 says for good supplies. -/
def Dev.powerGood (d : Dev) (low : Bool) : Dev :=
  if d.board.good then d
  else { d with board := { d.board with rails := true, analog := true, good := !low } }

/-- NRESET_LOW (R382, R387): a pulse of 1 µs or more is a power-on reset, which cuts off a write of MTP as a loss of power does (log
entry 18); one shorter than 100 ns is ignored; between the two a free value decides. -/
def Dev.nresetLow (d : Dev) (ns : Nat) : Dev :=
  if ns < 100 then d
  else if 1000 ≤ ns then d.cutWrites.powerOnReset
  else
    let taken := (Config.unstatedByte d.free).getLsbD 0
    let d := { d with free := d.free + 1 }
    if taken then d.cutWrites.powerOnReset else d

/-- SUPPLY_FAIL (R383): every activity stops without completing, and the next rise is a power-on reset. -/
def Dev.supplyFail (d : Dev) (analog : Bool) : Dev :=
  { d.cutWrites with board := { d.board with rails := false, analog := analog } }.powerOnReset

/-! ### Stages (R384, R385, R411, R412) -/

/-- A valid sensor reads at or above CRIT − HYST, or the TRIP condition holds: start-up waits at Stage A (R438). -/
def Dev.hot (d : Dev) : Bool :=
  let lim := 16 * ((min (d.get F.TELEM_THERM_CRIT) (if d.get F.DEV_ID_GRADE = 1 then 120 else 110) : Nat) : Int)
    - 16 * ((max 1 (d.get F.TELEM_THERM_HYST) : Nat) : Int)
  d.board.tripSites ≠ 0 || (List.range 24).any fun i =>
    d.flag (F.TELEM_TEMP_VALID i) && decide (lim ≤ (BitVec.ofNat 16 (d.get (F.TELEM_TEMP_VALUE i))).toInt)

/-- `n` bytes of the boot flash from `a` on. -/
def Dev.flashBytes (d : Dev) (a n : Nat) : List Byte := (List.range n).map fun i => Tab.get boardFlash d.mem.flash.cells (a + i)

/-- Flash offset of an image slot (R410). -/
def imageAt (slotB : Bool) : Nat := if slotB then 0x200000 else 0x100000

/-- Dword `i` of the header of an image slot: MAGIC, FORMAT, VERSION, LENGTH (R410). -/
def Dev.slotWord (d : Dev) (slotB : Bool) (i : Nat) : Nat := leNat (d.flashBytes (imageAt slotB + 4 * i) 4)

/-- A signature block over a message verifies: the digest of its 68-byte public key equals a root hash that is programmed and, as
sensed, not revoked, and the signature does (steps 2 and 3 of R418). -/
def Dev.blockSigns (d : Dev) (block msg : List Byte) : Bool :=
  let h := digest32 (block.take 68)
  (List.range 4).any (fun r => d.sec.roots.toList.getD r 0 ≠ 0 && d.get F.SEC_LC_ROOT_REVOKED / 2 ^ r % 2 = 0 &&
    h = leBytes 32 (d.sec.roots.toList.getD r 0).toNat) && Config.xmssVerifies block msg

/-- Header and body of an image slot (R410). -/
def Dev.slotImage (d : Dev) (slotB : Bool) : List Byte := d.flashBytes (imageAt slotB) (16 + d.slotWord slotB 3)

/-- The signature block of an image slot, at slot offset 16 + LENGTH (R417). -/
def Dev.slotBlock (d : Dev) (slotB : Bool) : List Byte := d.flashBytes (imageAt slotB + 16 + d.slotWord slotB 3) 2888

/-- An image slot verifies (R418). -/
def Dev.slotVerifies (d : Dev) (slotB : Bool) : Bool :=
  d.slotWord slotB 0 = 0x574B4653 && d.slotWord slotB 1 = 0x00010001 && d.slotWord slotB 3 ≤ 1044464 &&
  d.get F.SEC_LC_MIN_SVN ≤ d.slotWord slotB 2 / 2 ^ 24 && d.blockSigns (d.slotBlock slotB) (d.slotImage slotB)

/-- An image slot may boot: it verifies, and its LCMASK allows the lifecycle state in force (R417, R418). -/
def Dev.slotBoots (d : Dev) (slotB : Bool) : Bool :=
  d.slotVerifies slotB && d.slotWord slotB 2 / 2 ^ (20 + d.get F.SEC_LC_STATE) % 2 = 1

/-- The image of a slot copied into Reckoner SRAM, where it is verified and runs (R418; from its start on, DESIGN CHOICE, log entry
11). -/
def Dev.loadImage (d : Dev) (slotB : Bool) : Dev :=
  { d with mem := { d.mem with reckoner := d.mem.reckoner.write 0 (d.slotImage slotB) } }

/-- The slot verified first: the one with the higher VERSION, A when they are equal (R411, R418). -/
def Dev.firstSlot (d : Dev) : Bool := d.slotWord false 2 < d.slotWord true 2

/-- The slot that boots (R411, R418). -/
def Dev.bootSlot (d : Dev) : Option Bool := [d.firstSlot, !d.firstSlot].find? d.slotBoots

/-- The values of the board configuration block, when its FORMAT and CRC hold (R412). -/
def Dev.configBlock (d : Dev) : Option (List W32) :=
  let bs := d.flashBytes 0 32
  let word (i : Nat) : Nat := leNat ((bs.drop (4 * i)).take 4)
  if word 0 = 0x00010002 && (crc32c (bs.take 28)).toNat = word 7 then some ((List.range 6).map fun i => BitVec.ofNat 32 (word (i + 1)))
  else none

/-- FW_MEAS and CFG_MEAS taken (R422). -/
def Dev.measure (d : Dev) (slotB : Bool) : Dev :=
  let a := imageAt slotB
  let len := min 1044464 (leNat (d.flashBytes (a + 12) 4))
  { d with sec := { d.sec with fwMeas := digest32 (d.flashBytes a (16 + len)), cfgMeas := digest32 (d.flashBytes 0 32) } }

/-- A register takes the bits of its RW fields from a value. -/
def Dev.configure (d : Dev) (a : Nat) (v : W32) : Dev :=
  match cardAt a with
  | some (card, _) =>
    let m : W32 := BitVec.ofNat 32 ((card.fields.filter (·.cls = .rw)).foldl (fun m f => m + (2 ^ f.len - 1) * 2 ^ f.lo) 0)
    d.wr a ((d.rd a &&& ~~~m) ||| (v &&& m))
  | none => d

/-- The values of the board configuration block written (R412). -/
def Dev.boardConfig (d : Dev) (vs : List W32) : Dev :=
  ([R.CLK_SPLL_CFG, R.CLK_SPLL_FRAC, R.CLK_SYS_CFG, R.CLK_CKO_CFG 0, R.CLK_CKO_CFG 1, R.CLK_SYNC_CFG].zip vs).foldl
    (fun d p => d.configure p.1 p.2) d

/-- The APPLY of start-up (R412): the sample PLL acquires; a measured REFIN out of range ends it REJECTED. -/
def Dev.bootApply (d : Dev) : Dev :=
  if d.flag F.CLK_REFIN_FREQ_VALID then d.startApply
  else
    let m := d.get F.CLK_SPLL_CFG_N * 2 ^ 32 + d.get F.CLK_SPLL_FRAC_F
    let d := ((d.set F.CLK_SPLL_CTRL_APPLY 1).set F.CLK_SPLL_STATUS_CODE 1).toBypass 1
    d.modClk fun k => { k with apply := some (true, m, d.ev.elapsed), pre := d.get F.CLK_SPLL_CFG_PRE_M1 + 1, mult := m }

/-- Stage A reached. -/
def Dev.stageA (d : Dev) : Dev :=
  if d.board.good && d.clk.aon then
    (((d.setRuns 4 true).setRuns 38 true).set F.CLK_PLL_STATUS_SYS_LOCK 1).set F.DEV_STAGE_STAGE 1
  else d

/-- The root recomputed from the stored nodes differs from that of the identity public key (R420). -/
def Dev.idRootLost (d : Dev) : Bool :=
  (List.range 32).map (byteAt (Config.xmssRoot (d.mtpBytes secNodes 65504) (d.mtpBytes (secKey + 36) 32))) ≠ d.mtpBytes (secKey + 4) 32

/-- Stage B reached with the image of a slot booted (R352, R412, R418, R420). Where the slot is not the one verified first, the other
has been checked and does not boot. -/
def Dev.stageB (d : Dev) (slotB : Bool) : Dev :=
  let d := { d with mem := { d.mem with ctx := Store.empty, reckoner := Store.empty }, sec := { d.sec with rootLost := d.idRootLost } }
  let d := d.loadImage slotB
  let d := (d.set F.MGMT_STATUS_READY 1).set F.MGMT_IRQ_STATUS_READY 1
  let d := (d.set F.SEC_BOOT_SLOT (bit slotB)).set F.SEC_BOOT_CFG_OK (bit d.configBlock.isSome)
  let d := d.setIf (slotB ≠ d.firstSlot) F.SEC_BOOT_OTHER_DONE 1
  let d := (d.wr R.SEC_BOOT_VER (BitVec.ofNat 32 (d.slotWord slotB 2))).measure slotB
  let d := (d.boardConfig (d.configBlock.getD [])).bootApply
  (((d.setRuns 31 true).setRuns 32 true).set F.CLK_PLL_STATUS_PCIE_LOCK 1).set F.DEV_STAGE_STAGE 2

/-- Stage C reached (R242, R245, R352): needs the sample PLL locked and DT counting. -/
def Dev.stageC (d : Dev) : Dev :=
  if d.pll = 2 && d.ev.counting then
    let d := { d with mem := { d.mem with oasis := Store.empty, segtab := Store.empty, prog := Store.empty }, heads := [] }
    let d := ([3, 5] ++ (List.range 16).map (7 + ·)).foldl (fun (d : Dev) n => d.setRuns n true) d
    ((List.finRange 32).foldl (fun (d : Dev) c => d.loadCal c) d).profileSync.set F.DEV_STAGE_STAGE 3
  else d

/-- Start-up stops with a reason (R385). -/
def Dev.stopStart (d : Dev) (code : Nat) : Dev := (d.set F.DEV_STAGE_STOPPED 1).set F.DEV_STAGE_STOP_CODE code

/-- The image slots have been examined (R411, R418, R438): the one named boots, or start-up stops. -/
def Dev.boot (d : Dev) : Dev :=
  if d.hot then d
  else match d.bootSlot with
    | some b => d.stageB b
    | none => d.stopStart (if d.slotVerifies false || d.slotVerifies true then 0x12 else 0x11)

/-- Stage D reached (R318, R338, R342): pseudo-channels that passed first training are mapped; RETIRED ones stay so. -/
def Dev.stageD (d : Dev) (passing : BitVec 128) : Dev :=
  let good (p : Nat) : Bool := passing.getLsbD p && d.pcState p ≠ 3
  if !(List.range 128).any good then d.stopStart 0x30
  else
    let d := (List.range 128).foldl (fun d p => d.set (F.MEM_PC_STAT_STATE p) (if good p then 0 else 3)) d
    let d := d.mapSync
    let d := (List.range 4).foldl (fun d s => (d.set ⟨R.CLK_PLL_STATUS, 1 + s, 1⟩ 1).set (F.HBM_STATUS_POWER s) 1) d
    let d := d.liveStacks.foldl (fun d s => d.stackUp s) d
    let d := { d with hbm := { d.hbm with trained := [d.pinRate], lastReq := Vector.replicate 4 d.ev.elapsed, scrubAt := 0 } }
    let d := d.mapped.foldl (fun d p => d.trainedNow d.pinRate p) d
    d.setsSync.set F.DEV_STAGE_STAGE (if d.linkState = 2 then 5 else 4)

/-- STAGE_ADVANCE (R384, R385): the next stage is reached, or start-up stops with a code of the stage it stands in. -/
def Dev.stageAdvance (d : Dev) (r : StageResult) : Dev :=
  if d.flag F.DEV_STAGE_STOPPED then d
  else match d.stage, r with
    | 0, .done => d.stageA
    | 1, .done => d.boot
    | 2, .done => d.stageC
    | 3, .trained passing => d.stageD passing
    | s, .stop code =>
      let c := code.toNat
      if (s = 1 && (c = 0x10 || c = 0x13)) || (s = 2 && 0x20 ≤ c && c ≤ 0x23) || (s = 3 && (c = 0x30 || c = 0x31)) then d.stopStart c else d
    | _, _ => d

/-- OTHER_SLOT_VERIFY (R418); `answers`: the boot flash gives the bytes that it holds. -/
def Dev.otherSlotVerify (d : Dev) (answers : Bool) : Dev :=
  if d.stage < 2 || d.flag F.SEC_BOOT_OTHER_DONE then d
  else (d.set F.SEC_BOOT_OTHER_DONE 1).set F.SEC_BOOT_OTHER_OK (bit (answers && d.slotBoots (!d.flag F.SEC_BOOT_SLOT)))

/-! ### Channel reset (R389, R390) -/

/-- The channel-domain registers of channel `c` take their reset values. -/
def dropChannel (c : Fin 32) (t : List (Nat × W32)) : List (Nat × W32) :=
  t.filter fun p => !(0x2000000 + 0x100000 * c.val ≤ p.1 && p.1 < 0x2000000 + 0x100000 * (c.val + 1) &&
    match cardAt p.1 with | some (card, _) => card.dom = .channel | none => false)

/-- A register lies in the channel domain of channel `c`. -/
def inChannel (c : Fin 32) (a : Nat) : Bool :=
  0x2000000 + 0x100000 * c.val ≤ a && a < 0x2000000 + 0x100000 * (c.val + 1) &&
    match cardAt a with | some (card, _) => card.dom = .channel | none => false

/-- Channel `c` in IDLE or FAULTED takes its reset values; a range other than 1.0 Vpp starts a range change (R389,
R390). Its record buffer is emptied, but Caravan's slots stay active (R281). -/
def Dev.channelCleared (d : Dev) (c : Fin 32) : Dev :=
  let range := d.get (F.CH_DAC_CTRL_RANGE c)
  let d := { d with regs := dropChannel c d.regs, pend := d.pend.filter fun p => !inChannel c p.addr
                    staged := d.staged.filter fun p => !inChannel c p.1 }
  let d := (d.setCh c { Chan.reset with outs := (d.ch c).outs, hist := (d.ch c).hist, active := (d.ch c).active }).roleMix c
  let d := if range ≠ d.get (F.CH_DAC_CTRL_RANGE c) then
      ((d.preempt c).set (F.CH_DAC_STATUS_RANGING c) 1).modCal c fun k => { k with rangeEnd := d.ev.elapsed + 8000 }
    else d
  d.profileSync

/-- The challenge of a debug token is cleared by any reset (R426). -/
def Dev.dropChallenge (d : Dev) : Dev := { d with sec := { d.sec with challenge := none } }

/-- A channel reset taken: channel C is captured, and a run stops first. -/
def Dev.startChReset (d : Dev) (c : Fin 32) : Dev :=
  let d := ((d.set F.DEV_RST_CH_GO 1).set F.DEV_RST_CH_CODE 1).set F.DEV_RST_CH_LAST c
  let d := { d with board := { d.board with rst := some c } }.dropChallenge
  if (d.ch c).active? then d.stop c else d

/-- A channel reset that runs ends when its channel stands in IDLE or FAULTED with its fault hold over. -/
def Dev.chResetStep (d : Dev) : Dev :=
  match d.board.rst with
  | none => d
  | some c =>
    let x := d.ch c
    if x.quiet && x.parked then
      let d := { (d.channelCleared c) with board := { d.board with rst := none } }
      (d.set F.DEV_RST_CH_CODE 2).set F.DEV_RST_CH_GO 0
    else if x.active? && x.stopB.isNone then d.stop c
    else d

/-- A queued channel reset starts when the running one has ended (R58). -/
def Dev.chResetTick (d : Dev) : Dev :=
  let d := d.chResetStep
  if d.board.rst.isNone && d.flag F.DEV_RST_CH_PENDING then
    ((d.set F.DEV_RST_CH_PENDING 0).startChReset (BitVec.ofNat 5 (d.get F.DEV_RST_CH_C)).toFin).chResetStep
  else d

/-- CHANNEL_RESET (R389, R390): DEV.RST_CH.GO with channel `c` in C. -/
def Dev.channelReset (d : Dev) (c : Fin 32) : Dev :=
  let d := d.set F.DEV_RST_CH_C c
  if d.board.rst.isSome then d.set F.DEV_RST_CH_PENDING 1 else (d.startChReset c).chResetStep

end Sys2Proof.Machine
end

