-- ==== Sys2Proof/Machine/MgmtOps.lean ====
section
/-! DEFINITION. Reckoner, its mailbox and its commands (chapter 16), the flash (chapter 17), and the security unit
(chapter 18). -/

namespace Sys2Proof.Machine

/-! ### The mailbox (R392, R393) -/

/-- The first `n` bytes of MGMT.BUF. -/
def Dev.buf (d : Dev) (n : Nat) : List Byte :=
  ((List.range ((n + 3) / 4)).flatMap fun i => leBytes 4 (d.rd (R.MGMT_BUF i)).toNat).take n

/-- Result bytes in MGMT.BUF, with MGMT.LEN. -/
def Dev.bufResult (d : Dev) (bs : List Byte) : Dev :=
  let d := (List.range ((bs.length + 3) / 4)).foldl
    (fun d i => d.wr (R.MGMT_BUF i) (BitVec.ofNat 32 (leNat ((bs.drop (4 * i)).take 4)))) d
  d.set F.MGMT_LEN_BYTES bs.length

/-- Result `i` of a command. -/
def Dev.res (d : Dev) (i v : Nat) : Dev := d.wr (R.MGMT_RES i) (BitVec.ofNat 32 v)

/-- A mailbox command ends with its record (R59); one that is not DONE has no result bytes (R392). -/
def Dev.mgmtRecord (d : Dev) (code abrt reason : Nat) : Dev :=
  let d := ((d.set F.MGMT_STATUS_CODE code).set F.MGMT_STATUS_ABRT abrt).set F.MGMT_STATUS_REASON reason
  let d := ((d.set F.MGMT_CMD_GO 0).set F.MGMT_IRQ_STATUS_DONE 1).setIf (code ≠ 2) F.MGMT_LEN_BYTES 0
  { d with mgmt := { d.mgmt with cmd := none } }

/-- The lifecycle state in force (R419): 0 MANUFACTURE, 1 PRODUCTION, 2 RETURN, 3 SCRAPPED. -/
def Dev.lifecycle (d : Dev) : Nat := d.get F.SEC_LC_STATE

/-- SEC.DBG_CTRL has been written since the last device reset. -/
def Dev.debugFixed (d : Dev) : Bool := d.locked.contains R.SEC_DBG_CTRL

/-- Why a FLASH_WRITE is rejected (R413). -/
def Dev.flashRejects (d : Dev) (args : List W32) : Option Nat :=
  let a := argOf args 0
  let n := argOf args 1
  if a % 4096 ≠ 0 || n = 0 || 4096 < n then some 2
  else if overlap a n (imageAt (d.flag F.SEC_BOOT_SLOT)) 0x100000 then some 8
  else none

/-- Why a mailbox command is rejected when it is taken (R392, R393, R413, R419, R421, R425). -/
def Dev.mgmtRejects (d : Dev) (op : Nat) (args : List W32) : Option Nat :=
  let fn := argOf args 0
  let n := argOf args 1
  let noBytes := n = 0 || 4096 < n
  if !d.flag F.MGMT_STATUS_READY then some 4
  else match op with
    | 1 | 3 | 4 => none
    | 2 => if 16 ≤ n && n ≠ 0xFF then some 2 else none
    | 0x10 => if fn % 4 = 3 || (fn % 4 = 2 && noBytes) then some 2 else none
    | 0x11 => d.flashRejects args
    | 0x12 => if d.lifecycle = 3 || (fn % 2 = 1 && d.debugFixed) then some 3 else none
    | _ => some 1

/-- GO taken: OP and the arguments are captured, and checked (R392, R393). -/
def Dev.mgmtTake (d : Dev) : Dev :=
  let op := d.get F.MGMT_CMD_OP
  let args := (List.range 8).map fun i => d.rd (R.MGMT_ARG i)
  match d.mgmtRejects op args with
  | some r => d.mgmtRecord 6 0 r
  | none =>
    let d := (d.set F.MGMT_CMD_GO 1).set F.MGMT_STATUS_CODE 1
    let d := (d.set F.MGMT_STATUS_ABRT 0).set F.MGMT_STATUS_REASON 0
    { d with mgmt := { d.mgmt with cmd := some (op, args) } }

/-- A GO of MGMT.CMD: taken, or queued while a command runs (R58). -/
def Dev.mgmtGo (d : Dev) : Dev := if d.mgmt.cmd.isSome then d.set F.MGMT_CMD_PENDING 1 else d.mgmtTake

/-! ### SEC.CMD (R427, R429) -/

/-- The identity key retires (R428). -/
def Dev.retireKey (d : Dev) : Dev := (d.set F.SEC_LC_IDKEY_RETIRED 1).set F.SEC_IRQ_STATUS_RETIRED 1

/-- A lifecycle step blown; none runs backward (R419). -/
def Dev.burnTo (d : Dev) (st : Nat) : Dev := d.set F.SEC_LC_BURNED (max st (d.get F.SEC_LC_BURNED))

/-- A SEC.CMD command ends. -/
def Dev.secEnds (d : Dev) (code : Nat) : Dev :=
  (((d.set F.SEC_CMD_STATUS_CODE code).set F.SEC_CMD_STATUS_ABRT 0).set F.SEC_IRQ_STATUS_CMD 1).set F.SEC_CMD_GO 0

/-- OP, R and CONFIRM as SEC.CMD holds them. -/
def Dev.secArgs (d : Dev) : Nat × Nat × Nat := (d.get F.SEC_CMD_OP, d.get F.SEC_CMD_R, d.get F.SEC_CMD_CONFIRM)

/-- A command of SEC.CMD carried out, of its OP, R and CONFIRM. -/
def Dev.secRun (d : Dev) (q : Nat × Nat × Nat) : Dev :=
  match q.1 with
  | 1 =>
    let v := min 64 (d.get F.SEC_BOOT_VER_VERSION / 2 ^ 24)
    { d with sec := { d.sec with svn := max v d.sec.svn } }.secEnds 2
  | 2 => if q.2.2 = 0x5C4A then ((d.burnTo 3).retireKey).secEnds 2 else d.secEnds 6
  | 3 =>
    let r := q.2.1
    let live (i : Nat) : Bool := d.sec.roots.toList.getD i 0 ≠ 0 && !d.sec.revoked.getLsbD i
    if d.sec.roots.toList.getD r 0 = 0 || ((List.range 4).filter live) = [r] then d.secEnds 6
    else { d with sec := { d.sec with revoked := d.sec.revoked ||| BitVec.twoPow 4 r } }.secEnds 2
  | _ => d.secEnds 6

/-- A GO of SEC.CMD (R58, R429): carried out in the order taken, behind the mailbox command that runs; a second one is queued. The SEC
domain stands after a TRIP (R438). -/
def Dev.secGo (d : Dev) : Dev :=
  if d.mgmt.sec.isSome then d.set F.SEC_CMD_PENDING 1
  else if d.mgmt.cmd.isSome || d.tripped then { (d.set F.SEC_CMD_GO 1) with mgmt := { d.mgmt with sec := some d.secArgs } }
  else d.secRun d.secArgs

/-- The command of SEC.CMD that waits is carried out, and then a queued one. -/
def Dev.secServe (d : Dev) : Dev :=
  match d.mgmt.sec with
  | none => d
  | some q =>
    let d := { d with mgmt := { d.mgmt with sec := none } }.secRun q
    if d.flag F.SEC_CMD_PENDING then (d.set F.SEC_CMD_PENDING 0).secRun d.secArgs else d

/-- The running mailbox command ends, with the abort outcome that an ABORT has left (R393); a waiting command of SEC.CMD is carried
out, and a queued mailbox command is taken (R58, R429). -/
def Dev.mgmtOver (d : Dev) (code abrt reason : Nat) : Dev :=
  let d := (d.mgmtRecord code abrt reason).secServe
  if d.flag F.MGMT_CMD_PENDING then (d.set F.MGMT_CMD_PENDING 0).mgmtTake else d

/-- The running command ends. -/
def Dev.mgmtEnds (d : Dev) (code reason : Nat) : Dev := d.mgmtOver code (d.get F.MGMT_STATUS_ABRT) reason

/-- A mailbox command needs the SEC domain or the SPI flash, which stand after a TRIP (R26, R438). -/
def Dev.mgmtStands (d : Dev) (op : Nat) : Bool := d.tripped && !([1, 3, 4] : List Nat).contains op

/-- The low bits of ARG_0 that select a function of a command: how many values, and the value. -/
structure Sel where
  op : Nat
  vals : Nat
  fn : Nat
deriving DecidableEq, Repr

/-- A running command is the one selected. -/
def Sel.is (q : Sel) (cmd : Nat × List W32) : Bool := cmd.1 = q.op && (cmd.2.headD 0).toNat % q.vals = q.fn

/-- A mailbox command carried out: the running one if it is this one; with none running, this one is taken first. While
another runs it is queued (R58, R392). -/
def Dev.mailbox (d : Dev) (q : Sel) (f : Dev → List W32 → Dev) : Dev :=
  match d.mgmt.cmd with
  | some cmd => if q.is cmd then (if d.mgmtStands q.op then d else f d cmd.2) else (d.set F.MGMT_CMD_OP q.op).set F.MGMT_CMD_PENDING 1
  | none =>
    let a := (d.rd (R.MGMT_ARG 0)).toNat
    let d := d.wr (R.MGMT_ARG 0) (BitVec.ofNat 32 (a / q.vals * q.vals + q.fn))
    let d := (d.set F.MGMT_CMD_OP q.op).mgmtTake
    match d.mgmt.cmd with
    | some cmd => if d.mgmtStands q.op then d else f d cmd.2
    | none => d

/-! ### Reckoner (R391) -/

/-- A Reckoner restart begins: the running command ends FAILED 0x07, except the one that asked for the restart. -/
def Dev.reckonerDown (d : Dev) : Dev :=
  let d := (d.set F.MGMT_STATUS_READY 0).set F.MGMT_IRQ_STATUS_RESTART 1
  let d := { d.dropChallenge with mgmt := { d.mgmt with restarts := d.mgmt.restarts + 1 } }
  match d.mgmt.cmd with
  | some (op, _) => if op = 4 then d else (d.cutCommand false).mgmtEnds 4 7
  | none => d

/-- RECKONER_RESTART (R391). -/
def Dev.reckonerRestart (d : Dev) : Dev := if d.flag F.MGMT_STATUS_READY then d.reckonerDown else d

/-- RECKONER_READY (R391): the image is loaded from the flash again, READY returns, record writes that have waited begin, and a RESTART
command ends DONE. The flash stands after a TRIP (R438). -/
def Dev.reckonerReady (d : Dev) : Dev :=
  if d.stage < 2 || d.flag F.MGMT_STATUS_READY || d.tripped then d
  else
    let d := ((d.loadImage (d.flag F.SEC_BOOT_SLOT)).set F.MGMT_STATUS_READY 1).set F.MGMT_IRQ_STATUS_READY 1
    let d := (List.finRange 32).foldl (fun (d : Dev) c => d.mtpDeferExpiry c) d
    match d.mgmt.cmd with
    | some (op, _) => if op = 4 then (d.bufResult []).mgmtEnds 2 0 else d
    | none => d

/-! ### Commands of R393 -/

/-- INFO. -/
def Dev.info (d : Dev) : Dev :=
  d.mailbox ⟨1, 1, 0⟩ fun d _ =>
    let d := (d.res 0 (Config.firmwareWord 0).toNat).res 1 (Config.firmwareWord 1).toNat
    let w := d.stage + d.get F.DEV_STAGE_STOP_CODE * 256 + d.get F.SEC_BOOT_SLOT * 65536 +
      (1 - d.get F.SEC_BOOT_CFG_OK) * 131072 + d.get F.DEV_STAGE_STOPPED * 262144
    (d.res 2 w |>.bufResult []).mgmtEnds 2 0

/-- CAL_READ; `mtpError`: the MTP block cannot be read. -/
def Dev.calRead (d : Dev) (mtpError : Bool) : Dev :=
  d.mailbox ⟨2, 1, 0⟩ fun d args =>
    let c : Fin 32 := (BitVec.ofNat 5 (argOf args 0)).toFin
    let s := argOf args 1
    if mtpError then d.mgmtEnds 4 6
    else match (if s = 0xFF then d.newestRecord c else (d.records c).find? (·.1 = s)) with
      | none => d.mgmtEnds 4 5
      | some (i, r) => (((d.bufResult r).res 0 (recNum r 4 4)).res 1 i).mgmtEnds 2 0

/-- A bit mask of pseudo-channels, 16 bytes. -/
def pcMask (p : Nat → Bool) : List Byte := leBytes 16 (wordOf 128 p)

/-- The HEALTH report (R394). -/
def Dev.healthReport (d : Dev) : List Byte :=
  let first := match d.sirocco.failed with
    | some (m, a) => a % 0x1000000 + (if m = .reckoner then 0x1000000 else 0) + 0x80000000
    | none => 0
  let gen := (List.range 32).foldl (fun m c => max m (d.get (F.CH_CAL_GEN_GEN c))) 0
  leBytes 4 0x00010003 ++ leBytes 4 d.sirocco.fails ++ leBytes 4 first ++ leBytes 4 d.mgmt.ce ++ leBytes 4 d.mgmt.restarts ++
  pcMask (fun p => d.pcState p = 3) ++ pcMask (fun p => d.pcState p = 1 || d.pcState p = 2) ++
  leBytes 4 d.sirocco.spared.length ++ leBytes 4 gen ++ leBytes 4 64

/-- HEALTH. -/
def Dev.health (d : Dev) : Dev := d.mailbox ⟨3, 1, 0⟩ fun d _ => (d.bufResult d.healthReport).mgmtEnds 2 0

/-- MGMT_RESTART: the RESTART command begins a Reckoner restart, and ends with READY. -/
def Dev.mgmtRestart (d : Dev) : Dev := d.mailbox ⟨4, 1, 0⟩ fun d _ => d.reckonerRestart

/-! ### The boot flash (R413) -/

/-- FLASH_WRITE: the sector is erased on request, the bytes written and read back. -/
def Dev.flashWrite (d : Dev) (ok : Bool) : Dev :=
  d.mailbox ⟨0x11, 1, 0⟩ fun d args =>
    let a := argOf args 0
    let n := argOf args 1
    let d := if argOf args 2 % 2 = 1 then d.flashPut a (List.replicate 4096 0xFF) else d
    if ok then ((d.flashPut a (d.buf n)).bufResult []).mgmtEnds 2 0
    else (d.flashSpoil a n).mgmtEnds 4 9

/-- MGMT_ABORT (R60, R393, R413): only FLASH_WRITE is abortable; its sector is left partly written. A queued command is
discarded. -/
def Dev.mgmtAbort (d : Dev) : Dev :=
  let d := d.set F.MGMT_CMD_PENDING 0
  match d.mgmt.cmd with
  | some (op, args) =>
    if op = 0x11 then (d.flashCut args).mgmtOver 3 1 0
    else d.set F.MGMT_STATUS_ABRT 2
  | none => d.set F.MGMT_STATUS_ABRT 2

/-! ### Attestation (R420 to R424, R428) -/

/-- SERIAL, 8 bytes. -/
def Dev.serial (d : Dev) : List Byte := leBytes 8 (d.get64 (R.SEC_SERIAL 0)).toNat

/-- FUSE_MEAS (R422): the fuses as sensed. -/
def Dev.fuseMeas (d : Dev) : List Byte :=
  digest32 (d.sec.roots.toList.flatMap (fun h => leBytes 32 h.toNat) ++
    leBytes 1 (d.get F.SEC_LC_ROOT_REVOKED) ++ leBytes 1 (d.get F.SEC_LC_MIN_SVN) ++ leBytes 1 d.lifecycle)

/-- The report signed with index `idx` (R422). -/
def Dev.reportBytes (d : Dev) (idx : Nat) (nonce : List Byte) : List Byte :=
  leBytes 4 0x00010004 ++ d.serial ++ leBytes 1 d.lifecycle ++ leBytes 1 (d.rd R.SEC_DBG_CTRL).toNat ++
  leBytes 1 (d.get F.SEC_BOOT_SLOT + 2 * d.get F.SEC_BOOT_CFG_OK) ++ leBytes 1 (d.get F.SEC_LC_MIN_SVN) ++
  leBytes 4 (d.rd R.SEC_BOOT_VER).toNat ++ leBytes 4 idx ++ leBytes 8 (if d.ev.counting then d.ev.dt.toNat else 0) ++
  nonce ++ (List.range 32).map (byteAt d.sec.fwMeas) ++ (List.range 32).map (byteAt d.sec.cfgMeas) ++ d.fuseMeas ++
  (List.range 32).map (byteAt d.sec.runMeas) ++ leBytes 4 d.sec.extends_ ++ List.replicate 60 0

/-- The signature of a message with index `idx`, which leads it most significant byte first, as RFC 8391 has it (R416, PRESUMED, log
entry 11). -/
def Dev.signature (d : Dev) (idx : Nat) (msg : List Byte) : List Byte :=
  (leBytes 4 idx).reverse ++ (List.range 2816).map (byteAt (Config.xmssSign d.sec.idkeySeed idx msg))

/-- The report signed with index NEXT, which is then used up; few indices left raise IDX_LOW (R423, R428). -/
def Dev.signReport (d : Dev) : Dev :=
  let idx := d.idxNext
  let rep := d.reportBytes idx (d.buf 32)
  let d := (d.set (F.SEC_IDX_VALUE 0) (idx + 1)).bufResult (rep ++ d.signature idx rep)
  (d.setIf (2 ^ 20 < idx + 1 + 65536) F.SEC_IRQ_STATUS_IDX_LOW 1).mgmtEnds 2 0

/-- REPORT (R420 to R423, R428); `ok` tells whether a reservation it needs reads back within three slots, `fails` behind how many that do
not. -/
def Dev.report (d : Dev) (ok : Bool) (fails : Nat) : Dev :=
  d.mailbox ⟨0x10, 4, 0⟩ fun d _ =>
    if d.sec.rootLost then d.mgmtEnds 4 0x0B
    else if d.flag F.SEC_LC_IDKEY_RETIRED then d.mgmtEnds 4 0x0A
    else if 2 ^ 20 ≤ d.idxNext then d.retireKey.mgmtEnds 4 0x0A
    else if d.idxNext = d.idxEnd then
      if ok then (d.reserve (min 2 fails)).signReport else (d.spoilEnds d.nextEndSlot 3).mgmtEnds 4 0x0B
    else d.signReport

/-- IDENTITY (R420, R421). -/
def Dev.identity (d : Dev) : Dev :=
  d.mailbox ⟨0x10, 4, 1⟩ fun d _ =>
    if d.sec.rootLost then d.mgmtEnds 4 0x0B
    else (d.bufResult (d.serial ++ d.mtpBytes secKey 68 ++ d.mtpBytes secCert 2888)).mgmtEnds 2 0

/-- EXTEND (R420, R421). -/
def Dev.extend (d : Dev) : Dev :=
  d.mailbox ⟨0x10, 4, 2⟩ fun d args =>
    let n := argOf args 1
    if d.sec.rootLost then d.mgmtEnds 4 0x0B
    else
      let m := digest32 (d.sec.runMeas ++ d.buf n)
      ({ d with sec := { d.sec with runMeas := m, extends_ := d.sec.extends_ + 1 } }.bufResult []).mgmtEnds 2 0

/-! ### Debug (R425, R426) -/

/-- CHALLENGE (R419, R426). -/
def Dev.challenge (d : Dev) : Dev :=
  d.mailbox ⟨0x12, 2, 0⟩ fun d _ =>
    let nonce := (List.range 32).map (Config.entropyByte d.free)
    ({ d with free := d.free + 1, sec := { d.sec with challenge := some nonce } }.bufResult (nonce ++ d.serial)).mgmtEnds 2 0

/-- A token verifies for the outstanding nonce (R426). -/
def Dev.tokenVerifies (d : Dev) (nonce t : List Byte) : Bool :=
  t.length = 0x40 + 2888 && recNum t 0 4 = 0x00010005 && 1 ≤ recNum t 4 1 && recNum t 4 1 ≤ 3 &&
  (t.drop 8).take 8 = d.serial && (t.drop 0x10).take 32 = nonce && d.blockSigns (t.drop 0x40) (t.take 0x40)

/-- What a verified token grants (R425, R426). -/
def Dev.grant (d : Dev) (t : List Byte) : Dev :=
  let d := d.set F.SEC_IRQ_STATUS_UNLOCK 1
  match recNum t 4 1 with
  | 1 => { (d.wr R.SEC_DBG_CTRL (BitVec.ofNat 32 (recNum t 5 1 % 8))) with locked := R.SEC_DBG_CTRL :: d.locked }
  | 2 => d.burnTo 2
  | _ => (d.burnTo 3).retireKey

/-- A verified token acts, and RESPOND ends. Where the host has written SEC.DBG_CTRL since RESPOND was taken, the write of Reckoner is
the second one (R426, R429). -/
def Dev.granted (d : Dev) (t : List Byte) : Dev :=
  if recNum t 4 1 = 1 && d.debugFixed then (d.set F.DEV_ERR_STATUS_LOCK_VIOL 1).mgmtEnds 6 3 else (d.grant t).mgmtEnds 2 0

/-- RESPOND (R425, R426, R429). -/
def Dev.respond (d : Dev) : Dev :=
  d.mailbox ⟨0x12, 2, 1⟩ fun d args =>
    let n := argOf args 1
    match d.sec.challenge with
      | none => d.mgmtEnds 6 0x0D
      | some nonce =>
        if n = 0 || 4096 < n then d.mgmtEnds 6 2
        else
          let t := d.buf n
          let d := d.dropChallenge.bufResult []
          if d.tokenVerifies nonce t then d.granted t else d.mgmtEnds 4 0x0C

/-! ### Rows of SEC.CMD (R427) -/

/-- A command of SEC.CMD, once the unit is reachable (Stage B). -/
def Dev.secCmd (d : Dev) (op : Nat) : Dev := if d.stage < 2 then d else (d.set F.SEC_CMD_OP op).secGo

/-- REVOKE_ROOT for root `r`. -/
def Dev.revokeRoot (d : Dev) (r : Fin 4) : Dev := if d.stage < 2 then d else ((d.set F.SEC_CMD_R r).set F.SEC_CMD_OP 3).secGo

/-! ### Board pins and the test port (R408, R414, R415) -/

/-- nFAULT is asserted (R386, R415, R438): before Stage A once the 1.8 V rail is up, then by a loss that no RESTART has ended. -/
def Dev.nFault (d : Dev) : Bool :=
  d.board.analog && (d.stage = 0 || d.clk.stopped ≠ 0 || d.flag F.DEV_STAGE_STOPPED || 2 ≤ d.get F.TELEM_THERM_LEVEL)

/-- DEV.ALERT_SRC (R408). -/
def Dev.alertSrc (d : Dev) : W32 :=
  BitVec.ofNat 32 (wordOf 22 d.blkCause + bit ((List.range 32).any d.chCause) * 2 ^ 22 + bit d.nFault * 2 ^ 23)

/-- ALERT is asserted (R313, R386, R408): from Stage A on, by an unmasked source, and while LINK.IRQ_STATUS.BREAK is set. -/
def Dev.alert (d : Dev) : Bool := 1 ≤ d.stage && (d.alertSrc &&& d.rd R.DEV_ALERT_MASK ≠ 0 || d.flag F.LINK_IRQ_STATUS_BREAK)

/-- An instruction of the test port, which answers while the supplies are good (R386): the EXTEST class acts as PARK_ALL on
entry (R414). -/
def Dev.jtag (d : Dev) (ir : BitVec 8) : Dev :=
  if !d.board.rails then d
  else
    let was := d.board.pinsTaken
    let d := { d with board := { d.board with jtag := ir } }
    if d.board.pinsTaken && !was then d.parkAll else d

/-- A test-port opcode without a public meaning (R414). -/
def privateOpcode (ir : BitVec 8) : Bool := !([0, 1, 2, 4, 5, 6, 7, 0xFF].contains ir.toNat)

end Sys2Proof.Machine
end

