-- ==== Sys2Proof/Machine/TelemOps.lean ====
section
/-! DEFINITION. Telemetry and thermal behaviour (chapter 19). -/

namespace Sys2Proof.Machine

/-- CRIT in force in °C: at most the grade's maximum + 15 (R1, TELEM.THERM). -/
def Dev.critAt (d : Dev) : Nat := min (d.get F.TELEM_THERM_CRIT) (if d.get F.DEV_ID_GRADE = 1 then 120 else 110)

/-- WARN in force in °C. -/
def Dev.warnAt (d : Dev) : Nat := min (d.get F.TELEM_THERM_WARN) d.critAt

/-- Temperature reading `i` in 1/16 °C. -/
def Dev.temp (d : Dev) (i : Nat) : Int := (BitVec.ofNat 16 (d.get (F.TELEM_TEMP_VALUE i))).toInt

/-- Valid temperature sensors. -/
def Dev.sensors (d : Dev) : List Nat := (List.range 24).filter fun i => d.flag (F.TELEM_TEMP_VALID i)

/-- Level `l` (1 WARN, 2 CRIT) holds by its threshold `t`: reached, or not yet left by the hysteresis (R438). -/
def Dev.levelHolds (d : Dev) (l t : Nat) : Bool :=
  let hyst := max 1 (d.get F.TELEM_THERM_HYST)
  d.sensors.any fun i => decide (16 * (t : Int) ≤ d.temp i) ||
    (l ≤ d.get F.TELEM_THERM_LEVEL && decide (16 * (t : Int) - 16 * (hyst : Int) ≤ d.temp i))

/-- The thermal level by the readings; a TRIP stays latched. -/
def Dev.levelBy (d : Dev) : Nat :=
  if d.tripped then 3 else if d.levelHolds 2 d.critAt then 2 else if d.levelHolds 1 d.warnAt then 1 else 0

/-- A GO taken in the present tick ends REJECTED, CRIT having been declared in it (R439). What the run's first instructions have left in
G0 to G15 and in the rings stays (log entry 46). -/
def Dev.undoGo (d : Dev) (c : Fin 32) : Dev :=
  if (d.ch c).active? && (d.ch c).goTick = d.ev.dt then d.endEarly c 6 0 else d

/-- Every GO taken in the present tick ends REJECTED. -/
def Dev.undoGos (d : Dev) : Dev := (List.finRange 32).foldl (fun (d : Dev) c => d.undoGo c) d

/-- The CRIT actions (R438, R439): every active channel stops as by PARK_ALL, its run ended ABORTED. -/
def Dev.critStop (d : Dev) : Dev :=
  ((List.finRange 32).foldl (fun (d : Dev) c => if (d.ch c).active? then d.stop c else d) d.undoGos).parkAllCheck

/-- The thermal level brought up to the readings, sensor `i` having been read last (R438). -/
def Dev.levelSync (d : Dev) (i : Nat) : Dev :=
  let old := d.get F.TELEM_THERM_LEVEL
  let new := d.levelBy
  let d := d.set F.TELEM_THERM_LEVEL new
  let d := d.setIf (old < new) F.TELEM_THERM_SENSOR i
  let d := d.setIf (old < 1 && 1 ≤ new) F.TELEM_IRQ_STATUS_WARN 1
  let d := d.setIf (new < old) F.TELEM_IRQ_STATUS_COOL 1
  if old < 2 && new = 2 then (d.set F.TELEM_IRQ_STATUS_CRIT 1).critStop else d

/-- A sensor below 125 °C shows that the TRIP condition no longer holds at its site (R438, DESIGN CHOICE, log entry 43). -/
def Dev.tripOver (d : Dev) (i : Nat) : Dev :=
  { d with board := { d.board with tripSites := d.board.tripSites &&& ~~~BitVec.twoPow 24 i } }

/-- A conversion of temperature sensor `i` (R436). -/
def Dev.tempConversion (d : Dev) (i : Nat) (valid : Bool) (v : BitVec 16) : Dev :=
  let ok := valid && decide (-880 ≤ v.toInt) && decide (v.toInt ≤ 2400)
  let d := if ok && decide (v.toInt < 2000) then d.tripOver i else d
  let d := d.setIf valid (F.TELEM_TEMP_VALUE i) v.toNat
  let d := (d.set (F.TELEM_TEMP_VALID i) (bit ok)).setIf (!ok) F.TELEM_IRQ_STATUS_SENSOR 1
  let d := if ok && decide ((BitVec.ofNat 16 (d.get F.TELEM_PEAK_VALUE)).toInt < v.toInt) then
      (d.set F.TELEM_PEAK_VALUE v.toNat).set F.TELEM_PEAK_SENSOR i
    else d
  d.levelSync i

/-- HBM.STATUS.TEMP of stack `s` takes a new value, which the spec relates to no reading (log entry 22); HOT and the
retraining it makes due follow (R326, R340). -/
def Dev.stackReading (d : Dev) (s : Nat) : Dev :=
  if d.stage < 4 then d
  else
    let t := Config.unstatedByte d.free
    let d := ({ d with free := d.free + 1 }.set (F.HBM_STATUS_TEMP s) t.toNat).set (F.HBM_STATUS_HOT s) (bit (decide (85 < t.toInt)))
    if d.flag F.MEM_RETRAIN_CFG_AUTO then
      d.makeDue ((List.range 128).filter fun p => p / 32 = s && d.drifted p)
    else d

/-- A conversion of voltage sensor `i` (R436, R437). -/
def Dev.voltConversion (d : Dev) (i : Nat) (valid : Bool) (v : BitVec 16) : Dev :=
  let d := d.set (F.TELEM_VOLT_VALID i) (bit valid)
  if !valid then d.set F.TELEM_IRQ_STATUS_SENSOR 1
  else
    let low := decide (v.toNat < d.get (F.TELEM_VLIM_LO i))
    let high := decide (d.get (F.TELEM_VLIM_HI i) < v.toNat)
    let d := ((d.set (F.TELEM_VOLT_MV i) v.toNat).set (F.TELEM_VOLT_LOW i) (bit low)).set (F.TELEM_VOLT_HIGH i) (bit high)
    d.setIf (low || high) F.TELEM_IRQ_STATUS_VOLT 1

/-- TELEM_CONVERSION (R436 to R438): sensors 0 to 23 are T0 to T23, 24 to 39 are V0 to V15. -/
def Dev.conversion (d : Dev) (s : Fin 40) (valid : Bool) (v : BitVec 16) : Dev :=
  if d.stage = 0 then d
  else if s.val < 24 then
    let d := d.tempConversion s valid v
    let d := ((List.finRange 32).filter fun c => sensorOf c = s.val).foldl (fun (d : Dev) c => d.slewCheck c) d
    if 20 ≤ s.val then d.stackReading (s - 20) else d
  else d.voltConversion (s - 24) valid v

/-- The BAR4 reads that wait complete, the stacks standing (R399, R438). -/
def Dev.loseReads (d : Dev) : Dev :=
  let d := d.hbm.reads.foldl (fun (d : Dev) r => d.bar4Lost r.1 r.2.1) d
  { d with hbm := { d.hbm with reads := [] } }

/-- TRIP (R438, R439): the CRIT actions, the safe states, every Demand and Service domain stopped, the stacks in
self-refresh, MTP writes cut off, BAR4 reads that wait completed; latched until a device reset. -/
def Dev.trip (d : Dev) (i : Fin 24) : Dev :=
  let d := if d.stage = 0 then d else { d with board := { d.board with tripSites := d.board.tripSites ||| BitVec.twoPow 24 i } }
  if d.stage = 0 || d.tripped then d
  else
    let d := d.cutWrites.undoGos
    let d := (d.set F.TELEM_THERM_LEVEL 3).set F.TELEM_THERM_SENSOR i
    let d := (d.set F.TELEM_IRQ_STATUS_TRIP 1).parkStopped.toSafe
    let d := (List.range 4).foldl (fun (d : Dev) s => if d.get (F.HBM_STATUS_POWER s) = 0 then d else d.sleepStack s) d.loseReads
    ((List.range 25).map (6 + ·) ++ [33, 34, 35, 36, 37, 41, 42, 43, 44]).foldl (fun (d : Dev) n => d.setRuns n false) d

end Sys2Proof.Machine
end

