-- ==== Sys2Proof/Machine/SramOps.lean ====
section
/-! DEFINITION. Background scrub and Sirocco over the on-chip SRAMs (chapter 14). -/

namespace Sys2Proof.Machine

/-! ### Scrub (R351, R355, R357, R457) -/

/-- A unit repaired: its correctable error is gone. -/
def Store.repair (m : Store) (x : Nat) : Store := { m with ce := m.ce.filter (· ≠ x) }

/-- Scrub reads the unit at `a` of a cluster memory or of the context or Reckoner SRAM, and writes a corrected unit back
unless another write reached it meanwhile. -/
def Dev.sramScrub (d : Dev) (m : Sram) (a : Nat) (raced : Bool) : Dev :=
  match m with
  | .oasis =>
    if d.stage < 3 || 0x4000000 ≤ a then d
    else
      let x := a / 64 * 64
      let ce := d.mem.oasis.ce.contains x && !d.mem.oasis.bad x
      let d := d.touchOasis (a / 0x800000) (a % 0x800000)
      if ce && !raced then { d with mem := { d.mem with oasis := d.mem.oasis.repair x } } else d
  | .segTable =>
    if d.stage < 3 || 0x200000 ≤ a then d
    else
      let x := a / 8 * 8
      let ce := d.mem.segtab.ce.contains x && !d.mem.segtab.bad x
      let d := d.touchSeg (a / 0x40000) (a % 0x40000)
      if ce && !raced then { d with mem := { d.mem with segtab := d.mem.segtab.repair x } } else d
  | .programStore =>
    if d.stage < 3 || 0x800000 ≤ a then d
    else
      let x := a / 8 * 8
      let ce := d.mem.prog.ce.contains x && !d.mem.prog.bad x
      let d := d.touchProg (BitVec.ofNat 5 (a / 0x40000)).toFin (a % 0x40000)
      if ce && !raced then { d with mem := { d.mem with prog := d.mem.prog.repair x } } else d
  | .context =>
    if d.stage < 2 || 0x800000 ≤ a then d
    else
      let x := a / 8 * 8
      let d := d.abandonAt .context x
      if d.mem.ctx.ue.contains x then ({ d with mem := { d.mem with ctx := d.mem.ctx.markPoison x } }).ctxError (a / 32)
      else if raced then d
      else { d with mem := { d.mem with ctx := d.mem.ctx.repair x } }
  | .reckoner =>
    if d.stage < 2 || 0x100000 ≤ a then d
    else
      let x := a / 8 * 8
      let d := d.abandonAt .reckoner x
      if d.mem.reckoner.bad x then
        { d with mem := { d.mem with reckoner := { d.mem.reckoner with ue := d.mem.reckoner.ue.filter (· ≠ x)
                                                                       poison := d.mem.reckoner.poison.filter (· ≠ x) } } }.reckonerRestart
      else if d.mem.reckoner.ce.contains x then
        let d := { d with mgmt := { d.mgmt with ce := d.mgmt.ce + 1 } }
        if raced then d else { d with mem := { d.mem with reckoner := d.mem.reckoner.repair x } }
      else d

/-! ### Sirocco (R356 to R358) -/

/-- A memory with an uncorrectable unit at `x`, unless the unit is marked already. -/
def Store.addUe (m : Store) (x : Nat) : Store := if m.bad x then m else { m with ue := m.ue ++ [x] }

/-- The units of the 64-byte word at `x` take the poison mark. -/
def Store.markWord (m : Store) (x : Nat) : Store := (unitsOf 8 x 64).foldl (fun (m : Store) u => m.markPoison u) m

/-- Regions in a pass of an engine (R351, R356). -/
def passRegions (e : Nat) : Nat := if e < 8 then 37888 else 36864

/-- Memory and address of region `i` of an engine's pass. -/
def regionAt (e i : Nat) : Sram × Nat :=
  if e < 8 then
    if i < 32768 then (.oasis, e * 0x800000 + 256 * i)
    else if i < 33792 then (.segTable, e * 0x40000 + 256 * (i - 32768))
    else (.programStore, e * 0x100000 + 256 * (i - 33792))
  else if i < 32768 then (.context, 256 * i)
  else (.reckoner, 256 * (i - 32768))

/-- The channel whose program store region `i` of cluster engine `e` lies in. -/
def regionChannel (e i : Nat) : Option (Fin 32) := if e < 8 && 33792 ≤ i then some (chanNo (4 * e + (i - 33792) / 1024)) else none

/-- Region `i` of engine `e` may be tested: it is not in the program store of a channel that runs (R356). -/
def Dev.testable (d : Dev) (e i : Nat) : Bool := match regionChannel e i with | some c => (d.ch c).quiet | none => true

/-- The first region from `i` on that engine `e` tests, program stores of running channels being skipped (R356). -/
def Dev.skipTo (d : Dev) (e : Nat) : Nat → Nat → Nat
  | 0, i => i
  | n + 1, i => if i < passRegions e && !d.testable e i then d.skipTo e n ((i - 33792) / 1024 * 1024 + 34816) else i

/-- Region `i` taken under test by engine `e`: it is read into the save copy (R356). -/
def Dev.saveRegion (d : Dev) (e i : Nat) : Dev :=
  let (m, a) := regionAt e i
  let d := (unitsOf (if m = .oasis then 64 else 8) a 256).foldl (fun (d : Dev) u => d.sramScrub m u true) d
  let store := match m with
    | .oasis => d.mem.oasis | .segTable => d.mem.segtab | .programStore => d.mem.prog | .context => d.mem.ctx | .reckoner => d.mem.reckoner
  { d with sirocco := { d.sirocco with test := d.sirocco.test.setIfInBounds e (some ⟨i, d.ev.elapsed, store.bytes a 256⟩) } }

/-- The next region of engine `e`: an abandoned one whose turn has come, else the next of the pass in ascending order (log entry
50), which ends with its last region (R356, R357). -/
def Dev.takeRegion (d : Dev) (e : Nat) : Dev :=
  let again := d.sirocco.again[e]?.getD []
  match again.find? fun p => p.2 = 0 && d.testable e p.1 with
  | some p => { d with sirocco := { d.sirocco with again := d.sirocco.again.setIfInBounds e (again.erase p) } }.saveRegion e p.1
  | none =>
    let i := d.skipTo e 4 (d.sirocco.next[e]?.getD 0)
    let ended := passRegions e ≤ i
    let d := if ended && e < 8 then d.countSat (F.CL_SIR_STATUS_PASSES e) else d
    let i := if ended then 0 else i
    { d with sirocco := { d.sirocco with next := d.sirocco.next.setIfInBounds e (i + 1) } }.saveRegion e i

/-- A region of engine `e` has been tested. -/
def Dev.regionDone (d : Dev) (e : Nat) : Dev :=
  let rest := (d.sirocco.again[e]?.getD []).map fun p => (p.1, p.2 - 1)
  { d with sirocco := { d.sirocco with test := d.sirocco.test.setIfInBounds e none, again := d.sirocco.again.setIfInBounds e rest } }

/-- EN written 0: the region under test is restored, and is the next one when the engine runs again (R356). -/
def Dev.siroccoStops (d : Dev) (e : Nat) : Dev :=
  match d.testing e with | some t => { d with sirocco := d.sirocco.giveUp e t.idx 0 } | none => d

/-- OFFSET, MEM and J of a location of a cluster's memories (CL.SIR_FAIL_ADDR). -/
def failPlace (m : Sram) (a : Nat) : Nat × Nat × Nat :=
  match m with
  | .oasis => (a % 0x800000, 0, 0)
  | .segTable => (a % 0x40000, 1, 0)
  | _ => (a % 0x40000, 2, a / 0x40000 % 4)

/-- A cell failed (R358): FAIL of a cluster and the location, captured while none is held; or the device engine's count and first
location. -/
def Dev.cellFail (d : Dev) (e : Nat) (m : Sram) (a : Nat) : Dev :=
  let p := failPlace m a
  if 8 ≤ e then
    { d with sirocco := { d.sirocco with fails := d.sirocco.fails + 1
                                         failed := if d.sirocco.failed.isSome then d.sirocco.failed else some (m, a / 64 * 64) } }
  else
    let d := d.set (F.CL_SIR_STATUS_FAIL e) 1
    if d.flag (F.CL_SIR_FAIL_ADDR_VALID e) then d
    else
      let d := (d.set (F.CL_SIR_FAIL_ADDR_OFFSET e) (p.1 / 64 * 64)).set (F.CL_SIR_FAIL_ADDR_MEM e) p.2.1
      (d.set (F.CL_SIR_FAIL_ADDR_J e) p.2.2).set (F.CL_SIR_FAIL_ADDR_VALID e) 1

/-- A 64-byte word that could not be read back is poisoned, counted and captured as a read that finds it (R353, R354, R358, R457). -/
def Dev.spoilWord (d : Dev) (m : Sram) (a : Nat) : Dev :=
  let x := a / 64 * 64
  match m with
  | .oasis => { d with mem := { d.mem with oasis := d.mem.oasis.addUe x } }.touchOasis (a / 0x800000) (a % 0x800000)
  | .segTable =>
    let d := { d with mem := { d.mem with segtab := d.mem.segtab.addUe (a / 8 * 8) } }.touchSeg (a / 0x40000) (a % 0x40000)
    { d with mem := { d.mem with segtab := d.mem.segtab.markWord x } }
  | .programStore =>
    let d := { d with mem := { d.mem with prog := d.mem.prog.addUe (a / 8 * 8) } }.touchProg (BitVec.ofNat 5 (a / 0x40000)).toFin (a % 0x40000)
    { d with mem := { d.mem with prog := d.mem.prog.markWord x } }
  | .context => ({ d with mem := { d.mem with ctx := d.mem.ctx.markWord x } }.ctxError (x / 32)).ctxError (x / 32 + 1)
  | .reckoner => { d with mem := { d.mem with reckoner := d.mem.reckoner.addUe (a / 8 * 8) } }.sramScrub .reckoner a false

/-- The march of the word at `a` ends the test of its region: clean with the last word, after 3,072 ticks at the least; at once on
a failing cell (R356, R358). -/
def Dev.marchEnds (d : Dev) (e : Nat) (m : Sram) (a : Nat) (r : MarchResult) : Dev :=
  match r with
  | .clean => d.regionDone e
  | .cellFails => (d.regionDone e).cellFail e m a
  | .unreadable => ((d.regionDone e).cellFail e m a).spoilWord m a

/-- SIROCCO_REGION (R356 to R358): engine 0 to 7 of a cluster, 8 of the device. The region under test, in which `a` lies, ends its
test, or an access that no command makes abandons it; the engine takes up its next region. -/
def Dev.siroccoRegion (d : Dev) (e : Fin 9) (m : Sram) (a : Nat) (accessed : Bool) (r : MarchResult) : Dev :=
  if !d.engineRuns e then d
  else match d.testing e with
    | none => d.takeRegion e
    | some t =>
      if regionOf m a ≠ some (e.val, t.idx) || (!accessed && r = .clean && d.ev.elapsed < t.start + 3072) then d
      else if accessed then (d.abandonAt m a).takeRegion e
      else (d.marchEnds e m a r).takeRegion e

end Sys2Proof.Machine
end

