-- ==== Sys2Proof/Machine/AbacusOps.lean ====
section
/-! DEFINITION. Abacus snapshots (R65 to R69) and the switches a profile sets (R28, R30, R70, R441). -/

namespace Sys2Proof.Machine

/-- A snapshot ends with its code. -/
def Dev.snapEnds (d : Dev) (code : Nat) : Dev :=
  { ((d.set F.ABACUS_STATUS_CODE code).set F.ABACUS_CTRL_GO 0) with snap := none }

/-- The link ports in service. -/
def Dev.portsUp (d : Dev) : List Port := [Port.e, Port.w].filter d.portUp

/-- The Demand domains of the participating units woken (R66, R67). DESIGN CHOICE, unsafe (log entry 19): a stack with no mapped
pseudo-channel, which R342 never wakes, is left as it stands. -/
def Dev.wakeUnits (d : Dev) : Dev :=
  let d := d.wakeCaravan
  let d := (List.range 8).foldl (fun (d : Dev) k => d.wakeCluster k) d
  let d := (List.range 4).foldl (fun (d : Dev) n => d.wakeChiplet n) d
  if 4 ≤ d.stage then d.liveStacks.foldl (fun (d : Dev) s => d.wakeStack s) d else d

/-- A GO of ABACUS.CTRL taken (R65 to R67). -/
def Dev.startSnap (d : Dev) : Dev :=
  let t := d.get64 R.ABACUS_TIME_LO
  let gap := (t - d.ev.dt).toNat
  let d := (d.set F.ABACUS_DONE_ALL 0).set F.ABACUS_STATUS_ABRT 0
  if !d.ev.counting then d.snapEnds 6
  else if gap < 32 || 2 ^ 63 ≤ gap then d.snapEnds 5
  else
    let pcs := (List.range 128).filter fun p => d.pcState p < 2
    let ports := d.portsUp
    let d := (d.set F.ABACUS_STATUS_CODE 1).set F.ABACUS_CTRL_GO 1
    let d := (d.set F.ABACUS_DONE_UNITS (108 + pcs.length + 2 * ports.length)).set F.ABACUS_DONE_COPIED 0
    { d.wakeUnits with snap := some ⟨t, pcs, ports, false⟩ }

/-- ABACUS_GO (R58, R65). -/
def Dev.abacusGo (d : Dev) : Dev := if d.snap.isSome then d.set F.ABACUS_CTRL_PENDING 1 else d.startSnap

/-- ABACUS_ABORT (R60, R69). -/
def Dev.abacusAbort (d : Dev) : Dev :=
  let d := d.set F.ABACUS_CTRL_PENDING 0
  match d.snap with
  | some s =>
    let gap := (s.target - d.ev.dt).toNat
    if !s.copied && 32 ≤ gap && gap < 2 ^ 63 then (d.set F.ABACUS_STATUS_ABRT 1).snapEnds 3 else d.set F.ABACUS_STATUS_ABRT 2
  | none => d.set F.ABACUS_STATUS_ABRT 2

/-- A 64-bit count copied into its holding register. -/
def Dev.copy64 (d : Dev) (src dst : Nat) : Dev := d.set64 dst (d.get64 src)

/-- The holding registers of channel `c`. -/
def Dev.copyChannel (d : Dev) (c : Fin 32) : Dev :=
  let d := d.set64 (R.CH_SEQ_SNAP c 0 0) (d.ch c).sc
  let d := (d.copy64 (R.CH_SEQ_CNT c 0 0) (R.CH_SEQ_SNAP c 1 0)).copy64 (R.CH_SEQ_CNT c 1 0) (R.CH_SEQ_SNAP c 2 0)
  (List.range 3).foldl (fun (d : Dev) m => d.copy64 (R.CH_DP_CNT c m 0) (R.CH_DP_SNAP c m 0)) d

/-- The holding registers of pseudo-channel `p`. -/
def Dev.copyPc (d : Dev) (p : Nat) : Dev :=
  (d.copy64 (R.HBM_PC_CNT (p / 32) (p % 32) 0 0) (R.HBM_PC_SNAP (p / 32) (p % 32) 0 0)).copy64
    (R.HBM_PC_CNT (p / 32) (p % 32) 1 0) (R.HBM_PC_SNAP (p / 32) (p % 32) 1 0)

/-- Both counts `m` of a pair of register arrays copied. -/
def Dev.copyTwo (d : Dev) (src dst : Nat → Nat) : Dev := (d.copy64 (src 0) (dst 0)).copy64 (src 1) (dst 1)

/-- Every participating unit copies its counters (R66, R67). -/
def Dev.copyAll (d : Dev) (s : Abacus) : Dev :=
  let d := (List.finRange 32).foldl (fun (d : Dev) c => d.copyChannel c) d
  let d := (List.range 8).foldl (fun (d : Dev) k => d.copyTwo (fun m => R.CL_PORT_BYTES k m 0) fun m => R.CL_PORT_SNAP k m 0) d
  let d := s.pcs.foldl (fun (d : Dev) p => d.copyPc p) d
  let d := (List.range 4).foldl (fun (d : Dev) h => d.copyTwo (fun m => R.HBM_CTL_CNT h m 0) fun m => R.HBM_CTL_SNAP h m 0) d
  let d := s.ports.foldl (fun (d : Dev) p => d.copyTwo (fun m => R.LINK_CNT (portIdx p) m 0) fun m => R.LINK_SNAP (portIdx p) m 0) d
  let d := (List.range 4).foldl (fun (d : Dev) m => d.copy64 (R.CARAVAN_CNT m 0) (R.CARAVAN_SNAP m 0)) d
  let d := (List.range 4).foldl (fun (d : Dev) m => d.copy64 (R.EVT_CNT m 0) (R.EVT_SNAP m 0)) d
  (List.range 16).foldl (fun (d : Dev) i => d.wr (R.EVT_TRIG_SNAP i) (d.rd (R.EVT_TRIG_CNT i))) d

/-- ABACUS_COPY (R66): at tick T the units copy. -/
def Dev.abacusCopy (d : Dev) : Dev :=
  match d.snap with
  | some s =>
    if !s.copied && d.ev.counting && notAfter s.target d.ev.dt then
      let d := { (d.copyAll s) with snap := some { s with copied := true } }
      d.set F.ABACUS_DONE_COPIED (d.get F.ABACUS_DONE_UNITS)
    else d
  | none => d

/-- ABACUS_DONE (R68): every unit has copied; a queued GO is taken. -/
def Dev.abacusDone (d : Dev) : Dev :=
  match d.snap with
  | some s =>
    if s.copied then
      let d := (d.set F.ABACUS_DONE_ALL 1).snapEnds 2
      if d.flag F.ABACUS_CTRL_PENDING then (d.set F.ABACUS_CTRL_PENDING 0).startSnap else d
    else d
  | none => d

/-! ### Profiles -/

/-- The sample rate that a profile gives chiplet `n`: a new value, held while the chiplet still changes rate. -/
def Dev.profileRate (d : Dev) (v : Nat) (n : Fin 4) : Dev :=
  let d := d.dropPending (rateFld n)
  if d.flag (rateBusy n) then d.hold R.TELEM_SW_RATE (rateFld n).mask (BitVec.ofNat 32 (v * 4 ^ n.val)) .idle else d.beginRate n v

/-- Rotation and event mode as every profile sets them. -/
def Dev.profileChannel (d : Dev) (c : Fin 32) : Dev :=
  let d := (d.dropPending (F.CH_DAC_CTRL_ROT c)).dropPending (F.CH_SEQ_MODE_EVMODE c)
  ((d.set (F.CH_DAC_CTRL_ROT c) 1).set (F.CH_SEQ_MODE_EVMODE c) 0).roleMix c

/-- The switches of profile `p` written, each under its own acceptance rule (R28, R30, R70, R441). -/
def Dev.takeProfile (d : Dev) (p : Nat) : Dev :=
  let d := (List.finRange 4).foldl (fun (d : Dev) n => d.profileRate p n) d
  let d := d.hold R.MEM_FREQ_CTRL F.MEM_FREQ_CTRL_RATE.mask (BitVec.ofNat 32 p) .idle
  let d := (List.finRange 32).foldl (fun (d : Dev) c => d.profileChannel c) d
  let d := (List.range 6).foldl (fun (d : Dev) m => d.set (F.MEM_QOS_SCHEME m) (bit (m = 0))) d
  (d.set F.TELEM_PWR_CL_GATED (if p = 2 then 0xFF else 0)).profileSync

/-- PROFILE_APPLY (R70): the written profile reaches its IDLE point, with every channel idle. -/
def Dev.profileApply (d : Dev) : Dev :=
  match d.pendingOf F.DEV_PROFILE_PROFILE with
  | none => d
  | some (p, acc) =>
    if (List.finRange 32).all (fun c => (d.ch c).st = .idle) && acc + 2 ≤ d.ev.elapsed then
      (d.dropPending F.DEV_PROFILE_PROFILE).takeProfile p
    else d

end Sys2Proof.Machine
end

