-- ==== Sys2Proof/Machine/Live.lean ====
section
/-! DEFINITION. What a host read of BAR0 returns (R42 to R46, R53, R55): the register bank with the fields that stand in the
state's structure laid over it, the apply-pending mirror, the alias windows and the memory-like windows. -/

namespace Sys2Proof.Machine

/-- A register's word with some of its fields replaced. -/
def overlay (w : W32) (ps : List (Fld × Nat)) : W32 := ps.foldl (fun w p => p.1.write w p.2) w

/-- Values of CH.SEQ_STATUS.STATE. -/
def ChSt.num : ChSt → Nat
  | .idle => 0 | .armed => 1 | .run => 2 | .halted => 3 | .drain => 4 | .faulted => 5

/-- Values of CH.SEQ_STATUS.STALL. -/
def Stall.num : Stall → Nat
  | .none => 0 | .runahead => 1 | .queueFull => 2 | .decision => 3 | .ring => 4 | .event => 5 | .wake => 6 | .busy => 7

/-- CH.SEQ_STATUS as read. The start wait of an EVENT start is a declared wait (R81), so STALL reads EVENT in ARMED
(DEDUCED, log entry 33). -/
def Dev.seqStatus (d : Dev) (c : Fin 32) : W32 :=
  let x := d.ch c
  overlay (d.rd (R.CH_SEQ_STATUS c))
    [(F.CH_SEQ_STATUS_STATE c, x.st.num), (F.CH_SEQ_STATUS_STALL c, if x.st = .armed then 5 else if x.quiet then 0 else x.stall.num), (F.CH_SEQ_STATUS_QDEPTH c, x.queue.length),
     (F.CH_SEQ_STATUS_RDEPTH c, x.rets.length), (F.CH_SEQ_STATUS_LDEPTH c, x.loops.length)]

/-- Levels of pattern pin `i` of chiplet `n` in the samples of tick DT (R207, R208, R366, R374). -/
def Dev.patTrain (d : Dev) (n i : Nat) : List Bool :=
  let c := chanNo (8 * n + d.get (F.PAT_SEL_CH n i))
  let still (v : Bool) : List Bool := List.replicate (d.spt c) v
  if d.clk.safe || d.stage = 0 || d.flag F.CLK_SPLL_STATUS_MUTED then still false
  else match d.get (F.PAT_SEL_MODE n i) with
    | 1 => ((d.markerTrain c (d.get (F.PAT_SEL_BIT n i))).drop 1).map (· != d.flag (F.PAT_SEL_INV n i))
    | 2 => still true
    | _ => still false

/-- Level of pattern pin `i` of chiplet `n` in sample 0 of tick DT. -/
def Dev.patLevel (d : Dev) (n i : Nat) : Bool := (d.patTrain n i).headD false

/-- CH.CAL_AGE as read (R243). -/
def Dev.calAge (d : Dev) (c : Fin 32) : W32 :=
  overlay (d.rd (R.CH_CAL_AGE c))
    [(F.CH_CAL_AGE_SECONDS c, min 0xFFFFFF ((d.ev.elapsed - (d.outVal c).ran) / seconds 1)),
     (F.CH_CAL_AGE_DEG c, min 0x7F (tempMove (d.tempWord c) (d.outVal c).temp))]

/-- DEV.PIN_STATUS as read. -/
def Dev.pinStatus (d : Dev) : W32 :=
  overlay (d.rd R.DEV_PIN_STATUS)
    [(F.DEV_PIN_STATUS_TRIG, d.ev.sampled.toNat), (F.DEV_PIN_STATUS_SYNCIN, bit (Config.syncinLevel d.ev.elapsed)),
     (F.DEV_PIN_STATUS_NFAULT, bit d.nFault), (F.DEV_PIN_STATUS_ALERT, bit d.alert)]

/-- Registers of the blocks below 0x100_0000 that the state's structure holds. -/
def Dev.liveBlock (d : Dev) (base : Nat) (i : Nat) (w : W32) : W32 :=
  if base = R.DEV_IRQ_CH then BitVec.ofNat 32 d.irqCh
  else if base = R.DEV_IRQ_BLK then BitVec.ofNat 32 d.irqBlk
  else if base = R.DEV_ALERT_SRC then d.alertSrc
  else if base = R.DEV_PIN_STATUS then d.pinStatus
  else if base = R.CLK_RUN 0 then BitVec.ofNat 32 (wordOf 32 fun b => 32 * i + b < 44 && d.clocked (32 * i + b + 1))
  else if base = R.DEV_MSIX_PBA 0 then BitVec.ofNat 32 (wordOf 32 fun b => d.msix.latch.contains (32 * i + b))
  else if base = R.EVT_DT 0 then if i = 0 then d.ev.dt.setWidth 32 else (d.ev.dt >>> 32).setWidth 32
  else if base = R.EVT_STATUS then
    overlay w [(F.EVT_STATUS_COUNTING, bit d.ev.counting), (F.EVT_STATUS_COAST, bit d.coasting)]
  else if base = R.CARAVAN_STAT_Q then overlay w [(F.CARAVAN_STAT_Q_DEPTH, d.rings.statusQ.length)]
  else w

/-- Registers of a CL block, of cluster `k` and place `j`, that the state's structure holds. -/
def Dev.liveCl (d : Dev) (base k j : Nat) (w : W32) : W32 :=
  let x := d.ch (chanNo (4 * k + j))
  if base = R.CL_STAGE_STAT 0 0 then
    overlay w [(F.CL_STAGE_STAT_FILL k j, x.stageFill / 32), (F.CL_STAGE_STAT_PANIC k j, bit x.panic)]
  else if base = R.CL_EV_STAT 0 0 then overlay w [(F.CL_EV_STAT_WAITING k j, x.store.length)]
  else if base = R.PAT_LEVEL 0 then BitVec.ofNat 32 (wordOf 16 (d.patLevel k))
  else w

/-- Registers of a CH block that the state's structure holds. CH.SEQ_PC reads 0 while the next fetch would be from address
32,768 (DESIGN CHOICE, log entry 46). -/
def Dev.liveCh (d : Dev) (base : Nat) (c : Fin 32) (i : Nat) (w : W32) : W32 :=
  let x := d.ch c
  if base = R.CH_SEQ_STATUS 0 then d.seqStatus c
  else if base = R.CH_SEQ_SC 0 0 then if i = 0 then x.sc.setWidth 32 else (x.sc >>> 32).setWidth 32
  else if base = R.CH_SEQ_PC 0 then x.pc.setWidth 32 &&& 0x7FFF
  else if base = R.CH_SEQ_G 0 0 then x.g.toList.getD i 0
  else if base = R.CH_SEQ_L 0 0 then x.l.toList.getD i 0
  else if base = R.CH_NCO_MIX 0 then (w &&& 0xFFFFFE00) ||| x.mixWord
  else if base = R.CH_NCO_OSC 0 0 then
    (w &&& 0xFF000000) ||| x.oscWord ⟨i % 8, Nat.mod_lt _ (by decide)⟩
  else if base = R.CH_CAL_AGE 0 then d.calAge c
  else if base = R.CH_CAL_QUAL 0 then overlay w [(F.CH_CAL_QUAL_INL c, min 0xFFF (d.calInl c))]
  else if base = R.CH_CAL_TEMP 0 then
    overlay w [(F.CH_CAL_TEMP_AT_RUN c, (d.outVal c).temp.toNat)]
  else w

/-- The word a read of the register at dword address `a` returns (R46, R48); none where R45 reserves the address. -/
def Dev.liveWord? (d : Dev) (a : Nat) : Option W32 :=
  match cardAt a with
  | none => none
  | some (card, ix) =>
    let w := d.rd a
    some <|
      if a < 0x1000000 then d.liveBlock card.base (ix.headD 0) w
      else if a < 0x2000000 then d.liveCl card.base (ix.headD 0) (ix.getD 1 0) w
      else d.liveCh card.base (chanNo (ix.headD 0)) (ix.getD 1 0) w

/-- The word a read of the register at `a` returns, 0 where there is none. -/
def Dev.liveWord (d : Dev) (a : Nat) : W32 := (d.liveWord? a).getD 0

/-- An access error (R42, R44, R56, R62): its DEV.ERR_STATUS bit, and its address while DEV.ERR_ADDR holds none (R72). -/
def Dev.accessError (d : Dev) (kind a : Nat) : Dev :=
  let d := d.set ⟨R.DEV_ERR_STATUS, kind, 1⟩ 1
  if d.flag F.DEV_ERR_ADDR_VALID then d
  else d.wr R.DEV_ERR_ADDR (BitVec.ofNat 32 (a % 2 ^ 28 + kind * 2 ^ 28 + 2 ^ 31))

/-- The apply-pending word of the register at `a` (R53). -/
def Dev.pendingWord (d : Dev) (a : Nat) : W32 :=
  if d.staged.any (·.1 = a) then 0xFFFFFFFF else d.pend.foldl (fun w p => if p.addr = a then w ||| p.mask else w) 0

/-- The register address and bit that an alias address names (R54); none outside the alias windows. -/
def aliasOf (a : Nat) : Option (Nat × Nat) :=
  if 0x4000000 ≤ a && a < 0x6000000 then
    let o := a - 0x4000000
    some (o / 128 * 4, o / 4 % 32)
  else if 0x6000000 ≤ a && a < 0x6400000 then
    let o := a - 0x6000000
    some (0x2000000 + o / 0x20000 * 0x100000 + o % 0x20000 / 128 * 4, o / 4 % 32)
  else none

/-- The memory-like windows of R43. -/
inductive Window
  | context (off : Nat)
  | segTable (k : Fin 8) (off : Nat)
  | program (c : Fin 32) (off : Nat)
  | oasis (k : Fin 8) (off : Nat)
deriving DecidableEq, Repr

/-- Cluster number of an index. -/
abbrev clNo (n : Nat) : Fin 8 := ⟨n % 8, Nat.mod_lt _ (by decide)⟩

/-- The window that holds a BAR0 address, and the offset in it (R45). -/
def windowOf (a : Nat) : Option Window :=
  if 0x800000 ≤ a && a < 0x1000000 then some (.context (a - 0x800000))
  else if 0x1000000 ≤ a && a < 0x1800000 && 0x40000 ≤ a % 0x100000 && a % 0x100000 < 0x80000 then
    some (.segTable (clNo ((a - 0x1000000) / 0x100000)) (a % 0x100000 - 0x40000))
  else if 0x2000000 ≤ a && a < 0x4000000 && 0x40000 ≤ a % 0x100000 && a % 0x100000 < 0x80000 then
    some (.program (chanNo ((a - 0x2000000) / 0x100000)) (a % 0x100000 - 0x40000))
  else if 0xC000000 ≤ a && a < 0x10000000 then
    some (.oasis (clNo ((a - 0xC000000) / 0x800000)) ((a - 0xC000000) % 0x800000))
  else none

/-- A host access wakes the Demand domain of its block (R25, R432). -/
def Dev.wakeFor (d : Dev) (a : Nat) : Dev :=
  if 0x100000 ≤ a && a < 0x140000 then d.wakeStack ((a - 0x100000) / 0x10000)
  else if 0x200000 ≤ a && a < 0x1000000 then d.wakeCaravan
  else if 0x1000000 ≤ a && a < 0x1800000 then
    let b := (a - 0x1000000) / 0x100000
    if 0x80000 ≤ a % 0x100000 then d.wakeChiplet (b / 2) else d.wakeCluster b
  else if 0x2000000 ≤ a && a < 0x4000000 then
    let c := (a - 0x2000000) / 0x100000
    let d := d.wakeCluster (c / 4)
    if 0x600 ≤ a % 0x100000 && a % 0x100000 < 0x700 then d.wakeChiplet (c / 8) else d
  else if 0xC000000 ≤ a && a < 0x10000000 then d.wakeCluster ((a - 0xC000000) / 0x800000)
  else d

/-- Host reads of BAR0 registers: one dword at `a` (R44, R46, R53, R55). -/
def Dev.readDword (d : Dev) (a : Nat) : Dev × W32 :=
  if 0x8000000 ≤ a && a < 0xC000000 then (d, d.pendingWord (a - 0x8000000))
  else match aliasOf a with
    | some (r, b) =>
      match (d.wakeFor r).liveWord? r with
      | some w => (d.wakeFor r, w >>> b &&& 1)
      | none => (d.accessError 1 a, 0)
    | none =>
      match (d.wakeFor a).liveWord? a with
      | some w => (d.wakeFor a, w)
      | none => (d.accessError 1 a, 0)

end Sys2Proof.Machine
end

