-- ==== Sys2Proof/Machine/RegIf.lean ====
section
/-! DEFINITION. Host writes to BAR0 (R42 to R63): access classes, apply points, pairs, the alias windows, the LOCK register,
and what a write of each command bit starts. -/

namespace Sys2Proof.Machine

/-- The bits that byte enables select. -/
def byteMask (be : BitVec 4) : W32 := mergeBytes 0 be 0xFFFFFFFF

/-- The fields of a card as writes see them: each pair of TELEM.SW_RATE.RATE_d is a field of its own (R51). -/
def Card.writeFields (c : Card) : List FieldSpec :=
  if c.base = R.TELEM_SW_RATE then (List.range 4).map (fun i => ⟨2 * i, 2, .rwh, .idle, 0⟩) ++ c.fields.drop 1 else c.fields

/-- The bits of a card's fields of some classes. -/
def Card.bitsOf (c : Card) (p : Cls → Bool) : W32 :=
  c.fields.foldl (fun w f => if p f.cls then w ||| (⟨0, f.lo, f.len⟩ : Fld).mask else w) 0

/-- A value whose write is ignored (R51). -/
def ignoredValue (base : Nat) (ix : List Nat) (lo v : Nat) : Bool :=
  (base = R.DEV_PROFILE && lo = 0 && 2 < v) || (base = R.CH_DAC_CTRL 0 && lo = 0 && v = 3) ||
  (base = R.MEM_FREQ_CTRL && lo = 0 && v = 3) || (base = R.TELEM_SW_RATE && lo < 8 && v = 3) ||
  (base = R.MEM_QOS 0 && lo = 0 && v = 1 && ix ≠ [0])

/-- A field's value as a further write of some of its bits finds it: the held value, else the value in force. -/
def Dev.heldValue (d : Dev) (f : Fld) : Nat := match d.pendingOf f with | some p => p.1 | none => d.get f

/-- One field written: the bits of `m` take those of `v` (R42, R48, R50, R51). -/
def Dev.writeField (d : Dev) (a base : Nat) (ix : List Nat) (m v : W32) (s : FieldSpec) : Dev :=
  let f : Fld := ⟨a, s.lo, s.len⟩
  if f.mask &&& m = 0 then d
  else match s.cls with
    | .ro | .cmd | .w1s | .lock => d
    | .w1c => d.wr a (d.rd a &&& ~~~(v &&& m &&& f.mask))
    | .rw | .rwh =>
      let old := if s.ap = .imm then d.get f else d.heldValue f
      let new := f.read ((f.write 0 old &&& ~~~m) ||| (v &&& m))
      if ignoredValue base ix s.lo new then d
      else if s.ap = .imm then d.set f new
      else d.hold a f.mask (f.write 0 new) s.ap

/-! ### Register pairs (R63) -/

/-- Cards that are a writable pair of LO and HI. -/
def pairBases : List Nat :=
  [R.CH_SEQ_START 0 0, R.CH_SEQ_CNT 0 0 0, R.CL_FILL_SRC 0 0, R.CL_PORT_BYTES 0 0 0, R.CH_LEDGER_STG_FTW 0 0,
   R.CH_LEDGER_STG_PHI 0 0, R.CH_LEDGER_STG_T0 0 0, R.CH_DP_CNT 0 0 0, R.EVT_DT_LOAD 0, R.EVT_HOST_T 0, R.EVT_TMR_START 0 0,
   R.EVT_CNT 0 0, R.CARAVAN_CNT 0 0, R.LINK_HOST_T 0, R.LINK_CNT 0 0 0, R.HBM_CTL_CNT 0 0 0, R.HBM_PC_CNT 0 0 0 0]

/-- The LO address of the pair a register belongs to, and whether the register is its HI half. -/
def pairOf (card : Card) (ix : List Nat) (a : Nat) : Option (Nat × Bool) :=
  if card.base = R.ABACUS_TIME_LO then some (a, false)
  else if card.base = R.ABACUS_TIME_HI then some (a - 4, true)
  else if pairBases.contains card.base then some (if ix.getLast?.getD 0 = 0 then (a, false) else (a - 4, true))
  else none

/-- The register at an address is the HI half of a writable pair. -/
def isPairHi (a : Nat) : Bool :=
  match cardAt a with
  | some (card, ix) => pairOf card ix a = some (a - 4, true)
  | none => false

/-- The value that a written half is merged over: what is held for it, else what is in force. -/
def Dev.halfHeld (d : Dev) (a : Nat) : W32 :=
  match d.staged.find? (·.1 = a) with
  | some p => p.2
  | none => match d.pend.find? (·.addr = a) with
    | some p => (d.rd a &&& ~~~p.mask) ||| p.val
    | none => d.rd a

/-- One half of a pair written: LO is staged, HI commits both (R63). -/
def Dev.pairWrite (d : Dev) (card : Card) (lo : Nat) (hi : Bool) (m v : W32) : Dev :=
  let fm := card.bitsOf fun c => c = .rw || c = .rwh
  let merged (a : Nat) : W32 := ((d.halfHeld a &&& ~~~m) ||| (v &&& m)) &&& fm
  let rest := d.staged.filter (·.1 ≠ lo)
  if !hi then { d with staged := rest ++ [(lo, merged lo)] }
  else
    let ap := (card.fields.headD ⟨0, 0, .ro, .imm, 0⟩).ap
    let low := match d.staged.find? (·.1 = lo) with | some p => p.2 | none => d.rd lo
    let d' := { d with staged := rest }
    if ap = .imm then (d'.wr lo low).wr (lo + 4) (merged (lo + 4))
    else (d'.hold lo 0xFFFFFFFF low ap).hold (lo + 4) 0xFFFFFFFF (merged (lo + 4)) ap

/-! ### Commands started by writes -/

/-- GO of a channel and what it meets: the cluster and the chiplet wake (R225, R432), an IDLE calibration run is preempted by a GO taken
in IDLE, however that ends (R239), and a run that begins fails a phase of forming (R307). -/
def Dev.goNow (d : Dev) (c : Fin 32) : Dev :=
  let d' := ((d.wakeCluster (clu c)).wakeChiplet (chiplet c)).go c
  let e := if (d.ch c).st = .idle && !d.goHeld c then d'.preempt c else d'
  if !(d.ch c).active? && (d'.ch c).active? && e.linkState = 1 then (e.phaseFails 4).nextLinkCmd else e

/-- A write of 1 to CH.SEQ_CTRL.GO (R58, R94): taken at the next tick boundary in IDLE and FAULTED, queued while GO reads 1. -/
def Dev.goWrite (d : Dev) (c : Fin 32) : Dev :=
  if (d.ch c).quiet && !(d.ch c).goReq then (d.set (F.CH_SEQ_CTRL_GO c) 1).modCh c fun x => { x with goReq := true }
  else d.set (F.CH_SEQ_CTRL_PENDING c) 1

/-- A GO that waits is taken (R94). -/
def Dev.goWaiting (d : Dev) (c : Fin 32) : Dev := if (d.ch c).goReq && (d.ch c).quiet then d.goNow c else d

/-- An operation run when a bit is written as 1. -/
def Dev.onBit (d : Dev) (w : W32) (i : Nat) (f : Dev → Dev) : Dev := if w.getLsbD i then f d else d

/-- DBG_CTRL_WRITE (R61, R62, R425): the one LOCK register. -/
def Dev.dbgCtrlWrite (d : Dev) (be : BitVec 4) (v : W32) : Dev :=
  let w := mergeBytes 0 be v &&& 7
  if d.debugFixed then d.accessError 0 R.SEC_DBG_CTRL
  else if (d.lifecycle = 1 || d.lifecycle = 3) && w ≠ 0 then d.accessError 0 R.SEC_DBG_CTRL
  else { (d.wr R.SEC_DBG_CTRL w) with locked := d.locked ++ [R.SEC_DBG_CTRL] }

/-- The latch of vector `v` set again while its summary bit is 1 (R404). -/
def Dev.msixRearm (d : Dev) (v : Nat) : Dev :=
  let on (i : Nat) : Bool := d.summary.getLsbD i && vectorOf i = v
  if (List.range 54).any on && !d.msix.latch.contains v then
    { d with msix := { d.msix with latch := d.msix.latch ++ [v] } }
  else d

/-- MSIX_REARM through DEV.MSIX_REARM_w: every bit written 1. -/
def Dev.rearmWord (d : Dev) (i : Nat) (w : W32) : Dev :=
  (List.range 32).foldl (fun (d : Dev) b => d.onBit w b fun d => d.msixRearm (32 * i + b)) d

/-- CARAVAN.CMD.GO with the ring and operation its register holds (R271). -/
def Dev.caravanGo (d : Dev) : Dev :=
  let q := d.get F.CARAVAN_CMD_Q
  match d.get F.CARAVAN_CMD_OP with
  | 0 => d.bind q
  | 1 => d.unbind q
  | 2 => d.recheck q
  | _ => d.caravanEnds 6 7

/-- A write to a register of the DEV, CLK, ABACUS, EVT, SEC or MGMT block has its effect; `w` holds the bits written 1. -/
def Dev.afterLow (d : Dev) (base : Nat) (ix : List Nat) (w : W32) : Dev :=
  if base = R.DEV_CTRL then d.onBit w 1 Dev.parkAll
  else if base = R.DEV_ERR_STATUS then if d.rd R.DEV_ERR_STATUS = 0 then d.set F.DEV_ERR_ADDR_VALID 0 else d
  else if base = R.DEV_RST then d.onBit w 0 Dev.deviceReset
  else if base = R.DEV_RST_CH then d.onBit w 5 fun d => d.channelReset (chanNo (d.get F.DEV_RST_CH_C))
  else if base = R.DEV_MSIX_REARM 0 then d.rearmWord (ix.headD 0) w
  else if base = R.CLK_SPLL_CTRL then d.onBit w 0 Dev.spllApply
  else if base = R.CLK_SYNC_CFG then d.onBit w 8 Dev.emitSync
  else if base = R.CLK_CMD then (d.onBit w 0 Dev.restart).onBit w 1 Dev.sysApply
  else if base = R.ABACUS_CTRL then (d.onBit w 1 Dev.abacusAbort).onBit w 0 Dev.abacusGo
  else if base = R.EVT_CTRL then d.onBit w 0 Dev.dtLoad
  else if base = R.EVT_HOST_EV then d.onBit w 9 Dev.hostEvGo
  else if base = R.SEC_CMD then d.onBit w 6 Dev.secGo
  else if base = R.MGMT_CMD then (d.onBit w 9 Dev.mgmtAbort).onBit w 8 Dev.mgmtGo
  else d

/-- A write to a register of the TELEM, LINK, HBM, MEM or CARAVAN block has its effect. -/
def Dev.afterMid (d : Dev) (base : Nat) (w : W32) : Dev :=
  if base = R.TELEM_PWR_CL || base = R.MEM_QOS 0 then d.profileSync
  else if base = R.LINK_CMD then ((d.onBit w 1 Dev.linkAbort).onBit w 0 Dev.form).onBit w 2 Dev.leave
  else if base = R.LINK_HOST_EV then d.onBit w 8 Dev.linkHostEv
  else if base = R.MEM_FENCE then d.onBit w 0 Dev.fence
  else if base = R.MEM_MAP_CTRL then d.onBit w 0 Dev.remap
  else if base = R.MEM_TRAIN_CMD then d.onBit w 8 Dev.retrain
  else if base = R.MEM_IRQ_STATUS then
    (d.setIf (!d.flag F.MEM_IRQ_STATUS_UE) ⟨R.MEM_ADDR 0 1, 31, 1⟩ 0).setIf (!d.flag F.MEM_IRQ_STATUS_BEYOND) ⟨R.MEM_ADDR 1 1, 31, 1⟩ 0
  else if base = R.CARAVAN_CMD then d.onBit w 20 Dev.caravanGo
  else if base = R.CARAVAN_IRQ_STATUS then
    d.setIf (!(d.flag F.CARAVAN_IRQ_STATUS_DB_ERR || d.flag F.CARAVAN_IRQ_STATUS_RING_ERR || d.flag F.CARAVAN_IRQ_STATUS_CTX_DENIED))
      F.CARAVAN_ERR_VALID 0
  else d

/-- A write to a register of a CL block has its effect. -/
def Dev.afterCl (d : Dev) (base : Nat) (ix : List Nat) (w : W32) : Dev :=
  let k := clNo (ix.headD 0)
  if base = R.CL_STAGE_CTRL 0 0 then d.panicCheck (chanNo (4 * k.val + ix.getD 1 0))
  else if base = R.CL_FILL_CTRL 0 then (d.onBit w 1 (·.fillAbort k)).onBit w 0 (·.fillGo k)
  else if base = R.CL_SIR_CTRL 0 then if d.flag (F.CL_SIR_CTRL_EN k) then d else d.siroccoStops k
  else if base = R.CL_SIR_STATUS 0 then d.setIf (!d.flag (F.CL_SIR_STATUS_FAIL k)) (F.CL_SIR_FAIL_ADDR_VALID k) 0
  else d

/-- A write to a register of a CH block has its effect. STOP acts before the other command bits of the same write. -/
def Dev.afterCh (d : Dev) (base : Nat) (c : Fin 32) (w : W32) : Dev :=
  if base = R.CH_SEQ_CTRL 0 then
    ((((d.onBit w 1 (·.stop c)).onBit w 0 (·.goWrite c)).onBit w 2 (·.brk c)).onBit w 3 (·.resume c)).onBit w 4 (·.step c)
  else if base = R.CH_SEQ_FAULT 0 then d.onBit w 0 (·.faultClear c)
  else if base = R.CH_LEDGER_CMD 0 then
    let l := BitVec.ofNat 8 (d.get (F.CH_LEDGER_CMD_SLOT c))
    if w.getLsbD 8 then d.ledgerWr c l (w.getLsbD 9) else d.onBit w 9 (·.ledgerRd c l)
  else if base = R.CH_CAL_CTRL 0 then ((d.dueSync c).onBit w 14 (·.calRun c)).onBit w 15 (·.calSave c)
  else if base = R.CH_CAL_ABORT 0 then d.abortCleared c
  else d

/-- What a write to a register starts, after its fields are written. -/
def Dev.afterWrite (d : Dev) (a base : Nat) (ix : List Nat) (w : W32) : Dev :=
  if a < 0x60000 then d.afterLow base ix w
  else if a < 0x1000000 then d.afterMid base w
  else if a < 0x2000000 then d.afterCl base ix w
  else d.afterCh base (chanNo (ix.headD 0)) w

/-- Registers that the state's structure holds: G, the oscillators, the FIR coefficients, the head entries, SEC.DBG_CTRL.
None for every other register. -/
def Dev.ownWrite (d : Dev) (base : Nat) (ix : List Nat) (be : BitVec 4) (v : W32) : Option Dev :=
  let i := ix.headD 0
  let j := ix.getD 1 0
  if base = R.SEC_DBG_CTRL then some (d.dbgCtrlWrite be v)
  else if base = R.CL_TGT_CFG 0 0 0 then
    some (d.tgtCfgWrite (chanNo (4 * i + j)) ⟨ix.getD 2 0 % 16, Nat.mod_lt _ (by decide)⟩ be v)
  else if base = R.CH_SEQ_G 0 0 then some (d.gWrite (chanNo i) ⟨j % 16, Nat.mod_lt _ (by decide)⟩ be v)
  else if base = R.CH_NCO_MIX 0 then some (d.ncoWrite (chanNo i) 0 be v)
  else if base = R.CH_NCO_OSC 0 0 then some (d.ncoWrite (chanNo i) ⟨(j % 8) + 1, by omega⟩ be v)
  else if base = R.CH_FIR_COEF 0 0 0 then
    some (d.firCoefWrite (chanNo i) ⟨j % 2, Nat.mod_lt _ (by decide)⟩ ⟨ix.getD 2 0 % 32, Nat.mod_lt _ (by decide)⟩ be v)
  else none

/-- The bits `m` of the register at `a` written with `v`; `be` are the byte enables of the access. -/
def Dev.writeReg (d : Dev) (card : Card) (ix : List Nat) (a : Nat) (be : BitVec 4) (m v : W32) : Dev :=
  match pairOf card ix a with
  | some (lo, hi) => d.pairWrite card lo hi m v
  | none =>
    let ones := v &&& m &&& card.bitsOf (· = .w1c)
    let clears := if ones = 0 then d else d.wr a (d.rd a &&& ~~~ones)
    match clears.ownWrite card.base ix be v with
    | some d => d
    | none => (card.writeFields.foldl (fun (d : Dev) f => d.writeField a card.base ix m v f) d).afterWrite a card.base ix (v &&& m)

/-! ### Accesses -/

/-- Consecutive bytes written through a memory-like window: one access of its memory (R43, R359). -/
def Dev.windowWrite (d : Dev) (bs : List Byte) : Window → Dev
  | .context off => d.contextWrite off bs
  | .segTable k off => d.descriptorWrite k off bs
  | .program c off => d.progWrite c off bs
  | .oasis k off => d.oasisWrite k off bs

/-- The runs of enabled bytes from address `a` on, each with its address. -/
def enabledRuns (a : Nat) : List (Bool × Byte) → List (Nat × List Byte)
  | [] => []
  | (false, _) :: rest => enabledRuns (a + 1) rest
  | (true, b) :: rest =>
    match enabledRuns (a + 1) rest with
    | (x, bs) :: more => if x = a + 1 then (a, b :: bs) :: more else (a, [b]) :: (x, bs) :: more
    | [] => [(a, [b])]

/-- The bytes of a dword, each with its byte enable. -/
def dwordBytes (p : BitVec 4 × W32) : List (Bool × Byte) := (List.range 4).map fun i => (p.1.getLsbD i, (p.2 >>> (8 * i)).setWidth 8)

/-- A write through a memory-like window: its enabled bytes go to the memory as one access, or as one for each run where the byte
enables leave holes (R43; log entry 35). -/
def Dev.windowAccess (d : Dev) (a : Nat) (ds : List (BitVec 4 × W32)) : Dev :=
  (enabledRuns a (ds.flatMap dwordBytes)).foldl (fun (d : Dev) r =>
    match windowOf r.1 with
    | some w => (d.wakeFor r.1).windowWrite r.2 w
    | none => d) (d.wakeFor a)

/-- A write of one register dword (R42, R44). -/
def Dev.registerDword (d : Dev) (a : Nat) (be : BitVec 4) (v : W32) : Dev :=
  match cardAt a with
  | none => d.accessError 1 a
  | some (card, ix) => (d.wakeFor a).writeReg card ix a be (byteMask be) v

/-- A write of bit 0 through an alias address: the one bit of the register is written (R54 to R56). -/
def Dev.aliasDword (d : Dev) (a r b : Nat) (v : Bool) : Dev :=
  match cardAt r with
  | none => d.accessError 1 a
  | some (card, ix) =>
    let one : W32 := BitVec.twoPow 32 b
    if card.bitsOf (· = .lock) &&& one ≠ 0 then d.accessError 2 a
    else if card.bitsOf (· = .ro) &&& one ≠ 0 then d.wakeFor r
    else
      let kept := d.liveWord r &&& card.bitsOf (fun c => c = .rw || c = .rwh) &&& ~~~one
      (d.wakeFor r).writeReg card ix r 0xF one (kept ||| if v then one else 0)

/-- A write of one dword that reaches the register fabric, from the host or SMBus, with its byte enables (R42 to R47, R53).
DESIGN CHOICE, unsafe (log entry 19): an error captures the address of the dword, and a misaligned write sets BAD_WIDTH alone,
also at a reserved address and in the apply-pending mirror. -/
def Dev.fabricWrite (d : Dev) (a : Nat) (be : BitVec 4) (v : W32) : Dev :=
  if (windowOf a).isSome then d.windowAccess a [(be, v)]
  else if a % 4 ≠ 0 then d.accessError 3 a
  else if 0x8000000 ≤ a && a < 0xC000000 then d
  else match aliasOf a with
    | some (r, b) => if be.getLsbD 0 then d.aliasDword a r b (v.getLsbD 0) else d
    | none => d.registerDword a be v

/-- A host write of one dword of BAR0 with its byte enables. -/
def Dev.hostWrite (d : Dev) (a : Nat) (be : BitVec 4) (v : W32) : Dev :=
  if d.hostReach && be ≠ 0 then d.fabricWrite a be v else d

/-- COLLIDE of the register at `a`, and the RWH control fields it watches (R57, R58). The COLLIDE bits of the oscillators
read 0 (R195). -/
def collideAt (a : Nat) : Option (Fld × W32) :=
  match cardAt a with
  | none => none
  | some (card, _) =>
    let at_ (i : Nat) : Option (Fld × W32) := some (⟨a, i, 1⟩, card.bitsOf (· = .rwh))
    if card.base = R.DEV_PROFILE || card.base = R.CH_SEQ_MODE 0 then at_ 3
    else if card.base = R.CH_DAC_CTRL 0 then at_ 4
    else if card.base = R.MEM_FREQ_CTRL then at_ 2
    else if card.base = R.MEM_QOS 0 then at_ 1
    else if card.base = R.TELEM_PWR_CL || card.base = R.TELEM_SW_RATE then at_ 8
    else none

/-- A register write in the cycle of a hardware update of the control fields it covers (R57): their hardware values
stand, and COLLIDE reads 1. The other meetings of R57 come out as the order of two commands. -/
def Dev.hostWriteMet (d : Dev) (a : Nat) (be : BitVec 4) (v : W32) : Dev :=
  let r := match aliasOf a with | some p => p.1 | none => a
  let written : W32 := match aliasOf a with | some p => if be.getLsbD 0 then BitVec.twoPow 32 p.2 else 0 | none => byteMask be
  match collideAt r with
  | none => d.hostWrite a be v
  | some (f, m) =>
    if written &&& m = 0 || !d.hostReach || be = 0 then d.hostWrite a be v
    else match aliasOf a, cardAt r with
      | none, some (card, ix) => ((d.wakeFor r).writeReg card ix r be (written &&& ~~~m) v).set f 1
      | _, _ => (d.wakeFor r).set f 1

/-- A host write of one dword, where it meets a hardware update or not. -/
def Dev.hostWriteOne (d : Dev) (a : Nat) (be : BitVec 4) (v : W32) (meets : Bool) : Dev :=
  if meets then d.hostWriteMet a be v else d.hostWrite a be v

/-- A host write of a dword with byte enables and of `more` behind it, `last` being the byte enables of the last one (R42, R43): any
length through a memory-like window; of registers one dword, or two that are naturally aligned, as two single writes, lower
address first; any other is discarded. -/
def Dev.hostWrites (d : Dev) (a : Nat) (be : BitVec 4) (v : W32) (more : List W32) (meets : Bool) (last : BitVec 4 := 0xF) : Dev :=
  match more with
  | [] => d.hostWriteOne a be v meets
  | w :: rest =>
    if !d.hostReach then d
    else if (windowOf a).isSome then
      d.windowAccess a ((be, v) :: (more.dropLast.map fun w => (0xF, w)) ++ [(last, more.getLastD 0)])
    else if rest.isEmpty && a % 8 = 0 && be = 0xF && last = 0xF then
      (d.hostWriteOne a be v meets).hostWriteOne (a + 4) 0xF w meets
    else d.accessError 3 a

/-! ### Configuration space (R397 to R401) -/

/-- A configuration request that changes the function's state: it is accepted in D0 and in D3hot while the link is up (R401). The
size of BAR4 is one of 256 MiB to 128 GiB (R400). Going back to D0 resets nothing (No_Soft_Reset, R397). -/
def Dev.configWrite (d : Dev) (w : ConfigWrite) : Dev :=
  if !d.linkUp then d
  else match w with
    | .power d3 => { d with board := { d.board with d0 := !d3 } }
    | .msix on mask => { d with board := { d.board with msixOn := on, funcMask := mask } }
    | .bar4 n => if 28 ≤ n && n ≤ 37 then { d with board := { d.board with barLog2 := n } } else d

/-! ### Reads through the windows -/

/-- `n` bytes of a memory as a host reads them: all ones in a unit of `u` bytes that is marked or uncorrectable (R353,
R354). -/
def Store.seen (m : Store) (u a n : Nat) : List Byte :=
  (List.range n).map fun i => if m.bad ((a + i) / u * u) then 0xFF else m.byte (a + i)

/-- Bytes of a memory-like window: those of an uncorrectable context are free values (R164, R354, R359, R457). -/
def Dev.windowBytes (d : Dev) (w : Window) (n : Nat) : Dev × List Byte :=
  match w with
  | .context off =>
    (unitsOf 8 off n).foldl (fun (p : Dev × List Byte) u =>
      let lo := max off u
      let m := min (off + n) (u + 8) - lo
      let d := p.1.abandonAt .context u
      if d.mem.ctx.bad u then
        let r := (d.ctxError (u / 32)).unstated m
        (r.1, p.2 ++ r.2)
      else (d, p.2 ++ d.mem.ctx.bytes lo m)) (d, [])
  | .segTable k off =>
    let d := (unitsOf 8 off n).foldl (fun (d : Dev) u => d.touchSeg k u) d
    (d, d.mem.segtab.seen 8 (segAt k off) n)
  | .program c off =>
    let d := (unitsOf 8 off n).foldl (fun (d : Dev) u => d.touchProg c u) d
    (d, d.mem.prog.seen 8 (progAt c off) n)
  | .oasis k off =>
    let d := (unitsOf 64 off n).foldl (fun (d : Dev) u => d.touchOasis k u) d
    (d, d.mem.oasis.seen 64 (oasisAt k off) n)

/-- Whether a window read returns a poisoned completion (R354). -/
def Dev.windowPoison (d : Dev) (w : Window) (n : Nat) : Bool :=
  match w with
  | .context _ => false
  | .segTable k off => (unitsOf 8 (segAt k off) n).any d.mem.segtab.bad
  | .program c off => (unitsOf 8 (progAt c off) n).any d.mem.prog.bad
  | .oasis k off => (unitsOf 64 (oasisAt k off) n).any d.mem.oasis.bad

/-- The completion of a read. -/
def Dev.replyWith (d : Dev) (bs : List Byte) (ep : Bool) : Dev := { d with reply := ⟨bs, ep⟩ }

/-- A read of `n` bytes of BAR0 at `a` (R42, R44, R46, R55): through a window, or of one or two register dwords. DESIGN CHOICE,
unsafe (log entry 19): an error captures the address of the dword of `a`, and an access of a wrong size or alignment sets
BAD_WIDTH alone, also at a reserved address. -/
def Dev.fabricRead (d : Dev) (a n : Nat) : Dev :=
  match windowOf a with
    | some w =>
      let n := min n (4096 - a % 4096)
      let r := (d.wakeFor a).windowBytes w n
      r.1.replyWith r.2 (r.1.windowPoison w n)
    | none =>
      if n = 8 && a % 8 = 0 then
        let lo := d.readDword a
        let hi := lo.1.readDword (a + 4)
        hi.1.replyWith (leBytes 4 lo.2.toNat ++ leBytes 4 hi.2.toNat) false
      else if 1 ≤ n && a % 4 + n ≤ 4 then
        let r := d.readDword (a / 4 * 4)
        r.1.replyWith (((leBytes 4 r.2.toNat).drop (a % 4)).take n) false
      else (d.accessError 3 a).replyWith (List.replicate n 0) false

/-- A host read of BAR0. -/
def Dev.hostRead (d : Dev) (a n : Nat) : Dev := if d.hostReach then d.fabricRead a n else d

/-- An index of the context of ring `q` as a doorbell read finds it: free values where its unit is uncorrectable. -/
def Dev.indexBytes (d : Dev) (q off : Nat) : Dev × List Byte :=
  let a := 32 * q + off
  if d.mem.ctx.bad (a / 8 * 8) then d.unstated 4 else (d, d.mem.ctx.bytes a 4)

/-- The doorbell word of ring `q` as read: PROD, and CONS above it (R277, R357). -/
def Dev.doorbellWord (d : Dev) (q : Nat) : Dev × List Byte :=
  let lo := (d.abandonAt .context (32 * q)).indexBytes q 0x0C
  let hi := lo.1.indexBytes q 0x10
  (hi.1, lo.2 ++ hi.2)

/-- A host read of `n` bytes at offset `off` of BAR2 (R277). -/
def Dev.doorbellRead (d : Dev) (off n : Nat) : Dev :=
  if !d.hostReach then d
  else
    let r := (unitsOf 8 off n).foldl (fun (r : Dev × List Byte) u =>
      let w := r.1.doorbellWord (u / 8)
      (w.1, r.2 ++ w.2)) (d, [])
    r.1.replyWith ((r.2.drop (off % 8)).take n) false

/-- Byte `i` of configuration space where R2 and R397 state it: vendor and device ID, class code, Interrupt Pin (log entry 9). -/
def configByte (i : Nat) : Option Byte :=
  if i < 4 then some ((Config.configId >>> (8 * i)).setWidth 8)
  else if 9 ≤ i && i < 12 then some ((Config.classCode >>> (8 * (i - 9))).setWidth 8)
  else if i = 0x3D then some 0
  else none

/-- A configuration read of `n` bytes at `off`: bytes that the spec does not state are free values. -/
def Dev.configRead (d : Dev) (off n : Nat) : Dev :=
  if !d.linkUp then d
  else
    let r := d.unstated n
    r.1.replyWith (((List.range n).zip r.2).map fun p => (configByte (off + p.1)).getD p.2) false

/-! ### SMBus (R406 to R408) -/

/-- The blocks that answer SMBus before Stage B: DEV, CLK and TELEM (R406). -/
def smbEarly (a : Nat) : Bool := a < 0x20000 || (0x60000 ≤ a && a < 0x70000)

/-- An SMBus register access is served: a dword address that exists, in the DEV, CLK or TELEM block before Stage B. -/
def Dev.smbServes (d : Dev) (a : Nat) : Bool :=
  let target := match aliasOf a with | some p => p.1 | none => a
  a % 4 = 0 && ((windowOf a).isSome || (0x8000000 ≤ a && a < 0xC000000) || (cardAt target).isSome) && (2 ≤ d.stage || smbEarly a)

/-- A write of the four bytes at `w` of a memory-like window would be discarded, in part or whole (R92, R164, R270, R353, R457). -/
def Dev.windowDenies (d : Dev) (w : Window) : Bool :=
  match w with
  | .context off => (List.range 4).any fun i =>
      let a := off + i
      if d.ringState (a / 32) = 0 then a % 32 = 0x0B || d.mem.ctx.bad (a / 8 * 8) else !ctxOpen (a % 32)
  | .segTable k off => d.mem.segtab.bad (segAt k off / 8 * 8)
  | .program c off => !((d.ch c).quiet || (d.ch c).st = .halted) || d.mem.prog.bad (progAt c off / 8 * 8)
  | .oasis k off => d.inArea k off 4 || d.mem.oasis.bad (oasisAt k off / 64 * 64)

/-- A write of `v` to a register that the state's structure holds would be denied (R61, R62, R90, R195, R202, R425). -/
def Dev.ownDenies (d : Dev) (base : Nat) (ix : List Nat) (v : W32) : Bool :=
  let c := chanNo (ix.headD 0)
  if base = R.SEC_DBG_CTRL then d.debugFixed || ((d.lifecycle = 1 || d.lifecycle = 3) && v &&& 7 ≠ 0)
  else if base = R.CH_SEQ_G 0 0 then !(d.ch c).hostMayWrite
  else if base = R.CH_NCO_MIX 0 || base = R.CH_NCO_OSC 0 0 then !d.ncoFree c
  else if base = R.CH_FIR_COEF 0 0 0 then d.firDenies c ⟨ix.getD 1 0 % 2, Nat.mod_lt _ (by decide)⟩
  else false

/-- A served write of a dword is discarded by what it reaches: a window, the mirror, an alias of a LOCK bit, or a register that
denies it (R53, R56, R407). -/
def Dev.writeDiscarded (d : Dev) (a : Nat) (v : W32) : Bool :=
  match windowOf a with
  | some w => d.windowDenies w
  | none =>
    if 0x8000000 ≤ a && a < 0xC000000 then true
    else match aliasOf a with
      | some (r, b) => match cardAt r with
        | some (card, ix) => card.bitsOf (· = .lock) &&& BitVec.twoPow 32 b ≠ 0 || d.ownDenies card.base ix v
        | none => true
      | none => match cardAt a with
        | some (card, ix) => d.ownDenies card.base ix v
        | none => true

/-- An access that R42 or R44 discards leaves its error; one of a block that does not answer yet leaves nothing (R406). -/
def Dev.smbDiscard (d : Dev) (a : Nat) : Dev :=
  if d.stage < 2 && !smbEarly a then d else if a % 4 ≠ 0 then d.accessError 3 a else d.accessError 1 a

/-- REG_READ: a status byte and the dword. -/
def Dev.smbRead (d : Dev) (a : Nat) : Dev :=
  if d.stage = 0 then d
  else if d.smbServes a then
    let d := d.fabricRead a 4
    d.replyWith (0 :: d.reply.data) false
  else (d.smbDiscard a).replyWith [1, 0, 0, 0, 0] false

/-- REG_WRITE; STATUS shows whether it was discarded. One with a bad PEC is discarded, its PEC not acknowledged (R406; log entry 41). -/
def Dev.smbWrite (d : Dev) (a : Nat) (v : W32) (badPec : Bool := false) : Dev :=
  if d.stage = 0 then d
  else
    let ok := d.smbServes a && !badPec
    let bad := !ok || d.writeDiscarded a v
    let d := if badPec then d else if ok then d.fabricWrite a 0xF v else d.smbDiscard a
    { d with board := { d.board with smbBad := bad } }

/-- STATUS: two bytes. -/
def Dev.smbStatus (d : Dev) : Dev :=
  if d.stage = 0 then d
  else
    let lo := d.stage + 16 * d.get F.DEV_STAGE_STOPPED + 32 * bit d.nFault + 64 * bit d.alert + 128 * bit d.board.smbBad
    d.replyWith (leBytes 2 (lo + 256 * d.get F.DEV_STAGE_STOP_CODE)) false

/-- ALERT_SRC: four bytes. -/
def Dev.smbAlertSrc (d : Dev) : Dev := if d.stage = 0 then d else d.replyWith (leBytes 4 d.alertSrc.toNat) false

/-- RESET with its data byte (R388); one with a bad PEC is discarded (R406). -/
def Dev.smbReset (d : Dev) (data : Byte) (badPec : Bool := false) : Dev :=
  if d.stage ≠ 0 && data = 0xD3 && !badPec then d.deviceReset else d

/-- The Alert Response Address is answered with the port's own address while ALERT is asserted. -/
def Dev.alertResponse (d : Dev) : Dev :=
  if d.stage ≠ 0 && d.alert then d.replyWith [BitVec.ofNat 8 (2 * (0x58 + d.get F.DEV_PIN_STATUS_ADDR))] false else d

end Sys2Proof.Machine
end

