-- ==== Sys2Proof/Machine/TickOps.lean ====
section
/-! DEFINITION. Apply points of held values (R50 to R52), the tick boundary (R245), and MSI-X messages (R402 to R404). -/

namespace Sys2Proof.Machine

/-! ### Apply points -/

/-- The owning unit of an IDLE field is idle (R50, and the cards' own conditions). -/
def Dev.unitIdle (d : Dev) (a : Nat) : Bool :=
  if a = R.LINK_CFG then d.linkState = 0
  else if a < 0x40000 then !d.flag (F.EVT_TMR_STAT_RUNNING ((a - 0x30300) / 0x20))
  else
    let c := channelOf a
    if a < 0x2000000 || a = R.CH_DP_MDLY c || a = R.CH_DAC_CTRL c then (d.ch c).st = .idle else (d.ch c).quiet

/-- Held values that a row of their own applies (R70, R219, R334, R441). -/
def PendW.ownRow (p : PendW) : Bool :=
  p.addr = R.DEV_PROFILE || p.addr = R.MEM_FREQ_CTRL || p.addr = R.TELEM_SW_RATE ||
  (p.addr = R.CH_DAC_CTRL (channelOf p.addr) && p.mask = 3)

/-- The apply point of a held value has come (R50). -/
def Dev.pointReached (d : Dev) (p : PendW) : Bool :=
  let full := p.acc + 2 ≤ d.ev.elapsed
  if p.ownRow then false
  else match p.ap with
    | .imm | .tick => full
    | .idle => full && d.unitIdle p.addr
    | .block | .seg =>
      let c := channelOf p.addr
      match p.due with
      | some s => notAfter s d.ev.dt || !d.playing c
      | none => !d.playing c && full

/-- The value put in force. -/
def Dev.putInForce (d : Dev) (p : PendW) : Dev := d.wr p.addr ((d.rd p.addr &&& ~~~p.mask) ||| (p.val &&& p.mask))

/-- Timer whose EN field a held value is. -/
def PendW.timer (p : PendW) : Option (Fin 8) := (List.finRange 8).find? fun i => p.addr = R.EVT_TMR_CTRL i && p.mask = 1

/-- One held value takes effect. -/
def Dev.takePending (d : Dev) (p : PendW) : Dev :=
  match p.timer with
  | some i => d.timerEn i (p.val.getLsbD 0)
  | none =>
    let d := d.putInForce p
    let c := channelOf p.addr
    if p.addr = R.CH_DAC_CTRL c && p.mask = 8 then (d.roleMix c).profileSync
    else if p.addr = R.CH_SEQ_MODE c then d.profileSync
    else d

/-- The areas of an Oasis that overlap one another. -/
def areasClash : List (Nat × Nat) → Bool
  | [] => false
  | p :: ps => ps.any (fun q => overlap p.1 p.2 q.1 q.2) || areasClash ps

/-- Place and enable of the head area of channel 4k + j (R163). -/
def Dev.headArea (d : Dev) (k j : Nat) : Nat × Bool := (d.get (F.CL_STAGE_CTRL_HEAD_BASE k j), d.flag (F.CL_STAGE_CTRL_HEAD_EN k j))

/-- The head slots of channel `c` emptied, its head area having moved or been disabled (R163, R170; DESIGN CHOICE, log entry 48). -/
def Dev.emptySlots (d : Dev) (c : Fin 32) : Dev := (List.finRange 16).foldl (fun (d : Dev) i => d.emptySlot c i) d

/-- The held setting of CL.STAGE_CTRL_j: put in force, which may raise panic (R169) and empties head slots that it moves, or dropped
when an area would overlap an enabled one (R164). -/
def Dev.stageSetting (d : Dev) (k : Fin 8) (j : Nat) (ps : List PendW) : Dev :=
  if ps.isEmpty then d
  else
    let e := ps.foldl (fun (d : Dev) p => d.putInForce p) d
    let c := chanNo (4 * k.val + j)
    if areasClash (e.areas k) then d.set (F.CL_IRQ_STATUS_AREA_CONFLICT k) 1
    else if e.headArea k j = d.headArea k j then e.panicCheck c
    else (e.emptySlots c).panicCheck c

/-- A held value's kind of point comes with the point named: a tick boundary is also the IDLE point of what is idle there
(R50). -/
def comesWith (pt ap : Apply) : Bool := ap = pt || (pt = .tick && ap = .idle)

/-- APPLY_POINT (R50 to R52): the held values of one block whose point of a kind has come take effect together, settings
before the enables of timers. -/
def Dev.applyPoint (d : Dev) (pt : Apply) (block : Nat) : Dev :=
  let due := d.pend.filter fun p => comesWith pt p.ap && unitOf p.addr = block && d.pointReached p
  let stage (k : Fin 8) (j : Nat) : List PendW := due.filter fun p => p.addr = R.CL_STAGE_CTRL k j
  let isStage (p : PendW) : Bool := (List.finRange 8).any fun k => (List.range 4).any fun j => p.addr = R.CL_STAGE_CTRL k j
  let d := { d with pend := d.pend.filter fun p => !due.contains p }
  let plain := due.filter fun p => !isStage p
  let d := (plain.filter (·.timer.isNone) ++ plain.filter (·.timer.isSome)).foldl (fun (d : Dev) p => d.takePending p) d
  let d := (List.finRange 8).foldl (fun (d : Dev) k => (List.range 4).foldl (fun (d : Dev) j => d.stageSetting k j (stage k j)) d) d
  (List.finRange 32).foldl (fun (d : Dev) (c : Fin 32) => if unitOf (R.CH_SEQ_CTRL c.val) = block then d.goWaiting c else d) d

/-! ### The tick boundary -/

/-- What a channel's tick that ends leaves: its samples, and the cycles its sequencer waited (R198, R103). -/
def Dev.endTick (d : Dev) (c : Fin 32) : Dev :=
  let d := d.renderTick c
  let x := d.ch c
  let waits := x.st = .run && x.stall ≠ .none
  let d := if waits then d.count64 (R.CH_SEQ_CNT c 1 0) 2 else d
  if !x.quiet && (d.starved c).isSome then d.modCh c fun x => { x with ringWait := x.ringWait + 1 } else d

/-- What begins for a channel at a tick boundary: the end of CAL_HOLD, a check that rotation's end stops, a GO that waits, an
array SIG that waited for a full send queue. -/
def Dev.startTick (d : Dev) (c : Fin 32) : Dev :=
  let d := (((d.staleTick c).rotationOff c).frameTick c).goWaiting c
  if (d.ch c).stall = .busy then d.retry c .busy effectOf else d

/-- The tick counted, and the TRIG pins sampled (R245, R247, R415). -/
def Dev.countTick (d : Dev) : Dev :=
  { d with ev := { d.ev with dt := if d.ev.counting then d.ev.dt + 1 else d.ev.dt, elapsed := d.ev.elapsed + 1
                             sampled := d.ev.pins, pins := d.ev.pinsNext } }

/-- The tick DT ends for every channel, and the events that it presents are presented (R198, R260). -/
def Dev.endTicks (d : Dev) : Dev := ((List.finRange 32).foldl (fun (d : Dev) c => d.endTick c) d).presentDue

/-- TICK (R245): the tick DT ends, its cells being launched, and the next begins. Without a running EVT_CLK (before Stage A) there is
none. -/
def Dev.tick (d : Dev) : Dev :=
  if d.stage = 0 then d
  else
    let d := if d.ev.counting then d.endTicks else d
    let d := ((d.launchCell .e).launchCell .w).countTick.linkBoundary.loadTick.firstStart.alignTick
    let d := ((d.pulseTick.coastBypass.gateTick).wakeTick).chResetTick.sliceTick.freqTick
    let d := d.dueWords
    (List.finRange 32).foldl (fun (d : Dev) c => d.startTick c) d

/-! ### MSI-X -/

/-- MSIX_MESSAGE (R402 to R404): the latched vector sends its message, when MSI-X, the function, its entry and its
hold-off allow. -/
def Dev.msixMessage (d : Dev) (v : Nat) : Dev :=
  let since := match d.msix.last.find? (·.1 = v) with | some p => d.ev.elapsed - p.2 | none => 2 ^ 64
  let free := d.get (F.DEV_MSIX_MOD_HOLDOFF v) * 100 ≤ since
  if d.msix.latch.contains v && d.board.msixOn && !d.board.funcMask && d.board.d0 && !d.flag (F.DEV_MSIX_CTRL_MASK v) && free
  then
    let m := { d.msix with latch := d.msix.latch.filter (· ≠ v), last := d.msix.last.filter (·.1 ≠ v) ++ [(v, d.ev.elapsed)]
                           sent := some (v, d.get64 (R.DEV_MSIX_ADDR v 0), d.rd (R.DEV_MSIX_DATA v)) }
    { d with msix := m }
  else d

end Sys2Proof.Machine
end

