-- ==== Sys2Proof/Machine/BoardRows.lean ====
section
/-! DEFINITION. Start-up, the mailbox, SMBus, PCIe and JTAG (rows 186 to 211). -/

namespace Sys2Proof.Machine

/-- POWER_GOOD (R382, R386); `nresetLow`: the supplies are good while nRESET is still low. -/
def execPowerGood (s : State) (nresetLow : Bool := false) : Host.Outcome State Fault Refusal :=
  done s (s.dev.powerGood nresetLow)

/-- NRESET_LOW (R382, R387). -/
def execNresetLow (ns : Nat) (s : State) : Host.Outcome State Fault Refusal :=
  done s (s.dev.nresetLow ns)

/-- SUPPLY_FAIL (R383). -/
def execSupplyFail (analogueInRange : Bool) (s : State) : Host.Outcome State Fault Refusal :=
  done s (s.dev.supplyFail analogueInRange)

/-- STAGE_ADVANCE (R384, R385). -/
def execStageAdvance (r : StageResult) (s : State) : Host.Outcome State Fault Refusal :=
  done s (s.dev.stageAdvance r)

/-- OTHER_SLOT_VERIFY (R418); `ok`: the boot flash answers. -/
def execOtherSlotVerify (ok : Bool) (s : State) : Host.Outcome State Fault Refusal :=
  done s (s.dev.otherSlotVerify ok)

/-- RECKONER_RESTART (R391). -/
def execReckonerRestart (s : State) : Host.Outcome State Fault Refusal :=
  done s (s.dev.reckonerRestart)

/-- RECKONER_READY (R391). -/
def execReckonerReady (s : State) : Host.Outcome State Fault Refusal :=
  done s (s.dev.reckonerReady)

/-- INFO (R393). -/
def execInfo (s : State) : Host.Outcome State Fault Refusal :=
  done s (s.dev.info)

/-- CAL_READ (R393); `mtpError`: the MTP block cannot be read. -/
def execCalRead (s : State) (mtpError : Bool := false) : Host.Outcome State Fault Refusal :=
  done s (s.dev.calRead mtpError)

/-- HEALTH (R394). -/
def execHealth (s : State) : Host.Outcome State Fault Refusal :=
  done s (s.dev.health)

/-- MGMT_RESTART (R393). -/
def execMgmtRestart (s : State) : Host.Outcome State Fault Refusal :=
  done s (s.dev.mgmtRestart)

/-- REPORT (R422, R423): a reservation that it needs reads back, behind `fails` slots (at most 2) that do not, or three fail. -/
def execReport (readBackOk : Bool) (s : State) (fails : Nat := 0) : Host.Outcome State Fault Refusal :=
  done s (s.dev.report readBackOk fails)

/-- IDENTITY (R421). -/
def execIdentity (s : State) : Host.Outcome State Fault Refusal :=
  done s (s.dev.identity)

/-- EXTEND (R421). -/
def execExtend (s : State) : Host.Outcome State Fault Refusal :=
  done s (s.dev.extend)

/-- FLASH_WRITE (R413). -/
def execFlashWrite (readBackOk : Bool) (s : State) : Host.Outcome State Fault Refusal :=
  done s (s.dev.flashWrite readBackOk)

/-- CHALLENGE (R426). -/
def execChallenge (s : State) : Host.Outcome State Fault Refusal :=
  done s (s.dev.challenge)

/-- RESPOND (R426). -/
def execRespond (s : State) : Host.Outcome State Fault Refusal :=
  done s (s.dev.respond)

/-- MGMT_ABORT (R393). -/
def execMgmtAbort (s : State) : Host.Outcome State Fault Refusal :=
  done s (s.dev.mgmtAbort)

/-- REG_READ (R407). -/
def execRegRead (off : Nat) (s : State) : Host.Outcome State Fault Refusal :=
  done s (s.dev.smbRead off)

/-- REG_WRITE (R406, R407); `badPec`: the controller sent a PEC byte that does not match. -/
def execRegWrite (off : Nat) (v : W32) (s : State) (badPec : Bool := false) : Host.Outcome State Fault Refusal :=
  done s (s.dev.smbWrite off v badPec)

/-- SMB_STATUS (R407). -/
def execSmbStatus (s : State) : Host.Outcome State Fault Refusal :=
  done s (s.dev.smbStatus)

/-- ALERT_SRC (R407). -/
def execAlertSrc (s : State) : Host.Outcome State Fault Refusal :=
  done s (s.dev.smbAlertSrc)

/-- SMB_RESET (R406, R407). -/
def execSmbReset (data : Byte) (s : State) (badPec : Bool := false) : Host.Outcome State Fault Refusal :=
  done s (s.dev.smbReset data badPec)

/-- ALERT_RESPONSE (R408). -/
def execAlertResponse (s : State) : Host.Outcome State Fault Refusal :=
  done s (s.dev.alertResponse)

/-- PCIE_LINK_LOSS (R401). -/
def execPcieLinkLoss (s : State) : Host.Outcome State Fault Refusal :=
  done s (s.dev.pcieLinkLoss)

/-- JTAG_INSTRUCTION (R414, R425): a private opcode acts as BYPASS unless debug is unlocked; what it does then
is not stated. -/
def execJtagInstruction (ir : BitVec 8) (s : State) : Host.Outcome State Fault Refusal :=
  if privateOpcode ir && s.dev.board.rails && s.dev.flag F.SEC_DBG_CTRL_JTAG then .refused .privateJtag
  else done s (s.dev.jtag ir)

end Sys2Proof.Machine
end

