-- ==== Sys2Proof/Machine/ClockRows.lean ====
section
/-! DEFINITION. Clocks and the tick boundary (rows 171 to 185, 231, 233 to 237 and 241). -/

namespace Sys2Proof.Machine

/-- SPLL_APPLY (R364). -/
def execSpllApply (s : State) : Host.Outcome State Fault Refusal :=
  done s (s.dev.spllApply)

/-- LOCK_WINDOW (R365). -/
def execLockWindow (count : Nat) (s : State) : Host.Outcome State Fault Refusal :=
  done s (s.dev.lockWindow count)

/-- SYNC_EDGE (R368). -/
def execSyncEdge (pin : Bool) (s : State) : Host.Outcome State Fault Refusal :=
  done s (s.dev.syncEdge pin)

/-- SYNC_TIMEOUT (R369). -/
def execSyncTimeout (s : State) : Host.Outcome State Fault Refusal :=
  done s (s.dev.syncTimeout)

/-- EMIT (R369). -/
def execEmit (s : State) : Host.Outcome State Fault Refusal :=
  done s (s.dev.emitSync)

/-- REFIN_LOSS (R370). -/
def execRefinLoss (s : State) : Host.Outcome State Fault Refusal :=
  done s (s.dev.refinLoss)

/-- COAST_WINDOW (R371). -/
def execCoastWindow (ferr : W32) (s : State) : Host.Outcome State Fault Refusal :=
  done s (s.dev.coastWindow ferr)

/-- LOCK_TMO (R371). -/
def execLockTmo (s : State) : Host.Outcome State Fault Refusal :=
  done s (s.dev.lockTmoPasses)

/-- SOURCE_LOSS (R374). -/
def execSourceLoss (src : Fin 9) (s : State) : Host.Outcome State Fault Refusal :=
  done s (s.dev.sourceLoss src)

/-- RESTART (R375). -/
def execRestart (s : State) : Host.Outcome State Fault Refusal :=
  done s (s.dev.restart)

/-- SYS_APPLY (R373). -/
def execSysApply (s : State) : Host.Outcome State Fault Refusal :=
  done s (s.dev.sysApply)

/-- GATE_REQUEST (R379). -/
def execGateRequest (domain : Fin 45) (s : State) : Host.Outcome State Fault Refusal :=
  done s (s.dev.gateRequest domain)

/-- GATE_ERR (R379). -/
def execGateErr (domain : Fin 45) (s : State) : Host.Outcome State Fault Refusal :=
  done s (s.dev.gateErr domain)

/-- CLUSTER_WAKE (R432). -/
def execClusterWake (k : Fin 8) (s : State) : Host.Outcome State Fault Refusal :=
  done s (s.dev.clusterWake k)

/-- AON_STABLE (R361). -/
def execAonStable (s : State) : Host.Outcome State Fault Refusal :=
  done s (s.dev.aonStable)

/-- TICK (R245). -/
def execTick (s : State) : Host.Outcome State Fault Refusal :=
  done s (s.dev.tick)

/-- REFIN_RETURN (R372). -/
def execRefinReturn (s : State) : Host.Outcome State Fault Refusal :=
  done s (s.dev.refinReturn)

/-- SOURCE_BACK (R375). -/
def execSourceBack (src : Fin 9) (s : State) : Host.Outcome State Fault Refusal :=
  done s (s.dev.sourceBack src)

/-- SLEW_END (R364). -/
def execSlewEnd (s : State) : Host.Outcome State Fault Refusal :=
  done s (s.dev.slewEnd)

/-- APPLY_LOCK_TIMEOUT (R364). -/
def execApplyLockTimeout (s : State) : Host.Outcome State Fault Refusal :=
  done s (s.dev.applyLockTimeout)

/-- SYS_BYPASS (R373). -/
def execSysBypass (s : State) : Host.Outcome State Fault Refusal :=
  done s (s.dev.sysBypass)

/-- FREQUENCY_MONITOR_WINDOW (R362). -/
def execFrequencyMonitorWindow (khz : Nat) (s : State) : Host.Outcome State Fault Refusal :=
  done s (s.dev.monitorWindow khz)

end Sys2Proof.Machine
end

