-- ==== Sys2Proof/Machine/Control.lean ====
section
/-! DEFINITION. The sequencer instructions of the control group (R109 to R112), one meaning each: the row fixes the opcode and the selector bit
that tells it from its sister row, and the word issues under R73 to R107. -/

namespace Sys2Proof.Machine

/-- NOP (R109). -/
def execNop (c : Fin 32) (a b : BitVec 4) (x : BitVec 48) (s : State) : Host.Outcome State Fault Refusal :=
  done s (s.dev.issue c (mkWord 0x00 a b x) effNop)

/-- HALT (R95). -/
def execHalt (c : Fin 32) (a b : BitVec 4) (x : BitVec 48) (s : State) : Host.Outcome State Fault Refusal :=
  done s (s.dev.issue c (mkWord 0x01 a b x) effHalt)

/-- JMP (R109). -/
def execJmp (c : Fin 32) (a b : BitVec 4) (x : BitVec 48) (s : State) : Host.Outcome State Fault Refusal :=
  done s (s.dev.issue c (mkWord 0x02 a b x) effJmp)

/-- JCC (R110). -/
def execJcc (c : Fin 32) (a b : BitVec 4) (x : BitVec 48) (s : State) : Host.Outcome State Fault Refusal :=
  done s (s.dev.issue c (mkWord 0x03 a b x) effJcc)

/-- CALL (R111). -/
def execCall (c : Fin 32) (a b : BitVec 4) (x : BitVec 48) (s : State) : Host.Outcome State Fault Refusal :=
  done s (s.dev.issue c (mkWord 0x04 a b x) effCall)

/-- RET (R111). -/
def execRet (c : Fin 32) (a b : BitVec 4) (x : BitVec 48) (s : State) : Host.Outcome State Fault Refusal :=
  done s (s.dev.issue c (mkWord 0x05 a b x) effRet)

/-- LOOP (R112). -/
def execLoop (c : Fin 32) (a b : BitVec 4) (x : BitVec 48) (s : State) : Host.Outcome State Fault Refusal :=
  done s (s.dev.issue c (mkWord 0x06 a b x) effLoop)

/-- ENDL (R112). -/
def execEndl (c : Fin 32) (a b : BitVec 4) (x : BitVec 48) (s : State) : Host.Outcome State Fault Refusal :=
  done s (s.dev.issue c (mkWord 0x07 a b x) effEndl)

end Sys2Proof.Machine
end

