-- ==== Sys2Proof/Machine/ConvRows.lean ====
section
/-! DEFINITION. Converters, calibration and telemetry (rows 212 to 226). -/

namespace Sys2Proof.Machine

/-- ROTATION_STEP (R229 to R231). -/
def execRotationStep (c : Fin 32) (saturated : Bool) (r : CheckResult) (s : State) : Host.Outcome State Fault Refusal :=
  done s (s.dev.rotationStep c saturated r)

/-- CAL_COMPARE (R235). -/
def execCalCompare (c : Fin 32) (s : State) : Host.Outcome State Fault Refusal :=
  done s (s.dev.calCompare c)

/-- CAL_RUN_START (R236). -/
def execCalRunStart (c : Fin 32) (kind : CalKind) (s : State) : Host.Outcome State Fault Refusal :=
  done s (s.dev.calRunStart c kind)

/-- CAL_RUN_END (R237). -/
def execCalRunEnd (c : Fin 32) (gain ofs : BitVec 16) (failed : BitVec 18) (s : State) : Host.Outcome State Fault Refusal :=
  done s (s.dev.calRunEnd c gain ofs failed)

/-- CAL_ABORT (R238). -/
def execCalAbort (c : Fin 32) (reason : BitVec 4) (s : State) : Host.Outcome State Fault Refusal :=
  done s (s.dev.calAbort c reason)

/-- RUN (R235). -/
def execRun (c : Fin 32) (s : State) : Host.Outcome State Fault Refusal :=
  done s (s.dev.calRun c)

/-- SAVE (R242). -/
def execSave (c : Fin 32) (s : State) : Host.Outcome State Fault Refusal :=
  done s (s.dev.calSave c)

/-- MTP_RECORD_WRITE (R242). -/
def execMtpRecordWrite (c : Fin 32) (readBackOk : Bool) (s : State) : Host.Outcome State Fault Refusal :=
  done s (s.dev.mtpRecordWrite c readBackOk)

/-- MTP_DEFER_EXPIRY (R242). -/
def execMtpDeferExpiry (c : Fin 32) (s : State) : Host.Outcome State Fault Refusal :=
  done s (s.dev.mtpDeferExpiry c)

/-- RANGE_CHANGE (R219). -/
def execRangeChange (c : Fin 32) (s : State) : Host.Outcome State Fault Refusal :=
  done s (s.dev.rangeChange c)

/-- RANGE_END (R219). -/
def execRangeEnd (c : Fin 32) (s : State) : Host.Outcome State Fault Refusal :=
  done s (s.dev.rangeEnds c)

/-- RATE_CHANGE (R441). -/
def execRateChange (n : Fin 4) (s : State) : Host.Outcome State Fault Refusal :=
  done s (s.dev.rateChange n)

/-- RATE_CHANGE_END (R441). -/
def execRateChangeEnd (n : Fin 4) (s : State) : Host.Outcome State Fault Refusal :=
  done s (s.dev.rateChangeEnd n)

/-- TELEM_CONVERSION (R436, R437). -/
def execTelemConversion (sensor : Fin 40) (valid : Bool) (v : BitVec 16) (s : State) : Host.Outcome State Fault Refusal :=
  done s (s.dev.conversion sensor valid v)

/-- TRIP (R438). -/
def execTrip (sensor : Fin 24) (s : State) : Host.Outcome State Fault Refusal :=
  done s (s.dev.trip sensor)

end Sys2Proof.Machine
end

