-- ==== Sys2Proof/Machine/EventCmds.lean ====
section
/-! DEFINITION. Events and device time (rows 118 to 128). -/

namespace Sys2Proof.Machine

/-- TRIG_EDGE (R253). -/
def execTrigEdge (i : Fin 16) (high : Bool) (m : Fin 16) (held : Nat) (late : Bool) (s : State) : Host.Outcome State Fault Refusal :=
  done s (s.dev.trigEdge i high m held late)

/-- MARKER_EDGE (R255). -/
def execMarkerEdge (i : Fin 16) (rising : Bool) (m : Fin 16) (s : State) : Host.Outcome State Fault Refusal :=
  done s (s.dev.markerEdge i rising m)

/-- TIMER_EN (R256): the EN field of a timer takes a new value. -/
def execTimerEn (i : Fin 8) (en : Bool) (s : State) : Host.Outcome State Fault Refusal :=
  done s (s.dev.timerEn i en)

/-- TIMER_FIRE (R256). -/
def execTimerFire (i : Fin 8) (s : State) : Host.Outcome State Fault Refusal :=
  done s (s.dev.timerFire i)

/-- HOST_EV_GO (R257). -/
def execHostEvGo (s : State) : Host.Outcome State Fault Refusal :=
  done s (s.dev.hostEvGo)

/-- HOST_EV_EMIT (R257). -/
def execHostEvEmit (s : State) : Host.Outcome State Fault Refusal :=
  done s (s.dev.hostEvEmit)

/-- FRAME_CLOSE (R259). -/
def execFrameClose (t : Tick) (s : State) : Host.Outcome State Fault Refusal :=
  done s (s.dev.frameClose t)

/-- EVENT_PRESENT (R260, R261). -/
def execEventPresent (c : Fin 32) (code : BitVec 8) (stamp : Tick) (s : State) : Host.Outcome State Fault Refusal :=
  done s (s.dev.eventPresent c code stamp)

/-- DT_LOAD (R249). -/
def execDtLoad (s : State) : Host.Outcome State Fault Refusal :=
  done s (s.dev.dtLoad)

/-- DT_RESUME (R247). -/
def execDtResume (s : State) : Host.Outcome State Fault Refusal :=
  done s (s.dev.dtResume)

/-- LOG_WRITE (R264). -/
def execLogWrite (s : State) : Host.Outcome State Fault Refusal :=
  done s (s.dev.logWrite)

end Sys2Proof.Machine
end

