-- ==== Sys2Proof/Machine/EventInstr.lean ====
section
/-! DEFINITION. The sequencer instructions of the event group (R128 to R133), one meaning each: the row fixes the opcode and the selector bit
that tells it from its sister row, and the word issues under R73 to R107. -/

namespace Sys2Proof.Machine

/-- JEV (R129). -/
def execJev (c : Fin 32) (a b : BitVec 4) (x : BitVec 48) (s : State) : Host.Outcome State Fault Refusal :=
  done s (s.dev.issue c (mkWord 0x60 a b x) effJev)

/-- BEV (R130). -/
def execBev (c : Fin 32) (a b : BitVec 4) (x : BitVec 48) (s : State) : Host.Outcome State Fault Refusal :=
  done s (s.dev.issue c (mkWord 0x61 a b x) effBev)

/-- SIG (R131). -/
def execSig (c : Fin 32) (a b : BitVec 4) (x : BitVec 48) (s : State) : Host.Outcome State Fault Refusal :=
  done s (s.dev.issue c (mkWord 0x62 a b (withBit x 8 false)) effSigLocal)

/-- SIG_ARRAY (R132). -/
def execSigArray (c : Fin 32) (a b : BitVec 4) (x : BitVec 48) (s : State) : Host.Outcome State Fault Refusal :=
  done s (s.dev.issue c (mkWord 0x62 a b (withBit x 8 true)) effSigArray)

/-- MARK (R133). -/
def execMark (c : Fin 32) (a b : BitVec 4) (x : BitVec 48) (s : State) : Host.Outcome State Fault Refusal :=
  done s (s.dev.issue c (mkWord 0x63 a b x) effMark)

end Sys2Proof.Machine
end

