-- ==== Sys2Proof/Machine/HbmRows.lean ====
section
/-! DEFINITION. Waveform memory (rows 157 to 168 and 240). -/

namespace Sys2Proof.Machine

/-- BAR4_WRITE (R321, R324). -/
def execBar4Write (addr : Nat) (data : List Byte) (s : State) : Host.Outcome State Fault Refusal :=
  done s (s.dev.bar4Write addr data)

/-- BAR4_READ (R320, R325). -/
def execBar4Read (addr : Nat) (len : Nat) (s : State) : Host.Outcome State Fault Refusal :=
  done s (s.dev.bar4Read addr len)

/-- FENCE (R323). -/
def execFence (s : State) : Host.Outcome State Fault Refusal :=
  done s (s.dev.fence)

/-- FENCE_DONE (R323). -/
def execFenceDone (s : State) : Host.Outcome State Fault Refusal :=
  done s (s.dev.fenceDone)

/-- REFRESH (R326). -/
def execRefresh (p : Fin 128) (bank : Fin 32) (waiting : Bool) (exceeded : Bool) (s : State) : Host.Outcome State Fault Refusal :=
  done s (s.dev.refresh p bank waiting exceeded)

/-- SCRUB_READ (R331). -/
def execScrubRead (addr : Nat) (raced : Bool) (s : State) : Host.Outcome State Fault Refusal :=
  done s (s.dev.scrubRead addr raced)

/-- FREQ_CHANGE (R334, R335). -/
def execFreqChange (relocked : Bool) (s : State) : Host.Outcome State Fault Refusal :=
  done s (s.dev.freqChange relocked)

/-- FREQ_RELOCK_TIMEOUT (R337). -/
def execFreqRelockTimeout (s : State) : Host.Outcome State Fault Refusal :=
  done s (s.dev.freqRelockTimeout)

/-- RETRAIN (R340). -/
def execRetrain (s : State) : Host.Outcome State Fault Refusal :=
  done s (s.dev.retrain)

/-- RETRAIN_SLICE (R340, R343). -/
def execRetrainSlice (p : Fin 128) (r : SliceResult) (s : State) : Host.Outcome State Fault Refusal :=
  done s (s.dev.retrainSlice p r)

/-- REMAP (R345). -/
def execRemap (s : State) : Host.Outcome State Fault Refusal :=
  done s (s.dev.remap)

/-- SELF_REFRESH_ENTRY (R433). -/
def execSelfRefreshEntry (t : Fin 4) (s : State) : Host.Outcome State Fault Refusal :=
  done s (s.dev.selfRefreshEntry t)

/-- STACK_WAKE (R432). -/
def execStackWake (t : Fin 4) (s : State) : Host.Outcome State Fault Refusal :=
  done s (s.dev.stackWake t)

end Sys2Proof.Machine
end

