-- ==== Sys2Proof/Machine/HostCmds.lean ====
section
/-! DEFINITION. Host commands of a channel (rows 81 to 92): run control, the G registers, the program store, the oscillators, the Ledger
and the FIR coefficients. Each of them reaches the cluster, and wakes it (R25, R432). -/

namespace Sys2Proof.Machine

/-- GO (R94, R225, R234). -/
def execGo (c : Fin 32) (s : State) : Host.Outcome State Fault Refusal :=
  done s (s.dev.goNow c)

/-- STOP (R96). -/
def execStop (c : Fin 32) (s : State) : Host.Outcome State Fault Refusal :=
  done s ((s.dev.wakeCluster (clu c)).stop c)

/-- BREAK (R97). -/
def execBrk (c : Fin 32) (s : State) : Host.Outcome State Fault Refusal :=
  done s ((s.dev.wakeCluster (clu c)).brk c)

/-- RESUME (R97). -/
def execResume (c : Fin 32) (s : State) : Host.Outcome State Fault Refusal :=
  done s ((s.dev.wakeCluster (clu c)).resume c)

/-- STEP (R97). -/
def execStep (c : Fin 32) (s : State) : Host.Outcome State Fault Refusal :=
  done s ((s.dev.wakeCluster (clu c)).step c)

/-- FAULT_CLEAR (R99). -/
def execFaultClear (c : Fin 32) (s : State) : Host.Outcome State Fault Refusal :=
  done s ((s.dev.wakeCluster (clu c)).faultClear c)

/-- G_WRITE (R90). -/
def execGWrite (c : Fin 32) (i : Fin 16) (be : BitVec 4) (v : W32) (s : State) : Host.Outcome State Fault Refusal :=
  done s ((s.dev.wakeCluster (clu c)).gWrite c i be v)

/-- PROGRAM_STORE_WRITE (R92, R457). -/
def execProgramStoreWrite (c : Fin 32) (off : Nat) (data : List Byte) (s : State) : Host.Outcome State Fault Refusal :=
  done s ((s.dev.wakeCluster (clu c)).progWrite c off data)

/-- NCO_WRITE (R195). -/
def execNcoWrite (c : Fin 32) (r : Fin 9) (be : BitVec 4) (v : W32) (s : State) : Host.Outcome State Fault Refusal :=
  done s ((s.dev.wakeCluster (clu c)).ncoWrite c r be v)

/-- LEDGER_WR (R195, R196). -/
def execLedgerWr (c : Fin 32) (slot : BitVec 8) (andRead : Bool) (s : State) : Host.Outcome State Fault Refusal :=
  done s ((s.dev.wakeCluster (clu c)).ledgerWr c slot andRead)

/-- LEDGER_RD (R196). -/
def execLedgerRd (c : Fin 32) (slot : BitVec 8) (s : State) : Host.Outcome State Fault Refusal :=
  done s ((s.dev.wakeCluster (clu c)).ledgerRd c slot)

/-- FIR_COEF_WRITE (R202). -/
def execFirCoefWrite (c : Fin 32) (bank : Fin 2) (i : Fin 32) (be : BitVec 4) (v : W32) (s : State) : Host.Outcome State Fault Refusal :=
  done s ((s.dev.wakeCluster (clu c)).firCoefWrite c bank i be v)

end Sys2Proof.Machine
end

