-- ==== Sys2Proof/Machine/Interface.lean ====
section
/-! DEFINITION. The register interface (rows 93 to 107): register and alias writes, apply points, snapshots, profiles, resets, MSI-X. -/

namespace Sys2Proof.Machine

/-- REGISTER_WRITE (R42 to R51, R57): a host write to BAR0, of one dword with its byte enables or of that dword and `more` behind
it, with the byte enables `last` of the last; `meets`: in the cycle of a hardware update of the control fields it covers. With `cfg`
the write is a configuration request (R397, R400, R401). -/
def execRegisterWrite (addr : Nat) (be : BitVec 4) (v : W32) (meets : Bool) (s : State) (more : List W32 := []) (last : BitVec 4 := 0xF)
    (cfg : Option ConfigWrite := none) : Host.Outcome State Fault Refusal :=
  match cfg with
  | none => done s (s.dev.hostWrites addr be v more meets last)
  | some w => done s (s.dev.configWrite w)

/-- APPLY_POINT (R50 to R52). -/
def execApplyPoint (pt : Apply) (block : Nat) (s : State) : Host.Outcome State Fault Refusal :=
  done s (s.dev.applyPoint pt block)

/-- ALIAS_WRITE (R54 to R56): a host write to an alias address. -/
def execAliasWrite (addr : Nat) (v : W32) (s : State) : Host.Outcome State Fault Refusal :=
  done s (if (aliasOf addr).isSome then s.dev.hostWrite addr 0xF v else s.dev)

/-- LOCK_WRITE (R61, R62): SEC.DBG_CTRL is the one LOCK register. -/
def execLockWrite (addr : Nat) (be : BitVec 4) (v : W32) (s : State) : Host.Outcome State Fault Refusal :=
  done s (if addr = R.SEC_DBG_CTRL then s.dev.hostWrite addr be v else s.dev)

/-- PAIR_COMMIT (R63): a host write to the HI half of a register pair. -/
def execPairCommit (addrHi : Nat) (be : BitVec 4) (v : W32) (s : State) : Host.Outcome State Fault Refusal :=
  done s (if isPairHi addrHi then s.dev.hostWrite addrHi be v else s.dev)

/-- ABACUS_GO (R65 to R67). -/
def execAbacusGo (s : State) : Host.Outcome State Fault Refusal :=
  done s (s.dev.abacusGo)

/-- ABACUS_ABORT (R69). -/
def execAbacusAbort (s : State) : Host.Outcome State Fault Refusal :=
  done s (s.dev.abacusAbort)

/-- ABACUS_COPY (R66). -/
def execAbacusCopy (s : State) : Host.Outcome State Fault Refusal :=
  done s (s.dev.abacusCopy)

/-- ABACUS_DONE (R68). -/
def execAbacusDone (s : State) : Host.Outcome State Fault Refusal :=
  done s (s.dev.abacusDone)

/-- PARK_ALL (R96). -/
def execParkAll (s : State) : Host.Outcome State Fault Refusal :=
  done s (s.dev.parkAll)

/-- PROFILE_APPLY (R70). -/
def execProfileApply (s : State) : Host.Outcome State Fault Refusal :=
  done s (s.dev.profileApply)

/-- DEVICE_RESET (R387, R388): by a reset of PCIe or not; an MTP write in progress is cut off or not. -/
def execDeviceReset (s : State) (pcie cut : Bool := false) : Host.Outcome State Fault Refusal :=
  done s (s.dev.resetBy pcie cut)

/-- CHANNEL_RESET (R389). -/
def execChannelReset (c : Fin 32) (s : State) : Host.Outcome State Fault Refusal :=
  done s (s.dev.channelReset c)

/-- MSIX_REARM (R404). -/
def execMsixRearm (v : Fin 2048) (s : State) : Host.Outcome State Fault Refusal :=
  done s (s.dev.msixRearm v)

/-- MSIX_MESSAGE (R404). -/
def execMsixMessage (v : Fin 2048) (s : State) : Host.Outcome State Fault Refusal :=
  done s (s.dev.msixMessage v)

end Sys2Proof.Machine
end

