-- ==== Sys2Proof/Machine/LinkRows.lean ====
section
/-! DEFINITION. Arrays and the Adold link (rows 138 to 156, 232 and 238). -/

namespace Sys2Proof.Machine

/-- FORM (R307). -/
def execForm (s : State) : Host.Outcome State Fault Refusal :=
  done s (s.dev.form)

/-- LINK_ABORT (R308). -/
def execLinkAbort (s : State) : Host.Outcome State Fault Refusal :=
  done s (s.dev.linkAbort)

/-- LEAVE (R315). -/
def execLeave (s : State) : Host.Outcome State Fault Refusal :=
  done s (s.dev.leave)

/-- CELL_RECEIVE (R295 to R298): both copies of both words of a cell. -/
def execCellReceive (port : Port) (w0a w1a w0b w1b : W64) (s : State) : Host.Outcome State Fault Refusal :=
  done s (s.dev.cellReceive port w0a w1a w0b w1b)

/-- HELLO (R297). -/
def execHello (port : Port) (content : W32) (origin : BitVec 4) (s : State) : Host.Outcome State Fault Refusal :=
  done s (s.dev.hello port content origin.toNat)

/-- PHASE (R297). -/
def execPhase (port : Port) (content : W32) (origin hops : BitVec 4) (s : State) : Host.Outcome State Fault Refusal :=
  done s (s.dev.phase port content origin.toNat hops.toNat)

/-- PROBE (R297). -/
def execProbe (port : Port) (content : W32) (_origin : BitVec 4) (s : State) : Host.Outcome State Fault Refusal :=
  done s (s.dev.probe port content)

/-- ECHO (R297). -/
def execEcho (port : Port) (content : W32) (_origin : BitVec 4) (s : State) : Host.Outcome State Fault Refusal :=
  done s (s.dev.echo port content)

/-- TIME_HI (R297). -/
def execTimeHi (port : Port) (content : W32) (origin hops : BitVec 4) (s : State) : Host.Outcome State Fault Refusal :=
  done s (s.dev.timeHi port content origin.toNat hops.toNat)

/-- TIME_LO (R297). -/
def execTimeLo (port : Port) (content : W32) (origin hops : BitVec 4) (s : State) : Host.Outcome State Fault Refusal :=
  done s (s.dev.timeLo port content origin.toNat hops.toNat)

/-- BEACON (R309). -/
def execBeacon (port : Port) (content : W32) (origin hops : BitVec 4) (s : State) : Host.Outcome State Fault Refusal :=
  done s (s.dev.beacon port content origin.toNat hops.toNat)

/-- VERIFY (R297). -/
def execVerify (port : Port) (content : W32) (origin hops : BitVec 4) (s : State) : Host.Outcome State Fault Refusal :=
  done s (s.dev.verify port content origin.toNat hops.toNat)

/-- RESULT (R297). -/
def execResult (port : Port) (content : W32) (origin hops : BitVec 4) (s : State) : Host.Outcome State Fault Refusal :=
  done s (s.dev.result port content origin.toNat hops.toNat)

/-- BREAK_NOTICE (R314). -/
def execBreakNotice (port : Port) (content : W32) (origin hops : BitVec 4) (s : State) : Host.Outcome State Fault Refusal :=
  done s (s.dev.breakNotice port content origin.toNat hops.toNat)

/-- ARRAY_EVENT_RECEIVE (R302 to R304). -/
def execArrayEventReceive (port : Port) (body : BitVec 54) (s : State) : Host.Outcome State Fault Refusal :=
  done s (s.dev.arrayEventReceive port body)

/-- ARRAY_EVENT_ENTER (R302). -/
def execArrayEventEnter (s : State) : Host.Outcome State Fault Refusal :=
  done s (s.dev.arrayEventEnter)

/-- LINK_HOST_EV (R305). -/
def execLinkHostEv (s : State) : Host.Outcome State Fault Refusal :=
  done s (s.dev.linkHostEv)

/-- PORT_DOWN (R313). -/
def execPortDown (port : Port) (cause : BitVec 3) (s : State) : Host.Outcome State Fault Refusal :=
  done s (s.dev.portDown port cause.toNat)

/-- LINK_RECALIBRATION (R310). -/
def execLinkRecalibration (now : BitVec 10) (s : State) : Host.Outcome State Fault Refusal :=
  done s (s.dev.linkRecalibration now)

/-- LANE_LOCK (R298). -/
def execLaneLock (port : Port) (lane : Fin 4) (s : State) : Host.Outcome State Fault Refusal :=
  done s (s.dev.laneLock port lane)

/-- FORM_PHASE_LIMIT (R307). -/
def execFormPhaseLimit (reason : BitVec 4) (pos : BitVec 4) (s : State) : Host.Outcome State Fault Refusal :=
  done s (s.dev.formPhaseLimit reason pos)

end Sys2Proof.Machine
end

