-- ==== Sys2Proof/Machine/Oscillators.lean ====
section
/-! DEFINITION. The sequencer instructions of the oscillator and Ledger group (R134 to R140), one meaning each: the row fixes the opcode and the selector bit
that tells it from its sister row, and the word issues under R73 to R107. -/

namespace Sys2Proof.Machine

/-- SETF (R136). -/
def execSetf (c : Fin 32) (a b : BitVec 4) (x : BitVec 48) (s : State) : Host.Outcome State Fault Refusal :=
  done s (s.dev.issue c (mkWord 0x70 a b x) effSetf)

/-- SETFP (R136). -/
def execSetfp (c : Fin 32) (a b : BitVec 4) (x : BitVec 48) (s : State) : Host.Outcome State Fault Refusal :=
  done s (s.dev.issue c (mkWord 0x71 a b x) effSetfp)

/-- SETF_SLOT (R136). -/
def execSetfSlot (c : Fin 32) (a b : BitVec 4) (x : BitVec 48) (s : State) : Host.Outcome State Fault Refusal :=
  done s (s.dev.issue c (mkWord 0x72 a b (withBit x 9 false)) effSetfSlot)

/-- SETFP_SLOT (R136). -/
def execSetfpSlot (c : Fin 32) (a b : BitVec 4) (x : BitVec 48) (s : State) : Host.Outcome State Fault Refusal :=
  done s (s.dev.issue c (mkWord 0x72 a b (withBit x 9 true)) effSetfpSlot)

/-- SETP (R137). -/
def execSetp (c : Fin 32) (a b : BitVec 4) (x : BitVec 48) (s : State) : Host.Outcome State Fault Refusal :=
  done s (s.dev.issue c (mkWord 0x73 a b x) effSetp)

/-- SHIFTP (R137). -/
def execShiftp (c : Fin 32) (a b : BitVec 4) (x : BitVec 48) (s : State) : Host.Outcome State Fault Refusal :=
  done s (s.dev.issue c (mkWord 0x74 a b x) effShiftp)

/-- SELF (R138). -/
def execSelf (c : Fin 32) (a b : BitVec 4) (x : BitVec 48) (s : State) : Host.Outcome State Fault Refusal :=
  done s (s.dev.issue c (mkWord 0x75 a b x) effSelf)

/-- SETA (R139). -/
def execSeta (c : Fin 32) (a b : BitVec 4) (x : BitVec 48) (s : State) : Host.Outcome State Fault Refusal :=
  done s (s.dev.issue c (mkWord 0x76 a b x) effSeta)

/-- MIX (R140). -/
def execMix (c : Fin 32) (a b : BitVec 4) (x : BitVec 48) (s : State) : Host.Outcome State Fault Refusal :=
  done s (s.dev.issue c (mkWord 0x77 a b x) effMix)

end Sys2Proof.Machine
end

