-- ==== Sys2Proof/Machine/Playback.lean ====
section
/-! DEFINITION. The sequencer instructions of the playback group (R121 to R127), one meaning each: the row fixes the opcode and the selector bit
that tells it from its sister row, and the word issues under R73 to R107. -/

namespace Sys2Proof.Machine

/-- X of a PLAYG ring form: a SRC of 0b00, which belongs to the register form, reads as 0b01 (R123). -/
def ringSrc (x : BitVec 48) : BitVec 48 := if bits x 15 14 = 0 then withBit x 14 true else x

/-- PLAY (R122). -/
def execPlay (c : Fin 32) (a b : BitVec 4) (x : BitVec 48) (s : State) : Host.Outcome State Fault Refusal :=
  done s (s.dev.issue c (mkWord 0x40 a b x) effPlay)

/-- PLAYG (R123). -/
def execPlayg (c : Fin 32) (a b : BitVec 4) (x : BitVec 48) (s : State) : Host.Outcome State Fault Refusal :=
  done s (s.dev.issue c (mkWord 0x41 a b (withBit (withBit x 14 false) 15 false)) effPlayg)

/-- PLAYG_RING (R123). -/
def execPlaygRing (c : Fin 32) (a b : BitVec 4) (x : BitVec 48) (s : State) : Host.Outcome State Fault Refusal :=
  done s (s.dev.issue c (mkWord 0x41 a b (ringSrc x)) effPlaygRing)

/-- PLAYN (R124). -/
def execPlayn (c : Fin 32) (a b : BitVec 4) (x : BitVec 48) (s : State) : Host.Outcome State Fault Refusal :=
  done s (s.dev.issue c (mkWord 0x42 a b x) (effSpan .playn))

/-- HOLD (R125). -/
def execHold (c : Fin 32) (a b : BitVec 4) (x : BitVec 48) (s : State) : Host.Outcome State Fault Refusal :=
  done s (s.dev.issue c (mkWord 0x43 a b x) (effSpan .hold))

/-- PARK (R126). -/
def execPark (c : Fin 32) (a b : BitVec 4) (x : BitVec 48) (s : State) : Host.Outcome State Fault Refusal :=
  done s (s.dev.issue c (mkWord 0x44 a b x) (effSpan .park))

end Sys2Proof.Machine
end

