-- ==== Sys2Proof/Machine/RingInstr.lean ====
section
/-! DEFINITION. The sequencer instructions of the ring group (R141 to R145), one meaning each: the row fixes the opcode and the selector bit
that tells it from its sister row, and the word issues under R73 to R107. -/

namespace Sys2Proof.Machine

/-- POP (R144). -/
def execPop (c : Fin 32) (a b : BitVec 4) (x : BitVec 48) (s : State) : Host.Outcome State Fault Refusal :=
  done s (s.dev.issue c (mkWord 0x90 a b (withBit x 18 false)) effPop)

/-- POP_LEDGER (R144). -/
def execPopLedger (c : Fin 32) (a b : BitVec 4) (x : BitVec 48) (s : State) : Host.Outcome State Fault Refusal :=
  done s (s.dev.issue c (mkWord 0x90 a b (withBit x 18 true)) effPopLedger)

/-- PEEK (R145). -/
def execPeek (c : Fin 32) (a b : BitVec 4) (x : BitVec 48) (s : State) : Host.Outcome State Fault Refusal :=
  done s (s.dev.issue c (mkWord 0x91 a b x) effPeek)

/-- RDY (R145). -/
def execRdy (c : Fin 32) (a b : BitVec 4) (x : BitVec 48) (s : State) : Host.Outcome State Fault Refusal :=
  done s (s.dev.issue c (mkWord 0x92 a b x) effRdy)

/-- ACK (R145). -/
def execAck (c : Fin 32) (a b : BitVec 4) (x : BitVec 48) (s : State) : Host.Outcome State Fault Refusal :=
  done s (s.dev.issue c (mkWord 0x93 a b x) effAck)

end Sys2Proof.Machine
end

