-- ==== Sys2Proof/Machine/RingRows.lean ====
section
/-! DEFINITION. Caravan rings (rows 129 to 137). -/

namespace Sys2Proof.Machine

/-- BIND (R271). -/
def execBind (q : BitVec 18) (s : State) : Host.Outcome State Fault Refusal :=
  done s (s.dev.bind q.toNat)

/-- UNBIND (R271). -/
def execUnbind (q : BitVec 18) (s : State) : Host.Outcome State Fault Refusal :=
  done s (s.dev.unbind q.toNat)

/-- RECHECK (R271, R279). -/
def execRecheck (q : BitVec 18) (s : State) : Host.Outcome State Fault Refusal :=
  done s (s.dev.recheck q.toNat)

/-- CONTEXT_WRITE (R270). -/
def execContextWrite (off : Nat) (data : List Byte) (s : State) : Host.Outcome State Fault Refusal :=
  done s (s.dev.contextWrite off data)

/-- DOORBELL (R274, R275). -/
def execDoorbell (off : Nat) (size : Nat) (v : W64) (s : State) : Host.Outcome State Fault Refusal :=
  done s (s.dev.doorbell off size v)

/-- PROD_ADVANCE (R276). -/
def execProdAdvance (q : BitVec 18) (s : State) : Host.Outcome State Fault Refusal :=
  done s (s.dev.prodAdvance q.toNat)

/-- RECORD_FETCH (R279, R281). -/
def execRecordFetch (q : BitVec 18) (index : W32) (s : State) : Host.Outcome State Fault Refusal :=
  done s (s.dev.recordFetch q.toNat index)

/-- D2H_RECORD_WRITE (R285). -/
def execD2hRecordWrite (s : State) : Host.Outcome State Fault Refusal :=
  done s (s.dev.d2hRecordWrite)

/-- STATUS_RECORD (R287). -/
def execStatusRecord (m : Fin 4) (src : BitVec 18) (s : State) : Host.Outcome State Fault Refusal :=
  done s (s.dev.statusRecord m src.toNat)

end Sys2Proof.Machine
end

