-- ==== Sys2Proof/Machine/SecRows.lean ====
section
/-! DEFINITION. Security (rows 227 to 230). -/

namespace Sys2Proof.Machine

/-- ADVANCE_SVN (R427). -/
def execAdvanceSvn (s : State) : Host.Outcome State Fault Refusal :=
  done s (s.dev.secCmd 1)

/-- SCRAP (R427). -/
def execScrap (s : State) : Host.Outcome State Fault Refusal :=
  done s (s.dev.secCmd 2)

/-- REVOKE_ROOT (R427). -/
def execRevokeRoot (r : Fin 4) (s : State) : Host.Outcome State Fault Refusal :=
  done s (s.dev.revokeRoot r)

/-- DBG_CTRL_WRITE (R425): a host write to SEC.DBG_CTRL. -/
def execDbgCtrlWrite (be : BitVec 4) (v : W32) (s : State) : Host.Outcome State Fault Refusal :=
  done s (s.dev.hostWrite R.SEC_DBG_CTRL be v)

end Sys2Proof.Machine
end

