-- ==== Sys2Proof/Machine/SeqTick.lean ====
section
/-! DEFINITION. What the sequencer and the output of a channel do on their ticks (rows 66 to 80). Each row happens when its condition
holds and leaves the device as it is otherwise. -/

namespace Sys2Proof.Machine

/-- RUNAHEAD_RESUME (R79): the instruction that waited for SC to come within 4,096 ticks issues whole. -/
def execRunaheadResume (c : Fin 32) (s : State) : Host.Outcome State Fault Refusal :=
  done s (s.dev.retry c .runahead effectOf)

/-- QUEUE_FULL_RESUME (R80): the instruction that waited for a place in the action queue issues whole. -/
def execQueueFullResume (c : Fin 32) (s : State) : Host.Outcome State Fault Refusal :=
  done s (s.dev.retry c .queueFull effectOf)

/-- RING_READY_RESUME (R143): the ring instruction that waited for ready records issues whole. -/
def execRingReadyResume (c : Fin 32) (s : State) : Host.Outcome State Fault Refusal :=
  done s (s.dev.retry c .ring effectOf)

/-- RING_TIMEOUT (R143). -/
def execRingTimeout (c : Fin 32) (s : State) : Host.Outcome State Fault Refusal :=
  done s (s.dev.ringTimeout c)

/-- DECISION_RESOLVE (R84, R86): a waiting JEV or BEV resolves once its window is complete. -/
def execDecisionResolve (c : Fin 32) (s : State) : Host.Outcome State Fault Refusal :=
  done s (s.dev.retry c .decision effectOf)

/-- WAITEV_MATCH (R85, R86). -/
def execWaitevMatch (c : Fin 32) (s : State) : Host.Outcome State Fault Refusal :=
  done s (s.dev.waitevMatch c)

/-- WAITEV_TIMEOUT (R120). -/
def execWaitevTimeout (c : Fin 32) (s : State) : Host.Outcome State Fault Refusal :=
  done s (s.dev.waitevTimeout c)

/-- ACTION_DISPATCH (R78, R80): the oldest queued action leaves the queue in tick T − 31. -/
def execActionDispatch (c : Fin 32) (s : State) : Host.Outcome State Fault Refusal :=
  done s (s.dev.dispatch c)

/-- ACTION_TAKE_EFFECT (R77, R186): dispatched actions take effect at the start of their tick, in issue order. -/
def execActionTakeEffect (c : Fin 32) (s : State) : Host.Outcome State Fault Refusal :=
  done s (s.dev.takeEffect c)

/-- BLOCK_COMMIT (R154): the next block is committed at the start of tick S − 31. -/
def execBlockCommit (c : Fin 32) (s : State) : Host.Outcome State Fault Refusal :=
  done s (s.dev.blockCommit c)

/-- SCHEDULE_DRY (R81). -/
def execScheduleDry (c : Fin 32) (s : State) : Host.Outcome State Fault Refusal :=
  done s (s.dev.scheduleDry c)

/-- FAULT_PARK (R98, R180). -/
def execFaultPark (c : Fin 32) (s : State) : Host.Outcome State Fault Refusal :=
  done s (s.dev.faultPark c)

/-- STOP_END (R96). -/
def execStopEnd (c : Fin 32) (s : State) : Host.Outcome State Fault Refusal :=
  done s (s.dev.stopEnd c)

/-- DRAIN_END (R95): a queued GO starts at once (R94). -/
def execDrainEnd (c : Fin 32) (s : State) : Host.Outcome State Fault Refusal :=
  done s ((s.dev.drainEnd c).goWaiting c)

/-- EVENT_START (R94, R262). -/
def execEventStart (c : Fin 32) (s : State) : Host.Outcome State Fault Refusal :=
  done s (s.dev.eventStart c)

end Sys2Proof.Machine
end

