-- ==== Sys2Proof/Machine/SramRows.lean ====
section
/-! DEFINITION. On-chip memories (rows 169, 170 and 239). -/

namespace Sys2Proof.Machine

/-- SRAM_SCRUB (R355). -/
def execSramScrub (m : Sram) (addr : Nat) (raced : Bool) (s : State) : Host.Outcome State Fault Refusal :=
  done s (s.dev.sramScrub m addr raced)

/-- SIROCCO_REGION (R356 to R358). -/
def execSiroccoRegion (engine : Fin 9) (m : Sram) (addr : Nat) (accessed : Bool) (r : MarchResult) (s : State) : Host.Outcome State Fault Refusal :=
  done s (s.dev.siroccoRegion engine m addr accessed r)

/-- WINDOW_READ (R42 to R46, R277, R353, R397, R457): a host read of BAR0, through a memory-like window or of registers, of doorbell
words in BAR2, or with `cfg` of configuration space. -/
def execWindowRead (addr : Nat) (len : Nat) (s : State) (bar2 : Bool := false) (cfg : Bool := false) :
    Host.Outcome State Fault Refusal :=
  done s (if cfg then s.dev.configRead addr len else if bar2 then s.dev.doorbellRead addr len else s.dev.hostRead addr len)

end Sys2Proof.Machine
end

