-- ==== Sys2Proof/Machine/StageCmds.lean ====
section
/-! DEFINITION. Segments, stage buffers, target heads and CL.FILL (rows 108 to 117). -/

namespace Sys2Proof.Machine

/-- DESCRIPTOR_WRITE (R155, R156). -/
def execDescriptorWrite (k : Fin 8) (off : Nat) (data : List Byte) (s : State) : Host.Outcome State Fault Refusal :=
  done s (s.dev.descriptorWrite k off data)

/-- STAGE_REQUEST (R166). -/
def execStageRequest (c : Fin 32) (s : State) : Host.Outcome State Fault Refusal :=
  done s (s.dev.stageRequest c)

/-- STAGE_FILL_ARRIVE (R166, R179). -/
def execStageFillArrive (c : Fin 32) (s : State) : Host.Outcome State Fault Refusal :=
  done s (s.dev.stageFillArrive c)

/-- TGT_CFG_WRITE (R170). -/
def execTgtCfgWrite (c : Fin 32) (i : Fin 16) (be : BitVec 4) (v : W32) (s : State) : Host.Outcome State Fault Refusal :=
  done s (s.dev.tgtCfgWrite c i be v)

/-- RELOAD (R170). -/
def execReload (c : Fin 32) (i : Fin 16) (s : State) : Host.Outcome State Fault Refusal :=
  done s (s.dev.reload c i)

/-- HEAD_LOAD_END (R170, R171). -/
def execHeadLoadEnd (c : Fin 32) (i : Fin 16) (s : State) : Host.Outcome State Fault Refusal :=
  done s (s.dev.headLoadEnd c i)

/-- FILL_GO (R181). -/
def execFillGo (k : Fin 8) (s : State) : Host.Outcome State Fault Refusal :=
  done s (s.dev.fillGo k)

/-- FILL_ABORT (R181). -/
def execFillAbort (k : Fin 8) (s : State) : Host.Outcome State Fault Refusal :=
  done s (s.dev.fillAbort k)

/-- FILL_END (R181). -/
def execFillEnd (k : Fin 8) (s : State) : Host.Outcome State Fault Refusal :=
  done s (s.dev.fillEnd k)

/-- OASIS_WRITE (R164, R350, R353); `meets`: in the cycle of a port F write of the same words. -/
def execOasisWrite (k : Fin 8) (off : Nat) (data : List Byte) (meets : Bool) (s : State) :
    Host.Outcome State Fault Refusal :=
  done s ((if meets then s.dev.oasisCollide k off data else s.dev).oasisWrite k off data)

end Sys2Proof.Machine
end

