-- ==== Sys2Proof/Machine/System.lean ====
section
/-! DEFINITION. The sequencer instructions of the system group (R146 to R149), one meaning each: the row fixes the opcode and the selector bit
that tells it from its sister row, and the word issues under R73 to R107. -/

namespace Sys2Proof.Machine

/-- CALW (R147). -/
def execCalw (c : Fin 32) (a b : BitVec 4) (x : BitVec 48) (s : State) : Host.Outcome State Fault Refusal :=
  done s (s.dev.issue c (mkWord 0xA0 a b x) effCalw)

/-- TSTAMP (R148). -/
def execTstamp (c : Fin 32) (a b : BitVec 4) (x : BitVec 48) (s : State) : Host.Outcome State Fault Refusal :=
  done s (s.dev.issue c (mkWord 0xA1 a b x) effTstamp)

/-- IRQ (R149). -/
def execIrq (c : Fin 32) (a b : BitVec 4) (x : BitVec 48) (s : State) : Host.Outcome State Fault Refusal :=
  done s (s.dev.issue c (mkWord 0xA2 a b (withBit x 0 false)) effIrqNow)

/-- IRQ_AT (R149). -/
def execIrqAt (c : Fin 32) (a b : BitVec 4) (x : BitVec 48) (s : State) : Host.Outcome State Fault Refusal :=
  done s (s.dev.issue c (mkWord 0xA2 a b (withBit x 0 true)) effIrqAt)

end Sys2Proof.Machine
end

