-- ==== Sys2Proof/Machine/Timing.lean ====
section
/-! DEFINITION. The sequencer instructions of the timing group (R115 to R120), one meaning each: the row fixes the opcode and the selector bit
that tells it from its sister row, and the word issues under R73 to R107. -/

namespace Sys2Proof.Machine

/-- WAIT_IMM (R116). -/
def execWaitImm (c : Fin 32) (a b : BitVec 4) (x : BitVec 48) (s : State) : Host.Outcome State Fault Refusal :=
  done s (s.dev.issue c (mkWord 0x30 a b x) effWaitImm)

/-- WAIT_REG (R116). -/
def execWaitReg (c : Fin 32) (a b : BitVec 4) (x : BitVec 48) (s : State) : Host.Outcome State Fault Refusal :=
  done s (s.dev.issue c (mkWord 0x31 a b x) effWaitReg)

/-- WAITT (R117). -/
def execWaitt (c : Fin 32) (a b : BitVec 4) (x : BitVec 48) (s : State) : Host.Outcome State Fault Refusal :=
  done s (s.dev.issue c (mkWord 0x32 a b x) effWaitt)

/-- SYNC (R118). -/
def execSync (c : Fin 32) (a b : BitVec 4) (x : BitVec 48) (s : State) : Host.Outcome State Fault Refusal :=
  done s (s.dev.issue c (mkWord 0x33 a b x) effSync)

/-- WAITEV (R119). -/
def execWaitev (c : Fin 32) (a b : BitVec 4) (x : BitVec 48) (s : State) : Host.Outcome State Fault Refusal :=
  done s (s.dev.issue c (mkWord 0x34 a b x) effWaitev)

end Sys2Proof.Machine
end

