-- ==== Sys2Proof/Machine/Dispatch.lean ====
section
/-! DEFINITION. The meaning of every command: one arm per constructor, each one direct call. -/

namespace Sys2Proof.Machine

/-- What a command does to everything but the queue. -/
def exec (i : Instr) (s : State) : Host.Outcome State Fault Refusal :=
  match i with
  | .nop c a b x => Sys2Proof.Machine.execNop c a b x s
  | .halt c a b x => Sys2Proof.Machine.execHalt c a b x s
  | .jmp c a b x => Sys2Proof.Machine.execJmp c a b x s
  | .jcc c a b x => Sys2Proof.Machine.execJcc c a b x s
  | .call c a b x => Sys2Proof.Machine.execCall c a b x s
  | .ret c a b x => Sys2Proof.Machine.execRet c a b x s
  | .loop c a b x => Sys2Proof.Machine.execLoop c a b x s
  | .endl c a b x => Sys2Proof.Machine.execEndl c a b x s
  | .mov c a b x => Sys2Proof.Machine.execMov c a b x s
  | .add c a b x => Sys2Proof.Machine.execAdd c a b x s
  | .sub c a b x => Sys2Proof.Machine.execSub c a b x s
  | .mul c a b x => Sys2Proof.Machine.execMul c a b x s
  | .and c a b x => Sys2Proof.Machine.execAnd c a b x s
  | .or c a b x => Sys2Proof.Machine.execOr c a b x s
  | .xor c a b x => Sys2Proof.Machine.execXor c a b x s
  | .shl c a b x => Sys2Proof.Machine.execShl c a b x s
  | .shr c a b x => Sys2Proof.Machine.execShr c a b x s
  | .sar c a b x => Sys2Proof.Machine.execSar c a b x s
  | .min c a b x => Sys2Proof.Machine.execMin c a b x s
  | .max c a b x => Sys2Proof.Machine.execMax c a b x s
  | .movi c a b x => Sys2Proof.Machine.execMovi c a b x s
  | .addi c a b x => Sys2Proof.Machine.execAddi c a b x s
  | .subi c a b x => Sys2Proof.Machine.execSubi c a b x s
  | .muli c a b x => Sys2Proof.Machine.execMuli c a b x s
  | .andi c a b x => Sys2Proof.Machine.execAndi c a b x s
  | .ori c a b x => Sys2Proof.Machine.execOri c a b x s
  | .xori c a b x => Sys2Proof.Machine.execXori c a b x s
  | .shli c a b x => Sys2Proof.Machine.execShli c a b x s
  | .shri c a b x => Sys2Proof.Machine.execShri c a b x s
  | .sari c a b x => Sys2Proof.Machine.execSari c a b x s
  | .mini c a b x => Sys2Proof.Machine.execMini c a b x s
  | .maxi c a b x => Sys2Proof.Machine.execMaxi c a b x s
  | .waitImm c a b x => Sys2Proof.Machine.execWaitImm c a b x s
  | .waitReg c a b x => Sys2Proof.Machine.execWaitReg c a b x s
  | .waitt c a b x => Sys2Proof.Machine.execWaitt c a b x s
  | .sync c a b x => Sys2Proof.Machine.execSync c a b x s
  | .waitev c a b x => Sys2Proof.Machine.execWaitev c a b x s
  | .play c a b x => Sys2Proof.Machine.execPlay c a b x s
  | .playg c a b x => Sys2Proof.Machine.execPlayg c a b x s
  | .playgRing c a b x => Sys2Proof.Machine.execPlaygRing c a b x s
  | .playn c a b x => Sys2Proof.Machine.execPlayn c a b x s
  | .hold c a b x => Sys2Proof.Machine.execHold c a b x s
  | .park c a b x => Sys2Proof.Machine.execPark c a b x s
  | .jev c a b x => Sys2Proof.Machine.execJev c a b x s
  | .bev c a b x => Sys2Proof.Machine.execBev c a b x s
  | .sig c a b x => Sys2Proof.Machine.execSig c a b x s
  | .sigArray c a b x => Sys2Proof.Machine.execSigArray c a b x s
  | .mark c a b x => Sys2Proof.Machine.execMark c a b x s
  | .setf c a b x => Sys2Proof.Machine.execSetf c a b x s
  | .setfp c a b x => Sys2Proof.Machine.execSetfp c a b x s
  | .setfSlot c a b x => Sys2Proof.Machine.execSetfSlot c a b x s
  | .setfpSlot c a b x => Sys2Proof.Machine.execSetfpSlot c a b x s
  | .setp c a b x => Sys2Proof.Machine.execSetp c a b x s
  | .shiftp c a b x => Sys2Proof.Machine.execShiftp c a b x s
  | .self c a b x => Sys2Proof.Machine.execSelf c a b x s
  | .seta c a b x => Sys2Proof.Machine.execSeta c a b x s
  | .mix c a b x => Sys2Proof.Machine.execMix c a b x s
  | .pop c a b x => Sys2Proof.Machine.execPop c a b x s
  | .popLedger c a b x => Sys2Proof.Machine.execPopLedger c a b x s
  | .peek c a b x => Sys2Proof.Machine.execPeek c a b x s
  | .rdy c a b x => Sys2Proof.Machine.execRdy c a b x s
  | .ack c a b x => Sys2Proof.Machine.execAck c a b x s
  | .calw c a b x => Sys2Proof.Machine.execCalw c a b x s
  | .tstamp c a b x => Sys2Proof.Machine.execTstamp c a b x s
  | .irq c a b x => Sys2Proof.Machine.execIrq c a b x s
  | .irqAt c a b x => Sys2Proof.Machine.execIrqAt c a b x s
  | .runaheadResume c => Sys2Proof.Machine.execRunaheadResume c s
  | .queueFullResume c => Sys2Proof.Machine.execQueueFullResume c s
  | .ringReadyResume c => Sys2Proof.Machine.execRingReadyResume c s
  | .ringTimeout c => Sys2Proof.Machine.execRingTimeout c s
  | .decisionResolve c => Sys2Proof.Machine.execDecisionResolve c s
  | .waitevMatch c => Sys2Proof.Machine.execWaitevMatch c s
  | .waitevTimeout c => Sys2Proof.Machine.execWaitevTimeout c s
  | .actionDispatch c => Sys2Proof.Machine.execActionDispatch c s
  | .actionTakeEffect c => Sys2Proof.Machine.execActionTakeEffect c s
  | .blockCommit c => Sys2Proof.Machine.execBlockCommit c s
  | .scheduleDry c => Sys2Proof.Machine.execScheduleDry c s
  | .faultPark c => Sys2Proof.Machine.execFaultPark c s
  | .stopEnd c => Sys2Proof.Machine.execStopEnd c s
  | .drainEnd c => Sys2Proof.Machine.execDrainEnd c s
  | .eventStart c => Sys2Proof.Machine.execEventStart c s
  | .go c => Sys2Proof.Machine.execGo c s
  | .stop c => Sys2Proof.Machine.execStop c s
  | .brk c => Sys2Proof.Machine.execBrk c s
  | .resume c => Sys2Proof.Machine.execResume c s
  | .step c => Sys2Proof.Machine.execStep c s
  | .faultClear c => Sys2Proof.Machine.execFaultClear c s
  | .gWrite c ix be v => Sys2Proof.Machine.execGWrite c ix be v s
  | .programStoreWrite c off data => Sys2Proof.Machine.execProgramStoreWrite c off data s
  | .ncoWrite c r be v => Sys2Proof.Machine.execNcoWrite c r be v s
  | .ledgerWr c slot andRead => Sys2Proof.Machine.execLedgerWr c slot andRead s
  | .ledgerRd c slot => Sys2Proof.Machine.execLedgerRd c slot s
  | .firCoefWrite c bank ix be v => Sys2Proof.Machine.execFirCoefWrite c bank ix be v s
  | .registerWrite addr be v meets more last cfg => Sys2Proof.Machine.execRegisterWrite addr be v meets s more last cfg
  | .applyPoint pt block => Sys2Proof.Machine.execApplyPoint pt block s
  | .aliasWrite addr v => Sys2Proof.Machine.execAliasWrite addr v s
  | .lockWrite addr be v => Sys2Proof.Machine.execLockWrite addr be v s
  | .pairCommit addrHi be v => Sys2Proof.Machine.execPairCommit addrHi be v s
  | .abacusGo => Sys2Proof.Machine.execAbacusGo s
  | .abacusAbort => Sys2Proof.Machine.execAbacusAbort s
  | .abacusCopy => Sys2Proof.Machine.execAbacusCopy s
  | .abacusDone => Sys2Proof.Machine.execAbacusDone s
  | .parkAll => Sys2Proof.Machine.execParkAll s
  | .profileApply => Sys2Proof.Machine.execProfileApply s
  | .deviceReset pcie cut => Sys2Proof.Machine.execDeviceReset s pcie cut
  | .channelReset c => Sys2Proof.Machine.execChannelReset c s
  | .msixRearm v => Sys2Proof.Machine.execMsixRearm v s
  | .msixMessage v => Sys2Proof.Machine.execMsixMessage v s
  | .descriptorWrite k off data => Sys2Proof.Machine.execDescriptorWrite k off data s
  | .stageRequest c => Sys2Proof.Machine.execStageRequest c s
  | .stageFillArrive c => Sys2Proof.Machine.execStageFillArrive c s
  | .tgtCfgWrite c ix be v => Sys2Proof.Machine.execTgtCfgWrite c ix be v s
  | .reload c ix => Sys2Proof.Machine.execReload c ix s
  | .headLoadEnd c ix => Sys2Proof.Machine.execHeadLoadEnd c ix s
  | .fillGo k => Sys2Proof.Machine.execFillGo k s
  | .fillAbort k => Sys2Proof.Machine.execFillAbort k s
  | .fillEnd k => Sys2Proof.Machine.execFillEnd k s
  | .oasisWrite k off data meets => Sys2Proof.Machine.execOasisWrite k off data meets s
  | .trigEdge ix high m held late => Sys2Proof.Machine.execTrigEdge ix high m held late s
  | .markerEdge ix rising m => Sys2Proof.Machine.execMarkerEdge ix rising m s
  | .timerEn ix en => Sys2Proof.Machine.execTimerEn ix en s
  | .timerFire ix => Sys2Proof.Machine.execTimerFire ix s
  | .hostEvGo => Sys2Proof.Machine.execHostEvGo s
  | .hostEvEmit => Sys2Proof.Machine.execHostEvEmit s
  | .frameClose t => Sys2Proof.Machine.execFrameClose t s
  | .eventPresent c code stamp => Sys2Proof.Machine.execEventPresent c code stamp s
  | .dtLoad => Sys2Proof.Machine.execDtLoad s
  | .dtResume => Sys2Proof.Machine.execDtResume s
  | .logWrite => Sys2Proof.Machine.execLogWrite s
  | .bind q => Sys2Proof.Machine.execBind q s
  | .unbind q => Sys2Proof.Machine.execUnbind q s
  | .recheck q => Sys2Proof.Machine.execRecheck q s
  | .contextWrite off data => Sys2Proof.Machine.execContextWrite off data s
  | .doorbell off size v => Sys2Proof.Machine.execDoorbell off size v s
  | .prodAdvance q => Sys2Proof.Machine.execProdAdvance q s
  | .recordFetch q index => Sys2Proof.Machine.execRecordFetch q index s
  | .d2hRecordWrite => Sys2Proof.Machine.execD2hRecordWrite s
  | .statusRecord m src => Sys2Proof.Machine.execStatusRecord m src s
  | .form => Sys2Proof.Machine.execForm s
  | .linkAbort => Sys2Proof.Machine.execLinkAbort s
  | .leave => Sys2Proof.Machine.execLeave s
  | .cellReceive port w0a w1a w0b w1b => Sys2Proof.Machine.execCellReceive port w0a w1a w0b w1b s
  | .hello port content origin => Sys2Proof.Machine.execHello port content origin s
  | .phase port content origin hops => Sys2Proof.Machine.execPhase port content origin hops s
  | .probe port content origin => Sys2Proof.Machine.execProbe port content origin s
  | .echo port content origin => Sys2Proof.Machine.execEcho port content origin s
  | .timeHi port content origin hops => Sys2Proof.Machine.execTimeHi port content origin hops s
  | .timeLo port content origin hops => Sys2Proof.Machine.execTimeLo port content origin hops s
  | .beacon port content origin hops => Sys2Proof.Machine.execBeacon port content origin hops s
  | .verify port content origin hops => Sys2Proof.Machine.execVerify port content origin hops s
  | .result port content origin hops => Sys2Proof.Machine.execResult port content origin hops s
  | .breakNotice port content origin hops => Sys2Proof.Machine.execBreakNotice port content origin hops s
  | .arrayEventReceive port body => Sys2Proof.Machine.execArrayEventReceive port body s
  | .arrayEventEnter => Sys2Proof.Machine.execArrayEventEnter s
  | .linkHostEv => Sys2Proof.Machine.execLinkHostEv s
  | .portDown port cause => Sys2Proof.Machine.execPortDown port cause s
  | .linkRecalibration now => Sys2Proof.Machine.execLinkRecalibration now s
  | .bar4Write addr data => Sys2Proof.Machine.execBar4Write addr data s
  | .bar4Read addr len => Sys2Proof.Machine.execBar4Read addr len s
  | .fence => Sys2Proof.Machine.execFence s
  | .fenceDone => Sys2Proof.Machine.execFenceDone s
  | .refresh p bank waiting exceeded => Sys2Proof.Machine.execRefresh p bank waiting exceeded s
  | .scrubRead addr raced => Sys2Proof.Machine.execScrubRead addr raced s
  | .freqChange relocked => Sys2Proof.Machine.execFreqChange relocked s
  | .freqRelockTimeout => Sys2Proof.Machine.execFreqRelockTimeout s
  | .retrain => Sys2Proof.Machine.execRetrain s
  | .retrainSlice p r => Sys2Proof.Machine.execRetrainSlice p r s
  | .remap => Sys2Proof.Machine.execRemap s
  | .selfRefreshEntry stk => Sys2Proof.Machine.execSelfRefreshEntry stk s
  | .sramScrub m addr raced => Sys2Proof.Machine.execSramScrub m addr raced s
  | .siroccoRegion engine m addr accessed r => Sys2Proof.Machine.execSiroccoRegion engine m addr accessed r s
  | .spllApply => Sys2Proof.Machine.execSpllApply s
  | .lockWindow count => Sys2Proof.Machine.execLockWindow count s
  | .syncEdge pin => Sys2Proof.Machine.execSyncEdge pin s
  | .syncTimeout => Sys2Proof.Machine.execSyncTimeout s
  | .emit => Sys2Proof.Machine.execEmit s
  | .refinLoss => Sys2Proof.Machine.execRefinLoss s
  | .coastWindow ferr => Sys2Proof.Machine.execCoastWindow ferr s
  | .lockTmo => Sys2Proof.Machine.execLockTmo s
  | .sourceLoss src => Sys2Proof.Machine.execSourceLoss src s
  | .restart => Sys2Proof.Machine.execRestart s
  | .sysApply => Sys2Proof.Machine.execSysApply s
  | .gateRequest domain => Sys2Proof.Machine.execGateRequest domain s
  | .gateErr domain => Sys2Proof.Machine.execGateErr domain s
  | .clusterWake k => Sys2Proof.Machine.execClusterWake k s
  | .aonStable => Sys2Proof.Machine.execAonStable s
  | .powerGood nresetLow => Sys2Proof.Machine.execPowerGood s nresetLow
  | .nresetLow ns => Sys2Proof.Machine.execNresetLow ns s
  | .supplyFail analogueInRange => Sys2Proof.Machine.execSupplyFail analogueInRange s
  | .stageAdvance r => Sys2Proof.Machine.execStageAdvance r s
  | .otherSlotVerify ok => Sys2Proof.Machine.execOtherSlotVerify ok s
  | .reckonerRestart => Sys2Proof.Machine.execReckonerRestart s
  | .reckonerReady => Sys2Proof.Machine.execReckonerReady s
  | .info => Sys2Proof.Machine.execInfo s
  | .calRead mtpError => Sys2Proof.Machine.execCalRead s mtpError
  | .health => Sys2Proof.Machine.execHealth s
  | .mgmtRestart => Sys2Proof.Machine.execMgmtRestart s
  | .report readBackOk fails => Sys2Proof.Machine.execReport readBackOk s fails
  | .identity => Sys2Proof.Machine.execIdentity s
  | .extend => Sys2Proof.Machine.execExtend s
  | .flashWrite readBackOk => Sys2Proof.Machine.execFlashWrite readBackOk s
  | .challenge => Sys2Proof.Machine.execChallenge s
  | .respond => Sys2Proof.Machine.execRespond s
  | .mgmtAbort => Sys2Proof.Machine.execMgmtAbort s
  | .regRead off => Sys2Proof.Machine.execRegRead off s
  | .regWrite off v badPec => Sys2Proof.Machine.execRegWrite off v s badPec
  | .smbStatus => Sys2Proof.Machine.execSmbStatus s
  | .alertSrc => Sys2Proof.Machine.execAlertSrc s
  | .smbReset data badPec => Sys2Proof.Machine.execSmbReset data s badPec
  | .alertResponse => Sys2Proof.Machine.execAlertResponse s
  | .pcieLinkLoss => Sys2Proof.Machine.execPcieLinkLoss s
  | .jtagInstruction ir => Sys2Proof.Machine.execJtagInstruction ir s
  | .rotationStep c saturated r => Sys2Proof.Machine.execRotationStep c saturated r s
  | .calCompare c => Sys2Proof.Machine.execCalCompare c s
  | .calRunStart c kind => Sys2Proof.Machine.execCalRunStart c kind s
  | .calRunEnd c gain ofs failed => Sys2Proof.Machine.execCalRunEnd c gain ofs failed s
  | .calAbort c reason => Sys2Proof.Machine.execCalAbort c reason s
  | .run c => Sys2Proof.Machine.execRun c s
  | .save c => Sys2Proof.Machine.execSave c s
  | .mtpRecordWrite c readBackOk => Sys2Proof.Machine.execMtpRecordWrite c readBackOk s
  | .mtpDeferExpiry c => Sys2Proof.Machine.execMtpDeferExpiry c s
  | .rangeChange c => Sys2Proof.Machine.execRangeChange c s
  | .rangeEnd c => Sys2Proof.Machine.execRangeEnd c s
  | .rateChange d => Sys2Proof.Machine.execRateChange d s
  | .rateChangeEnd d => Sys2Proof.Machine.execRateChangeEnd d s
  | .telemConversion sensor valid v => Sys2Proof.Machine.execTelemConversion sensor valid v s
  | .trip sensor => Sys2Proof.Machine.execTrip sensor s
  | .advanceSvn => Sys2Proof.Machine.execAdvanceSvn s
  | .scrap => Sys2Proof.Machine.execScrap s
  | .revokeRoot r => Sys2Proof.Machine.execRevokeRoot r s
  | .dbgCtrlWrite be v => Sys2Proof.Machine.execDbgCtrlWrite be v s
  | .tick => Sys2Proof.Machine.execTick s
  | .laneLock port lane => Sys2Proof.Machine.execLaneLock port lane s
  | .refinReturn => Sys2Proof.Machine.execRefinReturn s
  | .sourceBack src => Sys2Proof.Machine.execSourceBack src s
  | .slewEnd => Sys2Proof.Machine.execSlewEnd s
  | .applyLockTimeout => Sys2Proof.Machine.execApplyLockTimeout s
  | .sysBypass => Sys2Proof.Machine.execSysBypass s
  | .formPhaseLimit reason pos => Sys2Proof.Machine.execFormPhaseLimit reason pos s
  | .windowRead addr len bar2 cfg => Sys2Proof.Machine.execWindowRead addr len s bar2 cfg
  | .stackWake stk => Sys2Proof.Machine.execStackWake stk s
  | .frequencyMonitorWindow khz => Sys2Proof.Machine.execFrequencyMonitorWindow khz s

end Sys2Proof.Machine
end

