-- ==== Sys2Proof/Machine/Dac.lean ====
section
/-! DEFINITION. From codes to the pins: the interleave (R214), the conversion of a sub-DAC (R211), ranges and levels (R218), the
halves of a sample period (R221). What a resistor measures is free (log entry 49). -/

namespace Sys2Proof.Machine

/-- Interleave position of sample `m` of tick `t` with `s` samples per tick (R214). -/
def position (s : Nat) (t : Tick) (m : Nat) : Nat := (s * t.toNat + m) % 16

/-- Sub-DAC that serves position `p` (R215). -/
def Dev.server (d : Dev) (c : Fin 32) (p : Nat) : Nat := d.get ⟨R.CH_DAC_MAP c (p / 4), 8 * (p % 4), 5⟩

/-- The coarse units of sub-DAC `u` in the order its map connects them, low reference first (R213). -/
def SubDac.string (s : SubDac) : List Nat :=
  ((List.range 80).filter s.use.getLsbD).insertionSort fun i j => Config.connection s.ord i ≤ Config.connection s.ord j

/-- Voltage across built coarse unit `j`: a resistor of a series string drops some (R212). -/
def unitDrop (c u j : Nat) : Nat := Config.coarseUnit c u j + 1

/-- Node `i` of a coarse string of 64 units with the drops `drops`: the part of the span from the low reference, node 0, to the high
reference, node 64, that lies below it (R211). -/
def vtap (drops : List Nat) (i : Nat) : Rat := ((drops.take i).sum : Rat) / ((drops.take 64).sum : Rat)

/-- The value v that a string with the drops `drops` gives code `code`, as a part of the span of the references (R211). -/
def convert (drops : List Nat) (code : BitVec 12) : Rat :=
  let uc := (code.toInt + 2048).toNat
  let i := uc / 64
  let f : Rat := (uc % 64 : Nat)
  vtap drops i + f / 64 * (vtap drops (i + 1) - vtap drops i)

/-- Drops of the coarse string of sub-DAC `u` of channel `c`. -/
def Dev.drops (d : Dev) (c : Fin 32) (u : Nat) : List Nat :=
  match (d.cal c).subs[u]? with
  | some s => s.string.map (unitDrop c u)
  | none => []

/-- What the sub-DAC that serves sample `m` of tick DT makes of a code (R211, R214). -/
def Dev.converted (d : Dev) (c : Fin 32) (m : Nat) (code : BitVec 12) : Rat :=
  convert (d.drops c (d.server c (position (d.spt c) d.ev.dt m))) code

/-- Full scale of a range, in mV differential (R218). -/
def fullScale (range : Nat) : Int := if range = 0 then 500 else if range = 1 then 1000 else 1400

/-- One LSB of a range, in units of 1 mV / 4,096 (R218). -/
def lsb (range : Nat) : Int := fullScale range

/-- Differential level of a code in the ACTIVE state, in units of 1 mV / 4,096 (R218). -/
def level (range : Nat) (code : Int) : Int := code * lsb range

/-- Levels of the two halves of a sample period T_s: NRZ, or RF (R221). -/
def halves (rf : Bool) (v : Int) : Int × Int := (v, if rf then -v else v)

/-- The two halves of a sample with a code on channel `c` (R218, R221). -/
def Dev.sampleHalves (d : Dev) (c : Fin 32) (code : Int) : Int × Int :=
  halves (d.flag (F.CH_DAC_CTRL_RECON c)) (level (d.get (F.CH_DAC_CTRL_RANGE c)) code)

/-- Levels at AOUTc in the samples of tick DT, as two halves each; none while the pins are high impedance. PARK is 0 V; CAL_HOLD
holds the level last carried (R218, R221, R223, R237; the level after an RF sample: log entry 49). -/
def Dev.aout (d : Dev) (c : Fin 32) : Option (List (Int × Int)) :=
  let still (v : Int) : List (Int × Int) := List.replicate (d.spt c) (v, v)
  match d.pinState c with
  | .unpowered => none
  | .park => some (still 0)
  | .calHold => match (d.cal c).hold with
    | some s => some (still (if s.parked then 0 else (d.sampleHalves c s.code.toInt).2))
    | none => some (still 0)
  | .active => some ((d.tickCodes c (d.present c)).map fun v => d.sampleHalves c v.1)

end Sys2Proof.Machine
end

