-- ==== Sys2Proof/Machine/Pins.lean ====
section
/-! DEFINITION. The pin classes of R386 as they stand: what each pin carries, none where it is high impedance. AOUT stands in
Machine/Dac.lean, what asserts nFAULT and ALERT in Machine/MgmtOps.lean. Boundary scan: R414. -/

namespace Sys2Proof.Machine

/-- What a pin carries: what its unit drives, or the level of its cell of the boundary register (R414). -/
inductive Driven (α : Type) | own (x : α) | scan (level : Bool)
deriving DecidableEq, Repr

/-- A pin whose unit drives `x`. While a boundary-scan instruction is in force the pins follow the boundary register, whose contents
are free values; under HIGHZ they are high impedance, as IEEE 1149.1 has it (R414, log entry 42). -/
def Dev.onPin {α : Type} (d : Dev) (cell : Nat) (x : Option α) : Option (Driven α) :=
  if !d.board.pinsTaken then x.map .own
  else if d.board.jtag = 4 then none
  else some (.scan (Config.boundaryCell d.ev.elapsed cell))

/-- An output of the digital supplies: high impedance while they ramp. -/
def Dev.powered {α : Type} (d : Dev) (x : α) : Option α := if d.board.rails then some x else none

/-- CKO0 or CKO1 (R378, R386). -/
def Dev.ckoPin (d : Dev) (x : Nat) : Option (Driven CkoOut) := d.onPin x (d.powered (d.cko x))

/-- SYNCOUT (R369, R386). -/
def Dev.syncOutPin (d : Dev) : Option (Driven SyncOut) := d.onPin 2 (d.powered (if d.stage = 0 then .low else d.syncOut))

/-- Pattern pin `i` of chiplet `n` in the samples of tick DT (R207, R208, R383, R386): low while a rail is out of range and the 1.8 V
analogue rail is not. -/
def Dev.patPin (d : Dev) (n i : Nat) : Option (Driven (List Bool)) :=
  d.onPin (3 + 16 * n + i) (if d.board.analog then some (d.patTrain n i) else none)

/-- TRIG, REFIN and SYNCIN are terminated, from Stage A on (R386, R415). -/
def Dev.inputsTerminated (d : Dev) : Bool := 1 ≤ d.stage

/-- The transmit lanes of an Adold port: electrical idle, or the 64 bits each carries in a tick (R295, R298, R374, R386). -/
inductive LaneDrive | idle | cell (lanes : List W64)
deriving DecidableEq, Repr

/-- The transmit lanes of port `p`. -/
def Dev.linkLanes (d : Dev) (p : Port) : Option (Driven LaneDrive) :=
  d.onPin (67 + portIdx p) (d.powered (match (d.link.port p).lanes with | some l => .cell l | none => .idle))

/-- The PCIe lanes are out of electrical idle: link training and the link, from Stage B on, while the PCIe PLL runs (R374, R386). -/
def Dev.pcieLanes (d : Dev) : Option (Driven Bool) := d.onPin 69 (d.powered (2 ≤ d.stage && d.flag F.CLK_PLL_STATUS_PCIE_LOCK))

/-- The nFAULT and ALERT pins are pulled low (R386, R408, R415): nFAULT from the rise of the 1.8 V rail on. -/
def Dev.statusPins (d : Dev) : Option (Driven Bool) × Option (Driven Bool) := (d.onPin 70 (some d.nFault), d.onPin 71 (some d.alert))

/-- SMBus answers, and the test port does (R386). -/
def Dev.portsAnswer (d : Dev) : Bool × Bool := (1 ≤ d.stage, d.board.rails)

/-- The IDCODE of the test port: STEPPING, 0x3264, Forune's JEP106 code, 1 (R414). -/
def Dev.idcode (d : Dev) : W32 := BitVec.ofNat 4 (d.get F.DEV_ID_STEPPING) ++ (0x3264 : BitVec 16) ++ Config.jep106 ++ (1 : BitVec 1)

end Sys2Proof.Machine
end

