-- ==== Sys2Proof/Safety.lean ====
section
/-! DEFINITION. What counts as a safe run, and the terms claims are stated in: the machine never stops but at a private
test-port opcode, its record of the summary bits is the present one, and its memories stand in their one canonical form. -/

namespace Sys2Proof.Machine

/-- The step goes on, or stops at a private test-port opcode with debug unlocked (R414). -/
def Safe.continues : Host.Outcome State Fault Refusal → Prop
  | .next _ => True
  | .fault _ => False
  | .refused r => r = .privateJtag

/-- The summary bits as MSI-X last saw them are those of the present registers (R71, R404), so no later rise is missed. -/
def Safe.seen (s : State) : Prop := s.dev.msix.seen = s.dev.summary

/-- Every table of a device stands in canonical form. -/
def Safe.canonical (d : Dev) : Bool :=
  Tab.wf regReset d.regs && Memory.wf blank d.mem.hbm.cells && Memory.wf blank d.mem.oasis.cells &&
  Memory.wf blank d.mem.segtab.cells && Memory.wf blank d.mem.prog.cells && Memory.wf blank d.mem.ctx.cells &&
  Memory.wf blank d.mem.reckoner.cells && Memory.wf factoryByte d.mem.mtp.cells && Memory.wf boardFlash d.mem.flash.cells

/-! ### Terms of claims -/

/-- Command `i` answers a next state: its queue is the one found, and `p` holds of its device. -/
def Ends (i : Instr) (s : State) (p : Dev → Prop) : Prop := ∃ t, exec i s = .next t ∧ t.pending = s.pending ∧ p t.dev

/-- Every register but those at the listed addresses reads as before. -/
def RegsBut (d t : Dev) (as : List Nat) : Prop := ∀ a, a ∉ as → t.rd a = d.rd a

/-- Every channel but `c` is as before. -/
def OtherChans (d t : Dev) (c : Fin 32) : Prop := ∀ e, e ≠ c → t.ch e = d.ch e

/-- Every channel is as before. -/
def AllChans (d t : Dev) : Prop := ∀ e, t.ch e = d.ch e

/-- Held values, locks, device time, rings, links, clocks, calibration, security, management, board: everything but
registers, channels, memories, the read reply and the MSI-X latches is as before. -/
def RestSame (d t : Dev) : Prop :=
  t.pend = d.pend ∧ t.staged = d.staged ∧ t.locked = d.locked ∧ t.ev = d.ev ∧ t.hbm = d.hbm ∧ t.sirocco = d.sirocco ∧
  t.rings = d.rings ∧ t.cals = d.cals ∧ t.rateEnd = d.rateEnd ∧ t.clk = d.clk ∧ t.link = d.link ∧ t.heads = d.heads ∧
  t.fills = d.fills ∧ t.board = d.board ∧ t.sec = d.sec ∧ t.mgmt = d.mgmt ∧ t.snap = d.snap ∧ t.free = d.free

/-- The registers of channel `c` that count instructions issued (CH.SEQ_ISSUED). -/
def issuedRegs (c : Fin 32) : List Nat := [R.CH_SEQ_CNT c 0 0, R.CH_SEQ_CNT c 0 0 + 4]

/-- The word at the PC of channel `c` is fetched without a trace: it has no error (R92), and no memory test runs over it
(R357). -/
def CleanFetch (d : Dev) (c : Fin 32) : Prop :=
  d.mem.prog.bad (progAt c (8 * (d.ch c).pc.toNat)) = false ∧ d.touchProg c (8 * (d.ch c).pc.toNat) = d

/-- Nothing holds back word `w` on channel `c`: the sequencer is in RUN with nothing waiting and no STOP, BREAK or STEP
under way; the word at its PC is fetched clean; SC is near enough and the queue has room where `w` asks for it; the encoding
is defined with its unused fields 0 (R73, R79, R80, R92, R97, R102). -/
def MayIssue (d : Dev) (c : Fin 32) (w : W64) : Prop :=
  (d.ch c).canIssue = true ∧ (d.ch c).breakReq = false ∧ (d.ch c).stepping = false ∧ CleanFetch d c ∧
  (scheduling w (tickCount (d.ch c) w) = true → d.aheadTooFar c = false) ∧
  (places w (tickCount (d.ch c) w) = true → (d.ch c).queue.length < 64) ∧
  opDefined (opOf w) = true ∧ encOk w = true

/-- Channel `x` when an instruction has completed and the next one is at `pc` (R91, R105). -/
def Chan.passed (x : Chan) (pc : BitVec 16) : Chan :=
  { x with pc := pc, leadPc := x.pc.setWidth 15, held := none, stall := .none, ringWait := 0, stepping := false }

/-- An instruction of channel `c` has completed: the channel is `y`, ISSUED has gone up by 1, and nothing else has
changed: no other channel, no other register, no memory, nothing of the rest. -/
def Issued (d t : Dev) (c : Fin 32) (y : Chan) : Prop :=
  t.ch c = y ∧ OtherChans d t c ∧ t.get64 (R.CH_SEQ_CNT c 0 0) = d.get64 (R.CH_SEQ_CNT c 0 0) + 1 ∧
  RegsBut d t (issuedRegs c) ∧ t.mem = d.mem ∧ t.reply = d.reply ∧ RestSame d t

end Sys2Proof.Machine
end

