-- ==== Sys2Proof/Certificates/Slice0/Obligations.lean ====
section
/-! DEFINITION. The statements for the provers. Every statement about a command says that it answers a next state and
what that state holds; a frame (`Issued`, `RegsBut`, `OtherChans`, `RestSame`) says what it leaves alone. -/

namespace Sys2Proof.Claims

open Sys2Proof.Machine

/-! ### Rows of one shape -/

/-- The register row of an arithmetic operation (R113). -/
def rowR : AluOp → Fin 32 → BitVec 4 → BitVec 4 → BitVec 48 → Instr
  | .mov => .mov | .add => .add | .sub => .sub | .mul => .mul | .and => .and | .or => .or
  | .xor => .xor | .shl => .shl | .shr => .shr | .sar => .sar | .min => .min | .max => .max

/-- The immediate row of an arithmetic operation (R113). -/
def rowI : AluOp → Fin 32 → BitVec 4 → BitVec 4 → BitVec 48 → Instr
  | .mov => .movi | .add => .addi | .sub => .subi | .mul => .muli | .and => .andi | .or => .ori
  | .xor => .xori | .shl => .shli | .shr => .shri | .sar => .sari | .min => .mini | .max => .maxi

/-- Place of an arithmetic operation in the opcode map (R106). -/
def aluIndex : AluOp → BitVec 8
  | .mov => 0 | .add => 1 | .sub => 2 | .mul => 3 | .and => 4 | .or => 5
  | .xor => 6 | .shl => 7 | .shr => 8 | .sar => 9 | .min => 10 | .max => 11

/-- The word of a row of plain encoding may issue, and the next PC stays inside the program store (R91). -/
def Free (s : State) (c : Fin 32) (w : W64) : Prop := MayIssue s.dev c w ∧ (s.dev.ch c).pc ≠ 32767

/-- The row completes: channel `c` is left as `y`, the next instruction follows in sequence. -/
def Next (i : Instr) (s : State) (c : Fin 32) (y : Chan) : Prop :=
  Ends i s fun t => Issued s.dev t c (y.passed ((s.dev.ch c).pc + 1))

/-- The row completes: channel `c` is left as `y`, the next instruction is at `pc`. -/
def Goes (i : Instr) (s : State) (c : Fin 32) (y : Chan) (pc : BitVec 16) : Prop :=
  Ends i s fun t => Issued s.dev t c (y.passed pc)

/-- Channel `x` with one more action at SC in its queue. -/
def placed (x : Chan) (a : Act) : Chan := { x with queue := x.queue ++ [⟨x.sc, a⟩] }

/-- The command completes and leaves the device as `e`; the MSI-X latches alone then take the rises of the summary bits
(R404). -/
def Becomes (i : Instr) (s : State) (e : Dev) : Prop := exec i s = .next { s with dev := e.follow }

/-- The registers that the end of a run of channel `c` with a fault writes (R59, R98 to R100). -/
def faultRegs (c : Fin 32) : List Nat :=
  [R.CH_SEQ_FAULT c, R.CH_SEQ_FAULT_PC c, R.CH_SEQ_FAULT_B c 0, R.CH_SEQ_FAULT_B c 0 + 4, R.CH_SEQ_FAULT_ARG c,
   R.CH_SEQ_STATUS c, R.CH_SEQ_IRQ_STATUS c, R.CH_SEQ_CTRL c]

/-- From device `e`, command `i` ends with channel `c` faulted at boundary B = `b`: the record holds the cause, the sub-cause,
the argument, the PC and B; the run has ended FAILED; what the channel had scheduled at B or later is gone, and where a block of the
run stands committed the output holds one block from B before it parks; `seq` says that the sequencer found the fault, or had nothing
to issue. Only this channel, these registers and the records due may differ from `e` (R98 to R100). That the instruction held and its
STALL stay in the state, for a second fault of the tick, is the model's choice (log entry 46). -/
def FaultsAt (i : Instr) (s : State) (e : Dev) (c : Fin 32) (cause sub arg : Nat) (b : Tick) (seq : Bool) : Prop :=
  Ends i s fun t =>
    t.rd (R.CH_SEQ_FAULT c) = BitVec.ofNat 32 (1 + 2 * cause + 16 * sub) ∧
    t.rd (R.CH_SEQ_FAULT_PC c) = BitVec.ofNat 32 ((e.ch c).pc.toNat % 32768) ∧
    t.get64 (R.CH_SEQ_FAULT_B c 0) = b ∧ t.rd (R.CH_SEQ_FAULT_ARG c) = BitVec.ofNat 32 arg ∧
    t.get (F.CH_SEQ_STATUS_CODE c) = 4 ∧ t.get (F.CH_SEQ_STATUS_ABRT c) = e.get (F.CH_SEQ_STATUS_ABRT c) ∧
    t.get (F.CH_SEQ_IRQ_STATUS_FAULT c) = 1 ∧ t.get ⟨R.CH_SEQ_CTRL c, 0, 6⟩ = 0 ∧
    t.ch c = { e.ch c with
      stepping := false, breakReq := false, goReq := false, st := .faulted, goTick := e.ev.dt
      queue := (e.ch c).queue.filter fun a => before a.tick b
      dispatched := (e.ch c).dispatched.filter fun a => before a.tick b
      stopB := none, faultB := some b, faultEnd := b + tk (e.blockTicks c), seqFault := seq
      parkAt := some (b + tk (e.blockTicks c)), recs := [], store := []
      holds := if (e.ch c).committed then (e.ch c).holds ++ [(b, b + tk (e.blockTicks c))] else (e.ch c).holds } ∧
    OtherChans e t c ∧ RegsBut e t (faultRegs c) ∧ t.mem = e.mem ∧ t.reply = e.reply ∧ RestSame { e with rings := t.rings } t

/-- From device `e`, command `i` ends with channel `c` faulted at its first block boundary not yet committed (R98). Where the
output faults in the same tick, the record's B is the earlier one and MORE is set (R99): that all of one tick counts as detected in
one cycle is the model's choice (log entry 46). -/
def Faults (i : Instr) (s : State) (e : Dev) (c : Fin 32) (cause sub arg : Nat) : Prop :=
  (e.outputFaults c = false → FaultsAt i s e c cause sub arg (e.ch c).nextBoundary true) ∧
  (e.outputFaults c = true → Ends i s fun t =>
    (t.ch c).st = .faulted ∧ (t.ch c).seqFault = true ∧ t.get (F.CH_SEQ_FAULT_MORE c) = 1 ∧
    t.get64 (R.CH_SEQ_FAULT_B c 0) = (if before (e.ch c).nextBoundary ((e.outputStep c).get64 (R.CH_SEQ_FAULT_B c 0))
      then (e.ch c).nextBoundary else (e.outputStep c).get64 (R.CH_SEQ_FAULT_B c 0)))

/-- The instruction of channel `c` waits whole with a STALL (R79, R80, R143). -/
def Waits (i : Instr) (s : State) (c : Fin 32) (w : W64) (why : Stall) : Prop :=
  Becomes i s (s.dev.setCh c { s.dev.ch c with held := some w, stall := why, heldAt := s.dev.ev.dt })

/-- The word at the PC is fetched clean on a channel that can issue (R73, R92). -/
def Fetched (s : State) (c : Fin 32) : Prop := (s.dev.ch c).canIssue = true ∧ CleanFetch s.dev c

/-- The registers that an entry of channel `c` into panic may write (R169). -/
def lowRegs (c : Fin 32) : List Nat := [R.CL_CH_IRQ_STATUS (clu c) (sub c), R.CH_SEQ_IRQ_STATUS c]

/-- A play of channel `c`: from device `e` the channel becomes `y`, the panic signal is raised anew where the play asks for it
(R169), and the next instruction follows. -/
def Plays (i : Instr) (s : State) (e : Dev) (c : Fin 32) (y : Chan) : Prop :=
  ∀ p, p = (e.setCh c y).panicCheck c → Ends i s fun t => Issued p t c ((p.ch c).passed ((s.dev.ch c).pc + 1))

/-- Neither run-ahead nor a full action queue holds word `w` back (R79, R80). -/
def Clear (s : State) (c : Fin 32) (w : W64) : Prop :=
  (scheduling w (tickCount (s.dev.ch c) w) = true → s.dev.aheadTooFar c = false) ∧
  (places w (tickCount (s.dev.ch c) w) = true → (s.dev.ch c).queue.length < 64)

/-- The channel and the word of an instruction row: the row's opcode, and the bits that tell it from its sister row. -/
def wordOfRow : Instr → Option (Fin 32 × W64)
  | .nop c a b x => some (c, mkWord 0x00 a b x)
  | .halt c a b x => some (c, mkWord 0x01 a b x)
  | .jmp c a b x => some (c, mkWord 0x02 a b x)
  | .jcc c a b x => some (c, mkWord 0x03 a b x)
  | .call c a b x => some (c, mkWord 0x04 a b x)
  | .ret c a b x => some (c, mkWord 0x05 a b x)
  | .loop c a b x => some (c, mkWord 0x06 a b x)
  | .endl c a b x => some (c, mkWord 0x07 a b x)
  | .mov c a b x => some (c, mkWord 0x10 a b x)
  | .add c a b x => some (c, mkWord 0x11 a b x)
  | .sub c a b x => some (c, mkWord 0x12 a b x)
  | .mul c a b x => some (c, mkWord 0x13 a b x)
  | .and c a b x => some (c, mkWord 0x14 a b x)
  | .or c a b x => some (c, mkWord 0x15 a b x)
  | .xor c a b x => some (c, mkWord 0x16 a b x)
  | .shl c a b x => some (c, mkWord 0x17 a b x)
  | .shr c a b x => some (c, mkWord 0x18 a b x)
  | .sar c a b x => some (c, mkWord 0x19 a b x)
  | .min c a b x => some (c, mkWord 0x1A a b x)
  | .max c a b x => some (c, mkWord 0x1B a b x)
  | .movi c a b x => some (c, mkWord 0x20 a b x)
  | .addi c a b x => some (c, mkWord 0x21 a b x)
  | .subi c a b x => some (c, mkWord 0x22 a b x)
  | .muli c a b x => some (c, mkWord 0x23 a b x)
  | .andi c a b x => some (c, mkWord 0x24 a b x)
  | .ori c a b x => some (c, mkWord 0x25 a b x)
  | .xori c a b x => some (c, mkWord 0x26 a b x)
  | .shli c a b x => some (c, mkWord 0x27 a b x)
  | .shri c a b x => some (c, mkWord 0x28 a b x)
  | .sari c a b x => some (c, mkWord 0x29 a b x)
  | .mini c a b x => some (c, mkWord 0x2A a b x)
  | .maxi c a b x => some (c, mkWord 0x2B a b x)
  | .waitImm c a b x => some (c, mkWord 0x30 a b x)
  | .waitReg c a b x => some (c, mkWord 0x31 a b x)
  | .waitt c a b x => some (c, mkWord 0x32 a b x)
  | .sync c a b x => some (c, mkWord 0x33 a b x)
  | .waitev c a b x => some (c, mkWord 0x34 a b x)
  | .play c a b x => some (c, mkWord 0x40 a b x)
  | .playg c a b x => some (c, mkWord 0x41 a b (withBit (withBit x 14 false) 15 false))
  | .playgRing c a b x => some (c, mkWord 0x41 a b (ringSrc x))
  | .playn c a b x => some (c, mkWord 0x42 a b x)
  | .hold c a b x => some (c, mkWord 0x43 a b x)
  | .park c a b x => some (c, mkWord 0x44 a b x)
  | .jev c a b x => some (c, mkWord 0x60 a b x)
  | .bev c a b x => some (c, mkWord 0x61 a b x)
  | .sig c a b x => some (c, mkWord 0x62 a b (withBit x 8 false))
  | .sigArray c a b x => some (c, mkWord 0x62 a b (withBit x 8 true))
  | .mark c a b x => some (c, mkWord 0x63 a b x)
  | .setf c a b x => some (c, mkWord 0x70 a b x)
  | .setfp c a b x => some (c, mkWord 0x71 a b x)
  | .setfSlot c a b x => some (c, mkWord 0x72 a b (withBit x 9 false))
  | .setfpSlot c a b x => some (c, mkWord 0x72 a b (withBit x 9 true))
  | .setp c a b x => some (c, mkWord 0x73 a b x)
  | .shiftp c a b x => some (c, mkWord 0x74 a b x)
  | .self c a b x => some (c, mkWord 0x75 a b x)
  | .seta c a b x => some (c, mkWord 0x76 a b x)
  | .mix c a b x => some (c, mkWord 0x77 a b x)
  | .pop c a b x => some (c, mkWord 0x90 a b (withBit x 18 false))
  | .popLedger c a b x => some (c, mkWord 0x90 a b (withBit x 18 true))
  | .peek c a b x => some (c, mkWord 0x91 a b x)
  | .rdy c a b x => some (c, mkWord 0x92 a b x)
  | .ack c a b x => some (c, mkWord 0x93 a b x)
  | .calw c a b x => some (c, mkWord 0xA0 a b x)
  | .tstamp c a b x => some (c, mkWord 0xA1 a b x)
  | .irq c a b x => some (c, mkWord 0xA2 a b (withBit x 0 false))
  | .irqAt c a b x => some (c, mkWord 0xA2 a b (withBit x 0 true))
  | _ => none

/-- The tick count of PLAYN, HOLD, PARK and CALW: G[B] when REG is 1, else the immediate (R121). -/
def ticksOf (ch : Chan) (b : BitVec 4) (x : BitVec 48) : W32 := if x.getLsbD 32 then ch.rg b else BitVec.ofNat 32 (bits x 31 0)

/-- The rows that place one entry in the action queue (R106): the plays and spans, MARK, the local SIG, the oscillator and Ledger
rows, POP to the Ledger, CALW, IRQ AT. A span of no ticks places none. -/
def placesAction (ch : Chan) : Instr → Prop
  | .play .. | .playg .. | .playgRing .. | .sig .. | .mark .. | .setf .. | .setfp .. | .setfSlot .. | .setfpSlot .. | .setp .. | .shiftp ..
  | .self .. | .seta .. | .mix .. | .popLedger .. | .calw .. | .irqAt .. => True
  | .playn _ _ b x | .hold _ _ b x | .park _ _ b x => ticksOf ch b x ≠ 0
  | _ => False

/-- The rows that change SC or place an entry (R106): those that R79 and R80 hold back. -/
def schedules (ch : Chan) : Instr → Prop
  | .waitImm .. | .waitReg .. | .waitt .. | .sync .. | .waitev .. => True
  | i => placesAction ch i

/-- The fields of an optional register operand: the immediate in X is 0 where the register is used, else the register field is 0. -/
def oneOf (reg : Bool) (imm : Nat) (b : BitVec 4) : Prop := if reg then imm = 0 else b = 0

/-- The unused fields of a row are 0 and it uses no reserved value (R102, with the layouts of R109 to R146). -/
def encFits : Instr → Prop
  | .nop _ a b x | .halt _ a b x | .ret _ a b x | .endl _ a b x => a = 0 ∧ b = 0 ∧ x = 0
  | .jmp _ a b x | .call _ a b x => a = 0 ∧ b = 0 ∧ bits x 47 15 = 0
  | .jcc _ _ b x => bits x 15 15 = 0 ∧ bits x 31 21 = 0 ∧ bits x 19 16 < 8 ∧ (if x.getLsbD 20 then b = 0 else bits x 47 32 = 0)
  | .loop _ a b x => a = 0 ∧ oneOf (x.getLsbD 15) (bits x 47 16) b
  | .mov _ _ _ x => bits x 47 0 = 0
  | .add _ _ _ x | .sub _ _ _ x | .mul _ _ _ x | .and _ _ _ x | .or _ _ _ x | .xor _ _ _ x | .shl _ _ _ x | .shr _ _ _ x
  | .sar _ _ _ x | .min _ _ _ x | .max _ _ _ x => bits x 47 4 = 0
  | .movi _ _ b x => b = 0 ∧ bits x 47 32 = 0
  | .addi _ _ _ x | .subi _ _ _ x | .muli _ _ _ x | .andi _ _ _ x | .ori _ _ _ x | .xori _ _ _ x | .shli _ _ _ x | .shri _ _ _ x
  | .sari _ _ _ x | .mini _ _ _ x | .maxi _ _ _ x => bits x 47 32 = 0
  | .waitImm _ a b x => a = 0 ∧ b = 0 ∧ bits x 47 32 = 0
  | .waitReg _ a _ x => a = 0 ∧ x = 0
  | .waitt _ _ _ x => x = 0
  | .sync _ a b x => a = 0 ∧ b = 0 ∧ bits x 5 0 ≤ 32 ∧ bits x 15 6 = 0
  | .waitev _ a b x => bits x 47 41 = 0 ∧ (x.getLsbD 40 = false → a = 0 ∧ b = 0)
  | .play _ a b x => a = 0 ∧ b = 0 ∧ bits x 47 14 = 0
  | .playg _ a _ x => a = 0 ∧ bits x 13 0 = 0 ∧ bits x 47 16 = 0
  | .playgRing _ a b x => a = 0 ∧ bits x 13 13 = 0 ∧ bits x 47 16 = 0 ∧ bits x 15 14 ≠ 3 ∧ oneOf (bits x 15 14 = 2) (bits x 12 0) b
  | .playn _ a b x | .hold _ a b x | .park _ a b x | .calw _ a b x =>
    a = 0 ∧ bits x 47 33 = 0 ∧ oneOf (x.getLsbD 32) (bits x 31 0) b
  | .jev _ a b x => b = 0 ∧ bits x 15 15 = 0 ∧ bits x 47 33 = 0 ∧ (x.getLsbD 32 = false → a = 0)
  | .bev _ a b x => b = 0 ∧ bits x 15 15 = 0 ∧ bits x 47 40 = 0 ∧ (x.getLsbD 39 = false → a = 0) ∧ bits x 14 0 + bits x 23 16 ≤ 32767
  | .sig _ a b x | .sigArray _ a b x => a = 0 ∧ b = 0 ∧ bits x 47 9 = 0
  | .mark _ a b x => a = 0 ∧ b = 0 ∧ bits x 47 8 = 0
  | .setf _ a b _ | .setfp _ a b _ => b = 0 ∧ a.toNat < 8
  | .setfSlot _ a b x | .setfpSlot _ a b x => bits x 47 10 = 0 ∧ b.toNat % 2 = 0 ∧ oneOf (x.getLsbD 8) (bits x 7 0) a
  | .setp _ a b x | .shiftp _ a b x =>
    bits x 15 11 = 0 ∧ bits x 9 8 ≠ 3 ∧ (bits x 9 8 = 0 → bits x 7 3 = 0) ∧ (bits x 9 8 = 2 → bits x 7 0 = 0) ∧
    (bits x 9 8 ≠ 2 → a = 0) ∧ oneOf (x.getLsbD 10) (bits x 47 16) b
  | .self _ a b x => a.toNat < 8 ∧ bits x 47 9 = 0 ∧ oneOf (x.getLsbD 8) (bits x 7 0) b
  | .seta _ a b x => a.toNat < 8 ∧ bits x 47 17 = 0 ∧ oneOf (x.getLsbD 16) (bits x 15 0) b
  | .mix _ a b x => a = 0 ∧ b = 0 ∧ bits x 47 9 = 0
  | .pop _ a b x => bits x 47 19 = 0 ∧ oneOf (x.getLsbD 13) (bits x 12 0) b ∧ bits x 17 14 < 14 ∧ a.toNat + bits x 17 14 + 1 ≤ 16
  | .popLedger _ a b x => bits x 47 19 = 0 ∧ oneOf (x.getLsbD 13) (bits x 12 0) b ∧ a = 0 ∧ bits x 17 14 = 0
  | .peek _ a b x => bits x 47 18 = 0 ∧ oneOf (x.getLsbD 13) (bits x 12 0) b ∧ bits x 17 14 < 14 ∧ a.toNat + bits x 17 14 + 1 ≤ 16
  | .rdy _ _ b x => bits x 47 30 = 0 ∧ oneOf (x.getLsbD 13) (bits x 12 0) b
  | .ack _ a b x => a = 0 ∧ bits x 47 18 = 0 ∧ oneOf (x.getLsbD 13) (bits x 12 0) b
  | .tstamp _ _ b x => b = 0 ∧ bits x 47 3 = 0 ∧ bits x 2 0 ≤ 4
  | .irq _ a b x | .irqAt _ a b x => a = 0 ∧ b = 0 ∧ bits x 47 1 = 0
  | _ => False

/-- The result of an arithmetic operation on G[B] and the right-hand side (R113, R114): sums, differences, products and shifts to the
left mod 2^32, shift counts mod 32, SAR and the order of MIN and MAX on signed values. -/
def aluResult (op : AluOp) (l r : W32) : W32 :=
  match op with
  | .mov => r
  | .add => BitVec.ofNat 32 (l.toNat + r.toNat)
  | .sub => BitVec.ofInt 32 (l.toNat - r.toNat)
  | .mul => BitVec.ofNat 32 (l.toNat * r.toNat)
  | .and => BitVec.ofNat 32 (l.toNat &&& r.toNat)
  | .or => BitVec.ofNat 32 (l.toNat ||| r.toNat)
  | .xor => BitVec.ofNat 32 (l.toNat ^^^ r.toNat)
  | .shl => BitVec.ofNat 32 (l.toNat * 2 ^ (r.toNat % 32))
  | .shr => BitVec.ofNat 32 (l.toNat / 2 ^ (r.toNat % 32))
  | .sar => BitVec.ofInt 32 (l.toInt / 2 ^ (r.toNat % 32))
  | .min => BitVec.ofInt 32 (min l.toInt r.toInt)
  | .max => BitVec.ofInt 32 (max l.toInt r.toInt)

end Sys2Proof.Claims

open Sys2Proof Sys2Proof.Machine Sys2Proof.Claims

/-! ### Instructions: control (R109 to R112) -/

/-! ### Instructions: arithmetic (R113, R114) -/

/-- Register forms: G[A] := G[B] op G[C], MOV taking G[B]; nothing else changes. Immediate forms: G[A] := G[B] op imm32; nothing
else changes. The twelve results are spelled on the numbers (`aluResult`). -/
def Obligations.ArithmeticWritesOneRegister : Prop :=
  (∀ op c a b x s, Free s c (mkWord (0x10 + aluIndex op) a b x) →
     Next (rowR op c a b x) s c ((s.dev.ch c).setG a
       (Claims.aluResult op ((s.dev.ch c).rg b) (if op = .mov then (s.dev.ch c).rg b else (s.dev.ch c).rg (BitVec.ofNat 4 (bits x 3 0)))))) ∧
  (∀ op c a b x s, Free s c (mkWord (0x20 + aluIndex op) a b x) →
     Next (rowI op c a b x) s c ((s.dev.ch c).setG a (Claims.aluResult op ((s.dev.ch c).rg b) (BitVec.ofNat 32 (bits x 31 0)))))

/-! ### Instructions: timing (R115 to R118) -/

/-- WAIT moves SC on by its count; SYNC moves it to the smallest time at or after SC that stands at r mod 2^j (R116, R118). TSTAMP copies
SC, DT or their distance into one register (R148); IRQ in its issue cycle sets the SEQ cause (R149). -/
def Obligations.TimeIsMovedReadAndReported : Prop :=
  (∀ c a b x s, Free s c (mkWord 0x30 a b x) →
    Next (.waitImm c a b x) s c { s.dev.ch c with sc := (s.dev.ch c).sc + tk (bits x 31 0) }) ∧
  (∀ c a b x s, Free s c (mkWord 0x31 a b x) →
    Next (.waitReg c a b x) s c { s.dev.ch c with sc := (s.dev.ch c).sc + ((s.dev.ch c).rg b).setWidth 64 }) ∧
  (∀ c a b x s, Free s c (mkWord 0x33 a b x) →
    ∃ n : Nat, n < 2 ^ bits x 5 0 ∧
      ((s.dev.ch c).sc.toNat + n) % 2 ^ bits x 5 0 = bits x 47 16 % 2 ^ bits x 5 0 ∧
      Next (.sync c a b x) s c { s.dev.ch c with sc := (s.dev.ch c).sc + tk n }) ∧
  (∀ c a b x s sc dt, Free s c (mkWord 0xA1 a b x) → sc = (s.dev.ch c).sc → dt = s.dev.ev.dt →
    Next (.tstamp c a b x) s c ((s.dev.ch c).setG a
      (match bits x 2 0 with
       | 0 => sc.setWidth 32
       | 1 => (sc >>> 32).setWidth 32
       | 2 => dt.setWidth 32
       | 3 => (dt >>> 32).setWidth 32
       | _ => if 2 ^ 63 ≤ (sc - dt).toNat then 0 else BitVec.ofNat 32 (min (sc - dt).toNat 0xFFFFFFFF)))) ∧
  (∀ c a b x s, Free s c (mkWord 0xA2 a b (withBit x 0 false)) →
    Ends (.irq c a b x) s fun t =>
      Issued (s.dev.set (F.CH_SEQ_IRQ_STATUS_SEQ c) 1) t c ((s.dev.ch c).passed ((s.dev.ch c).pc + 1)))

/-- WAITT takes T as the one value with T mod 2^32 = G[A] that lies from SC - 2^31 up to, but not at, SC + 2^31. From SC on it
sets SC to T and G[B] to 0; before SC it leaves SC and sets G[B] to SC - T; a late one does not fault (R117). -/
def Obligations.WaittTakesTheNearestTime : Prop :=
  ∀ c a b x s ch, ch = s.dev.ch c → Free s c (mkWord 0x32 a b x) →
    ∃ t : Tick, t.setWidth 32 = ch.rg a ∧ ((t - ch.sc).toNat < 2 ^ 31 ∨ 2 ^ 64 - 2 ^ 31 ≤ (t - ch.sc).toNat) ∧
      (∀ u : Tick, u.setWidth 32 = ch.rg a → (u - ch.sc).toNat < 2 ^ 31 ∨ 2 ^ 64 - 2 ^ 31 ≤ (u - ch.sc).toNat → u = t) ∧
      ((t - ch.sc).toNat < 2 ^ 31 → Next (.waitt c a b x) s c (({ ch with sc := t } : Chan).setG b 0)) ∧
      (2 ^ 64 - 2 ^ 31 ≤ (t - ch.sc).toNat → Next (.waitt c a b x) s c (ch.setG b ((ch.sc - t).setWidth 32)))

/-! ### Instructions held back, and faults -/

/-- Every instruction row: nothing happens while the channel cannot issue (but in the very tick of a fault of the output, where the
sequencer may fault as well: R99 with log entry 46); an uncorrectable program word faults POISON 0b010 (R92); a scheduling instruction
more than 4,096 ticks ahead waits with RUNAHEAD (R79); one that places an action waits with QUEUE_FULL while 64 are queued (R80); a
reserved encoding faults ILLEGAL 0b010 with the word's upper half (R102, R107). The rows that schedule, the rows that place an action
and the encodings allowed are spelled row by row (`schedules`, `placesAction`, `encFits`); that a row held back both ways shows
RUNAHEAD first is log entry 46. -/
def Obligations.InstructionsAreHeldBack : Prop :=
  ∀ i c w s, wordOfRow i = some (c, w) →
    (scheduling w (tickCount (s.dev.ch c) w) = true ↔ schedules (s.dev.ch c) i) ∧
    (places w (tickCount (s.dev.ch c) w) = true ↔ placesAction (s.dev.ch c) i) ∧ (encOk w = true ↔ encFits i) ∧
    ((s.dev.ch c).canIssue = false →
      ((s.dev.ch c).faultedIn s.dev.ev.dt = true → (s.dev.ch c).seqFault = true ∨ (s.dev.ch c).held ≠ none) → Becomes i s s.dev) ∧
    ((s.dev.ch c).canIssue = true → s.dev.mem.prog.bad (progAt c (8 * (s.dev.ch c).pc.toNat)) = true →
      Faults i s (s.dev.touchProg c (8 * (s.dev.ch c).pc.toNat)) c 5 2 (s.dev.ch c).pc.toNat) ∧
    (Fetched s c → schedules (s.dev.ch c) i → s.dev.aheadTooFar c = true → Waits i s c w .runahead) ∧
    (Fetched s c → placesAction (s.dev.ch c) i → s.dev.aheadTooFar c = false → 64 ≤ (s.dev.ch c).queue.length →
      Waits i s c w .queueFull) ∧
    (Fetched s c → Clear s c w → ¬ encFits i → Faults i s s.dev c 1 2 (bits w 63 32))

/-- Channel `c` has issued an instruction that leads to address 32,768; its output does not fault in the same tick (R91, R99). -/
def Sys2Proof.Claims.BeyondAlone (d : Dev) (c : Fin 32) (y : Chan) : Prop :=
  ((d.count64 (R.CH_SEQ_CNT c 0 0) 1).setCh c (y.passed 32768)).outputFaults c = false

/-- The row completes with channel `c` left as `y` and leads to address 32,768: the fetch there faults ILLEGAL 0b001 with the address
of the row (R91). Stated with no fault of the output in the same tick. -/
def Sys2Proof.Claims.RunsOut (i : Instr) (s : State) (c : Fin 32) (y : Chan) : Prop :=
  Claims.BeyondAlone s.dev c y → Ends i s fun t =>
    t.rd (R.CH_SEQ_FAULT c) = BitVec.ofNat 32 (1 + 2 * 1 + 16 * 1) ∧
    t.rd (R.CH_SEQ_FAULT_PC c) = BitVec.ofNat 32 ((s.dev.ch c).pc.toNat % 32768) ∧ t.rd (R.CH_SEQ_FAULT_ARG c) = 0 ∧
    (t.ch c).st = .faulted ∧ (t.ch c).rets = y.rets ∧ (t.ch c).loops = y.loops ∧ (t.ch c).l = y.l ∧ (t.ch c).g = y.g ∧
    t.get (F.CH_SEQ_STATUS_CODE c) = 4 ∧ OtherChans s.dev t c ∧ RegsBut s.dev t (faultRegs c ++ issuedRegs c) ∧ t.mem = s.dev.mem

/-- NOP does nothing but advance the PC and JMP sets it (R105, R109). HALT: the state becomes DRAIN, and the output parks when
it reaches SC (R95). A NOP at 32,767 completes, and the fetch at 32,768 faults ILLEGAL 0b001 with the address of the NOP (R91). LOOP opens a loop of its count, or goes past it when the count is 0; ENDL counts down and repeats or leaves (R112). LOOP
with 4 open loops and ENDL with none fault STACK 0b010 and 0b011; the argument is the depth (R91, R100). A LOOP or a last ENDL at
32,767, and an ENDL whose loop starts at 32,768, complete and fault ILLEGAL 0b001 at the next fetch (R91). A fault of the output in
the same tick is log entry 46 (`Faults`). -/
def Obligations.PlainControlAndLoopsMoveThePc : Prop :=
  (((∀ c a b x s, Free s c (mkWord 0x00 a b x) → Next (.nop c a b x) s c (s.dev.ch c)) ∧
    (∀ c a b x s, MayIssue s.dev c (mkWord 0x02 a b x) →
      Goes (.jmp c a b x) s c (s.dev.ch c) (BitVec.ofNat 16 (bits x 14 0)))) ∧
   (∀ c a b x s, Free s c (mkWord 0x01 a b x) →
      Next (.halt c a b x) s c { s.dev.ch c with st := .drain, parkAt := some (s.dev.ch c).sc }) ∧
   (∀ c a b x s, MayIssue s.dev c (mkWord 0x00 a b x) → (s.dev.ch c).pc = 32767 →
      Claims.RunsOut (.nop c a b x) s c (s.dev.ch c))) ∧
  (((∀ c a b x s n y, MayIssue s.dev c (mkWord 0x06 a b x) →
      n = (if x.getLsbD 15 then (s.dev.ch c).rg b else BitVec.ofNat 32 (bits x 47 16)) →
      y = { s.dev.ch c with l := (s.dev.ch c).l.setIfInBounds (s.dev.ch c).loops.length n
                            loops := ((s.dev.ch c).pc + 1) :: (s.dev.ch c).loops } →
      (n = 0 → Goes (.loop c a b x) s c (s.dev.ch c) (BitVec.ofNat 16 (bits x 14 0))) ∧
      (n ≠ 0 → (s.dev.ch c).loops.length < 4 → (s.dev.ch c).pc ≠ 32767 → Next (.loop c a b x) s c y) ∧
      (n ≠ 0 → (s.dev.ch c).loops.length < 4 → (s.dev.ch c).pc = 32767 → Claims.RunsOut (.loop c a b x) s c y)) ∧
    (∀ c a b x s start rest n y, MayIssue s.dev c (mkWord 0x07 a b x) → (s.dev.ch c).loops = start :: rest →
      n = (s.dev.ch c).l[rest.length]?.getD 0 - 1 → y = { s.dev.ch c with l := (s.dev.ch c).l.setIfInBounds rest.length n } →
      (n ≠ 0 → start ≠ 32768 → Goes (.endl c a b x) s c y start) ∧
      (n ≠ 0 → start = 32768 → Claims.RunsOut (.endl c a b x) s c y) ∧
      (n = 0 → (s.dev.ch c).pc ≠ 32767 → Next (.endl c a b x) s c { y with loops := rest }) ∧
      (n = 0 → (s.dev.ch c).pc = 32767 → Claims.RunsOut (.endl c a b x) s c { y with loops := rest }))) ∧
   ((∀ c a b x s, MayIssue s.dev c (mkWord 0x06 a b x) →
      (if x.getLsbD 15 then (s.dev.ch c).rg b else BitVec.ofNat 32 (bits x 47 16)) ≠ 0 → 4 ≤ (s.dev.ch c).loops.length →
      Faults (.loop c a b x) s s.dev c 2 2 (s.dev.ch c).loops.length) ∧
    (∀ c a b x s, MayIssue s.dev c (mkWord 0x07 a b x) → (s.dev.ch c).loops = [] → Faults (.endl c a b x) s s.dev c 2 3 0)))

/-- JCC compares G[A] with G[B], or with imm16 sign-extended when IMM is 1, and sets the PC to its target when the condition
holds, else goes on in sequence (R110). The eight conditions are those of the rule's table; the others are reserved encodings,
which no word that may issue holds (R102). -/
def Obligations.JccBranchesOnItsCondition : Prop :=
  ∀ c a b x s l r p, Free s c (mkWord 0x03 a b x) → l = (s.dev.ch c).rg a →
    r = (if x.getLsbD 20 then (BitVec.ofNat 16 (bits x 47 32)).signExtend 32 else (s.dev.ch c).rg b) →
    p = (if (bits x 19 16 = 0 ∧ l = r) ∨ (bits x 19 16 = 1 ∧ l ≠ r) ∨ (bits x 19 16 = 2 ∧ l.toInt < r.toInt) ∨
        (bits x 19 16 = 3 ∧ r.toInt ≤ l.toInt) ∨ (bits x 19 16 = 4 ∧ l.toNat < r.toNat) ∨ (bits x 19 16 = 5 ∧ r.toNat ≤ l.toNat) ∨
        (bits x 19 16 = 6 ∧ l &&& r ≠ 0) ∨ (bits x 19 16 = 7 ∧ l &&& r = 0)
      then BitVec.ofNat 16 (bits x 14 0) else (s.dev.ch c).pc + 1) →
    bits x 19 16 < 8 ∧ Goes (.jcc c a b x) s c (s.dev.ch c) p

/-- CALL pushes PC + 1 onto the return stack and sets PC to its target; RET pops the stack into PC. A CALL with eight entries in
use faults STACK, and so does a RET with none (R91, R100). A RET to 32,768 completes, and its fetch there faults ILLEGAL 0b001 (R91,
R111). A fault of the output in the same tick is log entry 46 (`Faults`). -/
def Obligations.CallAndReturnUseTheReturnStack : Prop :=
  (∀ c a b x s, MayIssue s.dev c (mkWord 0x04 a b x) →
    ((s.dev.ch c).rets.length < 8 →
      Goes (.call c a b x) s c { s.dev.ch c with rets := ((s.dev.ch c).pc + 1) :: (s.dev.ch c).rets } (BitVec.ofNat 16 (bits x 14 0))) ∧
    (8 ≤ (s.dev.ch c).rets.length → Faults (.call c a b x) s s.dev c 2 0 (s.dev.ch c).rets.length)) ∧
  (∀ c a b x s, MayIssue s.dev c (mkWord 0x05 a b x) →
    ((s.dev.ch c).rets = [] → Faults (.ret c a b x) s s.dev c 2 1 0) ∧
    (∀ r rs, (s.dev.ch c).rets = r :: rs → r ≠ 32768 → Goes (.ret c a b x) s c { s.dev.ch c with rets := rs } r) ∧
    (∀ rs, (s.dev.ch c).rets = 32768 :: rs → Claims.RunsOut (.ret c a b x) s c { s.dev.ch c with rets := rs }))

/-! ### Instructions: playback (R121 to R127) -/

/-- PLAYN, HOLD and PARK of n ticks: nothing for 0; otherwise the action stands at SC and SC advances by n. PLAY and PLAYG of a
table index: the play stands at SC, SC advances by the length that the descriptor gives at issue, and a streamed descriptor
enters the fetch engine as a hint (R122, R123, R167). An index of 16,384 or more advances nothing. A play may raise panic (R169,
`Plays`). `e` is the device after the reads of the descriptor's two units; that SC moves by the stored length of a descriptor with an
uncorrectable unit too is the model's choice (log entry 46). -/
def Obligations.PlaysAreScheduledAtSc : Prop :=
  (∀ c a b x s n, n = (if x.getLsbD 32 then (s.dev.ch c).rg b else BitVec.ofNat 32 (bits x 31 0)) →
     (Free s c (mkWord 0x42 a b x) → Next (.playn c a b x) s c
       (if n = 0 then s.dev.ch c else { placed (s.dev.ch c) (.playn n) with sc := (s.dev.ch c).sc + n.setWidth 64 })) ∧
     (Free s c (mkWord 0x43 a b x) → Next (.hold c a b x) s c
       (if n = 0 then s.dev.ch c else { placed (s.dev.ch c) (.hold n) with sc := (s.dev.ch c).sc + n.setWidth 64 })) ∧
     (Free s c (mkWord 0x44 a b x) → Next (.park c a b x) s c
       (if n = 0 then s.dev.ch c else { placed (s.dev.ch c) (.park n) with sc := (s.dev.ch c).sc + n.setWidth 64 }))) ∧
  (∀ c a b x s,
     (∀ k i e, k = clu c → i = bits x 13 0 → e = (s.dev.touchSeg k (16 * i)).touchSeg k (16 * i + 8) →
       Free s c (mkWord 0x40 a b x) →
       Plays (.play c a b x) s e c { s.dev.ch c with
         queue := (s.dev.ch c).queue ++ [⟨(s.dev.ch c).sc, .play (.table (BitVec.ofNat 32 i)) (s.dev.ch c).nextPid⟩]
         sc := (s.dev.ch c).sc + tk ((s.dev.descAt k i).len * s.dev.blockTicks c)
         nextPid := (s.dev.ch c).nextPid + 1
         fetches := (s.dev.ch c).fetches ++ (match e.hintAt k i with
           | some h => e.hintFetch c (s.dev.ch c).nextPid (.table (BitVec.ofNat 32 i)) h
           | none => []) }) ∧
     (∀ k i y e, y = withBit (withBit x 14 false) 15 false → k = clu c → i = (s.dev.ch c).rg b →
       e = (s.dev.touchSeg k (16 * i.toNat)).touchSeg k (16 * i.toNat + 8) → Free s c (mkWord 0x41 a b y) →
       (i.toNat < 16384 → Plays (.playg c a b x) s e c { s.dev.ch c with
         queue := (s.dev.ch c).queue ++ [⟨(s.dev.ch c).sc, .play (.table i) (s.dev.ch c).nextPid⟩]
         sc := (s.dev.ch c).sc + tk ((s.dev.descAt k i.toNat).len * s.dev.blockTicks c)
         nextPid := (s.dev.ch c).nextPid + 1
         fetches := (s.dev.ch c).fetches ++ (match e.hintAt k i.toNat with
           | some h => e.hintFetch c (s.dev.ch c).nextPid (.table i) h
           | none => []) }) ∧
       (16384 ≤ i.toNat → Plays (.playg c a b x) s s.dev c
         { placed (s.dev.ch c) (.play (.table i) (s.dev.ch c).nextPid) with nextPid := (s.dev.ch c).nextPid + 1 })))

/-! ### Instructions: actions at SC (R131, R133, R135 to R140, R147, R149) -/

/-- The slot or oscillator that SETP and SHIFTP act on (R134). -/
def Sys2Proof.Claims.phaseTarget (x : BitVec 48) (ga : W32) : SlotSel :=
  match bits x 9 8 with
  | 0 => .osc (BitVec.ofNat 3 (bits x 2 0))
  | 1 => .slot (BitVec.ofNat 8 (bits x 7 0))
  | _ => .slot (ga.setWidth 8)

/-- Each of these instructions leaves one action at SC, and changes nothing else of the channel. The slot forms of SETF and
SETFP: slot X[7:0] or G[A], the tuning word G[B+1] over G[B]; a G[A] of 256 or more faults LEDGER_RANGE 0b000, a G[B+1] of
65,536 or more LEDGER_RANGE 0b001 (R108, R136); with both out of range 0b000 is recorded, and a fault of the output in the same tick
is decided with it (log entry 46). -/
def Obligations.ActionsStandAtSc : Prop :=
  (∀ c a b x s ch, ch = s.dev.ch c →
     (∀ y, y = withBit x 8 false → Free s c (mkWord 0x62 a b y) →
       Next (.sig c a b x) s c (placed ch (.sig (BitVec.ofNat 8 (bits y 7 0))))) ∧
     (Free s c (mkWord 0x63 a b x) →
       Next (.mark c a b x) s c (placed ch (.mark (BitVec.ofNat 4 (bits x 3 0)) (BitVec.ofNat 4 (bits x 7 4))))) ∧
     (Free s c (mkWord 0x70 a b x) → Next (.setf c a b x) s c (placed ch (.setf (.osc (a.setWidth 3)) x))) ∧
     (Free s c (mkWord 0x71 a b x) → Next (.setfp c a b x) s c (placed ch (.setfp (.osc (a.setWidth 3)) x))) ∧
     (Free s c (mkWord 0x73 a b x) → (bits x 9 8 = 2 → (ch.rg a).toNat < 256) → Next (.setp c a b x) s c
       (placed ch (.setp (Claims.phaseTarget x (ch.rg a)) (if x.getLsbD 10 then ch.rg b else BitVec.ofNat 32 (bits x 47 16))))) ∧
     (Free s c (mkWord 0x74 a b x) → (bits x 9 8 = 2 → (ch.rg a).toNat < 256) → Next (.shiftp c a b x) s c
       (placed ch (.shiftp (Claims.phaseTarget x (ch.rg a)) (if x.getLsbD 10 then ch.rg b else BitVec.ofNat 32 (bits x 47 16))))) ∧
     (Free s c (mkWord 0x75 a b x) → (x.getLsbD 8 = true → (ch.rg b).toNat < 256) → Next (.self c a b x) s c
       (placed ch (.self (a.setWidth 3) (if x.getLsbD 8 then (ch.rg b).setWidth 8 else BitVec.ofNat 8 (bits x 7 0))))) ∧
     (Free s c (mkWord 0x76 a b x) → Next (.seta c a b x) s c
       (placed ch (.seta (a.setWidth 3) (if x.getLsbD 16 then (ch.rg b).setWidth 16 else BitVec.ofNat 16 (bits x 15 0))))) ∧
     (Free s c (mkWord 0x77 a b x) →
       Next (.mix c a b x) s c (placed ch (.mix (BitVec.ofNat 8 (bits x 7 0)) (x.getLsbD 8)))) ∧
     (Free s c (mkWord 0xA0 a b x) →
       Next (.calw c a b x) s c (placed ch (.calw (if x.getLsbD 32 then ch.rg b else BitVec.ofNat 32 (bits x 31 0))))) ∧
     (∀ y, y = withBit x 0 true → Free s c (mkWord 0xA2 a b y) → Next (.irqAt c a b x) s c (placed ch .irq))) ∧
  (∀ c a b x s ch, ch = s.dev.ch c →
     (∀ y l, y = withBit x 9 false → l = (if y.getLsbD 8 then ch.rg a else BitVec.ofNat 32 (bits y 7 0)) →
       (Free s c (mkWord 0x72 a b y) → l.toNat < 256 → (ch.rg (b + 1)).toNat < 65536 → Next (.setfSlot c a b x) s c
         (placed ch (.setf (.slot (l.setWidth 8)) (((ch.rg (b + 1)).setWidth 16 : BitVec 16) ++ ch.rg b)))) ∧
       (MayIssue s.dev c (mkWord 0x72 a b y) → l.toNat < 256 → 65536 ≤ (ch.rg (b + 1)).toNat →
         Faults (.setfSlot c a b x) s s.dev c 7 1 l.toNat) ∧
       (MayIssue s.dev c (mkWord 0x72 a b y) → 256 ≤ l.toNat → Faults (.setfSlot c a b x) s s.dev c 7 0 l.toNat)) ∧
     (∀ y l, y = withBit x 9 true → l = (if y.getLsbD 8 then ch.rg a else BitVec.ofNat 32 (bits y 7 0)) →
       (Free s c (mkWord 0x72 a b y) → l.toNat < 256 → (ch.rg (b + 1)).toNat < 65536 → Next (.setfpSlot c a b x) s c
         (placed ch (.setfp (.slot (l.setWidth 8)) (((ch.rg (b + 1)).setWidth 16 : BitVec 16) ++ ch.rg b)))) ∧
       (MayIssue s.dev c (mkWord 0x72 a b y) → l.toNat < 256 → 65536 ≤ (ch.rg (b + 1)).toNat →
         Faults (.setfpSlot c a b x) s s.dev c 7 1 l.toNat) ∧
       (MayIssue s.dev c (mkWord 0x72 a b y) → 256 ≤ l.toNat → Faults (.setfpSlot c a b x) s s.dev c 7 0 l.toNat)) ∧
     (MayIssue s.dev c (mkWord 0x73 a b x) → bits x 9 8 = 2 → 256 ≤ (ch.rg a).toNat →
       Faults (.setp c a b x) s s.dev c 7 0 (ch.rg a).toNat) ∧
     (MayIssue s.dev c (mkWord 0x74 a b x) → bits x 9 8 = 2 → 256 ≤ (ch.rg a).toNat →
       Faults (.shiftp c a b x) s s.dev c 7 0 (ch.rg a).toNat) ∧
     (MayIssue s.dev c (mkWord 0x75 a b x) → x.getLsbD 8 = true → 256 ≤ (ch.rg b).toNat →
       Faults (.self c a b x) s s.dev c 7 0 (ch.rg b).toNat))

/-! ### Instructions: events (R119, R120, R129 to R132) -/

/-- JEV and BEV resolve 40 ticks before SC in lockstep mode and 33 in fast mode, behind every presentation of that tick, and wait
until then (R84, R86, R263). The window is
the events after the cutoff and up to SC − 64, in fast mode up to SC − 33 or the issue tick if later. JEV branches when an
accepted code is there, G[A] taking the lowest; BEV branches through its table by its first event. The window's events leave the
store, and the cutoff moves to the window's end (R83, R129, R130). -/
def Obligations.DecisionsBranchOnTheirWindow : Prop :=
  ∀ c a b x s ch fast dt hi win y due, ch = s.dev.ch c → fast = s.dev.fast c → dt = s.dev.ev.dt →
    due = (!s.dev.presentsDue c && notAfter (ch.sc - if fast then 33 else 40) dt) →
    hi = (if fast then tmax dt (ch.sc - 33) else ch.sc - 64) →
    win = (ch.store.filter fun e => before ch.cutoff (if fast then e.pres else e.stamp) &&
      notAfter (if fast then e.pres else e.stamp) hi) →
    y = { ch with store := ch.store.filter (fun e => before hi (if fast then e.pres else e.stamp)), cutoff := tmax ch.cutoff hi } →
    (∀ low, low = ((win.filter fun e => e.code &&& BitVec.ofNat 8 (bits x 31 24) = BitVec.ofNat 8 (bits x 23 16)).map
        (·.code.toNat)).min? →
      Free s c (mkWord 0x60 a b x) →
      (due = true → Goes (.jev c a b x) s c
        (if x.getLsbD 32 then y.setG a (match low with | some n => BitVec.ofNat 32 n | none => 0xFFFFFFFF) else y)
        (if low.isSome then BitVec.ofNat 16 (bits x 14 0) else ch.pc + 1)) ∧
      (due = false → Waits (.jev c a b x) s c (mkWord 0x60 a b x) .decision)) ∧
    (∀ first, first = win.foldl firstByStamp none → MayIssue s.dev c (mkWord 0x61 a b x) →
      (due = true → Goes (.bev c a b x) s c
        (if x.getLsbD 39 then y.setG a (match first with | some e => e.code.setWidth 32 | none => 0xFFFFFFFF) else y)
        (BitVec.ofNat 16 (match first with
          | some e => bits x 14 0 + (e.code &&& BitVec.ofNat 8 (bits x 23 16)).toNat
          | none => bits x 38 24))) ∧
      (due = false → Waits (.bev c a b x) s c (mkWord 0x61 a b x) .decision))

/-- WAITEV takes the first accepted event after the cutoff (R85, R86, R119): in lockstep mode SC becomes the stamp + 64, or + 72
when its delivery woke the cluster, if later; in fast mode 33 ticks after the presentation or the issue. Without one it waits,
and a deadline that has passed times it out (R120). It resolves behind the presentations of its tick (R263). With W = 1 and A = B the
register keeps the time (log entry 46). -/
def Obligations.EventWaitsMatchOrTimeOut : Prop :=
  ∀ c a b x s ch fast dt dl ddl lim cands first, ch = s.dev.ch c → fast = s.dev.fast c → dt = s.dev.ev.dt →
    ddl = bits x 39 16 → dl = ch.sc + tk ddl → lim = tmax dt (dl - if fast then 33 else 40) →
    cands = (ch.store.filter fun e => e.code &&& BitVec.ofNat 8 (bits x 15 8) = BitVec.ofNat 8 (bits x 7 0) &&
      before ch.cutoff (if fast then e.pres else e.stamp) && (decide (ddl = 0) || notAfter e.pres lim) &&
      (fast || decide (ddl = 0) || notAfter e.stamp (dl - 64))) →
    first = cands.foldl (firstWait fast) none → Free s c (mkWord 0x34 a b x) →
    (s.dev.presentsDue c = true → Waits (.waitev c a b x) s c (mkWord 0x34 a b x) .event) ∧
    (s.dev.presentsDue c = false →
    (∀ e at_ y, first = some e → at_ = tmax dt e.pres →
      y = (if fast then { ch with store := ch.store.filter (fun f => before at_ f.pres), cutoff := tmax ch.cutoff at_
                                  sc := tmax ch.sc (at_ + 33) }
           else { ch with store := ch.store.filter (fun f => before e.stamp f.stamp), cutoff := tmax ch.cutoff e.stamp
                          sc := tmax ch.sc (e.stamp + if e.woke then 72 else 64) }) →
      Next (.waitev c a b x) s c
        (if x.getLsbD 40 then (y.setG a (e.code.setWidth 32)).setG b (e.stamp.setWidth 32) else y)) ∧
    (first = none → ddl = 0 → Waits (.waitev c a b x) s c (mkWord 0x34 a b x) .event) ∧
    (first = none → ddl ≠ 0 → notAfter lim dt = false → Waits (.waitev c a b x) s c (mkWord 0x34 a b x) .event) ∧
    (∀ y, first = none → ddl ≠ 0 → notAfter lim dt = true →
      y = (if fast then { ch with store := ch.store.filter (fun f => before lim f.pres), cutoff := tmax ch.cutoff lim
                                  sc := tmax dl (lim + 33) }
           else { ch with store := ch.store.filter (fun f => before (dl - 64) f.stamp), cutoff := tmax ch.cutoff (dl - 64)
                          sc := tmax dl (lim + 40) }) →
      Next (.waitev c a b x) s c
        (if x.getLsbD 40 then (y.setG a 0xFFFFFFFF).setG b (dl.setWidth 32) else y)))

/-- Array SIG (R132, R303, R304): held back by run-ahead and, while the array stands, by a full send queue; else ILLEGAL 0b011 when
SC is less than 160 ticks after DT (a fault of the output in the same tick is log entry 46); otherwise it completes: the event is sent
both ways while the array stands, and this device's copy is held until SC (`arrayEvent`). -/
def Obligations.ArraySignalsNeedLead : Prop :=
  ∀ c a b x s y e sc, y = withBit x 8 true → e = BitVec.ofNat 8 (bits y 7 0) → sc = (s.dev.ch c).sc →
    MayIssue s.dev c (mkWord 0x62 a b y) →
    (s.dev.aheadTooFar c = true → Waits (.sigArray c a b x) s c (mkWord 0x62 a b y) .runahead) ∧
    (s.dev.aheadTooFar c = false → 2 ≤ s.dev.linkState → (s.dev.sendFull .e = true ∨ s.dev.sendFull .w = true) →
      Waits (.sigArray c a b x) s c (mkWord 0x62 a b y) .busy) ∧
    (s.dev.aheadTooFar c = false → (2 ≤ s.dev.linkState → s.dev.sendFull .e = false ∧ s.dev.sendFull .w = false) →
      before sc (s.dev.ev.dt + 160) = true → Faults (.sigArray c a b x) s s.dev c 1 3 (sc.toNat % 2 ^ 32)) ∧
    (s.dev.aheadTooFar c = false → (2 ≤ s.dev.linkState → s.dev.sendFull .e = false ∧ s.dev.sendFull .w = false) →
      before sc (s.dev.ev.dt + 160) = false → (s.dev.ch c).pc ≠ 32767 →
      Ends (.sigArray c a b x) s fun t =>
        Issued (s.dev.arrayEvent e sc) t c ((s.dev.ch c).passed ((s.dev.ch c).pc + 1))) ∧
    (s.dev.aheadTooFar c = false → s.dev.linkState < 2 → before sc (s.dev.ev.dt + 160) = false →
      s.dev.link.hold.length < 1024 → (s.dev.ch c).pc ≠ 32767 →
      Ends (.sigArray c a b x) s fun t =>
        Issued { s.dev with link := { s.dev.link with hold := s.dev.link.hold ++ [⟨e, sc, .e⟩] } } t c
          ((s.dev.ch c).passed ((s.dev.ch c).pc + 1))) ∧
    (∀ d, s.dev.aheadTooFar c = false → 2 ≤ s.dev.linkState → s.dev.sendFull .e = false → s.dev.sendFull .w = false →
      before sc (s.dev.ev.dt + 160) = false → (s.dev.ch c).pc ≠ 32767 →
      d = s.dev.sendBoth 2 1 false (fun h => eventBody e sc s.dev.arrayPos h) → d.link.hold.length < 1024 →
      Ends (.sigArray c a b x) s fun t =>
        Issued { d with link := { d.link with hold := d.link.hold ++ [⟨e, sc, .e⟩] } } t c
          ((s.dev.ch c).passed ((s.dev.ch c).pc + 1)))

/-! ### Instructions: rings (R123, R141 to R145, R282) -/

/-- Slot `slot` of channel `c` names ring `q`, of an accepted kind, whose context has no error and is not under a memory test
(R141, R354, R357). -/
def Sys2Proof.Claims.Names (d : Dev) (c : Fin 32) (slot q : Nat) (kinds : List Nat) : Prop :=
  slot < 8192 ∧ d.ringOfSlot c slot = some q ∧ d.ringKind q ∈ kinds ∧ d.probeSlot c slot = d ∧ d.abandonAt .context (32 * q) = d

/-- The head record of ring `q` is in the record buffer, without a poison mark (R144, R281). -/
def Sys2Proof.Claims.HasRecord (d : Dev) (c : Fin 32) (slot q : Nat) (r : RecCopy) : Prop :=
  (d.nameSlot c slot).headCopy c q = some r ∧ r.poison = none

/-- A ring instruction of channel `c` has completed with `n` records of ring `q` consumed: CONS has moved by `n`, no other
byte of any memory has, and outside channel `c`, its count of instructions and registers `rs` nothing else has changed but MSI-X
latches. -/
def Sys2Proof.Claims.ConsumedBut (rs : List Nat) (d t : Dev) (c : Fin 32) (q n : Nat) : Prop :=
  t.cons q = d.cons q + BitVec.ofNat 32 n ∧
  (∀ i, i < 32 * q + 0x10 ∨ 32 * q + 0x14 ≤ i → t.mem.ctx.byte i = d.mem.ctx.byte i) ∧
  t.mem = { d.mem with ctx := t.mem.ctx } ∧ (t.ch c).pc = (d.ch c).pc + 1 ∧ (t.ch c).held = none ∧
  (t.ch c).st = (d.ch c).st ∧ OtherChans d t c ∧
  t.get64 (R.CH_SEQ_CNT c 0 0) = d.get64 (R.CH_SEQ_CNT c 0 0) + 1 ∧ RegsBut d t (issuedRegs c ++ rs) ∧ t.reply = d.reply ∧
  RestSame d t

/-- `ConsumedBut` with no further register. -/
def Sys2Proof.Claims.Consumed (d t : Dev) (c : Fin 32) (q n : Nat) : Prop := Claims.ConsumedBut [] d t c q n

/-- A ring row: its channel and word, the scheduler slot that it names, the ready records it needs, the ring kinds it accepts, and
whether it reads the head record (R123, R141 to R145). -/
def Sys2Proof.Claims.ringUse (d : Dev) : Instr → Option (Fin 32 × W64 × Nat × Nat × List Nat × Bool)
  | .pop c a b x => some (c, mkWord 0x90 a b (withBit x 18 false), (if x.getLsbD 13 then ((d.ch c).rg b).toNat else bits x 12 0), 1, [1], true)
  | .popLedger c a b x => some (c, mkWord 0x90 a b (withBit x 18 true), (if x.getLsbD 13 then ((d.ch c).rg b).toNat else bits x 12 0), 1, [1], true)
  | .peek c a b x => some (c, mkWord 0x91 a b x, (if x.getLsbD 13 then ((d.ch c).rg b).toNat else bits x 12 0), 1, [1], true)
  | .rdy c a b x => some (c, mkWord 0x92 a b x, (if x.getLsbD 13 then ((d.ch c).rg b).toNat else bits x 12 0), bits x 29 14, [1, 2, 3], false)
  | .ack c a b x => some (c, mkWord 0x93 a b x, (if x.getLsbD 13 then ((d.ch c).rg b).toNat else bits x 12 0), bits x 17 14 + 1, [1, 2], false)
  | .playgRing c a b x => some (c, mkWord 0x41 a b (ringSrc x), (if bits x 15 14 < 2 then bits x 12 0 else ((d.ch c).rg b).toNat), 1, [2], true)
  | _ => none

/-- From device `g`, the ring row with word `w` waits whole with STALL RING. -/
def Sys2Proof.Claims.RingWaits (i : Instr) (s : State) (g : Dev) (c : Fin 32) (w : W64) : Prop :=
  Becomes i s (g.setCh c { g.ch c with held := some w, stall := .ring, heldAt := s.dev.ev.dt })

/-- POP, PEEK, RDY, ACK, POP_LEDGER and the ring form of PLAYG on a ready ring (R123, R144, R145): the payload words reach their
registers, or the play or the Ledger action stands at SC; POP, POP_LEDGER, PLAYG and ACK consume, PEEK and RDY do not. Each of the six
that names no ring of an accepted kind faults ILLEGAL 0b100 with the slot (R141, R142); on a ring with too few ready records it waits
with RING, or faults RING_TIMEOUT at once when the limit is 0 (R143); those that read the head record wait while it is fetched on
demand (R281), which shows RING by the model's choice (log entry 46), and on a poisoned one fault POISON 0b000 and leave it (R144). `e`
is the device with Caravan awake (R432), `nameSlot` makes the slot the one named last (R281); a fault of the output in the same tick is
log entry 46. -/
def Obligations.RingInstructionsConsumeWaitOrFault : Prop :=
  (∀ c a b x s ch e slot q, ch = s.dev.ch c → ch.pc ≠ 32767 → e = s.dev.wakeCaravan →
     (∀ y m r, y = withBit x 18 false → slot = ringSlot ch (mkWord 0x90 a b y) → MayIssue s.dev c (mkWord 0x90 a b y) →
       Claims.Names e c slot q [1] → 1 ≤ e.ready q → Claims.HasRecord e c slot q r → m = bits y 17 14 →
       Ends (.pop c a b x) s fun t => Claims.Consumed e t c q 1 ∧ (t.ch c).queue = ch.queue ∧ (t.ch c).sc = ch.sc ∧
         ∀ g : BitVec 4, (t.ch c).rg g =
           if a.toNat ≤ g.toNat ∧ g.toNat ≤ a.toNat + m then recWord r.data (8 + 4 * (g.toNat - a.toNat)) else ch.rg g) ∧
     (∀ m r, slot = ringSlot ch (mkWord 0x91 a b x) → MayIssue s.dev c (mkWord 0x91 a b x) →
       Claims.Names e c slot q [1] → 1 ≤ e.ready q → Claims.HasRecord e c slot q r → m = bits x 17 14 →
       Ends (.peek c a b x) s fun t => Claims.Consumed e t c q 0 ∧ (t.ch c).queue = ch.queue ∧ (t.ch c).sc = ch.sc ∧
         ∀ g : BitVec 4, (t.ch c).rg g =
           if a.toNat ≤ g.toNat ∧ g.toNat ≤ a.toNat + m then recWord r.data (8 + 4 * (g.toNat - a.toNat)) else ch.rg g) ∧
     (slot = ringSlot ch (mkWord 0x92 a b x) → MayIssue s.dev c (mkWord 0x92 a b x) →
       Claims.Names e c slot q [1, 2, 3] → bits x 29 14 ≤ e.ready q →
       Ends (.rdy c a b x) s fun t => Claims.Consumed e t c q 0 ∧ (t.ch c).queue = ch.queue ∧ (t.ch c).sc = ch.sc ∧
         ∀ g : BitVec 4, (t.ch c).rg g = if g = a then BitVec.ofNat 32 (min (e.ready q) 0xFFFFFFFF) else ch.rg g) ∧
     (∀ n, slot = ringSlot ch (mkWord 0x93 a b x) → MayIssue s.dev c (mkWord 0x93 a b x) →
       Claims.Names e c slot q [1, 2] → n = bits x 17 14 + 1 → n ≤ e.ready q →
       Ends (.ack c a b x) s fun t => Claims.Consumed e t c q n ∧ (t.ch c).queue = ch.queue ∧ (t.ch c).sc = ch.sc ∧
         (t.ch c).g = ch.g) ∧
     (∀ y r, y = withBit x 18 true → slot = ringSlot ch (mkWord 0x90 a b y) → MayIssue s.dev c (mkWord 0x90 a b y) →
       Claims.Names e c slot q [1] → 1 ≤ e.ready q → Claims.HasRecord e c slot q r →
       Ends (.popLedger c a b x) s fun t => Claims.Consumed e t c q 1 ∧ (t.ch c).g = ch.g ∧ (t.ch c).sc = ch.sc ∧
         (t.ch c).queue = ch.queue ++ [⟨ch.sc, .ledger (ledgerEntry r.data 8 ++ ledgerEntry r.data 32)⟩]) ∧
     (∀ y d r, y = ringSrc x → slot = (if bits y 15 14 = 1 then bits y 12 0 else (ch.rg b).toNat) →
       MayIssue s.dev c (mkWord 0x41 a b y) → Claims.Names e c slot q [2] → 1 ≤ e.ready q →
       Claims.HasRecord e c slot q r →
       d = ⟨recWord r.data 8, recWord r.data 12, recWord r.data 16, recWord r.data 20⟩ →
       Ends (.playgRing c a b x) s fun t => Claims.ConsumedBut (lowRegs c) e t c q 1 ∧ (t.ch c).g = ch.g ∧
         (t.ch c).queue = ch.queue ++ [⟨ch.sc, .play (.record d (BitVec.ofNat 13 slot)) ch.nextPid⟩] ∧
         (t.ch c).sc = ch.sc + tk (d.len * s.dev.blockTicks c))) ∧
  (∀ i c w slot need kinds reads s e, Claims.ringUse s.dev i = some (c, w, slot, need, kinds, reads) → MayIssue s.dev c w →
     e = s.dev.wakeCaravan → e.probeSlot c slot = e →
     (8192 ≤ slot ∨ e.ringOfSlot c slot = none → Faults i s e c 1 4 slot) ∧
     (∀ q, slot < 8192 → e.ringOfSlot c slot = some q → e.ringKind q ∉ kinds → Faults i s e c 1 4 slot) ∧
     (∀ q g, Claims.Names e c slot q kinds → g = e.nameSlot c slot →
       (e.ready q < need → e.get (F.CH_SEQ_RING_TMO_TMO c) = 0 → Faults i s g c 6 0 q) ∧
       (e.ready q < need → e.get (F.CH_SEQ_RING_TMO_TMO c) ≠ 0 → Claims.RingWaits i s g c w) ∧
       (need ≤ e.ready q → reads = true → g.headCopy c q = none → Claims.RingWaits i s g c w) ∧
       (∀ r p, need ≤ e.ready q → reads = true → g.headCopy c q = some r → r.poison = some p → Faults i s g c 5 0 p)))

/-! ### Waiting instructions -/

/-- Every instruction row has the effect that the opcode map gives its word (R101, R106): what the sequencer fetches from the
program store under STEP, and what it issues after a wait, is the row's own instruction. -/
def Obligations.WordsRunAsTheirRows : Prop :=
  ∀ i c w s, wordOfRow i = some (c, w) → exec i s = done s (s.dev.issue c w effectOf)

/-- Command `i` leaves the device as it is. -/
def Sys2Proof.Claims.Idles (s : State) (i : Instr) : Prop := Becomes i s s.dev

/-- A waiting instruction issues whole when its wait ends, and waits on before (R79, R80, R84, R143, R119): RUNAHEAD_RESUME,
QUEUE_FULL_RESUME, RING_READY_RESUME, DECISION_RESOLVE, WAITEV_MATCH and WAITEV_TIMEOUT act on the instruction held with their
own STALL only; with none held, or after the run, they do nothing. RING_TIMEOUT (R143): a ring instruction that has waited
CH.SEQ_RING_TMO ticks on a ring with too few records faults RING_TIMEOUT with the ring's number (a fault of the output in the same tick
is log entry 46); otherwise nothing happens. -/
def Obligations.HeldInstructionsEndOrTimeOut : Prop :=
  (∀ c s ch w, ch = s.dev.ch c → ch.held = some w → ch.st = .run → ch.stopB = none →
     CleanFetch s.dev c → opDefined (opOf w) = true → encOk w = true →
     (ch.stall = .runahead → scheduling w (tickCount ch w) = true → s.dev.aheadTooFar c = true → Claims.Idles s (.runaheadResume c)) ∧
     (ch.stall = .queueFull → places w (tickCount ch w) = true → s.dev.aheadTooFar c = false → 64 ≤ ch.queue.length →
       Claims.Idles s (.queueFullResume c)) ∧
     (Clear s c w →
       (ch.stall = .runahead → Becomes (.runaheadResume c) s (s.dev.settleIssue c w (effectOf s.dev c w))) ∧
       (ch.stall = .queueFull → Becomes (.queueFullResume c) s (s.dev.settleIssue c w (effectOf s.dev c w))) ∧
       (ch.stall = .ring → Becomes (.ringReadyResume c) s (s.dev.settleIssue c w (effectOf s.dev c w))) ∧
       (ch.stall = .decision → Becomes (.decisionResolve c) s (s.dev.settleIssue c w (effectOf s.dev c w))) ∧
       (ch.stall = .event → s.dev.presentsDue c = false → (s.dev.waitMatch c w).isSome = true →
         Becomes (.waitevMatch c) s (s.dev.settleIssue c w (effectOf s.dev c w))) ∧
       (ch.stall = .event → s.dev.presentsDue c = false → (s.dev.waitMatch c w).isNone = true →
         Becomes (.waitevTimeout c) s (s.dev.settleIssue c w (effectOf s.dev c w))))) ∧
  (∀ c s ch, ch = s.dev.ch c →
     (ch.stall ≠ .runahead → Claims.Idles s (.runaheadResume c)) ∧ (ch.stall ≠ .queueFull → Claims.Idles s (.queueFullResume c)) ∧
     (ch.stall ≠ .ring → Claims.Idles s (.ringReadyResume c)) ∧ (ch.stall ≠ .decision → Claims.Idles s (.decisionResolve c)) ∧
     (ch.stall ≠ .event ∨ s.dev.presentsDue c = true → Claims.Idles s (.waitevMatch c) ∧ Claims.Idles s (.waitevTimeout c)) ∧
     (∀ w, ch.held = some w → ((s.dev.waitMatch c w).isNone = true → Claims.Idles s (.waitevMatch c)) ∧
       ((s.dev.waitMatch c w).isSome = true → Claims.Idles s (.waitevTimeout c))) ∧
     (ch.held = none ∨ (ch.quiet = true ∧ ch.lateFault s.dev.ev.dt = false) →
       ∀ i ∈ [Instr.runaheadResume c, .queueFullResume c, .ringReadyResume c, .decisionResolve c, .waitevMatch c, .waitevTimeout c,
         .ringTimeout c], Claims.Idles s i) ∧
     (s.dev.starved c = none → Claims.Idles s (.ringTimeout c))) ∧
  (∀ i c w slot need kinds reads s q, Claims.ringUse s.dev i = some (c, w, slot, need, kinds, reads) → (s.dev.ch c).held = some w →
     (s.dev.ch c).stall = .ring → s.dev.ringOfSlot c slot = some q → s.dev.ready q < need →
     s.dev.starved c = some q ∧
     (s.dev.get (F.CH_SEQ_RING_TMO_TMO c) ≤ (s.dev.ch c).ringWait → (s.dev.ch c).quiet = false → Faults (.ringTimeout c) s s.dev c 6 0 q) ∧
     ((s.dev.ch c).ringWait < s.dev.get (F.CH_SEQ_RING_TMO_TMO c) → Claims.Idles s (.ringTimeout c)))

/-! ### Dispatch, blocks and output (R77, R78, R81, R95, R96, R98, R136 to R140, R153, R154, R163, R178) -/

/-- Slot `l` of channel `c` becomes `v`; the channel is `y` otherwise, and nothing else of the device changes. -/
def Sys2Proof.Claims.SlotBecomes (i : Instr) (s : State) (c : Fin 32) (y : Chan) (l : BitVec 8) (v : Slot) : Prop :=
  Ends i s fun t => t = { s.dev with chans := t.chans, msix := t.msix } ∧ OtherChans s.dev t c ∧
    t.ch c = { y with ledger := (t.ch c).ledger } ∧ (t.ch c).slot l = v ∧ ∀ k, k ≠ l → (t.ch c).slot k = y.slot k

/-- ACTION_TAKE_EFFECT: what each kind of action does at its tick (R77, R133, R135 to R140, R144, R147, R149, R186). SETF sets
the tuning word and keeps the phase continuous, SETFP restarts it at 0, SETP sets it, SHIFTP adds to it at every time; a Ledger record
writes its entries, the second over the first. Of several actions due the first dispatched takes effect first (R77): the command does
what it does from the device in which that one has taken effect and gone. -/
def Obligations.ActionsTakeEffectAtTheirTick : Prop :=
  (∀ c s ch a pre post, ch = s.dev.ch c → ch.dispatched = pre ++ a :: post → (∀ b ∈ pre, notAfter b.tick s.dev.ev.dt = false) →
    notAfter a.tick s.dev.ev.dt = true →
    exec (.actionTakeEffect c) s = exec (.actionTakeEffect c) { s with dev :=
      (s.dev.setCh c (({ ch with dispatched := pre ++ post } : Chan).applyAct a.tick a.act)).outerAct c a }) ∧
  (∀ c s, (∀ b ∈ (s.dev.ch c).dispatched, notAfter b.tick s.dev.ev.dt = false) → Becomes (.actionTakeEffect c) s s.dev) ∧
  ∀ c s ch a rest t0 y, ch = s.dev.ch c → ch.dispatched = ⟨t0, a⟩ :: rest → notAfter t0 s.dev.ev.dt = true →
    (∀ b ∈ rest, notAfter b.tick s.dev.ev.dt = false) → y = { ch with dispatched := rest } →
    (∀ v m, a = .mark v m →
      Becomes (.actionTakeEffect c) s (s.dev.setCh c { y with marker := (ch.marker &&& ~~~m) ||| (v &&& m) })) ∧
    (∀ sel f l v, a = .setf sel f → l = ch.target sel → v = ⟨f, (ch.slot l).phase t0, t0⟩ →
      Claims.SlotBecomes (.actionTakeEffect c) s c y l v ∧ v.phase t0 = (ch.slot l).phase t0) ∧
    (∀ sel f l v, a = .setfp sel f → l = ch.target sel → v = ⟨f, 0, t0⟩ →
      Claims.SlotBecomes (.actionTakeEffect c) s c y l v ∧ v.phase t0 = 0) ∧
    (∀ sel p l v, a = .setp sel p → l = ch.target sel → v = ⟨(ch.slot l).ftw, (p.setWidth 48 : BitVec 48) <<< (16 : Nat), t0⟩ →
      Claims.SlotBecomes (.actionTakeEffect c) s c y l v ∧ v.phase t0 = (p.setWidth 48 : BitVec 48) <<< (16 : Nat)) ∧
    (∀ sel p l v, a = .shiftp sel p → l = ch.target sel →
      v = ⟨(ch.slot l).ftw, (ch.slot l).phi + (p.setWidth 48 : BitVec 48) <<< (16 : Nat), (ch.slot l).t0⟩ →
      Claims.SlotBecomes (.actionTakeEffect c) s c y l v ∧ ∀ t, v.phase t = (ch.slot l).phase t + (p.setWidth 48 : BitVec 48) <<< (16 : Nat)) ∧
    (∀ n l, a = .self n l → Becomes (.actionTakeEffect c) s
      (s.dev.setCh c { y with osc := ch.osc.set n.toFin { ch.osc[n.toFin] with slot := l } })) ∧
    (∀ n amp, a = .seta n amp → Becomes (.actionTakeEffect c) s
      (s.dev.setCh c { y with osc := ch.osc.set n.toFin { ch.osc[n.toFin] with amp := amp } })) ∧
    (∀ e b, a = .mix e b → Becomes (.actionTakeEffect c) s (s.dev.setCh c { y with mixEna := e, baseband := b })) ∧
    (∀ n, a = .calw n → Becomes (.actionTakeEffect c) s (s.dev.setCh c { y with calWin := some (t0, n) })) ∧
    (a = .irq → Becomes (.actionTakeEffect c) s ((s.dev.setCh c y).set (F.CH_SEQ_IRQ_STATUS_SEQ c) 1)) ∧
    (∀ e, a = .sig e → Becomes (.actionTakeEffect c) s
      ((s.dev.setCh c y).emit e t0 0 3 (BitVec.ofNat 16 c.val) false t0)) ∧
    (a = .ledger [] → Becomes (.actionTakeEffect c) s (s.dev.setCh c y)) ∧
    (∀ l v, a = .ledger [(l, v)] → Claims.SlotBecomes (.actionTakeEffect c) s c y l v) ∧
    (∀ l v k u, a = .ledger [(l, v), (k, u)] → Ends (.actionTakeEffect c) s fun t =>
      t = { s.dev with chans := t.chans, msix := t.msix } ∧ OtherChans s.dev t c ∧ t.ch c = { y with ledger := (t.ch c).ledger } ∧
      ∀ m, (t.ch c).slot m = if m = k then u else if m = l then v else y.slot m)

/-- The channel with a block committed (R153, R154): the block stands behind the others, the next boundary is `bt` ticks later, and the
first block of a run ends what faults of runs before it hold from its tick on (R98). -/
def Sys2Proof.Claims.committing (x : Chan) (bt : Nat) (k : Blk) : Chan :=
  { x with blks := x.blks ++ [k], nextS := some (k.first + tk bt), committed := true
           holds := if x.committed then x.holds
             else (x.holds.filter fun h => before h.1 k.first).map fun h => (h.1, if notAfter h.2 k.first then h.2 else k.first) }

/-- Bytes of one block of a descriptor's data, and blocks of its head (R4, R159, R171). -/
def Sys2Proof.Claims.blockSize (x : Desc) : Nat := [128, 256, 64, 32].getD (bits x.w0 2 1) 0

/-- A byte range of Oasis overlaps an enabled stage buffer or head area of cluster `k` (R163, R164). -/
def Sys2Proof.Claims.Reserves (d : Dev) (k off n : Nat) : Prop :=
  0 < n ∧ ∃ j, j < 4 ∧
    ((d.get (F.CL_STAGE_CTRL_EN k j) = 1 ∧ off < d.get (F.CL_STAGE_CTRL_BASE k j) * 0x40000 + 0x40000 ∧
        d.get (F.CL_STAGE_CTRL_BASE k j) * 0x40000 < off + n) ∨
     (d.get (F.CL_STAGE_CTRL_HEAD_EN k j) = 1 ∧ off < d.get (F.CL_STAGE_CTRL_HEAD_BASE k j) * 0x10000 + 0x10000 ∧
        d.get (F.CL_STAGE_CTRL_HEAD_BASE k j) * 0x10000 < off + n))

/-- The sub-causes 0b001 to 0b101 of SEG_INVALID for descriptor `x` on channel `c` (R176, with the fields of R157): not valid; a
reserved value; past the end of its memory; streamed with no stage buffer; pinned inside an enabled area. -/
def Sys2Proof.Claims.SegCause (d : Dev) (c : Fin 32) (x : Desc) (n : Nat) : Prop :=
  let fmt := bits x.w0 2 1
  let msrc := bits x.w0 6 5
  let len := bits x.w0 31 8 + 1
  let streamed := x.w0.getLsbD 3
  let track := if msrc = 2 then 32 * len else 0
  match n with
  | 1 => x.w0.getLsbD 0 = false
  | 2 => (fmt = 0 ∧ msrc = 3) ∨ ((fmt = 1 ∨ fmt = 2) ∧ msrc ≠ 1 ∧ msrc ≠ 2) ∨ (fmt = 3 ∧ msrc ≠ 0) ∨ (x.w0.getLsbD 7 = true ∧ fmt ≠ 3) ∨
      (fmt ≠ 2 ∧ bits x.w2 15 0 ≠ 0) ∨ (x.w3 ≠ 0 ∧ msrc ≠ 2) ∨ x.w0.getLsbD 4 = true ∨ bits x.w2 23 16 ≠ 0
  | 3 => ∃ cap, cap = (if streamed then (if d.get F.DEV_STAGE_STAGE < 4 then 0 else d.get F.MEM_HEALTH_MAPPED * 2 ^ 30) else 2 ^ 23) ∧
      (cap < 32 * x.w1.toNat + len * Claims.blockSize x ∨ (msrc = 2 ∧ cap < 32 * x.w3.toNat + track))
  | 4 => streamed = true ∧ d.get (F.CL_STAGE_CTRL_EN (clu c) (sub c)) = 0
  | 5 => streamed = false ∧ (Claims.Reserves d (clu c) (32 * x.w1.toNat) (len * Claims.blockSize x) ∨ Claims.Reserves d (clu c) (32 * x.w3.toNat) track)
  | _ => False

/-- Head slot `h` of channel `c` holds the head of a streamed play of table index `i` with descriptor `x` (R172): its entry is enabled
and names the index, its head is resident, and it records the descriptor. -/
def Sys2Proof.Claims.HeadFits (d : Dev) (c : Fin 32) (i : Nat) (x : Desc) (h : Fin 16) : Prop :=
  d.get (F.CL_TGT_CFG_EN (clu c) (sub c) h) = 1 ∧ d.get (F.CL_TGT_CFG_INDEX (clu c) (sub c) h) = i ∧
  d.get (F.CL_TGT_STAT_RESIDENT (clu c) (sub c) h) = 1 ∧ ∃ y, d.headOf c h = some y ∧ y.same x = true ∧ y.streamed = true

/-- The segment play that a dispatch begins (R123, R172, R283): of a table index `i` it is fed by the STREAM ring bound to the index, or
else uses the lowest head slot that fits; it starts cold where it names an enabled entry and has no head. -/
def Sys2Proof.Claims.BeginsAs (d : Dev) (c : Fin 32) (i : Nat) (x : Desc) (p : SegPlay) : Prop :=
  p.d = x ∧
  p.ring = (if x.streamed ∧ bits x.w0 2 1 ≠ 3 ∧ bits x.w0 6 5 ≠ 2 then d.streamRing c i else none) ∧
  (x.streamed = false ∨ p.ring ≠ none → p.head = none) ∧
  (x.streamed = true → p.ring = none →
    (∀ h, p.head = some h → Claims.HeadFits d c i x h ∧ ∀ k, k < h → ¬ Claims.HeadFits d c i x k) ∧
    (p.head = none → ∀ h, ¬ Claims.HeadFits d c i x h)) ∧
  (p.cold = true ↔ x.streamed = true ∧ p.head = none ∧
    ∃ h, h < 16 ∧ d.get (F.CL_TGT_CFG_EN (clu c) (sub c) h) = 1 ∧ d.get (F.CL_TGT_CFG_INDEX (clu c) (sub c) h) = i)

/-- The hint of play `pid` differs from descriptor `x` of its dispatch, one of them being streamed (R167). -/
def Sys2Proof.Claims.HintDiffers (x : Chan) (pid : Nat) (y : Desc) : Prop :=
  ∃ f, x.fetches.find? (·.pid = pid) = some f ∧ f.d.same y = false ∧ (f.d.streamed = true ∨ y.streamed = true)

/-- A saturating count of width `f.len` goes up by 1. -/
def Sys2Proof.Claims.CountsUp (d t : Dev) (f : Fld) : Prop := t.get f = min (d.get f + 1) (2 ^ f.len - 1)

/-- ACTION_DISPATCH: an action leaves the queue 31 ticks before its own and not earlier (R78). PLAYN, HOLD and PARK cut the play
in progress and commit their first block (R153, R154); a CALW below 48,000 ticks is counted and dropped, one with no run due is
dropped (R236); every other action waits for its tick. A play at its dispatch (R158, R162, R176, R354): an index of 16,384 or
more faults SEG_INVALID 0b000, a descriptor whose unit is uncorrectable POISON 0b011, one that fails a check SEG_INVALID with
that check's sub-cause, the lowest of those that apply (`SegCause`), each with B the play's own tick; otherwise the play begins: with
the head that it uses or a HEAD_MISS (R172), and a HINT_MISS where its hint was another descriptor (R167); the first block of a pinned
one whose words are sound is read from Oasis. A commit fixes the fields that wait for its block (`fixFields`, R50) and raises the panic
signal anew (`panicCheck`, R169); the faults are stated with that signal settled and no fault earlier in the tick. -/
def Obligations.ActionsAreDispatchedAndChecked : Prop :=
  (∀ c s ch t0 a rest d, ch = s.dev.ch c → ch.queue = ⟨t0, a⟩ :: rest → d = s.dev.setCh c { ch with queue := rest } →
     (notAfter (t0 - 31) s.dev.ev.dt = false → Becomes (.actionDispatch c) s s.dev) ∧
     (notAfter (t0 - 31) s.dev.ev.dt = true →
       (a.output = false → (∀ n, a ≠ .calw n) →
         Becomes (.actionDispatch c) s (s.dev.setCh c { ch with queue := rest, dispatched := ch.dispatched ++ [⟨t0, a⟩] })) ∧
       (∀ n : W32, a = .calw n → n.toNat < 48000 →
         Becomes (.actionDispatch c) s (d.set (F.CH_CAL_CNT_HI c 1) (min (s.dev.get (F.CH_CAL_CNT_HI c 1) + 1) 65535))) ∧
       (∀ n : W32, a = .calw n → 48000 ≤ n.toNat → s.dev.flag (F.CH_CAL_STATUS_DUE c) = false → Becomes (.actionDispatch c) s d) ∧
       (∀ n : W32, a = .calw n → 48000 ≤ n.toNat → s.dev.flag (F.CH_CAL_STATUS_DUE c) = true →
         Becomes (.actionDispatch c) s (s.dev.setCh c { ch with queue := rest, dispatched := ch.dispatched ++ [⟨t0, a⟩] })) ∧
       (∀ (n : W32) cur blk e, before t0 (t0 + n.setWidth 64) = true → e = d.cutPlay c →
         ((a = .playn n ∧ cur = CurKind.osc ∧ blk = BlkKind.osc) ∨ (a = .hold n ∧ cur = .hold ∧ blk = .hold) ∨
           (a = .park n ∧ cur = .park ∧ blk = .park)) →
         Becomes (.actionDispatch c) s (((e.fixFields c t0 true).setCh c
           (Claims.committing { e.ch c with cur := ⟨cur, t0, t0 + n.setWidth 64⟩ } (s.dev.blockTicks c)
             ⟨t0, t0, t0 + n.setWidth 64, blk⟩)).panicCheck c)))) ∧
  (∀ c s ch t0 pid rest d, ch = s.dev.ch c → d = s.dev.setCh c { ch with queue := rest } →
     notAfter (t0 - 31) s.dev.ev.dt = true → ch.faultedIn s.dev.ev.dt = false → d.panicCheck c = d →
     (∀ idx : W32, ch.queue = ⟨t0, .play (.table idx) pid⟩ :: rest →
       (16384 ≤ idx.toNat → FaultsAt (.actionDispatch c) s d c 4 0 idx.toNat t0 ch.noIssue) ∧
       (∀ e, idx.toNat < 16384 → e = d.touchDesc (clu c) idx.toNat → e.hintAt (clu c) idx.toNat = none →
         FaultsAt (.actionDispatch c) s e c 5 3 idx.toNat t0 ch.noIssue) ∧
       (∀ x n e, idx.toNat < 16384 → d.touchDesc (clu c) idx.toNat = d → d.hintAt (clu c) idx.toNat = some x →
         e = d.noteHint c pid x → e.probeStream c x (some idx.toNat) = e →
         Claims.SegCause d c x n → (∀ k, k < n → ¬ Claims.SegCause d c x k) →
         FaultsAt (.actionDispatch c) s e c 4 n idx.toNat t0 ch.noIssue)) ∧
     (∀ x slot n, ch.queue = ⟨t0, .play (.record x slot) pid⟩ :: rest →
       Claims.SegCause d c x n → (∀ k, k < n → ¬ Claims.SegCause d c x k) →
       FaultsAt (.actionDispatch c) s d c 4 n (0x80000000 + slot.toNat) t0 ch.noIssue) ∧
     (∀ x slot p, ch.queue = ⟨t0, .play (.record x slot) pid⟩ :: rest → (∀ n, ¬ Claims.SegCause d c x n) → x.streamed = false →
       (∀ q, ch.cur.kind ≠ .seg q) → ch.fetches = [] → (x.hasTrack = false) → 0 < s.dev.blockTicks c →
       s.dev.mem.oasis.ue = [] → s.dev.mem.oasis.ce = [] → s.dev.mem.oasis.poison = [] → (∀ e, s.dev.testing e = none) →
       p = ⟨x, BitVec.ofNat 32 (0x80000000 + slot.toNat), pid, none, false, none⟩ →
       Becomes (.actionDispatch c) s (((s.dev.fixFields c t0 true).setCh c
         (Claims.committing { ch with queue := rest, cur := ⟨.seg p, t0, t0 + tk (x.len * s.dev.blockTicks c)⟩ } (s.dev.blockTicks c)
           ⟨t0, t0, t0 + tk (x.len * s.dev.blockTicks c),
             .seg x (s.dev.mem.oasis.bytes (oasisAt (clu c) x.addr) x.blockBytes) []⟩)).panicCheck c))) ∧
  (∀ c s ch t0 pid rest d x, ch = s.dev.ch c → d = s.dev.setCh c { ch with queue := rest } → notAfter (t0 - 31) s.dev.ev.dt = true →
     (∀ n, ¬ Claims.SegCause d c x n) →
     (∀ (idx : W32) e, ch.queue = ⟨t0, .play (.table idx) pid⟩ :: rest → idx.toNat < 16384 → d.touchDesc (clu c) idx.toNat = d →
       d.hintAt (clu c) idx.toNat = some x → e = d.noteHint c pid x → e.probeStream c x (some idx.toNat) = e →
       Ends (.actionDispatch c) s fun t =>
         (∃ p, (t.ch c).cur = ⟨.seg p, t0, t0 + tk (x.len * s.dev.blockTicks c)⟩ ∧ p.arg = idx ∧ p.pid = pid ∧
           Claims.BeginsAs d c idx.toNat x p ∧
           (p.cold = true → Claims.CountsUp d t (F.CL_CH_COUNT_HEAD_MISS (clu c) (sub c)) ∧
             t.get (F.CL_CH_IRQ_STATUS_HEAD_MISS (clu c) (sub c)) = 1) ∧
           (p.cold = false → t.get (F.CL_CH_COUNT_HEAD_MISS (clu c) (sub c)) = d.get (F.CL_CH_COUNT_HEAD_MISS (clu c) (sub c)))) ∧
         (Claims.HintDiffers ch pid x → Claims.CountsUp d t (F.CL_CH_COUNT_HINT_MISS (clu c) (sub c)) ∧
           t.get (F.CL_CH_IRQ_STATUS_HINT_MISS (clu c) (sub c)) = 1) ∧
         (¬ Claims.HintDiffers ch pid x →
           t.get (F.CL_CH_COUNT_HINT_MISS (clu c) (sub c)) = d.get (F.CL_CH_COUNT_HINT_MISS (clu c) (sub c)))) ∧
     (∀ slot, ch.queue = ⟨t0, .play (.record x slot) pid⟩ :: rest → Ends (.actionDispatch c) s fun t =>
       (t.ch c).cur = ⟨.seg ⟨x, BitVec.ofNat 32 (0x80000000 + slot.toNat), pid, none, false, none⟩, t0,
         t0 + tk (x.len * s.dev.blockTicks c)⟩))

/-- The Oasis ranges of block `i` of play `p` on channel `c`, data and then track (R162, R163, R166, R172): of a pinned segment in its
data and track; of a streamed one in the head slot that it uses, or in the places of its arrived block in the stage buffer. Where a
slot and the buffer lie inside their areas is log entry 48. -/
def Sys2Proof.Claims.BlockLies (d : Dev) (c : Fin 32) (p : SegPlay) (i : Nat) (data track : List (Nat × Nat)) : Prop :=
  let n := Claims.blockSize p.d
  let trk (o : Nat) : List (Nat × Nat) := if bits p.d.w0 6 5 = 2 then [(o, 32)] else []
  (p.d.streamed = false ∧ data = [(32 * p.d.w1.toNat + i * n, n)] ∧ track = trk (32 * p.d.w3.toNat + i * 32)) ∨
  (p.d.streamed = true ∧ ∃ h o, p.head = some h ∧ i < p.d.headN ∧
    o = d.get (F.CL_STAGE_CTRL_HEAD_BASE (clu c) (sub c)) * 0x10000 + h.val * 4096 + i * (n + if bits p.d.w0 6 5 = 2 then 32 else 0) ∧
    data = [(o, n)] ∧ track = trk (o + n)) ∨
  (p.d.streamed = true ∧ (∀ h, p.head = some h → p.d.headN ≤ i) ∧ ∃ b base, (d.ch c).staged p i = some b ∧
    base = d.get (F.CL_STAGE_CTRL_BASE (clu c) (sub c)) * 0x40000 ∧
    data = (b.grans.take (n / 32)).map (fun g => (base + 32 * g, 32)) ∧ track = (b.grans.drop (n / 32)).map fun g => (base + 32 * g, 32))

/-- Block `i` of play `p` goes through the stage buffer (R166, R172). -/
def Sys2Proof.Claims.Buffered (p : SegPlay) (i : Nat) : Prop := p.d.streamed = true ∧ ∀ h, p.head = some h → p.d.headN ≤ i

/-- BLOCK_COMMIT: the next block is committed 31 ticks before its first tick (R154): a block of what the output carries out while its
span lasts, with the bytes that Oasis holds for it (R162, R172), and rest after it (R76). A block of the stage buffer frees its places,
and a ring-fed one consumes its records: 2 of S16, 4 of IQ16, 1 of E8 (R166, R284). A streamed block not in the stage buffer faults
UNDERRUN 0b001, or 0b010 in the head part of a cold start (R178), which for a ring-fed play is 0b001 by the model's choice (log entry
47); one that came with a poison mark faults POISON 0b000, and a word of Oasis that reads bad POISON 0b001 (R179): stated with the panic
signal settled (R169) and no fault earlier in the tick (R99). Each commit fixes the fields that wait for its block (R50). -/
def Obligations.BlocksAreCommittedInTime : Prop :=
  ∀ c s ch b bt, ch = s.dev.ch c → bt = s.dev.blockTicks c → ch.nextS = some b →
    (∀ a ∈ ch.queue, a.act.output = true → before b a.tick = true) →
    (∀ p, ch.parkAt = some p → before b p = true) → (∀ f, ch.faultB = some f → before b f = true) →
    (notAfter (b - 31) s.dev.ev.dt = false → Becomes (.blockCommit c) s s.dev) ∧
    (notAfter (b - 31) s.dev.ev.dt = true →
      (ch.cur.kind = .rest ∨ ((ch.cur.kind = .osc ∨ ch.cur.kind = .hold ∨ ch.cur.kind = .park) ∧ before b ch.cur.stop = false) →
        Becomes (.blockCommit c) s (((s.dev.fixFields c b (decide (b = ch.firstSc))).setCh c
          (Claims.committing { ch with cur := ⟨.rest, b, b⟩ } bt ⟨b, b, b, .rest⟩)).panicCheck c)) ∧
      (∀ k, before b ch.cur.stop = true →
        ((ch.cur.kind = .osc ∧ k = BlkKind.osc) ∨ (ch.cur.kind = .hold ∧ k = .hold) ∨ (ch.cur.kind = .park ∧ k = .park)) →
        Becomes (.blockCommit c) s (((s.dev.fixFields c b (decide (ch.cur.first = b) || decide (b = ch.firstSc))).setCh c
          (Claims.committing ch bt ⟨b, ch.cur.first, ch.cur.stop, k⟩)).panicCheck c)) ∧
      (∀ p i, ch.cur.kind = .seg p → i = (b - ch.cur.first).toNat / bt →
        (p.d.len ≤ i → Becomes (.blockCommit c) s (((s.dev.fixFields c b (decide (b = ch.firstSc))).setCh c
          (Claims.committing { ch with cur := ⟨.rest, b, b⟩, fetches := ch.fetches.filter (·.pid ≠ p.pid)
                                       stage := ch.stage.filter (·.pid ≠ p.pid) } bt ⟨b, b, b, .rest⟩)).panicCheck c)) ∧
        (∀ data track e f y, i < p.d.len → Claims.BlockLies s.dev c p i data track → e = s.dev.touchWords (clu c) (data ++ track) →
          (∀ r ∈ wordsOf (data ++ track), s.dev.mem.oasis.bad (oasisAt (clu c) r) = false) →
          (∀ k, Claims.Buffered p i → ch.staged p i = some k → k.poison = none) →
          y = Claims.committing ch bt ⟨b, ch.cur.first, ch.cur.stop, .seg p.d
            (data.flatMap fun r => s.dev.mem.oasis.bytes (oasisAt (clu c) r.1) r.2)
            (track.flatMap fun r => s.dev.mem.oasis.bytes (oasisAt (clu c) r.1) r.2)⟩ →
          f = e.fixFields c b (decide (ch.cur.first = b) || decide (b = ch.firstSc)) →
          (¬ Claims.Buffered p i → Becomes (.blockCommit c) s ((f.setCh c y).panicCheck c)) ∧
          (Claims.Buffered p i → p.ring = none → Becomes (.blockCommit c) s
            ((f.setCh c { y with stage := y.stage.filter fun k => !(k.pid = p.pid && k.idx = i) }).panicCheck c)) ∧
          (∀ q, Claims.Buffered p i → p.ring = some q → s.dev.abandonAt .context (32 * q) = s.dev → Ends (.blockCommit c) s fun t =>
            t.cons q = s.dev.cons q + BitVec.ofNat 32 ([2, 4, 1, 1].getD (bits p.d.w0 2 1) 0) ∧ (t.ch c).blks = y.blks ∧
            (t.ch c).stage = (y.stage.filter fun k => !(k.pid = p.pid && k.idx = i)) ∧ OtherChans e t c)) ∧
        (ch.faultedIn s.dev.ev.dt = false → s.dev.panicCheck c = s.dev → i < p.d.len →
          (Claims.Buffered p i → ch.staged p i = none → FaultsAt (.blockCommit c) s s.dev c 3
            (if p.cold = true ∧ p.ring = none ∧ i < p.d.headN then 2 else 1) p.arg.toNat b ch.noIssue) ∧
          (∀ k pc data track, Claims.Buffered p i → ch.staged p i = some k → k.poison = some pc → Claims.BlockLies s.dev c p i data track →
            FaultsAt (.blockCommit c) s (s.dev.touchWords (clu c) (data ++ track)) c 5 0 pc b ch.noIssue) ∧
          (∀ w data track, (∀ k, Claims.Buffered p i → ch.staged p i = some k → k.poison = none) → Claims.BlockLies s.dev c p i data track →
            (wordsOf (data ++ track)).find? (fun r => s.dev.mem.oasis.bad (oasisAt (clu c) r)) = some w →
            FaultsAt (.blockCommit c) s (s.dev.touchWords (clu c) (data ++ track)) c 5 1 w b ch.noIssue))))

/-- From device `e`, command `i` ends a run of channel `c` with a code and leaves the channel as `y`: the record is written, and a
queued GO is taken over or not (R59, R94 to R96). -/
def Sys2Proof.Claims.RunEnds (i : Instr) (s : State) (e : Dev) (c : Fin 32) (code abrt : Nat) (again : Bool) (y : Chan) : Prop :=
  Ends i s fun t =>
    t.get (F.CH_SEQ_STATUS_CODE c) = code ∧ t.get (F.CH_SEQ_STATUS_ABRT c) = abrt ∧ t.get (F.CH_SEQ_IRQ_STATUS_DONE c) = 1 ∧
    t.get ⟨R.CH_SEQ_CTRL c, 0, 6⟩ = bit again ∧ t.ch c = { y with goReq := again } ∧
    OtherChans e t c ∧ RegsBut e t [R.CH_SEQ_STATUS c, R.CH_SEQ_IRQ_STATUS c, R.CH_SEQ_CTRL c] ∧ t.mem = e.mem ∧
    t.reply = e.reply ∧ RestSame { e with rings := t.rings } t

/-- The output parked, nothing of its schedule and its buffers left (R180, R282). -/
def Sys2Proof.Claims.emptied (x : Chan) : Chan :=
  { x with queue := [], dispatched := [], stopB := none, parkAt := none, faultB := none, holds := [], cur := ⟨.park, 0, 0⟩
           nextS := none, blks := [], fetches := [], stage := [], panic := false, recs := [] }

/-- The channel at the end of a run that its output has carried out: IDLE and parked, its event store empty (R94 to R96, R262). -/
def Sys2Proof.Claims.ended (x : Chan) : Chan :=
  { Claims.emptied x with
    held := none, stall := .none, ringWait := 0, stepping := false, breakReq := false, st := .idle, store := [] }

/-- The output where a run begins, or ends before a block of it is committed: the fault holds of runs before it go on, with the actions
dispatched for ticks before their boundaries B (R98, R149); the run's own buffers are empty (R180). -/
def Sys2Proof.Claims.leftHolding (x : Chan) (t : Tick) : Chan :=
  { x with
    parkAt := none, nextS := none, cur := ⟨.park, 0, 0⟩, fetches := [], stage := [], panic := false, faultB := none
    holds := x.holds.filter fun h => before t h.2
    blks := (if x.holds.filter (fun h => before t h.2) = [] then [] else x.blks)
    dispatched := x.dispatched.filter fun a => (x.holds.filter fun h => before t h.2).any fun h => before a.tick h.1 }

/-- STOP_END and DRAIN_END: the output reaches B, or SC, what is due there takes effect (R77), and the run ends ABORTED with ABRT STOP,
or DONE (R95, R96); before that nothing happens. SCHEDULE_DRY (R81): in RUN, with no declared wait and no STOP, SC within 32 ticks of DT faults UNDERRUN 0b000 with the low
word of SC, B being the first block boundary at or after SC; otherwise nothing happens: that the check stands still between a STOP and
its boundary is the model's choice (log entry 46). FAULT_PARK (R98, R180, R262): when the one-block hold has ended, and no other goes on,
the channel parks and its output's buffers are empty; a run begun meanwhile keeps its own schedule. Stated with PARK_ALL at 0, and DRAIN_END with no GO queued. -/
def Obligations.RunsEndAtTheirBoundaryOrDry : Prop :=
  (∀ c s ch e, ch = s.dev.ch c → e = s.dev.takeEffect c → s.dev.flag F.DEV_CTRL_PARK_ALL = false →
     (∀ b, ch.stopB = some b → notAfter b s.dev.ev.dt = true → Claims.RunEnds (.stopEnd c) s e c 3 1 false (Claims.ended (e.ch c))) ∧
     (∀ b, ch.stopB = some b → notAfter b s.dev.ev.dt = false → Becomes (.stopEnd c) s s.dev) ∧
     (ch.stopB = none → Becomes (.stopEnd c) s s.dev) ∧
     (ch.st = .drain → ch.stopB = none → notAfter ch.sc s.dev.ev.dt = true → s.dev.flag (F.CH_SEQ_CTRL_PENDING c) = false →
       Claims.RunEnds (.drainEnd c) s e c 2 (s.dev.get (F.CH_SEQ_STATUS_ABRT c)) false (Claims.ended (e.ch c))) ∧
     (ch.goReq = false → ch.st ≠ .drain ∨ ch.stopB ≠ none ∨ notAfter ch.sc s.dev.ev.dt = false → Becomes (.drainEnd c) s s.dev)) ∧
  (∀ c s ch, ch = s.dev.ch c →
     (ch.st = .run → ch.stopB = none → ch.stall ≠ .event → notAfter (ch.sc - 32) s.dev.ev.dt = true →
       FaultsAt (.scheduleDry c) s s.dev c 3 0 (ch.sc.toNat % 2 ^ 32) (s.dev.boundaryAfter c ch.sc) false) ∧
     (notAfter (ch.sc - 32) s.dev.ev.dt = false → Becomes (.scheduleDry c) s s.dev) ∧
     (ch.stopB ≠ none ∨ ch.stall = .event → Becomes (.scheduleDry c) s s.dev) ∧
     (ch.st ≠ .run → ch.faultedIn s.dev.ev.dt = false → Becomes (.scheduleDry c) s s.dev)) ∧
  (∀ c s ch left b, ch = s.dev.ch c → s.dev.flag F.DEV_CTRL_PARK_ALL = false →
     left = ch.holds.filter (fun h => !notAfter h.2 s.dev.ev.dt) → b = (if notAfter ch.faultEnd s.dev.ev.dt then none else ch.faultB) →
     (left = ch.holds → b = ch.faultB → Becomes (.faultPark c) s s.dev) ∧
     (left ≠ ch.holds ∨ b ≠ ch.faultB →
       (left = [] → b = none → ch.st = .faulted ∨ ch.st = .idle → Becomes (.faultPark c) s (s.dev.setCh c (Claims.emptied ch))) ∧
       (left ≠ [] ∨ b ≠ none ∨ (ch.st ≠ .faulted ∧ ch.st ≠ .idle) → Becomes (.faultPark c) s (s.dev.setCh c { ch with
         holds := left, faultB := b
         blks := ch.blks.filter fun k => !ch.holds.any fun h => notAfter h.2 s.dev.ev.dt && before k.first h.2 }))))

/-! ### Host commands of a channel (R58, R90, R92, R94 to R99, R195, R196, R202) -/

/-- From device `e`, a GO of channel `c` ends at once with a code: the record alone is written, and the channel keeps its
state; a queued GO is taken over (R58, R59, R94). -/
def Sys2Proof.Claims.Completes (i : Instr) (s : State) (e : Dev) (c : Fin 32) (code : Nat) (again : Bool) : Prop :=
  Ends i s fun t =>
    t.get (F.CH_SEQ_STATUS_CODE c) = code ∧ t.get (F.CH_SEQ_STATUS_ABRT c) = 0 ∧ t.get (F.CH_SEQ_IRQ_STATUS_DONE c) = 1 ∧
    t.get ⟨R.CH_SEQ_CTRL c, 0, 6⟩ = bit again ∧ t.ch c = { e.ch c with goReq := again } ∧ OtherChans e t c ∧
    RegsBut e t [R.CH_SEQ_STATUS c, R.CH_SEQ_IRQ_STATUS c, R.CH_SEQ_CTRL c] ∧ t.mem = e.mem ∧ t.reply = e.reply ∧
    RestSame { e with rings := t.rings } t

/-- From device `e`, a run of channel `c` begins and leaves the channel as `y` (R94). Of the rest only the tick from which an unusable
channel is parked changes (R217): at once, or with the fault holds of runs before this one. -/
def Sys2Proof.Claims.Starts (i : Instr) (s : State) (e : Dev) (c : Fin 32) (y : Chan) : Prop :=
  Ends i s fun t =>
    t.get (F.CH_SEQ_STATUS_CODE c) = 1 ∧ t.get (F.CH_SEQ_STATUS_ABRT c) = 0 ∧ t.get (F.CH_SEQ_CTRL_GO c) = 1 ∧
    t.ch c = y ∧ OtherChans e t c ∧ RegsBut e t [R.CH_SEQ_STATUS c, R.CH_SEQ_CTRL c] ∧ t.mem = e.mem ∧ t.reply = e.reply ∧
    t.cals = e.cals.set c { e.cals[c] with
      unusableAt := e.cals[c].unusableAt.map fun u => tmin u (if (e.ch c).holds = [] then e.ev.dt else e.ev.dt + 64) } ∧
    RestSame { e with cals := t.cals } t

/-- A channel at the start of a run (R91, R94, R180, R262): PC at ENTRY; stacks, loop counters, action queue, event store, marker
register and the buffers of the output empty; G registers, oscillators, Ledger and the record copies of Caravan kept (R281); the fault
holds under way go on (`leftHolding`). -/
def Sys2Proof.Claims.fresh (e : Dev) (c : Fin 32) : Chan :=
  { Claims.leftHolding (e.ch c) e.ev.dt with
    held := none, stall := .none, ringWait := 0, stepping := false, breakReq := false, goReq := false, goTick := e.ev.dt
    cutoff := e.ev.dt, store := [], queue := [], loops := [], rets := [], l := Vector.replicate 4 0
    marker := 0, pc := BitVec.ofNat 16 (e.get (F.CH_SEQ_MODE_ENTRY c)), leadPc := BitVec.ofNat 15 (e.get (F.CH_SEQ_MODE_ENTRY c))
    committed := false }

/-- GO (R94, R384, R438, R58): in IDLE and FAULTED it waits while a field of CH.SEQ_MODE or CH.SEQ_START is pending; then in IDLE it
starts the run at DT + 64, at CH.SEQ_START or in ARMED, or ends LATE or REJECTED, and in FAULTED it ends REJECTED; elsewhere it is
queued. `e` is the device with the channel's cluster and chiplet awake (R25). Stated with no IDLE
calibration run on the channel and no array forming, which a starting run ends (R234, R307). EVENT_START (R94, R262): an ARMED
channel that holds its START_EV after the cutoff starts from that event as a WAITEV would: stamp + 64 in lockstep mode (72 when
the event woke its domain), presentation + 33 in fast mode, GO's tick at the earliest. -/
def Obligations.RunsStartByGoOrEvent : Prop :=
  (∀ c s e ch, e = (s.dev.wakeCluster (clu c)).wakeChiplet (chiplet c) → ch = s.dev.ch c →
     (∀ n, (e.cal c).run ≠ some (.idle, n)) → e.linkState ≠ 1 →
     (ch.st = .idle ∨ ch.st = .faulted → (e.waiting (R.CH_SEQ_MODE c) = true ∨ e.waiting (R.CH_SEQ_START c 0) = true ∨ e.waiting (R.CH_SEQ_START c 1) = true) →
       Becomes (.go c) s ((e.set (F.CH_SEQ_CTRL_GO c) 1).setCh c { ch with goReq := true })) ∧
     (ch.st = .idle → e.waiting (R.CH_SEQ_MODE c) = false → e.waiting (R.CH_SEQ_START c 0) = false →
       e.waiting (R.CH_SEQ_START c 1) = false →
       (e.stage < 3 ∨ e.get F.CLK_SPLL_STATUS_BYPASS ≠ 0 ∨ 2 ≤ e.get F.TELEM_THERM_LEVEL ∨
         e.get F.TELEM_SW_RATE_BUSY / 2 ^ chiplet c % 2 = 1 ∨ e.board.jtag.toNat ∈ [0, 4, 5, 6, 7] ∨
         e.get (F.CH_SEQ_MODE_START_MODE c) = 3 →
           Claims.Completes (.go c) s e c 6 (e.flag (F.CH_SEQ_CTRL_PENDING c))) ∧
       (e.goRejected c = false →
         (e.get (F.CH_SEQ_MODE_START_MODE c) = 0 → Claims.Starts (.go c) s e c { Claims.fresh e c with
           st := .run, sc := e.ev.dt + 64, firstSc := e.ev.dt + 64, nextS := some (e.ev.dt + 64) }) ∧
         (∀ t0, e.get (F.CH_SEQ_MODE_START_MODE c) = 1 → t0 = e.get64 (R.CH_SEQ_START c 0) →
           (64 ≤ (t0 - e.ev.dt).toNat → (t0 - e.ev.dt).toNat < 2 ^ 63 → Claims.Starts (.go c) s e c { Claims.fresh e c with
             st := .run, sc := t0, firstSc := t0, nextS := some t0 }) ∧
           ((t0 - e.ev.dt).toNat < 64 ∨ 2 ^ 63 ≤ (t0 - e.ev.dt).toNat →
             Claims.Completes (.go c) s e c 5 (e.flag (F.CH_SEQ_CTRL_PENDING c)))) ∧
         (e.get (F.CH_SEQ_MODE_START_MODE c) = 2 →
           Claims.Starts (.go c) s e c { Claims.fresh e c with st := .armed, nextS := none }))) ∧
     (ch.st = .faulted → e.goHeld c = false → Claims.Completes (.go c) s e c 6 (e.flag (F.CH_SEQ_CTRL_PENDING c))) ∧
     (ch.st ≠ .idle → ch.st ≠ .faulted → Becomes (.go c) s (e.set (F.CH_SEQ_CTRL_PENDING c) 1))) ∧
  (∀ c s ch fast, ch = s.dev.ch c → fast = s.dev.fast c →
     (ch.st ≠ .armed ∨ s.dev.presentsDue c = true → Becomes (.eventStart c) s s.dev) ∧
     (ch.st = .armed → (∀ e ∈ ch.store, e.code.toNat = s.dev.get (F.CH_SEQ_MODE_START_EV c) →
       before ch.cutoff (if fast then e.pres else e.stamp) = false) → Becomes (.eventStart c) s s.dev) ∧
     (∀ e rest sc y, ch.st = .armed → s.dev.presentsDue c = false → ch.store = e :: rest → e.code.toNat = s.dev.get (F.CH_SEQ_MODE_START_EV c) →
       before ch.cutoff (if fast then e.pres else e.stamp) = true →
       (∀ f ∈ rest, f.code.toNat ≠ s.dev.get (F.CH_SEQ_MODE_START_EV c)) →
       sc = tmax ch.goTick (if fast then tmax ch.goTick e.pres + 33 else e.stamp + if e.woke then 72 else 64) →
       y = (if fast then { ch with store := ch.store.filter (fun f => before (tmax ch.goTick e.pres) f.pres)
                                   cutoff := tmax ch.cutoff (tmax ch.goTick e.pres) }
            else { ch with store := ch.store.filter (fun f => before e.stamp f.stamp), cutoff := tmax ch.cutoff e.stamp }) →
       Becomes (.eventStart c) s (s.dev.setCh c { y with
         st := .run, sc := sc, firstSc := sc, nextS := some sc, committed := false })))

/-- The present tick has no fault for channel `c` of device `d` whatever its sequencer does: no ring wait has reached its limit, the
output does not fault, the schedule is not dry (R81, R99, R143). -/
def Sys2Proof.Claims.Calm (d : Dev) (c : Fin 32) : Prop :=
  (∀ q, d.starved c = some q → (d.ch c).ringWait < d.get (F.CH_SEQ_RING_TMO_TMO c)) ∧ d.outputFaults c = false ∧
  ((d.ch c).st = .run → d.dry c = false)

/-- STOP (R96): too late without a run, discarding a queued GO (R60); at once in ARMED or before the first committed block; else at B, the first block
boundary at or after DT + 32, which cuts the queue and parks there; a DRAIN that ends first is left to end, by the model's choice (log
entry 33). BREAK, RESUME, STEP (R97): BREAK halts at once, or at the next boundary of an instruction that waits on a decision, an event
or a ring: which waits it cuts short is the model's choice (log entry 46); RESUME and STEP re-base SC to DT + 64 at the
earliest. FAULT_CLEAR (R99) clears the record. A fault of the tick comes before a STOP or BREAK of it (R99, log entry 46). `w` is the
device with the channel's cluster awake (R25). -/
def Obligations.RunControlStopsHaltsAndResumes : Prop :=
  ∀ c s w ch e b, w = s.dev.wakeCluster (clu c) → ch = s.dev.ch c → e = w.set (F.CH_SEQ_CTRL_PENDING c) 0 →
    b = e.boundaryAfter c (s.dev.ev.dt + 32) →
    (ch.st = .idle ∨ ch.st = .faulted → ch.faultedIn s.dev.ev.dt = false → Becomes (.stop c) s (e.set (F.CH_SEQ_STATUS_ABRT c) 2)) ∧
    (ch.st ≠ .idle → ch.st ≠ .faulted → ch.stopB ≠ none → Becomes (.stop c) s w) ∧
    (ch.st ≠ .idle → ch.st ≠ .faulted → ch.stopB = none →
      (¬ Claims.Calm w c → Ends (.stop c) s fun t => (t.ch c).st = .faulted ∧ (t.ch c).stopB = none ∧
        t.get (F.CH_SEQ_STATUS_CODE c) = 4 ∧ t.get (F.CH_SEQ_STATUS_ABRT c) = 2 ∧ t.get (F.CH_SEQ_CTRL_PENDING c) = 0 ∧ OtherChans w t c) ∧
      (Claims.Calm w c → ch.st = .armed ∨ (ch.committed = false ∧ ch.st ≠ .drain) → Claims.RunEnds (.stop c) s e c 3 1 false
        { Claims.leftHolding ch s.dev.ev.dt with
          held := none, stall := .none, ringWait := 0, stepping := false, breakReq := false
          st := .idle, queue := [], stopB := none, recs := [], store := [] }) ∧
      (Claims.Calm w c → ch.st = .drain → before ch.sc b = true →
        Becomes (.stop c) s ((e.set (F.CH_SEQ_CTRL_STOP c) 1).set (F.CH_SEQ_STATUS_ABRT c) 2)) ∧
      (Claims.Calm w c → ch.st ≠ .armed → (ch.committed = true ∨ ch.st = .drain) → (ch.st = .drain → before ch.sc b = false) →
        Becomes (.stop c) s ((e.set (F.CH_SEQ_CTRL_STOP c) 1).setCh c { ch with
          held := none, stall := .none, ringWait := 0, stepping := false, breakReq := false
          stopB := some b, parkAt := some b, queue := ch.queue.filter fun a => before a.tick b }))) ∧
    (ch.st ≠ .run ∨ ch.stopB ≠ none → Becomes (.brk c) s w) ∧
    (ch.st = .run → ch.stopB = none →
      (¬ Claims.Calm w c → Ends (.brk c) s fun t =>
        (t.ch c).st = .faulted ∧ t.get (F.CH_SEQ_STATUS_CODE c) = 4 ∧ t.get (F.CH_SEQ_IRQ_STATUS_BREAK c) = w.get (F.CH_SEQ_IRQ_STATUS_BREAK c) ∧
        OtherChans w t c) ∧
      (Claims.Calm w c → (ch.stall = .decision ∨ ch.stall = .event ∨ ch.stall = .ring) →
        Becomes (.brk c) s ((w.set (F.CH_SEQ_CTRL_BREAK c) 1).setCh c { ch with breakReq := true })) ∧
      (Claims.Calm w c → ch.stall ≠ .decision → ch.stall ≠ .event → ch.stall ≠ .ring →
        Becomes (.brk c) s (((w.setCh c { ch with
          st := .halted, held := none, stall := .none, ringWait := 0, stepping := false, breakReq := false }).set
          (F.CH_SEQ_CTRL_BREAK c) 0).set (F.CH_SEQ_IRQ_STATUS_BREAK c) 1))) ∧
    (ch.st ≠ .halted ∨ ch.stopB ≠ none → Becomes (.resume c) s w ∧ Becomes (.step c) s w) ∧
    (∀ x r, x = { ch with sc := tmax ch.sc (s.dev.ev.dt + 64) } → r = w.get (F.CH_SEQ_STATUS_REBASE c) + 1 →
      ch.st = .halted → ch.stopB = none →
      (ch.pc ≠ 32768 → Becomes (.resume c) s (((w.set (F.CH_SEQ_STATUS_REBASE c) r).setCh c
        { x with st := .run, stepping := false }).set (F.CH_SEQ_CTRL_STEP c) 0)) ∧
      (ch.pc = 32768 → Ends (.resume c) s fun t => (t.ch c).st = .faulted ∧ t.get (F.CH_SEQ_STATUS_CODE c) = 4 ∧ OtherChans w t c) ∧
      (ch.stepping = true → Becomes (.step c) s w) ∧
      (ch.stepping = false → Becomes (.step c) s ((((w.set (F.CH_SEQ_STATUS_REBASE c) r).setCh c
        { x with stepping := true }).set (F.CH_SEQ_CTRL_STEP c) 1).issueNext c))) ∧
    Becomes (.faultClear c) s ((w.wr (R.CH_SEQ_FAULT c) 0).setCh c (if ch.st = .faulted then { ch with st := .idle } else ch))

/-- The registers that a Ledger command writes. -/
def Sys2Proof.Claims.ledgerRegs (c : Fin 32) : List Nat :=
  [R.CH_LEDGER_CMD c, R.CH_LEDGER_STATUS c, R.CH_LEDGER_RD c 0 0, R.CH_LEDGER_RD c 0 1, R.CH_LEDGER_RD c 1 0,
   R.CH_LEDGER_RD c 1 1, R.CH_LEDGER_RD c 2 0, R.CH_LEDGER_RD c 2 1, R.CH_LEDGER_RD c 3 0, R.CH_LEDGER_RD c 3 1]

/-- A Ledger command ends REJECTED. -/
def Sys2Proof.Claims.ledgerRejected (d : Dev) (c : Fin 32) (reason : Nat) : Dev :=
  ((d.set (F.CH_LEDGER_STATUS_CODE c) 6).set (F.CH_LEDGER_STATUS_ABRT c) 0).set (F.CH_LEDGER_STATUS_REASON c) reason

/-- The host may write oscillators and Ledger slots (R195): in IDLE, in FAULTED once the fault hold has ended, and in HALTED with an
empty queue, no STEP and SC passed. -/
def Sys2Proof.Claims.NcoOpen (x : Chan) (dt : Tick) : Prop :=
  x.st = .idle ∨ (x.st = .faulted ∧ x.faultB = none ∧ x.holds = []) ∨
  (x.st = .halted ∧ x.queue = [] ∧ x.stepping = false ∧ before x.sc dt = true)

/-- Host writes of a channel's G registers, oscillators, Ledger slots and FIR coefficients are taken while the channel's state
allows them, and are otherwise dropped with WR_DENIED, REJECTED or FIR_DENIED (R90, R195, R196, R202): a coefficient write to a busy
channel needs a bank that is neither in force nor named by a pending BANK value. A Ledger write that the state forbids and whose staged
value is too wide ends with REASON 1 by the model's choice (log entry 46). `d` is the device with the channel's cluster awake (R25). -/
def Obligations.HostWritesOfAChannelNeedItsState : Prop :=
  ∀ c s ch d, ch = s.dev.ch c → d = s.dev.wakeCluster (clu c) →
    (∀ i be v, (ch.st = .idle ∨ ch.st = .faulted ∨ (ch.st = .halted ∧ ch.stepping = false) →
        Becomes (.gWrite c i be v) s (d.setCh c { ch with g := ch.g.set i (mergeBytes ch.g[i] be v) })) ∧
      (ch.st = .armed ∨ ch.st = .run ∨ ch.st = .drain ∨ (ch.st = .halted ∧ ch.stepping = true) →
        Becomes (.gWrite c i be v) s (d.set (F.CH_SEQ_STATUS_WR_DENIED c) 1))) ∧
    (∀ (r : Fin 9) be v, ¬ Claims.NcoOpen ch s.dev.ev.dt →
      Becomes (.ncoWrite c r be v) s (d.set (F.CH_SEQ_STATUS_WR_DENIED c) 1)) ∧
    (∀ be v w, Claims.NcoOpen ch s.dev.ev.dt → w = mergeBytes (BitVec.ofNat 32 (ch.mixEna.toNat + 256 * bit ch.baseband)) be v →
      Becomes (.ncoWrite c 0 be v) s (d.setCh c { ch with mixEna := w.setWidth 8, baseband := w.getLsbD 8 })) ∧
    (∀ (n : Fin 8) (r : Fin 9) be v w, Claims.NcoOpen ch s.dev.ev.dt → r.val = n.val + 1 →
      w = mergeBytes (BitVec.ofNat 32 (ch.osc[n].slot.toNat + 256 * ch.osc[n].amp.toNat)) be v →
      Becomes (.ncoWrite c r be v) s
        (d.setCh c { ch with osc := ch.osc.set n ⟨w.setWidth 8, (w >>> 8).setWidth 16⟩ })) ∧
    (∀ (l : BitVec 8) andRead ftw phi t0 f, ftw = s.dev.get64 (R.CH_LEDGER_STG_FTW c 0) →
      phi = s.dev.get64 (R.CH_LEDGER_STG_PHI c 0) → t0 = s.dev.get64 (R.CH_LEDGER_STG_T0 c 0) →
      f = d.set (F.CH_LEDGER_CMD_SLOT c) l.toNat →
      (¬ Claims.NcoOpen ch s.dev.ev.dt → Becomes (.ledgerWr c l andRead) s (Claims.ledgerRejected f c 1)) ∧
      (Claims.NcoOpen ch s.dev.ev.dt → (2 ^ 48 ≤ ftw.toNat ∨ 2 ^ 48 ≤ phi.toNat) →
        Becomes (.ledgerWr c l andRead) s (Claims.ledgerRejected f c 2)) ∧
      (Claims.NcoOpen ch s.dev.ev.dt → ftw.toNat < 2 ^ 48 → phi.toNat < 2 ^ 48 → Ends (.ledgerWr c l andRead) s fun t =>
        (t.ch c).slot l = ⟨ftw.setWidth 48, phi.setWidth 48, t0⟩ ∧ (∀ k, k ≠ l → (t.ch c).slot k = ch.slot k) ∧
        t.ch c = { ch with ledger := (t.ch c).ledger } ∧ OtherChans d t c ∧
        t.get (F.CH_LEDGER_STATUS_CODE c) = 2 ∧ t.get (F.CH_LEDGER_STATUS_REASON c) = 0 ∧
        (andRead = true → t.get64 (R.CH_LEDGER_RD c 0 0) = (ftw.setWidth 48 : BitVec 48).setWidth 64 ∧
          t.get64 (R.CH_LEDGER_RD c 1 0) = (phi.setWidth 48 : BitVec 48).setWidth 64 ∧
          t.get64 (R.CH_LEDGER_RD c 2 0) = t0 ∧ t.get64 (R.CH_LEDGER_RD c 3 0) = s.dev.ev.dt) ∧
        RegsBut d t (Claims.ledgerRegs c) ∧ t.mem = s.dev.mem ∧ t.reply = s.dev.reply ∧ RestSame d t)) ∧
    (∀ (l : BitVec 8), Ends (.ledgerRd c l) s fun t =>
        t.get64 (R.CH_LEDGER_RD c 0 0) = (ch.slot l).ftw.setWidth 64 ∧
        t.get64 (R.CH_LEDGER_RD c 1 0) = (ch.slot l).phi.setWidth 64 ∧
        t.get64 (R.CH_LEDGER_RD c 2 0) = (ch.slot l).t0 ∧ t.get64 (R.CH_LEDGER_RD c 3 0) = s.dev.ev.dt ∧
        t.get (F.CH_LEDGER_STATUS_CODE c) = 2 ∧ AllChans d t ∧ RegsBut d t (Claims.ledgerRegs c) ∧
        t.mem = s.dev.mem ∧ t.reply = s.dev.reply ∧ RestSame d t) ∧
    (∀ bank i be v, (ch.st = .idle ∨ ch.st = .faulted ∨ (s.dev.get (F.CH_FIR_CTRL_BANK c) ≠ bank.val ∧
        ∀ p ∈ s.dev.pend, p.addr = R.CH_FIR_CTRL c → p.mask.getLsbD 0 = true → (if p.val.getLsbD 0 then 1 else 0) ≠ bank.val) →
        Becomes (.firCoefWrite c bank i be v) s
          (d.wr (R.CH_FIR_COEF c bank i) (mergeBytes (d.rd (R.CH_FIR_COEF c bank i)) be v &&& 0xFFFF))) ∧
      (ch.st ≠ .idle → ch.st ≠ .faulted → s.dev.get (F.CH_FIR_CTRL_BANK c) = bank.val ∨
        (∃ p ∈ s.dev.pend, p.addr = R.CH_FIR_CTRL c ∧ p.mask.getLsbD 0 = true ∧ (if p.val.getLsbD 0 then 1 else 0) = bank.val) →
        Becomes (.firCoefWrite c bank i be v) s (d.set (F.CH_DP_STATUS_FIR_DENIED c) 1)))

/-! ### The register interface (R42 to R63) -/

/-- Registers whose write starts something of its own, or that stand outside the register bank. -/
def Sys2Proof.Claims.ownEffect : List Nat :=
  [R.DEV_CTRL, R.DEV_ERR_STATUS, R.DEV_RST, R.DEV_RST_CH, R.DEV_MSIX_REARM 0, R.CLK_SPLL_CTRL, R.CLK_SYNC_CFG, R.CLK_CMD,
   R.ABACUS_CTRL, R.EVT_CTRL, R.EVT_HOST_EV, R.SEC_CMD, R.MGMT_CMD, R.TELEM_PWR_CL, R.MEM_QOS 0, R.LINK_CMD, R.LINK_HOST_EV,
   R.MEM_FENCE, R.MEM_MAP_CTRL, R.MEM_TRAIN_CMD, R.MEM_IRQ_STATUS, R.CARAVAN_CMD, R.CARAVAN_IRQ_STATUS, R.CL_FILL_CTRL 0,
   R.CL_STAGE_CTRL 0 0, R.CL_SIR_CTRL 0, R.CL_SIR_STATUS 0, R.CH_SEQ_CTRL 0, R.CH_SEQ_FAULT 0, R.CH_LEDGER_CMD 0, R.CH_CAL_CTRL 0, R.CH_CAL_ABORT 0, R.SEC_DBG_CTRL,
   R.CL_TGT_CFG 0 0 0, R.CH_SEQ_G 0 0, R.CH_NCO_MIX 0, R.CH_NCO_OSC 0 0, R.CH_FIR_COEF 0 0 0]

/-- A host write reaches the one register `card` at `a`: a dword address outside the windows and the alias and apply-pending
ranges, with the link up in D0 and some byte enabled (R42 to R45, R385, R401). -/
def Sys2Proof.Claims.Reaches (s : State) (a : Nat) (be : BitVec 4) (card : Card) (ix : List Nat) : Prop :=
  s.dev.hostReach = true ∧ be ≠ 0 ∧ cardAt a = some (card, ix) ∧ a % 4 = 0 ∧ windowOf a = none ∧ aliasOf a = none ∧
  ¬(0x8000000 ≤ a ∧ a < 0xC000000)

/-- REGISTER_WRITE by access class (R48, R50, R51), for a register that is no pair and starts nothing of its own: in the enabled
bytes an RO, CMD, W1S or LOCK field keeps its bits, W1C bits clear where written 1, an RW or RWH field with the IMM apply point
takes the value and one with another apply point holds it pending, a value that R51 names is ignored; no other register changes.
`e` is the device with the register's block awake. -/
def Obligations.RegisterWritesFollowTheirClasses : Prop :=
  ∀ a be v last s card ix e (f : FieldSpec) m g new, Claims.Reaches s a be card ix → card.base ∉ Claims.ownEffect → pairOf card ix a = none →
    e = s.dev.wakeFor a → f ∈ card.writeFields → m = byteMask be → g = (⟨a, f.lo, f.len⟩ : Fld) →
    new = g.read ((e.rd a &&& ~~~m) ||| (v &&& m)) → e.pend = [] →
    Ends (.registerWrite a be v false [] last) s fun t =>
      (f.cls = .ro ∨ f.cls = .cmd ∨ f.cls = .w1s ∨ f.cls = .lock → t.get g = e.get g) ∧
      (f.cls = .w1c → t.get g = g.read (e.rd a &&& ~~~(v &&& m))) ∧
      (f.cls = .rw ∨ f.cls = .rwh →
        (ignoredValue card.base ix f.lo new = true → t.get g = e.get g) ∧
        (ignoredValue card.base ix f.lo new = false → f.ap = .imm → t.get g = new) ∧
        (ignoredValue card.base ix f.lo new = false → f.ap ≠ .imm → g.mask &&& m ≠ 0 →
          t.get g = e.get g ∧ ∃ p ∈ t.pend, p.addr = a ∧ p.mask = g.mask ∧ g.read p.val = new ∧ p.ap = f.ap ∧ p.acc = e.ev.elapsed)) ∧
      RegsBut e t [a] ∧ AllChans e t ∧ t.mem = e.mem ∧ t.reply = e.reply ∧ RestSame { e with pend := t.pend } t

/-- The device with an access error (R72): its DEV.ERR_STATUS bit, and its address while DEV.ERR_ADDR holds none. -/
def Sys2Proof.Claims.withError (d : Dev) (kind a : Nat) : Dev :=
  if (d.set ⟨R.DEV_ERR_STATUS, kind, 1⟩ 1).get F.DEV_ERR_ADDR_VALID = 0 then
    (d.set ⟨R.DEV_ERR_STATUS, kind, 1⟩ 1).wr R.DEV_ERR_ADDR (BitVec.ofNat 32 (a % 2 ^ 28 + kind * 2 ^ 28 + 2 ^ 31))
  else d.set ⟨R.DEV_ERR_STATUS, kind, 1⟩ 1

/-- ALIAS_WRITE (R54 to R56): bit 0 written through an alias address writes the one bit of its register, as a write of that bit
alone: a bit of an RW or RWH field with the IMM apply point takes it, a W1C bit written 1 clears, every other bit and register
stays; any command bit starts its command (`writeReg` with the one bit). Host writes that reach no register (R42 to R45, R53 to
R56, R61, R62, R401): without the link nothing happens; a misaligned address is error 3, also where it is reserved or in the
apply-pending range, and a dword that is reserved error 1 at the dword's address (both log entry 19, DESIGN CHOICE), a LOCK bit
through the alias window error 2; writes of the apply-pending range and of an alias of an RO bit are dropped; two aligned whole dwords
are two writes, lower address first, and a longer, shorter or misaligned access of more than one dword is error 3. SEC.DBG_CTRL is
error 0 where its value is fixed, and where lifecycle 1 or 3 admits no 1 in it (R425), and else takes the value and is locked.
ALIAS_WRITE, LOCK_WRITE and PAIR_COMMIT are rows of their own addresses only. -/
def Obligations.AccessesWithoutARegisterAreRefused : Prop :=
  (∀ a v s r b card ix e one, s.dev.hostReach = true → windowOf a = none → a % 4 = 0 → a < 0x8000000 → aliasOf a = some (r, b) →
    cardAt r = some (card, ix) → card.bitsOf (· = .lock) &&& BitVec.twoPow 32 b = 0 → card.bitsOf (· = .ro) &&& BitVec.twoPow 32 b = 0 →
    e = s.dev.wakeFor r → one = (BitVec.twoPow 32 b : W32) →
    (∃ w : W32, w.getLsbD b = v.getLsbD 0 ∧ exec (.aliasWrite a v) s = done s (e.writeReg card ix r 0xF one w)) ∧
    (∀ f : FieldSpec, card.base ∉ Claims.ownEffect → pairOf card ix r = none → f ∈ card.writeFields → f.lo ≤ b → b < f.lo + f.len →
      b < 32 → e.pend = [] →
      (((f.cls = .rw ∨ f.cls = .rwh) ∧ f.ap = .imm ∧
          (∀ n, ignoredValue card.base ix f.lo n = false)) → Ends (.aliasWrite a v) s fun t =>
        (∀ i, i < 32 → (t.rd r).getLsbD i = if i = b then v.getLsbD 0 else (e.rd r).getLsbD i) ∧
        RegsBut e t [r] ∧ AllChans e t ∧ t.mem = e.mem ∧ t.reply = e.reply ∧ RestSame e t) ∧
      (f.cls = .w1c → Ends (.aliasWrite a v) s fun t =>
        (∀ i, i < 32 → (t.rd r).getLsbD i = if i = b then !v.getLsbD 0 && (e.rd r).getLsbD i else (e.rd r).getLsbD i) ∧
        RegsBut e t [r] ∧ AllChans e t ∧ t.mem = e.mem ∧ t.reply = e.reply ∧ RestSame e t))) ∧
  (∀ a be v last s, s.dev.hostReach = false ∨ be = 0 → Becomes (.registerWrite a be v false [] last) s s.dev) ∧
  (∀ a be v last s, s.dev.hostReach = true → be ≠ 0 → windowOf a = none →
    (a % 4 ≠ 0 → Becomes (.registerWrite a be v false [] last) s (Claims.withError s.dev 3 a)) ∧
    (a % 4 = 0 → 0x8000000 ≤ a → a < 0xC000000 → Becomes (.registerWrite a be v false [] last) s s.dev) ∧
    (a % 4 = 0 → a < 0x8000000 ∨ 0xC000000 ≤ a → aliasOf a = none → cardAt a = none →
      Becomes (.registerWrite a be v false [] last) s (Claims.withError s.dev 1 a))) ∧
  (∀ a be v last w more s, windowOf a = none →
    (a % 8 = 0 → exec (.registerWrite a 0xF v false [w]) s = done s ((s.dev.hostWrite a 0xF v).hostWrite (a + 4) 0xF w)) ∧
    (s.dev.hostReach = true → more ≠ [] ∨ a % 8 ≠ 0 ∨ be ≠ 0xF ∨ last ≠ 0xF →
      Becomes (.registerWrite a be v false (w :: more) last) s (Claims.withError s.dev 3 a))) ∧
  (∀ a v s, aliasOf a = none → Becomes (.aliasWrite a v) s s.dev) ∧
  (∀ a v s r b, s.dev.hostReach = true → windowOf a = none → a % 4 = 0 → a < 0x8000000 → aliasOf a = some (r, b) →
    (cardAt r = none → Becomes (.aliasWrite a v) s (Claims.withError s.dev 1 a)) ∧
    (∀ card ix, cardAt r = some (card, ix) → card.bitsOf (· = .lock) &&& BitVec.twoPow 32 b ≠ 0 →
      Becomes (.aliasWrite a v) s (Claims.withError s.dev 2 a)) ∧
    (∀ card ix, cardAt r = some (card, ix) → card.bitsOf (· = .lock) &&& BitVec.twoPow 32 b = 0 →
      card.bitsOf (· = .ro) &&& BitVec.twoPow 32 b ≠ 0 → Becomes (.aliasWrite a v) s (s.dev.wakeFor r))) ∧
  (∀ a be v s, a ≠ R.SEC_DBG_CTRL → Becomes (.lockWrite a be v) s s.dev) ∧
  (∀ be v s, exec (.lockWrite R.SEC_DBG_CTRL be v) s = exec (.dbgCtrlWrite be v) s) ∧
  (∀ be v s, s.dev.hostReach = false ∨ be = 0 → Becomes (.dbgCtrlWrite be v) s s.dev) ∧
  (∀ be v s w, s.dev.hostReach = true → be ≠ 0 → w = mergeBytes 0 be v &&& 7 →
    (s.dev.debugFixed = true ∨ ((s.dev.lifecycle = 1 ∨ s.dev.lifecycle = 3) ∧ w ≠ 0) →
      Becomes (.dbgCtrlWrite be v) s (Claims.withError s.dev 0 R.SEC_DBG_CTRL)) ∧
    (s.dev.debugFixed = false → ((s.dev.lifecycle ≠ 1 ∧ s.dev.lifecycle ≠ 3) ∨ w = 0) →
      Becomes (.dbgCtrlWrite be v) s { s.dev.wr R.SEC_DBG_CTRL w with locked := s.dev.locked ++ [R.SEC_DBG_CTRL] })) ∧
  (∀ a be v s, isPairHi a = false → Becomes (.pairCommit a be v) s s.dev)

/-- The apply point of the held value `p` has come (R50), a full tick after its write: TICK at any boundary; IDLE with its unit idle: the
link OFF, the timer stopped, the channel IDLE, or for most CH registers IDLE or FAULTED; BLOCK and SEG with the first tick of the block
that fixed it, or with nothing playing. The profile, the rates and the DAC range have rows of their own (R70, R219, R334, R441). -/
def Sys2Proof.Claims.Reached (d : Dev) (p : PendW) : Prop :=
  let x := d.ch (channelOf p.addr)
  (p.addr ≠ R.DEV_PROFILE ∧ p.addr ≠ R.MEM_FREQ_CTRL ∧ p.addr ≠ R.TELEM_SW_RATE ∧ (p.addr = R.CH_DAC_CTRL (channelOf p.addr) → p.mask ≠ 3)) ∧
  match p.ap with
  | .imm | .tick => p.acc + 2 ≤ d.ev.elapsed
  | .idle => p.acc + 2 ≤ d.ev.elapsed ∧
      if p.addr = R.LINK_CFG then d.get F.LINK_STATUS_STATE = 0
      else if p.addr < 0x40000 then d.get (F.EVT_TMR_STAT_RUNNING ((p.addr - 0x30300) / 0x20)) = 0
      else x.st = .idle ∨ (x.st = .faulted ∧ 0x2000000 ≤ p.addr ∧ p.addr ≠ R.CH_DP_MDLY (channelOf p.addr) ∧ p.addr ≠ R.CH_DAC_CTRL (channelOf p.addr))
  | .block | .seg => (x.nextS = none ∧ x.blks = [] ∧ (p.due = none → p.acc + 2 ≤ d.ev.elapsed)) ∨ ∃ t, p.due = some t ∧ notAfter t d.ev.dt = true

/-- Field `f` holds `v` pending until its IDLE point. -/
def Sys2Proof.Claims.AwaitsIdle (t : Dev) (f : Fld) (v : Nat) : Prop :=
  ∃ q ∈ t.pend, q.addr = f.addr ∧ q.mask = f.mask ∧ f.read q.val = v ∧ q.ap = .idle ∧ q.acc = t.ev.elapsed

/-- A register pair (R63): a write of LO is staged, and a write of HI commits both halves together, to the register or to their
apply point. `low` is the staged LO, or LO as it stands. Stated of whole-dword writes with nothing pending. APPLY_POINT (R50 to
R52) for one held value: it takes force where its kind of point has come, a tick boundary being also the IDLE point of what is idle,
and stays held elsewhere; DEV.PROFILE follows an event mode (R30); a stage setting that would make areas of an Oasis overlap is dropped
(R164). PROFILE_APPLY (R70): a written profile takes every switch in one row, once every channel is idle (R28, R441): the rates of
chiplets that change none now, rotation, event mode, QoS and idle clocks at once, the HBM rate and the others at their IDLE points. -/
def Obligations.WritesWaitForTheirPairAndPoint : Prop :=
  (∀ a v s card ix fm e lo hi, Claims.Reaches s a 0xF card ix → e = s.dev.wakeFor a →
     fm = card.bitsOf (fun c => c = .rw || c = .rwh) → pairOf card ix a = some (lo, hi) →
     (hi = false → Becomes (.registerWrite a 0xF v false []) s
       { e with staged := e.staged.filter (·.1 ≠ lo) ++ [(lo, v &&& fm)] }) ∧
     (∀ low d, hi = true → a = lo + 4 → d = { e with staged := e.staged.filter (·.1 ≠ lo) } →
       low = (match e.staged.find? (·.1 = lo) with | some p => p.2 | none => e.rd lo) →
       ((card.fields.headD ⟨0, 0, .ro, .imm, 0⟩).ap = .imm →
         Becomes (.pairCommit a 0xF v) s ((d.wr lo low).wr (lo + 4) (v &&& fm))) ∧
       (∀ p, (card.fields.headD ⟨0, 0, .ro, .imm, 0⟩).ap = p → p ≠ .imm → e.pend = [] →
         Becomes (.pairCommit a 0xF v) s { d with
           pend := [⟨lo, 0xFFFFFFFF, low, p, e.ev.elapsed, none⟩, ⟨lo + 4, 0xFFFFFFFF, v &&& fm, p, e.ev.elapsed, none⟩] }))) ∧
  ((∀ pt block s p, s.dev.pend = [p] → (∀ c, (s.dev.ch c).goReq = false) →
     ((p.ap ≠ pt ∧ (pt ≠ .tick ∨ p.ap ≠ .idle)) ∨ unitOf p.addr ≠ block ∨ ¬Claims.Reached s.dev p → Becomes (.applyPoint pt block) s s.dev) ∧
     (∀ e, p.ap = pt ∨ (pt = .tick ∧ p.ap = .idle) → unitOf p.addr = block → Claims.Reached s.dev p →
       e = { s.dev with pend := [] }.wr p.addr ((s.dev.rd p.addr &&& ~~~p.mask) ||| (p.val &&& p.mask)) →
       (p.timer = none → (∀ k j, k < 8 → j < 4 → p.addr ≠ R.CL_STAGE_CTRL k j) →
         (p.addr = R.CH_DAC_CTRL (channelOf p.addr) → p.mask ≠ 8) → p.addr ≠ R.CH_SEQ_MODE (channelOf p.addr) →
         Becomes (.applyPoint pt block) s e) ∧
       (p.addr = R.CH_SEQ_MODE (channelOf p.addr) → Becomes (.applyPoint pt block) s (e.set F.DEV_PROFILE_PROFILE e.profile)) ∧
       (∀ (k : Fin 8) j, j < 4 → p.addr = R.CL_STAGE_CTRL k j → areasClash (e.areas k) = true →
         Becomes (.applyPoint pt block) s ({ s.dev with pend := [] }.set (F.CL_IRQ_STATUS_AREA_CONFLICT k) 1)))) ∧
   (∀ s, s.dev.pendingOf F.DEV_PROFILE_PROFILE = none → Becomes .profileApply s s.dev) ∧
   (∀ s p acc, s.dev.pendingOf F.DEV_PROFILE_PROFILE = some (p, acc) →
     ((∃ c, (s.dev.ch c).st ≠ .idle) ∨ s.dev.ev.elapsed < acc + 2 → Becomes .profileApply s s.dev) ∧
     ((∀ c, (s.dev.ch c).st = .idle) → acc + 2 ≤ s.dev.ev.elapsed → p < 3 → Ends .profileApply s fun t =>
       t = ((s.dev.dropPending F.DEV_PROFILE_PROFILE).takeProfile p).follow ∧
       (∀ n : Fin 4, (s.dev.get (rateBusy n) = 0 → t.get (rateFld n) = p) ∧ (s.dev.get (rateBusy n) = 1 → Claims.AwaitsIdle t (rateFld n) p)) ∧
       Claims.AwaitsIdle t F.MEM_FREQ_CTRL_RATE p ∧
       (∀ c : Fin 32, t.get (F.CH_DAC_CTRL_ROT c) = 1 ∧ t.get (F.CH_SEQ_MODE_EVMODE c) = 0) ∧
       t.get (F.MEM_QOS_SCHEME 0) = 1 ∧ (∀ m, 0 < m → m < 6 → t.get (F.MEM_QOS_SCHEME m) = 0) ∧
       t.get F.TELEM_PWR_CL_GATED = (if p = 2 then 0xFF else 0))))

/-! ### Snapshots, resets, messages (R64 to R69, R96, R388, R389, R404) -/

/-- A GO of ABACUS.CTRL taken, with the target `t0` (R65 to R67). -/
def Sys2Proof.Claims.snapTaken (d : Dev) (t0 : Tick) : Dev :=
  let pcs := (List.range 128).filter fun p => d.get (F.MEM_PC_STAT_STATE p) < 2
  let ports := [Port.e, Port.w].filter d.portUp
  let e := (d.set F.ABACUS_DONE_ALL 0).set F.ABACUS_STATUS_ABRT 0
  { ((((e.set F.ABACUS_STATUS_CODE 1).set F.ABACUS_CTRL_GO 1).set F.ABACUS_DONE_UNITS
      (108 + pcs.length + 2 * ports.length)).set F.ABACUS_DONE_COPIED 0).wakeUnits with snap := some ⟨t0, pcs, ports, false⟩ }

/-- Abacus (R65 to R69): GO takes a target at least 32 ticks ahead, or ends LATE, or REJECTED while DT stands; a second GO is
queued. ABORT ends a snapshot whose target is still 32 ticks ahead, and is TOO_LATE otherwise. At the target every participating
unit copies; then the snapshot is DONE, and a queued GO is taken. -/
def Obligations.SnapshotsCopyAtTheirTarget : Prop :=
  (∀ s t0, s.dev.snap = none → s.dev.ev.counting = true → t0 = s.dev.get64 R.ABACUS_TIME_LO →
    32 ≤ (t0 - s.dev.ev.dt).toNat → (t0 - s.dev.ev.dt).toNat < 2 ^ 63 →
    exec .abacusGo s = .next { s with dev := (Claims.snapTaken s.dev t0).follow }) ∧
  (∀ s x, s.dev.snap = some x → x.copied = false → 32 ≤ (x.target - s.dev.ev.dt).toNat → (x.target - s.dev.ev.dt).toNat < 2 ^ 63 →
    exec .abacusAbort s = .next { s with dev := Dev.follow (
      { (((s.dev.set F.ABACUS_CTRL_PENDING 0).set F.ABACUS_STATUS_ABRT 1).set F.ABACUS_STATUS_CODE 3).set F.ABACUS_CTRL_GO 0 with snap := none } : Dev) }) ∧
  (∀ s x, s.dev.snap = some x → x.copied = false → s.dev.ev.counting = true → notAfter x.target s.dev.ev.dt = true →
    ∃ t, exec .abacusCopy s = .next { s with dev := t } ∧
      t.snap = some { x with copied := true } ∧ t.get F.ABACUS_DONE_COPIED = s.dev.get F.ABACUS_DONE_UNITS ∧
      (∀ i, i < 16 → t.rd (R.EVT_TRIG_SNAP i) = s.dev.rd (R.EVT_TRIG_CNT i)) ∧
      (∀ m, m < 4 → t.get64 (R.EVT_SNAP m 0) = s.dev.get64 (R.EVT_CNT m 0)) ∧
      AllChans s.dev t ∧ t.mem = s.dev.mem ∧ t.reply = s.dev.reply ∧ RestSame { s.dev with snap := t.snap } t) ∧
  (∀ s x d, s.dev.snap = some x → x.copied = true →
    d = ({ ((s.dev.set F.ABACUS_DONE_ALL 1).set F.ABACUS_STATUS_CODE 2).set F.ABACUS_CTRL_GO 0 with snap := none } : Dev) →
    (s.dev.flag F.ABACUS_CTRL_PENDING = false → exec .abacusDone s = .next { s with dev := d.follow }) ∧
    (s.dev.flag F.ABACUS_CTRL_PENDING = true → exec .abacusDone s = .next { s with dev := ((d.set F.ABACUS_CTRL_PENDING 0).startSnap).follow })) ∧
  (∀ s t0 e, t0 = s.dev.get64 R.ABACUS_TIME_LO → e = (s.dev.set F.ABACUS_DONE_ALL 0).set F.ABACUS_STATUS_ABRT 0 →
    (s.dev.snap ≠ none → Becomes .abacusGo s (s.dev.set F.ABACUS_CTRL_PENDING 1)) ∧
    (s.dev.snap = none → s.dev.ev.counting = false → Becomes .abacusGo s ((e.set F.ABACUS_STATUS_CODE 6).set F.ABACUS_CTRL_GO 0)) ∧
    (s.dev.snap = none → s.dev.ev.counting = true → ((t0 - s.dev.ev.dt).toNat < 32 ∨ 2 ^ 63 ≤ (t0 - s.dev.ev.dt).toNat) →
      Becomes .abacusGo s ((e.set F.ABACUS_STATUS_CODE 5).set F.ABACUS_CTRL_GO 0))) ∧
  (∀ s d, d = s.dev.set F.ABACUS_CTRL_PENDING 0 →
    (s.dev.snap = none → Becomes .abacusAbort s (d.set F.ABACUS_STATUS_ABRT 2)) ∧
    (∀ x gap, s.dev.snap = some x → gap = (x.target - s.dev.ev.dt).toNat → x.copied = true ∨ gap < 32 ∨ 2 ^ 63 ≤ gap →
      Becomes .abacusAbort s (d.set F.ABACUS_STATUS_ABRT 2))) ∧
  (∀ s, (s.dev.snap = none → Becomes .abacusCopy s s.dev ∧ Becomes .abacusDone s s.dev) ∧
    (∀ x, s.dev.snap = some x →
      (x.copied = true ∨ s.dev.ev.counting = false ∨ notAfter x.target s.dev.ev.dt = false → Becomes .abacusCopy s s.dev) ∧
      (x.copied = false → Becomes .abacusDone s s.dev)))

/-- Status registers that a device reset leaves as the units report it, and those the fuses give. -/
def Sys2Proof.Claims.keptStatus : List Nat :=
  [R.CLK_PLL_STATUS, R.CLK_RUN 0, R.CLK_RUN 1, R.CLK_LOSS, R.HBM_STATUS 0, R.HBM_STATUS 1, R.HBM_STATUS 2, R.HBM_STATUS 3, R.MEM_HEALTH,
   R.DEV_STAGE, R.SEC_LC, R.SEC_IDX 0, R.SEC_IDX 1]

/-- PARK_ALL (R96): DEV.CTRL.PARK_ALL is set and every channel with a run stops; it clears once every channel is parked, its fault
holds over; a second one is queued. DEVICE_RESET (R388): every channel parks, pending values, locks and rings go, device- and
channel-domain registers take their reset values, power-on ones stay; HBM and contexts are lost, the other memories are kept, MTP and
flash where no REPORT or FLASH_WRITE that runs is cut off (R423, R429; R413; log entry 25); DT stands; start-up resumes at Stage A.
CHANNEL_RESET (R389, R390) leaves the channel's own state and registers at reset; its record slots stay active (R281). -/
def Obligations.ResetsAndParkAll : Prop :=
  (∀ s, s.dev.flag F.DEV_CTRL_PARK_ALL = true → Becomes .parkAll s (s.dev.set F.DEV_CTRL_PENDING 1)) ∧
  (∀ s d, s.dev.flag F.DEV_CTRL_PARK_ALL = false →
    d = (List.finRange 32).foldl (fun (d : Dev) c => if (d.ch c).active? then d.stop c else d) (s.dev.set F.DEV_CTRL_PARK_ALL 1) →
    ((∃ c, (d.ch c).active? = true ∨ (d.ch c).faultB ≠ none ∨ (d.ch c).holds ≠ []) → Becomes .parkAll s d) ∧
    ((∀ c, (s.dev.ch c).st = .idle ∧ (s.dev.ch c).faultB = none ∧ (s.dev.ch c).holds = []) → s.dev.flag F.DEV_CTRL_PENDING = false →
      Becomes .parkAll s ((s.dev.set F.DEV_CTRL_PARK_ALL 1).set F.DEV_CTRL_PARK_ALL 0))) ∧
  (∀ pcie cut s, s.dev.stage = 0 → Becomes (.deviceReset pcie cut) s s.dev) ∧
  (∀ pcie cut s, s.dev.stage ≠ 0 → (∀ c, (s.dev.cal c).saving = none) → Ends (.deviceReset pcie cut) s fun t =>
    (∀ c, t.ch c = Chan.reset) ∧ t.pend = [] ∧ t.staged = [] ∧ t.locked = [] ∧ t.get F.DEV_STAGE_STAGE = 1 ∧ t.get F.DEV_STAGE_STOPPED = 0 ∧
    t.ev.dt = s.dev.ev.dt ∧ t.ev.counting = false ∧
    t.mem = { s.dev.mem with hbm := Store.empty, ctx := Store.empty, mtp := t.mem.mtp, flash := t.mem.flash } ∧
    ((∀ args, s.dev.mgmt.cmd ≠ some (0x10, args)) → t.mem.mtp = s.dev.mem.mtp) ∧
    ((∀ args, s.dev.mgmt.cmd ≠ some (0x11, args)) → t.mem.flash = s.dev.mem.flash) ∧
    t.rings = ⟨[], [], [], [], [], 0⟩ ∧ t.sec.challenge = none ∧ t.mgmt.cmd = none ∧ t.mgmt.sec = none ∧ t.snap = none ∧
    (∀ a card ix, cardAt a = some (card, ix) → a ∉ Claims.keptStatus → (∀ c : Fin 32, a ≠ R.CH_DAC_STATUS c) →
      t.rd a = if card.dom = .powerOn then s.dev.rd a else regReset a)) ∧
  (∀ (c : Fin 32) s, s.dev.board.rst ≠ none →
    Becomes (.channelReset c) s ((s.dev.set F.DEV_RST_CH_C c).set F.DEV_RST_CH_PENDING 1)) ∧
  (∀ (c : Fin 32) s x, x = s.dev.ch c → s.dev.board.rst = none → (x.st = .idle ∨ x.st = .faulted) → x.faultB = none →
    x.holds = [] → Ends (.channelReset c) s fun t =>
    t.ch c = { Chan.reset with outs := x.outs, hist := x.hist, active := x.active } ∧ OtherChans s.dev t c ∧ t.get F.DEV_RST_CH_CODE = 2 ∧
    t.get F.DEV_RST_CH_GO = 0 ∧ t.get F.DEV_RST_CH_LAST = c.val ∧ t.board.rst = none ∧ t.sec.challenge = none ∧
    t.pend = (s.dev.pend.filter fun p => !inChannel c p.addr) ∧
    (∀ a, inChannel c a = true → a < R.CH_DAC_CTRL c → t.rd a = regReset a) ∧ t.mem = s.dev.mem) ∧
  (∀ (c : Fin 32) s d, s.dev.board.rst = none → (s.dev.ch c).active? = true →
    d = { (((s.dev.set F.DEV_RST_CH_C c).set F.DEV_RST_CH_GO 1).set F.DEV_RST_CH_CODE 1).set F.DEV_RST_CH_LAST c with
      board := { s.dev.board with rst := some c }, sec := { s.dev.sec with challenge := none } } →
    (d.stop c).board = d.board →
    (((d.stop c).ch c).active? = true ∧ ((d.stop c).ch c).stopB ≠ none) ∨
      (((d.stop c).ch c).active? = false ∧ (((d.stop c).ch c).faultB ≠ none ∨ ((d.stop c).ch c).holds ≠ [])) →
    Becomes (.channelReset c) s (d.stop c))

/-- The latches behind every command (R404): the latch of a vector is set by a rise of one of its summary bits, which are those of
DEV.IRQ_BLK, then those of DEV.IRQ_CH, the vectors of the channels beginning at 32 (R403), and nothing else of the device moves.
MSIX_REARM (R404) sets the latch of a vector whose summary bit is 1 again. MSIX_MESSAGE sends a latched vector when MSI-X is
on and not masked, in D0, after its hold-off; otherwise the latch stays. -/
def Obligations.MessagesFollowLatches : Prop :=
  (∀ (d : Dev) v, v ∈ d.follow.msix.latch ↔ v ∈ d.msix.latch ∨
    ∃ i, i < 54 ∧ v = (if i < 22 then i else 32 + (i - 22)) ∧ d.summary.getLsbD i = true ∧ d.msix.seen.getLsbD i = false) ∧
  (∀ d : Dev, d.follow = { d with msix := { d.msix with seen := d.summary, latch := d.follow.msix.latch } }) ∧
  ∀ (v : Fin 2048) s m, m = s.dev.msix →
    ((∃ i, i < 54 ∧ s.dev.summary.getLsbD i = true ∧ vectorOf i = v.val) → v.val ∉ m.latch →
      Becomes (.msixRearm v) s { s.dev with msix := { m with latch := m.latch ++ [v.val] } }) ∧
    ((∀ i, i < 54 → s.dev.summary.getLsbD i = true → vectorOf i ≠ v.val) ∨ v.val ∈ m.latch → Becomes (.msixRearm v) s s.dev) ∧
    (v.val ∉ m.latch ∨ s.dev.board.msixOn = false ∨ s.dev.board.funcMask = true ∨ s.dev.board.d0 = false ∨
      s.dev.flag (F.DEV_MSIX_CTRL_MASK v) = true → Becomes (.msixMessage v) s s.dev) ∧
    (v.val ∈ m.latch → s.dev.board.msixOn = true → s.dev.board.funcMask = false → s.dev.board.d0 = true →
      s.dev.flag (F.DEV_MSIX_CTRL_MASK v) = false →
      (∀ p, m.last.find? (·.1 = v.val) = some p → s.dev.ev.elapsed - p.2 < s.dev.get (F.DEV_MSIX_MOD_HOLDOFF v) * 100 →
        Becomes (.msixMessage v) s s.dev) ∧
      ((∀ p, m.last.find? (·.1 = v.val) = some p → s.dev.get (F.DEV_MSIX_MOD_HOLDOFF v) * 100 ≤ s.dev.ev.elapsed - p.2) →
        Becomes (.msixMessage v) s { s.dev with msix := { m with
          latch := m.latch.filter (· ≠ v.val), last := m.last.filter (·.1 ≠ v.val) ++ [(v.val, s.dev.ev.elapsed)]
          sent := some (v.val, s.dev.get64 (R.DEV_MSIX_ADDR v 0), s.dev.rd (R.DEV_MSIX_DATA v)) } }))

/-! ### Events and device time (R247 to R264, R302 to R306, R311, R434) -/

/-- A firing of timer `i` done or skipped: the next one is counted, LEFT goes down unless the timer is endless, and RUNNING
clears with the last (R256). -/
def Sys2Proof.Claims.counted (d : Dev) (i : Fin 8) : Dev :=
  let e : Dev := { d with ev := { d.ev with tmrNext := d.ev.tmrNext.set i (d.ev.tmrNext[i] + 1) } }
  let left := (if d.get (F.EVT_TMR_PERIOD_PERIOD i) = 0 then 1 else d.get (F.EVT_TMR_CTRL_COUNT i)) - (d.ev.tmrNext[i] + 1)
  if d.get (F.EVT_TMR_PERIOD_PERIOD i) ≠ 0 ∧ d.get (F.EVT_TMR_CTRL_COUNT i) = 0 then e
  else if left = 0 then (e.set (F.EVT_TMR_STAT_LEFT i) 0).set (F.EVT_TMR_STAT_RUNNING i) 0
  else e.set (F.EVT_TMR_STAT_LEFT i) left

/-- TIMER_EN, TIMER_FIRE (R256, R263): EN starts or ends a timer, and none fires in the tick in which EN becomes 0: a firing of it is
taken back, what merged with it stays, and MERGED counts it no more; firing n falls at START + n × PERIOD, is emitted when its tick has
come, and is skipped LATE with a lead under 32 ticks. HOST_EV_GO, HOST_EV_EMIT (R257): at once, or at its tick, LATE with a lead
under 32 ticks, queued behind a pending one. -/
def Obligations.TimersAndHostEventsEmit : Prop :=
  (∀ i s, Becomes (.timerEn i false) s
    ((((s.dev.set (F.EVT_TMR_CTRL_EN i) 0).withdrawFiring i).set (F.EVT_TMR_STAT_RUNNING i) 0).set (F.EVT_TMR_STAT_LEFT i) 0)) ∧
  (∀ (i : Fin 8) (d : Dev) f o p, d.ev.frames = [f] → f.stamp = d.ev.dt → f.closed = false → o.kind = 2 → o.idx.toNat = i.val →
    p.kind ≠ 2 ∨ p.idx.toNat ≠ i.val →
    (f.occs = [o] → d.withdrawFiring i = { d with ev := { d.ev with frames := [] } }) ∧
    (f.occs = [p] → d.withdrawFiring i = d) ∧
    (f.occs = [o, p] ∨ f.occs = [p, o] →
      (d.withdrawFiring i).ev.frames = [⟨f.code, f.stamp, p.m, p.kind, p.idx, p.coast, p.late, p.fastAt, false, f.presented, [p]⟩] ∧
      (d.withdrawFiring i).get64 (R.EVT_CNT 1 0) = d.get64 (R.EVT_CNT 1 0) - 1)) ∧
  (∀ i s d, d = s.dev.set (F.EVT_TMR_CTRL_EN i) 1 →
    (d.flag (F.EVT_TMR_STAT_RUNNING i) = true → Becomes (.timerEn i true) s d) ∧
    (∀ n, n = (if s.dev.get (F.EVT_TMR_PERIOD_PERIOD i) = 0 then 1 else s.dev.get (F.EVT_TMR_CTRL_COUNT i)) →
      d.flag (F.EVT_TMR_STAT_RUNNING i) = false → Becomes (.timerEn i true) s
      { (d.set (F.EVT_TMR_STAT_RUNNING i) 1).set (F.EVT_TMR_STAT_LEFT i) n with
        ev := { d.ev with tmrNext := d.ev.tmrNext.set i 0, tmrStart := d.ev.tmrStart.set i d.ev.dt } })) ∧
  (∀ (i : Fin 8) s d f gap, d = s.dev → f = d.get64 (R.EVT_TMR_START i 0) + tk (d.ev.tmrNext[i] * d.get (F.EVT_TMR_PERIOD_PERIOD i)) →
    gap = (f - d.ev.tmrStart[i]).toNat →
    (d.flag (F.EVT_TMR_STAT_RUNNING i) = false ∨ d.ev.counting = false ∨ (d.rdTick (R.EVT_TMR_CTRL i)).getLsbD 0 = false →
      Becomes (.timerFire i) s d) ∧
    (d.flag (F.EVT_TMR_STAT_RUNNING i) = true → d.ev.counting = true → (d.rdTick (R.EVT_TMR_CTRL i)).getLsbD 0 = true →
      gap < 32 ∨ 2 ^ 63 ≤ gap →
      Becomes (.timerFire i) s (((Claims.counted d i).set (F.EVT_TMR_STAT_LATE i) 1).set F.EVT_IRQ_STATUS_TMR_LATE 1)) ∧
    (d.flag (F.EVT_TMR_STAT_RUNNING i) = true → d.ev.counting = true → (d.rdTick (R.EVT_TMR_CTRL i)).getLsbD 0 = true →
      32 ≤ gap → gap < 2 ^ 63 →
      (notAfter f d.ev.dt = false → Becomes (.timerFire i) s d) ∧
      (notAfter f d.ev.dt = true → Becomes (.timerFire i) s
        (Claims.counted (d.emit (BitVec.ofNat 8 (d.get (F.EVT_TMR_CTRL_CODE i))) f 0 2 (BitVec.ofNat 16 i.val) false f) i)))) ∧
  (∀ s code t gap, code = BitVec.ofNat 8 (s.dev.get F.EVT_HOST_EV_CODE) → t = s.dev.get64 (R.EVT_HOST_T 0) →
    gap = (t - s.dev.ev.dt).toNat →
    (s.dev.ev.hostEv ≠ none → Becomes .hostEvGo s (s.dev.set F.EVT_HOST_EV_PENDING 1)) ∧
    (s.dev.ev.hostEv = none → s.dev.flag F.EVT_HOST_EV_AT = false →
      Becomes .hostEvGo s ((s.dev.emit code s.dev.ev.dt 0 4 0 false s.dev.ev.dt).hostEvEnds 2)) ∧
    (s.dev.ev.hostEv = none → s.dev.flag F.EVT_HOST_EV_AT = true → gap < 32 ∨ 2 ^ 63 ≤ gap → Becomes .hostEvGo s (s.dev.hostEvEnds 5)) ∧
    (s.dev.ev.hostEv = none → s.dev.flag F.EVT_HOST_EV_AT = true → 32 ≤ gap → gap < 2 ^ 63 → Becomes .hostEvGo s
      { (s.dev.set F.EVT_HOST_STATUS_CODE 1).set F.EVT_HOST_EV_GO 1 with ev := { s.dev.ev with hostEv := some (code, t) } })) ∧
  (∀ s, s.dev.ev.hostEv = none → Becomes .hostEvEmit s s.dev) ∧
  (∀ s code t e, s.dev.ev.hostEv = some (code, t) → e = (s.dev.emit code t 0 4 0 false t).hostEvEnds 2 →
    (s.dev.ev.counting = false ∨ notAfter t s.dev.ev.dt = false → Becomes .hostEvEmit s s.dev) ∧
    (s.dev.ev.counting = true → notAfter t s.dev.ev.dt = true →
      (e.flag F.EVT_HOST_EV_PENDING = false → Becomes .hostEvEmit s e) ∧
      (e.flag F.EVT_HOST_EV_PENDING = true → Becomes .hostEvEmit s (e.set F.EVT_HOST_EV_PENDING 0).startHostEv)))

/-- An occurrence that enters the fabric makes a frame entry of its own, unless an open frame holds its code: then the two merge
and MERGED counts; nothing enters while DT holds (R247, R252, R258). TRIG_EDGE, MARKER_EDGE (R253 to R255): an edge of an
enabled source enters when EDGE selects it, it is long enough and no hold-off runs, of a marker's edges the first of the tick; the
levels that PIN_STATUS samples at the ends of this tick and the next follow the pin (R415). FRAME_CLOSE (R258, R259, R264, R306) from
stamp + 20 on: the frame's events count, are logged and are forwarded, in ascending code order. EVENT_PRESENT (R259 to R262,
R434): an event reaches channel `c` at its tick, 8 ticks later where its gated cluster slept when it arrived, once its frame has closed,
or in fast mode before; what the crossbar passes wakes the cluster and is stored, unless the cutoff of the run lies behind it; the third
of a code is absorbed. LOG_WRITE (R264, R286): one record per tick into a LIVE log ring with room; an unreadable
context is recorded (R354). -/
def Obligations.EdgesAndFramesPresentEvents : Prop :=
  ((∀ (d : Dev) code t m k idx late fa, d.ev.counting = false → d.emit code t m k idx late fa = d) ∧
   (∀ (d : Dev) code t m k idx late fa, d.ev.counting = true →
     (∀ f ∈ d.ev.frames, f.code = code → f.stamp = t → f.closed = true) →
     d.emit code t m k idx late fa =
       { d with ev := { d.ev with frames := d.ev.frames ++ [⟨code, t, m, k, idx, d.coasting, late, fa, false, 0, [⟨m, k, idx, d.coasting, late, fa⟩]⟩] } }) ∧
   (∀ (d : Dev) code t m k idx late fa, d.ev.counting = true →
     (∃ f ∈ d.ev.frames, f.code = code ∧ f.stamp = t ∧ f.closed = false) →
     (d.emit code t m k idx late fa).ev.frames.length = d.ev.frames.length ∧
     (d.emit code t m k idx late fa).get64 (R.EVT_CNT 1 0) = d.get64 (R.EVT_CNT 1 0) + 1) ∧
   (∀ (i : Fin 16) high (m : Fin 16) held late s short d e,
     (short = true ↔ s.dev.flag (F.EVT_TRIG_CFG_EN i) = true ∧ s.dev.ev.trig.getLsbD i ≠ high ∧ held ≤ s.dev.get (F.EVT_TRIG_CFG_MINW i)) →
     d = { s.dev with ev := { s.dev.ev with
       pins := setLevel s.dev.ev.pins i (if short = true ∧ m.val + held < 16 then !high else high)
       pinsNext := setLevel s.dev.ev.pinsNext i (if short = true then !high else high) } } →
     e = { d with ev := { d.ev with trig := setLevel d.ev.trig i high } } →
     (d.ev.trig.getLsbD i = high → Becomes (.trigEdge i high m held late) s d) ∧
     (d.ev.trig.getLsbD i ≠ high → d.flag (F.EVT_TRIG_CFG_EN i) = true → held ≤ d.get (F.EVT_TRIG_CFG_MINW i) →
       Becomes (.trigEdge i high m held late) s d) ∧
     (d.ev.trig.getLsbD i ≠ high → d.flag (F.EVT_TRIG_CFG_EN i) = false → Becomes (.trigEdge i high m held late) s e) ∧
     (d.ev.trig.getLsbD i ≠ high → d.flag (F.EVT_TRIG_CFG_EN i) = true → d.get (F.EVT_TRIG_CFG_MINW i) < held →
       (d.ev.counting = false ∨ edgeSelected (d.get (F.EVT_TRIG_CFG_EDGE i)) high = false → Becomes (.trigEdge i high m held late) s e) ∧
       (d.ev.counting = true → edgeSelected (d.get (F.EVT_TRIG_CFG_EDGE i)) high = true →
         (∀ l, d.ev.trigLast[i] = some l → (d.ev.dt - l).toNat ≤ d.get (F.EVT_TRIG_CFG_HOLDOFF i) →
           Becomes (.trigEdge i high m held late) s (e.countSat (F.EVT_TRIG_CNT_SUPPRESSED i))) ∧
         ((∀ l, d.ev.trigLast[i] = some l → d.get (F.EVT_TRIG_CFG_HOLDOFF i) < (d.ev.dt - l).toNat) →
           Becomes (.trigEdge i high m held late) s
             (((({ e with ev := { e.ev with trigLast := e.ev.trigLast.set i (some d.ev.dt) } } : Dev).countMod
               (F.EVT_TRIG_CNT_EVENTS i)).wr (R.EVT_TRIG_LAST i 0) (d.ev.dt.setWidth 32)).wr (R.EVT_TRIG_LAST i 1)
               (BitVec.ofNat 32 (m.val + 16 * bit d.coasting + 32)) |>.emit (BitVec.ofNat 8 (d.get (F.EVT_TRIG_CFG_CODE i))) d.ev.dt
               (BitVec.ofNat 4 m.val) 0 (BitVec.ofNat 16 i.val) false (d.ev.dt + if late then 3 else 2)))))) ∧
   (∀ (i : Fin 16) rising (m : Fin 16) s d c train first, d = s.dev → first = (∀ n up, n < m.val →
       edgeSelected (d.get (F.EVT_MK_CFG_EDGE i)) up = true → train[n]? = some (!up) → train[n + 1]? ≠ some up) → c.val = d.get (F.EVT_MK_CFG_CH i) % 32 →
     train = d.markerTrain c (d.get (F.EVT_MK_CFG_BIT i)) →
     (d.flag (F.EVT_MK_CFG_EN i) = false ∨ d.ev.counting = false ∨ edgeSelected (d.get (F.EVT_MK_CFG_EDGE i)) rising = false ∨
       d.ev.mkLast[i] = some d.ev.dt ∨ train[m.val]? ≠ some (!rising) ∨ train[m.val + 1]? ≠ some rising ∨ ¬first →
         Becomes (.markerEdge i rising m) s d) ∧
     (d.flag (F.EVT_MK_CFG_EN i) = true → d.ev.counting = true → edgeSelected (d.get (F.EVT_MK_CFG_EDGE i)) rising = true →
       d.ev.mkLast[i] ≠ some d.ev.dt → train[m.val]? = some (!rising) → train[m.val + 1]? = some rising → first →
       Becomes (.markerEdge i rising m) s
         (({ d with ev := { d.ev with mkLast := d.ev.mkLast.set i (some d.ev.dt) } } : Dev).emit
           (BitVec.ofNat 8 (d.get (F.EVT_MK_CFG_CODE i))) d.ev.dt (BitVec.ofNat 4 (m.val * 2 ^ d.rate (chiplet c))) 1
           (BitVec.ofNat 16 i.val) false d.ev.dt)))) ∧
  ((∀ t s, notAfter (t + 20) s.dev.ev.dt = false → Becomes (.frameClose t) s s.dev) ∧
   (∀ t s d es e, notAfter (t + 20) s.dev.ev.dt = true → d = s.dev →
     es = ((d.ev.frames.filter fun f => f.stamp = t && !f.closed).foldl (fun l e => insertCode e l) []) →
     e = es.foldl (fun (d : Dev) e => (d.logEvent e).forwardEvent t e)
       (({ d with ev := { d.ev with frames := d.ev.frames.map fun (f : FrameEv) => if f.stamp = t then { f with closed := true } else f } } : Dev).count64
         (R.EVT_CNT 0 0) es.length) →
     Becomes (.frameClose t) s { e with ev := e.ev.purge }) ∧
   (∀ c code stamp s, (∀ f ∈ s.dev.ev.frames, ¬(f.code = code ∧ f.stamp = stamp)) → Becomes (.eventPresent c code stamp) s s.dev) ∧
   (∀ (c : Fin 32) code stamp s f rest tick came pass woke, s.dev.ev.frames = f :: rest → f.code = code → f.stamp = stamp →
     pass = (s.dev.rdTick (R.CL_XBAR_MASK (clu c) (sub c) (code.toNat / 32))).getLsbD (code.toNat % 32) →
     came = (if s.dev.fast c then f.fastAt else f.stamp + 23) →
     (woke = true ↔ pass = true ∧ s.dev.get F.TELEM_PWR_CL_GATED / 2 ^ (clu c) % 2 = 1 ∧
       (s.dev.runs (7 + clu c) = false ∨ ∃ w, s.dev.ev.wokeAt[cluster c] = some w ∧ before came w = true)) →
     tick = came + 1 + (if woke then 8 else 0) →
     (f.presented.getLsbD c = true ∨ (f.closed = false ∧ s.dev.fast c = false) ∨ notAfter tick s.dev.ev.dt = false →
       Becomes (.eventPresent c code stamp) s s.dev) ∧
     (∀ d w, w = d.eventWake (cluster c) → d = { s.dev with ev := ({ s.dev.ev with frames := s.dev.ev.frames.map fun g => if g.code = code && g.stamp = stamp then
         { g with presented := g.presented ||| BitVec.twoPow 32 c.val } else g } : Events).purge } →
       f.presented.getLsbD c = false → f.closed = true ∨ s.dev.fast c = true → notAfter tick s.dev.ev.dt = true →
       (pass = false → Becomes (.eventPresent c code stamp) s d) ∧
       (∀ x seen, x = s.dev.ch c → seen = (if s.dev.fast c then s.dev.ev.dt else stamp) → pass = true →
         (x.active? = true → before x.cutoff seen = false → Becomes (.eventPresent c code stamp) s w) ∧
         (x.active? = false ∨ before x.cutoff seen = true →
           ((x.store.filter (·.code = code)).length < 2 → Becomes (.eventPresent c code stamp) s
             (w.setCh c { x with store := x.store ++ [⟨code, stamp, s.dev.ev.dt, woke⟩] })) ∧
           (2 ≤ (x.store.filter (·.code = code)).length → Becomes (.eventPresent c code stamp) s
             ((w.countSat (F.CL_EV_STAT_ABSORBED (clu c) (sub c))).set (F.CL_EV_STAT_ABSORB (clu c) (sub c)) 1)))))) ∧
   (∀ (d : Dev) (k : Fin 8), (d.get F.TELEM_THERM_LEVEL = 3 → d.eventWake k = d) ∧
     (d.get F.TELEM_THERM_LEVEL ≠ 3 → d.runs (7 + k.val) = true → d.eventWake k = d.setRuns (7 + k.val) true) ∧
     (d.get F.TELEM_THERM_LEVEL ≠ 3 → d.runs (7 + k.val) = false → d.eventWake k =
       { d.setRuns (7 + k.val) true with ev := { d.ev with wokeAt := d.ev.wokeAt.set k (some d.ev.dt) } })) ∧
   (∀ s, s.dev.ev.log = [] → Becomes .logWrite s s.dev) ∧
   (∀ s d e rest q, d = s.dev → d.ev.log = e :: rest → q = d.get F.EVT_LOG_CFG_RING →
     (d.ctxBad q = true → Becomes .logWrite s (d.ctxError q)) ∧
     (d.ctxBad q = false → d.ev.logAt = some d.ev.elapsed ∨ d.liveKind q 4 = false ∨ d.ringFull q = true ∨ d.recordHeld q (d.prod q) = true →
       Becomes .logWrite s d) ∧
     (d.ctxBad q = false → d.ev.logAt ≠ some d.ev.elapsed → d.liveKind q 4 = true → d.ringFull q = false → d.recordHeld q (d.prod q) = false →
       Becomes .logWrite s (({ d with ev := { d.ev with log := rest, logAt := some d.ev.elapsed } } : Dev).putRecord q (eventRecord e)))))

/-- DT_LOAD (R249): with every condition met EVT.DT_LOAD is to be loaded at the next tick boundary, else the command is REJECTED;
a LOAD behind one that waits is queued (R58). At a boundary at which DT counts the value goes into DT, the command is DONE and a
queued one is taken. DT_RESUME (R247, R368): DT counts on from its held value at the first boundary after the release, and DT_GAP
takes the interval in units of 16 ticks, held at its largest value. TICK (R245, R247): the tick that ends goes to the outputs while DT
counts, then DT goes up by 1.
LINK_HOST_EV, ARRAY_EVENT_ENTER (R302, R305, R311). -/
def Obligations.DeviceTimeCountsLoadsAndResumes : Prop :=
  (∀ s d ok, d = s.dev →
    ok = (d.ev.counting = true ∧ (∀ c, (d.ch c).st = .idle) ∧ (∀ i, i < 8 → d.flag (F.EVT_TMR_STAT_RUNNING i) = false) ∧
      d.ev.hostEv = none ∧ d.get F.ABACUS_STATUS_CODE ≠ 1 ∧ d.get F.LINK_STATUS_STATE = 0) →
    (d.ev.load ≠ none → Becomes .dtLoad s (d.set F.EVT_CTRL_PENDING 1)) ∧
    (d.ev.load = none → ¬ok → Becomes .dtLoad s (((d.set F.EVT_STATUS_CODE 6).set F.EVT_CTRL_LOAD 0).set F.EVT_IRQ_STATUS_LOAD 1)) ∧
    (d.ev.load = none → ok → Becomes .dtLoad s { (d.set F.EVT_STATUS_CODE 1).set F.EVT_CTRL_LOAD 1 with
      ev := { d.ev with load := some (d.get64 (R.EVT_DT_LOAD 0)) } })) ∧
  (∀ (d : Dev) v e, d.ev.load = some v →
    e = ((({ d with ev := { d.ev.jump v with load := none } } : Dev).set F.EVT_STATUS_CODE 2).set F.EVT_CTRL_LOAD 0).set F.EVT_IRQ_STATUS_LOAD 1 →
    e.ev.dt = v ∧ (d.ev.counting = false → d.loadTick = d) ∧
    (d.ev.counting = true → d.flag F.EVT_CTRL_PENDING = false → d.loadTick = e) ∧
    (d.ev.counting = true → d.flag F.EVT_CTRL_PENDING = true → d.loadTick = (e.set F.EVT_CTRL_PENDING 0).startLoadDt)) ∧
  (∀ (s : State) gap, gap = min 0xFFFFFFFF ((s.dev.ev.elapsed - s.dev.ev.heldSince) / 16) →
    (s.dev.get F.CLK_SPLL_STATUS_STATE ≠ 5 ∨ s.dev.ev.started = false ∨ (∀ t, s.dev.clk.firstTick = some t → s.dev.ev.elapsed < t) →
      Becomes .dtResume s s.dev) ∧
    (∀ t, s.dev.get F.CLK_SPLL_STATUS_STATE = 5 → s.dev.ev.started = true → s.dev.clk.firstTick = some t → t ≤ s.dev.ev.elapsed →
      Becomes .dtResume s ((s.dev.wr R.EVT_DT_GAP (BitVec.ofNat 32 gap)).set F.EVT_IRQ_STATUS_DT_RESUMED 1).clocksReturn)) ∧
  (∀ s, s.dev.get F.DEV_STAGE_STAGE = 0 → Becomes .tick s s.dev) ∧
  (∀ s d e f, s.dev.get F.DEV_STAGE_STAGE ≠ 0 → d = (if s.dev.ev.counting then s.dev.endTicks else s.dev) → e = (d.launchCell .e).launchCell .w →
    f = { e with ev := { e.ev with dt := if e.ev.counting then e.ev.dt + 1 else e.ev.dt, elapsed := e.ev.elapsed + 1
                                   sampled := e.ev.pins, pins := e.ev.pinsNext } } →
    e.ev = d.ev ∧ e.ev.dt = s.dev.ev.dt ∧ e.ev.elapsed = s.dev.ev.elapsed ∧ e.mem = s.dev.mem ∧
    Becomes .tick s ((List.finRange 32).foldl (fun (d : Dev) c => d.startTick c)
      f.linkBoundary.loadTick.firstStart.alignTick.pulseTick.coastBypass.gateTick.wakeTick.chResetTick.sliceTick.freqTick.dueWords)) ∧
  (∀ s t gap, t = s.dev.get64 (R.LINK_HOST_T 0) → gap = (t - s.dev.ev.dt).toNat →
    (s.dev.get F.LINK_STATUS_STATE < 2 → Becomes .linkHostEv s ((s.dev.set F.LINK_HOST_EV_CODE_ST 6).set F.LINK_IRQ_STATUS_HOST 1)) ∧
    (2 ≤ s.dev.get F.LINK_STATUS_STATE → gap < 160 ∨ 2 ^ 22 ≤ gap →
      Becomes .linkHostEv s ((s.dev.set F.LINK_HOST_EV_CODE_ST 5).set F.LINK_IRQ_STATUS_HOST 1)) ∧
    (2 ≤ s.dev.get F.LINK_STATUS_STATE → 160 ≤ gap → gap < 2 ^ 22 → Becomes .linkHostEv s
      (((s.dev.arrayEvent (BitVec.ofNat 8 (s.dev.get F.LINK_HOST_EV_CODE)) t).set F.LINK_HOST_EV_CODE_ST 2).set F.LINK_IRQ_STATUS_HOST 1))) ∧
  (∀ s, (∀ e ∈ s.dev.link.hold, notAfter e.target s.dev.ev.dt = false) → Becomes .arrayEventEnter s s.dev) ∧
  (∀ s e rest d, s.dev.link.hold = e :: rest → notAfter e.target s.dev.ev.dt = true →
    d = ({ s.dev with link := { s.dev.link with hold := rest } } : Dev).emit e.code e.target 0 6 (BitVec.ofNat 16 (portIdx e.port)) false s.dev.ev.dt →
    ((d.flag F.LINK_CFG_STOP_EN = false ∨ d.get F.LINK_CFG_STOP_CODE ≠ e.code.toNat) → Becomes .arrayEventEnter s d) ∧
    (d.flag F.LINK_CFG_STOP_EN = true → d.get F.LINK_CFG_STOP_CODE = e.code.toNat → Becomes .arrayEventEnter s d.parkAll))

/-! ### Samples (R74 to R76, R157 to R161, R182 to R193, R197 to R205, R211, R214, R218, R221) -/

/-- Block `b` covers tick `t`: of the committed blocks it is the last to begin at or before it. -/
def Sys2Proof.Claims.Covers (x : Chan) (t : Tick) (b : Blk) : Prop :=
  ∃ old new, x.blks = old ++ b :: new ∧ notAfter b.first t = true ∧ ∀ k ∈ new, notAfter k.first t = false

/-- A fault hold covers tick `t` (R98). -/
def Sys2Proof.Claims.InHold (x : Chan) (t : Tick) : Prop := ∃ h ∈ x.holds, notAfter h.1 t = true ∧ before t h.2 = true

/-- A fault hold is over at tick `t`, and no block has begun behind it (R98). -/
def Sys2Proof.Claims.PastHold (x : Chan) (t : Tick) : Prop :=
  ∃ h ∈ x.holds, notAfter h.2 t = true ∧ ∀ b, Claims.Covers x t b → before b.first h.2 = true

/-- The output is parked at tick `t` by a STOP, the end of the run or a fault (R95, R96, R98). -/
def Sys2Proof.Claims.ParkedSince (x : Chan) (t : Tick) : Prop := ∃ p, x.parkAt = some p ∧ notAfter p t = true

/-- The sum of a function over 0 to n − 1. -/
def Sys2Proof.Claims.total (n : Nat) (f : Nat → Int) : Int := ((List.range n).map f).sum

/-- What stage 3 makes of `inp`: gain, offset and saturation (R199). -/
def Sys2Proof.Claims.staged3 (s : DpSet) (inp : Int) (mrk : BitVec 4) : Pre :=
  let w := ((inp * s.gain + 8192) >>> 14) + s.offset * 4
  ⟨max (-524288) (min 524287 w), mrk, .filtered, decide (524287 < w ∨ w < -524288)⟩

/-- A 16-bit value of a block's data, at byte `o`, and a nibble of it or of its track. -/
def Sys2Proof.Claims.half (data : List Byte) (o : Nat) : Int := ((data.getD (o + 1) 0) ++ (data.getD o 0)).toInt
def Sys2Proof.Claims.nib (data : List Byte) (j : Nat) : BitVec 4 := (data.getD (j / 2) 0 >>> (4 * (j % 2))).setWidth 4

/-- Delay-line input and markers at place `j` of the stream: past samples newest first, then what is ahead; nothing counts as 0. -/
def Sys2Proof.Claims.place (past : List Samp) (fut : List Pre) (j : Int) : Int :=
  if j < 0 then ((past[(-j - 1).toNat]?).map (·.x.toInt)).getD 0 else ((fut[j.toNat]?).map (·.x)).getD 0
def Sys2Proof.Claims.marks (d : Dev) (c : Fin 32) (past : List Samp) (fut : List Pre) (j : Int) : BitVec 4 :=
  if j < 0 then ((past[(-j - 1).toNat]?).map fun p => if p.mute then 0 else p.mrk).getD 0
  else ((fut[j.toNat]?).map fun p => if d.rangingIn c (j.toNat / d.spt c) then 0 else p.mrk).getD 0

/-- Code of the sample at place `j`, and whether stage 5 limited it (R198, R200, R201): the direct code, or the FIR output with 8
pre-cursor taps, rounded to 12 bits and clipped; a held sample repeats the last code. -/
def Sys2Proof.Claims.code (s : DpSet) (x : Chan) (fut : List Pre) (j : Nat) : Int × Bool :=
  let y : Int := match s.taps with
    | some h => (Claims.total 32 (fun i => h.getD i 0 * Claims.place x.hist fut ((j : Int) + 8 - i)) + 8192) >>> 14
    | none => Claims.place x.hist fut j
  let v := (y + 32) >>> 6
  match ((fut[j]?).map (·.path) : Option CodePath) with
  | some (.direct n) => (n, false)
  | some .filtered => (max (-2048) (min 2047 v), decide (2047 < v ∨ v < -2048))
  | some .held => (((x.hist.head?).map (·.code.toInt)).getD 0, false)
  | _ => (0, false)

/-- The sample that the history takes of a pre-sample and its code; `mute`: the output stage parks it. -/
def Sys2Proof.Claims.taken (p : Pre) (code : Int) (mute : Bool) : Samp :=
  ⟨BitVec.ofInt 20 p.x, BitVec.ofInt 12 code, p.mrk, decide (p.path = .parked), decide (p.path ≠ .filtered), mute⟩

/-- The output stage of channel `c` is held parked (R217, R219, R441). -/
def Sys2Proof.Claims.StageParked (d : Dev) (c : Fin 32) : Prop :=
  d.get (F.CH_DAC_STATUS_RANGING c) ≠ 0 ∨ d.get F.TELEM_SW_RATE_BUSY / 2 ^ (chiplet c) % 2 = 1 ∨
  ∃ u, d.cals[c].unusableAt = some u ∧ (((d.ch c).st = .idle ∧ (d.ch c).holds = []) ∨ notAfter u d.ev.dt = true)

/-- From blocks to samples. The phase law and the sample phase (R183, R185), the sine table with its interpolation (R190), the carrier
sum and the mixer (R191, R192). Each kind of sample with what it feeds the delay line, its code path and its source markers (R198; the
fault hold's source markers: log entry 47), the segment formats and MSRC (R157 to R161), gain and saturation (R199). At the end of a
tick each channel carries one container a sample, the code above the markers that their delays D_b bring (R5, R201, R204, R205), and
its history takes the samples; SAMPLES, SAT and CLIPPED count, but for samples that the output stage parks (log entry 47), and a
waiting sequencer's cycles count (R103). A channel that carries nothing feeds zeros (R198). Codes reach AOUTc as levels of the range,
negated in the second half of an RF sample (R218, R221), zero in PARK and still in CAL_HOLD (R223, R237, log entry 49); a sub-DAC
interpolates between the nodes of its coarse string, which span the references (R211, R214). -/
def Obligations.SamplesFollowTheDatapath : Prop :=
  ((∀ (l : Slot) t, l.phase t = BitVec.ofNat 48 (l.phi.toNat + l.ftw.toNat * 16 * ((t - l.t0).toNat % 2 ^ 44))) ∧
   (∀ (x : Chan) S (n : Fin 8) t m, x.theta S n t m =
     BitVec.ofNat 48 (((x.slot x.osc[n].slot).phase t).toNat + (x.slot x.osc[n].slot).ftw.toNat * (16 / S * m))) ∧
   (sine 0 = 0 ∧ sine 512 = 92681 ∧ sine 1024 = 131071) ∧
   (∀ v, (v % 256 = 0 → qs v = sine (v / 256)) ∧
     (v % 256 ≠ 0 → qs v = sine (v / 256) + ((((sine (v / 256 + 1) : Int) - sine (v / 256)) * ((v % 256 : Nat) : Int) + 128) >>> 8))) ∧
   (∀ th r, r = th.toNat / 2 ^ 28 % 2 ^ 18 →
     (th.toNat / 2 ^ 46 = 0 → cosSin th = (qs (2 ^ 18 - r), qs r)) ∧ (th.toNat / 2 ^ 46 = 1 → cosSin th = (-qs r, qs (2 ^ 18 - r))) ∧
     (th.toNat / 2 ^ 46 = 2 → cosSin th = (-qs (2 ^ 18 - r), -qs r)) ∧ (th.toNat / 2 ^ 46 = 3 → cosSin th = (qs r, -qs (2 ^ 18 - r)))) ∧
   (∀ (x : Chan) S t m i q a cs, (a = fun (n : Fin 8) => if x.mixEna.getLsbD n then x.osc[n].amp.toInt else 0) →
     (cs = fun (n : Fin 8) => cosSin (x.theta S n t m)) →
     x.carrier S t m = (((List.finRange 8).map fun n => (a n * (cs n).1 + 16384) >>> 15).sum, ((List.finRange 8).map fun n => (a n * (cs n).2 + 16384) >>> 15).sum) ∧
     x.mixed S t m i q = (if x.baseband then i * 4 else (i * (x.carrier S t m).1 - q * (x.carrier S t m).2 + 16384) >>> 15))) ∧
  ((∀ (x : Chan) s cr t m p park rest held, p = x.preSample s cr t m → park = (⟨0, 0, .parked, false⟩ : Pre) → rest = (⟨0, x.marker, .direct 0, false⟩ : Pre) →
     (held = fun k => match x.hist.head? with | some l => if l.parked then park else (⟨l.x.toInt, k, .held, false⟩ : Pre) | none => park) →
     (Claims.ParkedSince x t → p = park) ∧
     (¬Claims.ParkedSince x t → (Claims.InHold x t → p = held 0) ∧
       (¬Claims.InHold x t → (Claims.PastHold x t → p = park) ∧
         (¬Claims.PastHold x t → (x.blockAt t = none → p = park) ∧
           (∀ b inside, x.blockAt t = some b → inside = before t b.stop →
             (b.kind = .rest ∨ (inside = false ∧ (b.kind = .park ∨ b.kind = .hold ∨ b.kind = .osc)) → p = rest) ∧
             (b.kind = .park → inside = true → p = park) ∧
             (b.kind = .hold → inside = true → p = held (((x.hist.head?).map (·.mrk)).getD 0)) ∧
             (b.kind = .osc → inside = true → p = Claims.staged3 s (x.mixed s.spt t m 32767 0) x.marker) ∧
             (∀ g data track j, b.kind = .seg g data track → j = ((t - b.first).toNat * s.spt + m) % 64 → p = segPre x s g data track cr t m j)))))) ∧
   (∀ (x : Chan) t b, x.blockAt t = some b ↔ Claims.Covers x t b) ∧
   (∀ (x : Chan) s (g : Desc) data track cr t m j mrk p, p = segPre x s g data track cr t m j →
     mrk = (if g.msrc = 1 then x.marker else if g.msrc = 2 then Claims.nib track j
       else if g.fmt = 0 then (data.getD (2 * j) 0).setWidth 4 else if g.fmt = 3 then Claims.nib data j else x.marker) →
     (∀ v, g.fmt = 0 → v = Claims.half data (2 * j) >>> 4 → p = if s.s16Filtered then Claims.staged3 s (v * 64) mrk else ⟨v * 64, mrk, .direct v, false⟩) ∧
     (g.fmt = 1 → p = Claims.staged3 s (x.mixed s.spt t m (Claims.half data (4 * j)) (Claims.half data (4 * j + 2))) mrk) ∧
     (∀ v, g.fmt = 2 → v = ((data.getD j 0).toInt * g.gain) >>> 7 → p = Claims.staged3 s (x.mixed s.spt t m (max (-32768) (min 32767 v)) 0) mrk) ∧
     (∀ v, g.fmt = 3 → v = (if g.m4code then cr else 0) → p = ⟨v * 64, mrk, .direct v, false⟩))) ∧
  (∀ (d : Dev) (c : Fin 32) x y t S cr fut set, x = d.ch c → t = d.ev.dt → S = d.spt c → y = x.appliedTo t → fut = d.present c → set = d.dpSet c t →
     cr = (match y.blockAt t with
       | some b => if b.start ≠ t then x.cr.toInt else match x.hist.head? with
         | none => 0
         | some l => if l.parked then 0 else if l.direct then l.code.toInt else max (-2048) (min 2047 ((l.x.toInt + 32) >>> 6))
       | none => x.cr.toInt) →
     (S = 16 ∨ S = 8 ∨ S = 4 → fut.length = S + 64 ∧ fut.take S = (List.range S).map fun m => y.preSample set cr t m) ∧
     ((∀ a ∈ x.dispatched, notAfter a.tick t = false) → y = x) ∧
     (d.pend = [] → set.spt = S ∧ set.gain = (BitVec.ofNat 16 (d.get (F.CH_DP_GAIN_GAIN c))).toInt ∧
       set.offset = (BitVec.ofNat 16 (d.get (F.CH_DP_GAIN_OFFSET c))).toInt ∧ (set.s16Filtered = true ↔ d.get (F.CH_DP_CTRL_S16_PATH c) = 1) ∧
       (d.get (F.CH_FIR_CTRL_EN c) = 0 → set.taps = none) ∧
       (d.get (F.CH_FIR_CTRL_EN c) = 1 → set.taps = some ((List.range 32).map fun i =>
         (BitVec.ofNat 16 (d.get (F.CH_FIR_COEF_H c (d.get (F.CH_FIR_CTRL_BANK c)) i))).toInt)))) ∧
  (∀ (d e : Dev) (c : Fin 32) x t S (fut : List Pre) rg set still off code n0 n1 n2, e = d.endTick c → x = d.ch c → t = d.ev.dt → S = d.spt c → fut = d.present c →
     S ≤ fut.length → set = d.dpSet c t → (rg = true ↔ Claims.StageParked d c) → still = (Claims.ParkedSince x t ∨ Claims.PastHold x t) →
     off = (x.blockAt t = none ∨ still) → (code = fun j => Claims.code set x fut j) →
     n0 = (if rg then 0 else ((fut.take S).filter fun p => decide (p.path ≠ .parked)).length) → n1 = (if rg then 0 else ((fut.take S).filter (·.sat)).length) →
     n2 = (if rg then 0 else ((List.range S).filter fun j => (code j).2).length) →
     OtherChans d e c ∧
     (still ∨ x.blks = [] → (e.ch c).outs = []) ∧
     (¬still → x.blks ≠ [] → (e.ch c).outs.length = S ∧ ∀ j w, j < S → w = (e.ch c).outs.getD j 0 →
       ((w >>> 4).setWidth 12 = BitVec.ofInt 12 (if rg = true then 0 else if x.blockAt t = none then 0 else (code j).1)) ∧
       ∀ (b : Nat) (D : Int), b < 4 → D = max (-64) (min 64 (BitVec.ofNat 8 (bits (d.rd (R.CH_DP_MDLY c)) (8 * b + 7) (8 * b))).toInt) →
         (Claims.InHold x t → w.getLsbD b = ((x.outs.getLast?).getD 0).getLsbD b) ∧
         (¬Claims.InHold x t → w.getLsbD b = (Claims.marks d c x.hist fut ((j : Int) - D)).getLsbD b)) ∧
     (¬off → (e.ch c).hist = (((List.range S).map fun j => Claims.taken (fut.getD j ⟨0, 0, .parked, false⟩) (code j).1 rg).reverse ++ x.hist).take 64 ∧
       e.get64 (R.CH_DP_CNT c 0 0) = d.get64 (R.CH_DP_CNT c 0 0) + tk n0 ∧ e.get64 (R.CH_DP_CNT c 1 0) = d.get64 (R.CH_DP_CNT c 1 0) + tk n1 ∧
       e.get64 (R.CH_DP_CNT c 2 0) = d.get64 (R.CH_DP_CNT c 2 0) + tk n2 ∧
       e.get (F.CH_DP_STATUS_SAT c) = (if n1 = 0 then d.get (F.CH_DP_STATUS_SAT c) else 1) ∧
       e.get (F.CH_DP_STATUS_CLIP c) = if n2 = 0 then d.get (F.CH_DP_STATUS_CLIP c) else 1) ∧
     (off → (∀ k, Claims.place (e.ch c).hist [] k = Claims.place ((List.replicate S (⟨0, 0, 0, true, true, false⟩ : Samp) ++ x.hist).take 64) [] k) ∧
       (∀ p ∈ (e.ch c).hist, p.mute = true ∨ p.mrk = 0) ∧ e.get64 (R.CH_DP_CNT c 0 0) = d.get64 (R.CH_DP_CNT c 0 0)) ∧
     e.get64 (R.CH_SEQ_CNT c 1 0) = d.get64 (R.CH_SEQ_CNT c 1 0) + (if x.st = .run ∧ x.stall ≠ .none then 2 else 0)) ∧
  (∀ d : Dev, d.endTicks = ((List.finRange 32).foldl (fun (d : Dev) c => d.endTick c) d).presentDue) ∧
  (∀ (d : Dev) (c : Fin 32) S full, S = d.spt c →
     full = (if d.get (F.CH_DAC_CTRL_RANGE c) = 0 then 500 else if d.get (F.CH_DAC_CTRL_RANGE c) = 1 then 1000 else 1400 : Int) →
     (d.pinState c = .unpowered → d.aout c = none) ∧ (d.pinState c = .park → d.aout c = some (List.replicate S (0, 0))) ∧
     (∀ v, d.pinState c = .calHold → (∀ l, (d.cal c).hold = some l → v = (if l.parked then 0
         else if d.get (F.CH_DAC_CTRL_RECON c) = 0 then l.code.toInt * full else -(l.code.toInt * full))) → ((d.cal c).hold = none → v = 0) →
       d.aout c = some (List.replicate S (v, v))) ∧
     (d.pinState c = .active → d.aout c = some ((List.range S).map fun j =>
       let v := (Claims.code (d.dpSet c d.ev.dt) (d.ch c) (d.present c) j).1 * full
       (v, if d.get (F.CH_DAC_CTRL_RECON c) = 0 then v else -v)))) ∧
  (∀ (d : Dev) (c : Fin 32) m (code : BitVec 12) p V uc, p = (d.spt c * d.ev.dt.toNat + m) % 16 →
     V = vtap (d.drops c (d.get ⟨R.CH_DAC_MAP c (p / 4), 8 * (p % 4), 5⟩)) → uc = (code.toInt + 2048).toNat →
     d.converted c m code = V (uc / 64) + (((uc % 64 : Nat) : Rat) / 64) * (V (uc / 64 + 1) - V (uc / 64))) ∧
  (∀ ds, vtap ds 0 = 0 ∧ ((ds.take 64).sum ≠ 0 → vtap ds 64 = 1) ∧ ∀ i j, i ≤ j → vtap ds i ≤ vtap ds j)

/-! ### Memories as the host writes and reads them (R42 to R46, R92, R155, R164, R270, R320 to R325, R344, R350, R353, R354, R457) -/

/-- Byte `x` of memory `m` after the write of `data` from `a` on in units of `u` bytes: a unit that the write covers in part
keeps its bytes while it is uncorrectable or poison-marked. -/
def Sys2Proof.Claims.written (m : Store) (u a : Nat) (data : List Byte) (x : Nat) : Byte :=
  if a ≤ x ∧ x < a + data.length ∧ (m.bad (x / u * u) = false ∨ (a ≤ x / u * u ∧ x / u * u + u ≤ a + data.length))
  then data.getD (x - a) 0 else m.byte x

/-- Memory `n` is `m` after that write: its bytes; a unit written whole loses its mark, every other mark stays. -/
def Sys2Proof.Claims.Wrote (m n : Store) (u a : Nat) (data : List Byte) : Prop :=
  (∀ x, n.byte x = Claims.written m u a data x) ∧
  (∀ x, x % u = 0 → n.bad x = (m.bad x && !decide (a ≤ x ∧ x + u ≤ a + data.length)))

/-- What a write or read of waveform memory leaves alone: every channel, every other memory, every register but those of
HBM and MEM before the pseudo-channel states and CLK.RUN_0, and everything else but the page state and the clock requests. -/
def Sys2Proof.Claims.MemoryTraffic (d t : Dev) : Prop :=
  AllChans d t ∧ t.mem = { d.mem with hbm := t.mem.hbm } ∧
  (∀ r, r < 0x100000 ∨ 0x180100 ≤ r → r ≠ R.CLK_RUN 0 → t.rd r = d.rd r) ∧ RestSame { d with hbm := t.hbm, clk := t.clk } t

/-- PROGRAM_STORE_WRITE is denied while a run goes on (R92); DESCRIPTOR_WRITE (R155, R457); OASIS_WRITE is denied in an enabled
stage or head area (R164, R353), and a port F write in its cycle comes first (R350); each abandons the memory test of its region
(R357). CONTEXT_WRITE writes every byte but STATE of an OFF ring, and the open bytes of a bound one (R270). A host write of several
dwords through a window is one access of its memory (R43, R359). BAR4_WRITE is received
in order (R24, R320) and wakes its stacks (R432); a received write is whole in HBM when it lands, its bytes written unless their
pseudo-channel is FENCED (R321, R324, R344). A write that runs past the window does nothing. BAR4_READ, of at most 4,096 bytes,
answers the bytes below the capacity behind the writes received before it, 0xFF where a unit is poisoned, 0 at and above the
capacity, with a poisoned completion for poison (R320, R322, R324, R325, R344); where a rate change or a slice holds the memory it
waits (R335, R340), and after a TRIP it completes with data that the spec does not state (R399). WINDOW_READ answers the bytes of a
context, a segment table, a program store or Oasis (R43, R46, R353, R354, R457), at most up to the next 4 KiB boundary, all ones in
a unit that is uncorrectable (bytes of such a context are not stated), bytes of a register dword or two whole ones (R42, R44), or
PROD and CONS of a doorbell (R277). No read changes the contents of a memory. That a wrong access captures the address of its dword
and sets BAD_WIDTH alone is log entry 19. -/
def Obligations.MemoriesAreWrittenAndReadByUnits : Prop :=
  ((∀ c off data s e, e = s.dev.wakeCluster (clu c) →
     (0x40000 < off + data.length → Becomes (.programStoreWrite c off data) s e) ∧
     (∀ f, f = e.abandonOver .programStore (progAt c off) data.length → off + data.length ≤ 0x40000 →
       (e.ch c).st ∈ [ChSt.idle, .faulted, .halted] →
       ∃ m, Claims.Wrote e.mem.prog m 8 (progAt c off) data ∧
         Becomes (.programStoreWrite c off data) s { f with mem := { e.mem with prog := m } }) ∧
     (off + data.length ≤ 0x40000 → (e.ch c).st ∉ [ChSt.idle, .faulted, .halted] →
       Becomes (.programStoreWrite c off data) s (e.set (F.CH_SEQ_STATUS_WR_DENIED c) 1))) ∧
   (∀ k off data s e, e = s.dev.wakeCluster k.val →
     (0x40000 < off + data.length → Becomes (.descriptorWrite k off data) s s.dev) ∧
     (∀ f, f = e.abandonOver .segTable (segAt k off) data.length → off + data.length ≤ 0x40000 →
       ∃ m, Claims.Wrote e.mem.segtab m 8 (segAt k off) data ∧
       Becomes (.descriptorWrite k off data) s { f with mem := { e.mem with segtab := m } })) ∧
   (∀ k off data s e, e = s.dev.wakeCluster k.val →
     (0x800000 < off + data.length → ∀ b, Becomes (.oasisWrite k off data b) s s.dev) ∧
     (off + data.length ≤ 0x800000 → e.inArea k off data.length = true →
       Becomes (.oasisWrite k off data false) s (e.set (F.CL_IRQ_STATUS_OASIS_DENIED k) 1)) ∧
     (∀ f g, f = ((unitsOf 64 off data.length).filter fun u => u < off || off + data.length < u + 64).foldl
         (fun (d : Dev) u => d.touchOasis k u) e → g = f.abandonOver .oasis (oasisAt k off) data.length →
       off + data.length ≤ 0x800000 → e.inArea k off data.length = false → ∃ m,
       Claims.Wrote f.mem.oasis m 64 (oasisAt k off) data ∧ (∀ x, f.mem.oasis.byte x = e.mem.oasis.byte x) ∧
       Becomes (.oasisWrite k off data false) s { g with mem := { f.mem with oasis := m } }) ∧
     (∀ n, s.dev.inArea k off data.length = false → off % 64 = 0 → data.length = 64 → off + 64 ≤ 0x800000 →
       n = (if s.dev.mem.oasis.bytes (oasisAt k off) 64 = data then s.dev else s.dev.countSat (F.CL_OASIS_CNT_COUNT k 2)) →
       ∀ t, Becomes (.oasisWrite k off data false) { s with dev := n } t → Becomes (.oasisWrite k off data true) s t)) ∧
   (∀ off data s, (0x800000 < off + data.length → Becomes (.contextWrite off data) s s.dev) ∧
     (off + data.length ≤ 0x800000 → (∀ x, off ≤ x → x < off + data.length → s.dev.ctxBad (x / 32) = false) →
       Ends (.contextWrite off data) s fun t =>
         (∀ x, t.mem.ctx.byte x = if off ≤ x ∧ x < off + data.length ∧
           (if s.dev.ringState (x / 32) = 0 then x % 32 ≠ 0x0B else ctxOpen (x % 32) = true)
           then data.getD (x - off) 0 else s.dev.mem.ctx.byte x) ∧
         ((∃ x, off ≤ x ∧ x < off + data.length ∧ s.dev.ringState (x / 32) ≠ 0 ∧ ctxOpen (x % 32) = false) →
           t.get F.CARAVAN_IRQ_STATUS_CTX_DENIED = 1) ∧
         t.mem = { s.dev.mem with ctx := t.mem.ctx } ∧ AllChans s.dev t ∧
         RegsBut s.dev t [R.CLK_RUN 0, R.CARAVAN_IRQ_STATUS, R.CARAVAN_ERR])) ∧
   (∀ a v more w bs s e, s.dev.hostReach = true → windowOf a = some w → bs = (v :: more).flatMap (fun x => leBytes 4 x.toNat) →
     e = (s.dev.wakeFor a).wakeFor a → ∀ t, t = exec (.registerWrite a 0xF v false more) s →
     (∀ k off, w = .oasis k off → t = exec (.oasisWrite k off bs false) { s with dev := e }) ∧
     (∀ k off, w = .segTable k off → t = exec (.descriptorWrite k off bs) { s with dev := e }) ∧
     (∀ off, w = .context off → t = exec (.contextWrite off bs) { s with dev := e }) ∧
     (∀ c off, w = .program c off → Becomes (.registerWrite a 0xF v false more) s (e.progWrite c off bs))) ∧
   (∀ (d : Dev) a n, (d.bar4Reach a n = true ↔ d.hostReach = true ∧ a + n ≤ 2 ^ d.board.barLog2) ∧
     d.rouse a n = (unitsOf 256 a n).foldl (fun (e : Dev) u => e.wakeStack (e.pcOf u / 32)) d) ∧
   (∀ a data s, (s.dev.bar4Reach a data.length = false → Becomes (.bar4Write a data) s s.dev) ∧
     (∀ cap part e, cap = s.dev.capacity → part = data.take (cap - a) → s.dev.bar4Reach a data.length = true →
       e = (if part = [] then s.dev else { s.dev.rouse a part.length with
         hbm := { s.dev.hbm with posted := s.dev.hbm.posted ++ [(a, part)], received := s.dev.hbm.received + 1 } }) →
       (a + data.length ≤ cap → Becomes (.bar4Write a data) s e) ∧
       (cap < a + data.length → Becomes (.bar4Write a data) s ((e.memCapture 1 (max a cap) 3).set F.MEM_IRQ_STATUS_BEYOND 1)))) ∧
   (∀ (d : Dev) a part rest t, d.hbm.posted = (a, part) :: rest → t = d.land (d.hbm.landed + 1) →
     t.hbm.posted = rest ∧ (∀ x, t.mem.hbm.byte x =
       if d.fencedAt (x / 64 * 64) = true then d.mem.hbm.byte x else Claims.written d.mem.hbm 64 a part x) ∧
     (∀ x, a ≤ x → x < a + part.length → d.fencedAt (x / 64 * 64) = true → t.get F.MEM_IRQ_STATUS_FENCED_WR = 1) ∧
     t.reply = d.reply ∧ Claims.MemoryTraffic d t)) ∧
  ((∀ (d : Dev) a n, d.heldAt a n = true ↔ d.hbm.newRate ≠ none ∨ d.get F.TELEM_THERM_LEVEL = 3 ∨
     ∃ t r p, d.hbm.slice = some t ∧ d.hbm.training = some (r, p) ∧ ∃ u ∈ unitsOf 256 a n, d.pcOf u = p) ∧
   (∀ a n s, (4096 < n ∨ s.dev.bar4Reach a n = false → Becomes (.bar4Read a n) s s.dev) ∧
     (∀ m, m = min n (s.dev.capacity - a) → s.dev.tripped = true → n ≤ 4096 → s.dev.bar4Reach a n = true → Ends (.bar4Read a n) s fun t =>
       t.reply.data.length = n ∧ (∀ i, m ≤ i → i < n → t.reply.data.getD i 0 = 0) ∧
       RestSame { s.dev with reply := t.reply, free := s.dev.free + (m + 1) } t ∧ t.mem = s.dev.mem ∧ AllChans s.dev t ∧ RegsBut s.dev t []) ∧
     (∀ m, m = min n (s.dev.capacity - a) → s.dev.tripped = false → n ≤ 4096 → s.dev.bar4Reach a n = true →
       s.dev.heldAt a m = true ∨ s.dev.hbm.reads ≠ [] → Becomes (.bar4Read a n) s
       { s.dev with hbm := { s.dev.hbm with reads := s.dev.hbm.reads ++ [(a, n, s.dev.hbm.received)] } }) ∧
     (∀ cap v, cap = s.dev.capacity → v = s.dev.land s.dev.hbm.received → s.dev.tripped = false → n ≤ 4096 → s.dev.bar4Reach a n = true →
       s.dev.heldAt a (min n (cap - a)) = false → s.dev.hbm.reads = [] → Ends (.bar4Read a n) s fun t =>
       t.reply.data.length = n ∧
       (∀ i, i < n → t.reply.data.getD i 0 = if cap ≤ a + i then 0
         else if v.poisoned ((a + i) / 64 * 64) = true then 0xFF else v.mem.hbm.byte (a + i)) ∧
       (t.reply.ep = true ↔ ∃ i, i < n ∧ a + i < cap ∧ v.poisoned ((a + i) / 64 * 64) = true) ∧
       (∀ x, t.mem.hbm.byte x = s.dev.mem.hbm.byte x) ∧ t.hbm.posted = s.dev.hbm.posted ∧
       (cap < a + n → t.get F.MEM_IRQ_STATUS_BEYOND = 1) ∧ Claims.MemoryTraffic s.dev t)) ∧
   (∀ b a n s, s.dev.hostReach = false → Becomes (.windowRead a n b) s s.dev) ∧
   (∀ a s r, s.dev.hostReach = true → windowOf a = none →
     (∀ n, 1 ≤ n → a % 4 + n ≤ 4 → r = s.dev.readDword (a / 4 * 4) →
       Becomes (.windowRead a n false) s (r.1.replyWith (((leBytes 4 r.2.toNat).drop (a % 4)).take n) false)) ∧
     (∀ h, a % 8 = 0 → r = s.dev.readDword a → h = r.1.readDword (a + 4) →
       Becomes (.windowRead a 8 false) s (h.1.replyWith (leBytes 4 r.2.toNat ++ leBytes 4 h.2.toNat) false)) ∧
     (∀ n, n = 0 ∨ 4 < a % 4 + n → n ≠ 8 ∨ a % 8 ≠ 0 →
       Becomes (.windowRead a n false) s ((Claims.withError s.dev 3 a).replyWith (List.replicate n 0) false))) ∧
   (∀ off n s, s.dev.hostReach = true → Ends (.windowRead off n true) s fun t =>
     t.reply.data.length = n ∧ t.reply.ep = false ∧ t.mem = s.dev.mem ∧ AllChans s.dev t ∧
     (∀ q, off = 8 * q → n = 8 → s.dev.mem.ctx.bad (32 * q + 8) = false → s.dev.mem.ctx.bad (32 * q + 16) = false →
       t.reply.data = s.dev.mem.ctx.bytes (32 * q + 0x0C) 4 ++ s.dev.mem.ctx.bytes (32 * q + 0x10) 4)) ∧
   (∀ a len s n, n = min len (4096 - a % 4096) → s.dev.hostReach = true →
     (∀ off, windowOf a = some (.context off) → Ends (.windowRead a len false) s fun t =>
       t.reply.data.length = n ∧ t.reply.ep = false ∧
       (∀ i, i < n → s.dev.mem.ctx.bad ((off + i) / 8 * 8) = false → t.reply.data.getD i 0 = s.dev.mem.ctx.byte (off + i)) ∧
       t.mem = s.dev.mem ∧ AllChans s.dev t) ∧
     (∀ k off, windowOf a = some (.segTable k off) → Ends (.windowRead a len false) s fun t =>
       t.reply = ⟨s.dev.mem.segtab.seen 8 (segAt k off) n, (unitsOf 8 (segAt k off) n).any s.dev.mem.segtab.bad⟩ ∧
       (∀ x, t.mem.segtab.byte x = s.dev.mem.segtab.byte x) ∧ t.mem = { s.dev.mem with segtab := t.mem.segtab } ∧ AllChans s.dev t) ∧
     (∀ c off, windowOf a = some (.program c off) → Ends (.windowRead a len false) s fun t =>
       t.reply = ⟨s.dev.mem.prog.seen 8 (progAt c off) n, (unitsOf 8 (progAt c off) n).any s.dev.mem.prog.bad⟩ ∧
       (∀ x, t.mem.prog.byte x = s.dev.mem.prog.byte x) ∧ t.mem = { s.dev.mem with prog := t.mem.prog } ∧ AllChans s.dev t) ∧
     (∀ k off, windowOf a = some (.oasis k off) → Ends (.windowRead a len false) s fun t =>
       t.reply = ⟨s.dev.mem.oasis.seen 64 (oasisAt k off) n, (unitsOf 64 (oasisAt k off) n).any s.dev.mem.oasis.bad⟩ ∧
       (∀ x, t.mem.oasis.byte x = s.dev.mem.oasis.byte x) ∧ t.mem = { s.dev.mem with oasis := t.mem.oasis } ∧ AllChans s.dev t)))

/-! ### Segments, stage buffers, target heads, copies (R166 to R171, R179, R181, R354) -/

/-- The record of a target entry: CODE, ABRT and REASON, with RELOAD cleared (R170). -/
def Sys2Proof.Claims.targetRecord (d : Dev) (c : Fin 32) (i : Fin 16) (code abrt reason : Nat) : Dev :=
  (((d.set (F.CL_TGT_STAT_CODE (clu c) (sub c) i) code).set (F.CL_TGT_STAT_ABRT (clu c) (sub c) i) abrt).set
    (F.CL_TGT_STAT_REASON (clu c) (sub c) i) reason).set (F.CL_TGT_CFG_RELOAD (clu c) (sub c) i) 0

/-- A head load ends FAILED or REJECTED with a reason, and TGT_FAIL is set (R170). -/
def Sys2Proof.Claims.targetFails (d : Dev) (c : Fin 32) (i : Fin 16) (code reason : Nat) : Dev :=
  (Claims.targetRecord d c i code 0 reason).clCause c (F.CL_CH_IRQ_STATUS_TGT_FAIL (clu c) (sub c))

/-- The head slot of a target entry emptied: RESIDENT and PINNED read 0 (R170). -/
def Sys2Proof.Claims.slotEmpty (d : Dev) (c : Fin 32) (i : Fin 16) : Dev :=
  (({ d with heads := d.heads.filter (·.1 ≠ entryKey c i) } : Dev).set (F.CL_TGT_STAT_RESIDENT (clu c) (sub c) i) 0).set
    (F.CL_TGT_STAT_PINNED (clu c) (sub c) i) 0

/-- A head load starts on an emptied slot, CODE RUNNING; without a head area it is REJECTED with REASON 0b011 (R170). -/
def Sys2Proof.Claims.loadStarts (d : Dev) (c : Fin 32) (i : Fin 16) : Dev :=
  let e := Claims.slotEmpty (d.wakeCluster (clu c)) c i
  if e.flag (F.CL_STAGE_CTRL_HEAD_EN (clu c) (sub c)) = false then Claims.targetFails e c i 6 3
  else
    let g := (Claims.targetRecord e c i 1 0 0).set (F.CL_TGT_CFG_RELOAD (clu c) (sub c) i) 1
    { g with hbm := { g.hbm with loads := g.hbm.loads ++ [(entryKey c i, g.get (F.CL_TGT_CFG_INDEX (clu c) (sub c) i))] } }

/-- The running or queued load of a target entry dropped. -/
def Sys2Proof.Claims.loadDropped (d : Dev) (c : Fin 32) (i : Fin 16) : Dev :=
  { (d.set (F.CL_TGT_CFG_PENDING (clu c) (sub c) i) 0) with
    hbm := { d.hbm with loads := d.hbm.loads.filter (·.1 ≠ entryKey c i) } }

/-- One more request sent to waveform memory by the playback ports. -/
def Sys2Proof.Claims.asked (d : Dev) : Dev := { d with hbm := { d.hbm with reqs := d.hbm.reqs + 1 } }

/-- STAGE_REQUEST requests the next block of the first streamed play that still has one, when the buffer is enabled and has
room, a STREAM ring has published its records, and no channel of the cluster goes first (R166, R168). STAGE_FILL_ARRIVE brings
the oldest requested block of a channel, when the playback port of the cluster has no older request in flight (R23) and no rate
change or slice holds its bytes (R335, R340, R347): the bytes of waveform memory stand in the stage buffer in Oasis, and poison is noted (R163, R166, R179, R349). -/
def Obligations.StageBuffersFillInOrder : Prop :=
  (∀ c s f x, x = s.dev.ch c → x.nextFetch = some f →
    (s.dev.flag (F.CL_STAGE_CTRL_EN (clu c) (sub c)) = true → x.stageUsed + f.d.drawBytes ≤ 0x40000 →
      (∀ q, f.ring = some q → x.claimed q + ringRecords f.d.fmt ≤ s.dev.ready q) → s.dev.goesFirst c f = true →
      Becomes (.stageRequest c) s (Claims.asked <| s.dev.setCh c { x with
        stage := x.stage ++ [⟨f.pid, f.next, f.d.drawBytes, x.grans f.d.drawBytes, s.dev.hbm.reqs, false, none⟩]
        fetches := x.fetches.map fun g => if g.pid = f.pid then { g with next := g.next + 1 } else g })) ∧
    (s.dev.flag (F.CL_STAGE_CTRL_EN (clu c) (sub c)) = false ∨ 0x40000 < x.stageUsed + f.d.drawBytes ∨
      (∃ q, f.ring = some q ∧ s.dev.ready q < x.claimed q + ringRecords f.d.fmt) ∨ s.dev.goesFirst c f = false →
      Becomes (.stageRequest c) s s.dev)) ∧
  (∀ c s, (s.dev.ch c).nextFetch = none → Becomes (.stageRequest c) s s.dev) ∧
  (∀ c s x, x = s.dev.ch c →
    (x.stage.find? (!·.arrived) = none ∨
      (∃ b f pl, x.stage.find? (!·.arrived) = some b ∧ x.fetches.find? (·.pid = b.pid) = some f ∧
        pl = s.dev.blockPlace c f b.idx ∧ ∃ r ∈ pl.1 ++ pl.2, s.dev.heldAt r.1 r.2 = true) ∨
      (∃ b, x.stage.find? (!·.arrived) = some b ∧ ∃ e y, clu e = clu c ∧ y ∈ (s.dev.ch e).stage ∧ y.arrived = false ∧ y.seq < b.seq) →
      Becomes (.stageFillArrive c) s s.dev) ∧
    (∀ b f pl data, x.stage.find? (!·.arrived) = some b → x.fetches.find? (·.pid = b.pid) = some f →
      (∀ r ∈ pl.1 ++ pl.2, s.dev.heldAt r.1 r.2 = false) →
      (∀ e y, clu e = clu c → y ∈ (s.dev.ch e).stage → y.arrived = false → b.seq ≤ y.seq) →
      pl = s.dev.blockPlace c f b.idx → data = (pl.1 ++ pl.2).flatMap (fun r => s.dev.mem.hbm.bytes r.1 r.2) →
      (f.ring = none → pl = ([(f.d.addr + b.idx * f.d.blockBytes, f.d.blockBytes)],
        if f.d.hasTrack then [(f.d.track + b.idx * 32, 32)] else [])) ∧
      Ends (.stageFillArrive c) s fun t =>
        t.ch c = { x with
          stage := x.stage.map fun y => if y.pid = b.pid && y.idx = b.idx then
            { y with arrived := true
                     poison := (pl.1.findSome? fun r => s.dev.firstPoison r.1 r.2) <|>
                       (pl.2.findSome? fun r => s.dev.firstPoison r.1 r.2) } else y
          panic := (t.ch c).panic } ∧
        OtherChans s.dev t c ∧
        t.get64 (R.CL_PORT_BYTES (clu c) 0 0) = s.dev.get64 (R.CL_PORT_BYTES (clu c) 0 0) + tk b.bytes ∧
        (s.dev.mem.oasis.ue = [] → s.dev.mem.oasis.poison = [] → b.grans.Nodup → data.length = 32 * b.grans.length →
          ∀ i g, b.grans[i]? = some g → ∀ j, j < 32 →
            t.mem.oasis.byte (oasisAt (clu c) (s.dev.granBase c g + j)) = data.getD (32 * i + j) 0) ∧
        (∀ a, (∀ g ∈ b.grans, ¬(oasisAt (clu c) (s.dev.granBase c g) ≤ a ∧ a < oasisAt (clu c) (s.dev.granBase c g) + 32)) →
          t.mem.oasis.byte a = s.dev.mem.oasis.byte a) ∧
        (∀ a, t.mem.hbm.byte a = s.dev.mem.hbm.byte a) ∧ t.mem = { s.dev.mem with hbm := t.mem.hbm, oasis := t.mem.oasis }))

/-- TGT_CFG_WRITE puts EN and INDEX in force; EN 0 aborts a load and empties the slot; EN rising, a new INDEX or RELOAD asks for
a load, queued behind one that runs. RELOAD with EN 0 ends REJECTED with REASON 0b100 (R170). HEAD_LOAD_END: a running load ends
FAILED for an unreadable (0b010) or unfit (0b001) descriptor or for poison (0b010); otherwise DONE, a pinned target PINNED
without blocks, a streamed one RESIDENT with the first N blocks of its segment in its slot in Oasis (R163, R170, R171, R179, R349,
R354). It does not end while a rate change or a slice holds what it reads (R335, R340). RESIDENT of a pinned target is log entry 31;
that loads go in order but for those whose slot still serves a play, and that a load whose head area is disabled meanwhile ends
REJECTED with REASON 0b011, log entry 48. -/
def Obligations.TargetsLoadTheirHeads : Prop :=
  ((∀ c i be v s e k j new, k = clu c → j = sub c →
     new = ((s.dev.wakeCluster k).rd (R.CL_TGT_CFG k j i) &&& 0xFFFF8000) |||
       (mergeBytes ((s.dev.wakeCluster k).rd (R.CL_TGT_CFG k j i)) be v &&& 0x7FFF) →
     e = (s.dev.wakeCluster k).wr (R.CL_TGT_CFG k j i) new →
     (new.getLsbD 14 = false → (be.getLsbD 1 && v.getLsbD 15) = false →
       (e.hbm.loads.any (·.1 = entryKey c i) = false → Becomes (.tgtCfgWrite c i be v) s (Claims.slotEmpty e c i)) ∧
       (e.hbm.loads.any (·.1 = entryKey c i) = true → Becomes (.tgtCfgWrite c i be v) s
         (Claims.slotEmpty (Claims.targetRecord (Claims.loadDropped e c i) c i 3 1 0) c i))) ∧
     (new.getLsbD 14 = true →
       ((s.dev.wakeCluster k).rd (R.CL_TGT_CFG k j i)).getLsbD 14 = false ∨
         bits ((s.dev.wakeCluster k).rd (R.CL_TGT_CFG k j i)) 13 0 ≠ bits new 13 0 ∨ (be.getLsbD 1 && v.getLsbD 15) = true →
       (e.hbm.loads.any (·.1 = entryKey c i) = true →
         Becomes (.tgtCfgWrite c i be v) s (e.set (F.CL_TGT_CFG_PENDING k j i) 1)) ∧
       (e.hbm.loads.any (·.1 = entryKey c i) = false → Becomes (.tgtCfgWrite c i be v) s (Claims.loadStarts e c i))) ∧
     (new.getLsbD 14 = true → ((s.dev.wakeCluster k).rd (R.CL_TGT_CFG k j i)).getLsbD 14 = true →
       bits ((s.dev.wakeCluster k).rd (R.CL_TGT_CFG k j i)) 13 0 = bits new 13 0 → (be.getLsbD 1 && v.getLsbD 15) = false →
       Becomes (.tgtCfgWrite c i be v) s e)) ∧
   (∀ c i s, (s.dev.flag (F.CL_TGT_CFG_EN (clu c) (sub c) i) = false →
       Becomes (.reload c i) s (Claims.targetFails (Claims.slotEmpty s.dev c i) c i 6 4)) ∧
     (s.dev.flag (F.CL_TGT_CFG_EN (clu c) (sub c) i) = true →
       (s.dev.hbm.loads.any (·.1 = entryKey c i) = true →
         Becomes (.reload c i) s (s.dev.set (F.CL_TGT_CFG_PENDING (clu c) (sub c) i) 1)) ∧
       (s.dev.hbm.loads.any (·.1 = entryKey c i) = false → Becomes (.reload c i) s (Claims.loadStarts s.dev c i))))) ∧
  ((∀ c i s, s.dev.hbm.loads.find? (·.1 = entryKey c i) = none ∨ s.dev.loadNext (clu c) (entryKey c i) = false ∨
       (∃ key idx, s.dev.hbm.loads.find? (·.1 = entryKey c i) = some (key, idx) ∧
         ∃ r ∈ s.dev.headRanges c idx, s.dev.heldAt r.1 r.2 = true) →
     Becomes (.headLoadEnd c i) s s.dev) ∧
   (∀ (d : Dev) c idx x, d.hintAt (clu c) idx = some x → x.streamed = true → d.segCheck c x = none →
     d.headRanges c idx = (x.addr, x.headN * x.blockBytes) :: if x.hasTrack then [(x.track, x.headN * 32)] else []) ∧
   (∀ c i s e idx k j, k = clu c → j = sub c → s.dev.hbm.loads.find? (·.1 = entryKey c i) = some (entryKey c i, idx) →
     (∀ r ∈ s.dev.headRanges c idx, s.dev.heldAt r.1 r.2 = false) → s.dev.loadNext k (entryKey c i) = true →
     e = (Claims.loadDropped s.dev c i).touchDesc k idx →
     ∃ t, (e.hintAt k idx = none → t = Claims.targetFails e c i 4 2) ∧
       (∀ x, e.hintAt k idx = some x → e.segCheck c x = none → x.streamed = true → e.flag (F.CL_STAGE_CTRL_HEAD_EN k j) = false →
         t = Claims.targetFails e c i 6 3) ∧
       (∀ x, e.hintAt k idx = some x → (e.segCheck c x).isSome = true → t = Claims.targetFails e c i 4 1) ∧
       (∀ x, e.hintAt k idx = some x → e.segCheck c x = none → x.streamed = false → t =
         (let g := ((Claims.targetRecord e c i 2 0 0).set (F.CL_TGT_STAT_PINNED k j i) 1).set (F.CL_TGT_STAT_RESIDENT k j i) 1
          { g with heads := e.heads.filter (·.1 ≠ entryKey c i) ++ [(entryKey c i, x)] })) ∧
       (∀ x n, e.hintAt k idx = some x → e.segCheck c x = none → x.streamed = true → e.flag (F.CL_STAGE_CTRL_HEAD_EN k j) = true →
         n = x.headN → (∀ a, a < n * x.blockBytes → e.poisoned ((x.addr + a) / 64 * 64) = false) →
         (x.hasTrack = true → ∀ a, a < n * 32 → e.poisoned ((x.track + a) / 64 * 64) = false) →
         ∀ g, g = e.oasisPut k (e.slotBase c i) (e.headBytes x n) →
         (∀ m, m < n * x.drawBytes → g.mem.oasis.bad (oasisAt k ((e.slotBase c i + m) / 64 * 64)) = false →
           g.mem.oasis.byte (oasisAt k (e.slotBase c i + m)) = (e.headBytes x n).getD m 0) ∧
         t.mem.oasis.cells = g.mem.oasis.cells ∧
         ((g.badWord k [(e.slotBase c i, n * x.drawBytes)]).isSome = true →
           t.get (F.CL_TGT_STAT_CODE k j i) = 4 ∧ t.get (F.CL_TGT_STAT_REASON k j i) = 2 ∧ t.heads = e.heads) ∧
         (g.badWord k [(e.slotBase c i, n * x.drawBytes)] = none →
           t.get (F.CL_TGT_STAT_CODE k j i) = 2 ∧ t.get (F.CL_TGT_STAT_RESIDENT k j i) = 1 ∧
           t.heads = e.heads.filter (·.1 ≠ entryKey c i) ++ [(entryKey c i, x)])) ∧
       (∀ x a, e.hintAt k idx = some x → e.segCheck c x = none → x.streamed = true → e.flag (F.CL_STAGE_CTRL_HEAD_EN k j) = true →
         a < x.headN * x.blockBytes → e.poisoned ((x.addr + a) / 64 * 64) = true →
         t.get (F.CL_TGT_STAT_CODE k j i) = 4 ∧ t.get (F.CL_TGT_STAT_REASON k j i) = 2 ∧ t.heads = e.heads) ∧
       (s.dev.flag (F.CL_TGT_CFG_PENDING k j i) = false → Becomes (.headLoadEnd c i) s t) ∧
       (s.dev.flag (F.CL_TGT_CFG_PENDING k j i) = true → Becomes (.headLoadEnd c i) s (Claims.loadStarts t c i))))

/-- Oasis `n` of cluster `k` is `m` after the first `u` units of copy `f` from waveform memory (R181). -/
def Sys2Proof.Claims.Copied (d : Dev) (k : Fin 8) (f : FillOp) (u : Nat) (n : Store) : Prop :=
  ∀ x, n.byte x = if oasisAt k f.dst ≤ x ∧ x < oasisAt k f.dst + 64 * u then d.mem.hbm.byte (f.src + (x - oasisAt k f.dst))
    else d.mem.oasis.byte x

/-- CL.FILL copies whole units in ascending order (R181): FILL_GO captures the copy, REJECTED with the lowest reason that
applies, or queued; FILL_END ends DONE with every unit copied, or FAILED with REASON 0b101 at the first poisoned unit;
FILL_ABORT leaves a prefix of whole units, of a length the spec leaves open, and none of a copy that a rate change holds (R335).
No copy ends while a rate change or a slice holds its source (R335, R340). That the lowest REASON is the one given where several
apply is log entry 48. -/
def Obligations.CopiesFillOasis : Prop :=
  (∀ k s, s.dev.fills[k].isSome = true → Becomes (.fillGo k) s (s.dev.set (F.CL_FILL_CTRL_PENDING k) 1)) ∧
  (∀ (k : Fin 8) s f e, s.dev.fills[k] = none → e = s.dev.wakeCluster k →
    f = (⟨(s.dev.get64 (R.CL_FILL_SRC k 0)).toNat % 2 ^ 37 / 64 * 64, s.dev.get (F.CL_FILL_DST_OFFSET k) / 64 * 64,
      s.dev.get (F.CL_FILL_LEN_LEN k)⟩ : FillOp) →
    ((f.len = 0 ∨ f.len % 64 ≠ 0) → Becomes (.fillGo k) s (e.fillRecord k 6 0 1)) ∧
    (f.len ≠ 0 → f.len % 64 = 0 → e.capacity < f.src + f.len → Becomes (.fillGo k) s (e.fillRecord k 6 0 2)) ∧
    (f.len ≠ 0 → f.len % 64 = 0 → f.src + f.len ≤ e.capacity → 0x800000 < f.dst + f.len →
      Becomes (.fillGo k) s (e.fillRecord k 6 0 3)) ∧
    (f.len ≠ 0 → f.len % 64 = 0 → f.src + f.len ≤ e.capacity → f.dst + f.len ≤ 0x800000 → e.inArea k f.dst f.len = true →
      Becomes (.fillGo k) s (e.fillRecord k 6 0 4)) ∧
    (f.len ≠ 0 → f.len % 64 = 0 → f.src + f.len ≤ e.capacity → f.dst + f.len ≤ 0x800000 → e.inArea k f.dst f.len = false →
      Becomes (.fillGo k) s { (((e.set (F.CL_FILL_STATUS_CODE k) 1).set (F.CL_FILL_STATUS_ABRT k) 0).set
        (F.CL_FILL_STATUS_REASON k) 0).set (F.CL_FILL_CTRL_GO k) 1 with fills := e.fills.set k (some f) })) ∧
  (∀ (k : Fin 8) s, s.dev.fills[k] = none → Becomes (.fillEnd k) s s.dev ∧
    Becomes (.fillAbort k) s ((s.dev.set (F.CL_FILL_STATUS_ABRT k) 2).set (F.CL_FILL_CTRL_PENDING k) 0)) ∧
  (∀ (k : Fin 8) s, (∃ f, s.dev.fills[k] = some f ∧ s.dev.heldAt f.src f.len = true) ∨ (∃ p ∈ s.dev.hbm.loads, p.1 / 64 = k.val ∧ s.dev.slotBusy (keyCh p.1) (p.1 % 16) = false) →
    Becomes (.fillEnd k) s s.dev) ∧
  (∀ (k : Fin 8) s f, s.dev.fills[k] = some f → f.src % 64 = 0 → f.dst % 64 = 0 →
    (s.dev.heldAt f.src f.len = false → (∀ p ∈ s.dev.hbm.loads, p.1 / 64 = k.val → s.dev.slotBusy (keyCh p.1) (p.1 % 16) = true) →
      s.dev.flag (F.CL_FILL_CTRL_PENDING k) = false →
      ((∀ i, i < f.len / 64 → s.dev.poisoned (f.src + 64 * i) = false) → Ends (.fillEnd k) s fun t =>
        Claims.Copied s.dev k f (f.len / 64) t.mem.oasis ∧ t.get (F.CL_FILL_STATUS_CODE k) = 2 ∧ t.get (F.CL_FILL_CTRL_GO k) = 0 ∧
        t.get (F.CL_IRQ_STATUS_FILL k) = 1 ∧ t.fills[k] = none ∧ AllChans s.dev t) ∧
      (∀ n, n < f.len / 64 → s.dev.poisoned (f.src + 64 * n) = true → (∀ i, i < n → s.dev.poisoned (f.src + 64 * i) = false) →
        Ends (.fillEnd k) s fun t =>
          Claims.Copied s.dev k f n t.mem.oasis ∧ t.get (F.CL_FILL_STATUS_CODE k) = 4 ∧ t.get (F.CL_FILL_STATUS_REASON k) = 5 ∧
          t.get (F.CL_FILL_CTRL_GO k) = 0 ∧ t.get (F.CL_IRQ_STATUS_FILL k) = 1 ∧ t.fills[k] = none ∧ AllChans s.dev t)) ∧
    (64 ≤ f.len → Ends (.fillAbort k) s fun t => (∃ n, n ≤ f.len / 64 ∧ (s.dev.memHeld = true → n = 0) ∧ Claims.Copied s.dev k f n t.mem.oasis) ∧
      t.get (F.CL_FILL_STATUS_CODE k) = 3 ∧ t.get (F.CL_FILL_STATUS_ABRT k) = 1 ∧ t.get (F.CL_FILL_CTRL_GO k) = 0 ∧
      t.get (F.CL_FILL_CTRL_PENDING k) = 0 ∧ t.fills[k] = none ∧ AllChans s.dev t))

/-! ### Rings (R265 to R292, R354) -/

/-- A Caravan command ends with CODE and REASON (R271). -/
def Sys2Proof.Claims.caravanEnds (d : Dev) (code reason : Nat) : Dev :=
  ((d.set F.CARAVAN_CMD_STATUS_CODE code).set F.CARAVAN_CMD_STATUS_REASON reason).set F.CARAVAN_IRQ_STATUS_CMD 1

/-- STATE of ring `q`, with a cause, in its context (R269). -/
def Sys2Proof.Claims.ringNow (d : Dev) (q st cause : Nat) : Dev :=
  { d with mem := { d.mem with ctx := d.mem.ctx.write (32 * q + 0x0B) [BitVec.ofNat 8 (st + 4 * cause)] } }

/-- BIND, UNBIND, RECHECK (R271, R279, R354): an unreadable context is recorded; rejected for the first reason that applies; BIND
makes the ring LIVE and its slot active while fewer than 16 are (R281); UNBIND makes it OFF and drops its doorbells and record
copies, after which the doorbells behind those may take effect; RECHECK reads a stale record again, later where a rate change or a
slice holds it (R335, R340; that the command ends all the same is log entry 36). DOORBELL (R273 to R276): without the link nothing
happens; a wrong size, an OFF ring, a wrong check word or an index outside the window counts and is captured; an accepted one wakes
the owner's cluster (R432) and joins the queue, from whose front those of device-to-host rings take effect, setting CONS.
PROD_ADVANCE (R24, R276, R290): the oldest accepted doorbell, the BAR4 writes before it whole, sets PROD of a host-to-device ring,
emits the arrival event, and re-reads a stale record; then those behind it that set CONS take effect. -/
def Obligations.RingsAreBoundAndMoved : Prop :=
  ((∀ q s e, e = ((s.dev.wakeCaravan.set F.CARAVAN_CMD_Q q.toNat).set F.CARAVAN_CMD_OP 0).ctxError q.toNat →
     (e.ringState q.toNat ≠ 0 → Becomes (.bind q) s (Claims.caravanEnds e 6 5)) ∧
     (e.ringState q.toNat = 0 → e.badFields q.toNat = true → Becomes (.bind q) s (Claims.caravanEnds e 6 1)) ∧
     (e.ringState q.toNat = 0 → e.badFields q.toNat = false →
       e.capacity < e.ctx q.toNat 0 4 % 2 ^ 25 * 4096 + 64 * 2 ^ e.log2 q.toNat → Becomes (.bind q) s (Claims.caravanEnds e 6 2)) ∧
     (e.ringState q.toNat = 0 → e.badFields q.toNat = false →
       e.ctx q.toNat 0 4 % 2 ^ 25 * 4096 + 64 * 2 ^ e.log2 q.toNat ≤ e.capacity →
       (e.prod q.toNat ≠ e.cons q.toNat → Becomes (.bind q) s (Claims.caravanEnds e 6 4)) ∧
       (e.prod q.toNat = e.cons q.toNat → e.slotTaken q.toNat = true → Becomes (.bind q) s (Claims.caravanEnds e 6 3)) ∧
       (∀ g, e.prod q.toNat = e.cons q.toNat → e.slotTaken q.toNat = false →
         g = ({ Claims.ringNow e q.toNat 1 0 with
           rings := { e.rings with stale := e.rings.stale.filter (·.1 ≠ q.toNat) } } : Dev) →
         ∀ (c : Fin 32) x slot, c = g.owner q.toNat → x = g.ch c → slot = g.ctx q.toNat 0x06 2 →
         (kindH2d (g.ringKind q.toNat) = true → x.active.length < 16 → slot ∉ x.active →
           Becomes (.bind q) s (Claims.caravanEnds (g.setCh c { x with active := x.active ++ [slot] }) 2 0)) ∧
         (kindH2d (g.ringKind q.toNat) = false ∨ 16 ≤ x.active.length ∨ slot ∈ x.active →
           Becomes (.bind q) s (Claims.caravanEnds g 2 0))))) ∧
   (∀ q s e, e = ((s.dev.wakeCaravan.set F.CARAVAN_CMD_Q q.toNat).set F.CARAVAN_CMD_OP 1).ctxError q.toNat →
     (e.ringState q.toNat = 0 → Becomes (.unbind q) s (Claims.caravanEnds e 6 5)) ∧
     (e.ringState q.toNat ≠ 0 → (kindH2d (e.ringKind q.toNat) && !(e.ch (e.owner q.toNat)).quiet) = true →
       Becomes (.unbind q) s (Claims.caravanEnds e 6 6)) ∧
     (e.ringState q.toNat ≠ 0 → (kindH2d (e.ringKind q.toNat) && !(e.ch (e.owner q.toNat)).quiet) = false →
       ∀ g, g = ({ Claims.ringNow e q.toNat 0 0 with
         rings := { e.rings with stale := e.rings.stale.filter (·.1 ≠ q.toNat), again := e.rings.again.filter (· ≠ q.toNat) }
         chans := e.chans.map fun (x : Chan) => { x with recs := x.recs.filter (·.q ≠ q.toNat) } } : Dev) →
       Becomes (.unbind q) s (Claims.caravanEnds (g.takeCons (e.rings.doorbells.filter (·.q ≠ q.toNat))) 2 0))) ∧
   (∀ q s e, e = ((s.dev.wakeCaravan.set F.CARAVAN_CMD_Q q.toNat).set F.CARAVAN_CMD_OP 2).ctxError q.toNat →
     (e.ringState q.toNat ≠ 2 ∨ e.staleOf q.toNat = none → Becomes (.recheck q) s (Claims.caravanEnds e 6 5)) ∧
     (e.ringState q.toNat = 2 → e.staleOf q.toNat ≠ none → Becomes (.recheck q) s (Claims.caravanEnds (e.reRead q.toNat) 2 0))) ∧
   (∀ (d : Dev) q i g, d.staleOf q = some i → g = d.reRead q →
     (d.rings.again ≠ [] ∨ d.heldAt (d.recAddr q i) 64 = true → g = { d with rings := { d.rings with again := d.rings.again ++ [q] } }) ∧
     (d.rings.again = [] → d.heldAt (d.recAddr q i) 64 = false →
       ((d.firstPoison (d.recAddr q i) 64).isSome = true ∨ d.mem.hbm.byte (d.recAddr q i) = d.gen q i →
         g.mem.ctx.byte (32 * q + 0x0B) = 1 ∧ g.staleOf q = none) ∧
       (d.firstPoison (d.recAddr q i) 64 = none → d.mem.hbm.byte (d.recAddr q i) ≠ d.gen q i →
         g.mem.ctx = d.mem.ctx ∧ g.rings = d.rings ∧ g.chans = d.chans)))) ∧
  ((∀ (d : Dev) b rest, d.takeCons [] = { d with rings := { d.rings with doorbells := [] } } ∧
     (∀ e, kindD2h (d.ringKind b.q) = true → e = d.abandonAt .context (32 * b.q) → d.takeCons (b :: rest) =
       Dev.takeCons { e with mem := { e.mem with ctx := e.mem.ctx.write (32 * b.q + 0x10) (leBytes 4 b.index.toNat) } } rest) ∧
     (kindD2h (d.ringKind b.q) = false → d.takeCons (b :: rest) = { d with rings := { d.rings with doorbells := b :: rest } })) ∧
   (∀ off size v s, 2 ^ 18 ≤ off / 8 ∨ s.dev.hostReach = false → Becomes (.doorbell off size v) s s.dev) ∧
   (∀ off size v s e q i p, q = off / 8 → q < 2 ^ 18 → s.dev.hostReach = true → e = s.dev.wakeCaravan.ctxError q →
     i = v.setWidth 32 → p = (match (e.rings.doorbells.filter (·.q = q)).getLast? with
       | some b => b.index | none => if kindH2d (e.ringKind q) then e.prod q else e.cons q) →
     let refused (cause : Nat) := Becomes (.doorbell off size v) s
       ((e.count64 (R.CARAVAN_CNT 3 0) 1).ringErr q cause F.CARAVAN_IRQ_STATUS_DB_ERR)
     (size ≠ 8 ∨ off % 8 ≠ 0 → refused 4) ∧
     (size = 8 → off % 8 = 0 →
       (e.ringState q = 0 → refused 1) ∧
       (e.ringState q ≠ 0 → bits v 63 32 ≠ q % 2 ^ 16 → refused 2) ∧
       (e.ringState q ≠ 0 → bits v 63 32 = q % 2 ^ 16 →
         (kindH2d (e.ringKind q) = true → 2 ^ e.log2 q - (p - e.cons q).toNat < (i - p).toNat → refused 3) ∧
         (kindH2d (e.ringKind q) = false → (e.prod q - p).toNat < (i - p).toNat → refused 3) ∧
         ((if kindH2d (e.ringKind q) then (i - p).toNat ≤ 2 ^ e.log2 q - (p - e.cons q).toNat
             else (i - p).toNat ≤ (e.prod q - p).toNat) →
           ∀ g, g = (if kindH2d (e.ringKind q) then (e.count64 (R.CARAVAN_CNT 2 0) 1).wakeCluster (clu (e.owner q))
             else e.count64 (R.CARAVAN_CNT 2 0) 1) →
           Becomes (.doorbell off size v) s (g.takeCons (g.rings.doorbells ++ [⟨q, i, g.hbm.received⟩])))))) ∧
   (∀ (d : Dev) n, d.writesHeld n = true ↔ ∃ w ∈ d.hbm.posted.take (n - (d.hbm.received - d.hbm.posted.length)),
     d.heldAt w.1 w.2.length = true) ∧
   (∀ q s, (∀ b rest, s.dev.rings.doorbells = b :: rest → b.q ≠ q.toNat ∨ kindH2d (s.dev.ringKind q.toNat) = false ∨
       s.dev.writesHeld b.writes = true) → Becomes (.prodAdvance q) s s.dev) ∧
   (∀ q s b rest e, s.dev.rings.doorbells = b :: rest → b.q = q.toNat → kindH2d (s.dev.ringKind q.toNat) = true →
     s.dev.writesHeld b.writes = false → e = (s.dev.land b.writes).ctxError q.toNat →
     (e.ringState q.toNat = 0 → Becomes (.prodAdvance q) s (e.takeCons rest)) ∧
     (∀ g, g = ({ e with mem := { e.mem with ctx := e.mem.ctx.write (32 * q.toNat + 0x0C) (leBytes 4 b.index.toNat) } } : Dev) →
       e.ringState q.toNat ≠ 0 → g.ringState q.toNat ≠ 2 →
       (e.prod q.toNat = b.index → Becomes (.prodAdvance q) s (g.takeCons rest)) ∧
       (e.prod q.toNat ≠ b.index → g.ctx q.toNat 0x09 1 % 2 ≠ 1 → Becomes (.prodAdvance q) s (g.takeCons rest)) ∧
       (e.prod q.toNat ≠ b.index → g.ctx q.toNat 0x09 1 % 2 = 1 → (g.arrival q.toNat).ringState q.toNat ≠ 2 →
         Becomes (.prodAdvance q) s
           ((g.emit (BitVec.ofNat 8 (g.ctx q.toNat 0x0A 1)) g.ev.dt 0 5 (BitVec.ofNat 16 q.toNat) false (g.ev.dt + 1)).takeCons rest))) ∧
     (∀ g, g = (if e.prod q.toNat ≠ b.index then (e.setCtx q.toNat 0x0C 4 b.index.toNat).arrival q.toNat
         else e.setCtx q.toNat 0x0C 4 b.index.toNat) →
       e.ringState q.toNat ≠ 0 → g.ringState q.toNat = 2 → Becomes (.prodAdvance q) s ((g.reRead q.toNat).takeCons rest))))

/-- RECORD_FETCH puts a fresh or poisoned record in its owner's buffer, and wakes the owner's cluster (R432); a stale one stalls a
LIVE ring, and of two the earlier one stays the stale record (R279 to R281); an uncorrectable context is recorded (R354). One may be
fetched while it is among the first four ready ones, its slot active and the memory not held (R280, R281, R335, R340).
STATUS_RECORD moves the oldest record due into the queue of 256, or counts it lost (R287). D2H_RECORD_WRITE stores the oldest
queued record at PROD with its generation byte; a FENCED place loses it and stalls the ring (R285, R287). -/
def Obligations.RecordsAreFetchedAndWritten : Prop :=
  (∀ (d : Dev) q i, d.fetchable q i = true ↔ (d.ringKind q = 1 ∨ d.ringKind q = 2) ∧ (i - d.cons q).toNat < min 4 (d.ready q) ∧
    (d.ch (d.owner q)).recs.length < 64 ∧ d.ctx q 0x06 2 ∈ (d.ch (d.owner q)).active ∧
    (∀ r ∈ (d.ch (d.owner q)).recs, ¬(r.q = q ∧ r.index = i)) ∧ d.rings.again = [] ∧ d.heldAt (d.recAddr q i) 64 = false) ∧
  (∀ q i s, s.dev.ctxBad q.toNat = true → Becomes (.recordFetch q i) s (s.dev.wakeCaravan.ctxError q.toNat)) ∧
  (∀ q i s, s.dev.ctxBad q.toNat = false → s.dev.fetchable q.toNat i = false → Becomes (.recordFetch q i) s s.dev) ∧
  (∀ q i s e a, e = (s.dev.wakeCaravan.ctxError q.toNat).wakeCluster (clu (s.dev.owner q.toNat)) → a = e.recAddr q.toNat i →
    s.dev.ctxBad q.toNat = false → s.dev.fetchable q.toNat i = true →
    ((e.firstPoison a 64).isSome = true ∨ e.mem.hbm.byte a = e.gen q.toNat i → Ends (.recordFetch q i) s fun t =>
      t.ch (e.owner q.toNat) = { s.dev.ch (e.owner q.toNat) with
        recs := (s.dev.ch (e.owner q.toNat)).recs ++ [⟨q.toNat, i, e.mem.hbm.bytes a 64, e.firstPoison a 64⟩] } ∧
      OtherChans s.dev t (e.owner q.toNat) ∧ t.mem.ctx = s.dev.mem.ctx ∧
      (∀ x, t.mem.hbm.byte x = s.dev.mem.hbm.byte x) ∧
      t.get64 (R.CARAVAN_CNT 0 0) = e.get64 (R.CARAVAN_CNT 0 0) + 1) ∧
    (e.firstPoison a 64 = none → e.mem.hbm.byte a ≠ e.gen q.toNat i → Ends (.recordFetch q i) s fun t =>
      t.rings.stale = s.dev.rings.stale.filter (·.1 ≠ q.toNat) ++ [(q.toNat, i)] ∧
      (e.ringState q.toNat = 1 → t.mem.ctx.byte (32 * q.toNat + 0x0B) = BitVec.ofNat 8 (2 + 4 * 0x10) ∧
        t.get F.CARAVAN_IRQ_STATUS_RING_ERR = 1) ∧
      (e.ringState q.toNat ≠ 1 → t.mem.ctx = s.dev.mem.ctx) ∧ AllChans s.dev t ∧ (∀ x, t.mem.hbm.byte x = s.dev.mem.hbm.byte x))) ∧
  (∀ m src s, s.dev.rings.due.find? (fun r => r.cls = m.val && r.src = src.toNat) = none → Becomes (.statusRecord m src) s s.dev) ∧
  (∀ m src s r e, s.dev.rings.due.find? (fun r => r.cls = m.val && r.src = src.toNat) = some r →
    e = ({ s.dev with rings := { s.dev.rings with due := s.dev.rings.due.erase r } } : Dev) →
    (e.rings.statusQ.length < 256 →
      Becomes (.statusRecord m src) s { e with rings := { e.rings with statusQ := e.rings.statusQ ++ [r] } }) ∧
    (256 ≤ e.rings.statusQ.length → ∀ g, g = ((e.countSat F.CARAVAN_STAT_Q_LOST).set F.CARAVAN_IRQ_STATUS_STATUS_LOST 1).abandonAt
        .context (32 * r.ring) →
      Becomes (.statusRecord m src) s { g with mem := { g.mem with
        ctx := g.mem.ctx.write (32 * r.ring + 0x1C) (leBytes 2 (min (g.mem.ctx.num (32 * r.ring + 0x1C) 2 + 1) 0xFFFF)) } })) ∧
  (∀ s, s.dev.rings.statusQ.find? (fun r => !(s.dev.liveKind r.ring 5 && s.dev.ringFull r.ring)) = none ∨
      (∃ r, s.dev.rings.statusQ.find? (fun r => !(s.dev.liveKind r.ring 5 && s.dev.ringFull r.ring)) = some r ∧
        s.dev.liveKind r.ring 5 = true ∧ (s.dev.rings.again ≠ [] ∨ s.dev.heldAt (s.dev.recAddr r.ring (s.dev.prod r.ring)) 64 = true)) →
    Becomes .d2hRecordWrite s s.dev) ∧
  (∀ s r q e a, (s.dev.liveKind q 5 = true → s.dev.rings.again = [] ∧ s.dev.heldAt (s.dev.recAddr q (s.dev.prod q)) 64 = false) →
    s.dev.rings.statusQ.find? (fun r => !(s.dev.liveKind r.ring 5 && s.dev.ringFull r.ring)) = some r → q = r.ring →
    e = ({ s.dev with rings := { s.dev.rings with statusQ := s.dev.rings.statusQ.erase r } } : Dev).ctxError q → a = e.recAddr q (e.prod q) →
    (e.liveKind q 5 = false → Becomes .d2hRecordWrite s (e.statusLost q)) ∧
    (e.liveKind q 5 = true → e.wakeCaravan.fencedAt a = true →
      Becomes .d2hRecordWrite s (((e.wakeCaravan.ctxError q).ringLost q).stall q 0x11)) ∧
    (e.liveKind q 5 = true → e.wakeCaravan.fencedAt a = false → r.data.length = 64 → Ends .d2hRecordWrite s fun t =>
      (∀ x, t.mem.hbm.byte x = if a ≤ x ∧ x < a + 64 then (e.gen q (e.prod q) :: r.data.tail).getD (x - a) 0
        else s.dev.mem.hbm.byte x) ∧
      t.mem.ctx = s.dev.mem.ctx.write (32 * q + 0x0C) (leBytes 4 ((e.prod q).toNat + 1)) ∧
      t.rings.statusQ = s.dev.rings.statusQ.erase r ∧ AllChans s.dev t ∧
      t.get64 (R.CARAVAN_CNT 1 0) = e.get64 (R.CARAVAN_CNT 1 0) + 1))

/-! ### The array link (R293 to R315) -/

/-- The record of a LINK.CMD command (R308). -/
def Sys2Proof.Claims.linkRecord (d : Dev) (code abrt reason pos : Nat) : Dev :=
  ((((d.set F.LINK_CMD_STATUS_CODE code).set F.LINK_CMD_STATUS_ABRT abrt).set F.LINK_CMD_STATUS_REASON reason).set
    F.LINK_CMD_STATUS_POS_FAIL pos).set F.LINK_IRQ_STATUS_FORM 1

/-- The share of the present phase of port `p` is done; with both, the device's (R307). -/
def Sys2Proof.Claims.share (d : Dev) (p : Port) : Dev :=
  let e : Dev := match p with
    | .e => { d with link := { d.link with eDone := true } }
    | .w => { d with link := { d.link with wDone := true } }
  if e.link.eDone && e.link.wDone then e.shareDone else e

/-- The forming is over: STATE OFF, and no announced phase, no DT load and no share of a phase comes any more (R308). -/
def Sys2Proof.Claims.formOver (d : Dev) : Dev :=
  { d.set F.LINK_STATUS_STATE 0 with
    link := { d.link with phaseAt := none, timeHi := none, dtLoad := none, eDone := false, wDone := false } }

/-- The device may form: Stage C, its sample PLL locked (R308). -/
def Sys2Proof.Claims.clockOk (d : Dev) : Prop := 3 ≤ d.stage ∧ (d.get F.CLK_SPLL_STATUS_STATE = 2 ∨ d.get F.CLK_SPLL_STATUS_STATE = 3)

/-- FORM (R58, R307, R308): queued behind a FORM; REJECTED on a worker, a single device, EN 0 or a STATE that is not OFF (log
entry 17); FAILED with CLOCK or NOT_IDLE, which end it at any tick; otherwise STATE FORMING and phase 1. LINK_ABORT ends it ABORTED
(R60). LEAVE puts both ports out of service, or is queued behind a FORM (R315). FORM_PHASE_LIMIT fails an overdue phase. LANE_LOCK: a
port with four locked lanes carries words, and is in service with the switch to scrambled cells, which LATENCY makes (R298; the
moment is log entry 17). LINK_RECALIBRATION in ALIGN, after the SYNC edge, slips the divider phase of a worker by the
whole samples of its lag (625 steps of 0.5 ps to two of them) and makes the rest RESID (R307); once FORMED it compares with RESID
(R310). The manager begins ALIGN with a SYNCOUT pulse. PORT_DOWN: a break of a formed array parks its runs and is reported (R313). -/
def Obligations.ArraysFormAndBreak : Prop :=
  (∀ s d, d = s.dev → (d.flag F.LINK_CMD_FORM = true →
      (d.flag F.LINK_CMD_PENDING = true → Becomes .form s d) ∧
      (d.flag F.LINK_CMD_PENDING = false → Becomes .form s
        { d.set F.LINK_CMD_PENDING 1 with link := { d.link with queuedLeave := false } })) ∧
    (d.flag F.LINK_CMD_FORM = false →
      (d.flag F.LINK_CFG_ROLE = false ∨ d.get F.LINK_CFG_N_M1 = 0 ∨ d.flag F.LINK_CFG_EN = false ∨
        d.get F.LINK_STATUS_STATE ≠ 0 → Becomes .form s (Claims.linkRecord d 6 0 0 0)) ∧
      (d.flag F.LINK_CFG_ROLE = true → d.get F.LINK_CFG_N_M1 ≠ 0 → d.flag F.LINK_CFG_EN = true → d.get F.LINK_STATUS_STATE = 0 →
        (¬Claims.clockOk d →
          Becomes .form s (Claims.linkRecord d 4 0 5 (d.get F.LINK_CFG_POS))) ∧
        (Claims.clockOk d → (∃ c, (d.ch c).st ≠ .idle) →
          Becomes .form s (Claims.linkRecord d 4 0 4 (d.get F.LINK_CFG_POS))) ∧
        (∀ g, Claims.clockOk d → (∀ c, (d.ch c).st = .idle) →
          g = ((((Claims.linkRecord d 1 0 0 0).set F.LINK_IRQ_STATUS_FORM (d.get F.LINK_IRQ_STATUS_FORM)).set
            F.LINK_CMD_FORM 1).set F.LINK_STATUS_STATE 1) →
          Becomes .form s (({ g with link := { g.link with timed := false } } : Dev).enterPhase 1))))) ∧
  (∀ d : Dev, (¬Claims.clockOk d → d.formReason = some 5) ∧
    (Claims.clockOk d → (∃ c, (d.ch c).st ≠ .idle) → d.formReason = some 4) ∧
    (Claims.clockOk d → (∀ c, (d.ch c).st = .idle) → d.formReason = none) ∧
    (d.formReason = none ∨ d.get F.LINK_STATUS_STATE ≠ 1 → d.formWatch = d) ∧
    (∀ r, d.formReason = some r → d.get F.LINK_STATUS_STATE = 1 → d.formWatch = (d.phaseFails r).nextLinkCmd)) ∧
  (∀ (d : Dev) p, d.portUp p = false → (d.link.port p).trained = true →
    (d.enterPhase 2).portUp p = true ∧ ((d.enterPhase 2).link.port p).scrambled = true) ∧
  (∀ (d : Dev) p n, n = ((d.link.port p).sendQ.filter (·.word.ty = 1)).length →
    (d.dropQueue p).link.port p = { d.link.port p with
      trained := false, cells := 0, sendQ := [], seqExp := none, slips := 0, scrambled := false } ∧
    (d.dropQueue p).link.port (portOther p) = d.link.port (portOther p) ∧
    (d.dropQueue p).get F.LINK_EVCNT_EV_LOST = min (d.get F.LINK_EVCNT_EV_LOST + n) (2 ^ F.LINK_EVCNT_EV_LOST.len - 1)) ∧
  (∀ d : Dev, d.flag F.LINK_CFG_ROLE = true → (d.enterPhase 3).clk.pulse = some (d.ev.elapsed + 17) ∧
    (d.enterPhase 3).get F.LINK_TICK_OFS_RESID = 0) ∧
  (∀ s d, d = s.dev → (d.flag F.LINK_CMD_FORM = false → Becomes .linkAbort s (d.set F.LINK_CMD_STATUS_ABRT 2)) ∧
    (d.flag F.LINK_CMD_FORM = true → Becomes .linkAbort s ((Claims.linkRecord
      ((Claims.formOver d).set F.LINK_CMD_FORM 0) 3 1 0 0).set F.LINK_CMD_PENDING 0))) ∧
  (∀ s d, d = s.dev → (d.flag F.LINK_CMD_FORM = true →
      (d.flag F.LINK_CMD_PENDING = true → Becomes .leave s d) ∧
      (d.flag F.LINK_CMD_PENDING = false → Becomes .leave s
        { d.set F.LINK_CMD_PENDING 1 with link := { d.link with queuedLeave := true } })) ∧
    (d.flag F.LINK_CMD_FORM = false → Ends .leave s fun t =>
      t.get F.LINK_STATUS_STATE = 0 ∧ t.get F.LINK_STATUS_E_UP = 0 ∧ t.get F.LINK_STATUS_W_UP = 0 ∧
      t.get (F.LINK_PORT_LANES 0) = 0 ∧ t.get (F.LINK_PORT_LANES 1) = 0 ∧ t.link.e.sendQ = [] ∧ t.link.w.sendQ = [] ∧
      t.get F.LINK_CMD_STATUS_CODE = 2 ∧ AllChans d t ∧ t.mem = d.mem ∧
      RegsBut d t [R.LINK_STATUS, R.LINK_PORT 0, R.LINK_PORT 1, R.LINK_CMD, R.LINK_CMD_STATUS, R.LINK_IRQ_STATUS])) ∧
  (∀ reason pos s d, d = s.dev →
    (d.get F.LINK_STATUS_STATE ≠ 1 ∨ d.ev.elapsed < d.link.since + phaseLimit d.phaseNow →
      Becomes (.formPhaseLimit reason pos) s d) ∧
    (d.get F.LINK_STATUS_STATE = 1 → d.link.since + phaseLimit d.phaseNow ≤ d.ev.elapsed →
      (d.flag F.LINK_CFG_ROLE = true → Becomes (.formPhaseLimit reason pos) s
        ((Claims.linkRecord (Claims.formOver d) 4 0 reason.toNat pos.toNat).set F.LINK_CMD_FORM 0).nextLinkCmd) ∧
      (d.flag F.LINK_CFG_ROLE = false → Becomes (.formPhaseLimit reason pos) s (d.phaseFails reason.toNat).nextLinkCmd))) ∧
  (∀ p lane s d e, d = s.dev → e = d.set ⟨R.LINK_PORT (portIdx p), 8 + lane.val, 1⟩ 1 →
    (d.flag F.LINK_CFG_EN = false → Becomes (.laneLock p lane) s d) ∧
    (d.flag F.LINK_CFG_EN = true → e.get (F.LINK_PORT_LANES (portIdx p)) ≠ 15 ∨ (d.link.port p).trained = true →
      Becomes (.laneLock p lane) s e) ∧
    (d.flag F.LINK_CFG_EN = true → e.get (F.LINK_PORT_LANES (portIdx p)) = 15 → (d.link.port p).trained = false →
      Becomes (.laneLock p lane) s { e with
        link := e.link.setPort p { e.link.port p with trained := true, cells := 0, sent := 0, seqExp := none, slips := 0 } })) ∧
  (∀ (now : BitVec 10) s d, d = s.dev →
    (d.get F.LINK_STATUS_STATE ≠ 1 ∨ d.phaseNow ≠ 3 → d.get F.LINK_STATUS_STATE ≠ 2 → Becomes (.linkRecalibration now) s d) ∧
    (d.get F.LINK_STATUS_STATE = 1 → d.phaseNow = 3 → d.flag F.LINK_CFG_ROLE = true ∨ d.link.aligned = false →
      Becomes (.linkRecalibration now) s d) ∧
    (∀ e v, d.get F.LINK_STATUS_STATE = 1 → d.phaseNow = 3 → d.flag F.LINK_CFG_ROLE = false → d.link.aligned = true →
      v = 2 * now.toNat % 625 / 2 → e = ({ d with link := { d.link with slip := 2 * now.toNat / 625 } } : Dev) →
      Becomes (.linkRecalibration now) s ((e.set F.LINK_TICK_OFS_RESID v).set F.LINK_TICK_OFS_NOW v).shareDone.nextLinkCmd) ∧
    (∀ e, d.get F.LINK_STATUS_STATE = 2 → e = d.set F.LINK_TICK_OFS_NOW now.toNat →
      (e.get F.LINK_TICK_OFS_RESID + 313 ≤ now.toNat ∨ now.toNat + 313 ≤ e.get F.LINK_TICK_OFS_RESID →
        Becomes (.linkRecalibration now) s (e.set F.LINK_IRQ_STATUS_DRIFT 1)) ∧
      (now.toNat < e.get F.LINK_TICK_OFS_RESID + 313 → e.get F.LINK_TICK_OFS_RESID < now.toNat + 313 →
        Becomes (.linkRecalibration now) s e))) ∧
  (∀ p cause s d e, d = s.dev → e = ((d.setUp p false).dropQueue p).setIf (cause.toNat = 1) (F.LINK_PORT_LANES (portIdx p)) 0 →
    (d.portUp p = false → cause.toNat ≠ 1 ∨ (d.link.port p).trained = false → Becomes (.portDown p cause) s d) ∧
    (d.portUp p = false → cause.toNat = 1 → (d.link.port p).trained = true →
      Becomes (.portDown p cause) s ((d.dropQueue p).set (F.LINK_PORT_LANES (portIdx p)) 0)) ∧
    (d.portUp p = true → e.get F.LINK_STATUS_STATE = 0 → Becomes (.portDown p cause) s e) ∧
    (d.portUp p = true → e.get F.LINK_STATUS_STATE = 1 → Becomes (.portDown p cause) s (e.phaseFails 7).nextLinkCmd) ∧
    (∀ g, d.portUp p = true → 2 ≤ e.get F.LINK_STATUS_STATE → g = e.parkActive.recordBreak e.arrayPos (portIdx p) cause.toNat →
      ∃ t, t = g.sendWord (portOther p) ⟨1, 2, controlBody 10 (BitVec.ofNat 32 (g.arrayPos + 16 * portIdx p + 32 * cause.toNat))
        g.arrayPos (g.arrayN - 1), false⟩ ∧
        (t.flag F.LINK_CFG_ROLE = true → Becomes (.portDown p cause) s t) ∧
        (t.flag F.LINK_CFG_ROLE = false → Becomes (.portDown p cause) s (t.set F.LINK_STATUS_TIME_COAST 1))))

/-- Words received on a port that carries none, or in a state that does not take them, change nothing; a word with hops left is
forwarded on the other port with one hop less (R297, R300). HELLO compares the neighbour's settings in TRAIN, and in a formed or
broken array is the switch-over of a port that trained anew (R298); what a worker that is OFF reports of TRAIN, and that it joins with
the PHASE word of LATENCY, is log entry 17. PHASE announces a phase for its tick, PROBE is answered by an ECHO that takes the ticks up to its launch, ECHO gives RAW,
TIME_HI and TIME_LO set the DT load, BEACON and VERIFY compare DT, RESULT collects the shares, BREAK_NOTICE records the first break,
which ends a worker's beacons (R297, R307 to R315). CELL_RECEIVE takes each word of a cell by itself (R295). -/
def Obligations.LinkWordsActByTheirType : Prop :=
  (∀ p s d, d = s.dev → ∀ x o h b v0 v1 v2 v3,
    ((d.link.port p).trained = false → Becomes (.hello p x o) s d ∧ Becomes (.phase p x o h) s d ∧ Becomes (.result p x o h) s d ∧
      Becomes (.cellReceive p v0 v1 v2 v3) s d) ∧
    (d.portUp p = false → Becomes (.probe p x o) s d ∧ Becomes (.echo p x o) s d ∧
      Becomes (.timeHi p x o h) s d ∧ Becomes (.timeLo p x o h) s d ∧ Becomes (.beacon p x o h) s d ∧
      Becomes (.verify p x o h) s d ∧ Becomes (.breakNotice p x o h) s d ∧ Becomes (.arrayEventReceive p b) s d)) ∧
  (∀ p s d, d = s.dev → ∀ x o h b,
    (d.get F.LINK_STATUS_STATE ≠ 1 → Becomes (.timeHi p x o h) s d ∧ Becomes (.timeLo p x o h) s d ∧ Becomes (.verify p x o h) s d) ∧
    (2 ≤ d.get F.LINK_STATUS_STATE → Becomes (.phase p x o h) s d ∧ Becomes (.result p x o h) s d) ∧
    (d.get F.LINK_STATUS_STATE < 2 → Becomes (.beacon p x o h) s d ∧ Becomes (.breakNotice p x o h) s d ∧
      Becomes (.arrayEventReceive p b) s d)) ∧
  (∀ (d : Dev) p rank ty body hops, (hops ≤ 1 → d.forwardWord p rank ty body hops = d) ∧
    (1 < hops → d.forwardWord p rank ty body hops = d.queueWord (portOther p) true ⟨rank, ty, body (hops - 1), false⟩)) ∧
  (∀ (w : LinkWord) t held, w.stamped = true → bits w.body 53 48 = 4 →
    bits (w.launched t held) 31 0 = bits w.body 23 0 + held % 256 * 2 ^ 24) ∧
  (∀ (d : Dev) p e, e = d.queueWord p false ⟨1, 2, controlBody 1 d.helloContent d.arrayPos 1, false⟩ →
    (d.portUp p = true → d.switchOver p = d) ∧
    (d.portUp p = false → (d.link.port p).trained = true → d.switchOver p = { e.setUp p true with
      link := e.link.setPort p { e.link.port p with sent := 0, seqExp := none, slips := 0, scrambled := true } })) ∧
  (∀ p (x : W32) (o : BitVec 4) s d, d = s.dev → (d.link.port p).trained = true →
    (d.flag F.LINK_CFG_EN = false → Becomes (.hello p x o) s d) ∧
    (d.flag F.LINK_CFG_EN = true → 2 ≤ d.get F.LINK_STATUS_STATE → Becomes (.hello p x o) s (d.switchOver p)) ∧
    (d.get F.LINK_STATUS_STATE = 1 → d.flag F.LINK_CFG_ROLE = false ∨ d.phaseNow ≠ 1 → Becomes (.hello p x o) s d) ∧
    (d.get F.LINK_STATUS_STATE = 0 → d.flag F.LINK_CFG_ROLE = true → Becomes (.hello p x o) s d) ∧
    (∀ e r, d.flag F.LINK_CFG_EN = true → d.get F.LINK_STATUS_STATE = 0 → d.flag F.LINK_CFG_ROLE = false →
      e = (match p with
        | .e => { d with link := { d.link with eDone := true } } | .w => { d with link := { d.link with wDone := true } } : Dev) →
      r = e.formReason.getD 0 →
      (bits x 3 0 ≠ d.get F.LINK_CFG_N_M1 ∨ o.toNat ≠ d.neighbour p ∨ x.getLsbD 4 ≠ decide (o.toNat = 0) →
        Becomes (.hello p x o) s (d.sendControl 9 17 false)) ∧
      (bits x 3 0 = d.get F.LINK_CFG_N_M1 → o.toNat = d.neighbour p → x.getLsbD 4 = decide (o.toNat = 0) →
        ((e.link.eDone && e.link.wDone) = true → Becomes (.hello p x o) s (e.sendControl 9 (BitVec.ofNat 32 (1 + 8 * r)) false)) ∧
        ((e.link.eDone && e.link.wDone) = false → Becomes (.hello p x o) s e)))) ∧
  (∀ p (x : W32) (o : BitVec 4) s d, d = s.dev → (d.link.port p).trained = true → d.flag F.LINK_CFG_EN = true →
    d.flag F.LINK_CFG_ROLE = true → d.get F.LINK_STATUS_STATE = 1 → d.phaseNow = 1 →
    (bits x 3 0 = d.get F.LINK_CFG_N_M1 ∧ o.toNat = d.neighbour p ∧ (x.getLsbD 4 && d.flag F.LINK_CFG_ROLE) = false ∧
      x.getLsbD 4 = decide (o.toNat = 0) → Becomes (.hello p x o) s (Claims.share d p)) ∧
    (bits x 3 0 ≠ d.get F.LINK_CFG_N_M1 ∨ o.toNat ≠ d.neighbour p ∨ (x.getLsbD 4 && d.flag F.LINK_CFG_ROLE) = true ∨
      x.getLsbD 4 ≠ decide (o.toNat = 0) → Becomes (.hello p x o) s (d.phaseFails 2).nextLinkCmd)) ∧
  (∀ p (x : W32) (o h : BitVec 4) s d e, d = s.dev → (d.link.port p).trained = true → d.get F.LINK_STATUS_STATE < 2 →
    e = d.forwardWord p 1 2 (controlBody 2 x o.toNat) h.toNat →
    (d.flag F.LINK_CFG_ROLE = true → Becomes (.phase p x o h) s d) ∧
    (d.flag F.LINK_CFG_ROLE = false →
      (d.get F.LINK_STATUS_STATE = 1 ∨ bits x 2 0 = 2 →
        Becomes (.phase p x o h) s { e with link := { e.link with phaseAt := some (bits x 2 0, bits x 26 3) } }) ∧
      (d.get F.LINK_STATUS_STATE = 0 → bits x 2 0 ≠ 2 → Becomes (.phase p x o h) s e))) ∧
  (∀ (d : Dev) n, (d.get F.LINK_STATUS_STATE ≠ 0 → d.beginPhase n = d.enterPhase n) ∧
    (d.get F.LINK_STATUS_STATE = 0 →
      d.beginPhase n = ({ d.set F.LINK_STATUS_STATE 1 with link := { d.link with timed := false } } : Dev).enterPhase n)) ∧
  (∀ p (x : W32) o s d, d = s.dev → d.portUp p = true → Becomes (.probe p x o) s (d.queueWord p false
    ⟨1, 2, controlBody 4 (BitVec.ofNat 32 (bits x 23 0)) (d.get F.LINK_CFG_POS) 1, true⟩)) ∧
  (∀ p (x : W32) o s d trip, d = s.dev → d.portUp p = true →
    trip = (d.ev.dt.toNat + 2 ^ 24 - bits x 23 0) % 2 ^ 24 - bits x 31 24 →
    (d.get F.LINK_STATUS_STATE ≠ 1 ∨ d.phaseNow ≠ 2 → Becomes (.echo p x o) s d) ∧
    (d.get F.LINK_STATUS_STATE = 1 → d.phaseNow = 2 → trip ≤ 28 →
      Becomes (.echo p x o) s (Claims.share (d.set (F.LINK_PORT_RAW (portIdx p)) (8 * trip)) p)) ∧
    (d.get F.LINK_STATUS_STATE = 1 → d.phaseNow = 2 → 28 < trip → Becomes (.echo p x o) s (d.phaseFails 3).nextLinkCmd)) ∧
  (∀ p (x : W32) (o h : BitVec 4) s d, d = s.dev → d.portUp p = true → d.get F.LINK_STATUS_STATE = 1 → d.phaseNow = 4 →
    (∀ e, e = d.forwardWord p 1 2 (controlBody 5 x o.toNat) h.toNat →
      Becomes (.timeHi p x o h) s { e with link := { e.link with timeHi := some x } }) ∧
    (d.link.timeHi = none → Becomes (.timeLo p x o h) s d) ∧
    (∀ hi e, d.link.timeHi = some hi → e = d.forwardWord p 1 2 (controlBody 6 x o.toNat) h.toNat →
      Becomes (.timeLo p x o h) s { e with link := { e.link with
        timeHi := none, dtLoad := some (e.ev.elapsed + (256 - 16 * e.travelled p o.toNat), (hi ++ x : W64) + 256) } })) ∧
  (∀ p (x : W32) (o h : BitVec 4) s d e, d = s.dev → d.portUp p = true → 2 ≤ d.get F.LINK_STATUS_STATE →
    e = d.forwardWord p 1 2 (controlBody 7 x o.toNat) h.toNat →
    (e.flag F.LINK_CFG_ROLE = true ∨ e.ev.dt.setWidth 32 = x + BitVec.ofNat 32 (16 * e.travelled p o.toNat) →
      Becomes (.beacon p x o h) s e) ∧
    (e.flag F.LINK_CFG_ROLE = false → e.ev.dt.setWidth 32 ≠ x + BitVec.ofNat 32 (16 * e.travelled p o.toNat) →
      Becomes (.beacon p x o h) s (e.portDown p 4))) ∧
  (∀ p (x : W32) (o h : BitVec 4) s d e, d = s.dev → d.portUp p = true → d.get F.LINK_STATUS_STATE = 1 → d.phaseNow = 5 →
    d.flag F.LINK_CFG_ROLE = false → e = d.forwardWord p 1 2 (controlBody 8 x o.toNat) h.toNat →
    (e.ev.dt.toNat % 2 ^ 24 = (bits x 23 0 + 16 * e.travelled p o.toNat) % 2 ^ 24 → Becomes (.verify p x o h) s e.shareDone) ∧
    (e.ev.dt.toNat % 2 ^ 24 ≠ (bits x 23 0 + 16 * e.travelled p o.toNat) % 2 ^ 24 →
      Becomes (.verify p x o h) s (e.phaseFails 6).nextLinkCmd)) ∧
  (∀ p (x : W32) (o h : BitVec 4) s d e, d = s.dev → (d.link.port p).trained = true →
    e = d.forwardWord p 1 2 (controlBody 9 x o.toNat) h.toNat →
    (d.get F.LINK_STATUS_STATE = 0 → Becomes (.result p x o h) s e) ∧
    (d.get F.LINK_STATUS_STATE = 1 →
      (bits x 6 3 ≠ 0 → Becomes (.result p x o h) s (e.formFails (bits x 6 3) o.toNat).nextLinkCmd) ∧
      (bits x 6 3 = 0 → bits x 2 0 = e.phaseNow → Becomes (.result p x o h) s (e.positionEnds o.toNat).nextLinkCmd) ∧
      (bits x 6 3 = 0 → bits x 2 0 ≠ e.phaseNow → Becomes (.result p x o h) s e))) ∧
  (∀ p (x : W32) (o h : BitVec 4) s d e g t pos port, d = s.dev → d.portUp p = true → 2 ≤ d.get F.LINK_STATUS_STATE →
    pos = bits x 3 0 → port = bits x 4 4 → g = d.forwardWord p 1 2 (controlBody 10 x o.toNat) h.toNat →
    e = (if g.flag F.LINK_CFG_ROLE then g.recordBreak pos port (bits x 7 5)
      else (g.recordBreak pos port (bits x 7 5)).set F.LINK_STATUS_TIME_COAST 1) →
    t = (if port = 0 ∧ (pos + 1) % e.arrayN = e.get F.LINK_CFG_POS then e.portDown .w 5
      else if port = 1 ∧ (e.get F.LINK_CFG_POS + 1) % e.arrayN = pos then e.portDown .e 5 else e) →
    (t.flag F.LINK_CFG_ON_BREAK = false → Becomes (.breakNotice p x o h) s t) ∧
    (t.flag F.LINK_CFG_ON_BREAK = true → Becomes (.breakNotice p x o h) s t.parkActive)) ∧
  (∀ p (b : BitVec 54) s d code t e, d = s.dev → d.portUp p = true → 2 ≤ d.get F.LINK_STATUS_STATE →
    code = BitVec.ofNat 8 (bits b 7 0) → t = expand24 d.ev.dt (BitVec.ofNat 24 (bits b 31 8)) →
    e = (((d.count64 (R.LINK_CNT (portIdx p) 1 0) 1).forwardWord p 0 1 (eventBody code t (bits b 35 32)) (bits b 39 36)).takeCopy
      p code t) →
    (before t e.ev.dt = false → Becomes (.arrayEventReceive p b) s e) ∧
    (before t e.ev.dt = true → Becomes (.arrayEventReceive p b) s (e.arrayStop code))) ∧
  (∀ (d : Dev) p w, ((d.link.port p).scrambled = false → d.seqExp p w = learnSeq w) ∧
    ((d.link.port p).scrambled = true → d.link.timed = true → d.seqExp p w = some ((d.ev.dt - 16).setWidth 8)) ∧
    (∀ q, (d.link.port p).scrambled = true → d.link.timed = false → (d.link.port p).seqExp = some q → d.seqExp p w = some q) ∧
    ((d.link.port p).scrambled = true → d.link.timed = false → (d.link.port p).seqExp = none → d.seqExp p w = learnSeq w)) ∧
  (∀ p v0 v1 v2 v3 s d, d = s.dev → (d.link.port p).trained = true →
    (d.seqExp p v0 = none → Becomes (.cellReceive p v0 v1 v2 v3) s (d.portDown p 2)) ∧
    (∀ q e r0 r1 slip n f g k l m t, d.seqExp p v0 = some q →
      e = ({ d with link := d.link.setPort p { d.link.port p with
        seqExp := if (d.link.port p).scrambled then some (q + 1) else none } } : Dev) →
      r0 = takeWord v0 v2 q → r1 = takeWord v1 v3 q →
      slip = ((r0.any fun r => r.2.1) || r1.any fun r => r.2.1) → n = (if slip then (d.link.port p).slips + 1 else 0) →
      f = (if r0.any fun r => r.2.2 then e.countSat (F.LINK_PORT_CORRECTED (portIdx p)) else e) →
      g = (if r1.any fun r => r.2.2 then f.countSat (F.LINK_PORT_CORRECTED (portIdx p)) else f) →
      k = (if slip then g.countSat (F.LINK_PORT_SLIPPED (portIdx p)) else g) →
      l = ({ k with link := k.link.setPort p { k.link.port p with slips := n } } : Dev) →
      m = (match r0 with | some (w, _) => l.linkWordIn p w | none => l) →
      t = (match r1 with | some (w, _) => m.linkWordIn p w | none => m) →
      (r0 = none ∨ r1 = none → Becomes (.cellReceive p v0 v1 v2 v3) s (t.portDown p 2)) ∧
      (r0 ≠ none → r1 ≠ none → n < 4 → Becomes (.cellReceive p v0 v1 v2 v3) s t) ∧
      (r0 ≠ none → r1 ≠ none → 4 ≤ n → Becomes (.cellReceive p v0 v1 v2 v3) s (t.portDown p 3)))) ∧
  (∀ (d : Dev) p w, (d.link.port p).trained = true → d.clk.safe = false → (d.link.port p).sendQ = [] → d.ev.counting = true →
    w = linkWord64 0 0 (d.ev.dt.setWidth 8) → ((d.launchCell p).link.port p).out = (w, w) ∧
    ((d.link.port p).scrambled = false → ((d.launchCell p).link.port p).lanes = some ((List.range 4).map trainingLane))) ∧
  (∀ (d : Dev) p w, bits w 55 54 ≠ 1 → bits w 55 54 ≠ 2 → d.linkWordIn p w = d)

/-! ### Fences, refresh, scrub, self-refresh, SRAM scrub and march (R323, R326, R331, R355 to R358, R432, R433) -/

/-- The open page of bank `b` of pseudo-channel `p` closed. -/
def Sys2Proof.Claims.bankClosed (d : Dev) (p : Fin 128) (b : Fin 32) : Dev :=
  { d with hbm := { d.hbm with pages := d.hbm.pages.filter (·.1 ≠ 32 * p.val + b.val) } }

/-- FENCE runs, or one is queued, and takes in the BAR4 writes received; FENCE_DONE makes these whole and ends it, DONE, unless a
rate change, a slice or a TRIP holds one of them (R24, R58, R323, R335, R340). REFRESH closes the bank, and postpones for waiting requests until the allowance would
be exceeded, then counts a forced one (R326). SCRUB_READ reads the next unit of the pass, keeps every byte and writes a corrected
unit back unless another source wrote it; the unit at the top of the capacity ends the pass, and the next begins PERIOD hours after
this one began (R331, R332; the ascending order is log entry 21). SELF_REFRESH_ENTRY takes an idle stack down, but not while a
snapshot or a request for it waits; STACK_WAKE brings a mapped one back (R66, R432, R433). SRAM_SCRUB reads the unit at an address: a corrected one is
written back unless another write reached it; an uncorrectable one is found as by any read, a Reckoner one restarts Reckoner (R355,
R391, R457). SIROCCO_REGION: engine 0 to 7 tests the regions of its own cluster's memories from Stage C on while EN is set, program
stores of running channels being skipped, engine 8 those of the context and Reckoner SRAMs; an access of another user abandons the
test, which is tried again 64 regions later; a failing cell is captured, an unreadable word is poisoned (R356 to R358; the order
within a pass is log entry 50). -/
def Obligations.MemoriesAreKeptAndTested : Prop :=
  ((∀ s d, d = s.dev →
     (d.flag F.MEM_FENCE_GO = true → d.flag F.MEM_FENCE_PENDING = true → Becomes .fence s d) ∧
     (d.flag F.MEM_FENCE_GO = true → d.flag F.MEM_FENCE_PENDING = false → Becomes .fence s
       { d.set F.MEM_FENCE_PENDING 1 with hbm := { d.hbm with fences := d.hbm.fences ++ [d.hbm.received] } }) ∧
     (d.flag F.MEM_FENCE_GO = false → Becomes .fence s
       { (d.set F.MEM_FENCE_GO 1).set F.MEM_FENCE_CODE 1 with hbm := { d.hbm with fences := [d.hbm.received] } })) ∧
   (∀ s e f, e = s.dev.land (s.dev.hbm.fences.headD 0) → f = ({ e with hbm := { e.hbm with fences := s.dev.hbm.fences.drop 1 } } : Dev) →
     (s.dev.flag F.MEM_FENCE_GO = false ∨ s.dev.memHeld = true ∨ s.dev.tripped = true ∨
       s.dev.writesHeld (s.dev.hbm.fences.headD 0) = true → Becomes .fenceDone s s.dev) ∧
     (s.dev.flag F.MEM_FENCE_GO = true → s.dev.memHeld = false → s.dev.tripped = false →
       s.dev.writesHeld (s.dev.hbm.fences.headD 0) = false →
       (s.dev.flag F.MEM_FENCE_PENDING = false →
         Becomes .fenceDone s (((f.set F.MEM_FENCE_CODE 2).set F.MEM_FENCE_PENDING 0).set F.MEM_FENCE_GO 0)) ∧
       (s.dev.flag F.MEM_FENCE_PENDING = true →
         Becomes .fenceDone s (((f.set F.MEM_FENCE_CODE 1).set F.MEM_FENCE_PENDING 0).set F.MEM_FENCE_GO 1)))) ∧
   (∀ (p : Fin 128) b waiting exceeded s,
     (s.dev.stage < 4 ∨ s.dev.get (F.HBM_STATUS_POWER (p.val / 32)) < 2 ∨ s.dev.memHeld = true ∨ (waiting = true ∧ exceeded = false) →
       Becomes (.refresh p b waiting exceeded) s s.dev) ∧
     (4 ≤ s.dev.stage → 2 ≤ s.dev.get (F.HBM_STATUS_POWER (p.val / 32)) → s.dev.memHeld = false →
       (waiting = false → Becomes (.refresh p b waiting exceeded) s (Claims.bankClosed s.dev p b)) ∧
       (waiting = true → exceeded = true →
         Becomes (.refresh p b waiting exceeded) s ((Claims.bankClosed s.dev p b).countSat (F.HBM_REF_FORCED (p.val / 32)))))) ∧
   (∀ a raced s u due, u = a / 64 * 64 → due = (∀ t, s.dev.hbm.passAt = some t →
       t + 3600 * 400000000 * max 1 (s.dev.get F.MEM_SCRUB_PERIOD) ≤ s.dev.ev.elapsed) →
     (s.dev.flag F.MEM_SCRUB_EN = false ∨ s.dev.capacity < u + 64 ∨ s.dev.heldAt u 64 = true ∨
       u ≠ s.dev.hbm.scrubAt ∨ (u = 0 ∧ ¬due) → Becomes (.scrubRead a raced) s s.dev) ∧
     (s.dev.flag F.MEM_SCRUB_EN = true → u + 64 ≤ s.dev.capacity → s.dev.heldAt u 64 = false →
       u = s.dev.hbm.scrubAt → (u = 0 → due) → ∃ e, Claims.MemoryTraffic s.dev e ∧ (∀ x, e.mem.hbm.byte x = s.dev.mem.hbm.byte x) ∧
         (s.dev.fencedAt u = true → e = s.dev) ∧
         (s.dev.fencedAt u = false → s.dev.mem.hbm.ce.contains u = true → s.dev.mem.hbm.bad u = false → raced = false →
           u ∉ e.mem.hbm.ce) ∧
         ∀ f, f = (if u = 0 then { e with hbm := { e.hbm with passAt := some e.ev.elapsed } } else e) →
         (u + 64 < s.dev.capacity → Becomes (.scrubRead a raced) s { f with hbm := { f.hbm with scrubAt := u + 64 } }) ∧
         (u + 64 = s.dev.capacity → Becomes (.scrubRead a raced) s
           (({ f with hbm := { f.hbm with scrubAt := 0 } } : Dev).countSat F.MEM_SCRUB_PASSES)))) ∧
   (∀ (k : Fin 4) s,
     (s.dev.get (F.HBM_STATUS_POWER k) = 2 → s.dev.flag F.TELEM_PWR_CTRL_HBM_SLEEP = true → s.dev.stacksKept = false →
       s.dev.stackAsked k = false → s.dev.memHeld = false → (∀ x, s.dev.snap = some x → x.copied = true) → s.dev.hbm.lastReq[k] + 4000 * max 1 (s.dev.get F.TELEM_PWR_CTRL_HBM_IDLE) ≤ s.dev.ev.elapsed →
       Ends (.selfRefreshEntry k) s fun t => t.get (F.HBM_STATUS_POWER k) = 1 ∧
         t.hbm.pages = s.dev.hbm.pages.filter (fun x => x.1 / 1024 ≠ k.val) ∧ t.mem = s.dev.mem ∧ AllChans s.dev t) ∧
     (s.dev.get (F.HBM_STATUS_POWER k) ≠ 2 ∨ s.dev.flag F.TELEM_PWR_CTRL_HBM_SLEEP = false ∨ s.dev.stacksKept = true ∨
       s.dev.stackAsked k = true ∨ s.dev.memHeld = true ∨ (∃ x, s.dev.snap = some x ∧ x.copied = false) ∨ s.dev.ev.elapsed < s.dev.hbm.lastReq[k] + 4000 * max 1 (s.dev.get F.TELEM_PWR_CTRL_HBM_IDLE) →
       Becomes (.selfRefreshEntry k) s s.dev)) ∧
   (∀ (k : Fin 4) s,
     ((∃ p, p ∈ s.dev.mapped ∧ p / 32 = k.val) → s.dev.tripped = false → s.dev.get (F.HBM_STATUS_POWER k) = 1 →
       Becomes (.stackWake k) s (((s.dev.set (F.HBM_STATUS_POWER k) 2).setRuns (23 + k.val) true).setRuns (27 + k.val) true)) ∧
     ((∀ p, p ∈ s.dev.mapped → p / 32 ≠ k.val) ∨ s.dev.tripped = true ∨ s.dev.get (F.HBM_STATUS_POWER k) ≠ 1 →
       Becomes (.stackWake k) s s.dev))) ∧
  (∀ (d : Dev) k, d.stackAsked k = true ↔ ∃ a n, ((a, n) ∈ d.hbm.posted.map (fun w => (w.1, w.2.length)) ∨
    (a, n) ∈ d.hbm.reads.map (fun r => (r.1, r.2.1))) ∧ ∃ u ∈ unitsOf 256 a n, d.pcOf u / 32 = k) ∧
  ((∀ a raced s, (s.dev.stage < 3 ∨ 0x4000000 ≤ a → Becomes (.sramScrub .oasis a raced) s s.dev) ∧
     (s.dev.stage < 3 ∨ 0x200000 ≤ a → Becomes (.sramScrub .segTable a raced) s s.dev) ∧
     (s.dev.stage < 3 ∨ 0x800000 ≤ a → Becomes (.sramScrub .programStore a raced) s s.dev) ∧
     (s.dev.stage < 2 ∨ 0x800000 ≤ a → Becomes (.sramScrub .context a raced) s s.dev) ∧
     (s.dev.stage < 2 ∨ 0x100000 ≤ a → Becomes (.sramScrub .reckoner a raced) s s.dev)) ∧
   (∀ a raced s u, u = a / 64 * 64 → 3 ≤ s.dev.stage → a < 0x4000000 →
     ∃ e, e = s.dev.touchOasis (a / 0x800000) (a % 0x800000) ∧
     (s.dev.mem.oasis.ce.contains u = true → s.dev.mem.oasis.bad u = false → raced = false → Becomes (.sramScrub .oasis a raced) s
       { e with mem := { e.mem with oasis := { e.mem.oasis with ce := e.mem.oasis.ce.filter (· ≠ u) } } }) ∧
     (s.dev.mem.oasis.ce.contains u = false ∨ s.dev.mem.oasis.bad u = true ∨ raced = true → Becomes (.sramScrub .oasis a raced) s e)) ∧
   (∀ a raced s u, u = a / 8 * 8 → 3 ≤ s.dev.stage → a < 0x200000 →
     ∃ e, e = s.dev.touchSeg (a / 0x40000) (a % 0x40000) ∧
     (s.dev.mem.segtab.ce.contains u = true → s.dev.mem.segtab.bad u = false → raced = false → Becomes (.sramScrub .segTable a raced) s
       { e with mem := { e.mem with segtab := { e.mem.segtab with ce := e.mem.segtab.ce.filter (· ≠ u) } } }) ∧
     (s.dev.mem.segtab.ce.contains u = false ∨ s.dev.mem.segtab.bad u = true ∨ raced = true → Becomes (.sramScrub .segTable a raced) s e)) ∧
   (∀ a raced s u, u = a / 8 * 8 → 3 ≤ s.dev.stage → a < 0x800000 →
     ∃ e, e = s.dev.touchProg (BitVec.ofNat 5 (a / 0x40000)).toFin (a % 0x40000) ∧
     (s.dev.mem.prog.ce.contains u = true → s.dev.mem.prog.bad u = false → raced = false → Becomes (.sramScrub .programStore a raced) s
       { e with mem := { e.mem with prog := { e.mem.prog with ce := e.mem.prog.ce.filter (· ≠ u) } } }) ∧
     (s.dev.mem.prog.ce.contains u = false ∨ s.dev.mem.prog.bad u = true ∨ raced = true → Becomes (.sramScrub .programStore a raced) s e)) ∧
   (∀ a raced s u, u = a / 8 * 8 → 2 ≤ s.dev.stage → a < 0x800000 →
     ∀ d, d = s.dev.abandonAt .context u →
     (s.dev.mem.ctx.ue.contains u = true → Becomes (.sramScrub .context a raced) s
       (({ d with mem := { d.mem with ctx := d.mem.ctx.markPoison u } } : Dev).ctxError (a / 32))) ∧
     (s.dev.mem.ctx.ue.contains u = false → raced = true → Becomes (.sramScrub .context a raced) s d) ∧
     (s.dev.mem.ctx.ue.contains u = false → raced = false → Becomes (.sramScrub .context a raced) s
       { d with mem := { d.mem with ctx := { d.mem.ctx with ce := d.mem.ctx.ce.filter (· ≠ u) } } })) ∧
   (∀ a raced s u, u = a / 8 * 8 → 2 ≤ s.dev.stage → a < 0x100000 →
     ∀ d, d = s.dev.abandonAt .reckoner u →
     (s.dev.mem.reckoner.bad u = true → ∃ n, n.ce = s.dev.mem.reckoner.ce ∧ u ∉ n.ue ∧ u ∉ n.poison ∧
       Becomes (.sramScrub .reckoner a raced) s (({ d with mem := { d.mem with reckoner := n } } : Dev).reckonerRestart)) ∧
     (s.dev.mem.reckoner.bad u = false → s.dev.mem.reckoner.ce.contains u = false → Becomes (.sramScrub .reckoner a raced) s d) ∧
     (∀ e, s.dev.mem.reckoner.bad u = false → s.dev.mem.reckoner.ce.contains u = true →
       e = ({ d with mgmt := { d.mgmt with ce := d.mgmt.ce + 1 } } : Dev) →
       (raced = true → Becomes (.sramScrub .reckoner a raced) s e) ∧
       (raced = false → Becomes (.sramScrub .reckoner a raced) s
         { e with mem := { e.mem with reckoner := { e.mem.reckoner with ce := e.mem.reckoner.ce.filter (· ≠ u) } } })))) ∧
  ((∀ (e : Fin 9) m a accessed r s, (if e.val < 8 then s.dev.stage < 3 ∨ s.dev.flag (F.CL_SIR_CTRL_EN e) = false else s.dev.stage < 2) →
     Becomes (.siroccoRegion e m a accessed r) s s.dev) ∧
   (∀ (e : Fin 9) m a accessed r s d, d = s.dev → (if e.val < 8 then 3 ≤ d.stage ∧ d.flag (F.CL_SIR_CTRL_EN e) = true else 2 ≤ d.stage) →
     (d.testing e = none → Becomes (.siroccoRegion e m a accessed r) s (d.takeRegion e)) ∧
     (∀ t, d.testing e = some t →
       (regionOf m a ≠ some (e.val, t.idx) ∨ (accessed = false ∧ r = .clean ∧ d.ev.elapsed < t.start + 3072) →
         Becomes (.siroccoRegion e m a accessed r) s d) ∧
       (regionOf m a = some (e.val, t.idx) →
         (accessed = true → Becomes (.siroccoRegion e m a accessed r) s ((d.abandonAt m a).takeRegion e)) ∧
         (accessed = false → r = .clean → t.start + 3072 ≤ d.ev.elapsed →
           Becomes (.siroccoRegion e m a accessed r) s ((d.regionDone e).takeRegion e)) ∧
         (accessed = false → r = .cellFails → Becomes (.siroccoRegion e m a accessed r) s (((d.regionDone e).cellFail e m a).takeRegion e)) ∧
         (accessed = false → r = .unreadable →
           Becomes (.siroccoRegion e m a accessed r) s ((((d.regionDone e).cellFail e m a).spoilWord m a).takeRegion e))))) ∧
   (∀ (d : Dev) m a (e : Fin 9) i t, regionOf m a = some (e.val, i) → d.testing e = some t →
     (t.idx ≠ i → d.abandonAt m a = d) ∧
     (t.idx = i → (d.abandonAt m a).testing e = none ∧ (d.abandonAt m a).sirocco.again[e] = d.sirocco.again[e] ++ [(i, 64)] ∧
       (d.abandonAt m a).mem = d.mem)) ∧
   (∀ (d : Dev) (e : Fin 9), (d.regionDone e).testing e = none ∧
     (d.regionDone e).sirocco.again[e] = d.sirocco.again[e].map fun p => (p.1, p.2 - 1)) ∧
   (∀ (d : Dev) (e : Fin 9) again, again = d.sirocco.again[e] →
     (∀ p, again.find? (fun p => p.2 = 0 && d.testable e p.1) = some p → d.takeRegion e =
       ({ d with sirocco := { d.sirocco with again := d.sirocco.again.set e (again.erase p) } } : Dev).saveRegion e p.1) ∧
     (∀ i f, again.find? (fun p => p.2 = 0 && d.testable e p.1) = none → i = d.skipTo e 4 d.sirocco.next[e] →
       f = (if i < passRegions e ∨ 8 ≤ e.val then d else d.countSat (F.CL_SIR_STATUS_PASSES e)) →
       ∀ n, n = (if i < passRegions e then i else 0) → d.takeRegion e =
         ({ f with sirocco := { f.sirocco with next := f.sirocco.next.set e (n + 1) } } : Dev).saveRegion e n)) ∧
   (∀ (d : Dev) e n, n ≤ d.skipTo e 4 n ∧ (d.skipTo e 4 n < passRegions e → d.testable e (d.skipTo e 4 n) = true) ∧
     (∀ j, n ≤ j → j < d.skipTo e 4 n → j < passRegions e → d.testable e j = false)) ∧
   (∀ (d : Dev) (e : Fin 9) i, i < passRegions e → ∃ t, (d.saveRegion e i).testing e = some t ∧ t.idx = i ∧ t.start = d.ev.elapsed ∧
     t.saved.length = 256) ∧
   (∀ (d : Dev) (k : Fin 8) m a, (d.cellFail k m a).get (F.CL_SIR_STATUS_FAIL k) = 1 ∧
     (d.flag (F.CL_SIR_FAIL_ADDR_VALID k) = true → d.cellFail k m a = d.set (F.CL_SIR_STATUS_FAIL k) 1) ∧
     (d.flag (F.CL_SIR_FAIL_ADDR_VALID k) = false → (d.cellFail k m a).get (F.CL_SIR_FAIL_ADDR_VALID k) = 1)) ∧
   (∀ (d : Dev) m a, d.cellFail 8 m a = { d with sirocco := { d.sirocco with fails := d.sirocco.fails + 1
                                                                             failed := if d.sirocco.failed.isSome then d.sirocco.failed else some (m, a / 64 * 64) } }))

/-- A new pin rate waits for its IDLE point: no streamed play, head load or copy; then the rate in force already is DONE, an
untrained one REJECTED with REASON 1, one taken during a slice deferred to its end; a change holds the memory, and takes force when
its PLLs have relocked, or FREQ_RELOCK_TIMEOUT restores the old set, FAILED with REASON 2 (R334 to R337, R341). REMAP is REJECTED
while a channel runs, a ring is bound or a copy runs, waits behind a rate change or a slice, and otherwise retires the FENCED
pseudo-channels with every head slot and every byte of waveform memory lost; a second one is queued (R58, R345). RETRAIN names one
pseudo-channel, or every mapped one; a RETIRED one is REJECTED, with none to train it ends DONE; a second one is queued (R58, R340,
R344). RETRAIN_SLICE runs a slice of the training in progress, else of the lowest pseudo-channel due, else of the background
training, at its distance from the last; at most 16 make a training (R338, R340). At the end of a slice or of a change what waited
resumes in its order: BAR4 reads, re-reads of stale records, a REMAP (R335, R340, R345). A stack that loses its source has its
pseudo-channels FENCED, and a slice of one of them ends (R374). A slice that ends without more to come: passed,
the pseudo-channel is GOOD; comparing but failing, DEGRADED or FENCED, with the cause (R340, R343). The lengths of a slice and of
a change are free within their bounds (log entry 29). -/
def Obligations.RatesMapsAndTraining : Prop :=
  ((∀ relocked s, s.dev.pendingOf F.MEM_FREQ_CTRL_RATE = none → Becomes (.freqChange relocked) s s.dev) ∧
   (∀ relocked s v acc d e, d = s.dev → d.pendingOf F.MEM_FREQ_CTRL_RATE = some (v, acc) → e = d.dropPending F.MEM_FREQ_CTRL_RATE →
     (d.freqIdle = false ∨ d.memHeld = true ∨ d.hbm.deferred ≠ none ∨ d.tripped = true ∨ d.ev.elapsed < acc + 2 →
       Becomes (.freqChange relocked) s d) ∧
     (d.freqIdle = true → d.memHeld = false → d.hbm.deferred = none → d.tripped = false → acc + 2 ≤ d.ev.elapsed →
       (v = e.get F.MEM_FREQ_CTRL_RATE → Becomes (.freqChange relocked) s
         ((e.set F.MEM_FREQ_STATUS_CODE 2).set F.MEM_FREQ_STATUS_REASON 0)) ∧
       (v ≠ e.get F.MEM_FREQ_CTRL_RATE → e.hbm.trained.contains v = false → Becomes (.freqChange relocked) s
         (((e.set F.MEM_FREQ_STATUS_CODE 6).set F.MEM_FREQ_STATUS_REASON 1).set F.MEM_IRQ_STATUS_FREQ 1)) ∧
       (v ≠ e.get F.MEM_FREQ_CTRL_RATE → e.hbm.trained.contains v = true → e.hbm.slice ≠ none → Becomes (.freqChange relocked) s
         { (e.set F.MEM_FREQ_STATUS_CODE 1).set F.MEM_FREQ_STATUS_DEFERRED 1 with hbm := { e.hbm with deferred := some (v, relocked) } }) ∧
       (v ≠ e.get F.MEM_FREQ_CTRL_RATE → e.hbm.trained.contains v = true → e.hbm.slice = none →
         Ends (.freqChange relocked) s fun t => t.hbm.newRate = some v ∧ t.hbm.pages = [] ∧ t.get F.MEM_FREQ_STATUS_CODE = 1 ∧
           t.hbm.changeAt = d.ev.elapsed ∧ (relocked = false → t.hbm.changeEnd = none) ∧
           (relocked = true → ∃ n, t.hbm.changeEnd = some n ∧ d.ev.elapsed < n ∧ n ≤ d.ev.elapsed + 4800) ∧
           t.mem = d.mem ∧ AllChans d t))) ∧
   (∀ (d : Dev) v n, d.tripped = false → d.hbm.newRate = some v → d.hbm.changeEnd = some n →
     (d.ev.elapsed < n → d.freqTick = d) ∧ (n ≤ d.ev.elapsed → d.freqTick = d.takeRate v)) ∧
   (∀ s, (s.dev.memHeld = false ∨ s.dev.hbm.changeEnd ≠ none ∨ s.dev.ev.elapsed < s.dev.hbm.changeAt + 8000 →
       Becomes .freqRelockTimeout s s.dev) ∧
     (s.dev.memHeld = true → s.dev.hbm.changeEnd = none → s.dev.hbm.changeAt + 8000 ≤ s.dev.ev.elapsed →
       Becomes .freqRelockTimeout s (s.dev.changeEnds 4 2))) ∧
   (∀ (d : Dev) code reason e,
     e = d.liveStacks.foldl (fun (d : Dev) k => ((d.set (F.HBM_STATUS_POWER k) 2).setRuns (23 + k) true).setRuns (27 + k) true)
       { d with hbm := { d.hbm with newRate := none, changeEnd := none } } →
     d.changeEnds code reason =
       (((e.set F.MEM_FREQ_STATUS_CODE code).set F.MEM_FREQ_STATUS_REASON reason).set F.MEM_IRQ_STATUS_FREQ 1).memServes) ∧
   (∀ (d : Dev) e r rs q qs, (e = d.serveReads d.hbm.reads → d.memServes = (e.readAgain e.rings.again).remapResume) ∧
     d.serveReads [] = { d with hbm := { d.hbm with reads := [] } } ∧
     (d.heldAt r.1 (min r.2.1 (d.capacity - r.1)) = true → d.serveReads (r :: rs) = { d with hbm := { d.hbm with reads := r :: rs } }) ∧
     (d.heldAt r.1 (min r.2.1 (d.capacity - r.1)) = false → d.serveReads (r :: rs) = (d.bar4Serve r.1 r.2.1 r.2.2).serveReads rs) ∧
     d.readAgain [] = { d with rings := { d.rings with again := [] } } ∧ (d.staleOf q = none → d.readAgain (q :: qs) = d.readAgain qs) ∧
     (∀ i, d.staleOf q = some i → d.heldAt (d.recAddr q i) 64 = true →
       d.readAgain (q :: qs) = { d with rings := { d.rings with again := q :: qs } }) ∧
     (∀ i, d.staleOf q = some i → d.heldAt (d.recAddr q i) 64 = false → d.readAgain (q :: qs) = (d.reReadNow q i).readAgain qs)) ∧
   (∀ s d, d = s.dev → (d.flag F.MEM_MAP_CTRL_REMAP = true → Becomes .remap s (d.set F.MEM_MAP_CTRL_PENDING 1)) ∧
     (d.flag F.MEM_MAP_CTRL_REMAP = false → (∃ c, (d.ch c).quiet = false) → Becomes .remap s (d.remapEnds 6 1)) ∧
     (d.flag F.MEM_MAP_CTRL_REMAP = false → (∀ c, (d.ch c).quiet = true) →
       ((∃ q, q ∈ d.boundRings ∧ d.ringState q ≠ 0) → Becomes .remap s (d.remapEnds 6 2)) ∧
       ((∀ q, q ∈ d.boundRings → d.ringState q = 0) →
         ((∃ f, f ∈ d.fills.toList ∧ f.isSome = true) → Becomes .remap s (d.remapEnds 6 3)) ∧
         ((∀ f, f ∈ d.fills.toList → f = none) →
           (d.memHeld = true ∨ d.hbm.slice ≠ none →
             Becomes .remap s ((d.set F.MEM_MAP_CTRL_REMAP 1).set F.MEM_MAP_STATUS_CODE 1)) ∧
           (d.memHeld = false → d.hbm.slice = none → Ends .remap s fun t =>
             t.mem.hbm = Store.empty ∧ t.hbm.pages = [] ∧ t.hbm.posted = [] ∧ (∀ x, x ∈ t.heads → ∀ c i, x.1 ≠ entryKey c i) ∧
             t.get F.MEM_MAP_STATUS_CODE = 2 ∧ t.get F.MEM_MAP_STATUS_REASON = 0 ∧ t.get F.MEM_MAP_CTRL_REMAP = 0 ∧
             t.get F.MEM_IRQ_STATUS_REMAP = 1 ∧ t.get F.MEM_HEALTH_MAPPED = (if 4 ≤ d.stage then t.mapped.length else d.get F.MEM_HEALTH_MAPPED) ∧
             (∀ p, p < 128 → t.pcState p = (if d.pcState p = 2 then 3 else d.pcState p))))))) ∧
   (∀ d : Dev, (d.flag F.MEM_MAP_CTRL_REMAP = false ∨ d.memHeld = true ∨ d.hbm.slice ≠ none → d.remapResume = d) ∧
     (d.flag F.MEM_MAP_CTRL_REMAP = true → d.memHeld = false → d.hbm.slice = none →
       (d.remapNow.flag F.MEM_MAP_CTRL_PENDING = false → d.remapResume = d.remapNow) ∧
       (d.remapNow.flag F.MEM_MAP_CTRL_PENDING = true → d.remapResume = (d.remapNow.set F.MEM_MAP_CTRL_PENDING 0).takeRemap))) ∧
   (∀ (d : Dev) code reason, d.remapEnds code reason = (((d.set F.MEM_MAP_STATUS_CODE code).set F.MEM_MAP_STATUS_REASON reason).set
     F.MEM_IRQ_STATUS_REMAP 1).set F.MEM_MAP_CTRL_REMAP 0)) ∧
  ((∀ s, s.dev.flag F.MEM_TRAIN_CMD_RETRAIN = true → Becomes .retrain s (s.dev.set F.MEM_TRAIN_CMD_PENDING 1)) ∧
   (∀ s d ps, d = s.dev → d.flag F.MEM_TRAIN_CMD_RETRAIN = false →
     ps = (if d.flag F.MEM_TRAIN_CMD_ALL = true then d.mapped else [d.get F.MEM_TRAIN_CMD_P]).filter (fun p => d.pcState p < 2) →
     (d.flag F.MEM_TRAIN_CMD_ALL = false → d.pcState (d.get F.MEM_TRAIN_CMD_P) = 3 → Becomes .retrain s (d.retrainEnds 6)) ∧
     (d.flag F.MEM_TRAIN_CMD_ALL = true ∨ d.pcState (d.get F.MEM_TRAIN_CMD_P) ≠ 3 →
       (ps = [] → Becomes .retrain s (d.retrainEnds 2)) ∧
       (∀ g, ps ≠ [] → g = (d.set F.MEM_TRAIN_CMD_RETRAIN 1).set F.MEM_TRAIN_STATUS_CODE 1 →
         Becomes .retrain s (({ g with hbm := { g.hbm with named := ps, namedBad := false } } : Dev).makeDue ps)))) ∧
   (∀ (d : Dev) q rest, (∀ t, d.hbm.training = some t → d.nextSlice = some t) ∧
     (d.hbm.training = none → d.hbm.due = q :: rest → d.nextSlice = some (d.get F.MEM_FREQ_CTRL_RATE, q)) ∧
     (d.hbm.training = none → d.hbm.due = [] → d.nextSlice = d.nextTraining)) ∧
   (∀ d : Dev, d.sliceReady = true ↔ 4 ≤ d.stage ∧ d.hbm.newRate = none ∧ d.hbm.slice = none ∧ d.tripped = false ∧
     d.flag F.MGMT_STATUS_READY = true ∧
     ∀ t, d.hbm.lastSlice = some t → t + 4000 * max 2 (d.get F.MEM_RETRAIN_CFG_GAP) ≤ d.ev.elapsed) ∧
   (∀ (p : Fin 128) r s, s.dev.sliceReady = false ∨ s.dev.nextSlice = none → Becomes (.retrainSlice p r) s s.dev) ∧
   (∀ (p : Fin 128) r s rate q d, d = s.dev → d.sliceReady = true → d.nextSlice = some (rate, q) →
     (q ≠ p.val ∨ (r = .more ∧ 15 ≤ d.hbm.slices) → Becomes (.retrainSlice p r) s d) ∧
     (q = p.val → r ≠ .more ∨ d.hbm.slices < 15 → Becomes (.retrainSlice p r) s (d.startSlice rate q r))) ∧
   (∀ (d : Dev) rate p r t, p < 128 → t = d.startSlice rate p r → t.hbm.lastSlice = some d.ev.elapsed ∧ t.hbm.slices = d.hbm.slices + 1 ∧
     t.hbm.training = some (rate, p) ∧ (∃ n, t.hbm.slice = some (r, n) ∧ d.ev.elapsed < n ∧ n ≤ d.ev.elapsed + 3200) ∧
     t.get F.MEM_TRAIN_STATUS_CUR = p ∧ t.get (F.HBM_STATUS_POWER (p / 32)) = 3 ∧ AllChans d t ∧ t.mem = d.mem) ∧
   (∀ (d : Dev) r n rate p, d.tripped = false → d.hbm.slice = some (r, n) → d.hbm.training = some (rate, p) →
     (d.ev.elapsed < n → d.sliceTick = d) ∧
     (∀ e f, n ≤ d.ev.elapsed →
       e = (if d.get (F.HBM_STATUS_POWER (p / 32)) = 3 then d.set (F.HBM_STATUS_POWER (p / 32)) 2 else d) →
       f = ({ e with hbm := { e.hbm with slice := none } } : Dev).sliceFound rate p r → d.sliceTick = f.afterSlice)) ∧
   (∀ d : Dev, (d.hbm.deferred = none → d.afterSlice = d.memServes) ∧
     (∀ v relocked, d.hbm.deferred = some (v, relocked) → d.afterSlice =
       Dev.startChange { d.set F.MEM_FREQ_STATUS_DEFERRED 0 with hbm := { d.hbm with deferred := none } } v relocked)) ∧
   (∀ (d : Dev) k ps g, ps = (List.range 32).map (fun i => 32 * k + i) →
     g = ((ps.foldl (fun (d : Dev) p => if d.pcState p < 2 then d.setPcState p 2 else d) d).set F.MEM_IRQ_STATUS_FENCED 1).makeDue [] →
     ((∀ r p, d.hbm.training = some (r, p) → p / 32 ≠ k) → d.fenceStack k = g.namedEnd ps true) ∧
     (∀ r p e f, d.hbm.training = some (r, p) → p / 32 = k →
       e = (if d.hbm.slice ≠ none ∧ g.get (F.HBM_STATUS_POWER k) = 3 then g.set (F.HBM_STATUS_POWER k) 2 else g) →
       f = ({ e.set F.MEM_TRAIN_STATUS_BUSY 0 with hbm := { e.hbm with slice := none, training := none, slices := 0 } } : Dev).namedEnd
         ps true →
       (d.hbm.slice = none → d.fenceStack k = f) ∧ (d.hbm.slice ≠ none → d.fenceStack k = f.afterSlice))) ∧
   (∀ (d : Dev) rate p r f, f = ({ d with hbm := { d.hbm with training := none, slices := 0 } } : Dev) →
     (r = .more → d.sliceFound rate p r = d) ∧
     (r ≠ .more → rate ≠ d.get F.MEM_FREQ_CTRL_RATE →
       (r = .passed → d.sliceFound rate p r = f.setTrained rate p) ∧ (r ≠ .passed → d.sliceFound rate p r = f)) ∧
     (rate = d.get F.MEM_FREQ_CTRL_RATE →
       (r = .passed → d.sliceFound rate p r = ((f.trainedNow rate p).setPcState p 0).retrained p false) ∧
       (r = .comparePasses → d.sliceFound rate p r = ((f.setPcState p 1).set F.MEM_IRQ_STATUS_DEGRADED 1).retrained p true) ∧
       (r = .compareFails → d.sliceFound rate p r = ((f.setPcState p 2).set F.MEM_IRQ_STATUS_FENCED 1).retrained p true))) ∧
   (∀ (d : Dev) code, (d.retrainEnds code) = ((((d.set F.MEM_TRAIN_STATUS_CODE code).set F.MEM_IRQ_STATUS_TRAIN 1).set
     F.MEM_TRAIN_CMD_RETRAIN 0).set F.MEM_TRAIN_STATUS_BUSY 0)))

/-! ### Clocks (R245, R362 to R375, R379, R432) -/

/-- The staged multiplier of the sample PLL in units of 2^−32. -/
def Sys2Proof.Claims.stagedMult (d : Dev) : Nat := d.get F.CLK_SPLL_CFG_N * 2 ^ 32 + d.get F.CLK_SPLL_FRAC_F

/-- APPLY runs: CODE RUNNING, REASON 0; the boundary count and the multiplier are held until it ends. -/
def Sys2Proof.Claims.applyRuns (d : Dev) (relock : Bool) : Dev :=
  let e := ((d.set F.CLK_SPLL_CTRL_APPLY 1).set F.CLK_SPLL_STATUS_CODE 1).set F.CLK_SPLL_STATUS_REASON 0
  { e with clk := { e.clk with apply := some (relock, Claims.stagedMult d, e.ev.elapsed) } }

/-- An APPLY ends with a record and its cause (R364). -/
def Sys2Proof.Claims.applyEnds (d : Dev) (code reason : Nat) : Dev :=
  let e := (((d.set F.CLK_SPLL_STATUS_CODE code).set F.CLK_SPLL_STATUS_REASON reason).set F.CLK_SPLL_CTRL_APPLY 0).set F.CLK_IRQ_STATUS_APPLY 1
  { e with clk := { e.clk with apply := none } }

/-- The sample PLL in a state; FERR reads 0 outside COAST (R371). -/
def Sys2Proof.Claims.pllState (d : Dev) (v : Nat) : Dev :=
  (if v = 4 then d else d.set F.CLK_FERR_ERR 0).set F.CLK_SPLL_STATUS_STATE v

/-- A window of 2^15 reference periods passes when its count of sample-clock cycles is within 4 of the multiplier (R365). -/
def Sys2Proof.Claims.windowOk (d : Dev) (count : Nat) : Prop := count * 2 ^ 17 ≤ d.clk.mult + 4 * 2 ^ 17 ∧ d.clk.mult ≤ (count + 4) * 2 ^ 17

/-- APPLY is queued behind one that runs (R58); one outside the ranges is REJECTED 1, in COAST 2; a small step slews; a larger
one needs every channel in IDLE and no array, else REJECTED 3, and relocks on bypass (R363, R364). With no valid measurement of
REFIN one is REJECTED 1 too, but 2 in COAST (log entry 26). SLEW_END and APPLY_LOCK_TIMEOUT end it, DONE or FAILED 4; a queued one
follows. LOCK_WINDOW counts passing windows up to 8: eight in ACQUIRE
declare lock and wait for a SYNC edge, eight in COAST return to LOCKED, a failing one while LOCKED raises its cause (R365,
R372). -/
def Obligations.TheSamplePllAppliesAndLocks : Prop :=
  (∀ s, s.dev.flag F.CLK_SPLL_CTRL_APPLY = true → Becomes .spllApply s (s.dev.set F.CLK_SPLL_CTRL_PENDING 1)) ∧
  (∀ s d dist, d = s.dev → dist = max (Claims.stagedMult d - d.clk.lockMult) (d.clk.lockMult - Claims.stagedMult d) →
    d.flag F.CLK_SPLL_CTRL_APPLY = false →
    (d.flag F.CLK_REFIN_FREQ_VALID = true → d.spllInRange = false → Becomes .spllApply s (Claims.applyEnds d 6 1)) ∧
    (d.flag F.CLK_REFIN_FREQ_VALID = false ∨ d.spllInRange = true → d.get F.CLK_SPLL_STATUS_STATE = 4 →
      Becomes .spllApply s (Claims.applyEnds d 6 2)) ∧
    (d.flag F.CLK_REFIN_FREQ_VALID = false → d.get F.CLK_SPLL_STATUS_STATE ≠ 4 → Becomes .spllApply s (Claims.applyEnds d 6 1)) ∧
    (d.flag F.CLK_REFIN_FREQ_VALID = true → d.spllInRange = true → d.get F.CLK_SPLL_STATUS_STATE = 2 → d.get F.CLK_SPLL_CFG_PRE_M1 + 1 = d.clk.lockPre →
      dist * 1000000 ≤ 50 * d.clk.lockMult →
      Becomes .spllApply s (Claims.pllState (Claims.applyRuns d false) 3)) ∧
    (d.flag F.CLK_REFIN_FREQ_VALID = true → d.spllInRange = true → d.get F.CLK_SPLL_STATUS_STATE ≠ 4 →
      (d.get F.CLK_SPLL_STATUS_STATE ≠ 2 ∨ d.get F.CLK_SPLL_CFG_PRE_M1 + 1 ≠ d.clk.lockPre ∨ 50 * d.clk.lockMult < dist * 1000000) →
      ((∃ c, (d.ch c).st ≠ .idle) ∨ d.get F.LINK_STATUS_STATE ≠ 0 → Becomes .spllApply s (Claims.applyEnds d 6 3)) ∧
      (∀ e, (∀ c, (d.ch c).st = .idle) → d.get F.LINK_STATUS_STATE = 0 →
        e = ((Claims.applyRuns d true).toBypass 1).set F.CLK_SPLL_STATUS_WINS 0 →
        Becomes .spllApply s { e with clk := { e.clk with pre := d.get F.CLK_SPLL_CFG_PRE_M1 + 1, mult := Claims.stagedMult d } }))) ∧
  (∀ s d, d = s.dev →
    (∀ m t, d.clk.apply = some (false, m, t) → d.get F.CLK_SPLL_STATUS_STATE = 3 →
      ∃ e, e = Claims.pllState d 2 ∧
        Becomes .slewEnd s (Claims.applyEnds { e with clk := { e.clk with mult := m } } 2 0).nextApply) ∧
    (d.clk.apply = none ∨ d.get F.CLK_SPLL_STATUS_STATE ≠ 3 → Becomes .slewEnd s d) ∧
    (∀ m t, d.clk.apply = some (true, m, t) → Becomes .slewEnd s d ∧
      (d.get F.CLK_SPLL_STATUS_STATE ≠ 5 → t + 100 * 400000 ≤ d.ev.elapsed →
        Becomes .applyLockTimeout s (Claims.applyEnds d 4 4).nextApply) ∧
      (d.get F.CLK_SPLL_STATUS_STATE = 5 ∨ d.ev.elapsed < t + 100 * 400000 → Becomes .applyLockTimeout s d)) ∧
    (d.clk.apply = none → Becomes .applyLockTimeout s d) ∧ (∀ m t, d.clk.apply = some (false, m, t) → Becomes .applyLockTimeout s d)) ∧
  (∀ d : Dev, (d.flag F.CLK_SPLL_CTRL_PENDING = true → d.flag F.CLK_SPLL_CTRL_APPLY = false →
      d.nextApply = (d.set F.CLK_SPLL_CTRL_PENDING 0).startApply) ∧
    (d.flag F.CLK_SPLL_CTRL_PENDING = false → d.nextApply = d)) ∧
  (∀ count s, s.dev.sourceDown 9 = true → Becomes (.lockWindow count) s s.dev) ∧
  (∀ count s d st n e, d = s.dev → d.sourceDown 9 = false → st = d.get F.CLK_SPLL_STATUS_STATE → e = d.set F.CLK_SPLL_STATUS_WINS n →
    (Claims.windowOk d count → n = min 8 (d.get F.CLK_SPLL_STATUS_WINS + 1) →
      (st = 1 → n < 8 → Becomes (.lockWindow count) s e) ∧
      (∀ g, st = 1 → n = 8 →
        g = ((Claims.pllState e 5).set F.CLK_IRQ_STATUS_LOCK 1).set F.CLK_SYNC_STATUS_WAITING 1 →
        Becomes (.lockWindow count) s
          { g with clk := { g.clk with lockPre := g.clk.pre, lockMult := g.clk.mult, waitAt := g.ev.elapsed, firstTick := none } }) ∧
      (st = 2 ∨ st = 3 → Becomes (.lockWindow count) s e) ∧
      (st = 4 → d.clk.beyond = false → d.bypassed = false →
        (n < 8 → Becomes (.lockWindow count) s { e with clk := { e.clk with pulling := true } }) ∧
        (∀ g, n = 8 → g = Claims.pllState e 2 →
          Becomes (.lockWindow count) s { g with clk := { g.clk with pulling := false } }))) ∧
    (¬Claims.windowOk d count → n = 0 →
      (st = 1 ∨ st = 3 ∨ (st = 4 ∧ d.clk.beyond = false ∧ d.bypassed = false) → Becomes (.lockWindow count) s e) ∧
      (st = 2 → Becomes (.lockWindow count) s (e.set F.CLK_IRQ_STATUS_WIN_FAIL 1))) ∧
    (st = 0 ∨ 5 ≤ st ∨ (st = 4 ∧ (d.clk.beyond = true ∨ d.bypassed = true)) → Becomes (.lockWindow count) s d))

/-- The loss of source `i` recorded in CLK.LOSS, with its cause; but for REFIN, it stays stopped until RESTART (R374, R375). -/
def Sys2Proof.Claims.lost (d : Dev) (i : Nat) : Dev :=
  let e := ((d.set ⟨R.CLK_LOSS, i, 1⟩ 1).set ⟨R.CLK_LOSS, 16 + i, 1⟩ 0).set F.CLK_IRQ_STATUS_LOSS 1
  { e with clk := { e.clk with down := e.clk.down ||| BitVec.twoPow 10 i
                               stopped := if i = 9 then e.clk.stopped else e.clk.stopped ||| BitVec.twoPow 10 i } }

/-- A recorded source runs again (R375). -/
def Sys2Proof.Claims.back (d : Dev) (i : Nat) : Dev :=
  let e := if d.flag ⟨R.CLK_LOSS, i, 1⟩ then d.set ⟨R.CLK_LOSS, 16 + i, 1⟩ 1 else d
  { e with clk := { e.clk with down := e.clk.down &&& ~~~BitVec.twoPow 10 i } }

/-- The system PLL coasts from now on. -/
def Sys2Proof.Claims.sysCoasts (d : Dev) : Dev :=
  let e := d.set F.CLK_PLL_STATUS_SYS_COAST 1
  { e with clk := { e.clk with sysCoastAt := e.ev.elapsed } }

/-- COAST begins. -/
def Sys2Proof.Claims.coasts (d : Dev) : Dev :=
  let e := ((d.set F.CLK_SPLL_STATUS_STATE 4).set F.CLK_IRQ_STATUS_COAST 1).set F.CLK_SPLL_STATUS_WINS 0
  { e with clk := { e.clk with coastAt := e.ev.elapsed, pulling := false, beyond := false } }

/-- A coast beyond its limits parks every run; on bypass it goes once all have parked (R371). -/
def Sys2Proof.Claims.beyondLimits (d : Dev) : Dev :=
  let e := d.parkActive.set F.CLK_IRQ_STATUS_PARKED 1
  ({ e with clk := { e.clk with beyond := true } } : Dev).coastBypass

/-- REFIN_LOSS records the loss and invalidates the measured frequency; a locked or slewing loop coasts, a running slew ends
FAILED 5 with the multiplier somewhere between the old one and the new (log entry 26), an acquiring one starts over (R370, R373,
R374). COAST_WINDOW writes FERR; beyond 20 ppm, or after LOCK_TMO, the coast
is beyond limits. REFIN_RETURN takes the loss back (R371, R372). The frequency monitor writes REFIN_FREQ (R362). SOURCE_LOSS
records the loss and acts by its source: outputs safe, the system PLL coasting or on bypass, the sample PLL stopped
with its runs parked and a slewing APPLY FAILED, a stack FENCED, the PCIe or link PLL down (R374). SOURCE_BACK takes it back;
RESTART needs every recorded source running, REJECTED 1 otherwise and 2 for an HBM source, and relocks each PLL that stopped and
whose source runs (R375), and releases the safe states but those of a source still down or of a TRIP (R374, R438). SYS_APPLY needs a legal SYS_PRE, else REJECTED 3; SYS_BYPASS follows a coast of LOCK_TMO of a system PLL
fed from REFIN (R373). AON_STABLE starts domain 1 (R361). -/
def Obligations.ClockSourcesAreLostAndReturn : Prop :=
  ((∀ s d e, d = s.dev →
     e = (if d.clk.sysRefin && !d.flag F.CLK_PLL_STATUS_SYS_COAST then Claims.sysCoasts ((Claims.lost d 9).set F.CLK_REFIN_FREQ_VALID 0)
       else (Claims.lost d 9).set F.CLK_REFIN_FREQ_VALID 0) →
     (∀ st, st = e.get F.CLK_SPLL_STATUS_STATE →
       (st = 2 → Becomes .refinLoss s (Claims.coasts e)) ∧
       (∀ m t, st = 3 → e.clk.apply = some (false, m, t) → ∃ v g, min m e.clk.mult ≤ v ∧ v ≤ max m e.clk.mult ∧
         g = ({ e with clk := { e.clk with mult := v }, free := e.free + 1 } : Dev) ∧
         Becomes .refinLoss s (Claims.applyEnds (Claims.coasts g) 4 5).nextApply) ∧
       (st = 3 → (∀ m t, e.clk.apply ≠ some (false, m, t)) → Becomes .refinLoss s (Claims.applyEnds (Claims.coasts e) 4 5).nextApply) ∧
       (st = 4 → Becomes .refinLoss s { e with clk := { e.clk with pulling := false } }) ∧
       (∀ g, st = 5 → g = ((Claims.pllState e 1).set F.CLK_SPLL_STATUS_WINS 0).set F.CLK_SYNC_STATUS_WAITING 0 →
         Becomes .refinLoss s { g with clk := { g.clk with firstTick := none } }) ∧
       (st = 1 → Becomes .refinLoss s (e.set F.CLK_SPLL_STATUS_WINS 0)) ∧
       (st = 0 ∨ 6 ≤ st → Becomes .refinLoss s e))) ∧
   (∀ (ferr : W32) s d, d = s.dev → d.get F.CLK_SPLL_STATUS_STATE = 4 → d.clk.pulling = false → d.clk.beyond = false → d.bypassed = false →
     (-2000 ≤ ferr.toInt → ferr.toInt ≤ 2000 → Becomes (.coastWindow ferr) s (d.wr R.CLK_FERR ferr)) ∧
     (ferr.toInt < -2000 ∨ 2000 < ferr.toInt → Becomes (.coastWindow ferr) s (Claims.beyondLimits (d.wr R.CLK_FERR ferr))) ∧
     (d.clk.coastAt + 400000 * max 1 (d.get F.CLK_MON_CFG_LOCK_TMO) ≤ d.ev.elapsed → Becomes .lockTmo s (Claims.beyondLimits d)) ∧
     (d.ev.elapsed < d.clk.coastAt + 400000 * max 1 (d.get F.CLK_MON_CFG_LOCK_TMO) → Becomes .lockTmo s d)) ∧
   (∀ (ferr : W32) s d, d = s.dev → d.get F.CLK_SPLL_STATUS_STATE ≠ 4 ∨ d.clk.pulling = true ∨ d.clk.beyond = true ∨ d.bypassed = true →
     Becomes (.coastWindow ferr) s d ∧ Becomes .lockTmo s d) ∧
   (∀ s, s.dev.sourceDown 9 = false → Becomes .refinReturn s s.dev) ∧
   (∀ s d e, d = s.dev → d.sourceDown 9 = true →
     e = (if (Claims.back d 9).clk.sysRefin && (Claims.back d 9).flag F.CLK_PLL_STATUS_SYS_COAST then (Claims.back d 9).coastOver else Claims.back d 9) →
     (e.get F.CLK_SPLL_STATUS_STATE = 2 → Becomes .refinReturn s e) ∧
     (e.get F.CLK_SPLL_STATUS_STATE ≠ 2 → e.get F.CLK_SPLL_STATUS_STATE ≠ 4 ∨ e.bypassed = false →
       Becomes .refinReturn s (e.set F.CLK_SPLL_STATUS_WINS 0)) ∧
     (e.get F.CLK_SPLL_STATUS_STATE = 4 → e.bypassed = true →
       Becomes .refinReturn s (Claims.pllState (e.set F.CLK_SPLL_STATUS_WINS 0) 1))) ∧
   (∀ d : Dev, d.coastOver = if d.clk.stopped.getLsbD 1 then d.set F.CLK_PLL_STATUS_SYS_COAST 0 else d.sysReturn) ∧
   (∀ khz s, (s.dev.sourceDown 9 = true ∨ s.dev.stage = 0 → Becomes (.frequencyMonitorWindow khz) s s.dev) ∧
     (s.dev.sourceDown 9 = false → s.dev.stage ≠ 0 → khz ≠ 0 →
       Becomes (.frequencyMonitorWindow khz) s ((s.dev.set F.CLK_REFIN_FREQ_KHZ khz).set F.CLK_REFIN_FREQ_VALID 1)) ∧
     (s.dev.sourceDown 9 = false → s.dev.stage ≠ 0 → khz = 0 →
       Becomes (.frequencyMonitorWindow khz) s ((s.dev.set F.CLK_REFIN_FREQ_KHZ 0).set F.CLK_REFIN_FREQ_VALID 0)))) ∧
  ((∀ (i : Fin 9) s, s.dev.sourceDown i = true → Becomes (.sourceLoss i) s s.dev) ∧
   (∀ (i : Fin 9) s d, d = Claims.lost s.dev i → s.dev.sourceDown i = false →
     (∀ e, i = 0 → e = ({ d with clk := { d.clk with safe := true } } : Dev) →
       (d.clk.sysRefin = false → d.flag F.CLK_PLL_STATUS_SYS_COAST = false → Becomes (.sourceLoss i) s (Claims.sysCoasts e)) ∧
       (d.clk.sysRefin = true ∨ d.flag F.CLK_PLL_STATUS_SYS_COAST = true → Becomes (.sourceLoss i) s e)) ∧
     (∀ e, i = 1 → e = (d.set F.CLK_PLL_STATUS_SYS_LOCK 0).set F.CLK_PLL_STATUS_SYS_BYPASS 1 →
       Becomes (.sourceLoss i) s e.senseLost) ∧
     (∀ e f, i = 2 → e = ({ d.parkActive with chans := d.parkActive.chans.map Chan.parkOutput } : Dev).parkAllCheck →
       f = (({ e with clk := { e.clk with safe := true } } : Dev).toBypass 6).set F.CLK_SPLL_STATUS_WINS 0 →
       (∀ m t, f.clk.apply = some (false, m, t) → Becomes (.sourceLoss i) s (Claims.applyEnds f 4 0).nextApply) ∧
       ((∀ m t, f.clk.apply ≠ some (false, m, t)) → Becomes (.sourceLoss i) s f)) ∧
     (3 ≤ i.val → i.val ≤ 6 → Becomes (.sourceLoss i) s ((d.set ⟨R.CLK_PLL_STATUS, i.val - 2, 1⟩ 0).fenceStack (i.val - 3))) ∧
     (i = 7 → Becomes (.sourceLoss i) s { d.set F.CLK_PLL_STATUS_PCIE_LOCK 0 with
       board := { d.board with msixOn := false, funcMask := false, d0 := true, barLog2 := 37 } }) ∧
     (i = 8 → Becomes (.sourceLoss i) s (((d.set F.CLK_PLL_STATUS_LINK_LOCK 0).portDown .e 1).portDown .w 1))) ∧
   (∀ (i : Fin 9) s d, d = Claims.back s.dev i → (s.dev.sourceDown i = false → Becomes (.sourceBack i) s s.dev) ∧
     (s.dev.sourceDown i = true → i ≠ 0 ∨ d.clk.sysRefin = true ∨ d.flag F.CLK_PLL_STATUS_SYS_COAST = false → Becomes (.sourceBack i) s d) ∧
     (s.dev.sourceDown i = true → i = 0 → d.clk.sysRefin = false → d.flag F.CLK_PLL_STATUS_SYS_COAST = true →
       Becomes (.sourceBack i) s d.coastOver)) ∧
   (∀ s d, d = s.dev →
     ((∃ i, i < 9 ∧ d.flag ⟨R.CLK_LOSS, i, 1⟩ = true ∧ d.sourceDown i = true) → Becomes .restart s (d.clkCmdEnds 6 1)) ∧
     ((∀ i, i < 9 → d.flag ⟨R.CLK_LOSS, i, 1⟩ = true → d.sourceDown i = false) →
       ((∃ i, 3 ≤ i ∧ i ≤ 6 ∧ d.flag ⟨R.CLK_LOSS, i, 1⟩ = true) → Becomes .restart s (d.clkCmdEnds 6 2)) ∧
       (∀ e f g, (∀ i, 3 ≤ i → i ≤ 6 → d.flag ⟨R.CLK_LOSS, i, 1⟩ = false) →
         e = (if d.clk.stopped.getLsbD 1 && !d.sourceDown 1 then d.sysReturn else d) →
         f = (if d.clk.stopped.getLsbD 7 && !d.sourceDown 7 then e.set F.CLK_PLL_STATUS_PCIE_LOCK 1 else e) →
         g = (if d.clk.stopped.getLsbD 8 && !d.sourceDown 8 && !f.bypassed then f.set F.CLK_PLL_STATUS_LINK_LOCK 1 else f) →
         ∀ h, h = (if g.get F.CLK_SPLL_STATUS_STATE = 6 ∧ d.sourceDown 2 = false then (Claims.pllState g 1).set F.CLK_SPLL_STATUS_WINS 0
           else g) →
         Becomes .restart s (({ h with clk := { h.clk with
           stopped := h.clk.stopped &&& (h.clk.down ||| 0x78)
           safe := decide (h.clk.down &&& 5 ≠ 0) || d.tripped } } : Dev).clkCmdEnds 2 0)))) ∧
   (∀ s d p, d = s.dev → p = d.get F.CLK_SYS_CFG_SYS_PRE → (p = 0 ∨ 20 < p → Becomes .sysApply s (d.clkCmdEnds 6 3)) ∧
     (∀ e, p ≠ 0 → p ≤ 20 → e = ({ d.senseLost with clk := { d.senseLost.clk with sysRefin := d.flag F.CLK_SYS_CFG_SRC } } : Dev) →
       ((if e.clk.sysRefin then e.sourceDown 9 else e.sourceDown 0) = true → Becomes .sysApply s ((Claims.sysCoasts e).clkCmdEnds 2 0)) ∧
       ((if e.clk.sysRefin then e.sourceDown 9 else e.sourceDown 0) = false → Becomes .sysApply s (e.coastOver.clkCmdEnds 2 0)))) ∧
   (∀ (d : Dev) code reason, d.clkCmdEnds code reason =
     ((d.set F.CLK_CMD_STATUS_CODE code).set F.CLK_CMD_STATUS_REASON reason).set F.CLK_IRQ_STATUS_CMD 1) ∧
   (∀ s d limit, d = s.dev → limit = d.clk.sysCoastAt + 400000 * max 1 (d.get F.CLK_MON_CFG_LOCK_TMO) →
     (d.clk.sysRefin = true → d.flag F.CLK_PLL_STATUS_SYS_COAST = true → d.flag F.CLK_PLL_STATUS_SYS_BYPASS = false → limit ≤ d.ev.elapsed →
       Becomes .sysBypass s (d.set F.CLK_PLL_STATUS_SYS_BYPASS 1).senseLost) ∧
     (d.clk.sysRefin = false ∨ d.flag F.CLK_PLL_STATUS_SYS_COAST = false ∨ d.flag F.CLK_PLL_STATUS_SYS_BYPASS = true ∨ d.ev.elapsed < limit →
       Becomes .sysBypass s d)) ∧
   (∀ s, (s.dev.board.good = false → Becomes .aonStable s s.dev) ∧
     (s.dev.board.good = true → Becomes .aonStable s (({ s.dev with clk := { s.dev.clk with aon := true } } : Dev).setRuns 1 true))))

/-- The held dividers are released at the edge chosen in SYNC_CFG, or at its timeout with FALLBACK, and once more at the edge of
ALIGN; the first tick boundary comes 256 + DLY sample periods later, in whole ticks (log entry 26); any other edge counts as SEEN
(R307, R368, R369). After a power-on reset DT starts at that boundary (R245); in ALIGN a worker probes its upstream hop there. EMIT begins a SYNCOUT pulse of
16 ticks in GENERATE, or is queued (R58, R369). Before Stage A SYNCIN and REFIN are high impedance (R386). GATE_REQUEST starts the quiesce handshake of a running Demand or Service domain
that is idle; GATE_ERR counts one that has not reported within 1,024 cycles, and captures the first (R26, R379). CLUSTER_WAKE
restarts a stopped cluster, but not after a TRIP (R432, R438). -/
def Obligations.DividersAndDomainsFollowTheirEdges : Prop :=
  ((∀ s, s.dev.stage = 0 → Becomes (.syncEdge true) s s.dev) ∧
   (∀ s d, d = s.dev → d.stage ≠ 0 → d.get F.LINK_STATUS_STATE = 1 → d.phaseNow = 3 → d.link.aligned = false →
     Becomes (.syncEdge true) s { d.release with link := { d.link with aligned := true } }) ∧
   (∀ pin s d, d = s.dev → d.get F.CLK_SPLL_STATUS_STATE = 5 → d.clk.firstTick = none →
     (pin = true → d.stage ≠ 0 ∧ ¬(d.get F.LINK_STATUS_STATE = 1 ∧ d.phaseNow = 3 ∧ d.link.aligned = false)) →
     (pin = decide (d.get F.CLK_SYNC_CFG_SRC = 1) → Becomes (.syncEdge pin) s d.release) ∧
     (pin = true → d.get F.CLK_SYNC_CFG_SRC ≠ 1 → Becomes (.syncEdge pin) s (d.countSat F.CLK_SYNC_STATUS_SEEN)) ∧
     (pin = false → d.get F.CLK_SYNC_CFG_SRC = 1 → Becomes (.syncEdge pin) s d)) ∧
   (∀ pin s d, d = s.dev → d.get F.CLK_SPLL_STATUS_STATE ≠ 5 ∨ d.clk.firstTick ≠ none →
     (pin = true → d.stage ≠ 0 → ¬(d.get F.LINK_STATUS_STATE = 1 ∧ d.phaseNow = 3 ∧ d.link.aligned = false) →
       Becomes (.syncEdge pin) s (d.countSat F.CLK_SYNC_STATUS_SEEN)) ∧
     (pin = false → Becomes (.syncEdge pin) s d)) ∧
   (∀ s d limit, d = s.dev → limit = d.clk.waitAt + 40000 * max 1 (d.get F.CLK_SYNC_CFG_SYNC_TMO) →
     (d.get F.CLK_SPLL_STATUS_STATE = 5 → d.clk.firstTick = none → d.get F.CLK_SYNC_CFG_SRC = 1 → limit ≤ d.ev.elapsed →
       Becomes .syncTimeout s (d.set F.CLK_SYNC_STATUS_FALLBACK 1).release) ∧
     (d.get F.CLK_SPLL_STATUS_STATE ≠ 5 ∨ d.clk.firstTick ≠ none ∨ d.get F.CLK_SYNC_CFG_SRC ≠ 1 ∨ d.ev.elapsed < limit →
       Becomes .syncTimeout s d)) ∧
   (∀ d : Dev, d.release = { d.set F.CLK_SYNC_STATUS_WAITING 0 with
     clk := { d.clk with firstTick := some (d.ev.elapsed + (256 + d.get F.CLK_SYNC_CFG_DLY + 15) / 16) } }) ∧
   (∀ (d : Dev) t, d.clk.firstTick = some t →
     (d.get F.CLK_SPLL_STATUS_STATE = 5 → d.ev.started = false → t ≤ d.ev.elapsed → d.firstStart = d.clocksReturn) ∧
     (d.ev.elapsed < t → d.firstStart = d ∧ d.alignTick = d) ∧
     (∀ e, d.get F.CLK_SPLL_STATUS_STATE ≠ 5 → t ≤ d.ev.elapsed → d.get F.LINK_STATUS_STATE = 1 → d.phaseNow = 3 →
       d.flag F.LINK_CFG_ROLE = false → e = ({ d with clk := { d.clk with firstTick := none } } : Dev) →
       d.alignTick = e.sendNeighbour .w 3 0 true)) ∧
   (∀ d : Dev, d.clocksReturn.ev.started = true ∧ d.clocksReturn.clk.firstTick = none ∧
     ((∀ m t, d.clk.apply ≠ some (true, m, t)) → d.clocksReturn.ev.counting = true ∧ d.clocksReturn.get F.CLK_SPLL_STATUS_STATE = 2)) ∧
   (∀ s d, d = s.dev → (d.clk.pulse.isSome = true → Becomes .emit s (d.set F.CLK_SYNC_CFG_PENDING 1)) ∧
     (∀ e, d.clk.pulse = none → d.get F.CLK_SYNC_CFG_OUT = 2 → d.flag F.CLK_SPLL_STATUS_MUTED = false → e = d.set F.CLK_SYNC_CFG_EMIT 1 →
       Becomes .emit s { e with clk := { e.clk with pulse := some (e.ev.elapsed + 17) } }) ∧
     (d.clk.pulse = none → d.get F.CLK_SYNC_CFG_OUT ≠ 2 ∨ d.flag F.CLK_SPLL_STATUS_MUTED = true → Becomes .emit s d))) ∧
  ((∀ (n : Fin 45) s d, d = s.dev →
     (6 ≤ n.val → d.runs n = true → d.domainIdle n = true → (∀ g, g ∈ d.clk.gates → g.1 ≠ n.val) →
       Becomes (.gateRequest n) s { d with clk := { d.clk with gates := d.clk.gates ++ [(n.val, d.ev.elapsed)] } }) ∧
     (n.val < 6 ∨ d.runs n = false ∨ d.domainIdle n = false ∨ (∃ g, g ∈ d.clk.gates ∧ g.1 = n.val) → Becomes (.gateRequest n) s d)) ∧
   (∀ (n : Fin 45) s d, d = s.dev → (d.clk.gates.find? (·.1 = n.val) = none → Becomes (.gateErr n) s d) ∧
     (∀ m t, d.clk.gates.find? (·.1 = n.val) = some (m, t) →
       (d.ev.elapsed < t + d.gateLimit n → Becomes (.gateErr n) s d) ∧
       (∀ e f, t + d.gateLimit n ≤ d.ev.elapsed → e = ({ d with clk := { d.clk with gates := d.clk.gates.filter (·.1 ≠ n.val) } } : Dev) →
         f = (e.countSat F.CLK_GATE_ERR_COUNT).set F.CLK_IRQ_STATUS_GATE_ERR 1 →
         (f.flag F.CLK_GATE_ERR_VALID = true → Becomes (.gateErr n) s f) ∧
         (f.flag F.CLK_GATE_ERR_VALID = false →
           Becomes (.gateErr n) s ((f.set F.CLK_GATE_ERR_DOMAIN n).set F.CLK_GATE_ERR_VALID 1))))) ∧
   (∀ (k : Fin 8) s, (s.dev.stage < 3 ∨ s.dev.tripped = true → Becomes (.clusterWake k) s s.dev) ∧
     (3 ≤ s.dev.stage → s.dev.tripped = false → s.dev.runs (7 + k.val) = true → Becomes (.clusterWake k) s (s.dev.setRuns (7 + k.val) true)) ∧
     (3 ≤ s.dev.stage → s.dev.tripped = false → s.dev.runs (7 + k.val) = false → Becomes (.clusterWake k) s
       { s.dev.setRuns (7 + k.val) true with ev := { s.dev.ev with wokeAt := s.dev.ev.wokeAt.set k (some s.dev.ev.dt) } })))

/-! ### Start-up, the mailbox, security commands, board ports (R381 to R394, R401, R407, R408, R411 to R414, R418 to R428) -/

/-- A Reckoner restart begins: READY 0, the cause, the challenge gone, one restart more (R391, R426). -/
def Sys2Proof.Claims.reckonerStops (d : Dev) : Dev :=
  let e := (d.set F.MGMT_STATUS_READY 0).set F.MGMT_IRQ_STATUS_RESTART 1
  { e with sec := { e.sec with challenge := none }, mgmt := { e.mgmt with restarts := e.mgmt.restarts + 1 } }

/-- Start-up stops with a reason (R385). -/
def Sys2Proof.Claims.stops (d : Dev) (code : Nat) : Dev := (d.set F.DEV_STAGE_STOPPED 1).set F.DEV_STAGE_STOP_CODE code

/-- POWER_GOOD, with nRESET low or not, NRESET_LOW (ignored below 100 ns, a power-on reset from 1 µs on, either between) and
SUPPLY_FAIL (R382, R383, R387): a power-on reset keeps flash and MTP, empties every other memory and idles every channel; it cuts off
a write of MTP or flash that runs. STAGE_ADVANCE takes a stage
only from the one before, under its conditions, or stops with a code of that stage (R384, R385, R438). Of the image slots that
boot, the one with the higher VERSION does, slot A of two equal ones, and stands in Reckoner SRAM; an image verifies by its header
and by its signature block, whose key digests to a programmed root that is not revoked (R410, R411, R417, R418; that the copy stands
from address 0 on is log entry 11). OTHER_SLOT_VERIFY writes its result once
(R418). RECKONER_RESTART fails the running command, and RECKONER_READY brings READY back and ends a RESTART
command (R391). -/
def Obligations.StartUpAdvancesStageByStage : Prop :=
  (∀ low s, (s.dev.board.good = true → Becomes (.powerGood low) s s.dev) ∧
    (s.dev.board.good = false → Becomes (.powerGood low) s
      { s.dev with board := { s.dev.board with rails := true, analog := true, good := !low } })) ∧
  (∀ ns s, (ns < 100 → Becomes (.nresetLow ns) s s.dev) ∧ (1000 ≤ ns → Becomes (.nresetLow ns) s s.dev.cutWrites.powerOnReset) ∧
    (∀ e, 100 ≤ ns → ns < 1000 → e = ({ s.dev with free := s.dev.free + 1 } : Dev) →
      Becomes (.nresetLow ns) s e ∨ Becomes (.nresetLow ns) s e.cutWrites.powerOnReset)) ∧
  (∀ analog s, Becomes (.supplyFail analog) s
      ({ s.dev.cutWrites with board := { s.dev.board with rails := false, analog := analog } } : Dev).powerOnReset ∧
    Ends (.supplyFail analog) s fun t => (∀ c, t.ch c = Chan.reset) ∧ t.board.good = false ∧
      ((∀ args, s.dev.mgmt.cmd ≠ some (0x11, args)) → t.mem.flash = s.dev.mem.flash)) ∧
  (∀ d : Dev, (∀ c, (d.cal c).saving = none) → d.mgmt.cmd = none → d.cutWrites = d) ∧
  (∀ (d : Dev) c, d.powerOnReset.ch c = Chan.reset ∧ d.powerOnReset.mem =
    ⟨Store.empty, Store.empty, Store.empty, Store.empty, Store.empty, Store.empty, d.mem.mtp, d.mem.flash⟩) ∧
  (∀ r s, s.dev.flag F.DEV_STAGE_STOPPED = true → Becomes (.stageAdvance r) s s.dev) ∧
  (∀ s d, d = s.dev → d.flag F.DEV_STAGE_STOPPED = false →
    (d.stage = 0 → d.board.good = true → d.clk.aon = true → Becomes (.stageAdvance .done) s
      ((((d.setRuns 4 true).setRuns 38 true).set F.CLK_PLL_STATUS_SYS_LOCK 1).set F.DEV_STAGE_STAGE 1)) ∧
    (d.stage = 0 → d.board.good = false ∨ d.clk.aon = false → Becomes (.stageAdvance .done) s d) ∧
    (d.stage = 1 →
      (d.hot = true → Becomes (.stageAdvance .done) s d) ∧
      (∀ slot, d.hot = false → d.bootSlot = some slot → Ends (.stageAdvance .done) s fun t =>
        t.stage = 2 ∧ t.get F.SEC_BOOT_SLOT = bit slot ∧ t.sec.rootLost = d.idRootLost ∧
        t.mem.reckoner = Store.empty.write 0 (d.slotImage slot) ∧ t.mem.ctx = Store.empty) ∧
      (d.hot = false → d.bootSlot = none →
        (d.slotVerifies false = true ∨ d.slotVerifies true = true → Becomes (.stageAdvance .done) s (Claims.stops d 0x12)) ∧
        (d.slotVerifies false = false → d.slotVerifies true = false → Becomes (.stageAdvance .done) s (Claims.stops d 0x11)))) ∧
    (∀ first, first = decide (d.slotWord false 2 < d.slotWord true 2) →
      (d.slotBoots first = true → d.bootSlot = some first) ∧
      (d.slotBoots first = false → d.slotBoots (!first) = true → d.bootSlot = some !first) ∧
      (d.slotBoots first = false → d.slotBoots (!first) = false → d.bootSlot = none)) ∧
    (∀ b, (d.slotVerifies b = true ↔ d.slotWord b 0 = 0x574B4653 ∧ d.slotWord b 1 = 0x10001 ∧ d.slotWord b 3 ≤ 1044464 ∧
        d.get F.SEC_LC_MIN_SVN ≤ d.slotWord b 2 / 2 ^ 24 ∧ Config.xmssVerifies (d.slotBlock b) (d.slotImage b) = true ∧
        ∃ r : Fin 4, d.sec.roots[r] ≠ 0 ∧ d.get F.SEC_LC_ROOT_REVOKED / 2 ^ r.val % 2 = 0 ∧
          digest32 ((d.slotBlock b).take 68) = leBytes 32 d.sec.roots[r].toNat) ∧
      (d.slotBoots b = true ↔ d.slotVerifies b = true ∧ d.slotWord b 2 / 2 ^ (20 + d.get F.SEC_LC_STATE) % 2 = 1)) ∧
    (d.stage = 2 → d.get F.CLK_SPLL_STATUS_STATE = 2 → d.ev.counting = true → Ends (.stageAdvance .done) s fun t => t.stage = 3) ∧
    (d.stage = 2 → d.get F.CLK_SPLL_STATUS_STATE ≠ 2 ∨ d.ev.counting = false → Becomes (.stageAdvance .done) s d) ∧
    (∀ ps, d.stage = 3 → (∀ p, p < 128 → ps.getLsbD p = false ∨ d.pcState p = 3) →
      Becomes (.stageAdvance (.trained ps)) s (Claims.stops d 0x30)) ∧
    (∀ ps p, d.stage = 3 → p < 128 → ps.getLsbD p = true → d.pcState p ≠ 3 →
      Ends (.stageAdvance (.trained ps)) s fun t => t.stage = 4 ∨ t.stage = 5) ∧
    (∀ code : BitVec 8, (d.stage = 1 ∧ (code.toNat = 0x10 ∨ code.toNat = 0x13)) ∨ (d.stage = 2 ∧ 0x20 ≤ code.toNat ∧ code.toNat ≤ 0x23) ∨
        (d.stage = 3 ∧ (code.toNat = 0x30 ∨ code.toNat = 0x31)) →
      Becomes (.stageAdvance (.stop code)) s (Claims.stops d code.toNat)) ∧
    (∀ code : BitVec 8, ¬((d.stage = 1 ∧ (code.toNat = 0x10 ∨ code.toNat = 0x13)) ∨ (d.stage = 2 ∧ 0x20 ≤ code.toNat ∧ code.toNat ≤ 0x23) ∨
        (d.stage = 3 ∧ (code.toNat = 0x30 ∨ code.toNat = 0x31))) → Becomes (.stageAdvance (.stop code)) s d) ∧
    (∀ r, 4 ≤ d.stage → Becomes (.stageAdvance r) s d)) ∧
  (∀ ok s, (s.dev.stage < 2 ∨ s.dev.flag F.SEC_BOOT_OTHER_DONE = true → Becomes (.otherSlotVerify ok) s s.dev) ∧
    (2 ≤ s.dev.stage → s.dev.flag F.SEC_BOOT_OTHER_DONE = false →
      Becomes (.otherSlotVerify ok) s ((s.dev.set F.SEC_BOOT_OTHER_DONE 1).set F.SEC_BOOT_OTHER_OK
        (if ok && s.dev.slotBoots (!s.dev.flag F.SEC_BOOT_SLOT) then 1 else 0)))) ∧
  (∀ s d, d = Claims.reckonerStops s.dev → (s.dev.flag F.MGMT_STATUS_READY = false → Becomes .reckonerRestart s s.dev) ∧
    (s.dev.flag F.MGMT_STATUS_READY = true →
      (s.dev.mgmt.cmd = none → Becomes .reckonerRestart s d) ∧
      (∀ op args, s.dev.mgmt.cmd = some (op, args) →
        (op = 4 → Becomes .reckonerRestart s d) ∧ (op ≠ 4 → Becomes .reckonerRestart s ((d.cutCommand false).mgmtEnds 4 7))))) ∧
  (∀ s e d, e = ((s.dev.loadImage (s.dev.flag F.SEC_BOOT_SLOT)).set F.MGMT_STATUS_READY 1).set F.MGMT_IRQ_STATUS_READY 1 →
    d = (List.finRange 32).foldl (fun (d : Dev) c => d.mtpDeferExpiry c) e →
    (s.dev.stage < 2 ∨ s.dev.flag F.MGMT_STATUS_READY = true ∨ s.dev.tripped = true → Becomes .reckonerReady s s.dev) ∧
    (2 ≤ s.dev.stage → s.dev.flag F.MGMT_STATUS_READY = false → s.dev.tripped = false →
      (d.mgmt.cmd = none → Becomes .reckonerReady s d) ∧
      (∀ op args, d.mgmt.cmd = some (op, args) →
        (op = 4 → Becomes .reckonerReady s ((d.bufResult []).mgmtEnds 2 0)) ∧ (op ≠ 4 → Becomes .reckonerReady s d))))

/-- After a TRIP a mailbox command that needs the security domain or the flash stands: all but INFO, HEALTH and RESTART (R438). -/
def Sys2Proof.Claims.stands (d : Dev) (op : Nat) : Prop := d.tripped = true ∧ op ≠ 1 ∧ op ≠ 3 ∧ op ≠ 4

/-- A mailbox command of OP `op`, where the low bits of ARG_0, below `vals`, select `fn`: the one that runs is carried out by
`f` on its captured arguments; while another runs it is queued; with none running its GO is taken first, which may reject
it (R58, R392, R393, R421). -/
def Sys2Proof.Claims.Mailbox (i : Instr) (op vals fn : Nat) (f : Dev → List W32 → Dev) : Prop :=
  (∀ s args, s.dev.mgmt.cmd = some (op, args) → (args.headD 0).toNat % vals = fn →
    (Claims.stands s.dev op → Becomes i s s.dev) ∧ (¬Claims.stands s.dev op → Becomes i s (f s.dev args))) ∧
  (∀ s o args, s.dev.mgmt.cmd = some (o, args) → (o ≠ op ∨ (args.headD 0).toNat % vals ≠ fn) →
    Becomes i s ((s.dev.set F.MGMT_CMD_OP op).set F.MGMT_CMD_PENDING 1)) ∧
  (∀ s a e, s.dev.mgmt.cmd = none → a = (s.dev.rd (R.MGMT_ARG 0)).toNat →
    e = ((s.dev.wr (R.MGMT_ARG 0) (BitVec.ofNat 32 (a / vals * vals + fn))).set F.MGMT_CMD_OP op).mgmtTake →
    (e.mgmt.cmd = none ∨ Claims.stands e op → Becomes i s e) ∧
    (∀ o args, e.mgmt.cmd = some (o, args) → ¬Claims.stands e op → Becomes i s (f e args)))

/-- The commands of the mailbox (R391 to R394, R413, R420 to R428). One taken captures OP and its arguments, and may be REJECTED:
4 with Reckoner not ready, 1 for an unknown OP, 2 for an argument out of range, 8 for the booted slot, 3 for a debug function that the
lifecycle or SEC.DBG_CTRL excludes. INFO and HEALTH answer; CAL_READ answers a record, FAILED 5 or 6; RESTART restarts Reckoner;
FLASH_WRITE is DONE, or FAILED 9 with its bytes open (log entry 24); REPORT signs with the next index, FAILED 0x0A or 0x0B, as
REPORT, IDENTITY and EXTEND end without the identity root (R420); IDENTITY, EXTEND, CHALLENGE; RESPOND is REJECTED 0x0D, 2 or 3, DONE
with what the token grants, or FAILED 0x0C. MGMT_ABORT discards the queued command and ends only FLASH_WRITE (R60); of another one
that runs the record keeps NOTHING_TO_ABORT. One that is not DONE has no result bytes. A command of SEC.CMD taken while it ran is
carried out at its end, and then a queued mailbox command is taken (R58, R429). -/
def Obligations.MailboxCommandsEndWithTheirRecord : Prop :=
  Claims.Mailbox .info 1 1 0 (fun d _ => (((((d.wr (R.MGMT_RES 0) (BitVec.ofNat 32 (Config.firmwareWord 0).toNat)).wr (R.MGMT_RES 1)
    (BitVec.ofNat 32 (Config.firmwareWord 1).toNat)).wr (R.MGMT_RES 2) (BitVec.ofNat 32 (let e := (d.res 0 (Config.firmwareWord 0).toNat).res 1 (Config.firmwareWord 1).toNat
      e.stage + e.get F.DEV_STAGE_STOP_CODE * 256 + e.get F.SEC_BOOT_SLOT * 65536 + (1 - e.get F.SEC_BOOT_CFG_OK) * 131072 +
      e.get F.DEV_STAGE_STOPPED * 262144))).bufResult []).mgmtEnds 2 0)) ∧
  (∀ lost, Claims.Mailbox (.calRead lost) 2 1 0 (fun d args => if lost then d.mgmtEnds 4 6 else match (if (args.getD 1 0).toNat = 0xFF then d.newestRecord (BitVec.ofNat 5 (args.getD 0 0).toNat).toFin
        else (d.records (BitVec.ofNat 5 (args.getD 0 0).toNat).toFin).find? (·.1 = (args.getD 1 0).toNat)) with
      | none => d.mgmtEnds 4 5
      | some (i, r) => (((d.bufResult r).wr (R.MGMT_RES 0) (BitVec.ofNat 32 (recNum r 4 4))).wr (R.MGMT_RES 1) (BitVec.ofNat 32 i)).mgmtEnds 2 0)) ∧
  Claims.Mailbox .health 3 1 0 (fun d _ => (d.bufResult d.healthReport).mgmtEnds 2 0) ∧
  Claims.Mailbox .mgmtRestart 4 1 0 (fun d _ => d.reckonerRestart) ∧
  (∀ ok, Claims.Mailbox (.flashWrite ok) 0x11 1 0 (fun d args =>
    let e := if (args.getD 2 0).toNat % 2 = 1 then d.flashPut (args.getD 0 0).toNat (List.replicate 4096 0xFF) else d
    if ok then ((e.flashPut (args.getD 0 0).toNat (e.buf (args.getD 1 0).toNat)).bufResult []).mgmtEnds 2 0
    else (e.flashSpoil (args.getD 0 0).toNat (args.getD 1 0).toNat).mgmtEnds 4 9)) ∧
  (∀ ok fails, Claims.Mailbox (.report ok fails) 0x10 4 0 (fun d _ =>
    if d.sec.rootLost then d.mgmtEnds 4 0x0B
    else if d.flag F.SEC_LC_IDKEY_RETIRED then d.mgmtEnds 4 0x0A
    else if 2 ^ 20 ≤ d.get (F.SEC_IDX_VALUE 0) then ((d.set F.SEC_LC_IDKEY_RETIRED 1).set F.SEC_IRQ_STATUS_RETIRED 1).mgmtEnds 4 0x0A
    else if d.get (F.SEC_IDX_VALUE 0) ≠ d.idxEnd then d.signReport
    else if ok then (d.reserve (min 2 fails)).signReport
    else (d.spoilEnds d.nextEndSlot 3).mgmtEnds 4 0x0B)) ∧
  (∀ (d : Dev) idx rep e, idx = d.get (F.SEC_IDX_VALUE 0) → rep = d.reportBytes idx (d.buf 32) →
    e = (d.set (F.SEC_IDX_VALUE 0) (idx + 1)).bufResult (rep ++ d.signature idx rep) →
    d.signReport = (if 2 ^ 20 < idx + 1 + 65536 then e.set F.SEC_IRQ_STATUS_IDX_LOW 1 else e).mgmtEnds 2 0) ∧
  Claims.Mailbox .identity 0x10 4 1 (fun d _ => if d.sec.rootLost then d.mgmtEnds 4 0x0B
    else (d.bufResult (d.serial ++ d.mtpBytes secKey 68 ++ d.mtpBytes secCert 2888)).mgmtEnds 2 0) ∧
  Claims.Mailbox .extend 0x10 4 2 (fun d args => if d.sec.rootLost then d.mgmtEnds 4 0x0B
    else (({ d with sec := { d.sec with runMeas := digest32 (d.sec.runMeas ++ d.buf (args.getD 1 0).toNat), extends_ := d.sec.extends_ + 1 } } : Dev).bufResult
      []).mgmtEnds 2 0) ∧
  Claims.Mailbox .challenge 0x12 2 0 (fun d _ =>
    let nonce := (List.range 32).map (Config.entropyByte d.free)
    (({ d with free := d.free + 1, sec := { d.sec with challenge := some nonce } } : Dev).bufResult (nonce ++ d.serial)).mgmtEnds 2 0) ∧
  Claims.Mailbox .respond 0x12 2 1 (fun d args => match d.sec.challenge with
    | none => d.mgmtEnds 6 0x0D
    | some nonce => if (args.getD 1 0).toNat = 0 ∨ 4096 < (args.getD 1 0).toNat then d.mgmtEnds 6 2
      else
        let t := d.buf (args.getD 1 0).toNat
        let e := ({ d with sec := { d.sec with challenge := none } } : Dev).bufResult []
        if !e.tokenVerifies nonce t then e.mgmtEnds 4 0x0C
        else if recNum t 4 1 = 1 ∧ e.locked.contains R.SEC_DBG_CTRL = true then (e.set F.DEV_ERR_STATUS_LOCK_VIOL 1).mgmtEnds 6 3
        else (e.grant t).mgmtEnds 2 0) ∧
  (∀ s d, d = s.dev.set F.MGMT_CMD_PENDING 0 →
    (d.mgmt.cmd = none → Becomes .mgmtAbort s (d.set F.MGMT_STATUS_ABRT 2)) ∧
    (∀ op args, d.mgmt.cmd = some (op, args) → (op ≠ 0x11 → Becomes .mgmtAbort s (d.set F.MGMT_STATUS_ABRT 2)) ∧
      (op = 0x11 → (args.getD 2 0).toNat % 2 = 1 → Becomes .mgmtAbort s ((d.flashSpoil (args.getD 0 0).toNat 4096).mgmtOver 3 1 0)) ∧
      (op = 0x11 → (args.getD 2 0).toNat % 2 ≠ 1 → Becomes .mgmtAbort s
        ((d.flashSpoil (args.getD 0 0).toNat (min 4096 (args.getD 1 0).toNat)).mgmtOver 3 1 0)))) ∧
  (∀ (d : Dev) code abrt reason e, e = (((((d.set F.MGMT_STATUS_CODE code).set F.MGMT_STATUS_ABRT abrt).set F.MGMT_STATUS_REASON
      reason).set F.MGMT_CMD_GO 0).set F.MGMT_IRQ_STATUS_DONE 1) → ∀ f g,
    f = (if code = 2 then e else e.set F.MGMT_LEN_BYTES 0) → g = ({ f with mgmt := { f.mgmt with cmd := none } } : Dev) →
    d.mgmtRecord code abrt reason = g ∧
    (g.secServe.flag F.MGMT_CMD_PENDING = false → d.mgmtOver code abrt reason = g.secServe) ∧
    (g.secServe.flag F.MGMT_CMD_PENDING = true → d.mgmtOver code abrt reason = (g.secServe.set F.MGMT_CMD_PENDING 0).mgmtTake) ∧
    d.mgmtEnds code reason = d.mgmtOver code (d.get F.MGMT_STATUS_ABRT) reason) ∧
  (∀ (d : Dev) q e, (d.mgmt.sec = none → d.secServe = d) ∧
    (d.mgmt.sec = some q → e = ({ d with mgmt := { d.mgmt with sec := none } } : Dev).secRun q →
      (e.flag F.SEC_CMD_PENDING = false → d.secServe = e) ∧
      (e.flag F.SEC_CMD_PENDING = true → d.secServe = (e.set F.SEC_CMD_PENDING 0).secRun e.secArgs))) ∧
  (∀ (d : Dev) op args e, op = d.get F.MGMT_CMD_OP → args = (List.range 8).map (fun i => d.rd (R.MGMT_ARG i)) →
    e = (((d.set F.MGMT_CMD_GO 1).set F.MGMT_STATUS_CODE 1).set F.MGMT_STATUS_ABRT 0).set F.MGMT_STATUS_REASON 0 →
    (∀ r, d.mgmtRejects op args = some r → d.mgmtTake = d.mgmtRecord 6 0 r) ∧
    (d.mgmtRejects op args = none → d.mgmtTake = { e with mgmt := { e.mgmt with cmd := some (op, args) } })) ∧
  (∀ (d : Dev) op (args : List W32) a n few, a = (args.getD 0 0).toNat → n = (args.getD 1 0).toNat → few = (n = 0 ∨ 4096 < n) →
    (d.flag F.MGMT_STATUS_READY = false → d.mgmtRejects op args = some 4) ∧
    (d.flag F.MGMT_STATUS_READY = true →
      (op = 1 ∨ op = 3 ∨ op = 4 → d.mgmtRejects op args = none) ∧
      (op = 2 → d.mgmtRejects op args = if 16 ≤ n ∧ n ≠ 0xFF then some 2 else none) ∧
      (op = 0x10 → (a % 4 = 3 ∨ (a % 4 = 2 ∧ few) → d.mgmtRejects op args = some 2) ∧
        (a % 4 ≠ 3 → a % 4 ≠ 2 ∨ ¬few → d.mgmtRejects op args = none)) ∧
      (op = 0x11 → (a % 4096 ≠ 0 ∨ few → d.mgmtRejects op args = some 2) ∧
        (∀ slot, a % 4096 = 0 → ¬few → slot = (if d.flag F.SEC_BOOT_SLOT then 0x200000 else 0x100000) →
          (a < slot + 0x100000 ∧ slot < a + n → d.mgmtRejects op args = some 8) ∧
          (slot + 0x100000 ≤ a ∨ a + n ≤ slot → d.mgmtRejects op args = none))) ∧
      (op = 0x12 → (d.get F.SEC_LC_STATE = 3 ∨ (a % 2 = 1 ∧ d.locked.contains R.SEC_DBG_CTRL = true) → d.mgmtRejects op args = some 3) ∧
        (d.get F.SEC_LC_STATE ≠ 3 → a % 2 ≠ 1 ∨ d.locked.contains R.SEC_DBG_CTRL = false → d.mgmtRejects op args = none)) ∧
      (op ∉ [1, 2, 3, 4, 0x10, 0x11, 0x12] → d.mgmtRejects op args = some 1)))

/-- A SEC.CMD command ends with a record and its cause (R427). -/
def Sys2Proof.Claims.secEnds (d : Dev) (code : Nat) : Dev :=
  (((d.set F.SEC_CMD_STATUS_CODE code).set F.SEC_CMD_STATUS_ABRT 0).set F.SEC_IRQ_STATUS_CMD 1).set F.SEC_CMD_GO 0

/-- A command of SEC.CMD is carried out at once: no other one waits, no mailbox command runs, no TRIP has stopped the unit. -/
def Sys2Proof.Claims.secFree (d : Dev) : Prop := d.mgmt.sec = none ∧ d.mgmt.cmd = none ∧ d.tripped = false

/-- A command of SEC.CMD, its fields written in `e`, is queued behind one that waits, and waits behind a mailbox command that runs
(R58, R429). -/
def Sys2Proof.Claims.SecWaits (i : Instr) (s : State) (e : Dev) : Prop :=
  (e.mgmt.sec ≠ none → Becomes i s (e.set F.SEC_CMD_PENDING 1)) ∧
  (e.mgmt.sec = none → e.mgmt.cmd ≠ none ∨ e.tripped = true → Becomes i s { e.set F.SEC_CMD_GO 1 with
    mgmt := { e.mgmt with sec := some (e.get F.SEC_CMD_OP, e.get F.SEC_CMD_R, e.get F.SEC_CMD_CONFIRM) } })

/-- The security commands (R419, R427, R429): ADVANCE_SVN burns the version up to that of the image; SCRAP needs CONFIRM, burns
SCRAPPED and retires the key; REVOKE_ROOT is REJECTED for an unprogrammed root and for the last one standing. Before Stage B
they do nothing (R384); behind a mailbox command that runs they wait. SMBus: a register read answers a status byte and the dword, a
write notes whether it was discarded, whatever discards it, and one with a bad PEC is (R53, R406, R407; where the STATUS bit shows
this is log entry 41); STATUS, ALERT_SRC, RESET with 0xD3 and a good PEC only, the Alert Response Address while ALERT is asserted
(R407, R408); before Stage A nothing answers. Loss of the PCIe link resets the configuration space only (R401), which requests
change and read while the link is up: power state, MSI-X, size of BAR4; IDs, class code, Interrupt Pin (R2, R397, R400). A test-port instruction that takes the pins parks
every channel (R414); with the supplies out of range the port does not answer (R386). A private opcode with the port unlocked is
refused: the spec states no effect (R414, R425). ALERT is asserted from Stage A on by an unmasked source or a recorded break (R313,
R386, R408); nFAULT from the rise of the 1.8 V rail on before Stage A, then by a source not restarted, a stopped start-up, CRIT or
TRIP (R386, R415, R438). -/
def Obligations.SecurityCommandsAndBoardPorts : Prop :=
  (∀ (r : Fin 4) s, s.dev.stage < 2 → Becomes .advanceSvn s s.dev ∧ Becomes .scrap s s.dev ∧ Becomes (.revokeRoot r) s s.dev) ∧
  (∀ s e, 2 ≤ s.dev.stage → e = s.dev.set F.SEC_CMD_OP 1 → Claims.SecWaits .advanceSvn s e ∧ (Claims.secFree e → Becomes .advanceSvn s
    (Claims.secEnds { e with sec := { e.sec with svn := max (min 64 (e.get F.SEC_BOOT_VER_VERSION / 2 ^ 24)) e.sec.svn } } 2))) ∧
  (∀ s e, 2 ≤ s.dev.stage → e = s.dev.set F.SEC_CMD_OP 2 → Claims.SecWaits .scrap s e ∧
    (Claims.secFree e → e.get F.SEC_CMD_CONFIRM = 0x5C4A → Becomes .scrap s (Claims.secEnds
      (((e.set F.SEC_LC_BURNED (max 3 (e.get F.SEC_LC_BURNED))).set F.SEC_LC_IDKEY_RETIRED 1).set F.SEC_IRQ_STATUS_RETIRED 1) 2)) ∧
    (Claims.secFree e → e.get F.SEC_CMD_CONFIRM ≠ 0x5C4A → Becomes .scrap s (Claims.secEnds e 6))) ∧
  (∀ (r : Fin 4) s e, 2 ≤ s.dev.stage → e = (s.dev.set F.SEC_CMD_R r).set F.SEC_CMD_OP 3 → Claims.SecWaits (.revokeRoot r) s e ∧
    (Claims.secFree e → s.dev.sec.roots[r] = 0 ∨ (∀ q : Fin 4, q ≠ r → s.dev.sec.roots[q] = 0 ∨ s.dev.sec.revoked.getLsbD q = true) ∧
        s.dev.sec.roots[r] ≠ 0 ∧ s.dev.sec.revoked.getLsbD r = false → Becomes (.revokeRoot r) s (Claims.secEnds e 6)) ∧
    (Claims.secFree e → s.dev.sec.roots[r] ≠ 0 → (s.dev.sec.revoked.getLsbD r = true ∨
        ∃ q : Fin 4, q ≠ r ∧ s.dev.sec.roots[q] ≠ 0 ∧ s.dev.sec.revoked.getLsbD q = false) →
      Becomes (.revokeRoot r) s
        (Claims.secEnds { e with sec := { e.sec with revoked := e.sec.revoked ||| BitVec.twoPow 4 r } } 2))) ∧
  (∀ a v data pec s, s.dev.stage = 0 → Becomes (.regRead a) s s.dev ∧ Becomes (.regWrite a v pec) s s.dev ∧ Becomes .smbStatus s s.dev ∧
    Becomes .alertSrc s s.dev ∧ Becomes (.smbReset data pec) s s.dev ∧ Becomes .alertResponse s s.dev) ∧
  (∀ a s, s.dev.stage ≠ 0 →
    (s.dev.smbServes a = true → Becomes (.regRead a) s { s.dev.fabricRead a 4 with reply := ⟨0 :: (s.dev.fabricRead a 4).reply.data, false⟩ }) ∧
    (s.dev.smbServes a = false → Becomes (.regRead a) s { s.dev.smbDiscard a with reply := ⟨[1, 0, 0, 0, 0], false⟩ })) ∧
  (∀ a v s e, s.dev.stage ≠ 0 →
    Becomes (.regWrite a v true) s { s.dev with board := { s.dev.board with smbBad := true } } ∧
    (s.dev.smbServes a = true → e = s.dev.fabricWrite a 0xF v →
      Becomes (.regWrite a v) s { e with board := { e.board with smbBad := s.dev.writeDiscarded a v } }) ∧
    (s.dev.smbServes a = false → e = s.dev.smbDiscard a → Becomes (.regWrite a v) s { e with board := { e.board with smbBad := true } })) ∧
  (∀ (d : Dev) a (v : W32), (windowOf a = none → 0x8000000 ≤ a → a < 0xC000000 → d.writeDiscarded a v = true) ∧
    (d.writeDiscarded R.SEC_DBG_CTRL v = true ↔ d.locked.contains R.SEC_DBG_CTRL = true ∨
      ((d.get F.SEC_LC_STATE = 1 ∨ d.get F.SEC_LC_STATE = 3) ∧ v &&& 7 ≠ 0))) ∧
  (∀ s d lo, d = s.dev → d.stage ≠ 0 →
    lo = d.stage + 16 * d.get F.DEV_STAGE_STOPPED + 32 * bit d.nFault + 64 * bit d.alert + 128 * bit d.board.smbBad →
    Becomes .smbStatus s { d with reply := ⟨leBytes 2 (lo + 256 * d.get F.DEV_STAGE_STOP_CODE), false⟩ }) ∧
  (∀ s, s.dev.stage ≠ 0 → Becomes .alertSrc s { s.dev with reply := ⟨leBytes 4 s.dev.alertSrc.toNat, false⟩ } ∧
    Becomes (.smbReset 0xD3) s s.dev.deviceReset ∧
    (∀ (data : Byte) pec, data ≠ 0xD3 ∨ pec = true → Becomes (.smbReset data pec) s s.dev) ∧
    (s.dev.alert = true → Becomes .alertResponse s
      { s.dev with reply := ⟨[BitVec.ofNat 8 (2 * (0x58 + s.dev.get F.DEV_PIN_STATUS_ADDR))], false⟩ }) ∧
    (s.dev.alert = false → Becomes .alertResponse s s.dev)) ∧
  (∀ d : Dev, d.alert = true ↔ d.stage ≠ 0 ∧ (d.alertSrc &&& d.rd R.DEV_ALERT_MASK ≠ 0 ∨ d.flag F.LINK_IRQ_STATUS_BREAK = true)) ∧
  (∀ d : Dev, d.nFault = true ↔ d.board.analog = true ∧ (d.stage = 0 ∨ d.clk.stopped ≠ 0 ∨ d.flag F.DEV_STAGE_STOPPED = true ∨
    2 ≤ d.get F.TELEM_THERM_LEVEL)) ∧
  (∀ a be v m more last w s, (s.dev.linkUp = false → Becomes (.registerWrite a be v m more last (some w)) s s.dev) ∧
    (s.dev.linkUp = true →
      (∀ d3, w = .power d3 → Becomes (.registerWrite a be v m more last (some w)) s { s.dev with board := { s.dev.board with d0 := !d3 } }) ∧
      (∀ on mask, w = .msix on mask → Becomes (.registerWrite a be v m more last (some w)) s
        { s.dev with board := { s.dev.board with msixOn := on, funcMask := mask } }) ∧
      (∀ n, w = .bar4 n → (28 ≤ n → n ≤ 37 →
          Becomes (.registerWrite a be v m more last (some w)) s { s.dev with board := { s.dev.board with barLog2 := n } }) ∧
        (n < 28 ∨ 37 < n → Becomes (.registerWrite a be v m more last (some w)) s s.dev)))) ∧
  (∀ off n b s, (s.dev.linkUp = false → Becomes (.windowRead off n b true) s s.dev) ∧
    (s.dev.linkUp = true → Ends (.windowRead off n b true) s fun t =>
      t.reply.data.length = n ∧ t.reply.ep = false ∧ RegsBut s.dev t [] ∧ AllChans s.dev t ∧ t.mem = s.dev.mem ∧
      RestSame { s.dev with free := s.dev.free + n } t ∧
      ∀ i, i < n → (off + i < 4 → t.reply.data.getD i 0 = (Config.configId >>> (8 * (off + i))).setWidth 8) ∧
        (9 ≤ off + i → off + i < 12 → t.reply.data.getD i 0 = (Config.classCode >>> (8 * (off + i - 9))).setWidth 8) ∧
        (off + i = 0x3D → t.reply.data.getD i 0 = 0))) ∧
  (∀ s, Becomes .pcieLinkLoss s { s.dev with board := { s.dev.board with msixOn := false, funcMask := false, d0 := true, barLog2 := 37 } }) ∧
  (∀ ir s e, e = ({ s.dev with board := { s.dev.board with jtag := ir } } : Dev) →
    (s.dev.board.rails = false → Becomes (.jtagInstruction ir) s s.dev) ∧
    (s.dev.board.rails = true → ir.toNat ∉ [0, 1, 2, 4, 5, 6, 7, 0xFF] → s.dev.flag F.SEC_DBG_CTRL_JTAG = true →
      exec (.jtagInstruction ir) s = .refused .privateJtag) ∧
    (s.dev.board.rails = true → ir.toNat ∈ [0, 1, 2, 4, 5, 6, 7, 0xFF] ∨ s.dev.flag F.SEC_DBG_CTRL_JTAG = false →
      (e.board.pinsTaken = true → s.dev.board.pinsTaken = false → Becomes (.jtagInstruction ir) s e.parkAll) ∧
      (e.board.pinsTaken = false ∨ s.dev.board.pinsTaken = true → Becomes (.jtagInstruction ir) s e)))

/-! ### Converters, calibration, ranges, rates, sensors (R213 to R219, R229 to R242, R288, R436 to R439, R441) -/

/-- The check of channel `c` starts over. -/
def Sys2Proof.Claims.checkRestarts (d : Dev) (c : Fin 32) : Dev := { d with cals := d.cals.set c { d.cals[c] with stepAt := d.ev.elapsed } }

/-- The sub-DAC whose last check failed for the first time. -/
def Sys2Proof.Claims.failedOnce (d : Dev) (c : Fin 32) (v : Option Nat) : Dev := { d with cals := d.cals.set c { d.cals[c] with failedOnce := v } }

/-- The check that passed last and waits for its swap. -/
def Sys2Proof.Claims.swapDue (d : Dev) (c : Fin 32) (v : Option Nat) : Dev := { d with cals := d.cals.set c { d.cals[c] with swapDue := v } }

/-- The positions of channel `c` that no sub-DAC serves. -/
def Sys2Proof.Claims.vacant (d : Dev) (c : Fin 32) (v : List Nat) : Dev := { d with cals := d.cals.set c { d.cals[c] with vacant := v } }

/-- A check of 20,000 ticks ends; a saturation at any time in it starts it over at the next tick. A good one (64 units, residual INL at
most 16) gives its values to the sub-DAC, one that fails twice in a row declares it FAILED; with rotation switched off the sub-DAC in
CAL becomes STANDBY instead (R213, R217, R231 to R233). A passed check swaps at the next frame boundary: a STANDBY, or with none the
checked one, takes over from the ACTIVE sub-DAC whose last check is oldest, which goes into CAL; a position left vacant is filled there
(R214, R216, R217, R229). The conversion is monotonic in the code whatever the drops of the coarse string are (R211, R212). -/
def Obligations.RotationChecksAndSwaps : Prop :=
  (∀ c saturated r s, (s.dev.cal c).run.isSome = true ∨ (s.dev.cal c).swapDue.isSome = true ∨ s.dev.runs (19 + chiplet c) = false ∨
      s.dev.flag F.CLK_PLL_STATUS_SYS_BYPASS = true ∨ s.dev.underCheck c = none ∨
      (∃ u, s.dev.underCheck c = some u ∧ (s.dev.ev.elapsed < s.dev.checkStart c u ∨
        (saturated = false ∧ s.dev.ev.elapsed < s.dev.checkStart c u + 20000))) →
    Becomes (.rotationStep c saturated r) s s.dev) ∧
  (∀ (c : Fin 32) saturated r s d u back, d = s.dev → (d.cal c).run = none → (d.cal c).swapDue = none → d.runs (19 + chiplet c) = true →
    d.flag F.CLK_PLL_STATUS_SYS_BYPASS = false → d.underCheck c = some u → d.checkStart c u ≤ d.ev.elapsed →
    back = Claims.failedOnce (d.setRole c u 2) c none →
    (saturated = true →
      (d.role c u = 1 ∧ d.flag (F.CH_DAC_CTRL_ROT c) = false → Becomes (.rotationStep c saturated r) s back) ∧
      (∀ e, d.role c u ≠ 1 ∨ d.flag (F.CH_DAC_CTRL_ROT c) = true → e = d.countSat (F.CH_CAL_CNT_LO c 1) →
        Becomes (.rotationStep c saturated r) s { e with cals := e.cals.set c { e.cals[c] with stepAt := d.ev.elapsed + 1 } })) ∧
    (saturated = false → d.checkStart c u + 20000 ≤ d.ev.elapsed →
      (r.passed = true → popcount r.use = 64 → r.rinl.toNat ≤ 16 →
        Becomes (.rotationStep c saturated r) s ((d.takeCheck c u r).checkPassed c u)) ∧
      (r.passed = false ∨ popcount r.use ≠ 64 ∨ 16 < r.rinl.toNat →
        (d.role c u = 1 ∧ d.flag (F.CH_DAC_CTRL_ROT c) = false → Becomes (.rotationStep c saturated r) s back) ∧
        (d.role c u ≠ 1 ∨ d.flag (F.CH_DAC_CTRL_ROT c) = true →
          ((d.cal c).failedOnce ≠ some u →
            Becomes (.rotationStep c saturated r) s (Claims.checkRestarts (Claims.failedOnce d c (some u)) c)) ∧
          ((d.cal c).failedOnce = some u → Becomes (.rotationStep c saturated r) s
            (Claims.checkRestarts ((Claims.failedOnce d c none).failSub c u) c)))))) ∧
  (∀ (d : Dev) (c : Fin 32) (u : Nat) e, e = Claims.checkRestarts (Claims.failedOnce d c none) c →
    (d.role c u ≠ 1 → d.checkPassed c u = e) ∧
    (d.role c u = 1 → d.flag (F.CH_DAC_CTRL_ROT c) = true → d.checkPassed c u = Claims.swapDue e c (some u)) ∧
    (d.role c u = 1 → d.flag (F.CH_DAC_CTRL_ROT c) = false → d.checkPassed c u = e.setRole c u 2)) ∧
  (∀ (d : Dev) (c : Fin 32),
    (((d.cal c).vacant = [] ∧ (d.cal c).swapDue = none) ∨ d.ev.dt.toNat % (16 / d.spt c) ≠ 0 → d.frameTick c = d) ∧
    (∀ u g, (d.cal c).vacant = [] → (d.cal c).swapDue = some u → d.ev.dt.toNat % (16 / d.spt c) = 0 →
      g = Claims.checkRestarts (((Claims.swapDue d c none).swapIn c u).countSat (F.CH_CAL_CNT_HI c 0)) c →
      d.frameTick c = (g.roleMix c).spurSync c) ∧
    (∀ p w, (d.cal c).vacant = [p] → (d.cal c).swapDue = none → d.inRole c 2 = some w → d.ev.dt.toNat % (16 / d.spt c) = 0 →
      d.frameTick c = ((Claims.vacant (d.serve c w p) c []).roleMix c).spurSync c)) ∧
  (∀ (d : Dev) (c : Fin 32) (u v p : Nat), (d.flag (F.CH_DAC_STATUS_ROT_ACTIVE c) = false → d.swapIn c u = d.setRole c u 2) ∧
    (d.flag (F.CH_DAC_STATUS_ROT_ACTIVE c) = true → d.victim c = some v → p = d.get (F.CH_DAC_SUB_POS c v) →
      (∀ w, d.inRole c 2 = some w → d.swapIn c u = ((d.serve c w p).setRole c v 1).setRole c u 2) ∧
      (d.inRole c 2 = none → d.swapIn c u = (d.serve c u p).setRole c v 1))) ∧
  (∀ (d : Dev) (c : Fin 32) (u r : Nat), u < 18 → (d.setRole c u r).get (F.CH_DAC_SUB_POS c u) = 0 ∧ (r < 4 → (d.setRole c u r).role c u = r) ∧
    (d.role c u = 3 → d.failSub c u = d) ∧
    (d.role c u ≠ 3 → (d.failSub c u).role c u = 3 ∧ (d.failSub c u).get (F.CH_DAC_STATUS_GOOD c) = d.get (F.CH_DAC_STATUS_GOOD c) - 1 ∧
      (d.failSub c u).flag (F.CH_DAC_STATUS_SUB_FAIL c) = true ∧ (d.failSub c u).flag (F.CH_CAL_IRQ_STATUS_DAC c) = true)) ∧
  (∀ (drops : List Nat) (a b : BitVec 12), a.toInt ≤ b.toInt → convert drops a ≤ convert drops b)

/-- A record write begins with the values in force, GEN one higher (R242). -/
def Sys2Proof.Claims.writeBegins (d : Dev) (c : Fin 32) : Dev :=
  { d with cals := d.cals.set c { d.cals[c] with saving := some (d.calRecord c (d.get (F.CH_CAL_GEN_GEN c) + 1)), fails := 0 } }

/-- No run of the output stage is in progress on channel `c`, and the system PLL runs (R236, R373). -/
def Sys2Proof.Claims.RunFree (d : Dev) (c : Fin 32) : Prop :=
  3 ≤ d.stage ∧ (d.cal c).run = none ∧ d.flag F.CLK_PLL_STATUS_SYS_BYPASS = false

/-- Tick `p` lies between the start of the last run of channel `c` and the present. -/
def Sys2Proof.Claims.SinceRun (d : Dev) (c : Fin 32) (p : Tick) : Prop :=
  notAfter (d.ev.dt - tk (d.ev.elapsed - (d.cal c).ranAt)) p = true ∧ notAfter p d.ev.dt = true

/-- A calibration run starts only under the conditions of R236 (a FORCED run of an ARMED channel: log entry 19); it holds the pins at the
last sample, CODE RUNNING, STALE; it ends after 48,000 ticks with its gain and offset in force for the range, a STATUS record, the
sub-DACs that failed their verify pass retired and a record write requested (R234, R237, R242, R288). CAL_ABORT ends it with a reason of
R238, its values as they stood, TEMP_SLEW only where the sensor has moved more than 1 °C since it began. The pins stand in PARK, ACTIVE
or CAL_HOLD as R223, R224 and R237 say. RUN makes calibration due, or is queued; SAVE begins a record write, takes over a
deferred one, is deferred while Reckoner is not ready, or is queued (R58, R235, R242, R391). -/
def Obligations.CalibrationRunsStartAndEnd : Prop :=
  (∀ (d : Dev) (c : Fin 32) x k, x = d.ch c → k = d.cal c →
    (d.runMayStart c .idle = true ↔ Claims.RunFree d c ∧ x.st = .idle ∧ d.flag (F.CH_CAL_CTRL_IDLE_EN c) = true ∧
      d.flag (F.CH_CAL_STATUS_DUE c) = true ∧ d.flag (F.CH_DAC_STATUS_RANGING c) = false ∧ k.retryAt ≤ d.ev.elapsed ∧ d.runs (19 + chiplet c) = true) ∧
    (d.runMayStart c .window = true ↔ Claims.RunFree d c ∧ ∃ n, x.calWin = some (d.ev.dt, n)) ∧
    (d.runMayStart c .forced = true ↔ Claims.RunFree d c ∧ x.st ∈ [.armed, .run, .halted, .drain] ∧
      d.flag (F.CH_CAL_STATUS_FORCE_DUE c) = true ∧ k.barred = none ∧
      (x.nextS ≠ none ∨ x.blks ≠ [] → (∃ b ∈ x.blks, b.first = d.ev.dt) ∧ k.forceAt + 32 ≤ d.ev.elapsed) ∧
      (x.nextS = none → x.blks = [] → k.forceAt + 1 ≤ d.ev.elapsed))) ∧
  (∀ (d : Dev) (c : Fin 32) x k off hold, x = d.ch c → k = d.cal c →
    (off ↔ d.stage = 0 ∨ d.ranging c = true ∨ d.runs (19 + chiplet c) = false ∨ d.flag F.CLK_SPLL_STATUS_BYPASS = true ∨ d.clk.safe = true) →
    (hold ↔ (k.fromPark = true ∧ d.newPark c = false) ∨ (d.carriesPark c = false ∧ ¬Claims.InHold x d.ev.dt)) →
    (d.board.analog = false → d.pinState c = .unpowered) ∧
    (d.board.analog = true → (off → d.pinState c = .park) ∧
      (¬off → d.flag (F.CH_CAL_STATUS_STALE c) = true → (hold → d.pinState c = .calHold) ∧ (¬hold → d.pinState c = .park)) ∧
      (¬off → d.flag (F.CH_CAL_STATUS_STALE c) = false →
        (d.carriesPark c = true → d.pinState c = .park) ∧ (d.carriesPark c = false → d.pinState c = .active))) ∧
    (d.newPark c = true ↔ Claims.InHold x d.ev.dt ∨ (∃ p, x.parkAt = some p ∧ Claims.SinceRun d c p) ∨ (∃ h ∈ x.holds, Claims.SinceRun d c h.2) ∨
      (∃ b, x.blockAt d.ev.dt = some b ∧ b.kind = .park ∧ Claims.SinceRun d c b.start) ∨
      (k.ranKind ≠ .idle ∧ (x.st = .idle ∨ x.st = .faulted ∨ before (d.ev.dt - tk (d.ev.elapsed - k.ranAt)) x.goTick = true)))) ∧
  (∀ (c : Fin 32) kind s, s.dev.runMayStart c kind = false → Becomes (.calRunStart c kind) s s.dev) ∧
  (∀ (c : Fin 32) kind s, s.dev.runMayStart c kind = true → Ends (.calRunStart c kind) s fun t =>
    t.get (F.CH_CAL_STATUS_RUNNING c) = 1 ∧ t.get (F.CH_CAL_STATUS_STALE c) = 1 ∧ t.get (F.CH_CAL_STATUS_CODE c) = 1 ∧
    t.get (F.CH_CAL_STATUS_KIND c) = kindOf kind ∧ (kind = .forced → t.get (F.CH_CAL_IRQ_STATUS_FORCED c) = 1) ∧
    (t.cal c).run = some (kind, t.ev.elapsed) ∧ (t.cal c).ranAt = t.ev.elapsed ∧ (t.cal c).ranKind = kind ∧
    (t.cal c).hold = (t.ch c).hist.head? ∧ (t.cal c).fromPark = ((t.ch c).hist.head?).all (·.parked) ∧ (t.cal c).staleEnd = none ∧
    (t.cal c).runTemp = s.dev.tempWord c ∧ (t.ch c).calWin = none) ∧
  (∀ c g o fs s, (s.dev.cal c).run = none → Becomes (.calRunEnd c g o fs) s s.dev) ∧
  (∀ c g o fs s kind t, (s.dev.cal c).run = some (kind, t) → s.dev.ev.elapsed < t + 48000 → Becomes (.calRunEnd c g o fs) s s.dev) ∧
  (∀ (c : Fin 32) g o fs s d kind t a b e, d = s.dev → (d.cal c).run = some (kind, t) → t + 48000 ≤ d.ev.elapsed →
    a = ({ d with cals := d.cals.set c { d.cals[c] with
        outs := d.cals[c].outs.setIfInBounds (d.get (F.CH_DAC_CTRL_RANGE c)) ⟨g, o, d.tempWord c, true, d.ev.elapsed⟩
        run := none, dueKept := d.flag (F.CH_CAL_CTRL_RUN c), moved := false } } : Dev) →
    b = ((((((a.holdEnds c).calEnds c 2 0 (kindOf kind)).countSat (F.CH_CAL_CNT_LO c 0)).set (F.CH_CAL_IRQ_STATUS_DONE c) 1).set
      (F.CH_CAL_AGE_FROM_MTP c) 0).set (F.CH_CAL_STATUS_FORCE_DUE c) 0).dueSync c →
    e = (List.range 18).foldl (fun d u => if fs.getLsbD u && d.role c u = 0 then d.failSub c u else d) b →
    Becomes (.calRunEnd c g o fs) s (Claims.checkRestarts (e.requestRecord c) c)) ∧
  (∀ (d : Dev) (c : Fin 32) e due, (due ↔ (d.cal c).dueKept = true ∨ (d.outVal c).valid = false ∨ (d.cal c).moved = true) →
    (due → e = d.set (F.CH_CAL_STATUS_DUE c) 1) → (¬due → e = d.set (F.CH_CAL_STATUS_DUE c) 0) →
    (due ∧ d.get (F.CH_CAL_CTRL_CAL_FORCE c) ≠ 0 → d.dueSync c = e) ∧
    (¬due ∨ d.get (F.CH_CAL_CTRL_CAL_FORCE c) = 0 → d.dueSync c = e.set (F.CH_CAL_STATUS_FORCE_DUE c) 0)) ∧
  (∀ c (r : BitVec 4) s slewed, slewed = decide (s.dev.tempValid c = true ∧ 16 < tempMove (s.dev.tempWord c) (s.dev.cal c).runTemp) →
    (r.toNat = 0 ∨ 7 ≤ r.toNat ∨ (r.toNat = 6 ∧ slewed = false) ∨ (s.dev.cal c).run = none → Becomes (.calAbort c r) s s.dev) ∧
    ((1 ≤ r.toNat ∧ r.toNat ≤ 5) ∨ (r.toNat = 6 ∧ slewed = true) → Becomes (.calAbort c r) s (s.dev.calAbortNow c r.toNat))) ∧
  (∀ (d t : Dev) (c : Fin 32) (r code : Nat) kind at_, (d.cal c).run = some (kind, at_) → 1 ≤ r → r ≤ 7 → t = d.calAbortNow c r →
    code = (if r = 7 then 3 else 4) →
    t.get (F.CH_CAL_STATUS_CODE c) = code ∧ t.get (F.CH_CAL_STATUS_RUNNING c) = 0 ∧ t.get (F.CH_CAL_ABORT_REASON c) = r ∧
    t.get (F.CH_CAL_ABORT_KIND c) = kindOf kind ∧ t.get (F.CH_CAL_ABORT_VALID c) = 1 ∧ t.get (F.CH_CAL_IRQ_STATUS_ABORT c) = 1 ∧
    t.rings = (d.emitStatus 1 c.val [1, BitVec.ofNat 8 c.val, BitVec.ofNat 8 code, BitVec.ofNat 8 (r + 16 * kindOf kind)]).rings ∧
    (t.cal c).run = none ∧ (t.cal c).outs = (d.cal c).outs ∧ (t.cal c).dueKept = ((d.cal c).dueKept || d.flag (F.CH_CAL_STATUS_DUE c)) ∧
    (t.cal c).barred = (if r ≤ 3 then some (d.tempWord c) else (d.cal c).barred) ∧
    (t.cal c).retryAt = (if r ≤ 3 then (d.cal c).retryAt else d.ev.elapsed + 40000000) ∧
    ((d.ch c).st = .idle ∨ r = 7 → t.get (F.CH_CAL_STATUS_STALE c) = 0 ∧ (t.cal c).hold = none ∧ (t.cal c).staleEnd = none) ∧
    ((d.ch c).st ≠ .idle → r ≠ 7 → t.get (F.CH_CAL_STATUS_STALE c) = d.get (F.CH_CAL_STATUS_STALE c) ∧ (t.cal c).hold = (d.cal c).hold ∧
      (t.cal c).staleEnd = some (d.ev.elapsed + 64)) ∧ t.chans = d.chans ∧ t.mem = d.mem) ∧
  (∀ (d e : Dev) (c : Fin 32), e = d.set (F.CH_CAL_MTP_DEFERRED c) 1 →
    ((d.cal c).saving = none → d.flag F.MGMT_STATUS_READY = true →
      ((d.cal c).lastWrite.all fun t => t + 400000000 * max 60 (d.get (F.CH_CAL_MTP_MTP_MIN c)) ≤ d.ev.elapsed) = true →
      d.requestRecord c = Claims.writeBegins d c) ∧
    ((d.cal c).saving.isSome = true ∨ d.flag F.MGMT_STATUS_READY = false ∨
      ((d.cal c).lastWrite.all fun t => t + 400000000 * max 60 (d.get (F.CH_CAL_MTP_MTP_MIN c)) ≤ d.ev.elapsed) = false →
      d.requestRecord c = e)) ∧
  (∀ (c : Fin 32) s d, d = s.dev.wakeChiplet (chiplet c) →
    (d.flag (F.CH_CAL_CTRL_RUN c) = true → d.flag (F.CH_CAL_CTRL_PENDING c) = true → Becomes (.run c) s d) ∧
    (∀ e, d.flag (F.CH_CAL_CTRL_RUN c) = true → d.flag (F.CH_CAL_CTRL_PENDING c) = false → e = d.set (F.CH_CAL_CTRL_PENDING c) 1 →
      Becomes (.run c) s { e with cals := e.cals.set c { e.cals[c] with queuedSave := false } }) ∧
    (∀ e, d.flag (F.CH_CAL_CTRL_RUN c) = false → e = d.set (F.CH_CAL_CTRL_RUN c) 1 →
      Becomes (.run c) s (({ e with cals := e.cals.set c { e.cals[c] with dueKept := true } } : Dev).dueSync c)) ∧
    (d.flag (F.CH_CAL_CTRL_SAVE c) = true → d.flag (F.CH_CAL_CTRL_PENDING c) = true → Becomes (.save c) s d) ∧
    (∀ e, d.flag (F.CH_CAL_CTRL_SAVE c) = true → d.flag (F.CH_CAL_CTRL_PENDING c) = false → e = d.set (F.CH_CAL_CTRL_PENDING c) 1 →
      Becomes (.save c) s { e with cals := e.cals.set c { e.cals[c] with queuedSave := true } }) ∧
    (∀ e, d.flag (F.CH_CAL_CTRL_SAVE c) = false → e = (d.set (F.CH_CAL_CTRL_SAVE c) 1).set (F.CH_CAL_MTP_DEFERRED c) 0 →
      ((e.cal c).saving.isSome = true →
        Becomes (.save c) s { e with cals := e.cals.set c { e.cals[c] with saveNext := true } }) ∧
      ((e.cal c).saving = none → e.flag F.MGMT_STATUS_READY = true → Becomes (.save c) s (Claims.writeBegins e c)) ∧
      ((e.cal c).saving = none → e.flag F.MGMT_STATUS_READY = false → Becomes (.save c) s (e.set (F.CH_CAL_MTP_DEFERRED c) 1))))

/-- CAL_COMPARE comes once in 400,000 ticks and takes the reading of a valid sensor; DUE and FORCE_DUE follow the conditions of R235,
and a barred FORCED run is allowed again once the temperature has moved by CAL_DELTA (R235, R238). A record write puts the values in
force when it began into the next usable slot with GEN one higher, and SAVE clears; a failed read-back spoils the slot, which is used no
more, and the third one raises MTP_ERR (R240 to R242). A deferred write begins after MTP_MIN, for a SAVE at once, and with Reckoner
ready (R242, R391). -/
def Obligations.CalibrationIsDueAndRecorded : Prop :=
  (∀ (c : Fin 32) s, s.dev.ev.elapsed < (s.dev.cal c).compAt + 400000 → Becomes (.calCompare c) s s.dev) ∧
  (∀ (c : Fin 32) s a d e f g, (s.dev.cal c).compAt + 400000 ≤ s.dev.ev.elapsed →
    a = ({ s.dev with cals := s.dev.cals.set c { s.dev.cals[c] with compAt := s.dev.ev.elapsed } } : Dev) →
    d = (if a.tempValid c then a.set (F.CH_CAL_TEMP_NOW c) (a.tempWord c).toNat else a) →
    ((∃ t, (d.cal c).barred = some t ∧ d.tempValid c = true ∧ d.calDelta c < tempMove (d.tempWord c) t) →
      e = ({ d with cals := d.cals.set c { d.cals[c] with barred := none } } : Dev)) →
    (¬(∃ t, (d.cal c).barred = some t ∧ d.tempValid c = true ∧ d.calDelta c < tempMove (d.tempWord c) t) → e = d) →
    f = ({ e with cals := e.cals.set c { e.cals[c] with moved := e.tempMoved c (e.calDelta c) } } : Dev).dueSync c →
    g = decide (f.get (F.CH_CAL_CTRL_CAL_FORCE c) ≠ 0 ∧ f.flag (F.CH_CAL_STATUS_DUE c) = true ∧
      f.tempMoved c (16 * f.get (F.CH_CAL_CTRL_CAL_FORCE c)) = true) →
    (g = false → Becomes (.calCompare c) s (f.set (F.CH_CAL_STATUS_FORCE_DUE c) 0)) ∧
    (g = true → f.flag (F.CH_CAL_STATUS_FORCE_DUE c) = true → Becomes (.calCompare c) s (f.set (F.CH_CAL_STATUS_FORCE_DUE c) 1)) ∧
    (g = true → f.flag (F.CH_CAL_STATUS_FORCE_DUE c) = false → Becomes (.calCompare c) s
      (({ f with cals := f.cals.set c { f.cals[c] with forceAt := f.ev.elapsed } } : Dev).set (F.CH_CAL_STATUS_FORCE_DUE c) 1))) ∧
  (∀ c ok s, (s.dev.cal c).saving = none ∨ s.dev.flag F.MGMT_STATUS_READY = false ∨ s.dev.get F.TELEM_THERM_LEVEL = 3 →
    Becomes (.mtpRecordWrite c ok) s s.dev) ∧
  (∀ (c : Fin 32) s d bs gen i, d = s.dev → (d.cal c).saving = some bs → d.flag F.MGMT_STATUS_READY = true → d.get F.TELEM_THERM_LEVEL ≠ 3 →
    gen = d.get (F.CH_CAL_GEN_GEN c) → i = usableSlot (d.cal c).badSlots 16 (if gen = 0 then 0 else d.get (F.CH_CAL_MTP_SLOT c) + 1) →
    (∀ e f, e = (d.mtpWrite (slotAt c i) bs).set (F.CH_CAL_MTP_SLOT c) i →
      f = e.set (F.CH_CAL_GEN_GEN c) (e.get (F.CH_CAL_GEN_GEN c) + 1) →
      Becomes (.mtpRecordWrite c true) s
        (({ f with cals := f.cals.set c { f.cals[c] with lastWrite := some f.ev.elapsed } } : Dev).saveEnds c)) ∧
    (∀ e f, e = ({ d with free := d.free + 512 } : Dev).mtpWrite (slotAt c i) ((List.range 512).map fun j => Config.unstatedByte (d.free + j)) →
      f = ({ e with cals := e.cals.set c { e.cals[c] with badSlots := (d.cal c).badSlots ++ [i], fails := (d.cal c).fails + 1 } } : Dev) →
      ((d.cal c).fails < 2 → Becomes (.mtpRecordWrite c false) s f) ∧
      (2 ≤ (d.cal c).fails → Becomes (.mtpRecordWrite c false) s ((f.set (F.CH_CAL_IRQ_STATUS_MTP_ERR c) 1).saveEnds c)))) ∧
  (∀ (c : Fin 32) s d may, d = s.dev →
    (may ↔ d.flag (F.CH_CAL_CTRL_SAVE c) = true ∨
      ((d.cal c).lastWrite.all fun t => t + 400000000 * max 60 (d.get (F.CH_CAL_MTP_MTP_MIN c)) ≤ d.ev.elapsed) = true) →
    (d.flag (F.CH_CAL_MTP_DEFERRED c) = false ∨ (d.cal c).saving.isSome = true ∨ d.flag F.MGMT_STATUS_READY = false ∨ ¬may →
      Becomes (.mtpDeferExpiry c) s d) ∧
    (d.flag (F.CH_CAL_MTP_DEFERRED c) = true → (d.cal c).saving = none → d.flag F.MGMT_STATUS_READY = true → may →
      Becomes (.mtpDeferExpiry c) s (Claims.writeBegins (d.set (F.CH_CAL_MTP_DEFERRED c) 0) c)))

/-- A pending range takes force in IDLE, preempts an IDLE run, and settles for 8,000 ticks (R219, R239, R390); a pending rate
waits for every channel of its chiplet to be IDLE and takes 4,000 ticks, after which calibration is due there and the sub-DACs are checked
from the lowest number on (R30, R233, R441; the order: log entry 19). The spur estimates follow f_s at once (R243). -/
def Obligations.RangesAndRatesChangeInIdle : Prop :=
  (∀ (c : Fin 32) s, s.dev.pendingOf (F.CH_DAC_CTRL_RANGE c) = none → Becomes (.rangeChange c) s s.dev) ∧
  (∀ (c : Fin 32) s v acc e, s.dev.pendingOf (F.CH_DAC_CTRL_RANGE c) = some (v, acc) →
    e = (s.dev.wakeChiplet (chiplet c)).dropPending (F.CH_DAC_CTRL_RANGE c) →
    ((s.dev.ch c).st ≠ .idle ∨ s.dev.ev.elapsed < acc + 2 ∨ s.dev.flag (F.CH_DAC_STATUS_RANGING c) = true →
      Becomes (.rangeChange c) s s.dev) ∧
    ((s.dev.ch c).st = .idle → acc + 2 ≤ s.dev.ev.elapsed → s.dev.flag (F.CH_DAC_STATUS_RANGING c) = false →
      (v = e.get (F.CH_DAC_CTRL_RANGE c) → Becomes (.rangeChange c) s e) ∧
      (∀ f, v ≠ e.get (F.CH_DAC_CTRL_RANGE c) → f = ((e.preempt c).set (F.CH_DAC_CTRL_RANGE c) v).set (F.CH_DAC_STATUS_RANGING c) 1 →
        Becomes (.rangeChange c) s { f with cals := f.cals.set c { f.cals[c] with rangeEnd := f.ev.elapsed + 8000 } }))) ∧
  (∀ c s, (s.dev.flag (F.CH_DAC_STATUS_RANGING c) = true → (s.dev.cal c).rangeEnd ≤ s.dev.ev.elapsed →
      Becomes (.rangeEnd c) s (((s.dev.set (F.CH_DAC_STATUS_RANGING c) 0).compareTemp c).dueSync c)) ∧
    (s.dev.flag (F.CH_DAC_STATUS_RANGING c) = false ∨ s.dev.ev.elapsed < (s.dev.cal c).rangeEnd → Becomes (.rangeEnd c) s s.dev)) ∧
  (∀ (n : Fin 4) s, s.dev.pendingOf (rateFld n) = none → Becomes (.rateChange n) s s.dev) ∧
  (∀ (n : Fin 4) s v acc e, s.dev.pendingOf (rateFld n) = some (v, acc) → e = s.dev.dropPending (rateFld n) →
    ((∃ c, chiplet c = n ∧ (s.dev.ch c).st ≠ .idle) ∨ s.dev.ev.elapsed < acc + 2 ∨ s.dev.flag (rateBusy n) = true →
      Becomes (.rateChange n) s s.dev) ∧
    ((∀ c, chiplet c = n → (s.dev.ch c).st = .idle) → acc + 2 ≤ s.dev.ev.elapsed → s.dev.flag (rateBusy n) = false →
      (e.get (rateFld n) = v → Becomes (.rateChange n) s e) ∧
      (∀ f, e.get (rateFld n) ≠ v → f = ((e.wakeChiplet n).set (rateFld n) v).set (rateBusy n) 1 →
        Becomes (.rateChange n) s (((channelsOf n).foldl (fun d c => (Claims.checkRestarts d c).spurSync c)
          { f with rateEnd := f.rateEnd.set n (f.ev.elapsed + 4000) }).profileSync)))) ∧
  (∀ (n : Fin 4) s, (s.dev.flag (rateBusy n) = false ∨ s.dev.ev.elapsed < s.dev.rateEnd[n] → Becomes (.rateChangeEnd n) s s.dev) ∧
    (∀ e, s.dev.flag (rateBusy n) = true → s.dev.rateEnd[n] ≤ s.dev.ev.elapsed →
      e = (s.dev.set (rateBusy n) 0).set F.TELEM_IRQ_STATUS_RATE 1 →
      Becomes (.rateChangeEnd n) s ((channelsOf n).foldl (fun (d : Dev) (c : Fin 32) => (({ d with cals := d.cals.set c { d.cals[c] with
        stepAt := d.ev.elapsed, failedOnce := none, swapDue := none, dueKept := true, subs := d.cals[c].subs.map fun x => { x with checked := 0 } } } : Dev).dueSync c)) e)))

/-- The level `l` (1 WARN, 2 CRIT) of TELEM.THERM holds by its threshold `th` in °C: a valid sensor has reached it, or the level stands
and a valid sensor has not left it by the hysteresis (R438). -/
def Sys2Proof.Claims.LevelHolds (d : Dev) (l th : Nat) : Prop :=
  ∃ i v, i < 24 ∧ d.get (F.TELEM_TEMP_VALID i) = 1 ∧ v = (BitVec.ofNat 16 (d.get (F.TELEM_TEMP_VALUE i))).toInt ∧
    (16 * (th : Int) ≤ v ∨ (l ≤ d.get F.TELEM_THERM_LEVEL ∧ 16 * (th : Int) - 16 * (max 1 (d.get F.TELEM_THERM_HYST) : Nat) ≤ v))

/-- The thermal level by the readings; a TRIP stays (R438). -/
def Sys2Proof.Claims.LevelIs (d : Dev) (n : Nat) : Prop :=
  ∃ crit warn, crit = min (d.get F.TELEM_THERM_CRIT) (if d.get F.DEV_ID_GRADE = 1 then 120 else 110) ∧ warn = min (d.get F.TELEM_THERM_WARN) crit ∧
    ((d.get F.TELEM_THERM_LEVEL = 3 ∧ n = 3) ∨ (d.get F.TELEM_THERM_LEVEL ≠ 3 ∧
      ((Claims.LevelHolds d 2 crit ∧ n = 2) ∨ (¬Claims.LevelHolds d 2 crit ∧
        ((Claims.LevelHolds d 1 warn ∧ n = 1) ∨ (¬Claims.LevelHolds d 1 warn ∧ n = 0))))))

/-- Site `i` has shown itself below 125 °C (log entry 43). -/
def Sys2Proof.Claims.siteCool (d : Dev) (i : Nat) : Dev :=
  { d with board := { d.board with tripSites := d.board.tripSites &&& ~~~BitVec.twoPow 24 i } }

/-- A conversion at STAGE 0 does nothing. One of T0 to T23 outside −55 to 150 °C or not valid leaves VALID 0 and raises SENSOR; a valid
one raises PEAK, and one below 125 °C ends the TRIP condition of its site (log entry 43). The level of TELEM.THERM follows: WARN and CRIT
are reached at their thresholds, CRIT at no more than the grade's maximum + 15 °C, and left HYST below them; a rise names the sensor and
raises WARN and CRIT, a fall raises COOL. CRIT rejects the GOs of its tick and stops every other active channel (R438, R439). An
output-stage run whose sensor has moved more than 1 °C since it began ends TEMP_SLEW (R238); T20 to T23 also feed the stacks (log entry
22). One of V0 to V15 not valid leaves VALID 0 and raises SENSOR (R436). TRIP, before Stage A, does nothing, and with one latched marks
its site only; else it latches level 3 with its sensor and cause, rejects the GOs of its tick, ends every other run ABORTED or, where it faults in that tick,
FAILED, parks every channel, makes the outputs safe, completes the BAR4 reads that wait, puts the stacks in use into self-refresh, cuts MTP writes off and
stops the Demand and Service domains (R438, R439). -/
def Obligations.SensorsConvertAndTrip : Prop :=
  (∀ i valid v s, s.dev.stage = 0 → Becomes (.telemConversion i valid v) s s.dev) ∧
  (∀ (i : Fin 40) valid v s e, s.dev.stage ≠ 0 →
    e = ((List.finRange 32).filter fun c => c.val / 2 = i.val).foldl (fun (d : Dev) c => d.slewCheck c) (s.dev.tempConversion i valid v) →
    (i.val < 20 → Becomes (.telemConversion i valid v) s e) ∧
    (20 ≤ i.val → i.val < 24 → Becomes (.telemConversion i valid v) s (e.stackReading (i.val - 20)))) ∧
  (∀ (d : Dev) (c : Fin 32), ((d.cal c).run = none ∨ d.tempSlewed c = false → d.slewCheck c = d) ∧
    ((d.cal c).run.isSome = true → d.tempSlewed c = true → d.slewCheck c = d.calAbortNow c 6) ∧
    (d.tempSlewed c = true ↔ d.get (F.TELEM_TEMP_VALID (c.val / 2)) = 1 ∧
      16 < ((BitVec.ofNat 16 (d.get (F.TELEM_TEMP_VALUE (c.val / 2)))).toInt - (d.cal c).runTemp.toInt).natAbs)) ∧
  (∀ (d : Dev) i valid (v : BitVec 16) w a b, (v.toInt < 2000 → w = Claims.siteCool d i) → (2000 ≤ v.toInt → w = d) →
    a = (if valid then d.set (F.TELEM_TEMP_VALUE i) v.toNat else d) →
    (valid = false ∨ v.toInt < -880 ∨ 2400 < v.toInt →
      d.tempConversion i valid v = ((a.set (F.TELEM_TEMP_VALID i) 0).set F.TELEM_IRQ_STATUS_SENSOR 1).levelSync i) ∧
    (valid = true → -880 ≤ v.toInt → v.toInt ≤ 2400 → b = (w.set (F.TELEM_TEMP_VALUE i) v.toNat).set (F.TELEM_TEMP_VALID i) 1 →
      ((BitVec.ofNat 16 (b.get F.TELEM_PEAK_VALUE)).toInt < v.toInt →
        d.tempConversion i valid v = ((b.set F.TELEM_PEAK_VALUE v.toNat).set F.TELEM_PEAK_SENSOR i).levelSync i) ∧
      (v.toInt ≤ (BitVec.ofNat 16 (b.get F.TELEM_PEAK_VALUE)).toInt → d.tempConversion i valid v = b.levelSync i))) ∧
  (∀ (d : Dev) (i old new : Nat) a b f e, old = d.get F.TELEM_THERM_LEVEL → Claims.LevelIs d new → a = d.set F.TELEM_THERM_LEVEL new →
    b = (if old < new then a.set F.TELEM_THERM_SENSOR i else a) → f = (if old = 0 ∧ 0 < new then b.set F.TELEM_IRQ_STATUS_WARN 1 else b) →
    e = (if new < old then f.set F.TELEM_IRQ_STATUS_COOL 1 else f) →
    (¬(old < 2 ∧ new = 2) → d.levelSync i = e) ∧
    (∀ u r, old < 2 → new = 2 → u = e.set F.TELEM_IRQ_STATUS_CRIT 1 →
      r = (List.finRange 32).foldl (fun (d : Dev) c => if (d.ch c).active? ∧ (d.ch c).goTick = d.ev.dt then d.endEarly c 6 0 else d) u →
      d.levelSync i = ((List.finRange 32).foldl (fun (d : Dev) c => if (d.ch c).active? then d.stop c else d) r).parkAllCheck)) ∧
  (∀ (i : Fin 40) v s d, s.dev.stage ≠ 0 → 24 ≤ i.val → d = s.dev.set (F.TELEM_VOLT_VALID (i.val - 24)) 0 →
    Becomes (.telemConversion i false v) s (d.set F.TELEM_IRQ_STATUS_SENSOR 1)) ∧
  (∀ (i : Fin 24) s, s.dev.stage = 0 → Becomes (.trip i) s s.dev) ∧
  (∀ (i : Fin 24) s d, d = s.dev → d.stage ≠ 0 → d.get F.TELEM_THERM_LEVEL = 3 →
    Becomes (.trip i) s { d with board := { d.board with tripSites := d.board.tripSites ||| BitVec.twoPow 24 i } }) ∧
  (∀ (i : Fin 24) s d, d = s.dev → d.stage ≠ 0 → d.get F.TELEM_THERM_LEVEL ≠ 3 → Ends (.trip i) s fun t =>
    t.get F.TELEM_THERM_LEVEL = 3 ∧ t.get F.TELEM_THERM_SENSOR = i ∧ t.get F.TELEM_IRQ_STATUS_TRIP = 1 ∧ t.clk.safe = true ∧
    t.board.tripSites = d.board.tripSites ||| BitVec.twoPow 24 i ∧ t.flag F.DEV_CTRL_PARK_ALL = false ∧ t.hbm.reads = [] ∧
    (∀ c, (t.ch c).active? = false ∧ (t.ch c).queue = [] ∧ (t.ch c).dispatched = [] ∧ (t.ch c).blks = [] ∧ (t.ch c).nextS = none ∧
      (t.cal c).saving = none ∧
      ((d.ch c).active? = true → ((d.ch c).goTick = d.ev.dt → t.get (F.CH_SEQ_STATUS_CODE c) = 6) ∧
        ((d.ch c).goTick ≠ d.ev.dt → t.get (F.CH_SEQ_STATUS_CODE c) = 3 ∨ t.get (F.CH_SEQ_STATUS_CODE c) = 4))) ∧
    (∀ k, k < 4 → t.get (F.HBM_STATUS_POWER k) = (if d.get (F.HBM_STATUS_POWER k) = 0 then 0 else 1)) ∧
    ∀ n, n ∈ (List.range 25).map (6 + ·) ++ [33, 34, 35, 36, 37, 41, 42, 43, 44] → t.runs n = false)

/-- A valid reading of V0 to V15 outside the limits of its TELEM.VLIM_i sets LOW or HIGH in its register and sets
TELEM.IRQ_STATUS.VOLT, and nothing else; one inside them leaves both flags 0 and raises nothing (R437). VALID and MV hold the
reading. The supply monitors' signal and the thermal level stay as they were. -/
def Obligations.VoltageReadingsRaiseOnlyTheirFlags : Prop :=
  (∀ (i : Fin 40) (v : BitVec 16) s n d e low high, s.dev.stage ≠ 0 → 24 ≤ i.val → n = i.val - 24 → d = s.dev.set (F.TELEM_VOLT_VALID n) 1 →
    low = decide (v.toNat < d.get (F.TELEM_VLIM_LO n)) → high = decide (d.get (F.TELEM_VLIM_HI n) < v.toNat) →
    e = ((d.set (F.TELEM_VOLT_MV n) v.toNat).set (F.TELEM_VOLT_LOW n) (if low then 1 else 0)).set (F.TELEM_VOLT_HIGH n) (if high then 1 else 0) →
    (low = false → high = false → Becomes (.telemConversion i true v) s e) ∧
    (low = true ∨ high = true → Becomes (.telemConversion i true v) s (e.set F.TELEM_IRQ_STATUS_VOLT 1)))

/-! ### The queue, every step, reset -/

/-- A step takes the command at the front of the queue and carries it out on the state with the queue's rest; with none waiting
the block idles and nothing changes (log entry 3). -/
def Obligations.StepRunsTheFrontCommand : Prop :=
  (∀ (c : Instr) (cs : List Instr) (s : State), s.pending = c :: cs → step s = exec c { s with pending := cs }) ∧
  (∀ s : State, s.pending = [] → step s = .next s)

/-- After reset no command waits, every register reads its reset value, every channel is in its reset state, the memories list
nothing and no byte of them is marked bad, every table stands in canonical form, and the summary bits as MSI-X last saw them are the present ones. Values that the
spec leaves open at reset are those of log entries 6, 7 and 9. -/
def Obligations.ResetLeavesTheStatedState : Prop :=
  State.reset.pending = [] ∧ (∀ a, State.reset.dev.rd a = regReset a) ∧ (∀ c, State.reset.dev.ch c = Chan.reset) ∧
  (∀ m ∈ [State.reset.dev.mem.hbm, State.reset.dev.mem.oasis, State.reset.dev.mem.segtab, State.reset.dev.mem.prog, State.reset.dev.mem.ctx,
    State.reset.dev.mem.reckoner, State.reset.dev.mem.mtp, State.reset.dev.mem.flash], m = ⟨[], [], [], []⟩) ∧
  Safe.canonical State.reset.dev = true ∧ Safe.seen State.reset

/-- No step misses a rise of a summary bit: in every state whose summary bits are those MSI-X last saw, a step that answers a
next state leaves one of which that holds again (R71, R404). -/
def Obligations.EveryStepKeepsTheSummarySeen : Prop :=
  ∀ s t : State, Safe.seen s → step s = .next t → Safe.seen t

/-- Every step keeps the canonical form: from a device whose register bank and memories are tables with rising keys that list no value
an unlisted key reads as, a step that answers a next state gives such a device (the model's form of memory: log entry 7). -/
def Obligations.EveryStepKeepsTheCanonicalForm : Prop :=
  ∀ s t : State, Safe.canonical s.dev = true → step s = .next t → Safe.canonical t.dev = true

/-- The sizes that the spec gives a channel's lists: 64 timed actions (R80), 4 open loops (R112), 8 return entries (R111), 2 stored events
of a code (R261). -/
def Sys2Proof.Claims.Bounded (d : Dev) : Prop :=
  ∀ c x, x = d.ch c → x.queue.length ≤ 64 ∧ x.loops.length ≤ 4 ∧ x.rets.length ≤ 8 ∧ ∀ k, (x.store.filter (·.code = k)).length ≤ 2

/-- Every step keeps the bounds: from a device whose channels hold no more than 64 timed actions, 4 loops, 8 return entries and 2 events of
a code, a step that answers a next state gives such a device (R80, R111, R112, R261). Every device after reset is one. -/
def Obligations.EveryStepKeepsTheBounds : Prop :=
  Claims.Bounded State.reset.dev ∧ ∀ s t : State, Claims.Bounded s.dev → step s = .next t → Claims.Bounded t.dev

/-- In every state a step goes on, leaving the rest of the queue as it stood, or stops at a private test-port opcode with the supplies good
and debug unlocked, and at nothing else (R414). -/
def Obligations.EveryStepContinues : Prop :=
  (∀ s, Safe.continues (step s)) ∧
  (∀ s t, step s = .next t → t.pending = s.pending.tail) ∧
  (∀ s, (∃ r, step s = .refused r) ↔ ∃ ir cs, s.pending = .jtagInstruction ir :: cs ∧ ir.toNat ∉ [0, 1, 2, 4, 5, 6, 7, 0xFF] ∧
    s.dev.board.rails = true ∧ s.dev.get F.SEC_DBG_CTRL_JTAG = 1)
end

