-- ==== Sys2Proof/Laws/State.lean ====
section
/-! SUPPORT. One lemma per field per update of the device: what a register write, a channel's update and the interrupt
summaries leave as they were. -/

set_option Elab.async false

namespace Sys2Proof.Machine

section Updates

variable (d : Dev) (a : Nat) (w : W32) (f : Fld) (v : Nat) (c : Fin 32) (x : Chan) (g : Chan → Chan) (lo : Nat) (u : W64)

@[simp] theorem Dev.wr_pend : (d.wr a w).pend = d.pend := rfl
@[simp] theorem Dev.wr_staged : (d.wr a w).staged = d.staged := rfl
@[simp] theorem Dev.wr_locked : (d.wr a w).locked = d.locked := rfl
@[simp] theorem Dev.wr_chans : (d.wr a w).chans = d.chans := rfl
@[simp] theorem Dev.wr_ev : (d.wr a w).ev = d.ev := rfl
@[simp] theorem Dev.wr_mem : (d.wr a w).mem = d.mem := rfl
@[simp] theorem Dev.wr_hbm : (d.wr a w).hbm = d.hbm := rfl
@[simp] theorem Dev.wr_sirocco : (d.wr a w).sirocco = d.sirocco := rfl
@[simp] theorem Dev.wr_reply : (d.wr a w).reply = d.reply := rfl
@[simp] theorem Dev.wr_rings : (d.wr a w).rings = d.rings := rfl
@[simp] theorem Dev.wr_cals : (d.wr a w).cals = d.cals := rfl
@[simp] theorem Dev.wr_rateEnd : (d.wr a w).rateEnd = d.rateEnd := rfl
@[simp] theorem Dev.wr_clk : (d.wr a w).clk = d.clk := rfl
@[simp] theorem Dev.wr_msix : (d.wr a w).msix = d.msix := rfl
@[simp] theorem Dev.wr_link : (d.wr a w).link = d.link := rfl
@[simp] theorem Dev.wr_heads : (d.wr a w).heads = d.heads := rfl
@[simp] theorem Dev.wr_fills : (d.wr a w).fills = d.fills := rfl
@[simp] theorem Dev.wr_board : (d.wr a w).board = d.board := rfl
@[simp] theorem Dev.wr_sec : (d.wr a w).sec = d.sec := rfl
@[simp] theorem Dev.wr_mgmt : (d.wr a w).mgmt = d.mgmt := rfl
@[simp] theorem Dev.wr_snap : (d.wr a w).snap = d.snap := rfl
@[simp] theorem Dev.wr_free : (d.wr a w).free = d.free := rfl

@[simp] theorem Dev.set_pend : (d.set f v).pend = d.pend := rfl
@[simp] theorem Dev.set_staged : (d.set f v).staged = d.staged := rfl
@[simp] theorem Dev.set_locked : (d.set f v).locked = d.locked := rfl
@[simp] theorem Dev.set_chans : (d.set f v).chans = d.chans := rfl
@[simp] theorem Dev.set_ev : (d.set f v).ev = d.ev := rfl
@[simp] theorem Dev.set_mem : (d.set f v).mem = d.mem := rfl
@[simp] theorem Dev.set_hbm : (d.set f v).hbm = d.hbm := rfl
@[simp] theorem Dev.set_sirocco : (d.set f v).sirocco = d.sirocco := rfl
@[simp] theorem Dev.set_reply : (d.set f v).reply = d.reply := rfl
@[simp] theorem Dev.set_rings : (d.set f v).rings = d.rings := rfl
@[simp] theorem Dev.set_cals : (d.set f v).cals = d.cals := rfl
@[simp] theorem Dev.set_rateEnd : (d.set f v).rateEnd = d.rateEnd := rfl
@[simp] theorem Dev.set_clk : (d.set f v).clk = d.clk := rfl
@[simp] theorem Dev.set_msix : (d.set f v).msix = d.msix := rfl
@[simp] theorem Dev.set_link : (d.set f v).link = d.link := rfl
@[simp] theorem Dev.set_heads : (d.set f v).heads = d.heads := rfl
@[simp] theorem Dev.set_fills : (d.set f v).fills = d.fills := rfl
@[simp] theorem Dev.set_board : (d.set f v).board = d.board := rfl
@[simp] theorem Dev.set_sec : (d.set f v).sec = d.sec := rfl
@[simp] theorem Dev.set_mgmt : (d.set f v).mgmt = d.mgmt := rfl
@[simp] theorem Dev.set_snap : (d.set f v).snap = d.snap := rfl
@[simp] theorem Dev.set_free : (d.set f v).free = d.free := rfl

@[simp] theorem Dev.set64_pend : (d.set64 lo u).pend = d.pend := rfl
@[simp] theorem Dev.set64_staged : (d.set64 lo u).staged = d.staged := rfl
@[simp] theorem Dev.set64_locked : (d.set64 lo u).locked = d.locked := rfl
@[simp] theorem Dev.set64_chans : (d.set64 lo u).chans = d.chans := rfl
@[simp] theorem Dev.set64_ev : (d.set64 lo u).ev = d.ev := rfl
@[simp] theorem Dev.set64_mem : (d.set64 lo u).mem = d.mem := rfl
@[simp] theorem Dev.set64_hbm : (d.set64 lo u).hbm = d.hbm := rfl
@[simp] theorem Dev.set64_sirocco : (d.set64 lo u).sirocco = d.sirocco := rfl
@[simp] theorem Dev.set64_reply : (d.set64 lo u).reply = d.reply := rfl
@[simp] theorem Dev.set64_rings : (d.set64 lo u).rings = d.rings := rfl
@[simp] theorem Dev.set64_cals : (d.set64 lo u).cals = d.cals := rfl
@[simp] theorem Dev.set64_rateEnd : (d.set64 lo u).rateEnd = d.rateEnd := rfl
@[simp] theorem Dev.set64_clk : (d.set64 lo u).clk = d.clk := rfl
@[simp] theorem Dev.set64_msix : (d.set64 lo u).msix = d.msix := rfl
@[simp] theorem Dev.set64_link : (d.set64 lo u).link = d.link := rfl
@[simp] theorem Dev.set64_heads : (d.set64 lo u).heads = d.heads := rfl
@[simp] theorem Dev.set64_fills : (d.set64 lo u).fills = d.fills := rfl
@[simp] theorem Dev.set64_board : (d.set64 lo u).board = d.board := rfl
@[simp] theorem Dev.set64_sec : (d.set64 lo u).sec = d.sec := rfl
@[simp] theorem Dev.set64_mgmt : (d.set64 lo u).mgmt = d.mgmt := rfl
@[simp] theorem Dev.set64_snap : (d.set64 lo u).snap = d.snap := rfl
@[simp] theorem Dev.set64_free : (d.set64 lo u).free = d.free := rfl

@[simp] theorem Dev.setCh_regs : (d.setCh c x).regs = d.regs := rfl
@[simp] theorem Dev.setCh_pend : (d.setCh c x).pend = d.pend := rfl
@[simp] theorem Dev.setCh_staged : (d.setCh c x).staged = d.staged := rfl
@[simp] theorem Dev.setCh_locked : (d.setCh c x).locked = d.locked := rfl
@[simp] theorem Dev.setCh_ev : (d.setCh c x).ev = d.ev := rfl
@[simp] theorem Dev.setCh_mem : (d.setCh c x).mem = d.mem := rfl
@[simp] theorem Dev.setCh_hbm : (d.setCh c x).hbm = d.hbm := rfl
@[simp] theorem Dev.setCh_sirocco : (d.setCh c x).sirocco = d.sirocco := rfl
@[simp] theorem Dev.setCh_reply : (d.setCh c x).reply = d.reply := rfl
@[simp] theorem Dev.setCh_rings : (d.setCh c x).rings = d.rings := rfl
@[simp] theorem Dev.setCh_cals : (d.setCh c x).cals = d.cals := rfl
@[simp] theorem Dev.setCh_rateEnd : (d.setCh c x).rateEnd = d.rateEnd := rfl
@[simp] theorem Dev.setCh_clk : (d.setCh c x).clk = d.clk := rfl
@[simp] theorem Dev.setCh_msix : (d.setCh c x).msix = d.msix := rfl
@[simp] theorem Dev.setCh_link : (d.setCh c x).link = d.link := rfl
@[simp] theorem Dev.setCh_heads : (d.setCh c x).heads = d.heads := rfl
@[simp] theorem Dev.setCh_fills : (d.setCh c x).fills = d.fills := rfl
@[simp] theorem Dev.setCh_board : (d.setCh c x).board = d.board := rfl
@[simp] theorem Dev.setCh_sec : (d.setCh c x).sec = d.sec := rfl
@[simp] theorem Dev.setCh_mgmt : (d.setCh c x).mgmt = d.mgmt := rfl
@[simp] theorem Dev.setCh_snap : (d.setCh c x).snap = d.snap := rfl
@[simp] theorem Dev.setCh_free : (d.setCh c x).free = d.free := rfl

@[simp] theorem Dev.modCh_regs : (d.modCh c g).regs = d.regs := rfl
@[simp] theorem Dev.modCh_pend : (d.modCh c g).pend = d.pend := rfl
@[simp] theorem Dev.modCh_staged : (d.modCh c g).staged = d.staged := rfl
@[simp] theorem Dev.modCh_locked : (d.modCh c g).locked = d.locked := rfl
@[simp] theorem Dev.modCh_ev : (d.modCh c g).ev = d.ev := rfl
@[simp] theorem Dev.modCh_mem : (d.modCh c g).mem = d.mem := rfl
@[simp] theorem Dev.modCh_hbm : (d.modCh c g).hbm = d.hbm := rfl
@[simp] theorem Dev.modCh_sirocco : (d.modCh c g).sirocco = d.sirocco := rfl
@[simp] theorem Dev.modCh_reply : (d.modCh c g).reply = d.reply := rfl
@[simp] theorem Dev.modCh_rings : (d.modCh c g).rings = d.rings := rfl
@[simp] theorem Dev.modCh_cals : (d.modCh c g).cals = d.cals := rfl
@[simp] theorem Dev.modCh_rateEnd : (d.modCh c g).rateEnd = d.rateEnd := rfl
@[simp] theorem Dev.modCh_clk : (d.modCh c g).clk = d.clk := rfl
@[simp] theorem Dev.modCh_msix : (d.modCh c g).msix = d.msix := rfl
@[simp] theorem Dev.modCh_link : (d.modCh c g).link = d.link := rfl
@[simp] theorem Dev.modCh_heads : (d.modCh c g).heads = d.heads := rfl
@[simp] theorem Dev.modCh_fills : (d.modCh c g).fills = d.fills := rfl
@[simp] theorem Dev.modCh_board : (d.modCh c g).board = d.board := rfl
@[simp] theorem Dev.modCh_sec : (d.modCh c g).sec = d.sec := rfl
@[simp] theorem Dev.modCh_mgmt : (d.modCh c g).mgmt = d.mgmt := rfl
@[simp] theorem Dev.modCh_snap : (d.modCh c g).snap = d.snap := rfl
@[simp] theorem Dev.modCh_free : (d.modCh c g).free = d.free := rfl

@[simp] theorem Dev.follow_regs : (d.follow).regs = d.regs := rfl
@[simp] theorem Dev.follow_pend : (d.follow).pend = d.pend := rfl
@[simp] theorem Dev.follow_staged : (d.follow).staged = d.staged := rfl
@[simp] theorem Dev.follow_locked : (d.follow).locked = d.locked := rfl
@[simp] theorem Dev.follow_chans : (d.follow).chans = d.chans := rfl
@[simp] theorem Dev.follow_ev : (d.follow).ev = d.ev := rfl
@[simp] theorem Dev.follow_mem : (d.follow).mem = d.mem := rfl
@[simp] theorem Dev.follow_hbm : (d.follow).hbm = d.hbm := rfl
@[simp] theorem Dev.follow_sirocco : (d.follow).sirocco = d.sirocco := rfl
@[simp] theorem Dev.follow_reply : (d.follow).reply = d.reply := rfl
@[simp] theorem Dev.follow_rings : (d.follow).rings = d.rings := rfl
@[simp] theorem Dev.follow_cals : (d.follow).cals = d.cals := rfl
@[simp] theorem Dev.follow_rateEnd : (d.follow).rateEnd = d.rateEnd := rfl
@[simp] theorem Dev.follow_clk : (d.follow).clk = d.clk := rfl
@[simp] theorem Dev.follow_link : (d.follow).link = d.link := rfl
@[simp] theorem Dev.follow_heads : (d.follow).heads = d.heads := rfl
@[simp] theorem Dev.follow_fills : (d.follow).fills = d.fills := rfl
@[simp] theorem Dev.follow_board : (d.follow).board = d.board := rfl
@[simp] theorem Dev.follow_sec : (d.follow).sec = d.sec := rfl
@[simp] theorem Dev.follow_mgmt : (d.follow).mgmt = d.mgmt := rfl
@[simp] theorem Dev.follow_snap : (d.follow).snap = d.snap := rfl
@[simp] theorem Dev.follow_free : (d.follow).free = d.free := rfl

@[simp] theorem Dev.wr_ch (e : Fin 32) : (d.wr a w).ch e = d.ch e := rfl
@[simp] theorem Dev.set_ch (e : Fin 32) : (d.set f v).ch e = d.ch e := rfl
@[simp] theorem Dev.set64_ch (e : Fin 32) : (d.set64 lo u).ch e = d.ch e := rfl
@[simp] theorem Dev.follow_ch (e : Fin 32) : d.follow.ch e = d.ch e := rfl
@[simp] theorem Dev.setCh_rd (b : Nat) : (d.setCh c x).rd b = d.rd b := rfl
@[simp] theorem Dev.modCh_rd (b : Nat) : (d.modCh c g).rd b = d.rd b := rfl
@[simp] theorem Dev.follow_rd (b : Nat) : d.follow.rd b = d.rd b := rfl
@[simp] theorem Dev.setCh_get (h : Fld) : (d.setCh c x).get h = d.get h := rfl
@[simp] theorem Dev.modCh_get (h : Fld) : (d.modCh c g).get h = d.get h := rfl
@[simp] theorem Dev.follow_get (h : Fld) : d.follow.get h = d.get h := rfl
@[simp] theorem Dev.setCh_flag (h : Fld) : (d.setCh c x).flag h = d.flag h := rfl
@[simp] theorem Dev.modCh_flag (h : Fld) : (d.modCh c g).flag h = d.flag h := rfl
@[simp] theorem Dev.follow_flag (h : Fld) : d.follow.flag h = d.flag h := rfl
@[simp] theorem Dev.setCh_get64 (b : Nat) : (d.setCh c x).get64 b = d.get64 b := rfl
@[simp] theorem Dev.follow_get64 (b : Nat) : d.follow.get64 b = d.get64 b := rfl

@[simp] theorem Dev.setCh_ch_same : (d.setCh c x).ch c = x := by simp [Dev.setCh, Dev.ch]

theorem Dev.setCh_ch_ne {e : Fin 32} (h : e ≠ c) : (d.setCh c x).ch e = d.ch e := by
  have h' : c.val ≠ e.val := fun q => h (Fin.ext q.symm)
  simp [Dev.setCh, Dev.ch, h']

@[simp] theorem Dev.modCh_ch_same : (d.modCh c g).ch c = g (d.ch c) := by simp [Dev.modCh]

theorem Dev.modCh_ch_ne {e : Fin 32} (h : e ≠ c) : (d.modCh c g).ch e = d.ch e := Dev.setCh_ch_ne d c _ h

theorem Dev.setCh_self : d.setCh c (d.ch c) = d := by simp [Dev.setCh, Dev.ch]

end Updates

/-! ### What a command's answer is -/

/-- A command's answer: the device left, with its MSI-X latches brought up to its interrupt summaries. -/
theorem done_eq (s : State) (d : Dev) : done s d = .next { s with dev := d.follow } := rfl

/-- The interrupt summaries read the register bank alone. -/
@[simp] theorem Dev.follow_summary (d : Dev) : d.follow.summary = d.summary := rfl

@[simp] theorem Dev.follow_seen (d : Dev) : d.follow.msix.seen = d.summary := rfl

end Sys2Proof.Machine
end

