-- ==== Sys2Proof/Laws/Tab.lean ====
section
/-! SUPPORT. The laws of sparse tables: a read after a write gives what was written, a write leaves every other key
alone, and a write keeps the canonical form. The first two hold of every table, canonical or not. -/

set_option Elab.async false

namespace Sys2Proof.Machine

variable {α : Type}

theorem Tab.get_erase_same (dflt : Nat → α) (k : Nat) (t : List (Nat × α)) : Tab.get dflt (Tab.erase k t) k = dflt k := by
  induction t with
  | nil => rfl
  | cons p t ih =>
    simp only [Tab.erase]
    split
    · exact ih
    · simp [Tab.get, *]

theorem Tab.get_erase_ne (dflt : Nat → α) {k j : Nat} (h : j ≠ k) (t : List (Nat × α)) :
    Tab.get dflt (Tab.erase k t) j = Tab.get dflt t j := by
  induction t with
  | nil => rfl
  | cons p t ih =>
    simp only [Tab.erase]
    split
    · next e => simp [Tab.get, ih, e ▸ h]
    · simp [Tab.get, ih]

theorem Tab.get_insert_same (dflt : Nat → α) (k : Nat) (v : α) {t : List (Nat × α)} (h : ∀ p ∈ t, p.1 ≠ k) :
    Tab.get dflt (Tab.insert k v t) k = v := by
  induction t with
  | nil => simp [Tab.insert, Tab.get]
  | cons p t ih =>
    have hp : k ≠ p.1 := fun e => h p (by simp) e.symm
    have ht : ∀ q ∈ t, q.1 ≠ k := fun q hq => h q (by simp [hq])
    simp only [Tab.insert]
    split
    · simp [Tab.get]
    · simp [Tab.get, hp, ih ht]

theorem Tab.get_insert_ne (dflt : Nat → α) {k j : Nat} (v : α) (h : j ≠ k) (t : List (Nat × α)) :
    Tab.get dflt (Tab.insert k v t) j = Tab.get dflt t j := by
  induction t with
  | nil => simp [Tab.insert, Tab.get, h]
  | cons p t ih =>
    simp only [Tab.insert]
    split
    · simp [Tab.get, h]
    · simp [Tab.get, ih]

theorem Tab.mem_erase {k : Nat} {t : List (Nat × α)} {p : Nat × α} (h : p ∈ Tab.erase k t) : p.1 ≠ k ∧ p ∈ t := by
  induction t with
  | nil => simp [Tab.erase] at h
  | cons q t ih =>
    simp only [Tab.erase] at h
    split at h
    · exact ⟨(ih h).1, List.mem_cons_of_mem _ (ih h).2⟩
    · next e =>
      rcases List.mem_cons.1 h with rfl | h
      · exact ⟨fun e' => e e'.symm, by simp⟩
      · exact ⟨(ih h).1, List.mem_cons_of_mem _ (ih h).2⟩

variable [DecidableEq α]

@[simp] theorem Tab.get_put_same (dflt : Nat → α) (t : List (Nat × α)) (k : Nat) (v : α) :
    Tab.get dflt (Tab.put dflt t k v) k = v := by
  unfold Tab.put
  split
  · next e => rw [Tab.get_erase_same, e]
  · exact Tab.get_insert_same dflt k v fun p hp => (Tab.mem_erase hp).1

theorem Tab.get_put_ne (dflt : Nat → α) (t : List (Nat × α)) {k j : Nat} (v : α) (h : j ≠ k) :
    Tab.get dflt (Tab.put dflt t k v) j = Tab.get dflt t j := by
  unfold Tab.put
  split
  · exact Tab.get_erase_ne dflt h t
  · rw [Tab.get_insert_ne dflt v h, Tab.get_erase_ne dflt h]

/-- A read at any key after a write. -/
theorem Tab.get_put (dflt : Nat → α) (t : List (Nat × α)) (k j : Nat) (v : α) :
    Tab.get dflt (Tab.put dflt t k v) j = if j = k then v else Tab.get dflt t j := by
  split
  · next e => rw [e, Tab.get_put_same]
  · next e => exact Tab.get_put_ne dflt t v e

/-! ### The canonical form -/

theorem Tab.wfAbove_mono {dflt : Nat → α} {a b : Nat} (h : a ≤ b) {t : List (Nat × α)}
    (ht : Tab.wfAbove dflt (some b) t = true) : Tab.wfAbove dflt (some a) t = true := by
  cases t with
  | nil => rfl
  | cons p t =>
    simp only [Tab.wfAbove, Bool.and_eq_true, decide_eq_true_eq] at ht ⊢
    exact ⟨⟨by omega, ht.1.2⟩, ht.2⟩

theorem Tab.wfAbove_none {dflt : Nat → α} {a : Nat} {t : List (Nat × α)}
    (ht : Tab.wfAbove dflt (some a) t = true) : Tab.wfAbove dflt none t = true := by
  cases t with
  | nil => rfl
  | cons p t =>
    simp only [Tab.wfAbove, Bool.and_eq_true, decide_eq_true_eq] at ht ⊢
    exact ⟨⟨trivial, ht.1.2⟩, ht.2⟩

theorem Tab.wfAbove_erase {dflt : Nat → α} (k : Nat) (lo : Option Nat) {t : List (Nat × α)}
    (ht : Tab.wfAbove dflt lo t = true) : Tab.wfAbove dflt lo (Tab.erase k t) = true := by
  induction t generalizing lo with
  | nil => rfl
  | cons p t ih =>
    simp only [Tab.wfAbove, Bool.and_eq_true] at ht
    simp only [Tab.erase]
    split
    · apply ih
      cases lo with
      | none => exact Tab.wfAbove_none ht.2
      | some a => exact Tab.wfAbove_mono (Nat.le_of_lt (by simpa using ht.1.1)) ht.2
    · simp only [Tab.wfAbove, Bool.and_eq_true]
      exact ⟨ht.1, ih _ ht.2⟩

theorem Tab.wfAbove_insert {dflt : Nat → α} {k : Nat} {v : α} (hv : v ≠ dflt k) (lo : Option Nat) {t : List (Nat × α)}
    (hlo : ∀ a, lo = some a → a < k) (hk : ∀ p ∈ t, p.1 ≠ k) (ht : Tab.wfAbove dflt lo t = true) :
    Tab.wfAbove dflt lo (Tab.insert k v t) = true := by
  induction t generalizing lo with
  | nil =>
    cases lo with
    | none => simp [Tab.insert, Tab.wfAbove, hv]
    | some a => simp [Tab.insert, Tab.wfAbove, hv, hlo a rfl]
  | cons p t ih =>
    have hp : p.1 ≠ k := hk p (by simp)
    simp only [Tab.wfAbove, Bool.and_eq_true] at ht
    simp only [Tab.insert]
    split
    · next h =>
      simp only [Tab.wfAbove, Bool.and_eq_true, decide_eq_true_eq]
      refine ⟨⟨?_, hv⟩, ⟨h, by simpa using ht.1.2⟩, ht.2⟩
      cases lo with
      | none => trivial
      | some a => simpa using hlo a rfl
    · next h =>
      simp only [Tab.wfAbove, Bool.and_eq_true]
      refine ⟨ht.1, ih _ ?_ (fun q hq => hk q (by simp [hq])) ht.2⟩
      intro a e
      have : p.1 = a := by simpa using e
      omega

/-- A write keeps the canonical form. -/
theorem Tab.wf_put {dflt : Nat → α} {t : List (Nat × α)} (k : Nat) (v : α) (ht : Tab.wf dflt t = true) :
    Tab.wf dflt (Tab.put dflt t k v) = true := by
  unfold Tab.put Tab.wf at *
  split
  · exact Tab.wfAbove_erase k none ht
  · next h =>
    exact Tab.wfAbove_insert h none (fun a e => nomatch e) (fun p hp => (Tab.mem_erase hp).1) (Tab.wfAbove_erase k none ht)

end Sys2Proof.Machine
end

