-- ==== Sys2Proof/Laws/Regs.lean ====
section
/-! SUPPORT. Register fields: what a read gives after a write of the same register, of another field of it, and of
another register. -/

set_option Elab.async false

namespace Sys2Proof.Machine

/-! ### One word -/

/-- A remainder below `p` and a quotient below `q` make a number below `p * q`. -/
theorem add_mul_lt {a b p q : Nat} (ha : a < p) (hb : b < q) : a + b * p < p * q :=
  calc a + b * p < p + b * p := Nat.add_lt_add_right ha _
    _ = p * (b + 1) := by ring
    _ ≤ p * q := Nat.mul_le_mul_left p hb

/-- The number that a word with one field written holds, before it is cut to 32 bits. -/
theorem Fld.write_lt {f : Fld} (h : f.lo + f.len ≤ 32) (w : W32) (v : Nat) :
    w.toNat % 2 ^ f.lo + v % 2 ^ f.len * 2 ^ f.lo + w.toNat / 2 ^ (f.lo + f.len) * 2 ^ (f.lo + f.len) < 2 ^ 32 := by
  have hA : w.toNat % 2 ^ f.lo < 2 ^ f.lo := Nat.mod_lt _ (by positivity)
  have hB : v % 2 ^ f.len < 2 ^ f.len := Nat.mod_lt _ (by positivity)
  have h1 : w.toNat % 2 ^ f.lo + v % 2 ^ f.len * 2 ^ f.lo < 2 ^ (f.lo + f.len) := by
    rw [pow_add]; exact add_mul_lt hA hB
  have hw : w.toNat < 2 ^ 32 := w.isLt
  have hs : (2 : Nat) ^ 32 = 2 ^ (f.lo + f.len) * 2 ^ (32 - (f.lo + f.len)) := by rw [← pow_add]; congr 1; omega
  have hq : w.toNat / 2 ^ (f.lo + f.len) < 2 ^ (32 - (f.lo + f.len)) := Nat.div_lt_of_lt_mul (hs ▸ hw)
  rw [hs]
  exact add_mul_lt h1 hq

theorem Fld.write_toNat {f : Fld} (h : f.lo + f.len ≤ 32) (w : W32) (v : Nat) :
    (f.write w v).toNat =
      w.toNat % 2 ^ f.lo + v % 2 ^ f.len * 2 ^ f.lo + w.toNat / 2 ^ (f.lo + f.len) * 2 ^ (f.lo + f.len) := by
  rw [Fld.write, BitVec.toNat_ofNat, Nat.mod_eq_of_lt (Fld.write_lt h w v)]

theorem Fld.write_div {f : Fld} (h : f.lo + f.len ≤ 32) (w : W32) (v : Nat) :
    (f.write w v).toNat / 2 ^ f.lo = v % 2 ^ f.len + w.toNat / 2 ^ (f.lo + f.len) * 2 ^ f.len := by
  rw [Fld.write_toNat h]
  have hA : w.toNat % 2 ^ f.lo < 2 ^ f.lo := Nat.mod_lt _ (by positivity)
  have e : w.toNat % 2 ^ f.lo + v % 2 ^ f.len * 2 ^ f.lo + w.toNat / 2 ^ (f.lo + f.len) * 2 ^ (f.lo + f.len)
      = w.toNat % 2 ^ f.lo + 2 ^ f.lo * (v % 2 ^ f.len + w.toNat / 2 ^ (f.lo + f.len) * 2 ^ f.len) := by
    rw [pow_add]; ring
  rw [e, Nat.add_mul_div_left _ _ (by positivity), Nat.div_eq_of_lt hA, Nat.zero_add]

/-- A field reads the value written to it, mod its width. -/
theorem Fld.read_write {f : Fld} (h : f.lo + f.len ≤ 32) (w : W32) (v : Nat) : f.read (f.write w v) = v % 2 ^ f.len := by
  rw [Fld.read, Fld.write_div h, Nat.add_mul_mod_self_right, Nat.mod_mod]

/-- A field above a written one keeps its value. -/
theorem Fld.read_write_above {f g : Fld} (h : f.lo + f.len ≤ 32) (hg : f.lo + f.len ≤ g.lo) (w : W32) (v : Nat) :
    g.read (f.write w v) = g.read w := by
  unfold Fld.read
  congr 1
  obtain ⟨k, hk⟩ := Nat.exists_eq_add_of_le hg
  have hA : w.toNat % 2 ^ f.lo < 2 ^ f.lo := Nat.mod_lt _ (by positivity)
  have hB : v % 2 ^ f.len < 2 ^ f.len := Nat.mod_lt _ (by positivity)
  have h1 : w.toNat % 2 ^ f.lo + v % 2 ^ f.len * 2 ^ f.lo < 2 ^ (f.lo + f.len) := by
    rw [pow_add]; exact add_mul_lt hA hB
  have e : (f.write w v).toNat / 2 ^ (f.lo + f.len) = w.toNat / 2 ^ (f.lo + f.len) := by
    rw [Fld.write_toNat h, Nat.add_mul_div_right _ _ (by positivity), Nat.div_eq_of_lt h1, Nat.zero_add]
  rw [hk, pow_add, ← Nat.div_div_eq_div_mul, ← Nat.div_div_eq_div_mul, e]

/-- A field below a written one keeps its value. -/
theorem Fld.read_write_below {f g : Fld} (h : f.lo + f.len ≤ 32) (hg : g.lo + g.len ≤ f.lo) (w : W32) (v : Nat) :
    g.read (f.write w v) = g.read w := by
  have e : (f.write w v).toNat % 2 ^ f.lo = w.toNat % 2 ^ f.lo := by
    rw [Fld.write_toNat h]
    have : w.toNat % 2 ^ f.lo + v % 2 ^ f.len * 2 ^ f.lo + w.toNat / 2 ^ (f.lo + f.len) * 2 ^ (f.lo + f.len)
        = w.toNat % 2 ^ f.lo + (v % 2 ^ f.len + w.toNat / 2 ^ (f.lo + f.len) * 2 ^ f.len) * 2 ^ f.lo := by
      rw [pow_add]; ring
    rw [this, Nat.add_mul_mod_self_right, Nat.mod_mod]
  obtain ⟨k, hk⟩ := Nat.exists_eq_add_of_le hg
  have key (n : Nat) : n / 2 ^ g.lo % 2 ^ g.len = n % 2 ^ f.lo / 2 ^ g.lo % 2 ^ g.len := by
    have hd : 2 ^ (g.lo + g.len) ∣ 2 ^ f.lo := ⟨2 ^ k, by rw [hk, pow_add]⟩
    have a (m : Nat) : m / 2 ^ g.lo % 2 ^ g.len = m % 2 ^ (g.lo + g.len) / 2 ^ g.lo := by
      rw [pow_add, Nat.mod_mul_right_div_self]
    rw [a n, a (n % 2 ^ f.lo), Nat.mod_mod_of_dvd _ hd]
  rw [Fld.read, Fld.read, key (f.write w v).toNat, e, ← key w.toNat]

/-! ### The bank -/

@[simp] theorem Dev.rd_wr_same (d : Dev) (a : Nat) (w : W32) : (d.wr a w).rd a = w := Tab.get_put_same _ _ _ _

theorem Dev.rd_wr_ne (d : Dev) {a b : Nat} (w : W32) (h : b ≠ a) : (d.wr a w).rd b = d.rd b := Tab.get_put_ne _ _ _ h

theorem Dev.rd_wr (d : Dev) (a b : Nat) (w : W32) : (d.wr a w).rd b = if b = a then w else d.rd b :=
  Tab.get_put _ _ _ _ _

theorem Dev.rd_set_ne (d : Dev) {f : Fld} {b : Nat} (v : Nat) (h : b ≠ f.addr) : (d.set f v).rd b = d.rd b :=
  Dev.rd_wr_ne d _ h

@[simp] theorem Dev.rd_set_same (d : Dev) (f : Fld) (v : Nat) : (d.set f v).rd f.addr = f.write (d.rd f.addr) v :=
  Dev.rd_wr_same _ _ _

/-- A field reads what was written to it. -/
theorem Dev.get_set_same (d : Dev) {f : Fld} (h : f.lo + f.len ≤ 32) (v : Nat) : (d.set f v).get f = v % 2 ^ f.len := by
  rw [Dev.get, Dev.rd_set_same, Fld.read_write h]

/-- A field reads less than its width allows. -/
theorem Dev.get_lt (d : Dev) (f : Fld) : d.get f < 2 ^ f.len := Nat.mod_lt _ (by positivity)

/-- A field of another register keeps its value. -/
theorem Dev.get_set_reg (d : Dev) {f g : Fld} (v : Nat) (h : g.addr ≠ f.addr) : (d.set f v).get g = d.get g := by
  rw [Dev.get, Dev.get, Dev.rd_set_ne d v h]

/-- A field of the same register that shares no bit keeps its value. -/
theorem Dev.get_set_bits (d : Dev) {f g : Fld} (v : Nat) (h : f.lo + f.len ≤ 32) (ha : g.addr = f.addr)
    (hd : g.lo + g.len ≤ f.lo ∨ f.lo + f.len ≤ g.lo) : (d.set f v).get g = d.get g := by
  rw [Dev.get, Dev.get, ha, Dev.rd_set_same]
  rcases hd with hd | hd
  · exact Fld.read_write_below h hd _ _
  · exact Fld.read_write_above h hd _ _

theorem Dev.set64_rd_lo (d : Dev) (lo : Nat) (v : W64) : (d.set64 lo v).rd lo = v.setWidth 32 := by
  rw [Dev.set64, Dev.rd_wr_ne _ _ (by omega), Dev.rd_wr_same]

theorem Dev.set64_rd_hi (d : Dev) (lo : Nat) (v : W64) : (d.set64 lo v).rd (lo + 4) = (v >>> 32).setWidth 32 := by
  rw [Dev.set64, Dev.rd_wr_same]

theorem Dev.set64_rd_ne (d : Dev) {lo a : Nat} (v : W64) (h : a ≠ lo) (h' : a ≠ lo + 4) : (d.set64 lo v).rd a = d.rd a := by
  rw [Dev.set64, Dev.rd_wr_ne _ _ h', Dev.rd_wr_ne _ _ h]

/-- A pair reads the 64-bit value written to it. -/
@[simp] theorem Dev.get64_set64 (d : Dev) (lo : Nat) (v : W64) : (d.set64 lo v).get64 lo = v := by
  rw [Dev.get64, Dev.set64_rd_lo, Dev.set64_rd_hi]
  ext i hi
  simp only [BitVec.getElem_append]
  split
  · simp [BitVec.getLsbD_eq_getElem hi]
  · next h => simp [show 32 + (i - 32) = i by omega, BitVec.getLsbD_eq_getElem hi]

/-! ### The canonical form -/

theorem Dev.wf_wr {d : Dev} (a : Nat) (w : W32) (h : Tab.wf regReset d.regs = true) :
    Tab.wf regReset (d.wr a w).regs = true := Tab.wf_put _ _ h

end Sys2Proof.Machine
end

