-- ==== Sys2Proof/Laws/Issue.lean ====
section
/-! SUPPORT. The issue of an instruction: the fields of a built word, when a word runs its effect, and what a completed
instruction leaves. -/

set_option Elab.async false

namespace Sys2Proof.Machine

section Words

variable (op : BitVec 8) (a b : BitVec 4) (x : BitVec 48)

@[simp] theorem fX_mkWord : fX (mkWord op a b x) = x := by
  unfold fX mkWord
  ext i hi
  simp only [BitVec.getElem_setWidth, BitVec.getLsbD_append]
  rw [if_pos hi]; exact BitVec.getLsbD_eq_getElem hi

@[simp] theorem fA_mkWord : fA (mkWord op a b x) = a := by
  unfold fA mkWord
  ext i hi
  simp only [BitVec.getElem_setWidth, BitVec.getLsbD_ushiftRight, BitVec.getLsbD_append]
  rw [if_neg (by omega), if_neg (by omega), if_pos (by omega), show 52 + i - 48 - 4 = i by omega]
  exact BitVec.getLsbD_eq_getElem hi

@[simp] theorem fB_mkWord : fB (mkWord op a b x) = b := by
  unfold fB mkWord
  ext i hi
  simp only [BitVec.getElem_setWidth, BitVec.getLsbD_ushiftRight, BitVec.getLsbD_append]
  rw [if_neg (by omega), if_pos (by omega), show 48 + i - 48 = i by omega]
  exact BitVec.getLsbD_eq_getElem hi

@[simp] theorem opOf_mkWord : opOf (mkWord op a b x) = op.toNat := by
  have e : ((mkWord op a b x) >>> 56).setWidth 8 = op := by
    unfold mkWord
    ext i hi
    simp only [BitVec.getElem_setWidth, BitVec.getLsbD_ushiftRight, BitVec.getLsbD_append]
    rw [if_neg (by omega), if_neg (by omega), if_neg (by omega), show 56 + i - 48 - 4 - 4 = i by omega]
    exact BitVec.getLsbD_eq_getElem hi
  conv_rhs => rw [← e]
  simp [opOf, bits, BitVec.toNat_setWidth, BitVec.toNat_ushiftRight, Nat.shiftRight_eq_div_pow]

@[simp] theorem xr_mkWord (hi lo : Nat) : xr (mkWord op a b x) hi lo = bits x hi lo := by simp [xr]

@[simp] theorem xb_mkWord (i : Nat) : xb (mkWord op a b x) i = x.getLsbD i := by simp [xb]

end Words

/-- A word that nothing holds back runs its effect. -/
theorem Dev.attempt_eff {d : Dev} {c : Fin 32} {w : W64} (eff : Effect) (h : MayIssue d c w) :
    d.attempt c w eff = eff d c w := by
  obtain ⟨h1, -, -, h4, h5, h6, h7, h8⟩ := h
  simp only [Chan.canIssue, Bool.and_eq_true, decide_eq_true_eq] at h1
  unfold Dev.attempt
  simp only [h4.2, h4.1]
  have e5 : (decide ((d.ch c).st = .run) && scheduling w (tickCount (d.ch c) w) && d.aheadTooFar c) = false := by
    cases e : scheduling w (tickCount (d.ch c) w) with
    | false => simp
    | true => simp [h5 e]
  have e6 : (places w (tickCount (d.ch c) w) && decide (64 ≤ (d.ch c).queue.length)) = false := by
    cases e : places w (tickCount (d.ch c) w) with
    | false => simp
    | true => simp only [Bool.true_and, decide_eq_false_iff_not]; exact Nat.not_le.2 (h6 e)
  rw [e5, e6]
  simp [h7, h8]

theorem Dev.issue_eff {d : Dev} {c : Fin 32} {w : W64} (eff : Effect) (h : MayIssue d c w) :
    d.issue c w eff = d.settleIssue c w (eff d c w) := by
  rw [Dev.issue, if_pos h.1, Dev.attempt_eff eff h]

/-- The plain completion of an instruction: no STEP, no BREAK, the next PC inside the program store. -/
theorem Dev.complete_plain {d : Dev} {c : Fin 32} {pc : BitVec 16} (hb : (d.ch c).breakReq = false)
    (hs : (d.ch c).stepping = false) (hp : pc ≠ 32768) :
    d.complete c pc = (d.count64 (R.CH_SEQ_CNT c 0 0) 1).setCh c ((d.ch c).passed pc) := by
  have hp' : ¬pc = 32768#16 := hp
  unfold Dev.complete
  simp [hb, hs, hp', Dev.setIf, Chan.passed]

/-- What the plain completion of an instruction leaves, for an effect that changed the channel alone. -/
theorem Dev.issued_complete {d : Dev} {c : Fin 32} {y : Chan} {pc : BitVec 16} (hb : y.breakReq = false)
    (hs : y.stepping = false) (hp : pc ≠ 32768) :
    Issued d ((d.setCh c y).complete c pc) c (y.passed pc) := by
  have hb' : ((d.setCh c y).ch c).breakReq = false := by simpa using hb
  have hs' : ((d.setCh c y).ch c).stepping = false := by simpa using hs
  rw [Dev.complete_plain hb' hs' hp]
  have e : (1 : Nat) ≠ 0 := by decide
  refine ⟨by simp, fun e he => ?_, ?_, fun a ha => ?_, by simp [Dev.count64], by simp [Dev.count64], ?_⟩
  · rw [Dev.setCh_ch_ne _ _ _ he]
    simp only [Dev.count64, if_neg (by decide : ¬(1 : Nat) = 0), Dev.set64_ch]
    exact Dev.setCh_ch_ne _ _ _ he
  · simp [Dev.count64]
  · simp only [issuedRegs, List.mem_cons, List.not_mem_nil, or_false, not_or] at ha
    simp only [Dev.count64, if_neg (by decide : ¬(1 : Nat) = 0), Dev.setCh_rd]
    rw [Dev.set64_rd_ne _ _ ha.1 ha.2, Dev.setCh_rd]
  · simp [RestSame, Dev.count64]

/-- MSI-X latches apart, nothing of an instruction's outcome changes when the command is answered. -/
theorem Issued.follow {d t : Dev} {c : Fin 32} {y : Chan} (h : Issued d t c y) : Issued d t.follow c y := h

/-- An instruction row whose effect changes the channel to `y` and goes on at `pc`. -/
theorem ends_issue {i : Instr} {s : State} {c : Fin 32} {w : W64} {eff : Effect} {y : Chan} {pc : BitVec 16}
    (hi : exec i s = done s (s.dev.issue c w eff)) (h : MayIssue s.dev c w)
    (he : eff s.dev c w = .done (s.dev.setCh c y) pc) (hb : y.breakReq = false) (hs : y.stepping = false) (hp : pc ≠ 32768) :
    Ends i s fun t => Issued s.dev t c (y.passed pc) := by
  refine ⟨_, hi, rfl, Issued.follow ?_⟩
  rw [Dev.issue_eff eff h, he]
  exact Dev.issued_complete hb hs hp

end Sys2Proof.Machine
end

