-- ==== Sys2Proof/Laws/Memory.lean ====
section
/-! SUPPORT. Memories: reads after writes, and that every write keeps the canonical form. -/

set_option Elab.async false

namespace Sys2Proof.Machine

/-! ### Cells -/

theorem wf_writeCells (dflt : Nat → Byte) (bs : List Byte) (t : List Host.Cell) (a : Nat) (h : Memory.wf dflt t = true) :
    Memory.wf dflt (writeCells dflt t a bs) = true := by
  induction bs generalizing t a with
  | nil => exact h
  | cons b bs ih => exact ih _ _ (Tab.wf_put a b h)

theorem get_writeCells_below (dflt : Nat → Byte) (bs : List Byte) (t : List Host.Cell) {a x : Nat} (h : x < a) :
    Tab.get dflt (writeCells dflt t a bs) x = Tab.get dflt t x := by
  induction bs generalizing t a with
  | nil => rfl
  | cons b bs ih =>
    rw [writeCells, ih _ (Nat.lt_succ_of_lt h), Tab.get_put_ne _ _ _ (by omega)]

/-- A byte after a write of the bytes `bs` from `a` on: the byte written there, else what it was. -/
theorem get_writeCells (dflt : Nat → Byte) (bs : List Byte) (t : List Host.Cell) (a x : Nat) :
    Tab.get dflt (writeCells dflt t a bs) x = if a ≤ x ∧ x < a + bs.length then bs.getD (x - a) 0 else Tab.get dflt t x := by
  induction bs generalizing t a with
  | nil => simp [writeCells, show ¬(a ≤ x ∧ x < a) by omega]
  | cons b bs ih =>
    rw [writeCells]
    rcases Nat.lt_trichotomy x a with hx | hx | hx
    · rw [get_writeCells_below _ _ _ (by omega), Tab.get_put_ne _ _ _ (by omega), if_neg (by omega)]
    · subst hx
      rw [get_writeCells_below _ _ _ (by omega), Tab.get_put_same]
      simp
    · obtain ⟨k, rfl⟩ := Nat.exists_eq_add_of_lt hx
      rw [ih, Tab.get_put_ne _ _ _ (by omega)]
      have e : a + k + 1 - a = k + 1 := by omega
      have e' : a + k + 1 - (a + 1) = k := by omega
      by_cases h : k < bs.length
      · rw [if_pos (by omega), if_pos (by simp; omega), e, e', List.getD_cons_succ]
      · rw [if_neg (by omega), if_neg (by simp; omega)]

/-! ### Stores -/

/-- A byte of a memory after a write. -/
theorem Store.byte_write (m : Store) (a x : Nat) (bs : List Byte) :
    (m.write a bs).byte x = if a ≤ x ∧ x < a + bs.length then bs.getD (x - a) 0 else m.byte x :=
  get_writeCells blank bs m.cells a x

/-- A write leaves every byte outside its range alone. -/
theorem Store.byte_write_outside (m : Store) {a x : Nat} {bs : List Byte} (h : x < a ∨ a + bs.length ≤ x) :
    (m.write a bs).byte x = m.byte x := by
  rw [Store.byte_write, if_neg (by omega)]

theorem Store.bytes_congr {m n : Store} {a k : Nat} (h : ∀ i, i < k → m.byte (a + i) = n.byte (a + i)) :
    m.bytes a k = n.bytes a k := by
  induction k generalizing a with
  | zero => rfl
  | succ k ih =>
    have h0 : m.byte a = n.byte a := h 0 (by omega)
    rw [Store.bytes, Store.bytes, h0, ih fun i hi => ?_]
    simpa [Nat.add_assoc, Nat.add_comm 1 i] using h (i + 1) (by omega)

/-- A read of the bytes just written gives them. -/
theorem Store.bytes_write (m : Store) (a : Nat) (bs : List Byte) : (m.write a bs).bytes a bs.length = bs := by
  have key (n : Nat) (s : Store) (l : List Byte) (a : Nat) (h : ∀ i, i < l.length → s.byte (a + i) = l.getD i 0)
      (hn : n = l.length) : s.bytes a n = l := by
    induction l generalizing n a with
    | nil => subst hn; rfl
    | cons b l ih =>
      subst hn
      rw [List.length_cons, Store.bytes, ih l.length (a + 1) (fun i hi => ?_) rfl]
      · have := h 0 (by simp)
        simp at this
        rw [this]
      · have := h (i + 1) (by simp; omega)
        simpa [Nat.add_assoc, Nat.add_comm 1 i] using this
  refine key _ _ _ _ (fun i hi => ?_) rfl
  rw [Store.byte_write, if_pos (by omega)]
  simp

theorem Store.wf_write {m : Store} (a : Nat) (bs : List Byte) (h : Memory.wf blank m.cells = true) :
    Memory.wf blank (m.write a bs).cells = true := wf_writeCells blank bs m.cells a h

/-- A property that every step of a fold keeps holds at its end. -/
theorem foldl_keeps {β γ : Type} (p : γ → Prop) (f : γ → β → γ) (hf : ∀ g b, p g → p (f g b)) (l : List β) (g : γ)
    (h : p g) : p (l.foldl f g) := by
  induction l generalizing g with
  | nil => exact h
  | cons b l ih => exact ih _ (hf g b h)

theorem Store.wf_writeUnits {m : Store} (u a : Nat) (bs : List Byte) (h : Memory.wf blank m.cells = true) :
    Memory.wf blank (m.writeUnits u a bs).cells = true := by
  refine foldl_keeps (fun m : Store => Memory.wf blank m.cells = true) _ (fun m x hm => ?_) _ m h
  dsimp only
  split
  · exact Store.wf_write _ _ hm
  · split
    · exact hm
    · exact Store.wf_write _ _ hm

theorem Store.wf_markPoison {m : Store} (x : Nat) (h : Memory.wf blank m.cells = true) :
    Memory.wf blank (m.markPoison x).cells = true := h

/-- A write in whole and partial units leaves every byte outside its range alone. -/
theorem Store.byte_writeUnits_outside (m : Store) (u : Nat) {a x : Nat} {bs : List Byte}
    (h : x < a ∨ a + bs.length ≤ x) : (m.writeUnits u a bs).byte x = m.byte x := by
  refine foldl_keeps (fun n : Store => n.byte x = m.byte x) _ (fun n y hn => ?_) _ m rfl
  have out : ∀ n : Store, n.byte x = m.byte x →
      (n.write (max a y) ((bs.drop (max a y - a)).take (min (a + bs.length) (y + u) - max a y))).byte x = m.byte x := by
    intro n hn
    rw [Store.byte_write_outside, hn]
    simp only [List.length_take, List.length_drop]
    omega
  dsimp only
  split
  · exact out n hn
  · split
    · exact hn
    · exact out n hn

end Sys2Proof.Machine
end

