-- ==== Sys2Proof/Laws/Effects.lean ====
section
/-! SUPPORT. What an instruction that completes or faults leaves behind: the shared frames of the instruction rows. -/

set_option Elab.async false

namespace Sys2Proof.Laws

open Sys2Proof.Machine Sys2Proof.Claims

theorem goes {i : Instr} {s : State} {c : Fin 32} {w : W64} {eff : Effect} {y : Chan} {pc : BitVec 16}
    (hi : exec i s = done s (s.dev.issue c w eff)) (h : MayIssue s.dev c w)
    (he : eff s.dev c w = .done (s.dev.setCh c y) pc) (hb : y.breakReq = (s.dev.ch c).breakReq) (hs : y.stepping = (s.dev.ch c).stepping) (hp : pc ≠ 32768) :
    Goes i s c y pc := ends_issue hi h he (by rw [hb]; exact h.2.1) (by rw [hs]; exact h.2.2.1) hp

theorem pcne {pc : BitVec 16} (h : pc ≠ 32767) : pc + 1 ≠ 32768 := by
  intro h2; apply h; bv_omega

theorem lt15 {x : BitVec 48} : BitVec.ofNat 16 (bits x 14 0) ≠ 32768 := by
  intro h
  have := congrArg BitVec.toNat h
  simp [bits] at this
  omega

theorem setCh_self (d : Dev) (c : Fin 32) : d.setCh c (d.ch c) = d := by
  simp [Dev.setCh, Dev.ch]

theorem nexts {i : Instr} {s : State} {c : Fin 32} {w : W64} {eff : Effect} {y : Chan}
    (hi : exec i s = done s (s.dev.issue c w eff)) (h : Free s c w)
    (he : eff s.dev c w = .done (s.dev.setCh c y) ((s.dev.ch c).pc + 1)) (hb : y.breakReq = (s.dev.ch c).breakReq) (hs : y.stepping = (s.dev.ch c).stepping) :
    Next i s c y := goes hi h.1 he hb hs (pcne h.2)

theorem syncLemma (sc m r : Nat) (hm : 0 < m) : (sc + (r % m + (m - sc % m)) % m) % m = r % m := by
  rw [Nat.add_mod, Nat.mod_mod, ← Nat.add_mod]
  have h := Nat.mod_lt sc hm
  have h3 := Nat.mod_add_div sc m
  have e : sc + (r % m + (m - sc % m)) = r % m + m * (sc / m + 1) := by
    rw [Nat.mul_add]; omega
  rw [e, Nat.add_mul_mod_self_left, Nat.mod_mod]

theorem get_set_bits' (d : Dev) {a lo len lo' len' : Nat} (v : Nat) (h : lo + len ≤ 32) (hd : lo' + len' ≤ lo ∨ lo + len ≤ lo') :
   (d.set ⟨a, lo, len⟩ v).get ⟨a, lo', len'⟩ = d.get ⟨a, lo', len'⟩ := Dev.get_set_bits _ _ h rfl hd

theorem emitStatus_regs (d : Dev) (m n : Nat) (b : List Byte) : ∃ r, d.emitStatus m n b = { d with rings := r } := by
  unfold Dev.emitStatus; split
  · exact ⟨d.rings, rfl⟩
  · split
    · exact ⟨d.rings, rfl⟩
    · exact ⟨_, rfl⟩

def bankAfter (d : Dev) (c : Fin 32) (cause sub arg pc : Nat) (b : Tick) : Dev :=
  ((((d.faultRecord c cause sub arg pc b).set (F.CH_SEQ_STATUS_CODE c) 4).set (F.CH_SEQ_STATUS_ABRT c) (d.get (F.CH_SEQ_STATUS_ABRT c))).set
    (F.CH_SEQ_IRQ_STATUS_FAULT c) 1).set ⟨R.CH_SEQ_CTRL c, 0, 6⟩ 0

def chanAfter (d : Dev) (c : Fin 32) (b : Tick) (seq : Bool) : Chan :=
  { d.ch c with
      stepping := false, breakReq := false, goReq := false, st := .faulted, goTick := d.ev.dt
      queue := (d.ch c).queue.filter fun a => before a.tick b
      dispatched := (d.ch c).dispatched.filter fun a => before a.tick b
      stopB := none, faultB := some b, faultEnd := b + tk (d.blockTicks c), seqFault := seq
      parkAt := some (b + tk (d.blockTicks c)), recs := [], store := []
      holds := if (d.ch c).committed then (d.ch c).holds ++ [(b, b + tk (d.blockTicks c))] else (d.ch c).holds }

theorem record_blk (d : Dev) (c : Fin 32) (cause sub arg pc : Nat) (b : Tick) :
    (d.faultRecord c cause sub arg pc b).blockTicks c = d.blockTicks c := by
  simp only [Dev.faultRecord, Dev.blockTicks, Dev.rate]
  rw [Dev.get, Dev.get]
  congr 4
  simp only [Dev.rd_wr, Dev.set64]
  have := c.isLt
  simp only [F.TELEM_SW_RATE_RATE_d, R.TELEM_SW_RATE, R.CH_SEQ_FAULT_ARG, R.CH_SEQ_FAULT_B, R.CH_SEQ_FAULT_PC, R.CH_SEQ_FAULT]
  rw [if_neg (by omega), if_neg (by omega), if_neg (by omega), if_neg (by omega), if_neg (by omega)]

theorem setCh_setCh (d : Dev) (c : Fin 32) (x y : Chan) : (d.setCh c x).setCh c y = d.setCh c y := by
  simp [Dev.setCh]

theorem set_setCh (d : Dev) (c : Fin 32) (x : Chan) (f : Fld) (v : Nat) : (d.setCh c x).set f v = (d.set f v).setCh c x := rfl

theorem record_ch (d : Dev) (c e : Fin 32) (cause sub arg pc : Nat) (b : Tick) :
    (d.faultRecord c cause sub arg pc b).ch e = d.ch e := rfl

theorem record_abrt (d : Dev) (c : Fin 32) (cause sub arg pc : Nat) (b : Tick) :
    (d.faultRecord c cause sub arg pc b).get (F.CH_SEQ_STATUS_ABRT c) = d.get (F.CH_SEQ_STATUS_ABRT c) := by
  simp only [Dev.faultRecord, Dev.get]
  congr 1
  simp only [Dev.rd_wr, Dev.set64]
  have := c.isLt
  simp only [R.CH_SEQ_STATUS, R.CH_SEQ_FAULT_ARG, R.CH_SEQ_FAULT_B, R.CH_SEQ_FAULT_PC, R.CH_SEQ_FAULT]
  rw [if_neg (by omega), if_neg (by omega), if_neg (by omega), if_neg (by omega), if_neg (by omega)]

theorem fault_eq (d : Dev) (c : Fin 32) (cause sub arg pc : Nat) (b : Tick) :
    ∃ r, d.faultAt c cause sub arg pc b =
      { (bankAfter d c cause sub arg pc b).setCh c (chanAfter d c b (d.ch c).noIssue) with rings := r } := by
  have ha : ∀ x, ((d.faultRecord c cause sub arg pc b).modCh c x).get (F.CH_SEQ_STATUS_ABRT c) = d.get (F.CH_SEQ_STATUS_ABRT c) :=
    fun _ => record_abrt ..
  unfold Dev.faultAt Dev.completeRun
  dsimp only
  rw [ha]
  obtain ⟨r, hr⟩ := emitStatus_regs ((bankAfter d c cause sub arg pc b).setCh c (chanAfter d c b (d.ch c).noIssue)) 0 c.val
    (Dev.runBody ((bankAfter d c cause sub arg pc b).setCh c (chanAfter d c b (d.ch c).noIssue)) c 4 (d.get (F.CH_SEQ_STATUS_ABRT c)))
  refine ⟨r, ?_⟩
  rw [← hr]
  simp only [record_blk, Dev.modCh, record_ch, if_true, set_setCh, Dev.setCh_ch_same, setCh_setCh]
  rfl

theorem faultAt_spec (d : Dev) (c : Fin 32) (cause sub arg pc : Nat) (b : Tick) (t : Dev) (ht : t = d.faultAt c cause sub arg pc b):
    t.rd (R.CH_SEQ_FAULT c) = BitVec.ofNat 32 (1 + 2 * cause + 16 * sub) ∧
    t.rd (R.CH_SEQ_FAULT_PC c) = BitVec.ofNat 32 (pc % 32768) ∧
    t.get64 (R.CH_SEQ_FAULT_B c 0) = b ∧ t.rd (R.CH_SEQ_FAULT_ARG c) = BitVec.ofNat 32 arg ∧
    t.get (F.CH_SEQ_STATUS_CODE c) = 4 ∧ t.get (F.CH_SEQ_STATUS_ABRT c) = d.get (F.CH_SEQ_STATUS_ABRT c) ∧ t.get (F.CH_SEQ_IRQ_STATUS_FAULT c) = 1 ∧ t.get ⟨R.CH_SEQ_CTRL c, 0, 6⟩ = 0 ∧
    t.ch c = chanAfter d c b (d.ch c).noIssue ∧
    OtherChans d t c ∧ RegsBut d t (faultRegs c) ∧ t.mem = d.mem ∧ t.reply = d.reply ∧ RestSame { d with rings := t.rings } t := by
  obtain ⟨r, hr⟩ := fault_eq d c cause sub arg pc b
  rw [hr] at ht
  have hc := c.isLt
  have hregs : t.regs = (bankAfter d c cause sub arg pc b).regs := by rw [ht, Dev.setCh_regs]
  have hchans : t.chans = ((bankAfter d c cause sub arg pc b).setCh c (chanAfter d c b (d.ch c).noIssue)).chans := by rw [ht]
  have hch : ∀ e, t.ch e = ((bankAfter d c cause sub arg pc b).setCh c (chanAfter d c b (d.ch c).noIssue)).ch e := fun e => by show t.chans[e] = _; rw [hchans]; rfl
  have hbc : ∀ e, (bankAfter d c cause sub arg pc b).ch e = d.ch e := fun e => by unfold bankAfter; rfl
  have hrd : ∀ a, t.rd a = (bankAfter d c cause sub arg pc b).rd a := fun a => by unfold Dev.rd; rw [hregs]
  have hg : ∀ f, t.get f = (bankAfter d c cause sub arg pc b).get f := fun f => by simp only [Dev.get, hrd]
  have hne : ∀ a, a ∉ faultRegs c → t.rd a = d.rd a := by
    intro a ha
    simp only [faultRegs, List.mem_cons, List.not_mem_nil, or_false, not_or] at ha
    rw [hrd]
    simp only [bankAfter, Dev.set, Dev.faultRecord, Dev.set64, Dev.rd_wr]
    simp [ha]
  refine ⟨?_, ?_, ?_, ?_, ?_, ?_, ?_, ?_, ?_, ?_, hne, ?_, ?_, ?_⟩
  · rw [hrd]; simp only [bankAfter, Dev.set, Dev.faultRecord, Dev.set64, Dev.rd_wr]
    simp (disch := omega) only [F.CH_SEQ_STATUS_CODE, F.CH_SEQ_STATUS_ABRT, F.CH_SEQ_IRQ_STATUS_FAULT, R.CH_SEQ_STATUS, R.CH_SEQ_CTRL, R.CH_SEQ_IRQ_STATUS, R.CH_SEQ_FAULT, R.CH_SEQ_FAULT_PC, R.CH_SEQ_FAULT_B, R.CH_SEQ_FAULT_ARG, if_pos, if_neg, if_true]
  · rw [hrd]; simp only [bankAfter, Dev.set, Dev.faultRecord, Dev.set64, Dev.rd_wr]
    simp (disch := omega) only [F.CH_SEQ_STATUS_CODE, F.CH_SEQ_STATUS_ABRT, F.CH_SEQ_IRQ_STATUS_FAULT, R.CH_SEQ_STATUS, R.CH_SEQ_CTRL, R.CH_SEQ_IRQ_STATUS, R.CH_SEQ_FAULT, R.CH_SEQ_FAULT_PC, R.CH_SEQ_FAULT_B, R.CH_SEQ_FAULT_ARG, if_pos, if_neg, if_true]
  · have : t.get64 (R.CH_SEQ_FAULT_B c 0) = (d.set64 (R.CH_SEQ_FAULT_B c 0) b).get64 (R.CH_SEQ_FAULT_B c 0) := by
      simp only [Dev.get64, hrd]
      simp only [bankAfter, Dev.set, Dev.faultRecord, Dev.set64, Dev.rd_wr]
      simp (disch := omega) only [F.CH_SEQ_STATUS_CODE, F.CH_SEQ_STATUS_ABRT, F.CH_SEQ_IRQ_STATUS_FAULT, R.CH_SEQ_STATUS, R.CH_SEQ_CTRL, R.CH_SEQ_IRQ_STATUS, R.CH_SEQ_FAULT, R.CH_SEQ_FAULT_PC, R.CH_SEQ_FAULT_B, R.CH_SEQ_FAULT_ARG, if_pos, if_neg, if_true]
    rw [this, Dev.get64_set64]
  · rw [hrd]; simp only [bankAfter, Dev.set, Dev.faultRecord, Dev.set64, Dev.rd_wr]
    simp (disch := omega) only [F.CH_SEQ_STATUS_CODE, F.CH_SEQ_STATUS_ABRT, F.CH_SEQ_IRQ_STATUS_FAULT, R.CH_SEQ_STATUS, R.CH_SEQ_CTRL, R.CH_SEQ_IRQ_STATUS, R.CH_SEQ_FAULT, R.CH_SEQ_FAULT_PC, R.CH_SEQ_FAULT_B, R.CH_SEQ_FAULT_ARG, if_pos, if_neg, if_true]
  · rw [hg]
    simp only [bankAfter]
    rw [Dev.get_set_reg _ _ (by simp only [R.CH_SEQ_STATUS, R.CH_SEQ_CTRL]; omega), Dev.get_set_reg _ _ (by simp only [R.CH_SEQ_STATUS,R.CH_SEQ_IRQ_STATUS]; omega), get_set_bits' _ _ (by simp) (by simp), Dev.get_set_same _ (by simp)]
    all_goals simp
  · rw [hg]
    simp only [bankAfter]
    rw [Dev.get_set_reg _ _ (by simp only [R.CH_SEQ_STATUS, R.CH_SEQ_CTRL]; omega), Dev.get_set_reg _ _ (by simp only [R.CH_SEQ_STATUS, R.CH_SEQ_IRQ_STATUS]; omega),
      Dev.get_set_same _ (by simp)]
    exact Nat.mod_eq_of_lt (Dev.get_lt d _)
  · rw [hg]
    simp only [bankAfter]
    rw [Dev.get_set_reg _ _ (by simp only [R.CH_SEQ_CTRL, R.CH_SEQ_IRQ_STATUS]; omega), Dev.get_set_same _ (by simp)]
    all_goals simp
  · rw [hg]
    simp only [bankAfter]
    rw [Dev.get_set_same _ (by simp)]
    simp
  · rw [hch, Dev.setCh_ch_same]
  · intro e he
    rw [hch, Dev.setCh_ch_ne _ _ _ he, hbc]
  · rw [ht]; rfl
  · rw [ht]; rfl
  · rw [ht]; simp [RestSame, bankAfter, Dev.faultRecord]

theorem seqFaultAt_spec (d : Dev) (c : Fin 32) (cause sub arg pc : Nat) (ho : d.outputFaults c = false) (t : Dev) (ht : t = d.seqFaultAt c cause sub arg pc) :
    t.rd (R.CH_SEQ_FAULT c) = BitVec.ofNat 32 (1 + 2 * cause + 16 * sub) ∧
    t.rd (R.CH_SEQ_FAULT_PC c) = BitVec.ofNat 32 (pc % 32768) ∧
    t.get64 (R.CH_SEQ_FAULT_B c 0) = (d.ch c).nextBoundary ∧ t.rd (R.CH_SEQ_FAULT_ARG c) = BitVec.ofNat 32 arg ∧
    t.get (F.CH_SEQ_STATUS_CODE c) = 4 ∧ t.get (F.CH_SEQ_STATUS_ABRT c) = d.get (F.CH_SEQ_STATUS_ABRT c) ∧ t.get (F.CH_SEQ_IRQ_STATUS_FAULT c) = 1 ∧ t.get ⟨R.CH_SEQ_CTRL c, 0, 6⟩ = 0 ∧
    t.ch c = chanAfter d c (d.ch c).nextBoundary true ∧
    OtherChans d t c ∧ RegsBut d t (faultRegs c) ∧ t.mem = d.mem ∧ t.reply = d.reply ∧ RestSame { d with rings := t.rings } t := by
  obtain ⟨h1, h2, h3, h4, h5, ha, h6, h7, h8, h9, h10, h11, h12, h13⟩ :=
    faultAt_spec d c cause sub arg pc (d.ch c).nextBoundary _ rfl
  have e : t = (d.faultAt c cause sub arg pc (d.ch c).nextBoundary).modCh c fun x => { x with seqFault := true } := by
    rw [ht]; unfold Dev.seqFaultAt; simp only [ho]; rfl
  subst e
  refine ⟨h1, h2, h3, h4, h5, ha, h6, h7, ?_, fun e he => ?_, h10, h11, h12, h13⟩
  · rw [Dev.modCh, Dev.setCh_ch_same, h8]; rfl
  · rw [Dev.modCh, Dev.setCh_ch_ne _ _ _ he]; exact h9 e he

theorem fault_spec (d : Dev) (c : Fin 32) (cause sub arg : Nat) (ho : d.outputFaults c = false) (t : Dev) (ht : t = d.fault c cause sub arg) :
    t.rd (R.CH_SEQ_FAULT c) = BitVec.ofNat 32 (1 + 2 * cause + 16 * sub) ∧
    t.rd (R.CH_SEQ_FAULT_PC c) = BitVec.ofNat 32 ((d.ch c).pc.toNat % 32768) ∧
    t.get64 (R.CH_SEQ_FAULT_B c 0) = (d.ch c).nextBoundary ∧ t.rd (R.CH_SEQ_FAULT_ARG c) = BitVec.ofNat 32 arg ∧
    t.get (F.CH_SEQ_STATUS_CODE c) = 4 ∧ t.get (F.CH_SEQ_STATUS_ABRT c) = d.get (F.CH_SEQ_STATUS_ABRT c) ∧ t.get (F.CH_SEQ_IRQ_STATUS_FAULT c) = 1 ∧ t.get ⟨R.CH_SEQ_CTRL c, 0, 6⟩ = 0 ∧
    t.ch c = chanAfter d c (d.ch c).nextBoundary true ∧
    OtherChans d t c ∧ RegsBut d t (faultRegs c) ∧ t.mem = d.mem ∧ t.reply = d.reply ∧ RestSame { d with rings := t.rings } t :=
  seqFaultAt_spec d c cause sub arg _ ho t ht

theorem faultReport_rings (d : Dev) (c : Fin 32) : ∃ r, d.faultReport c = { d with rings := r } := by
  unfold Dev.faultReport
  dsimp only
  split
  · exact ⟨_, rfl⟩
  · exact ⟨_, rfl⟩

/-- What `faultMore` does last: MORE is set, and the report of the run follows the record. -/
theorem moreSet_spec (e : Dev) (c : Fin 32) :
    ((e.set (F.CH_SEQ_FAULT_MORE c) 1).faultReport c).ch c = e.ch c ∧
    ((e.set (F.CH_SEQ_FAULT_MORE c) 1).faultReport c).get (F.CH_SEQ_FAULT_MORE c) = 1 ∧
    ((e.set (F.CH_SEQ_FAULT_MORE c) 1).faultReport c).get64 (R.CH_SEQ_FAULT_B c 0) = e.get64 (R.CH_SEQ_FAULT_B c 0) := by
  obtain ⟨r, hr⟩ := faultReport_rings (e.set (F.CH_SEQ_FAULT_MORE c) 1) c
  rw [hr]
  refine ⟨rfl, ?_, ?_⟩
  · show (e.set _ 1).get _ = 1
    rw [Dev.get_set_same _ (by simp)]; simp
  · show (e.set _ 1).get64 _ = _
    simp only [Dev.get64, Dev.set, Dev.rd_wr, F.CH_SEQ_FAULT_MORE, R.CH_SEQ_FAULT, R.CH_SEQ_FAULT_B]
    rw [if_neg (by omega), if_neg (by omega)]

theorem faultRecord_b (e : Dev) (c : Fin 32) (cause sub arg pc : Nat) (b : Tick) :
    (e.faultRecord c cause sub arg pc b).get64 (R.CH_SEQ_FAULT_B c 0) = b := by
  have : (e.faultRecord c cause sub arg pc b).get64 (R.CH_SEQ_FAULT_B c 0) = (e.set64 (R.CH_SEQ_FAULT_B c 0) b).get64 (R.CH_SEQ_FAULT_B c 0) := by
    have hc := c.isLt
    simp only [Dev.get64, Dev.faultRecord, Dev.set64, Dev.rd_wr]
    simp (disch := omega) only [R.CH_SEQ_FAULT, R.CH_SEQ_FAULT_PC, R.CH_SEQ_FAULT_B, R.CH_SEQ_FAULT_ARG, if_neg, if_true]
  rw [this, Dev.get64_set64]

/-- A second fault of one tick (R99): the run stays faulted, MORE is set, and the earlier boundary stands. -/
theorem faultMore_spec (d : Dev) (c : Fin 32) (cause sub arg pc : Nat) (b : Tick) (t : Dev)
    (ht : t = d.faultMore c cause sub arg pc b) :
    (t.ch c).st = (d.ch c).st ∧ t.get (F.CH_SEQ_FAULT_MORE c) = 1 ∧
    t.get64 (R.CH_SEQ_FAULT_B c 0) = (if before b (d.get64 (R.CH_SEQ_FAULT_B c 0)) then b else d.get64 (R.CH_SEQ_FAULT_B c 0)) := by
  rw [ht]; clear ht
  unfold Dev.faultMore
  dsimp only
  cases hb : before b (d.get64 (R.CH_SEQ_FAULT_B c 0)) with
  | true =>
    simp only [Bool.true_or, if_true]
    have hm := moreSet_spec ((d.faultRecord c cause sub arg pc b).modCh c fun x =>
      { x with queue := x.queue.filter fun a => before a.tick b
               dispatched := x.dispatched.filter fun a => before a.tick b
               faultB := some b, faultEnd := b + tk ((d.faultRecord c cause sub arg pc b).blockTicks c)
               parkAt := some (b + tk ((d.faultRecord c cause sub arg pc b).blockTicks c))
               holds := x.holds.map fun h => if h = (d.get64 (R.CH_SEQ_FAULT_B c 0), d.get64 (R.CH_SEQ_FAULT_B c 0) +
                 tk ((d.faultRecord c cause sub arg pc b).blockTicks c)) then (b, b + tk ((d.faultRecord c cause sub arg pc b).blockTicks c)) else h }) c
    refine ⟨?_, hm.2.1, hm.2.2.trans (faultRecord_b d c cause sub arg pc b)⟩
    rw [hm.1, Dev.modCh, Dev.setCh_ch_same]
    rfl
  | false =>
    simp only [Bool.false_or, Bool.false_eq_true, if_false]
    by_cases hq : (b = d.get64 (R.CH_SEQ_FAULT_B c 0) && decide (causeRank cause < causeRank (d.get (F.CH_SEQ_FAULT_CAUSE c)))) = true
    · rw [if_pos hq]
      have hm := moreSet_spec (d.faultRecord c cause sub arg pc b) c
      simp only [Bool.and_eq_true, decide_eq_true_eq] at hq
      refine ⟨by rw [hm.1]; rfl, hm.2.1, ?_⟩
      rw [hm.2.2, faultRecord_b]; exact hq.1
    · rw [if_neg hq]
      have hm := moreSet_spec d c
      exact ⟨by rw [hm.1], hm.2.1, hm.2.2⟩

theorem faults_of {i : Instr} {s : State} {c : Fin 32} {e : Dev} {cause sub arg : Nat}
    (h : exec i s = done s (e.fault c cause sub arg)) : Faults i s e c cause sub arg := by
  refine ⟨fun ho => ⟨_, h, rfl, ?_⟩, fun ho => ⟨_, h, rfl, ?_⟩⟩
  · have := fault_spec e c cause sub arg ho _ rfl
    exact this
  have hm := faultMore_spec (e.outputStep c) c cause sub arg (e.ch c).pc.toNat (e.ch c).nextBoundary _ rfl
  have hs : ((e.outputStep c).ch c).st = .faulted := by
    simp only [Dev.outputFaults, Chan.faultedIn, Bool.and_eq_true, decide_eq_true_eq] at ho; exact ho.1
  have hf : e.fault c cause sub arg = ((e.outputStep c).faultMore c cause sub arg (e.ch c).pc.toNat (e.ch c).nextBoundary).modCh c
      fun x => { x with seqFault := true } := by
    unfold Dev.fault Dev.seqFaultAt; simp only [ho, if_true]
  have key : ((e.fault c cause sub arg).ch c).st = .faulted ∧ ((e.fault c cause sub arg).ch c).seqFault = true ∧
      (e.fault c cause sub arg).get (F.CH_SEQ_FAULT_MORE c) = 1 ∧ (e.fault c cause sub arg).get64 (R.CH_SEQ_FAULT_B c 0) =
        (if before (e.ch c).nextBoundary ((e.outputStep c).get64 (R.CH_SEQ_FAULT_B c 0))
          then (e.ch c).nextBoundary else (e.outputStep c).get64 (R.CH_SEQ_FAULT_B c 0)) := by
    rw [hf]
    refine ⟨?_, ?_, hm.2.1, hm.2.2⟩
    · rw [Dev.modCh, Dev.setCh_ch_same]; exact hm.1.trans hs
    · rw [Dev.modCh, Dev.setCh_ch_same]
  exact key

theorem eff_fault {i : Instr} {s : State} {c : Fin 32} {w : W64} {eff : Effect} {cause sub arg : Nat}
    (hi : exec i s = done s (s.dev.issue c w eff)) (h : MayIssue s.dev c w) (he : eff s.dev c w = .fault s.dev cause sub arg) :
    Faults i s s.dev c cause sub arg := by
  apply faults_of
  rw [hi, Dev.issue_eff _ h, he]; rfl

theorem row_issue {i : Instr} {c : Fin 32} {w : W64} (s : State) (h : wordOfRow i = some (c, w)) :
    opDefined (opOf w) = true ∧ ∃ eff, exec i s = done s (s.dev.issue c w eff) := by
  cases i <;> simp only [wordOfRow, Option.some.injEq, Prod.mk.injEq, reduceCtorEq] at h <;>
    (obtain ⟨rfl, rfl⟩ := h; exact ⟨by rw [opOf_mkWord]; rfl, _, rfl⟩)

theorem countSat_mem (d : Dev) (f : Fld) : (d.countSat f).mem = d.mem := Dev.set_mem _ _ _

theorem ueFound_cases (d : Dev) (k m j o : Nat) :
    d.ueFound k m j o = d.countSat (F.CL_OASIS_CNT_COUNT k 1) ∨ d.ueFound k m j o = ((((d.countSat (F.CL_OASIS_CNT_COUNT k 1)).set (F.CL_OASIS_ERR_OFFSET k) (o / 64 * 64)).set (F.CL_OASIS_ERR_MEM k) m).set (F.CL_OASIS_ERR_J k) j).set
    (F.CL_OASIS_ERR_VALID k) 1 := by
  by_cases h : (d.countSat (F.CL_OASIS_CNT_COUNT k 1)).flag (F.CL_OASIS_ERR_VALID k) = true
  · left; exact if_pos h
  · right; exact if_neg h

theorem ueFound_mem (d : Dev) (k m j o : Nat) : (d.ueFound k m j o).mem = d.mem := by
  rcases ueFound_cases d k m j o with h | h <;> rw [h]
  · rw [countSat_mem]
  · rw [Dev.set_mem, Dev.set_mem, Dev.set_mem, Dev.set_mem, countSat_mem]

theorem countSat_chans (d : Dev) (f : Fld) : (d.countSat f).chans = d.chans := Dev.set_chans _ _ _

theorem ueFound_chans (d : Dev) (k m j o : Nat) : (d.ueFound k m j o).chans = d.chans := by
  rcases ueFound_cases d k m j o with h | h <;> rw [h]
  · rw [countSat_chans]
  · rw [Dev.set_chans, Dev.set_chans, Dev.set_chans, Dev.set_chans, countSat_chans]

theorem abandonAt_cases (d : Dev) (m : Sram) (a : Nat) : ∃ s : Sirocco, d.abandonAt m a = { d with sirocco := s } ∨
    ∃ k, d.abandonAt m a = ({ d with sirocco := s } : Dev).countSat (F.CL_OASIS_CNT_COUNT k 3) := by
  unfold Dev.abandonAt
  split
  · exact ⟨d.sirocco, .inl rfl⟩
  · rename_i e i _
    by_cases h : ((d.testing e).any fun t => t.idx = i) = true
    · rw [if_pos h]
      by_cases he : e < 8
      · exact ⟨_, .inr ⟨e, if_pos he⟩⟩
      · exact ⟨_, .inl (if_neg he)⟩
    · rw [if_neg h]; exact ⟨d.sirocco, .inl rfl⟩

theorem abandonAt_mem (d : Dev) (m : Sram) (a : Nat) : (d.abandonAt m a).mem = d.mem := by
  obtain ⟨s, h | ⟨k, h⟩⟩ := abandonAt_cases d m a <;> rw [h]
  rw [countSat_mem]

theorem abandonAt_chans (d : Dev) (m : Sram) (a : Nat) : (d.abandonAt m a).chans = d.chans := by
  obtain ⟨s, h | ⟨k, h⟩⟩ := abandonAt_cases d m a <;> rw [h]
  rw [countSat_chans]

theorem touchSeg_cases (d : Dev) (k o : Nat) : ∃ e, e = d.abandonAt .segTable (segAt k (o / 8 * 8)) ∧ (d.touchSeg k o = e ∨
   d.touchSeg k o = ({ e with mem := { e.mem with segtab := e.mem.segtab.markPoison (segAt k (o / 8 * 8)) } } : Dev).ueFound k 1 0 o) := by
  refine ⟨_, rfl, ?_⟩
  by_cases h : (d.abandonAt .segTable (segAt k (o / 8 * 8))).mem.segtab.ue.contains (segAt k (o / 8 * 8)) = true
  · right; exact if_pos h
  · left; exact if_neg h

theorem eff_ends {i : Instr} {s : State} {c : Fin 32} {w : W64} {eff : Effect} {e : Dev} {y : Chan} {pc : BitVec 16}
    (hi : exec i s = done s (s.dev.issue c w eff)) (h : MayIssue s.dev c w)
    (he : eff s.dev c w = .done (e.setCh c y) pc) (hb : y.breakReq = (s.dev.ch c).breakReq) (hs : y.stepping = (s.dev.ch c).stepping) (hp : pc ≠ 32768) :
    Ends i s fun t => Issued e t c (y.passed pc) := by
  refine ⟨_, hi, rfl, Issued.follow ?_⟩
  rw [Dev.issue_eff eff h, he]
  exact Dev.issued_complete (by rw [hb]; exact h.2.1) (by rw [hs]; exact h.2.2.1) hp

theorem touchSeg_ch (d : Dev) (k o : Nat) : (d.touchSeg k o).chans = d.chans := by
  obtain ⟨e, he, h | h⟩ := touchSeg_cases d k o <;> rw [h]
  · rw [he, abandonAt_chans]
  · rw [ueFound_chans]; show e.chans = _; rw [he, abandonAt_chans]

theorem touchSeg_cells (d : Dev) (k o : Nat) : (d.touchSeg k o).mem.segtab.cells = d.mem.segtab.cells := by
  obtain ⟨e, he, h | h⟩ := touchSeg_cases d k o <;> rw [h]
  · rw [he, abandonAt_mem]
  · rw [ueFound_mem]; show e.mem.segtab.cells = _; rw [he, abandonAt_mem]

theorem bytes_cells (m n : Store) (h : m.cells = n.cells) (a k : Nat) : m.bytes a k = n.bytes a k := by
  induction k generalizing a with
  | zero => rfl
  | succ k ih => simp [Store.bytes, Store.byte, h, ih]

theorem descAt_touch (d e : Dev) (h : e.mem.segtab.cells = d.mem.segtab.cells) (k i : Nat) : e.descAt k i = d.descAt k i := by
  simp only [Dev.descAt, Store.num, bytes_cells _ _ h]

theorem touchSeg_blk (d : Dev) (c : Fin 32) (k o : Nat) (hk : k < 8) : (d.touchSeg k o).blockTicks c = d.blockTicks c := by
  have key : ∀ (e : Dev) (f : Fld) v, f.addr ≠ R.TELEM_SW_RATE → (e.set f v).blockTicks c = e.blockTicks c := by
    intro e f v hf
    simp only [Dev.blockTicks, Dev.rate]
    rw [Dev.get_set_reg]
    exact fun h => hf h.symm
  have ne1 : ∀ k m, R.CL_OASIS_CNT k m ≠ R.TELEM_SW_RATE := by intro k m; simp only [R.CL_OASIS_CNT, R.TELEM_SW_RATE]; omega
  have ne2 : R.CL_OASIS_ERR k ≠ R.TELEM_SW_RATE := by simp only [R.CL_OASIS_ERR, R.TELEM_SW_RATE]; omega
  have ab : (d.abandonAt .segTable (segAt k (o / 8 * 8))).blockTicks c = d.blockTicks c := by
    obtain ⟨s, h | ⟨j, h⟩⟩ := abandonAt_cases d .segTable (segAt k (o / 8 * 8)) <;> rw [h]
    · rfl
    · rw [Dev.countSat, key _ _ _ (ne1 j 3)]; rfl
  obtain ⟨e, he, h | h⟩ := touchSeg_cases d k o <;> rw [h]
  · rw [he, ab]
  · rw [← ab, ← he]
    rcases ueFound_cases ({ e with mem := { e.mem with segtab := e.mem.segtab.markPoison (segAt k (o / 8 * 8)) } } : Dev) k 1 0 o with h | h <;> rw [h]
    · rw [Dev.countSat, key _ _ _ (ne1 k 1)]; rfl
    · rw [key _ _ _ ne2, key _ _ _ ne2, key _ _ _ ne2, key _ _ _ ne2, Dev.countSat, key _ _ _ (ne1 k 1)]; rfl

end Sys2Proof.Laws
end

