-- ==== Sys2Proof/Laws/Actions.lean ====
section
/-! SUPPORT. Placed actions, decision windows, signals and ring instructions. -/

set_option Elab.async false

namespace Sys2Proof.Laws

open Sys2Proof.Machine Sys2Proof.Claims

theorem place_eq (d : Dev) (c : Fin 32) (a : Act) : d.place c a = d.setCh c (placed (d.ch c) a) := rfl

theorem slotEff (act : SlotSel → BitVec 48 → Act) (s : State) (c : Fin 32) (a b : BitVec 4) (y : BitVec 48) (l : W32)
   (hl : l = (if y.getLsbD 8 then (s.dev.ch c).rg a else BitVec.ofNat 32 (bits y 7 0))) :
   slotForm act s.dev c (mkWord 0x72 a b y) = if 256 ≤ l.toNat then .fault s.dev 7 0 l.toNat
     else if 65536 ≤ ((s.dev.ch c).rg (b + 1)).toNat then .fault s.dev 7 1 l.toNat
     else .done (s.dev.setCh c (placed (s.dev.ch c) (act (.slot (l.setWidth 8)) ((((s.dev.ch c).rg (b + 1)).setWidth 16 : BitVec 16) ++ (s.dev.ch c).rg b)))) ((s.dev.ch c).pc + 1) := by
  simp only [slotForm, fA_mkWord, fB_mkWord, xr_mkWord, xb_mkWord]
  by_cases h8 : y.getLsbD 8 = true
  · simp only [h8, if_true] at hl ⊢
    subst hl
    simp only [slotFrom]
    by_cases h1 : 256 ≤ ((s.dev.ch c).rg a).toNat
    · simp only [if_pos h1]
    · simp only [if_neg h1]
      have e : (BitVec.setWidth 8 ((s.dev.ch c).rg a)).toNat = ((s.dev.ch c).rg a).toNat := by
        simp only [BitVec.toNat_setWidth]; omega
      rw [e]
      split
      · rfl
      · simp only [place_eq, Res.next, Dev.setCh_ch_same]; rfl
  · simp only [if_neg h8] at hl ⊢
    subst hl
    have hb : bits y 7 0 < 256 := by simp only [bits]; omega
    have e1 : (BitVec.ofNat 32 (bits y 7 0)).toNat = bits y 7 0 := by simp only [BitVec.toNat_ofNat]; omega
    have e2 : (BitVec.ofNat 8 (bits y 7 0)).toNat = bits y 7 0 := by simp only [BitVec.toNat_ofNat]; omega
    have e3 : (BitVec.setWidth 8 (BitVec.ofNat 32 (bits y 7 0))) = BitVec.ofNat 8 (bits y 7 0) := by
      apply BitVec.eq_of_toNat_eq; simp only [BitVec.toNat_setWidth, e1, e2]; omega
    rw [e1, e2, if_neg (show ¬ 256 ≤ bits y 7 0 by omega), e3]
    split
    · rfl
    · simp only [place_eq, Res.next, Dev.setCh_ch_same]; rfl

theorem waits_of {i : Instr} {s : State} {c : Fin 32} {w : W64} {eff : Effect} {why : Stall}
    (hi : exec i s = done s (s.dev.issue c w eff)) (h : MayIssue s.dev c w)
    (he : eff s.dev c w = .wait s.dev why) : Waits i s c w why := by
  have hh : (s.dev.ch c).held = none := by
    have := h.1; simp only [Chan.canIssue, Bool.and_eq_true, Option.isNone_iff_eq_none] at this; exact this.1.2
  show _ = done s _
  rw [hi, Dev.issue_eff eff h, he]
  simp only [Dev.settleIssue, Dev.modCh, hh]
  rfl

theorem minCode_min (l : List (BitVec 8)) (o : Option (BitVec 8)) :
    (l.foldl minCode o).map BitVec.toNat = ((o.toList ++ l).map BitVec.toNat).min? := by
  induction l generalizing o with
  | nil => cases o <;> rfl
  | cons b bs ih =>
    rw [List.foldl_cons, ih]
    cases o with
    | none => rfl
    | some e =>
      simp only [minCode, Option.toList_some, List.cons_append, List.nil_append, List.map_cons]
      by_cases h : b.toNat < e.toNat
      · simp only [h, if_true, Option.toList_some, List.cons_append, List.nil_append, List.map_cons]
        rw [List.min?_cons', List.min?_cons', List.foldl_cons]
        congr 2; omega
      · simp only [h, if_false, Option.toList_some, List.cons_append, List.nil_append, List.map_cons]
        rw [List.min?_cons', List.min?_cons', List.foldl_cons]
        congr 2; omega

theorem held_none {s : State} {c : Fin 32} {w : W64} (h : MayIssue s.dev c w) : (s.dev.ch c).held = none ∧ (s.dev.ch c).stepping = false := by
  have := h.1; simp only [Chan.canIssue, Bool.and_eq_true, Option.isNone_iff_eq_none] at this; exact ⟨this.1.2, h.2.2.1⟩

theorem lt15b {n : Nat} (h : n ≤ 32767) : BitVec.ofNat 16 n ≠ 32768 := by
  intro h2
  have := congrArg BitVec.toNat h2
  simp at this
  omega

theorem lead_ok (t dt : BitVec 64) (h1 : notAfter t (dt + 4096) = true) (h2 : before t (dt + 160) = false) : notAfter dt t = true := by
  simp only [before, notAfter, decide_eq_true_eq, Bool.and_eq_false_iff, decide_eq_false_iff_not] at *
  bv_omega

theorem set_frame (d : Dev) (f : Fld) (v : Nat) : ∃ r, d.set f v = { d with regs := r } := ⟨_, rfl⟩

theorem set_frame2 (d : Dev) (f g : Fld) (v u : Nat) : ∃ r, (d.set f v).set g u = { d with regs := r } := by
  obtain ⟨r, h⟩ := set_frame d f v
  rw [h]
  exact ⟨_, rfl⟩

theorem evLost_frame (d : Dev) : ∃ r, d.evLost = { d with regs := r } := set_frame2 _ _ _ _ _

theorem queueWord_frame (d : Dev) (p : Port) (fwd : Bool) (w : LinkWord) :
    ∃ r l, d.queueWord p fwd w = { d with regs := r, link := l } := by
  unfold Dev.queueWord
  dsimp only
  split
  · exact ⟨d.regs, _, rfl⟩
  · split
    · obtain ⟨r, hr⟩ := evLost_frame d
      exact ⟨r, d.link, hr⟩
    · exact ⟨d.regs, d.link, rfl⟩

theorem sendWord_frame (d : Dev) (p : Port) (w : LinkWord) : ∃ r l, d.sendWord p w = { d with regs := r, link := l } :=
  queueWord_frame d p false w

theorem sendBoth_frame (d : Dev) (n : Nat) (ty : BitVec 2) (st : Bool) (f : Nat → BitVec 54) :
    ∃ r l, d.sendBoth n ty st f = { d with regs := r, link := l } := by
  have key (q : Prop) [Decidable q] (d : Dev) (p : Port) (w : LinkWord) : ∃ r l, (if q then d else d.sendWord p w) = { d with regs := r, link := l } := by
    split
    · exact ⟨d.regs, d.link, rfl⟩
    · exact sendWord_frame d p w
  unfold Dev.sendBoth
  obtain ⟨r, l, h⟩ := key (d.hopsOn .e = 0) d .e ⟨n, ty, f (d.hopsOn .e), st⟩
  dsimp only
  rw [h]
  obtain ⟨r2, l2, h2⟩ := key (({ d with regs := r, link := l } : Dev).hopsOn .w = 0) { d with regs := r, link := l } .w ⟨n, ty, f (({ d with regs := r, link := l } : Dev).hopsOn .w), st⟩
  exact ⟨r2, l2, h2⟩

theorem leNat_leBytes (n v : Nat) : leNat (leBytes n v) = v % 256 ^ n := by
  induction n generalizing v with
  | zero => simp [leBytes, leNat, Nat.mod_one]
  | succ n ih =>
    rw [show (256 : Nat) ^ (n + 1) = 256 * 256 ^ n by rw [Nat.pow_succ, Nat.mul_comm], Nat.mod_mul]
    simp only [leBytes, leNat, ih, BitVec.toNat_ofNat]

theorem leBytes_length (n v : Nat) : (leBytes n v).length = n := by
  induction n generalizing v with
  | zero => rfl
  | succ n ih => simp [leBytes, ih]

theorem setCtx_cons (d : Dev) (q v : Nat) : (d.setCtx q 0x10 4 v).cons q = BitVec.ofNat 32 v := by
  unfold Dev.cons Dev.ctx Dev.setCtx Store.num
  have := Store.bytes_write d.mem.ctx (32 * q + 0x10) (leBytes 4 v)
  rw [leBytes_length] at this
  dsimp only
  rw [this, leNat_leBytes]
  apply BitVec.eq_of_toNat_eq
  simp

theorem watermark_frame (d : Dev) (q o : Nat) : ∃ m, d.watermark q o = { d with msix := m } := by
  unfold Dev.watermark
  dsimp only
  split <;> split
  · exact ⟨_, rfl⟩
  · exact ⟨d.msix, rfl⟩
  · exact ⟨_, rfl⟩
  · exact ⟨d.msix, rfl⟩

theorem countSat_setCh (d : Dev) (c : Fin 32) (z : Chan) (f : Fld) : (d.setCh c z).countSat f = (d.countSat f).setCh c z := rfl

theorem abandonAt_setCh (d : Dev) (c : Fin 32) (z : Chan) (m : Sram) (a : Nat) :
    (d.setCh c z).abandonAt m a = (d.abandonAt m a).setCh c z := by
  unfold Dev.abandonAt
  cases regionOf m a with
  | none => rfl
  | some p =>
    obtain ⟨e, i⟩ := p
    dsimp only
    by_cases h : ((d.testing e).any fun t => t.idx = i) = true
    · have h2 : (((d.setCh c z).testing e).any fun t => t.idx = i) = true := h
      rw [if_pos h, if_pos h2]
      by_cases he : e < 8
      · rw [if_pos he, if_pos he]
        exact countSat_setCh ({ d with sirocco := d.sirocco.giveUp e i 64 } : Dev) c z _
      · rw [if_neg he, if_neg he]; rfl
    · have h2 : ¬(((d.setCh c z).testing e).any fun t => t.idx = i) = true := h
      rw [if_neg h, if_neg h2]

theorem consume_frame (d : Dev) (q n : Nat) (ha : d.abandonAt .context (32 * q) = d) : ∃ m, d.consume q n = { d with
    mem := { d.mem with ctx := d.mem.ctx.write (32 * q + 0x10) (leBytes 4 ((d.cons q).toNat + n)) }, msix := m } := by
  obtain ⟨m, h⟩ := watermark_frame (d.setCtx q 0x10 4 ((d.cons q).toNat + n)) q (d.occ q)
  refine ⟨m, ?_⟩
  unfold Dev.consume
  dsimp only
  rw [ha]
  exact h

/-- what a completed ring instruction leaves -/
theorem consumed_of {d e : Dev} {c : Fin 32} {q n : Nat} {y : Chan} {m : Msix} {mem : Mems}
    (hmem : mem = { d.mem with ctx := mem.ctx })
    (hcons : ({ d with mem := mem } : Dev).cons q = d.cons q + BitVec.ofNat 32 n)
    (hb : ∀ i, i < 32 * q + 0x10 ∨ 32 * q + 0x14 ≤ i → mem.ctx.byte i = d.mem.ctx.byte i)
    (he : e = ({ d with mem := mem, msix := m } : Dev).setCh c y)
    (h1 : y.breakReq = false) (h2 : y.stepping = false) (h3 : (d.ch c).pc ≠ 32767) (_h4 : y.pc = (d.ch c).pc) (h5 : y.st = (d.ch c).st) :
    Claims.Consumed d (e.complete c ((d.ch c).pc + 1)) c q n ∧ ((e.complete c ((d.ch c).pc + 1)).ch c) = y.passed ((d.ch c).pc + 1) := by
  have := Dev.issued_complete (d := { d with mem := mem, msix := m }) (c := c) (y := y) (pc := (d.ch c).pc + 1) h1 h2 (pcne h3)
  rw [← he] at this
  generalize e.complete c ((d.ch c).pc + 1) = t at *
  obtain ⟨i1, i2, i3, i4, i5, i6, i7⟩ := this
  refine ⟨⟨?_, ?_, ?_, ?_, ?_, ?_, ?_, i3, (by rw [List.append_nil]; exact i4), i6, i7⟩, i1⟩
  · rw [← hcons]; simp only [Dev.cons, Dev.ctx, i5]
  · rw [i5]; exact hb
  · rw [i5]; exact hmem
  · rw [i1]; rfl
  · rw [i1]; rfl
  · rw [i1]; exact h5
  · exact i2

/-- the device after an instruction names its slot -/
theorem nameSlot_eq (d : Dev) (c : Fin 32) (slot : Nat) : ∃ recs active, d.nameSlot c slot = d.setCh c { d.ch c with recs := recs, active := active } := ⟨_, _, rfl⟩

theorem gate_ready {d e : Dev} {c : Fin 32} {slot q need : Nat} {kinds : Nat → Bool} (act : Dev → Nat → Res) (h0 : d.wakeCaravan = e)
    (h1 : slot < 8192) (h2 : e.ringOfSlot c slot = some q) (h3 : kinds (e.ringKind q) = true)
    (h4 : e.probeSlot c slot = e) (h5 : need ≤ e.ready q) :
    ringInstr slot need kinds act d c = act (e.nameSlot c slot) q := by
  simp only [ringInstr, h0, h4, Dev.gate, if_neg (Nat.not_le.2 h1), h2, h3, Bool.not_true, Bool.false_eq_true, if_false, h5, if_true]

theorem withRecord_good {d : Dev} {c : Fin 32} {q : Nat} {r : RecCopy} (act : Dev → RecCopy → Res)
    (h : d.headCopy c q = some r) (hp : r.poison = none) : withRecord d c q act = act d r := by
  simp only [withRecord, h, hp]

theorem copyWords_keeps (data : List Byte) (m i : Nat) (r : BitVec 4) (x : Chan) :
    ∃ g, copyWords data m i r x = { x with g := g } := by
  induction m generalizing i r x with
  | zero => exact ⟨x.g, rfl⟩
  | succ m ih =>
    obtain ⟨g, h⟩ := ih (i + 1) (r + 1) (x.setG r (recWord data (8 + 4 * i)))
    exact ⟨g, h⟩

theorem rg_setG (x : Chan) (r k : BitVec 4) (v : W32) : (x.setG r v).rg k = if k = r then v else x.rg k := by
  simp only [Chan.rg, Chan.setG]
  by_cases h : k = r
  · subst h; simp
  · rw [if_neg h]
    simp only [Fin.getElem_fin]
    rw [Vector.getElem_set_ne]
    intro h2; apply h; exact BitVec.eq_of_toNat_eq h2.symm

theorem copyWords_rg (data : List Byte) (m i : Nat) (a g : BitVec 4) (x : Chan) (h : a.toNat + m ≤ 16) :
    (copyWords data m i a x).rg g = if a.toNat ≤ g.toNat ∧ g.toNat < a.toNat + m then recWord data (8 + 4 * (i + (g.toNat - a.toNat))) else x.rg g := by
  induction m generalizing i a x with
  | zero => rw [if_neg (by omega)]; rfl
  | succ m ih =>
    have hg := g.isLt
    simp only [copyWords]
    by_cases hm : m = 0
    · subst hm
      simp only [copyWords]
      rw [rg_setG]
      by_cases hga : g = a
      · subst hga; rw [if_pos rfl, if_pos (by omega)]; simp
      · rw [if_neg hga, if_neg]
        intro h2; apply hga; apply BitVec.eq_of_toNat_eq; omega
    · have ha : (a + 1).toNat = a.toNat + 1 := by
        have := a.isLt
        simp only [BitVec.toNat_add]; simp; omega
      rw [ih _ _ _ (by omega), ha, rg_setG]
      by_cases hga : g = a
      · subst hga; rw [if_neg (by omega), if_pos rfl, if_pos (by omega)]; simp
      · have hne : g.toNat ≠ a.toNat := fun h2 => hga (BitVec.eq_of_toNat_eq h2)
        rw [if_neg hga]
        by_cases hin : a.toNat + 1 ≤ g.toNat ∧ g.toNat < a.toNat + 1 + m
        · rw [if_pos hin, if_pos (by omega)]; congr 2; omega
        · rw [if_neg hin, if_neg (by omega)]

def memAfter (d : Dev) (q n : Nat) : Mems :=
  { d.mem with ctx := d.mem.ctx.write (32 * q + 0x10) (leBytes 4 ((d.cons q).toNat + n)) }

theorem take_form (d : Dev) (c : Fin 32) (q n : Nat) (z : Chan) (ha : d.abandonAt .context (32 * q) = d) :
    ∃ m recs, (d.setCh c z).takeRecord c q n = ({ d with mem := memAfter d q n, msix := m } : Dev).setCh c { z with recs := recs } := by
  obtain ⟨m, h⟩ := consume_frame (d.setCh c z) q n (by rw [abandonAt_setCh, ha])
  refine ⟨m, z.recs.filter fun r => r.q ≠ q || (r.index - ((d.setCh c z).consume q n).cons q).toNat < 2 ^ 31, ?_⟩
  unfold Dev.takeRecord Dev.dropConsumed
  dsimp only
  rw [h]
  have e : ({ d.setCh c z with mem := memAfter d q n, msix := m } : Dev) = ({ d with mem := memAfter d q n, msix := m } : Dev).setCh c z := rfl
  show Dev.modCh ({ d.setCh c z with mem := memAfter d q n, msix := m } : Dev) c _ = _
  rw [e, Dev.modCh, setCh_setCh, Dev.setCh_ch_same]

theorem memAfter_cons (d : Dev) (q n : Nat) : ({ d with mem := memAfter d q n } : Dev).cons q = d.cons q + BitVec.ofNat 32 n := by
  have := setCtx_cons d q ((d.cons q).toNat + n)
  have e : (d.setCtx q 0x10 4 ((d.cons q).toNat + n)) = { d with mem := memAfter d q n } := rfl
  rw [e] at this
  rw [this]
  apply BitVec.eq_of_toNat_eq; simp

theorem memAfter_byte (d : Dev) (q n : Nat) : ∀ i, i < 32 * q + 0x10 ∨ 32 * q + 0x14 ≤ i → (memAfter d q n).ctx.byte i = d.mem.ctx.byte i := by
  intro i hi
  exact Store.byte_write_outside _ (by rw [leBytes_length]; omega)

theorem consumed_follow {rs : List Nat} {d t : Dev} {c : Fin 32} {q n : Nat} (h : Claims.ConsumedBut rs d t c q n) :
    Claims.ConsumedBut rs d t.follow c q n := by
  obtain ⟨h1, h2, h3, h4, h5, h6, h7, h8, h9, h10, h11⟩ := h
  exact ⟨h1, h2, h3, h4, h5, h6, h7, h8, h9, h10, h11⟩

/-- completion of a ring instruction that consumes -/
theorem ring_done {i : Instr} {s : State} {e : Dev} {c : Fin 32} {w : W64} {eff : Effect} {q n : Nat} {z : Chan}
    (hi : exec i s = done s (s.dev.issue c w eff)) (h : MayIssue s.dev c w) (hc : e.ch c = s.dev.ch c)
    (he : eff s.dev c w = .done ((e.setCh c z).takeRecord c q n) ((e.ch c).pc + 1))
    (h3 : (e.ch c).pc ≠ 32767) (hb : z.breakReq = (e.ch c).breakReq) (hs : z.stepping = (e.ch c).stepping)
    (hp : z.pc = (e.ch c).pc) (hst : z.st = (e.ch c).st) (ha : e.abandonAt .context (32 * q) = e) :
    ∃ t : Dev, exec i s = .next ⟨t, s.pending⟩ ∧ Claims.Consumed e t c q n ∧ ∃ recs, t.ch c = { z with recs := recs }.passed ((e.ch c).pc + 1) := by
  obtain ⟨m, recs, hf⟩ := take_form e c q n z ha
  have := consumed_of (d := e) (e := (e.setCh c z).takeRecord c q n) (c := c) (q := q) (n := n) (y := { z with recs := recs }) (m := m)
    (mem := memAfter e q n) rfl (memAfter_cons _ _ _) (memAfter_byte _ _ _) hf (hb.trans (hc ▸ h.2.1)) (hs.trans (hc ▸ h.2.2.1)) h3 hp hst
  refine ⟨(((e.setCh c z).takeRecord c q n).complete c ((e.ch c).pc + 1)).follow, ?_, consumed_follow this.1, recs, this.2⟩
  rw [hi, Dev.issue_eff eff h, he]; rfl

/-- completion of a ring instruction that does not consume -/
theorem ring_peek {i : Instr} {s : State} {e : Dev} {c : Fin 32} {w : W64} {eff : Effect} {q : Nat} {z : Chan}
    (hi : exec i s = done s (s.dev.issue c w eff)) (h : MayIssue s.dev c w) (hc : e.ch c = s.dev.ch c)
    (he : eff s.dev c w = .done (e.setCh c z) ((e.ch c).pc + 1))
    (h3 : (e.ch c).pc ≠ 32767) (hb : z.breakReq = (e.ch c).breakReq) (hs : z.stepping = (e.ch c).stepping)
    (hp : z.pc = (e.ch c).pc) (hst : z.st = (e.ch c).st) :
    ∃ t : Dev, exec i s = .next ⟨t, s.pending⟩ ∧ Claims.Consumed e t c q 0 ∧ t.ch c = z.passed ((e.ch c).pc + 1) := by
  have := consumed_of (d := e) (e := e.setCh c z) (c := c) (q := q) (n := 0) (y := z) (m := e.msix)
    (mem := e.mem) rfl (by simp) (fun _ _ => rfl) rfl (hb.trans (hc ▸ h.2.1)) (hs.trans (hc ▸ h.2.2.1)) h3 hp hst
  refine ⟨((e.setCh c z).complete c ((e.ch c).pc + 1)).follow, ?_, consumed_follow this.1, this.2⟩
  rw [hi, Dev.issue_eff eff h, he]; rfl

theorem bit18 (x : BitVec 48) (p : Bool) : (withBit x 18 p).getLsbD 18 = p := by
  cases p <;> simp [withBit]

theorem gate_illegal {d e : Dev} {c : Fin 32} {slot need : Nat} {kinds : Nat → Bool} (act : Dev → Nat → Res)
    (h0 : d.wakeCaravan = e) (h4 : e.probeSlot c slot = e)
    (h : 8192 ≤ slot ∨ e.ringOfSlot c slot = none ∨ ∃ q, e.ringOfSlot c slot = some q ∧ kinds (e.ringKind q) = false) :
    ringInstr slot need kinds act d c = .fault e 1 4 slot := by
  by_cases h1 : 8192 ≤ slot
  · simp only [ringInstr, h0, h4, Dev.gate, if_pos h1]
  · rcases h with h | h | ⟨q, h, hk⟩
    · omega
    · simp only [ringInstr, h0, h4, Dev.gate, if_neg h1, h]
    · simp only [ringInstr, h0, h4, Dev.gate, if_neg h1, h, hk, Bool.not_false, if_true]

end Sys2Proof.Laws
end

