-- ==== Sys2Proof/Laws/Words.lean ====
section
/-! SUPPORT. Words and the rows they run as; held instructions. -/

set_option Elab.async false

namespace Sys2Proof.Laws

open Sys2Proof.Machine Sys2Proof.Claims

theorem bitOf (x : BitVec 48) (i : Nat) (hi : i < 48) (p : Bool) : (withBit x i p).getLsbD i = p := by
  cases p <;> simp [withBit, hi]

theorem ringSrc_ne (x : BitVec 48) : bits (ringSrc x) 15 14 ≠ 0 := by
  unfold ringSrc
  split
  · intro h
    have : (withBit x 14 true).getLsbD 14 = true := bitOf _ _ (by decide) _
    simp only [BitVec.getLsbD, Nat.testBit_eq_decide_div_mod_eq, decide_eq_true_eq] at this
    simp only [bits] at h
    omega
  · assumption

theorem attempt_congr {d : Dev} {c : Fin 32} {w : W64} {e f : Effect} (h : ∀ d, e d c w = f d c w) : d.attempt c w e = d.attempt c w f := by
  unfold Dev.attempt
  simp only [h]

theorem issueLate_congr {d : Dev} {c : Fin 32} {w : W64} {e f : Effect} (h : ∀ d, e d c w = f d c w) :
    d.issueLate c w e = d.issueLate c w f := by
  unfold Dev.issueLate
  rw [attempt_congr h]

theorem issue_congr {d : Dev} {c : Fin 32} {w : W64} {e f : Effect} (h : ∀ d, e d c w = f d c w) : d.issue c w e = d.issue c w f := by
  unfold Dev.issue
  rw [attempt_congr h, issueLate_congr h]

theorem row_eff {i : Instr} {c : Fin 32} {w : W64} (s : State) (h : wordOfRow i = some (c, w)) :
    ∃ eff : Effect, exec i s = done s (s.dev.issue c w eff) ∧ ∀ d, eff d c w = effectOf d c w := by
  cases i <;> simp only [wordOfRow, Option.some.injEq, Prod.mk.injEq, reduceCtorEq] at h <;>
    (obtain ⟨rfl, rfl⟩ := h; refine ⟨_, rfl, fun d => ?_⟩; unfold effectOf; rw [opOf_mkWord])
  case playgRing =>
    change _ = effPlayg d _ _
    simp only [effPlaygRing, effPlayg, xr_mkWord, fB_mkWord, if_neg (ringSrc_ne _)]
  case sig =>
    change _ = effSig d _ _
    simp only [effSig, xb_mkWord, bitOf _ 8 (by decide), Bool.false_eq_true, if_false]
  case sigArray =>
    change _ = effSig d _ _
    simp only [effSig, xb_mkWord, bitOf _ 8 (by decide), if_true]
  case setfSlot =>
    change _ = effSlotForm d _ _
    simp only [effSlotForm, xb_mkWord, bitOf _ 9 (by decide), Bool.false_eq_true, if_false]
  case setfpSlot =>
    change _ = effSlotForm d _ _
    simp only [effSlotForm, xb_mkWord, bitOf _ 9 (by decide), if_true]
  case pop =>
    change _ = effPopAny d _ _
    simp only [effPopAny, xb_mkWord, bitOf _ 18 (by decide), Bool.false_eq_true, if_false]
  case popLedger =>
    change _ = effPopAny d _ _
    simp only [effPopAny, xb_mkWord, bitOf _ 18 (by decide), if_true]
  case irq =>
    change _ = effIrq d _ _
    simp only [effIrq, xb_mkWord, bitOf _ 0 (by decide), Bool.false_eq_true, if_false]
  case irqAt =>
    change _ = effIrq d _ _
    simp only [effIrq, xb_mkWord, bitOf _ 0 (by decide), if_true]
  all_goals rfl

theorem retry_eq {d : Dev} {c : Fin 32} {w : W64} {why : Stall} (h : (d.ch c).held = some w) (hs : (d.ch c).stall = why)
    (hq : (d.ch c).quiet = false)
    (hp : CleanFetch d c) (h1 : opDefined (opOf w) = true) (h2 : encOk w = true)
    (hc : (scheduling w (tickCount (d.ch c) w) = true → d.aheadTooFar c = false) ∧ (places w (tickCount (d.ch c) w) = true → (d.ch c).queue.length < 64)) :
    d.retry c why effectOf = d.settleIssue c w (effectOf d c w) := by
  unfold Dev.retry
  simp only [h, hs, hq, ne_eq, not_true, if_false, Bool.not_false, if_true]
  unfold Dev.attempt
  simp only [hp.2, hp.1]
  have e5 : (decide ((d.ch c).st = .run) && scheduling w (tickCount (d.ch c) w) && d.aheadTooFar c) = false := by
    cases e : scheduling w (tickCount (d.ch c) w) with
    | false => simp
    | true => simp [hc.1 e]
  have e6 : (places w (tickCount (d.ch c) w) && decide (64 ≤ (d.ch c).queue.length)) = false := by
    cases e : places w (tickCount (d.ch c) w) with
    | false => simp
    | true => simp only [Bool.true_and, decide_eq_false_iff_not]; exact Nat.not_le.2 (hc.2 e)
  rw [e5, e6]
  simp [h1, h2]

theorem retry_other {d : Dev} {c : Fin 32} {w : W64} {why : Stall} (h : (d.ch c).held = some w) (hs : (d.ch c).stall ≠ why) :
    d.retry c why effectOf = d := by
  unfold Dev.retry
  simp only [h]
  exact if_pos hs

end Sys2Proof.Laws
end

