-- ==== Sys2Proof/Laws/Boundaries.lean ====
section
/-! SUPPORT. Ticks, dispatch, commits and ends of runs. -/

set_option Elab.async false

namespace Sys2Proof.Laws

open Sys2Proof.Machine Sys2Proof.Claims

theorem faultsAt_of {i : Instr} {s : State} {c : Fin 32} {e : Dev} {cause sub arg : Nat} {b : Tick}
    (h : exec i s = done s (e.faultAt c cause sub arg (e.ch c).pc.toNat b)) : FaultsAt i s e c cause sub arg b (e.ch c).noIssue := by
  refine ⟨_, h, rfl, ?_⟩
  have := faultAt_spec e c cause sub arg (e.ch c).pc.toNat b _ rfl
  exact this

theorem setSlot_same (x : Chan) (l : BitVec 8) (v : Slot) : (x.setSlot l v).slot l = v := by
  simp [Chan.setSlot, Chan.slot]

theorem setSlot_ne (x : Chan) (l k : BitVec 8) (v : Slot) (h : k ≠ l) : (x.setSlot l v).slot k = x.slot k := by
  simp only [Chan.setSlot, Chan.slot]
  exact Tab.get_put_ne _ _ _ (fun h2 => h (BitVec.eq_of_toNat_eq h2))

theorem slotBecomes_of {i : Instr} {s : State} {c : Fin 32} {y : Chan} {l : BitVec 8} {v : Slot}
    (h : exec i s = done s (s.dev.setCh c (y.setSlot l v))) : Claims.SlotBecomes i s c y l v := by
  refine ⟨_, h, rfl, rfl, fun e he => Dev.setCh_ch_ne _ _ _ he, ?_⟩
  have : ((s.dev.setCh c (y.setSlot l v)).follow).ch c = y.setSlot l v := Dev.setCh_ch_same _ _ _
  rw [this]
  exact ⟨rfl, setSlot_same _ _ _, fun k hk => setSlot_ne _ _ _ _ hk⟩

theorem take_one {s : State} {c : Fin 32} {a : Act} {rest : List TAct} {t0 : Tick}
    (h : (s.dev.ch c).dispatched = ⟨t0, a⟩ :: rest) (h1 : notAfter t0 s.dev.ev.dt = true)
    (h2 : ∀ b ∈ rest, notAfter b.tick s.dev.ev.dt = false) :
    s.dev.takeEffect c = (s.dev.setCh c (({ s.dev.ch c with dispatched := rest } : Chan).applyAct t0 a)).outerAct c ⟨t0, a⟩ := by
  have e1 : rest.filter (fun a => notAfter a.tick s.dev.ev.dt) = [] := by
    rw [List.filter_eq_nil_iff]; intro b hb; simp [h2 b hb]
  have e2 : rest.filter (fun a => !notAfter a.tick s.dev.ev.dt) = rest := by
    rw [List.filter_eq_self]; intro b hb; simp [h2 b hb]
  simp only [Dev.takeEffect, Chan.appliedTo, h, List.filter_cons, h1, e1, e2, if_true, Bool.not_true, Bool.false_eq_true, if_false, List.foldl_cons, List.foldl_nil]

theorem phase_at (v : Slot) : v.phase v.t0 = v.phi := by
  simp [Slot.phase]

theorem disp {s : State} {c : Fin 32} {a : Act} {rest : List TAct} {t0 : Tick}
    (h : (s.dev.ch c).queue = ⟨t0, a⟩ :: rest) (h1 : notAfter (t0 - 31) s.dev.ev.dt = true) (e : Dev)
    (he : e = match a with
      | .play src pid => ((s.dev.setCh c { s.dev.ch c with queue := rest }).startPlay c t0 src pid).panicCheck c
      | .playn n => ((s.dev.setCh c { s.dev.ch c with queue := rest }).startSpan c t0 n .osc).panicCheck c
      | .hold n => ((s.dev.setCh c { s.dev.ch c with queue := rest }).startSpan c t0 n .hold).panicCheck c
      | .park n => ((s.dev.setCh c { s.dev.ch c with queue := rest }).startSpan c t0 n .park).panicCheck c
      | .calw n =>
        if n.toNat < 48000 then (s.dev.setCh c { s.dev.ch c with queue := rest }).countSat (F.CH_CAL_CNT_HI c 1)
        else if (s.dev.setCh c { s.dev.ch c with queue := rest }).flag (F.CH_CAL_STATUS_DUE c) then (s.dev.setCh c { s.dev.ch c with queue := rest }).modCh c fun y => { y with dispatched := y.dispatched ++ [⟨t0, a⟩] }
        else (s.dev.setCh c { s.dev.ch c with queue := rest })
      | _ => (s.dev.setCh c { s.dev.ch c with queue := rest }).modCh c fun y => { y with dispatched := y.dispatched ++ [⟨t0, a⟩] }) :
    exec (.actionDispatch c) s = done s e := by
  show done s (s.dev.dispatch c) = _
  subst he
  unfold Dev.dispatch
  simp only [h, h1, if_true]
  cases a <;> rfl

theorem flag_setCh (d : Dev) (c : Fin 32) (x : Chan) (f : Fld) : (d.setCh c x).flag f = d.flag f := rfl

theorem get_setCh (d : Dev) (c : Fin 32) (x : Chan) (f : Fld) : (d.setCh c x).get f = d.get f := rfl

theorem cutPlay_blk (d : Dev) (c : Fin 32) : (d.cutPlay c).blockTicks c = d.blockTicks c := by
  unfold Dev.cutPlay
  split
  · rfl
  · rfl

theorem fixFields_setCh (d : Dev) (c e : Fin 32) (x : Chan) (s : Tick) (b : Bool) :
    (d.setCh c x).fixFields e s b = (d.fixFields e s b).setCh c x := rfl

theorem span_eq (d : Dev) (c : Fin 32) (t0 : Tick) (n : W32) (k : CurKind) (b : BlkKind) (h : before t0 (t0 + n.setWidth 64) = true)
    (hk : (k = .osc ∧ b = .osc) ∨ (k = .hold ∧ b = .hold) ∨ (k = .park ∧ b = .park)) :
    d.startSpan c t0 n k = ((d.cutPlay c).fixFields c t0 true).setCh c
        { ({ (d.cutPlay c).ch c with cur := ⟨k, t0, t0 + n.setWidth 64⟩ } : Chan).cutHolds t0 with
          blks := ((d.cutPlay c).ch c).blks ++ [⟨t0, t0, t0 + n.setWidth 64, b⟩]
          nextS := some (t0 + tk (d.blockTicks c)), committed := true } := by
  unfold Dev.startSpan Dev.commitBlock
  have hb := cutPlay_blk d c
  generalize d.cutPlay c = e at *
  have hb2 : ∀ x, (e.setCh c x).blockTicks c = d.blockTicks c := fun x => by rw [← hb]; rfl
  rcases hk with ⟨rfl, rfl⟩ | ⟨rfl, rfl⟩ | ⟨rfl, rfl⟩ <;>
  · simp only [Dev.modCh, Dev.setCh_ch_same, h, if_true, Dev.pushBlock, fixFields_setCh, setCh_setCh, hb2, ne_eq, reduceCtorEq,
      not_false_eq_true, decide_true, Bool.and_self, Bool.true_or]

theorem begin_fault {d e : Dev} {c : Fin 32} {t : Tick} {pid n : Nat} {x : Desc} {arg : W32} {tab : Option Nat} (he : e = d.probeStream c x tab)
    (h : e.segCheck c x = some n) (hf : (e.ch c).faultedIn e.ev.dt = false) :
    d.beginPlay c t pid x arg tab = e.faultAt c 4 n arg.toNat (e.ch c).pc.toNat t := by
  have ho : e.outFault c 4 n arg.toNat t = e.faultAt c 4 n arg.toNat (e.ch c).pc.toNat t := by
    unfold Dev.outFault; rw [hf]; rfl
  rw [← ho]
  unfold Dev.beginPlay
  simp only [← he, h]

theorem touchOasis_none (d : Dev) (k o : Nat) (h1 : d.mem.oasis.ue = []) (h2 : d.mem.oasis.ce = []) :
    d.touchOasis k o = d.abandonAt .oasis (oasisAt k (o / 64 * 64)) := by
  have e := abandonAt_mem d .oasis (oasisAt k (o / 64 * 64))
  unfold Dev.touchOasis
  dsimp only
  rw [e, h1, h2, if_neg (by simp), if_neg (by simp)]

theorem foldl_id {α β : Type} (f : β → α → β) (b : β) (l : List α) (h : ∀ a, f b a = b) : l.foldl f b = b := by
  induction l with
  | nil => rfl
  | cons a l ih => rw [List.foldl_cons, h, ih]

theorem emit_frame (d : Dev) (m n : Nat) (b : List Byte) : ∃ r, d.emitStatus m n b = { d with rings := r } := emitStatus_regs d m n b

/-- chan at the end of a run -/
def endChan (x : Chan) (again : Bool) : Chan :=
  { x with
      held := none, stall := .none, ringWait := 0, stepping := false, breakReq := false, goReq := again, st := .idle
      queue := [], dispatched := [], stopB := none, parkAt := none, faultB := none, holds := [], cur := ⟨.park, 0, 0⟩, nextS := none
      blks := [], fetches := [], stage := [], panic := false, recs := [], store := [] }

def endBank (d : Dev) (c : Fin 32) (code abrt : Nat) (again : Bool) : Dev :=
  (((d.set (F.CH_SEQ_STATUS_CODE c) code).set (F.CH_SEQ_STATUS_ABRT c) abrt).set (F.CH_SEQ_IRQ_STATUS_DONE c) 1).set ⟨R.CH_SEQ_CTRL c, 0, 6⟩ (bit again)

theorem pend_kept (d : Dev) (c : Fin 32) (code abrt : Nat) : (((d.set (F.CH_SEQ_STATUS_CODE c) code).set (F.CH_SEQ_STATUS_ABRT c) abrt).set (F.CH_SEQ_IRQ_STATUS_DONE c) 1).get (F.CH_SEQ_CTRL_PENDING c) = d.get (F.CH_SEQ_CTRL_PENDING c) := by
  rw [Dev.get_set_reg _ _ (by simp only [R.CH_SEQ_CTRL, R.CH_SEQ_IRQ_STATUS]; omega), Dev.get_set_reg _ _ (by simp only [R.CH_SEQ_CTRL, R.CH_SEQ_STATUS]; omega), Dev.get_set_reg _ _ (by simp only [R.CH_SEQ_CTRL, R.CH_SEQ_STATUS]; omega)]

theorem endRun_eq (d : Dev) (c : Fin 32) (code abrt : Nat) (h4 : code ≠ 4) (again : Bool) (e : Dev) (he : e = d.takeEffect c)
    (ha : again = (code ≠ 3 && code ≠ 4 && e.flag (F.CH_SEQ_CTRL_PENDING c))) :
    ∃ r, d.endRun c code abrt = { (endBank e c code abrt again).setCh c (endChan (e.ch c) again) with rings := r } := by
  unfold Dev.endRun Dev.completeRun
  rw [← he]
  dsimp only
  rw [if_neg h4]
  have hp : ∀ x, (((((e.setCh c x).set (F.CH_SEQ_STATUS_CODE c) code).set (F.CH_SEQ_STATUS_ABRT c) abrt).set (F.CH_SEQ_IRQ_STATUS_DONE c) 1).flag (F.CH_SEQ_CTRL_PENDING c)) = e.flag (F.CH_SEQ_CTRL_PENDING c) := by
    intro x; unfold Dev.flag; rw [pend_kept]; rfl
  simp only [Dev.modCh, hp, ← ha]
  obtain ⟨r, hr⟩ := emit_frame ((endBank e c code abrt again).setCh c (endChan (e.ch c) again)) 0 c.val _
  refine ⟨r, ?_⟩
  rw [← hr]
  simp only [set_setCh, Dev.setCh_ch_same, setCh_setCh]
  rfl

theorem runEnds_of {i : Instr} {s : State} {c : Fin 32} {code abrt : Nat} {again : Bool} {e : Dev} (he : e = s.dev.takeEffect c) (h4 : code ≠ 4)
    (hc : code < 16) (hab : abrt < 4) (ha : again = (code ≠ 3 && code ≠ 4 && e.flag (F.CH_SEQ_CTRL_PENDING c)))
    (h : exec i s = done s (s.dev.endRun c code abrt)) : Claims.RunEnds i s e c code abrt again (Claims.ended (e.ch c)) := by
  obtain ⟨r, hr⟩ := endRun_eq s.dev c code abrt h4 again e he ha
  rw [hr] at h
  refine ⟨_, h, rfl, ?_⟩
  generalize ht : Dev.follow _ = t
  have hregs : t.regs = (endBank e c code abrt again).regs := by rw [← ht]; exact Dev.setCh_regs (endBank e c code abrt again) c (endChan (e.ch c) again)
  have hrd : ∀ a, t.rd a = (endBank e c code abrt again).rd a := fun a => by unfold Dev.rd; rw [hregs]
  have hg : ∀ f, t.get f = (endBank e c code abrt again).get f := fun f => by simp only [Dev.get, hrd]
  have hchans : t.chans = ((endBank e c code abrt again).setCh c (endChan (e.ch c) again)).chans := by rw [← ht]; exact Dev.follow_chans _
  have hch : ∀ k, t.ch k = ((endBank e c code abrt again).setCh c (endChan (e.ch c) again)).ch k := fun k => congrArg (fun v => v[k]) hchans
  have hbc : ∀ k, (endBank e c code abrt again).ch k = e.ch k := fun k => by unfold endBank; rfl
  refine ⟨?_, ?_, ?_, ?_, ?_, ?_, ?_, ?_, ?_, ?_⟩
  · rw [hg]; unfold endBank
    rw [Dev.get_set_reg _ _ (by simp only [R.CH_SEQ_CTRL, R.CH_SEQ_STATUS]; omega), Dev.get_set_reg _ _ (by simp only [R.CH_SEQ_IRQ_STATUS, R.CH_SEQ_STATUS]; omega),
      get_set_bits' _ _ (by simp) (by simp), Dev.get_set_same _ (by simp)]
    exact Nat.mod_eq_of_lt hc
  · rw [hg]; unfold endBank
    rw [Dev.get_set_reg _ _ (by simp only [R.CH_SEQ_CTRL, R.CH_SEQ_STATUS]; omega), Dev.get_set_reg _ _ (by simp only [R.CH_SEQ_IRQ_STATUS, R.CH_SEQ_STATUS]; omega),
      Dev.get_set_same _ (by simp)]
    exact Nat.mod_eq_of_lt hab
  · rw [hg]; unfold endBank
    rw [Dev.get_set_reg _ _ (by simp only [R.CH_SEQ_CTRL, R.CH_SEQ_IRQ_STATUS]; omega), Dev.get_set_same _ (by simp)]
    rfl
  · rw [hg]; unfold endBank
    rw [Dev.get_set_same _ (by simp)]
    cases again <;> rfl
  · rw [hch, Dev.setCh_ch_same]; rfl
  · intro k hk; rw [hch, Dev.setCh_ch_ne _ _ _ hk, hbc]
  · intro a ha2
    simp only [List.mem_cons, List.not_mem_nil, or_false, not_or] at ha2
    rw [hrd]; unfold endBank
    rw [Dev.rd_set_ne _ _ ha2.2.2, Dev.rd_set_ne _ _ ha2.2.1, Dev.rd_set_ne _ _ ha2.1, Dev.rd_set_ne _ _ ha2.1]
  · rw [← ht]; simp [endBank]
  · rw [← ht]; simp [endBank]
  · rw [← ht]; simp [endBank, RestSame]

theorem noPark (d e : Dev) (h : d.flag F.DEV_CTRL_PARK_ALL = false) (he : e.rd R.DEV_CTRL = d.rd R.DEV_CTRL) : e.parkAllCheck = e := by
  have h2 : e.flag F.DEV_CTRL_PARK_ALL = false := by
    unfold Dev.flag Dev.get at *; rw [he]; exact h
  exact if_neg (by rw [h2, Bool.false_and]; decide)

theorem endRun_devctrl (d : Dev) (c : Fin 32) (code abrt : Nat) (h4 : code ≠ 4) : (d.endRun c code abrt).rd R.DEV_CTRL = (d.takeEffect c).rd R.DEV_CTRL := by
  obtain ⟨r, hr⟩ := endRun_eq d c code abrt h4 _ _ rfl rfl
  rw [hr]
  show (endBank (d.takeEffect c) c code abrt _).rd R.DEV_CTRL = _
  unfold endBank
  rw [Dev.rd_set_ne _ _ (by simp only [R.CH_SEQ_CTRL, R.DEV_CTRL]; omega), Dev.rd_set_ne _ _ (by simp only [R.CH_SEQ_IRQ_STATUS, R.DEV_CTRL]; omega), Dev.rd_set_ne _ _ (by simp only [R.CH_SEQ_STATUS, R.DEV_CTRL]; omega), Dev.rd_set_ne _ _ (by simp only [R.CH_SEQ_STATUS, R.DEV_CTRL]; omega)]

end Sys2Proof.Laws
end

