-- ==== Sys2Proof/Laws/Runs.lean ====
section
/-! SUPPORT. Starting, stopping and stepping a run. -/

set_option Elab.async false

namespace Sys2Proof.Laws

open Sys2Proof.Machine Sys2Proof.Claims

theorem modCal_ch (d : Dev) (c e : Fin 32) (g) : (d.modCal c g).ch e = d.ch e := rfl

theorem wakeChiplet_chans (d : Dev) (n : Nat) : (d.wakeChiplet n).chans = d.chans := by
  unfold Dev.wakeChiplet
  split
  · rfl
  · dsimp only
    split
    · rfl
    · refine foldl_keeps (fun x : Dev => x.chans = d.chans) _ (fun x c hx => ?_) _ _ rfl
      split
      · exact hx
      · exact hx

theorem completeRun_eq (d : Dev) (c : Fin 32) (code : Nat) (h4 : code ≠ 4) (h3 : code ≠ 3) :
    ∃ r, d.completeRun c code 0 = { (endBank d c code 0 (d.flag (F.CH_SEQ_CTRL_PENDING c))).setCh c { d.ch c with goReq := d.flag (F.CH_SEQ_CTRL_PENDING c) } with rings := r } := by
  unfold Dev.completeRun
  dsimp only
  rw [if_neg h4]
  have hp : ((((d.set (F.CH_SEQ_STATUS_CODE c) code).set (F.CH_SEQ_STATUS_ABRT c) 0).set (F.CH_SEQ_IRQ_STATUS_DONE c) 1).flag (F.CH_SEQ_CTRL_PENDING c)) = d.flag (F.CH_SEQ_CTRL_PENDING c) := by
    unfold Dev.flag; rw [pend_kept]
  have h3' : (decide (code ≠ 3) && decide (code ≠ 4) && d.flag (F.CH_SEQ_CTRL_PENDING c)) = d.flag (F.CH_SEQ_CTRL_PENDING c) := by
    simp [h3, h4]
  simp only [Dev.modCh, hp, h3']
  obtain ⟨r, hr⟩ := emit_frame ((endBank d c code 0 (d.flag (F.CH_SEQ_CTRL_PENDING c))).setCh c { d.ch c with goReq := d.flag (F.CH_SEQ_CTRL_PENDING c) }) 0 c.val _
  refine ⟨r, ?_⟩
  rw [← hr]
  simp only [Dev.set_ch]
  rfl

theorem goEnds_eq (d : Dev) (c : Fin 32) (code : Nat) (h4 : code ≠ 4) (h3 : code ≠ 3) :
    ∃ r, d.goEnds c code = { (endBank d c code 0 (d.flag (F.CH_SEQ_CTRL_PENDING c))).setCh c { d.ch c with goReq := d.flag (F.CH_SEQ_CTRL_PENDING c) } with rings := r } := by
  unfold Dev.goEnds
  obtain ⟨r, hr⟩ := completeRun_eq (d.modCh c fun x => { x with goReq := false }) c code h4 h3
  refine ⟨r, ?_⟩
  rw [hr]
  simp only [Dev.modCh, Dev.setCh_ch_same]
  congr 1
  have : ∀ x b, endBank (d.setCh c x) c code 0 b = (endBank d c code 0 b).setCh c x := fun x b => by unfold endBank; simp only [set_setCh]
  have e : (d.setCh c { d.ch c with goReq := false }).flag (F.CH_SEQ_CTRL_PENDING c) = d.flag (F.CH_SEQ_CTRL_PENDING c) := rfl
  rw [e, this, setCh_setCh]

theorem completes_of {i : Instr} {s : State} {e : Dev} {c : Fin 32} {code : Nat} (h4 : code ≠ 4) (h3 : code ≠ 3) (hc : code < 16)
    (h : exec i s = done s (e.goEnds c code)) : Claims.Completes i s e c code (e.flag (F.CH_SEQ_CTRL_PENDING c)) := by
  obtain ⟨r, hr⟩ := goEnds_eq e c code h4 h3
  generalize hag : e.flag (F.CH_SEQ_CTRL_PENDING c) = again at hr
  rw [hr] at h
  refine ⟨_, h, rfl, ?_⟩
  generalize ht : Dev.follow _ = t
  have hregs : t.regs = (endBank e c code 0 again).regs := by rw [← ht]; exact Dev.setCh_regs (endBank e c code 0 again) c { e.ch c with goReq := again }
  have hrd : ∀ a, t.rd a = (endBank e c code 0 again).rd a := fun a => by unfold Dev.rd; rw [hregs]
  have hg : ∀ f, t.get f = (endBank e c code 0 again).get f := fun f => by simp only [Dev.get, hrd]
  have hchans : t.chans = ((endBank e c code 0 again).setCh c { e.ch c with goReq := again }).chans := by rw [← ht]; exact Dev.follow_chans _
  have hch : ∀ x, t.ch x = ((endBank e c code 0 again).setCh c { e.ch c with goReq := again }).ch x := fun x => congrArg (fun v => v[x]) hchans
  have hbc : ∀ x, (endBank e c code 0 again).ch x = e.ch x := fun x => by unfold endBank; rfl
  refine ⟨?_, ?_, ?_, ?_, ?_, ?_, ?_, ?_, ?_, ?_⟩
  · rw [hg]; unfold endBank
    rw [Dev.get_set_reg _ _ (by simp only [R.CH_SEQ_CTRL, R.CH_SEQ_STATUS]; omega), Dev.get_set_reg _ _ (by simp only [R.CH_SEQ_IRQ_STATUS, R.CH_SEQ_STATUS]; omega),
      get_set_bits' _ _ (by simp) (by simp), Dev.get_set_same _ (by simp)]
    exact Nat.mod_eq_of_lt hc
  · rw [hg]; unfold endBank
    rw [Dev.get_set_reg _ _ (by simp only [R.CH_SEQ_CTRL, R.CH_SEQ_STATUS]; omega), Dev.get_set_reg _ _ (by simp only [R.CH_SEQ_IRQ_STATUS, R.CH_SEQ_STATUS]; omega),
      Dev.get_set_same _ (by simp)]
    rfl
  · rw [hg]; unfold endBank
    rw [Dev.get_set_reg _ _ (by simp only [R.CH_SEQ_CTRL, R.CH_SEQ_IRQ_STATUS]; omega), Dev.get_set_same _ (by simp)]
    rfl
  · rw [hg]; unfold endBank
    rw [Dev.get_set_same _ (by simp)]
    cases again <;> rfl
  · rw [hch]; exact Dev.setCh_ch_same _ _ _
  · intro x he; rw [hch, Dev.setCh_ch_ne _ _ _ he, hbc]
  · intro a ha2
    simp only [List.mem_cons, List.not_mem_nil, or_false, not_or] at ha2
    rw [hrd]; unfold endBank
    rw [Dev.rd_set_ne _ _ ha2.2.2, Dev.rd_set_ne _ _ ha2.2.1, Dev.rd_set_ne _ _ ha2.1, Dev.rd_set_ne _ _ ha2.1]
  · rw [← ht]; simp [endBank]
  · rw [← ht]; simp [endBank]
  · rw [← ht]; simp [endBank, RestSame]

def startBank (d : Dev) (c : Fin 32) : Dev :=
  ((d.set (F.CH_SEQ_STATUS_CODE c) 1).set (F.CH_SEQ_STATUS_ABRT c) 0).set (F.CH_SEQ_CTRL_GO c) 1

theorem startBank_entry (d : Dev) (c : Fin 32) : (startBank d c).get (F.CH_SEQ_MODE_ENTRY c) = d.get (F.CH_SEQ_MODE_ENTRY c) := by
  unfold startBank
  rw [Dev.get_set_reg _ _ (by simp only [R.CH_SEQ_CTRL, R.CH_SEQ_MODE]; omega), Dev.get_set_reg _ _ (by simp only [R.CH_SEQ_STATUS, R.CH_SEQ_MODE]; omega), Dev.get_set_reg _ _ (by simp only [R.CH_SEQ_STATUS, R.CH_SEQ_MODE]; omega)]

/-- What a new run leaves of the output of the runs before. -/
theorem leaveOld_eq (x : Chan) (t : Tick) : x.leaveOld t = Claims.leftHolding x t := rfl

/-- The device at the start of a run of channel `c`, but for the channel. -/
def startRest (d : Dev) (c : Fin 32) : Dev :=
  { startBank d c with cals := d.cals.set c { d.cals[c] with
      unusableAt := d.cals[c].unusableAt.map fun u => tmin u (if (d.ch c).holds = [] then d.ev.dt else d.ev.dt + 64) } }

theorem beginRun_eq (d : Dev) (c : Fin 32) : d.beginRun c = (startRest d c).setCh c (Claims.fresh d c) := by
  have := startBank_entry d c
  unfold Dev.beginRun
  unfold startBank at this
  simp only [this]
  unfold Dev.modCh startRest Dev.unusableNow
  have e1 : ((((d.set (F.CH_SEQ_STATUS_CODE c) 1).set (F.CH_SEQ_STATUS_ABRT c) 0).set (F.CH_SEQ_CTRL_GO c) 1).ch c) = d.ch c := rfl
  dsimp only
  rw [e1]
  simp only [List.isEmpty_iff]
  rfl

theorem starts_of {i : Instr} {s : State} {e : Dev} {c : Fin 32} {y : Chan}
    (h : exec i s = done s ((startRest e c).setCh c y)) : Claims.Starts i s e c y := by
  refine ⟨_, h, rfl, ?_⟩
  generalize ht : Dev.follow _ = t
  have hregs : t.regs = (startBank e c).regs := by rw [← ht]; exact Dev.setCh_regs (startRest e c) c y
  have hrd : ∀ a, t.rd a = (startBank e c).rd a := fun a => by unfold Dev.rd; rw [hregs]
  have hg : ∀ f, t.get f = (startBank e c).get f := fun f => by simp only [Dev.get, hrd]
  have hchans : t.chans = ((startRest e c).setCh c y).chans := by rw [← ht]; exact Dev.follow_chans _
  have hch : ∀ x, t.ch x = ((startRest e c).setCh c y).ch x := fun x => congrArg (fun v => v[x]) hchans
  refine ⟨?_, ?_, ?_, ?_, ?_, ?_, ?_, ?_, ?_, ?_⟩
  · rw [hg]; unfold startBank
    rw [Dev.get_set_reg _ _ (by simp only [R.CH_SEQ_CTRL, R.CH_SEQ_STATUS]; omega), get_set_bits' _ _ (by simp) (by simp), Dev.get_set_same _ (by simp)]
    rfl
  · rw [hg]; unfold startBank
    rw [Dev.get_set_reg _ _ (by simp only [R.CH_SEQ_CTRL, R.CH_SEQ_STATUS]; omega), Dev.get_set_same _ (by simp)]
    rfl
  · rw [hg]; unfold startBank
    rw [Dev.get_set_same _ (by simp)]
    rfl
  · rw [hch]; exact Dev.setCh_ch_same _ _ _
  · intro x he; rw [hch, Dev.setCh_ch_ne _ _ _ he]; rfl
  · intro a ha2
    simp only [List.mem_cons, List.not_mem_nil, or_false, not_or] at ha2
    rw [hrd]; unfold startBank
    rw [Dev.rd_set_ne _ _ ha2.2, Dev.rd_set_ne _ _ ha2.1, Dev.rd_set_ne _ _ ha2.1]
  · rw [← ht]; simp [startRest, startBank]
  · rw [← ht]; simp [startRest, startBank]
  · rw [← ht]; rfl
  · rw [← ht]; simp [startRest, startBank, RestSame]

/-- GO when no IDLE calibration run is on the channel and no array forms -/
theorem goNow_eq (d e : Dev) (c : Fin 32) (he : e = (d.wakeCluster (clu c)).wakeChiplet (chiplet c))
    (hr : ∀ n, (e.cal c).run ≠ some (.idle, n)) (hl : e.linkState ≠ 1) {r : Dev} (hgo : e.go c = r)
    (hrc : (r.cal c).run = (e.cal c).run) (hrl : r.linkState = e.linkState) : d.goNow c = r := by
  have hpre : r.preempt c = r := by
    unfold Dev.preempt
    rw [hrc]
    split
    · rename_i n hn; exact absurd hn (hr n)
    · rfl
  unfold Dev.goNow
  dsimp only
  rw [← he, hgo, hpre, ite_self, hrl]
  simp [hl]

theorem goRejected_true {e : Dev} {c : Fin 32} (h : e.stage < 3 ∨ e.get F.CLK_SPLL_STATUS_BYPASS ≠ 0 ∨ 2 ≤ e.get F.TELEM_THERM_LEVEL ∨
        e.get F.TELEM_SW_RATE_BUSY / 2 ^ chiplet c % 2 = 1 ∨ e.board.jtag.toNat ∈ [0, 4, 5, 6, 7] ∨
        e.get (F.CH_SEQ_MODE_START_MODE c) = 3) : e.goRejected c = true := by
  unfold Dev.goRejected Dev.bypassed Dev.flag Board.pinsTaken
  rcases h with h | h | h | h | h | h <;> simp [h]

theorem link_of_rd {a b : Dev} (h : a.rd R.LINK_STATUS = b.rd R.LINK_STATUS) : a.linkState = b.linkState := by
  unfold Dev.linkState Dev.get; rw [h]

theorem startBank_link (e : Dev) (c : Fin 32) (y : Chan) : ((startRest e c).setCh c y).linkState = e.linkState := by
  refine link_of_rd ?_
  have h0 : ((startRest e c).setCh c y).rd R.LINK_STATUS = (startBank e c).rd R.LINK_STATUS := by unfold Dev.rd; rw [Dev.setCh_regs]; rfl
  rw [h0]
  unfold startBank
  rw [Dev.rd_set_ne _ _ (by simp only [R.CH_SEQ_CTRL, R.LINK_STATUS]; omega), Dev.rd_set_ne _ _ (by simp only [R.CH_SEQ_STATUS, R.LINK_STATUS]; omega), Dev.rd_set_ne _ _ (by simp only [R.CH_SEQ_STATUS, R.LINK_STATUS]; omega)]

theorem goEnds_link (e : Dev) (c : Fin 32) (code : Nat) (h4 : code ≠ 4) (h3 : code ≠ 3) : (e.goEnds c code).linkState = e.linkState := by
  obtain ⟨r, hr⟩ := goEnds_eq e c code h4 h3
  rw [hr]
  refine link_of_rd ?_
  show (endBank e c code 0 (e.flag (F.CH_SEQ_CTRL_PENDING c))).rd R.LINK_STATUS = _
  unfold endBank
  rw [Dev.rd_set_ne _ _ (by simp only [R.CH_SEQ_CTRL, R.LINK_STATUS]; omega), Dev.rd_set_ne _ _ (by simp only [R.CH_SEQ_IRQ_STATUS, R.LINK_STATUS]; omega), Dev.rd_set_ne _ _ (by simp only [R.CH_SEQ_STATUS, R.LINK_STATUS]; omega), Dev.rd_set_ne _ _ (by simp only [R.CH_SEQ_STATUS, R.LINK_STATUS]; omega)]

theorem goEnds_cals (e : Dev) (c : Fin 32) (code : Nat) (h4 : code ≠ 4) (h3 : code ≠ 3) : (e.goEnds c code).cals = e.cals := by
  obtain ⟨r, hr⟩ := goEnds_eq e c code h4 h3
  rw [hr]; simp [endBank]

theorem go_idle {d : Dev} {c : Fin 32} (h : (d.ch c).st = .idle) : d.go c =
    if d.goHeld c = true then
      (d.set (F.CH_SEQ_CTRL_GO c) 1).modCh c fun x => { x with goReq := true }
    else d.goIdle c := by
  unfold Dev.go; simp only [h]

theorem becomes_of {i : Instr} {s : State} {d e : Dev} (h : exec i s = done s d) (hd : d = e) : Becomes i s e := by
  subst hd; exact h

theorem rebase_eq (d : Dev) (c : Fin 32) : d.rebase c = (d.set (F.CH_SEQ_STATUS_REBASE c) (d.get (F.CH_SEQ_STATUS_REBASE c) + 1)).setCh c { d.ch c with sc := tmax (d.ch c).sc (d.ev.dt + 64) } := by
  unfold Dev.rebase Dev.countMod Dev.modCh
  rw [Dev.set_ch]

theorem step_eq (d : Dev) (c : Fin 32) (h : ((d.ch c).st = .halted && (d.ch c).stopB.isNone && !(d.ch c).stepping) = true) :
   d.step c = (((d.rebase c).modCh c fun y => { y with stepping := true }).set (F.CH_SEQ_CTRL_STEP c) 1).issueNext c := if_pos h

theorem resume_eq (d e : Dev) (c : Fin 32) (h : ((d.ch c).st = .halted && (d.ch c).stopB.isNone) = true)
   (he : e = ((d.rebase c).modCh c fun x => { x with st := .run, stepping := false }).set (F.CH_SEQ_CTRL_STEP c) 0) (h3 : (e.ch c).pc ≠ 32768) :
   d.resume c = e := by
  subst he
  exact (if_pos h).trans (if_neg h3)

theorem not_quiet {x : Chan} (h : x.st = .armed ∨ x.st = .run ∨ x.st = .drain ∨ (x.st = .halted ∧ x.stepping = true)) : x.hostMayWrite = false := by
  unfold Chan.hostMayWrite Chan.quiet; rcases h with h | h | h | ⟨h, h'⟩ <;> simp [*]

def ledgerDone (d : Dev) (c : Fin 32) : Dev := ((d.set (F.CH_LEDGER_STATUS_CODE c) 2).set (F.CH_LEDGER_STATUS_ABRT c) 0).set (F.CH_LEDGER_STATUS_REASON c) 0

theorem ledgerDone_code (d : Dev) (c : Fin 32) : (ledgerDone d c).get (F.CH_LEDGER_STATUS_CODE c) = 2 := by
  unfold ledgerDone
  rw [get_set_bits' _ _ (by simp) (by simp), get_set_bits' _ _ (by simp) (by simp), Dev.get_set_same _ (by simp)]; rfl

theorem ledgerDone_reason (d : Dev) (c : Fin 32) : (ledgerDone d c).get (F.CH_LEDGER_STATUS_REASON c) = 0 := by
  unfold ledgerDone
  rw [Dev.get_set_same _ (by simp)]; rfl

theorem ledgerDone_rd (d : Dev) (c : Fin 32) {a : Nat} (h : a ≠ R.CH_LEDGER_STATUS c) : (ledgerDone d c).rd a = d.rd a := by
  unfold ledgerDone
  rw [Dev.rd_set_ne _ _ h, Dev.rd_set_ne _ _ h, Dev.rd_set_ne _ _ h]

def ledgerCopied (d : Dev) (c : Fin 32) (f p t u : W64) : Dev :=
  (((d.set64 (R.CH_LEDGER_RD c 0 0) f).set64 (R.CH_LEDGER_RD c 1 0) p).set64 (R.CH_LEDGER_RD c 2 0) t).set64 (R.CH_LEDGER_RD c 3 0) u

theorem get64_ne (d : Dev) {lo a : Nat} (v : W64) (h : a ≠ lo) (h1 : a ≠ lo + 4) (h2 : a + 4 ≠ lo) : (d.set64 lo v).get64 a = d.get64 a := by
  unfold Dev.get64
  rw [Dev.set64_rd_ne _ _ h h1, Dev.set64_rd_ne _ _ h2 (by omega)]

theorem copied_reads (d : Dev) (c : Fin 32) (f p t u : W64) :
    (ledgerCopied d c f p t u).get64 (R.CH_LEDGER_RD c 0 0) = f ∧ (ledgerCopied d c f p t u).get64 (R.CH_LEDGER_RD c 1 0) = p ∧
    (ledgerCopied d c f p t u).get64 (R.CH_LEDGER_RD c 2 0) = t ∧ (ledgerCopied d c f p t u).get64 (R.CH_LEDGER_RD c 3 0) = u := by
  have n : ∀ a b : Nat, a < 4 → b < 4 → a ≠ b → R.CH_LEDGER_RD c a 0 ≠ R.CH_LEDGER_RD c b 0 ∧ R.CH_LEDGER_RD c a 0 ≠ R.CH_LEDGER_RD c b 0 + 4 ∧ R.CH_LEDGER_RD c a 0 + 4 ≠ R.CH_LEDGER_RD c b 0 := by
    intro a b ha hb h; simp only [R.CH_LEDGER_RD]; omega
  have k : ∀ (d : Dev) (a b : Nat) (v : W64), a < 4 → b < 4 → a ≠ b → (d.set64 (R.CH_LEDGER_RD c b 0) v).get64 (R.CH_LEDGER_RD c a 0) = d.get64 (R.CH_LEDGER_RD c a 0) := by
    intro d a b v ha hb h
    exact get64_ne _ _ (n a b ha hb h).1 (n a b ha hb h).2.1 (n a b ha hb h).2.2
  unfold ledgerCopied
  refine ⟨?_, ?_, ?_, ?_⟩
  · rw [k _ 0 3 _ (by decide) (by decide) (by decide), k _ 0 2 _ (by decide) (by decide) (by decide), k _ 0 1 _ (by decide) (by decide) (by decide), Dev.get64_set64]
  · rw [k _ 1 3 _ (by decide) (by decide) (by decide), k _ 1 2 _ (by decide) (by decide) (by decide), Dev.get64_set64]
  · rw [k _ 2 3 _ (by decide) (by decide) (by decide), Dev.get64_set64]
  · rw [Dev.get64_set64]

theorem copied_rd (d : Dev) (c : Fin 32) (f p t u : W64) {a : Nat} (h : a ∉ Claims.ledgerRegs c) : (ledgerCopied d c f p t u).rd a = d.rd a := by
  simp only [Claims.ledgerRegs, List.mem_cons, List.not_mem_nil, or_false, not_or] at h
  obtain ⟨_, _, h1, h2, h3, h4, h5, h6, h7, h8⟩ := h
  unfold ledgerCopied
  have e : ∀ m, R.CH_LEDGER_RD c m 1 = R.CH_LEDGER_RD c m 0 + 4 := fun m => by simp only [R.CH_LEDGER_RD]
  rw [e] at h2 h4 h6 h8
  rw [Dev.set64_rd_ne _ _ h7 h8, Dev.set64_rd_ne _ _ h5 h6, Dev.set64_rd_ne _ _ h3 h4, Dev.set64_rd_ne _ _ h1 h2]

theorem done64 (d : Dev) (c : Fin 32) (m : Nat) (hm : m < 4) : (ledgerDone d c).get64 (R.CH_LEDGER_RD c m 0) = d.get64 (R.CH_LEDGER_RD c m 0) := by
  unfold Dev.get64
  rw [ledgerDone_rd _ _ (by simp only [R.CH_LEDGER_RD, R.CH_LEDGER_STATUS]; omega), ledgerDone_rd _ _ (by simp only [R.CH_LEDGER_RD, R.CH_LEDGER_STATUS]; omega)]

theorem nco_osc (d : Dev) (c : Fin 32) (n : Fin 8) (r : Fin 9) (be : BitVec 4) (v : W32) (h : d.ncoFree c = true) (hr : r = ⟨n.val + 1, by omega⟩) :
    d.ncoWrite c r be v = d.setCh c { d.ch c with osc := (d.ch c).osc.set n ⟨(mergeBytes ((d.ch c).oscWord n) be v).setWidth 8, ((mergeBytes ((d.ch c).oscWord n) be v) >>> 8).setWidth 16⟩ } := by
  subst hr
  exact (if_neg (by rw [h]; decide)).trans (dif_neg (Nat.succ_ne_zero _))

def ledgerCmd (d : Dev) (c : Fin 32) (l : BitVec 8) : Dev := d.set (F.CH_LEDGER_CMD_SLOT c) l.toNat

theorem cmd64 (d : Dev) (c : Fin 32) (l : BitVec 8) {a : Nat} (h : a ≠ R.CH_LEDGER_CMD c) (h2 : a + 4 ≠ R.CH_LEDGER_CMD c) : (ledgerCmd d c l).get64 a = d.get64 a := by
  unfold Dev.get64 ledgerCmd; rw [Dev.rd_set_ne _ _ h2, Dev.rd_set_ne _ _ h]

theorem ledgerWr_eq (d : Dev) (c : Fin 32) (l : BitVec 8) (ar : Bool) : d.ledgerWr c l ar =
    if d.ncoFree c = false then Claims.ledgerRejected (ledgerCmd d c l) c 1
    else if 2 ^ 48 ≤ (d.get64 (R.CH_LEDGER_STG_FTW c 0)).toNat ∨ 2 ^ 48 ≤ (d.get64 (R.CH_LEDGER_STG_PHI c 0)).toNat then Claims.ledgerRejected (ledgerCmd d c l) c 2
    else (if ar then ((ledgerCmd d c l).setCh c ((d.ch c).setSlot l ⟨(d.get64 (R.CH_LEDGER_STG_FTW c 0)).setWidth 48, (d.get64 (R.CH_LEDGER_STG_PHI c 0)).setWidth 48, d.get64 (R.CH_LEDGER_STG_T0 c 0)⟩)).ledgerCopy c l
      else (ledgerCmd d c l).setCh c ((d.ch c).setSlot l ⟨(d.get64 (R.CH_LEDGER_STG_FTW c 0)).setWidth 48, (d.get64 (R.CH_LEDGER_STG_PHI c 0)).setWidth 48, d.get64 (R.CH_LEDGER_STG_T0 c 0)⟩)).ledgerEnds c 2 0 := by
  have e1 := cmd64 d c l (a := R.CH_LEDGER_STG_FTW c 0) (by simp only [R.CH_LEDGER_STG_FTW, R.CH_LEDGER_CMD]; omega) (by simp only [R.CH_LEDGER_STG_FTW, R.CH_LEDGER_CMD]; omega)
  have e2 := cmd64 d c l (a := R.CH_LEDGER_STG_PHI c 0) (by simp only [R.CH_LEDGER_STG_PHI, R.CH_LEDGER_CMD]; omega) (by simp only [R.CH_LEDGER_STG_PHI, R.CH_LEDGER_CMD]; omega)
  have e3 := cmd64 d c l (a := R.CH_LEDGER_STG_T0 c 0) (by simp only [R.CH_LEDGER_STG_T0, R.CH_LEDGER_CMD]; omega) (by simp only [R.CH_LEDGER_STG_T0, R.CH_LEDGER_CMD]; omega)
  unfold ledgerCmd at *
  unfold Dev.ledgerWr
  simp only [e1, e2, e3, Dev.modCh, Dev.set_ch]
  have e4 : (d.set (F.CH_LEDGER_CMD_SLOT c) l.toNat).ncoFree c = d.ncoFree c := rfl
  rw [e4]
  cases d.ncoFree c with
  | false => rfl
  | true =>
    simp only [Bool.not_true, Bool.false_eq_true, if_false, Bool.or_eq_true, decide_eq_true_eq, Bool.true_eq_false]
    rfl

theorem ledgerCopy_eq (d : Dev) (c : Fin 32) (l : BitVec 8) : d.ledgerCopy c l =
    ledgerCopied d c (((d.ch c).slot l).ftw.setWidth 64) (((d.ch c).slot l).phi.setWidth 64) ((d.ch c).slot l).t0 d.ev.dt := rfl

theorem ledger_ends {i : Instr} {s : State} {_e d : Dev} {c : Fin 32} {l : BitVec 8} {f p t u : W64} {copy : Bool} {y : Chan}
    (hd : d = (ledgerCmd s.dev c l).setCh c y)
    (h : exec i s = done s (ledgerDone (if copy then ledgerCopied d c f p t u else d) c)) :
    Ends i s fun t' => t'.ch c = y ∧ OtherChans s.dev t' c ∧ t'.get (F.CH_LEDGER_STATUS_CODE c) = 2 ∧ t'.get (F.CH_LEDGER_STATUS_REASON c) = 0 ∧
      (copy = true → t'.get64 (R.CH_LEDGER_RD c 0 0) = f ∧ t'.get64 (R.CH_LEDGER_RD c 1 0) = p ∧ t'.get64 (R.CH_LEDGER_RD c 2 0) = t ∧ t'.get64 (R.CH_LEDGER_RD c 3 0) = u) ∧
      RegsBut s.dev t' (Claims.ledgerRegs c) ∧ t'.mem = s.dev.mem ∧ t'.reply = s.dev.reply ∧ RestSame s.dev t' := by
  refine ⟨_, h, rfl, ?_⟩
  generalize hX : (if copy then ledgerCopied d c f p t u else d) = X
  dsimp only
  have hf : ∀ g : Fld, (ledgerDone X c).follow.get g = (ledgerDone X c).get g := fun g => rfl
  have hf64 : ∀ a, (ledgerDone X c).follow.get64 a = (ledgerDone X c).get64 a := fun g => rfl
  have hXc : X.chans = d.chans := by rw [← hX]; cases copy <;> rfl
  have hch : ∀ e, (ledgerDone X c).follow.ch e = d.ch e := fun e => by
    have : (ledgerDone X c).follow.chans = d.chans := hXc
    exact congrArg (fun v => v[e]) this
  have hdr : ∀ a, a ≠ R.CH_LEDGER_CMD c → d.rd a = s.dev.rd a := fun a ha => by
    rw [hd]; unfold Dev.rd; rw [Dev.setCh_regs]; exact Dev.rd_set_ne _ _ ha
  refine ⟨?_, ?_, ?_, ?_, ?_, ?_, ?_, ?_, ?_⟩
  · show (ledgerDone X c).follow.ch c = y
    rw [hch, hd, Dev.setCh_ch_same]
  · intro e he
    show (ledgerDone X c).follow.ch e = _
    rw [hch, hd, Dev.setCh_ch_ne _ _ _ he]; rfl
  · exact ledgerDone_code X c
  · exact ledgerDone_reason X c
  · intro hc
    subst hc
    have hX2 : ledgerCopied d c f p t u = X := hX
    have := copied_reads d c f p t u
    rw [hX2] at this
    rw [hf64, hf64, hf64, hf64, done64 X c 0 (by decide), done64 X c 1 (by decide), done64 X c 2 (by decide), done64 X c 3 (by decide)]
    exact this
  · intro a ha
    have ha2 := ha
    simp only [Claims.ledgerRegs, List.mem_cons, not_or] at ha2
    rw [Dev.follow_rd, ledgerDone_rd _ _ ha2.2.1, ← hX]
    cases copy
    · rw [if_neg (by decide)]; exact hdr a ha2.1
    · rw [if_pos rfl, copied_rd d c f p t u ha, hdr a ha2.1]
  · rw [← hX, hd]; cases copy <;> simp [ledgerDone, ledgerCopied, ledgerCmd]
  · rw [← hX, hd]; cases copy <;> simp [ledgerDone, ledgerCopied, ledgerCmd]
  · rw [← hX, hd]; cases copy <;> simp [RestSame, ledgerDone, ledgerCopied, ledgerCmd]

end Sys2Proof.Laws
end

