-- ==== Sys2Proof/Laws/Fields.lean ====
section
/-! SUPPORT. Bits of a register word: fields read and written. -/

set_option Elab.async false

namespace Sys2Proof.Laws

open Sys2Proof.Machine Sys2Proof.Claims

/-! field bits -/

def fits (f : FieldSpec) : Bool := decide (0 < f.len) && decide (f.lo + f.len ≤ 32)

def apart (f g : FieldSpec) : Bool := decide (f.lo + f.len ≤ g.lo) || decide (g.lo + g.len ≤ f.lo)

def okFields (fs : List FieldSpec) : Bool := fs.all fits && decide (fs.Pairwise fun f g => apart f g = true)

def okCards (cs : List Card) : Bool := cs.all fun c => okFields c.writeFields

theorem ok_find {a : Nat} {cs : List Card} {card : Card} {ix : List Nat} (h : findCard a cs = some (card, ix)) : card ∈ cs := by
  induction cs with
  | nil => cases h
  | cons c cs ih =>
    unfold findCard at h
    split at h
    · exact List.mem_cons_of_mem _ (ih h)
    · split at h
      · cases h; exact List.mem_cons_self ..
      · exact List.mem_cons_of_mem _ (ih h)

theorem ok_devA : okCards cardsDevA = true := by decide +kernel

theorem ok_devB : okCards cardsDevB = true := by decide +kernel

theorem ok_clkA : okCards cardsClkA = true := by decide +kernel

theorem ok_clkB : okCards cardsClkB = true := by decide +kernel

theorem ok_aba : okCards cardsAbacus = true := by decide +kernel

theorem ok_evtA : okCards cardsEvtA = true := by decide +kernel

theorem ok_evtB : okCards cardsEvtB = true := by decide +kernel

theorem ok_sec : okCards cardsSec = true := by decide +kernel

theorem ok_mgmt : okCards cardsMgmt = true := by decide +kernel

theorem ok_tel : okCards cardsTelem = true := by decide +kernel

theorem ok_linkA : okCards cardsLinkA = true := by decide +kernel

theorem ok_linkB : okCards cardsLinkB = true := by decide +kernel

theorem ok_hbm : okCards cardsHbm = true := by decide +kernel

theorem ok_memA : okCards cardsMemA = true := by decide +kernel

theorem ok_memB : okCards cardsMemB = true := by decide +kernel

theorem ok_car : okCards cardsCaravan = true := by decide +kernel

theorem ok_clA : okCards cardsClA = true := by decide +kernel

theorem ok_clB : okCards cardsClB = true := by decide +kernel

theorem ok_pat : okCards cardsPat = true := by decide +kernel

theorem ok_chA : okCards cardsChA = true := by decide +kernel

theorem ok_chB : okCards cardsChB = true := by decide +kernel

theorem ok_chC : okCards cardsChC = true := by decide +kernel

theorem ok_chD : okCards cardsChD = true := by decide +kernel

theorem ok_chE : okCards cardsChE = true := by decide +kernel

theorem ok_app {l m : List Card} (h : okCards l = true) (h2 : okCards m = true) : okCards (l ++ m) = true := by
  unfold okCards at *; rw [List.all_append, h, h2]; rfl

theorem ite_ok {p : Prop} [Decidable p] {x y : List Card} (hx : okCards x = true) (hy : okCards y = true) : okCards (if p then x else y) = true := by
  by_cases h : p
  · rw [if_pos h]; exact hx
  · rw [if_neg h]; exact hy

theorem ok_for (a : Nat) : okCards (cardsFor a) = true :=
  ite_ok (ok_app ok_devA ok_devB) <| ite_ok (ok_app ok_clkA ok_clkB) <| ite_ok ok_aba <| ite_ok (ok_app ok_evtA ok_evtB) <|
  ite_ok ok_sec <| ite_ok ok_mgmt <| ite_ok ok_tel <| ite_ok (ok_app ok_linkA ok_linkB) <| ite_ok ok_hbm <|
  ite_ok (ok_app ok_memA ok_memB) <| ite_ok ok_car <| ite_ok (ok_app (ok_app ok_clA ok_clB) ok_pat) <|
  ite_ok (ok_app (ok_app (ok_app (ok_app ok_chA ok_chB) ok_chC) ok_chD) ok_chE) rfl

theorem ok_card {a : Nat} {card : Card} {ix : List Nat} (h : cardAt a = some (card, ix)) : okFields card.writeFields = true :=
  List.all_eq_true.1 (ok_for a) card (ok_find h)

/-! bits of a written word -/

theorem mask_bit {f : Fld} (_h : f.lo + f.len ≤ 32) (i : Nat) (hi : i < 32) : f.mask.getLsbD i = (decide (f.lo ≤ i) && decide (i < f.lo + f.len)) := by
  unfold Fld.mask
  rw [BitVec.getLsbD_ofNat, Nat.mul_comm, Nat.testBit_two_pow_mul]
  simp only [hi, decide_true, Bool.true_and, Nat.testBit_two_pow_sub_one]
  by_cases h1 : f.lo ≤ i
  · simp only [h1, decide_true, Bool.true_and]
    congr 1; apply propext; omega
  · simp [h1]

theorem write_bit {f : Fld} (h : f.lo + f.len ≤ 32) (w : W32) (v i : Nat) (_hi : i < 32) :
    (f.write w v).getLsbD i = if f.lo ≤ i ∧ i < f.lo + f.len then v.testBit (i - f.lo) else w.getLsbD i := by
  have key : (f.write w v).toNat = w.toNat % 2 ^ f.lo + 2 ^ f.lo * (v % 2 ^ f.len + 2 ^ f.len * (w.toNat / 2 ^ (f.lo + f.len))) := by
    rw [Fld.write_toNat h, pow_add]; ring
  rw [← BitVec.testBit_toNat, key]
  have hA : w.toNat % 2 ^ f.lo < 2 ^ f.lo := Nat.mod_lt _ (Nat.two_pow_pos _)
  have hB : v % 2 ^ f.len < 2 ^ f.len := Nat.mod_lt _ (Nat.two_pow_pos _)
  rw [Nat.add_comm, Nat.testBit_two_pow_mul_add _ hA]
  by_cases h1 : i < f.lo
  · rw [if_pos h1, if_neg (by omega), Nat.testBit_mod_two_pow, BitVec.testBit_toNat]; simp [h1]
  · rw [if_neg h1, Nat.add_comm, Nat.testBit_two_pow_mul_add _ hB]
    by_cases h2 : i - f.lo < f.len
    · rw [if_pos h2, if_pos (by omega), Nat.testBit_mod_two_pow]; simp [h2]
    · rw [if_neg h2, if_neg (by omega), Nat.testBit_div_two_pow, ← BitVec.testBit_toNat]
      congr 1; omega

theorem read_congr {f : Fld} {w w' : W32} (h : ∀ i, f.lo ≤ i → i < f.lo + f.len → w.getLsbD i = w'.getLsbD i) : f.read w = f.read w' := by
  unfold Fld.read
  apply Nat.eq_of_testBit_eq
  intro i
  rw [Nat.testBit_mod_two_pow, Nat.testBit_mod_two_pow]
  by_cases hi : i < f.len
  · rw [Nat.testBit_div_two_pow, Nat.testBit_div_two_pow, BitVec.testBit_toNat, BitVec.testBit_toNat, h _ (by omega) (by omega)]
  · simp [hi]

theorem read_bit {f : Fld} (w : W32) (i : Nat) : (f.read w).testBit i = (decide (i < f.len) && w.getLsbD (i + f.lo)) := by
  unfold Fld.read
  rw [Nat.testBit_mod_two_pow, Nat.testBit_div_two_pow, BitVec.testBit_toNat, Nat.add_comm]

theorem mask_and {f g : FieldSpec} {a : Nat} (hf : fits f = true) (hg : fits g = true) (h : apart f g = true) :
    (⟨a, f.lo, f.len⟩ : Fld).mask &&& ~~~(⟨a, g.lo, g.len⟩ : Fld).mask = (⟨a, f.lo, f.len⟩ : Fld).mask := by
  simp only [fits, apart, Bool.and_eq_true, Bool.or_eq_true, decide_eq_true_eq] at hf hg h
  apply BitVec.eq_of_getLsbD_eq
  intro i hi
  rw [BitVec.getLsbD_and, BitVec.getLsbD_not, mask_bit (by exact hf.2) _ hi, mask_bit (by exact hg.2) _ hi]
  dsimp only
  by_cases h1 : f.lo ≤ i ∧ i < f.lo + f.len
  · have : ¬(g.lo ≤ i ∧ i < g.lo + g.len) := by omega
    have h2 : (decide (g.lo ≤ i) && decide (i < g.lo + g.len)) = false := by simp only [Bool.and_eq_false_iff, decide_eq_false_iff_not]; omega
    rw [h2]; simp [hi]
  · have h2 : (decide (f.lo ≤ i) && decide (i < f.lo + f.len)) = false := by simp only [Bool.and_eq_false_iff, decide_eq_false_iff_not]; omega
    rw [h2]; rfl

theorem mask_ne {f : FieldSpec} {a : Nat} (hf : fits f = true) : (⟨a, f.lo, f.len⟩ : Fld).mask ≠ 0 := by
  simp only [fits, Bool.and_eq_true, decide_eq_true_eq] at hf
  intro h
  have := mask_bit (f := ⟨a, f.lo, f.len⟩) hf.2 f.lo (by omega)
  rw [h] at this
  simp at this; omega

/-! one field written -/

structure OnlyReg (a : Nat) (d t : Dev) : Prop where
  regs : ∀ b, b ≠ a → t.rd b = d.rd b
  rest : t = { d with regs := t.regs, pend := t.pend }

theorem OnlyReg.refl (a : Nat) (d : Dev) : OnlyReg a d d := ⟨fun _ _ => rfl, rfl⟩

theorem OnlyReg.trans {a : Nat} {d e t : Dev} (h : OnlyReg a d e) (h2 : OnlyReg a e t) : OnlyReg a d t :=
  ⟨fun b hb => (h2.regs b hb).trans (h.regs b hb), by rw [h2.rest, h.rest]⟩

theorem OnlyReg.wr {a : Nat} (d : Dev) (w : W32) : OnlyReg a d (d.wr a w) := ⟨fun _ hb => Dev.rd_wr_ne _ _ hb, rfl⟩

theorem OnlyReg.hold {a : Nat} (d : Dev) (m v : W32) (ap : Apply) : OnlyReg a d (d.hold a m v ap) := by
  unfold Dev.hold
  by_cases h : m = 0
  · rw [if_pos h]; exact .refl _ _
  · rw [if_neg h]; exact ⟨fun _ _ => rfl, rfl⟩

theorem hold_regs (d : Dev) (a : Nat) (m v : W32) (ap : Apply) : (d.hold a m v ap).regs = d.regs := by
  unfold Dev.hold
  by_cases h : m = 0
  · rw [if_pos h]
  · rw [if_neg h]

/-- the value of field `f` written at `d` -/
def newOf (_d : Dev) (a : Nat) (m v : W32) (f : FieldSpec) (old : Nat) : Nat :=
  (⟨a, f.lo, f.len⟩ : Fld).read (((⟨a, f.lo, f.len⟩ : Fld).write 0 old &&& ~~~m) ||| (v &&& m))

theorem newOf_eq (d : Dev) (a : Nat) (m v : W32) (f : FieldSpec) (hf : fits f = true) (w : W32) :
    newOf d a m v f ((⟨a, f.lo, f.len⟩ : Fld).read w) = (⟨a, f.lo, f.len⟩ : Fld).read ((w &&& ~~~m) ||| (v &&& m)) := by
  simp only [fits, Bool.and_eq_true, decide_eq_true_eq] at hf
  unfold newOf
  apply read_congr
  intro i h1 h2
  dsimp only at h1 h2
  have hi : i < 32 := by omega
  rw [BitVec.getLsbD_or, BitVec.getLsbD_or, BitVec.getLsbD_and, BitVec.getLsbD_and (x := w), write_bit (by exact hf.2) _ _ _ hi, if_pos ⟨h1, h2⟩, read_bit]
  dsimp only
  have : i - f.lo < f.len := by omega
  simp only [this, decide_true, Bool.true_and]
  congr 3; omega

/-- what one field's write does, by cases -/
theorem writeField_cases (d : Dev) (a base : Nat) (ix : List Nat) (m v : W32) (f : FieldSpec) (g : Fld) (hg : g = ⟨a, f.lo, f.len⟩) :
    (d.writeField a base ix m v f = d ∧ (g.mask &&& m = 0 ∨ f.cls = .ro ∨ f.cls = .cmd ∨ f.cls = .w1s ∨ f.cls = .lock ∨
        ((f.cls = .rw ∨ f.cls = .rwh) ∧ ignoredValue base ix f.lo (newOf d a m v f (if f.ap = .imm then d.get g else d.heldValue g)) = true))) ∨
    (g.mask &&& m ≠ 0 ∧ f.cls = .w1c ∧ d.writeField a base ix m v f = d.wr a (d.rd a &&& ~~~(v &&& m &&& g.mask))) ∨
    (g.mask &&& m ≠ 0 ∧ (f.cls = .rw ∨ f.cls = .rwh) ∧ f.ap = .imm ∧ ignoredValue base ix f.lo (newOf d a m v f (d.get g)) = false ∧
      d.writeField a base ix m v f = d.set g (newOf d a m v f (d.get g))) ∨
    (g.mask &&& m ≠ 0 ∧ (f.cls = .rw ∨ f.cls = .rwh) ∧ f.ap ≠ .imm ∧ ignoredValue base ix f.lo (newOf d a m v f (d.heldValue g)) = false ∧
      d.writeField a base ix m v f = d.hold a g.mask (g.write 0 (newOf d a m v f (d.heldValue g))) f.ap) := by
  subst hg
  unfold Dev.writeField
  dsimp only
  by_cases h0 : (⟨a, f.lo, f.len⟩ : Fld).mask &&& m = 0
  · rw [if_pos h0]; exact Or.inl ⟨rfl, Or.inl h0⟩
  · rw [if_neg h0]
    cases hc : f.cls with
    | ro => exact Or.inl ⟨rfl, by simp⟩
    | cmd => exact Or.inl ⟨rfl, by simp⟩
    | w1s => exact Or.inl ⟨rfl, by simp⟩
    | lock => exact Or.inl ⟨rfl, by simp⟩
    | w1c => exact Or.inr (Or.inl ⟨h0, rfl, rfl⟩)
    | rw =>
      by_cases hap : f.ap = .imm
      · simp only [hap, if_true]
        by_cases hig : ignoredValue base ix f.lo (newOf d a m v f (d.get ⟨a, f.lo, f.len⟩)) = true
        · exact Or.inl ⟨if_pos hig, by simp [hig]⟩
        · exact Or.inr (Or.inr (Or.inl ⟨h0, by simp, by first | rfl | trivial, by simpa using hig, if_neg hig⟩))
      · simp only [hap, if_false]
        by_cases hig : ignoredValue base ix f.lo (newOf d a m v f (d.heldValue ⟨a, f.lo, f.len⟩)) = true
        · exact Or.inl ⟨if_pos hig, by simp [hig]⟩
        · exact Or.inr (Or.inr (Or.inr ⟨h0, by simp, by simp [hap], by simpa using hig, if_neg hig⟩))
    | rwh =>
      by_cases hap : f.ap = .imm
      · simp only [hap, if_true]
        by_cases hig : ignoredValue base ix f.lo (newOf d a m v f (d.get ⟨a, f.lo, f.len⟩)) = true
        · exact Or.inl ⟨if_pos hig, by simp [hig]⟩
        · exact Or.inr (Or.inr (Or.inl ⟨h0, by simp, by first | rfl | trivial, by simpa using hig, if_neg hig⟩))
      · simp only [hap, if_false]
        by_cases hig : ignoredValue base ix f.lo (newOf d a m v f (d.heldValue ⟨a, f.lo, f.len⟩)) = true
        · exact Or.inl ⟨if_pos hig, by simp [hig]⟩
        · exact Or.inr (Or.inr (Or.inr ⟨h0, by simp, by simp [hap], by simpa using hig, if_neg hig⟩))

abbrev fldOf (a : Nat) (f : FieldSpec) : Fld := ⟨a, f.lo, f.len⟩

theorem field_only (d : Dev) (a base : Nat) (ix : List Nat) (m v : W32) (f : FieldSpec) : OnlyReg a d (d.writeField a base ix m v f) := by
  rcases writeField_cases d a base ix m v f _ rfl with ⟨h, _⟩ | ⟨_, _, h⟩ | ⟨_, _, _, _, h⟩ | ⟨_, _, _, _, h⟩ <;> rw [h]
  · exact .refl _ _
  · exact .wr _ _
  · exact .wr _ _
  · exact .hold _ _ _ _

theorem field_other (d : Dev) (a base : Nat) (ix : List Nat) (m v : W32) (f g : FieldSpec) (hf : fits f = true) (hg : fits g = true) (h : apart f g = true) :
    ∀ i, g.lo ≤ i → i < g.lo + g.len → ((d.writeField a base ix m v f).rd a).getLsbD i = (d.rd a).getLsbD i := by
  intro i h1 h2
  simp only [fits, apart, Bool.and_eq_true, Bool.or_eq_true, decide_eq_true_eq] at hf hg h
  have hi : i < 32 := by omega
  have hno : ¬(f.lo ≤ i ∧ i < f.lo + f.len) := by omega
  rcases writeField_cases d a base ix m v f _ rfl with ⟨e, _⟩ | ⟨_, _, e⟩ | ⟨_, _, _, _, e⟩ | ⟨_, _, _, _, e⟩ <;> rw [e]
  · rw [Dev.rd_wr_same, BitVec.getLsbD_and, BitVec.getLsbD_not, BitVec.getLsbD_and (x := v &&& m), mask_bit (by exact hf.2) _ hi]
    have : (decide (f.lo ≤ i) && decide (i < f.lo + f.len)) = false := by simp only [Bool.and_eq_false_iff, decide_eq_false_iff_not]; omega
    rw [this]; simp [hi]
  · unfold Dev.set
    rw [Dev.rd_wr_same, write_bit (by exact hf.2) _ _ _ hi, if_neg hno]
  · unfold Dev.rd; rw [hold_regs]

theorem apart_symm {f g : FieldSpec} (h : apart f g = true) : apart g f = true := by
  simp only [apart, Bool.or_eq_true, decide_eq_true_eq] at *; omega

/-- every pending entry is of one of the fields -/
def Held (a : Nat) (l : List FieldSpec) (d : Dev) : Prop := ∀ p ∈ d.pend, p.addr = a ∧ ∃ f ∈ l, fits f = true ∧ p.mask = (fldOf a f).mask

theorem dropBits_apart {a : Nat} {g : FieldSpec} (hg : fits g = true) {ps : List PendW} {l : List FieldSpec}
    (h : ∀ p ∈ ps, p.addr = a ∧ ∃ f ∈ l, fits f = true ∧ p.mask = (fldOf a f).mask) (hl : ∀ f ∈ l, apart f g = true) :
    dropBits a (fldOf a g).mask ps = ps := by
  unfold dropBits
  have e : ps.map (fun p => if p.addr = a && p.due.isNone then { p with mask := p.mask &&& ~~~(fldOf a g).mask } else p) = ps := by
    rw [List.map_congr_left (g := id), List.map_id]
    intro p hp
    obtain ⟨h1, f, hf, hff, hm⟩ := h p hp
    have hm2 : p.mask &&& ~~~(fldOf a g).mask = p.mask := by rw [hm]; exact mask_and hff hg (hl f hf)
    rw [hm2]; exact ite_self _
  rw [e, List.filter_eq_self]
  intro p hp
  obtain ⟨_, f, _, hff, hm⟩ := h p hp
  rw [hm]
  exact decide_eq_true (mask_ne hff)

theorem held_field {a : Nat} {l : List FieldSpec} {d : Dev} (base : Nat) (ix : List Nat) (m v : W32) (f : FieldSpec) (hf : fits f = true)
    (h : Held a l d) (hl : ∀ g ∈ l, apart g f = true) : Held a (f :: l) (d.writeField a base ix m v f) ∧
      ∀ p ∈ d.pend, p ∈ (d.writeField a base ix m v f).pend := by
  have up : ∀ p ∈ d.pend, p.addr = a ∧ ∃ g ∈ f :: l, fits g = true ∧ p.mask = (fldOf a g).mask := by
    intro p hp; obtain ⟨h1, g, hg, h2⟩ := h p hp; exact ⟨h1, g, List.mem_cons_of_mem _ hg, h2⟩
  rcases writeField_cases d a base ix m v f _ rfl with ⟨e, _⟩ | ⟨_, _, e⟩ | ⟨_, _, _, _, e⟩ | ⟨_, _, _, _, e⟩ <;> rw [e]
  · exact ⟨up, fun p hp => hp⟩
  · exact ⟨up, fun p hp => hp⟩
  · exact ⟨up, fun p hp => hp⟩
  · have hd : (d.hold a (fldOf a f).mask ((fldOf a f).write 0 (newOf d a m v f (d.heldValue (fldOf a f)))) f.ap).pend =
        d.pend ++ [⟨a, (fldOf a f).mask, (fldOf a f).write 0 (newOf d a m v f (d.heldValue (fldOf a f))) &&& (fldOf a f).mask, f.ap, d.ev.elapsed, none⟩] := by
      unfold Dev.hold
      rw [if_neg (mask_ne hf)]
      dsimp only
      rw [dropBits_apart hf h hl]
    refine ⟨?_, fun p hp => ?_⟩
    · intro p hp
      rw [hd, List.mem_append, List.mem_singleton] at hp
      rcases hp with hp | rfl
      · exact up p hp
      · exact ⟨rfl, f, List.mem_cons_self .., hf, rfl⟩
    · rw [hd]; exact List.mem_append_left _ hp

/-- a run of fields, all apart from `g` and from one another -/
theorem fields_run (a base : Nat) (ix : List Nat) (m v : W32) (fs : List FieldSpec) : ∀ (l : List FieldSpec) (d : Dev), Held a l d →
    (∀ f ∈ fs, fits f = true) → (fs.Pairwise fun f g => apart f g = true) → (∀ f ∈ fs, ∀ g ∈ l, apart g f = true) →
    ∃ t, fs.foldl (fun d f => d.writeField a base ix m v f) d = t ∧ OnlyReg a d t ∧ Held a (fs.reverse ++ l) t ∧ (∀ p ∈ d.pend, p ∈ t.pend) ∧
      (∀ g, fits g = true → (∀ f ∈ fs, apart f g = true) → ∀ i, g.lo ≤ i → i < g.lo + g.len → (t.rd a).getLsbD i = (d.rd a).getLsbD i) := by
  induction fs with
  | nil => intro l d h _ _ _; exact ⟨d, rfl, .refl _ _, h, fun p hp => hp, fun _ _ _ _ _ _ => rfl⟩
  | cons f fs ih =>
    intro l d h hfit hpw hl
    rw [List.pairwise_cons] at hpw
    have hf := hfit f (List.mem_cons_self ..)
    obtain ⟨h1, h2⟩ := held_field base ix m v f hf h (hl f (List.mem_cons_self ..))
    obtain ⟨t, e, o, ht, hp, hb⟩ := ih (f :: l) _ h1 (fun g hg => hfit g (List.mem_cons_of_mem _ hg)) hpw.2 (by
      intro g hg x hx
      rcases List.mem_cons.1 hx with rfl | hx
      · exact hpw.1 g hg
      · exact hl g (List.mem_cons_of_mem _ hg) x hx)
    refine ⟨t, e, (field_only d a base ix m v f).trans o, ?_, fun p hp2 => hp p (h2 p hp2), ?_⟩
    · intro p hp2
      obtain ⟨k1, g, k2, k3⟩ := ht p hp2
      exact ⟨k1, g, by simp only [List.reverse_cons, List.append_assoc, List.mem_append, List.mem_cons, List.mem_reverse, List.not_mem_nil] at k2 ⊢; tauto, k3⟩
    · intro g hg hap i h3 h4
      rw [hb g hg (fun x hx => hap x (List.mem_cons_of_mem _ hx)) i h3 h4]
      exact field_other d a base ix m v f g hf hg (hap f (List.mem_cons_self ..)) i h3 h4

end Sys2Proof.Laws
end

