-- ==== Sys2Proof/Laws/Access.lean ====
section
/-! SUPPORT. Host accesses of registers and message latches. -/

set_option Elab.async false

namespace Sys2Proof.Laws

open Sys2Proof.Machine Sys2Proof.Claims

theorem own_none (d : Dev) (base : Nat) (ix : List Nat) (be : BitVec 4) (v : W32) (h : base ∉ Claims.ownEffect) : d.ownWrite base ix be v = none := by
  simp only [Claims.ownEffect, List.mem_cons, List.not_mem_nil, or_false, not_or] at h
  unfold Dev.ownWrite
  simp only [h, if_false]

theorem after_none (d : Dev) (a base : Nat) (ix : List Nat) (w : W32) (h : base ∉ Claims.ownEffect) : d.afterWrite a base ix w = d := by
  simp only [Claims.ownEffect, List.mem_cons, List.not_mem_nil, or_false, not_or] at h
  unfold Dev.afterWrite Dev.afterLow Dev.afterMid Dev.afterCl Dev.afterCh
  simp only [h, if_false, decide_false, Bool.or_self, Bool.false_eq_true, ite_self]

theorem fabric_reg {d : Dev} {a : Nat} {be : BitVec 4} {v : W32} {card : Card} {ix : List Nat} (hc : cardAt a = some (card, ix)) (ha : a % 4 = 0)
    (hw : windowOf a = none) (hal : aliasOf a = none) (hr : ¬(0x8000000 ≤ a ∧ a < 0xC000000)) :
    d.fabricWrite a be v = (d.wakeFor a).writeReg card ix a be (byteMask be) v := by
  unfold Dev.fabricWrite
  rw [hw, if_neg (by decide), if_neg (by omega), if_neg (by simpa using hr), hal]
  dsimp only
  unfold Dev.registerDword
  rw [hc]

theorem host_reg {s : State} {a : Nat} {be : BitVec 4} {v : W32} {card : Card} {ix : List Nat} (h : Claims.Reaches s a be card ix) :
    s.dev.hostWrite a be v = (s.dev.wakeFor a).writeReg card ix a be (byteMask be) v := by
  obtain ⟨h1, h2, h3, h4, h5, h6, h7⟩ := h
  unfold Dev.hostWrite
  rw [if_pos (by rw [h1]; simpa using h2), fabric_reg h3 h4 h5 h6 h7]

theorem pendNone {a : Nat} {l : List FieldSpec} {d : Dev} {g : FieldSpec} (hg : fits g = true) (h : Held a l d) (hl : ∀ f ∈ l, apart f g = true) : d.heldValue (fldOf a g) = d.get (fldOf a g) := by
  unfold Dev.heldValue Dev.pendingOf
  have none_ : ∀ fixed : Bool, d.pend.find? (fun p => decide (p.addr = (fldOf a g).addr) && p.mask.getLsbD (fldOf a g).lo && p.due.isSome == fixed) = none := by
    intro fixed
    rw [List.find?_eq_none]
    intro p hp
    obtain ⟨h1, f, hf, hff, hm⟩ := h p hp
    have ha := hl f hf
    simp only [fits, apart, Bool.and_eq_true, Bool.or_eq_true, decide_eq_true_eq] at hg hff ha
    rw [hm, mask_bit (by exact hff.2) _ (by dsimp only [fldOf]; omega)]
    dsimp only [fldOf]
    have : (decide (f.lo ≤ g.lo) && decide (g.lo < f.lo + f.len)) = false := by simp only [Bool.and_eq_false_iff, decide_eq_false_iff_not]; omega
    rw [this]; simp
  dsimp only
  rw [none_ false, none_ true]; rfl

theorem err_eq (d : Dev) (k a : Nat) : d.accessError k a = Claims.withError d k a := by
  unfold Dev.accessError Claims.withError Dev.flag
  by_cases h : (d.set ⟨R.DEV_ERR_STATUS, k, 1⟩ 1).get F.DEV_ERR_ADDR_VALID = 0
  · rw [if_pos h]; exact if_neg (by rw [h]; decide)
  · rw [if_neg h]; exact if_pos (by simpa using h)

theorem host_go {d : Dev} {a : Nat} {be : BitVec 4} {v : W32} (h1 : d.hostReach = true) (h2 : be ≠ 0) : d.hostWrite a be v = d.fabricWrite a be v :=
  if_pos (by rw [h1]; simpa using h2)

theorem reg_exec (a : Nat) (be : BitVec 4) (v : W32) (s : State) : exec (.registerWrite a be v false []) s = done s (s.dev.hostWrite a be v) := rfl

theorem alias_exec (a : Nat) (v : W32) (s : State) (h : (aliasOf a).isSome = true) : exec (.aliasWrite a v) s = done s (s.dev.hostWrite a 0xF v) := by
  show done s (if _ then _ else _) = _
  rw [if_pos h]

theorem alias_go {d : Dev} {a r b : Nat} {v : W32} (h1 : d.hostReach = true) (hw : windowOf a = none) (h4 : a % 4 = 0) (h8 : a < 0x8000000) (hal : aliasOf a = some (r, b)) :
    d.hostWrite a 0xF v = d.aliasDword a r b (v.getLsbD 0) := by
  rw [host_go h1 (by decide)]
  unfold Dev.fabricWrite
  rw [hw, if_neg (by decide), if_neg (by omega), if_neg (by simp; omega), hal]
  dsimp only
  rw [if_pos (by decide)]

theorem dbg_exec (be : BitVec 4) (v : W32) (s : State) : exec (.dbgCtrlWrite be v) s = done s (s.dev.hostWrite R.SEC_DBG_CTRL be v) := rfl

theorem dbg_host {d : Dev} {be : BitVec 4} {v : W32} (h1 : d.hostReach = true) (h2 : be ≠ 0) : d.hostWrite R.SEC_DBG_CTRL be v = d.dbgCtrlWrite be v := by
  obtain ⟨card, ix, hc, hp, hb, hz⟩ : ∃ card ix, cardAt R.SEC_DBG_CTRL = some (card, ix) ∧ pairOf card ix R.SEC_DBG_CTRL = none ∧ card.base = R.SEC_DBG_CTRL ∧ card.bitsOf (· = .w1c) = 0 := by
    cases hx : cardAt R.SEC_DBG_CTRL with
    | none =>
      have : (cardAt R.SEC_DBG_CTRL).isSome = true := by decide +kernel
      rw [hx] at this; cases this
    | some p =>
      have k : ∀ p, cardAt R.SEC_DBG_CTRL = some p → pairOf p.1 p.2 R.SEC_DBG_CTRL = none ∧ p.1.base = R.SEC_DBG_CTRL ∧ p.1.bitsOf (· = .w1c) = 0 := by
        intro p hp
        have : (match cardAt R.SEC_DBG_CTRL with | some p => decide (pairOf p.1 p.2 R.SEC_DBG_CTRL = none ∧ p.1.base = R.SEC_DBG_CTRL ∧ p.1.bitsOf (· = .w1c) = 0) | none => true) = true := by decide +kernel
        rw [hp] at this; exact of_decide_eq_true this
      exact ⟨p.1, p.2, rfl, k p hx⟩
  rw [host_go h1 h2, fabric_reg hc (by decide) (by decide) (by decide) (by decide)]
  have hw : d.wakeFor R.SEC_DBG_CTRL = d := by
    unfold Dev.wakeFor
    rw [if_neg (by decide), if_neg (by decide), if_neg (by decide), if_neg (by decide), if_neg (by decide)]
  rw [hw]
  unfold Dev.writeReg
  rw [hp]
  dsimp only
  have hz2 : ∀ x : W32, x &&& 0 = 0 := fun x => BitVec.and_zero
  rw [hz, hz2, if_pos rfl, hb]
  unfold Dev.ownWrite
  dsimp only
  rw [if_pos rfl]

theorem fullMask : byteMask 0xF = 0xFFFFFFFF := by decide

theorem half_all (d : Dev) (a : Nat) (v fm : W32) : ((d.halfHeld a &&& ~~~(0xFFFFFFFF : W32)) ||| (v &&& 0xFFFFFFFF)) &&& fm = v &&& fm := by
  have h1 : ~~~(0xFFFFFFFF : W32) = 0 := by decide
  have h2 : (0xFFFFFFFF : W32) = BitVec.allOnes 32 := by decide
  rw [h1, h2, BitVec.and_allOnes]; simp

theorem foldl_same {α β : Type} (f : β → α → β) (b : β) : ∀ l : List α, (∀ x ∈ l, f b x = b) → l.foldl f b = b := by
  intro l
  induction l with
  | nil => intro _; rfl
  | cons a l ih => intro h; rw [List.foldl_cons, h a (List.mem_cons_self ..)]; exact ih (fun x hx => h x (List.mem_cons_of_mem _ hx))

theorem goWaiting_no {d : Dev} {c : Fin 32} (h : (d.ch c).goReq = false) : d.goWaiting c = d := by
  unfold Dev.goWaiting; rw [h]; rfl

theorem stage_none (d : Dev) (k : Fin 8) (j : Nat) : d.stageSetting k j [] = d := rfl

theorem apply_none {d : Dev} {pt : Apply} {block : Nat} {p : PendW} (hp : d.pend = [p]) (hg : ∀ c, (d.ch c).goReq = false)
    (h : (comesWith pt p.ap && decide (unitOf p.addr = block) && d.pointReached p) = false) : d.applyPoint pt block = d := by
  have e1 : d.pend.filter (fun p => comesWith pt p.ap && decide (unitOf p.addr = block) && d.pointReached p) = [] := by
    rw [hp, List.filter_cons, h]; rfl
  unfold Dev.applyPoint
  rw [e1]
  dsimp only
  have e2 : ({ d with pend := d.pend.filter fun p => !([] : List PendW).contains p } : Dev) = d := by
    have : (d.pend.filter fun p => !([] : List PendW).contains p) = d.pend := by rw [List.filter_eq_self]; simp
    rw [this]
  rw [e2]
  simp only [List.filter_nil, List.append_nil, List.foldl_nil]
  have e3 : ∀ k : Fin 8, (List.range 4).foldl (fun (d : Dev) j => d.stageSetting k j []) d = d := fun k => foldl_same _ d _ (fun x _ => stage_none d k x)
  rw [foldl_same _ d (List.finRange 8) (fun k _ => e3 k)]
  refine foldl_same _ d _ (fun c _ => ?_)
  by_cases hb : unitOf (R.CH_SEQ_CTRL c.val) = block
  · rw [if_pos hb]; exact goWaiting_no (hg c)
  · rw [if_neg hb]

theorem apply_one {d : Dev} {pt : Apply} {block : Nat} {p : PendW} (hp : d.pend = [p]) (hg : ∀ c, (d.ch c).goReq = false)
    (h : (comesWith pt p.ap && decide (unitOf p.addr = block) && d.pointReached p) = true) (ht : p.timer = none)
    (hs : ∀ k j, k < 8 → j < 4 → p.addr ≠ R.CL_STAGE_CTRL k j) (h1 : p.addr ≠ R.CH_DAC_CTRL (channelOf p.addr)) (h2 : p.addr ≠ R.CH_SEQ_MODE (channelOf p.addr)) :
    d.applyPoint pt block = { d with pend := [] }.wr p.addr ((d.rd p.addr &&& ~~~p.mask) ||| (p.val &&& p.mask)) := by
  have e1 : d.pend.filter (fun p => comesWith pt p.ap && decide (unitOf p.addr = block) && d.pointReached p) = [p] := by
    rw [hp, List.filter_cons, h]; rfl
  have e2 : ({ d with pend := d.pend.filter fun q => !([p] : List PendW).contains q } : Dev) = { d with pend := [] } := by
    have : (d.pend.filter fun q => !([p] : List PendW).contains q) = [] := by rw [hp]; simp
    rw [this]
  have e4 : ([p] : List PendW).filter (fun p => !((List.finRange 8).any fun k => (List.range 4).any fun j => decide (p.addr = R.CL_STAGE_CTRL k j))) = [p] := by
    rw [List.filter_eq_self]
    intro q hq
    rw [List.mem_singleton] at hq; subst hq
    have : ((List.finRange 8).any fun k => (List.range 4).any fun j => decide (q.addr = R.CL_STAGE_CTRL k j)) = false := by
      rw [List.any_eq_false]; intro k _; rw [Bool.not_eq_true, List.any_eq_false]; intro j hj
      have := hs k j k.isLt (List.mem_range.1 hj); simpa using this
    rw [this]; rfl
  have e5 : ∀ k : Fin 8, ∀ j, j < 4 → ([p] : List PendW).filter (fun p => decide (p.addr = R.CL_STAGE_CTRL k j)) = [] := by
    intro k j hj; rw [List.filter_eq_nil_iff]; intro q hq; rw [List.mem_singleton] at hq; subst hq
    have := hs k j k.isLt hj; simpa using this
  unfold Dev.applyPoint
  rw [e1]
  dsimp only
  rw [e2, e4]
  have e6 : ([p].filter (fun q : PendW => q.timer.isNone) ++ [p].filter (fun q : PendW => q.timer.isSome)) = [p] := by
    simp [ht]
  rw [e6, List.foldl_cons, List.foldl_nil]
  have e7 : Dev.takePending { d with pend := [] } p = { d with pend := [] }.wr p.addr ((d.rd p.addr &&& ~~~p.mask) ||| (p.val &&& p.mask)) := by
    unfold Dev.takePending
    rw [ht]
    dsimp only
    rw [if_neg (by simp [h1]), if_neg h2]
    rfl
  rw [e7]
  generalize hX : ({ d with pend := [] }.wr p.addr ((d.rd p.addr &&& ~~~p.mask) ||| (p.val &&& p.mask)) : Dev) = X
  have e3 : ∀ k : Fin 8, (List.range 4).foldl (fun (d : Dev) j => d.stageSetting k j (([p] : List PendW).filter fun p => decide (p.addr = R.CL_STAGE_CTRL k j))) X = X :=
    fun k => foldl_same _ X _ (fun j hj => by rw [e5 k j (List.mem_range.1 hj)]; rfl)
  rw [foldl_same _ X (List.finRange 8) (fun k _ => e3 k)]
  refine foldl_same _ X _ (fun c _ => ?_)
  by_cases hb : unitOf (R.CH_SEQ_CTRL c.val) = block
  · rw [if_pos hb]; exact goWaiting_no (by rw [← hX]; exact hg c)
  · rw [if_neg hb]

theorem qos_addr (m : Nat) : R.MEM_QOS m ≠ R.TELEM_PWR_CL ∧ R.MEM_QOS m ≠ R.DEV_PROFILE := by
  simp only [R.MEM_QOS, R.TELEM_PWR_CL, R.DEV_PROFILE]; omega

theorem qosFold (_p : Nat) : ∀ (l : List Nat) (d : Dev), l.Nodup → ∀ m ∈ l, m < 6 →
    (l.foldl (fun (d : Dev) m => d.set (F.MEM_QOS_SCHEME m) (bit (m = 0))) d).get (F.MEM_QOS_SCHEME m) = bit (m = 0) := by
  intro l
  have key : ∀ (l : List Nat) (d : Dev) (m : Nat), m ∉ l → (l.foldl (fun (d : Dev) m => d.set (F.MEM_QOS_SCHEME m) (bit (m = 0))) d).get (F.MEM_QOS_SCHEME m) = d.get (F.MEM_QOS_SCHEME m) := by
    intro l
    induction l with
    | nil => intro d m _; rfl
    | cons a l ih =>
      intro d m hm
      rw [List.foldl_cons, ih _ _ (fun h => hm (List.mem_cons_of_mem _ h))]
      refine Dev.get_set_reg _ _ ?_
      have : m ≠ a := fun h => hm (h ▸ List.mem_cons_self ..)
      simp only [R.MEM_QOS]; omega
  induction l with
  | nil => intro d _ m hm; cases hm
  | cons a l ih =>
    intro d hn m hm hm6
    rw [List.nodup_cons] at hn
    rw [List.foldl_cons]
    rcases List.mem_cons.1 hm with rfl | hm
    · rw [key _ _ _ hn.1, Dev.get_set_same _ (by simp)]
      by_cases h0 : m = 0 <;> simp [bit, h0]
    · exact ih _ hn.2 m hm hm6

theorem takeProfile_shape (D : Dev) (p : Nat) : ∃ X : Dev, D.takeProfile p =
    (((List.range 6).foldl (fun (d : Dev) m => d.set (F.MEM_QOS_SCHEME m) (bit (m = 0))) X).set F.TELEM_PWR_CL_GATED (if p = 2 then 0xFF else 0)).profileSync := ⟨_, rfl⟩

theorem sync_get (d : Dev) (f : Fld) (h : f.addr ≠ R.DEV_PROFILE) : d.profileSync.get f = d.get f := Dev.get_set_reg _ _ h

theorem profile_reads (D : Dev) (p : Nat) : ((D.takeProfile p).follow).get (F.MEM_QOS_SCHEME 0) = 1 ∧ (∀ m, 0 < m → m < 6 → ((D.takeProfile p).follow).get (F.MEM_QOS_SCHEME m) = 0) ∧
    ((D.takeProfile p).follow).get F.TELEM_PWR_CL_GATED = (if p = 2 then 0xFF else 0) := by
  obtain ⟨X, hX⟩ := takeProfile_shape D p
  rw [hX]
  generalize hY : (List.range 6).foldl (fun (d : Dev) m => d.set (F.MEM_QOS_SCHEME m) (bit (m = 0))) X = Y
  have q : ∀ m, m < 6 → Y.get (F.MEM_QOS_SCHEME m) = bit (m = 0) := fun m hm => by
    rw [← hY]; exact qosFold p _ X List.nodup_range m (List.mem_range.2 hm) hm
  have z : ∀ v m, m < 6 → ((Y.set F.TELEM_PWR_CL_GATED v).profileSync).get (F.MEM_QOS_SCHEME m) = bit (m = 0) := by
    intro v m hm
    rw [sync_get _ _ (qos_addr m).2, Dev.get_set_reg _ _ (qos_addr m).1, q m hm]
  refine ⟨(Dev.follow_get _ _).trans (z _ 0 (by decide)), fun m h0 hm => ?_, ?_⟩
  · rw [Dev.follow_get, z _ m hm]; have : m ≠ 0 := by omega
    simp [this, bit]
  · rw [Dev.follow_get, sync_get _ _ (by decide), Dev.get_set_same _ (by decide)]
    split <;> rfl

theorem latch_iff (d : Dev) (v : Nat) : ((List.range 54).any fun i => d.summary.getLsbD i && vectorOf i = v) = true ↔ ∃ i, i < 54 ∧ d.summary.getLsbD i = true ∧ vectorOf i = v := by
  rw [List.any_eq_true]
  constructor
  · rintro ⟨i, hi, h⟩; rw [Bool.and_eq_true] at h; exact ⟨i, List.mem_range.1 hi, h.1, of_decide_eq_true h.2⟩
  · rintro ⟨i, hi, h, h2⟩; exact ⟨i, List.mem_range.2 hi, by rw [Bool.and_eq_true]; exact ⟨h, decide_eq_true h2⟩⟩

theorem Fld.read_lt (f : Fld) (w : W32) : f.read w < 2 ^ f.len := Nat.mod_lt _ (by positivity)

theorem rearm_eq (d : Dev) (v : Nat) : d.msixRearm v = if ((List.range 54).any fun i => d.summary.getLsbD i && vectorOf i = v) && !d.msix.latch.contains v then
    { d with msix := { d.msix with latch := d.msix.latch ++ [v] } } else d := rfl

theorem message_go {d : Dev} {v : Nat} (h1 : v ∈ d.msix.latch) (h2 : d.board.msixOn = true) (h3 : d.board.funcMask = false) (h4 : d.board.d0 = true) (h5 : d.flag (F.DEV_MSIX_CTRL_MASK v) = false)
    (h6 : d.get (F.DEV_MSIX_MOD_HOLDOFF v) * 100 ≤ (match d.msix.last.find? (·.1 = v) with | some p => d.ev.elapsed - p.2 | none => 2 ^ 64)) :
    d.msixMessage v = { d with msix := { d.msix with latch := d.msix.latch.filter (· ≠ v), last := d.msix.last.filter (·.1 ≠ v) ++ [(v, d.ev.elapsed)]
                                                     sent := some (v, d.get64 (R.DEV_MSIX_ADDR v 0), d.rd (R.DEV_MSIX_DATA v)) } } := by
  unfold Dev.msixMessage
  dsimp only
  rw [if_pos]
  refine (Bool.and_eq_true _ _).mpr ⟨?_, decide_eq_true h6⟩
  rw [h2, h3, h4, h5, List.contains_iff_mem.2 h1]; rfl

theorem message_no {d : Dev} {v : Nat} (h : ¬(v ∈ d.msix.latch ∧ d.board.msixOn = true ∧ d.board.funcMask = false ∧ d.board.d0 = true ∧ d.flag (F.DEV_MSIX_CTRL_MASK v) = false ∧
    d.get (F.DEV_MSIX_MOD_HOLDOFF v) * 100 ≤ (match d.msix.last.find? (·.1 = v) with | some p => d.ev.elapsed - p.2 | none => 2 ^ 64))) :
    d.msixMessage v = d := by
  unfold Dev.msixMessage
  dsimp only
  rw [if_neg]
  intro k
  apply h
  simp only [Bool.and_eq_true, Bool.not_eq_true', List.contains_iff_mem, decide_eq_true_eq] at k
  obtain ⟨⟨⟨⟨⟨k1, k2⟩, k3⟩, k4⟩, k5⟩, k6⟩ := k
  exact ⟨k1, k2, k3, k4, k5, k6⟩

end Sys2Proof.Laws
end

