-- ==== Sys2Proof/Laws/Copies.lean ====
section
/-! SUPPORT. Registers copied in folds; snapshots. -/

set_option Elab.async false

namespace Sys2Proof.Laws

open Sys2Proof.Machine Sys2Proof.Claims

/-- Only registers outside `P` differ. -/
structure KeepR (P : Nat → Prop) (d t : Dev) : Prop where
  rd : ∀ a, P a → t.rd a = d.rd a
  eq : t = { d with regs := t.regs }

theorem KeepR.refl (P : Nat → Prop) (d : Dev) : KeepR P d d := ⟨fun _ _ => rfl, rfl⟩

theorem KeepR.trans {P : Nat → Prop} {d e t : Dev} (h : KeepR P d e) (h2 : KeepR P e t) : KeepR P d t :=
  ⟨fun a ha => (h2.rd a ha).trans (h.rd a ha), by rw [h2.eq, h.eq]⟩

theorem KeepR.set64 {P : Nat → Prop} (d : Dev) {lo : Nat} (v : W64) (h : ¬P lo) (h2 : ¬P (lo + 4)) : KeepR P d (d.set64 lo v) :=
  ⟨fun _ ha => Dev.set64_rd_ne d v (fun k => h (k ▸ ha)) (fun k => h2 (k ▸ ha)), rfl⟩

theorem KeepR.set {P : Nat → Prop} (d : Dev) {f : Fld} (v : Nat) (h : ¬P f.addr) : KeepR P d (d.set f v) :=
  ⟨fun _ ha => Dev.rd_set_ne d v (fun k => h (k ▸ ha)), rfl⟩

theorem KeepR.wr {P : Nat → Prop} (d : Dev) {a : Nat} (v : W32) (h : ¬P a) : KeepR P d (d.wr a v) :=
  ⟨fun _ hb => Dev.rd_wr_ne d v (fun k => h (k ▸ hb)), rfl⟩

theorem KeepR.foldl {P : Nat → Prop} {α : Type} (f : Dev → α → Dev) : ∀ (l : List α) (d : Dev), (∀ d, ∀ x ∈ l, KeepR P d (f d x)) → KeepR P d (l.foldl f d) := by
  intro l
  induction l with
  | nil => intro d _; exact KeepR.refl P d
  | cons a l ih => intro d h; rw [List.foldl_cons]; exact (h d a (List.mem_cons_self ..)).trans (ih _ fun d x hx => h d x (List.mem_cons_of_mem _ hx))

theorem KeepR.get {P : Nat → Prop} {d t : Dev} (h : KeepR P d t) (f : Fld) (hf : P f.addr) : t.get f = d.get f := by
  unfold Dev.get; rw [h.rd _ hf]

theorem KeepR.get64 {P : Nat → Prop} {d t : Dev} (h : KeepR P d t) (a : Nat) (h1 : P a) (h2 : P (a + 4)) : t.get64 a = d.get64 a := by
  unfold Dev.get64; rw [h.rd _ h1, h.rd _ h2]

/-- A fold that writes one dword per index. -/
theorem fold_wr (src dst : Nat → Nat) : ∀ (l : List Nat) (d : Dev), l.Nodup → (∀ i ∈ l, ∀ j ∈ l, dst i = dst j → i = j) → (∀ i ∈ l, ∀ j ∈ l, src i ≠ dst j) →
    ∀ i ∈ l, (l.foldl (fun (d : Dev) i => d.wr (dst i) (d.rd (src i))) d).rd (dst i) = d.rd (src i) := by
  intro l
  have key : ∀ (l : List Nat) (d : Dev) (a : Nat), (∀ j ∈ l, a ≠ dst j) → (l.foldl (fun (d : Dev) i => d.wr (dst i) (d.rd (src i))) d).rd a = d.rd a := by
    intro l
    induction l with
    | nil => intro d a _; rfl
    | cons x l ih => intro d a h; rw [List.foldl_cons, ih _ _ (fun j hj => h j (List.mem_cons_of_mem _ hj)), Dev.rd_wr_ne _ _ (h x (List.mem_cons_self ..))]
  induction l with
  | nil => intro d _ _ _ i hi; cases hi
  | cons x l ih =>
    intro d hn hinj hsd i hi
    rw [List.nodup_cons] at hn
    rw [List.foldl_cons]
    rcases List.mem_cons.1 hi with rfl | hi
    · rw [key _ _ _ (fun j hj h => hn.1 (hinj i (List.mem_cons_self ..) j (List.mem_cons_of_mem _ hj) h ▸ hj)), Dev.rd_wr_same]
    · rw [ih _ hn.2 (fun i hi j hj => hinj i (List.mem_cons_of_mem _ hi) j (List.mem_cons_of_mem _ hj)) (fun i hi j hj => hsd i (List.mem_cons_of_mem _ hi) j (List.mem_cons_of_mem _ hj)) i hi,
        Dev.rd_wr_ne _ _ (hsd i (List.mem_cons_of_mem _ hi) x (List.mem_cons_self ..))]

theorem fold_copy (src dst : Nat → Nat) : ∀ (l : List Nat) (d : Dev), l.Nodup → (∀ i ∈ l, ∀ j ∈ l, i ≠ j → dst i ≠ dst j ∧ dst i ≠ dst j + 4 ∧ dst i + 4 ≠ dst j) → (∀ i ∈ l, ∀ j ∈ l, src i ≠ dst j ∧ src i ≠ dst j + 4 ∧ src i + 4 ≠ dst j) →
    ∀ i ∈ l, (l.foldl (fun (d : Dev) i => d.copy64 (src i) (dst i)) d).get64 (dst i) = d.get64 (src i) := by
  intro l
  have one : ∀ (d : Dev) (a s t : Nat), a ≠ t → a ≠ t + 4 → a + 4 ≠ t → (d.copy64 s t).get64 a = d.get64 a := by
    intro d a s t h1 h2 h3
    unfold Dev.copy64
    rw [Dev.get64, Dev.get64, Dev.set64_rd_ne _ _ h1 h2, Dev.set64_rd_ne _ _ h3 (by omega)]; rfl
  have key : ∀ (l : List Nat) (d : Dev) (a : Nat), (∀ j ∈ l, a ≠ dst j ∧ a ≠ dst j + 4 ∧ a + 4 ≠ dst j) → (l.foldl (fun (d : Dev) i => d.copy64 (src i) (dst i)) d).get64 a = d.get64 a := by
    intro l
    induction l with
    | nil => intro d a _; rfl
    | cons x l ih =>
      intro d a h
      obtain ⟨h1, h2, h3⟩ := h x (List.mem_cons_self ..)
      rw [List.foldl_cons, ih _ _ (fun j hj => h j (List.mem_cons_of_mem _ hj)), one _ _ _ _ h1 h2 h3]
  induction l with
  | nil => intro d _ _ _ i hi; cases hi
  | cons x l ih =>
    intro d hn hinj hsd i hi
    rw [List.nodup_cons] at hn
    rw [List.foldl_cons]
    rcases List.mem_cons.1 hi with rfl | hi
    · rw [key _ _ _ (fun j hj => hinj i (List.mem_cons_self ..) j (List.mem_cons_of_mem _ hj) (fun h => hn.1 (h ▸ hj)))]
      exact Dev.get64_set64 _ _ _
    · obtain ⟨h1, h2, h3⟩ := hsd i (List.mem_cons_of_mem _ hi) x (List.mem_cons_self ..)
      rw [ih _ hn.2 (fun i hi j hj => hinj i (List.mem_cons_of_mem _ hi) j (List.mem_cons_of_mem _ hj)) (fun i hi j hj => hsd i (List.mem_cons_of_mem _ hi) j (List.mem_cons_of_mem _ hj)) i hi,
        one _ _ _ _ h1 h2 h3]

theorem KeepR.copy64 {P : Nat → Prop} (d : Dev) (s : Nat) {lo : Nat} (h : ¬P lo) (h2 : ¬P (lo + 4)) : KeepR P d (d.copy64 s lo) := KeepR.set64 d _ h h2

theorem keep_two {d : Dev} {s t : Nat → Nat} (h0 : 0x40000 ≤ t 0) (h1 : 0x40000 ≤ t 1) : KeepR (· < 0x40000) d (d.copyTwo s t) :=
  (KeepR.copy64 d (s 0) (lo := t 0) (by omega) (by omega)).trans (KeepR.copy64 _ (s 1) (lo := t 1) (by omega) (by omega))

theorem keep_pc (d : Dev) (p : Nat) : KeepR (· < 0x40000) d (d.copyPc p) :=
  (KeepR.copy64 d (R.HBM_PC_CNT (p / 32) (p % 32) 0 0) (lo := R.HBM_PC_SNAP (p / 32) (p % 32) 0 0) (by simp only [R.HBM_PC_SNAP]; omega) (by simp only [R.HBM_PC_SNAP]; omega)).trans
    (KeepR.copy64 _ (R.HBM_PC_CNT (p / 32) (p % 32) 1 0) (lo := R.HBM_PC_SNAP (p / 32) (p % 32) 1 0) (by simp only [R.HBM_PC_SNAP]; omega) (by simp only [R.HBM_PC_SNAP]; omega))

theorem keep64 (d : Dev) (s lo : Nat) (h : 0x40000 ≤ lo) : KeepR (· < 0x40000) d (d.copy64 s lo) :=
  KeepR.copy64 d s (lo := lo) (Nat.not_lt.2 h) (Nat.not_lt.2 (Nat.le_add_right_of_le h))

theorem keep_ch (d : Dev) (c : Fin 32) : KeepR (· < 0x40000) d (d.copyChannel c) := by
  have a : ∀ m, 0x40000 ≤ R.CH_SEQ_SNAP c m 0 := fun m => by simp only [R.CH_SEQ_SNAP]; omega
  have b : ∀ m, 0x40000 ≤ R.CH_DP_SNAP c m 0 := fun m => by simp only [R.CH_DP_SNAP]; omega
  have k1 : KeepR (· < 0x40000) d (d.set64 (R.CH_SEQ_SNAP c 0 0) (d.ch c).sc) :=
    KeepR.set64 d (lo := R.CH_SEQ_SNAP c 0 0) _ (Nat.not_lt.2 (a 0)) (Nat.not_lt.2 (Nat.le_add_right_of_le (a 0)))
  unfold Dev.copyChannel
  dsimp only
  generalize d.set64 (R.CH_SEQ_SNAP c 0 0) (d.ch c).sc = e at *
  have k2 := keep64 e (R.CH_SEQ_CNT c 0 0) _ (a 1)
  refine k1.trans (k2.trans ?_)
  generalize e.copy64 (R.CH_SEQ_CNT c 0 0) (R.CH_SEQ_SNAP c 1 0) = e
  have k3 := keep64 e (R.CH_SEQ_CNT c 1 0) _ (a 2)
  refine k3.trans ?_
  generalize e.copy64 (R.CH_SEQ_CNT c 1 0) (R.CH_SEQ_SNAP c 2 0) = e
  exact KeepR.foldl (fun (d : Dev) m => d.copy64 (R.CH_DP_CNT c m 0) (R.CH_DP_SNAP c m 0)) (List.range 3) e fun d m _ => keep64 d _ _ (b m)

/-- The part of a copy that lies above the event unit. -/
theorem copy_shape (d : Dev) (x : Abacus) : ∃ e, KeepR (· < 0x40000) d e ∧
    d.copyAll x = (List.range 16).foldl (fun (d : Dev) i => d.wr (R.EVT_TRIG_SNAP i) (d.rd (R.EVT_TRIG_CNT i)))
      ((List.range 4).foldl (fun (d : Dev) m => d.copy64 (R.EVT_CNT m 0) (R.EVT_SNAP m 0)) e) := by
  have k1 := KeepR.foldl (P := (· < 0x40000)) (fun (d : Dev) c => d.copyChannel c) (List.finRange 32) d fun d c _ => keep_ch d c
  have k2 := k1.trans (KeepR.foldl (P := (· < 0x40000)) (fun (d : Dev) k => d.copyTwo (fun m => R.CL_PORT_BYTES k m 0) fun m => R.CL_PORT_SNAP k m 0) (List.range 8) _
    fun d k _ => keep_two (by simp only [R.CL_PORT_SNAP]; omega) (by simp only [R.CL_PORT_SNAP]; omega))
  have k3 := k2.trans (KeepR.foldl (P := (· < 0x40000)) (fun (d : Dev) p => d.copyPc p) x.pcs _ fun d p _ => keep_pc d p)
  have k4 := k3.trans (KeepR.foldl (P := (· < 0x40000)) (fun (d : Dev) h => d.copyTwo (fun m => R.HBM_CTL_CNT h m 0) fun m => R.HBM_CTL_SNAP h m 0) (List.range 4) _
    fun d k _ => keep_two (by simp only [R.HBM_CTL_SNAP]; omega) (by simp only [R.HBM_CTL_SNAP]; omega))
  have k5 := k4.trans (KeepR.foldl (P := (· < 0x40000)) (fun (d : Dev) p => d.copyTwo (fun m => R.LINK_CNT (portIdx p) m 0) fun m => R.LINK_SNAP (portIdx p) m 0) x.ports _
    fun d k _ => keep_two (by simp only [R.LINK_SNAP]; omega) (by simp only [R.LINK_SNAP]; omega))
  have k6 := k5.trans (KeepR.foldl (P := (· < 0x40000)) (fun (d : Dev) m => d.copy64 (R.CARAVAN_CNT m 0) (R.CARAVAN_SNAP m 0)) (List.range 4) _
    fun d m _ => KeepR.copy64 d _ (by simp only [R.CARAVAN_SNAP]; omega) (by simp only [R.CARAVAN_SNAP]; omega))
  exact ⟨_, k6, rfl⟩

theorem start_eq (d : Dev) : ∃ e, e = (d.set F.ABACUS_DONE_ALL 0).set F.ABACUS_STATUS_ABRT 0 ∧
    (d.ev.counting = false → d.startSnap = { ((e.set F.ABACUS_STATUS_CODE 6).set F.ABACUS_CTRL_GO 0) with snap := none }) ∧
    (d.ev.counting = true → ((d.get64 R.ABACUS_TIME_LO - d.ev.dt).toNat < 32 ∨ 2 ^ 63 ≤ (d.get64 R.ABACUS_TIME_LO - d.ev.dt).toNat) →
      d.startSnap = { ((e.set F.ABACUS_STATUS_CODE 5).set F.ABACUS_CTRL_GO 0) with snap := none }) ∧
    (d.ev.counting = true → 32 ≤ (d.get64 R.ABACUS_TIME_LO - d.ev.dt).toNat → (d.get64 R.ABACUS_TIME_LO - d.ev.dt).toNat < 2 ^ 63 →
      ∀ pcs ports, pcs = ((List.range 128).filter fun p => e.pcState p < 2) → ports = e.portsUp →
      d.startSnap = { ((((e.set F.ABACUS_STATUS_CODE 1).set F.ABACUS_CTRL_GO 1).set F.ABACUS_DONE_UNITS
        (108 + pcs.length + 2 * ports.length)).set F.ABACUS_DONE_COPIED 0).wakeUnits with snap := some ⟨d.get64 R.ABACUS_TIME_LO, pcs, ports, false⟩ }) := by
  refine ⟨_, rfl, fun h => ?_, fun h h2 => ?_, fun h h2 h3 pcs ports hp hq => ?_⟩
  · unfold Dev.startSnap; dsimp only
    rw [if_pos (by show (!d.ev.counting) = true; rw [h]; rfl)]; rfl
  · unfold Dev.startSnap; dsimp only
    rw [if_neg (by show ¬(!d.ev.counting) = true; rw [h]; decide), if_pos]; rfl
    rw [Bool.or_eq_true]; rcases h2 with h2 | h2
    · exact Or.inl (decide_eq_true h2)
    · exact Or.inr (decide_eq_true h2)
  · subst hp hq
    unfold Dev.startSnap; dsimp only
    rw [if_neg (by show ¬(!d.ev.counting) = true; rw [h]; decide), if_neg]
    rw [Bool.or_eq_true]; rintro (k | k)
    · exact absurd (of_decide_eq_true k) (by omega)
    · exact absurd (of_decide_eq_true k) (by omega)

theorem set_snap (d : Dev) (h : d.snap = none) (f : Fld) (v : Nat) : ({ d.set f v with snap := none } : Dev) = d.set f v := by
  have : (d.set f v).snap = none := h
  generalize d.set f v = e at *
  cases e; cases this; rfl

theorem abort_none {d : Dev} (h : d.snap = none) : d.abacusAbort = (d.set F.ABACUS_CTRL_PENDING 0).set F.ABACUS_STATUS_ABRT 2 := by
  unfold Dev.abacusAbort; dsimp only
  rw [show (d.set F.ABACUS_CTRL_PENDING 0).snap = none from h]

theorem abort_some {d : Dev} {x : Abacus} (h : d.snap = some x) : d.abacusAbort =
    if !x.copied && 32 ≤ (x.target - d.ev.dt).toNat && (x.target - d.ev.dt).toNat < 2 ^ 63 then ((d.set F.ABACUS_CTRL_PENDING 0).set F.ABACUS_STATUS_ABRT 1).snapEnds 3
    else (d.set F.ABACUS_CTRL_PENDING 0).set F.ABACUS_STATUS_ABRT 2 := by
  unfold Dev.abacusAbort; dsimp only
  rw [show (d.set F.ABACUS_CTRL_PENDING 0).snap = some x from h]; rfl

theorem copy_some {d : Dev} {x : Abacus} (h : d.snap = some x) : d.abacusCopy =
    if !x.copied && d.ev.counting && notAfter x.target d.ev.dt then
      ({ (d.copyAll x) with snap := some { x with copied := true } } : Dev).set F.ABACUS_DONE_COPIED (({ (d.copyAll x) with snap := some { x with copied := true } } : Dev).get F.ABACUS_DONE_UNITS)
    else d := by
  unfold Dev.abacusCopy; rw [h]

theorem done_some {d : Dev} {x : Abacus} (h : d.snap = some x) : d.abacusDone =
    if x.copied then (if ((d.set F.ABACUS_DONE_ALL 1).snapEnds 2).flag F.ABACUS_CTRL_PENDING then (((d.set F.ABACUS_DONE_ALL 1).snapEnds 2).set F.ABACUS_CTRL_PENDING 0).startSnap
      else (d.set F.ABACUS_DONE_ALL 1).snapEnds 2) else d := by
  unfold Dev.abacusDone; rw [h]

theorem snap_get (X : Dev) (q : Option Abacus) (f : Fld) : ({ X with snap := q } : Dev).get f = X.get f := rfl

theorem ends_pending (d : Dev) : ((d.set F.ABACUS_DONE_ALL 1).snapEnds 2).flag F.ABACUS_CTRL_PENDING = d.flag F.ABACUS_CTRL_PENDING := by
  have : ((d.set F.ABACUS_DONE_ALL 1).snapEnds 2).get F.ABACUS_CTRL_PENDING = d.get F.ABACUS_CTRL_PENDING := by
    refine (snap_get _ none _).trans ?_
    rw [Dev.get_set_bits (f := F.ABACUS_CTRL_GO) (g := F.ABACUS_CTRL_PENDING) _ _ (by decide) rfl (by decide), Dev.get_set_reg _ _ (by decide), Dev.get_set_reg _ _ (by decide)]
  unfold Dev.flag; rw [this]

theorem pcstat_ne (p x : Nat) (h : x < 0x40000) : R.MEM_PC_STAT p ≠ x := by simp only [R.MEM_PC_STAT]; omega

theorem snap_shape {d Y : Dev} {r : List (Nat × W32)} (h : Y = { d with regs := r }) (q : Option Abacus) (f : Fld) (v : Nat) :
    ({ Y with snap := q } : Dev).set f v = { d with regs := (({ Y with snap := q } : Dev).set f v).regs, snap := (({ Y with snap := q } : Dev).set f v).snap } := by
  subst h; rfl

theorem copy_Y (d : Dev) (x : Abacus) : ∃ Y, d.copyAll x = Y ∧ Y.get F.ABACUS_DONE_UNITS = d.get F.ABACUS_DONE_UNITS ∧
    (∀ i, i < 16 → Y.rd (R.EVT_TRIG_SNAP i) = d.rd (R.EVT_TRIG_CNT i)) ∧ (∀ m, m < 4 → Y.get64 (R.EVT_SNAP m 0) = d.get64 (R.EVT_CNT m 0)) ∧
    Y = { d with regs := Y.regs } := by
  obtain ⟨e, he, hs⟩ := copy_shape d x
  refine ⟨_, hs, ?_⟩
  clear hs
  generalize hX : (List.range 4).foldl (fun (d : Dev) m => d.copy64 (R.EVT_CNT m 0) (R.EVT_SNAP m 0)) e = X
  have kX : KeepR (fun a => a < 0x30460) e X := by
    rw [← hX]
    exact KeepR.foldl (fun (d : Dev) m => d.copy64 (R.EVT_CNT m 0) (R.EVT_SNAP m 0)) (List.range 4) e fun d m _ =>
      KeepR.copy64 d _ (lo := R.EVT_SNAP m 0) (by simp only [R.EVT_SNAP]; omega) (by simp only [R.EVT_SNAP]; omega)
  have cX : ∀ m, m < 4 → X.get64 (R.EVT_SNAP m 0) = e.get64 (R.EVT_CNT m 0) := fun m hm => by
    rw [← hX]
    refine fold_copy (fun m => R.EVT_CNT m 0) (fun m => R.EVT_SNAP m 0) (List.range 4) e List.nodup_range ?_ ?_ m (List.mem_range.2 hm)
    · intro i hi j hj hij; simp only [R.EVT_SNAP]; omega
    · intro i hi j hj; have := List.mem_range.1 hi; simp only [R.EVT_SNAP, R.EVT_CNT]; omega
  clear hX
  generalize hY : (List.range 16).foldl (fun (d : Dev) i => d.wr (R.EVT_TRIG_SNAP i) (d.rd (R.EVT_TRIG_CNT i))) X = Y
  have kY : KeepR (fun a => a < 0x30240 ∨ 0x30280 ≤ a) X Y := by
    rw [← hY]
    exact KeepR.foldl (fun (d : Dev) i => d.wr (R.EVT_TRIG_SNAP i) (d.rd (R.EVT_TRIG_CNT i))) (List.range 16) X fun d i hi =>
      KeepR.wr d (a := R.EVT_TRIG_SNAP i) _ (by have := List.mem_range.1 hi; simp only [R.EVT_TRIG_SNAP]; omega)
  have cY : ∀ i, i < 16 → Y.rd (R.EVT_TRIG_SNAP i) = X.rd (R.EVT_TRIG_CNT i) := fun i hi => by
    rw [← hY]
    refine fold_wr (fun i => R.EVT_TRIG_CNT i) (fun i => R.EVT_TRIG_SNAP i) (List.range 16) X List.nodup_range ?_ ?_ i (List.mem_range.2 hi)
    · intro i hi j hj hij; simp only [R.EVT_TRIG_SNAP] at hij; omega
    · intro i hi j hj; have := List.mem_range.1 hi; simp only [R.EVT_TRIG_SNAP, R.EVT_TRIG_CNT]; omega
  clear hY
  refine ⟨?_, fun i hi => ?_, fun m hm => ?_, ?_⟩
  · rw [kY.get _ (by decide), kX.get _ (by decide), he.get _ (by decide)]
  · rw [cY i hi, kX.rd _ (by simp only [R.EVT_TRIG_CNT]; omega), he.rd _ (by simp only [R.EVT_TRIG_CNT]; omega)]
  · rw [kY.get64 _ (by simp only [R.EVT_SNAP]; omega) (by simp only [R.EVT_SNAP]; omega), cX m hm,
      he.get64 _ (by simp only [R.EVT_CNT]; omega) (by simp only [R.EVT_CNT]; omega)]
  · rw [kY.eq, kX.eq, he.eq]

theorem abacus_copied {d Y : Dev} (q : Option Abacus) (hu : Y.get F.ABACUS_DONE_UNITS = d.get F.ABACUS_DONE_UNITS)
    (h1 : ∀ i, i < 16 → Y.rd (R.EVT_TRIG_SNAP i) = d.rd (R.EVT_TRIG_CNT i)) (h2 : ∀ m, m < 4 → Y.get64 (R.EVT_SNAP m 0) = d.get64 (R.EVT_CNT m 0))
    (hY : Y = { d with regs := Y.regs }) (v : Nat) (hv : v = Y.get F.ABACUS_DONE_UNITS) (t : Dev) (ht : t = ({ Y with snap := q } : Dev).set F.ABACUS_DONE_COPIED v) :
    t.snap = q ∧ t.get F.ABACUS_DONE_COPIED = d.get F.ABACUS_DONE_UNITS ∧
        (∀ i, i < 16 → t.rd (R.EVT_TRIG_SNAP i) = d.rd (R.EVT_TRIG_CNT i)) ∧
        (∀ m, m < 4 → t.get64 (R.EVT_SNAP m 0) = d.get64 (R.EVT_CNT m 0)) ∧ t = { d with regs := t.regs, snap := t.snap } := by
  refine ⟨?_, ?_, fun i hi => ?_, fun m hm => ?_, ?_⟩
  · rw [ht]; rfl
  · rw [ht, Dev.get_set_same _ (by decide), hv, hu]
    exact Nat.mod_eq_of_lt (Fld.read_lt F.ABACUS_DONE_UNITS (d.rd R.ABACUS_DONE))
  · rw [ht, Dev.rd_set_ne _ _ (by simp only [R.EVT_TRIG_SNAP, R.ABACUS_DONE]; omega)]
    exact h1 i hi
  · rw [ht]
    have k : ∀ (Z : Dev) v, (Z.set F.ABACUS_DONE_COPIED v).get64 (R.EVT_SNAP m 0) = Z.get64 (R.EVT_SNAP m 0) := fun Z v => by
      unfold Dev.get64
      rw [Dev.rd_set_ne _ _ (by simp only [R.EVT_SNAP, R.ABACUS_DONE]; omega), Dev.rd_set_ne _ _ (by simp only [R.EVT_SNAP, R.ABACUS_DONE]; omega)]
    rw [k]
    exact h2 m hm
  · rw [ht]; exact snap_shape hY _ _ _

theorem copy_reads {d : Dev} {x : Abacus} (h : d.snap = some x) (h1 : x.copied = false) (h2 : d.ev.counting = true) (h3 : notAfter x.target d.ev.dt = true) :
    ∃ t, d.abacusCopy = t ∧ t.snap = some { x with copied := true } ∧ t.get F.ABACUS_DONE_COPIED = d.get F.ABACUS_DONE_UNITS ∧
        (∀ i, i < 16 → t.rd (R.EVT_TRIG_SNAP i) = d.rd (R.EVT_TRIG_CNT i)) ∧
        (∀ m, m < 4 → t.get64 (R.EVT_SNAP m 0) = d.get64 (R.EVT_CNT m 0)) ∧ t = { d with regs := t.regs, snap := t.snap } := by
  have e := (copy_some h).trans (if_pos (by rw [h1, h2, h3]; rfl))
  obtain ⟨Y, hY, k1, k2, k3, k4⟩ := copy_Y d x
  rw [hY] at e
  exact ⟨_, e, abacus_copied _ k1 k2 k3 k4 _ rfl _ rfl⟩

end Sys2Proof.Laws
end

