-- ==== Sys2Proof/Laws/Resets.lean ====
section
/-! SUPPORT. What the resets keep and clear. -/

set_option Elab.async false

namespace Sys2Proof.Laws

open Sys2Proof.Machine Sys2Proof.Claims

structure KeepK (P : Nat → Prop) (d t : Dev) : Prop where
  rd : ∀ a, P a → t.rd a = d.rd a
  eq : t = { d with regs := t.regs, clk := t.clk }

theorem KeepK.refl (P : Nat → Prop) (d : Dev) : KeepK P d d := ⟨fun _ _ => rfl, rfl⟩

theorem KeepK.trans {P : Nat → Prop} {d e t : Dev} (h : KeepK P d e) (h2 : KeepK P e t) : KeepK P d t :=
  ⟨fun a ha => (h2.rd a ha).trans (h.rd a ha), by rw [h2.eq, h.eq]⟩

theorem KeepK.set {P : Nat → Prop} (d : Dev) (f : Fld) (v : Nat) (h : ¬P f.addr) : KeepK P d (d.set f v) :=
  ⟨fun _ ha => Dev.rd_set_ne d v (fun k => h (k ▸ ha)), rfl⟩

theorem KeepK.setIf {P : Nat → Prop} (d : Dev) (b : Bool) (f : Fld) (v : Nat) (h : ¬P f.addr) : KeepK P d (d.setIf b f v) := by
  unfold Dev.setIf; split
  · exact KeepK.set d f v h
  · exact KeepK.refl P d

theorem KeepK.runs {P : Nat → Prop} (d : Dev) (n : Nat) (b : Bool) (h : ¬P (R.CLK_RUN ((n - 1) / 32))) : KeepK P d (d.setRuns n b) :=
  ⟨fun a ha => Dev.rd_set_ne d (f := ⟨R.CLK_RUN ((n - 1) / 32), (n - 1) % 32, 1⟩) (bit b) (fun k => h ((show a = R.CLK_RUN ((n - 1) / 32) from k) ▸ ha)), rfl⟩

theorem KeepK.foldl {P : Nat → Prop} {α : Type} (f : Dev → α → Dev) : ∀ (l : List α) (d : Dev), (∀ d, ∀ x ∈ l, KeepK P d (f d x)) → KeepK P d (l.foldl f d) := by
  intro l
  induction l with
  | nil => intro d _; exact KeepK.refl P d
  | cons a l ih => intro d h; rw [List.foldl_cons]; exact (h d a (List.mem_cons_self ..)).trans (ih _ fun d x hx => h d x (List.mem_cons_of_mem _ hx))

def Kept (a : Nat) : Prop := a ∉ Claims.keptStatus ∧ ∀ c : Fin 32, a ≠ R.CH_DAC_STATUS c

theorem kept_in {a : Nat} (h : a ∈ Claims.keptStatus) : ¬Kept a := fun k => k.1 h

theorem kept_dac (c : Fin 32) : ¬Kept (R.CH_DAC_STATUS c) := fun k => k.2 c rfl

theorem status_shape (n d : Dev) (st : Nat) : ∃ e, KeepK Kept n e ∧
    n.statusKept d st = ((e.set F.DEV_STAGE_STAGE st).set F.DEV_STAGE_STOPPED 0).set F.DEV_STAGE_STOP_CODE 0 := by
  have k1 := (KeepK.set (P := Kept) n F.CLK_PLL_STATUS_SYS_LOCK (d.get F.CLK_PLL_STATUS_SYS_LOCK) (kept_in (by decide))).trans
    ((KeepK.set _ F.CLK_PLL_STATUS_SYS_COAST (d.get F.CLK_PLL_STATUS_SYS_COAST) (kept_in (by decide))).trans
    ((KeepK.set _ F.CLK_PLL_STATUS_SYS_BYPASS (d.get F.CLK_PLL_STATUS_SYS_BYPASS) (kept_in (by decide))).trans
    (KeepK.set _ F.CLK_PLL_STATUS_PCIE_LOCK (d.get F.CLK_PLL_STATUS_PCIE_LOCK) (kept_in (by decide)))))
  have k2 := k1.trans (KeepK.foldl (P := Kept) (fun n i => n.setRuns i (d.runs i)) [1, 4, 31, 32, 38] _ fun e i hi =>
    KeepK.runs e i _ (by
      simp only [List.mem_cons, List.not_mem_nil, or_false] at hi
      rcases hi with rfl | rfl | rfl | rfl | rfl <;> exact kept_in (by decide)))
  have k3 := k2.trans (KeepK.set (P := Kept) _ F.MEM_HEALTH_MAPPED 0 (kept_in (by decide)))
  have k4 := k3.trans (KeepK.foldl (P := Kept) (fun n s => (n.set (F.HBM_STATUS_POWER s) 0).set (F.HBM_STATUS_SET s) 0) (List.range 4) _ fun e s hs => by
    have : ¬Kept (R.HBM_STATUS s) := by
      have := List.mem_range.1 hs
      rcases (by omega : s = 0 ∨ s = 1 ∨ s = 2 ∨ s = 3) with rfl | rfl | rfl | rfl <;> exact kept_in (by decide)
    exact (KeepK.set e (F.HBM_STATUS_POWER s) 0 this).trans (KeepK.set _ (F.HBM_STATUS_SET s) 0 this))
  have k5 := k4.trans (KeepK.foldl (P := Kept) (fun n (c : Fin 32) => (n.set (F.CH_DAC_STATUS_RANGING c) 0).set (F.CH_DAC_STATUS_ROT_ACTIVE c) 0) (List.finRange 32) _ fun e c _ =>
    (KeepK.set e (F.CH_DAC_STATUS_RANGING c) 0 (kept_dac c)).trans (KeepK.set _ (F.CH_DAC_STATUS_ROT_ACTIVE c) 0 (kept_dac c)))
  have k6 := k5.trans (KeepK.foldl (P := Kept) (fun n i => n.setIf (d.flag ⟨R.CLK_LOSS, i, 1⟩) ⟨R.CLK_LOSS, 16 + i, 1⟩ 1) [2, 3, 4, 5, 6, 7, 8] _ fun e i _ =>
    KeepK.setIf e _ ⟨R.CLK_LOSS, 16 + i, 1⟩ 1 (kept_in (by show R.CLK_LOSS ∈ _; decide)))
  exact ⟨_, k6, rfl⟩

theorem sense_keep (d : Dev) (b r : Nat) : KeepK (fun a => a ∉ [R.SEC_LC, R.SEC_IDX 0, R.SEC_IDX 1]) d (d.sense b r) := by
  have lc : ¬(R.SEC_LC ∉ [R.SEC_LC, R.SEC_IDX 0, R.SEC_IDX 1]) := by decide
  have i0 : ¬(R.SEC_IDX 0 ∉ [R.SEC_LC, R.SEC_IDX 0, R.SEC_IDX 1]) := by decide
  have i1 : ¬(R.SEC_IDX 1 ∉ [R.SEC_LC, R.SEC_IDX 0, R.SEC_IDX 1]) := by decide
  unfold Dev.sense
  dsimp only
  refine KeepK.trans ?_ (KeepK.set _ (F.SEC_IDX_VALUE 1) _ i1)
  refine KeepK.trans ?_ (KeepK.set _ (F.SEC_IDX_VALUE 0) _ i0)
  refine KeepK.trans ?_ (KeepK.set _ F.SEC_LC_IDKEY_RETIRED _ lc)
  refine KeepK.trans ?_ (KeepK.set _ F.SEC_LC_ROOT_VALID _ lc)
  refine KeepK.trans ?_ (KeepK.set _ F.SEC_LC_ROOT_REVOKED _ lc)
  refine KeepK.trans ?_ (KeepK.set _ F.SEC_LC_MIN_SVN _ lc)
  exact (KeepK.set _ F.SEC_LC_STATE _ lc).trans (KeepK.set _ F.SEC_LC_BURNED _ lc)

theorem get_filter (dflt : Nat → W32) (q : Nat → Bool) (t : List (Nat × W32)) (a : Nat) :
    Tab.get dflt (t.filter fun p => q p.1) a = if q a then Tab.get dflt t a else dflt a := by
  induction t with
  | nil => simp [Tab.get]
  | cons p t ih =>
    rw [List.filter_cons]
    by_cases hp : q p.1 = true
    · rw [if_pos hp]
      simp only [Tab.get]
      by_cases e : a = p.1
      · rw [if_pos e, if_pos e, e, if_pos hp]
      · rw [if_neg e, if_neg e, ih]
    · rw [if_neg hp, ih]
      simp only [Tab.get]
      by_cases e : a = p.1
      · rw [if_pos e, e, if_neg hp, if_neg hp]
      · rw [if_neg e]

theorem powerOn_rd (t : List (Nat × W32)) {a : Nat} {card : Card} {ix : List Nat} (h : cardAt a = some (card, ix)) :
    Tab.get regReset (powerOnRegs t) a = if card.dom = .powerOn then Tab.get regReset t a else regReset a := by
  unfold powerOnRegs
  refine (get_filter regReset (fun a => match cardAt a with | some (card, _) => card.dom = .powerOn | none => false) t a).trans ?_
  rw [h]
  by_cases hd : card.dom = .powerOn
  · rw [if_pos hd, if_pos (by simpa using hd)]
  · rw [if_neg hd, if_neg (by simpa using hd)]

theorem stage_reads (e : Dev) (st : Nat) (b r : Nat) : ∃ t, ((((e.set F.DEV_STAGE_STAGE st).set F.DEV_STAGE_STOPPED 0).set F.DEV_STAGE_STOP_CODE 0).sense b r) = t ∧
    t.get F.DEV_STAGE_STAGE = st % 2 ^ F.DEV_STAGE_STAGE.len ∧ t.get F.DEV_STAGE_STOPPED = 0 ∧ (∀ a, Kept a → t.rd a = e.rd a) ∧ t = { e with regs := t.regs, clk := t.clk } := by
  have k := sense_keep (((e.set F.DEV_STAGE_STAGE st).set F.DEV_STAGE_STOPPED 0).set F.DEV_STAGE_STOP_CODE 0) b r
  refine ⟨_, rfl, ?_⟩
  generalize (((e.set F.DEV_STAGE_STAGE st).set F.DEV_STAGE_STOPPED 0).set F.DEV_STAGE_STOP_CODE 0).sense b r = t at *
  have g : ∀ f : Fld, f.addr = R.DEV_STAGE → t.get f = (((e.set F.DEV_STAGE_STAGE st).set F.DEV_STAGE_STOPPED 0).set F.DEV_STAGE_STOP_CODE 0).get f := fun f hf => by
    unfold Dev.get; rw [k.rd f.addr (by rw [hf]; decide)]
  refine ⟨?_, ?_, fun a ha => ?_, ?_⟩
  · rw [g _ rfl, Dev.get_set_bits (f := F.DEV_STAGE_STOP_CODE) (g := F.DEV_STAGE_STAGE) _ _ (by decide) rfl (by decide),
      Dev.get_set_bits (f := F.DEV_STAGE_STOPPED) (g := F.DEV_STAGE_STAGE) _ _ (by decide) rfl (by decide), Dev.get_set_same _ (by decide)]
  · rw [g _ rfl, Dev.get_set_bits (f := F.DEV_STAGE_STOP_CODE) (g := F.DEV_STAGE_STOPPED) _ _ (by decide) rfl (by decide), Dev.get_set_same _ (by decide)]; rfl
  · have hs : a ≠ R.DEV_STAGE := fun h => ha.1 (by rw [h]; decide)
    rw [k.rd a, Dev.rd_set_ne _ _ hs, Dev.rd_set_ne _ _ hs, Dev.rd_set_ne _ _ hs]
    intro hm
    apply ha.1
    simp only [List.mem_cons, List.not_mem_nil, or_false] at hm
    rcases hm with rfl | rfl | rfl <;> decide
  · rw [k.eq]; rfl

/-- The device that a device reset starts from. -/
def resetBase (d : Dev) : Dev :=
  let n := Dev.cold d.mem.mtp d.mem.flash d.sec d.free
  { n with
      regs := powerOnRegs d.regs
      ev := { n.ev with dt := d.ev.dt, started := d.ev.started, elapsed := d.ev.elapsed, trig := d.ev.trig, pins := d.ev.pins
                        pinsNext := d.ev.pinsNext, sampled := d.ev.sampled
                        heldSince := if d.ev.counting then d.ev.elapsed else d.ev.heldSince }
      mem := { d.mem with hbm := Store.empty, ctx := Store.empty }
      sirocco := { n.sirocco with failed := d.sirocco.failed, fails := d.sirocco.fails, spared := d.spareRows }
      cals := d.cals.map Cal.halted
      clk := d.clk.kept n.clk
      board := { d.board with rst := none }
      mgmt := { d.mgmt with cmd := none, sec := none } }

/-- A device reset with no record write under way; `e` is the device with the running mailbox command cut off. -/
theorem reset_eq {d e : Dev} (h : d.stage ≠ 0) (he : e = d.cutCommand false) (hs : ∀ c, (e.cal c).saving = none) :
    d.deviceReset = ((resetBase e).statusKept e 1).sense (e.get F.SEC_LC_BURNED) (e.get F.SEC_LC_IDKEY_RETIRED) := by
  have k : (List.finRange 32).foldl (fun (d : Dev) c => if (d.cal c).saving.isSome then d.mtpRecordWrite c true else d) e = e :=
    foldl_same _ e _ (fun c _ => if_neg (by rw [hs c]; decide))
  unfold Dev.deviceReset
  rw [if_neg h, ← he, k]
  rfl

theorem fold_stop {d : Dev} (h : ∀ c, (d.ch c).st = .idle) :
    (List.finRange 32).foldl (fun (d : Dev) c => if (d.ch c).active? then d.stop c else d) d = d :=
  foldl_same _ d _ (fun c _ => if_neg (by unfold Chan.active?; rw [h c]; decide))

structure KeepC (c : Fin 32) (d t : Dev) : Prop where
  rd : ∀ a, a < R.CH_DAC_CTRL c → a ≠ R.DEV_PROFILE → t.rd a = d.rd a
  eq : t = { d with regs := t.regs, rings := t.rings, cals := t.cals }

theorem KeepC.refl (c : Fin 32) (d : Dev) : KeepC c d d := ⟨fun _ _ _ => rfl, rfl⟩

theorem KeepC.trans {c : Fin 32} {d e t : Dev} (h : KeepC c d e) (h2 : KeepC c e t) : KeepC c d t :=
  ⟨fun a ha hb => (h2.rd a ha hb).trans (h.rd a ha hb), by rw [h2.eq, h.eq]⟩

theorem KeepC.set {c : Fin 32} (d : Dev) (f : Fld) (v : Nat) (h : R.CH_DAC_CTRL c ≤ f.addr) : KeepC c d (d.set f v) :=
  ⟨fun a ha _ => Dev.rd_set_ne d v (by omega), rfl⟩

theorem KeepC.modCal {c : Fin 32} (d : Dev) (e : Fin 32) (f : Cal → Cal) : KeepC c d (d.modCal e f) := ⟨fun _ _ _ => rfl, rfl⟩

theorem KeepC.prof {c : Fin 32} (d : Dev) : KeepC c d d.profileSync :=
  ⟨fun _ _ hb => Dev.rd_set_ne d (f := F.DEV_PROFILE_PROFILE) d.profile hb, rfl⟩

theorem KeepC.emit {c : Fin 32} (d : Dev) (m n : Nat) (b : List Byte) : KeepC c d (d.emitStatus m n b) := by
  obtain ⟨r, hr⟩ := emitStatus_regs d m n b
  rw [hr]; exact ⟨fun _ _ _ => rfl, rfl⟩

section

variable {c : Fin 32}

theorem dac1 : R.CH_DAC_CTRL c ≤ R.CH_DAC_STATUS c := by simp only [R.CH_DAC_CTRL, R.CH_DAC_STATUS]; omega

theorem dac2 : R.CH_DAC_CTRL c ≤ R.CH_CAL_IRQ_STATUS c := by simp only [R.CH_DAC_CTRL, R.CH_CAL_IRQ_STATUS]; omega

theorem dac3 : R.CH_DAC_CTRL c ≤ R.CH_CAL_STATUS c := by simp only [R.CH_DAC_CTRL, R.CH_CAL_STATUS]; omega

theorem dac4 : R.CH_DAC_CTRL c ≤ R.CH_CAL_ABORT c := by simp only [R.CH_DAC_CTRL, R.CH_CAL_ABORT]; omega

theorem dac5 (u : Nat) : R.CH_DAC_CTRL c ≤ R.CH_DAC_SUB c u := by simp only [R.CH_DAC_CTRL, R.CH_DAC_SUB]; omega

end

theorem keep_cause (d : Dev) (c : Fin 32) (f : Fld) (h : f.addr = R.CH_DAC_STATUS c) : KeepC c d (d.dacCause c f) :=
  (KeepC.set d f 1 (h ▸ dac1)).trans (KeepC.set _ (F.CH_CAL_IRQ_STATUS_DAC c) 1 dac2)

theorem keep_ite {c : Fin 32} {d e t : Dev} {p : Prop} [Decidable p] (h1 : KeepC c d e) (h2 : KeepC c d t) : KeepC c d (if p then e else t) := by
  split <;> assumption

theorem keep_role (d : Dev) (c : Fin 32) (u r : Nat) : KeepC c d (d.setRole c u r) :=
  (KeepC.set d (F.CH_DAC_SUB_ROLE c u) r (dac5 u)).trans (KeepC.set _ (F.CH_DAC_SUB_POS c u) 0 (dac5 u))

theorem keep_mix (d : Dev) (c : Fin 32) : KeepC c d (d.roleMix c) := by
  unfold Dev.roleMix
  dsimp only
  have k1 : KeepC c d (if (d.flag (F.CH_DAC_CTRL_ROT c) && decide (d.get (F.CH_DAC_STATUS_GOOD c) = 16) && !d.flag (F.CH_DAC_STATUS_ROT_LOST c)) = true then d.dacCause c (F.CH_DAC_STATUS_ROT_LOST c) else d) :=
    keep_ite (keep_cause d c _ rfl) (KeepC.refl c d)
  generalize (if (d.flag (F.CH_DAC_CTRL_ROT c) && decide (d.get (F.CH_DAC_STATUS_GOOD c) = 16) && !d.flag (F.CH_DAC_STATUS_ROT_LOST c)) = true then d.dacCause c (F.CH_DAC_STATUS_ROT_LOST c) else d) = e at *
  have k2 := k1.trans (KeepC.set e (F.CH_DAC_STATUS_ROT_ACTIVE c) (bit (d.flag (F.CH_DAC_CTRL_ROT c) && decide (17 ≤ d.get (F.CH_DAC_STATUS_GOOD c)))) dac1)
  generalize e.set (F.CH_DAC_STATUS_ROT_ACTIVE c) (bit (d.flag (F.CH_DAC_CTRL_ROT c) && decide (17 ≤ d.get (F.CH_DAC_STATUS_GOOD c)))) = e at *
  refine keep_ite ?_ k2
  split
  · exact k2.trans ((keep_role e c _ 1).trans ((KeepC.modCal _ c _).trans (KeepC.modCal _ c _)))
  · exact k2

theorem keep_ends (d : Dev) (c : Fin 32) (code r k : Nat) : KeepC c d (d.calEnds c code r k) :=
  (KeepC.set d (F.CH_CAL_STATUS_CODE c) code dac3).trans ((KeepC.set _ (F.CH_CAL_STATUS_RUNNING c) 0 dac3).trans (KeepC.emit _ _ _ _))

theorem keep_hold (d : Dev) (c : Fin 32) : KeepC c d (d.holdEnds c) :=
  (KeepC.set d (F.CH_CAL_STATUS_STALE c) 0 dac3).trans (KeepC.modCal _ c _)

theorem keep_abort (d : Dev) (c : Fin 32) (r : Nat) : KeepC c d (d.calAbortNow c r) := by
  unfold Dev.calAbortNow
  split
  · exact KeepC.refl c d
  · dsimp only
    generalize kindOf _ = K
    generalize (if r = 7 then 3 else 4) = C
    have k := keep_ends d c C r K
    generalize d.calEnds c C r K = e at *
    have k := k.trans (KeepC.set e (F.CH_CAL_ABORT_REASON c) r dac4)
    generalize e.set (F.CH_CAL_ABORT_REASON c) r = e at *
    have k := k.trans (KeepC.set e (F.CH_CAL_ABORT_KIND c) K dac4)
    generalize e.set (F.CH_CAL_ABORT_KIND c) K = e at *
    have k := k.trans (KeepC.set (c := c) e (F.CH_CAL_ABORT_COUNT c) (min (e.get (F.CH_CAL_ABORT_COUNT c) + 1) (2 ^ (F.CH_CAL_ABORT_COUNT c).len - 1)) dac4)
    unfold Dev.countSat
    generalize e.set (F.CH_CAL_ABORT_COUNT c) (min (e.get (F.CH_CAL_ABORT_COUNT c) + 1) (2 ^ (F.CH_CAL_ABORT_COUNT c).len - 1)) = e at *
    have k := k.trans (KeepC.set e (F.CH_CAL_ABORT_VALID c) 1 dac4)
    generalize e.set (F.CH_CAL_ABORT_VALID c) 1 = e at *
    have k := k.trans (KeepC.set e (F.CH_CAL_IRQ_STATUS_ABORT c) 1 dac2)
    generalize e.set (F.CH_CAL_IRQ_STATUS_ABORT c) 1 = e at *
    unfold Dev.restartCheck
    refine keep_ite ?_ ?_
    · exact (k.trans ((KeepC.modCal e c _).trans (KeepC.modCal _ c _))).trans (keep_hold _ c)
    · exact k.trans ((KeepC.modCal e c _).trans (KeepC.modCal _ c _))

theorem keep_preempt (d : Dev) (c : Fin 32) : KeepC c d (d.preempt c) := by
  unfold Dev.preempt
  split
  · exact keep_abort d c 7
  · exact KeepC.refl c d

/-- Channel `c` with its registers, pending and staged values dropped and its own state at reset. -/
def stripped (d : Dev) (c : Fin 32) : Dev :=
  ({ d with regs := dropChannel c d.regs, pend := d.pend.filter fun p => !inChannel c p.addr
            staged := d.staged.filter fun p => !inChannel c p.1 } : Dev).setCh c { Chan.reset with outs := (d.ch c).outs, hist := (d.ch c).hist, active := (d.ch c).active }

theorem cleared_eq (d : Dev) (c : Fin 32) : d.channelCleared c =
    (if d.get (F.CH_DAC_CTRL_RANGE c) ≠ ((stripped d c).roleMix c).get (F.CH_DAC_CTRL_RANGE c) then
      ((((stripped d c).roleMix c).preempt c).set (F.CH_DAC_STATUS_RANGING c) 1).modCal c fun k => { k with rangeEnd := ((stripped d c).roleMix c).ev.elapsed + 8000 }
    else (stripped d c).roleMix c).profileSync := by
  unfold Dev.channelCleared
  unfold stripped
  rfl

theorem cleared_keep (d : Dev) (c : Fin 32) : KeepC c (stripped d c) (d.channelCleared c) := by
  rw [cleared_eq]
  have k := keep_mix (stripped d c) c
  generalize (stripped d c).roleMix c = e at *
  refine KeepC.trans ?_ (KeepC.prof _)
  refine keep_ite ?_ k
  refine k.trans ((keep_preempt e c).trans ?_)
  generalize e.preempt c = e
  exact (KeepC.set e (F.CH_DAC_STATUS_RANGING c) 1 dac1).trans (KeepC.modCal _ c _)

theorem dropped_rd (c : Fin 32) (t : List (Nat × W32)) (a : Nat) :
    Tab.get regReset (dropChannel c t) a = if inChannel c a = true then regReset a else Tab.get regReset t a := by
  refine (get_filter regReset (fun a => !(0x2000000 + 0x100000 * c.val ≤ a && a < 0x2000000 + 0x100000 * (c.val + 1) &&
    match cardAt a with | some (card, _) => card.dom = .channel | none => false)) t a).trans ?_
  have e : inChannel c a = (0x2000000 + 0x100000 * c.val ≤ a && a < 0x2000000 + 0x100000 * (c.val + 1) &&
    match cardAt a with | some (card, _) => card.dom = .channel | none => false) := rfl
  rw [← e]
  by_cases h : inChannel c a = true
  · rw [if_neg (by rw [h]; decide), if_pos h]
  · rw [if_pos (by rw [Bool.not_eq_true] at h; rw [h]; rfl), if_neg h]

theorem stripped_rd (d : Dev) (c : Fin 32) (a : Nat) : (stripped d c).rd a = if inChannel c a = true then regReset a else d.rd a :=
  dropped_rd c d.regs a

theorem not_in {c : Fin 32} {a : Nat} (h : a < 0x2000000) : inChannel c a = false := by
  unfold inChannel
  rw [decide_eq_false (by omega)]; rfl

theorem started_eq {d : Dev} {c : Fin 32} (h : (d.ch c).active? = false) : d.startChReset c =
    { (((d.set F.DEV_RST_CH_GO 1).set F.DEV_RST_CH_CODE 1).set F.DEV_RST_CH_LAST c) with
      board := { d.board with rst := some c }, sec := { d.sec with challenge := none } } := by
  unfold Dev.startChReset
  dsimp only
  exact if_neg (by show ¬(d.ch c).active? = true; rw [h]; decide)

theorem active_eq {d : Dev} {c : Fin 32} (h : (d.ch c).active? = true) : d.startChReset c =
    ({ (((d.set F.DEV_RST_CH_GO 1).set F.DEV_RST_CH_CODE 1).set F.DEV_RST_CH_LAST c) with
      board := { d.board with rst := some c }, sec := { d.sec with challenge := none } } : Dev).stop c := by
  unfold Dev.startChReset
  dsimp only
  exact if_pos h

theorem step_go {d : Dev} {c : Fin 32} (h : d.board.rst = some c) (h1 : (d.ch c).quiet = true) (h2 : (d.ch c).parked = true) :
    d.chResetStep = (({ (d.channelCleared c) with board := { d.board with rst := none } } : Dev).set F.DEV_RST_CH_CODE 2).set F.DEV_RST_CH_GO 0 := by
  unfold Dev.chResetStep
  rw [h]
  dsimp only
  rw [if_pos (by rw [h1, h2]; rfl)]

theorem step_wait {d : Dev} {c : Fin 32} (h : d.board.rst = some c) (h1 : (d.ch c).quiet = false) (h2 : (d.ch c).stopB ≠ none) :
    d.chResetStep = d := by
  unfold Dev.chResetStep
  rw [h]
  dsimp only
  rw [if_neg (by rw [h1, Bool.false_and]; decide), if_neg]
  rw [Bool.and_eq_true]; rintro ⟨-, k⟩
  exact h2 (Option.isNone_iff_eq_none.1 k)

theorem reset_reads {e : Dev} {c : Fin 32} (t : Dev) (ht : t = (({ (e.channelCleared c) with board := { e.board with rst := none } } : Dev).set F.DEV_RST_CH_CODE 2).set F.DEV_RST_CH_GO 0) :
    t.ch c = { Chan.reset with outs := (e.ch c).outs, hist := (e.ch c).hist, active := (e.ch c).active } ∧ OtherChans e t c ∧ t.get F.DEV_RST_CH_CODE = 2 ∧
    t.get F.DEV_RST_CH_GO = 0 ∧ t.get F.DEV_RST_CH_LAST = e.get F.DEV_RST_CH_LAST ∧ t.board.rst = none ∧ t.sec = e.sec ∧
    t.pend = (e.pend.filter fun p => !inChannel c p.addr) ∧
    (∀ a, inChannel c a = true → a < R.CH_DAC_CTRL c → t.rd a = regReset a) ∧ t.mem = e.mem := by
  have k := cleared_keep e c
  generalize e.channelCleared c = X at *
  have kch : ∀ b, X.ch b = (stripped e c).ch b := fun b => by rw [k.eq]; rfl
  have kr : X.rd R.DEV_RST_CH = e.rd R.DEV_RST_CH := by
    rw [k.rd _ (by simp only [R.DEV_RST_CH, R.CH_DAC_CTRL]; omega) (by decide), stripped_rd, if_neg (by rw [not_in (by decide)]; decide)]
  have kg : ∀ f : Fld, f.addr = R.DEV_RST_CH → X.get f = e.get f := fun f hf => by unfold Dev.get; rw [hf, kr]
  have kb : ∀ (Y : Dev) b f, ({ Y with board := b } : Dev).get f = Y.get f := fun _ _ _ => rfl
  refine ⟨?_, fun b hb => ?_, ?_, ?_, ?_, ?_, ?_, ?_, fun a ha hl => ?_, ?_⟩
  · rw [ht]; show X.ch c = _; rw [kch]; exact Dev.setCh_ch_same _ _ _
  · rw [ht]; show X.ch b = _; rw [kch]; exact (Dev.setCh_ch_ne _ _ _ hb).trans rfl
  · rw [ht, Dev.get_set_bits (f := F.DEV_RST_CH_GO) (g := F.DEV_RST_CH_CODE) _ _ (by decide) rfl (by decide), Dev.get_set_same _ (by decide)]; rfl
  · rw [ht, Dev.get_set_same _ (by decide)]; rfl
  · rw [ht, Dev.get_set_bits (f := F.DEV_RST_CH_GO) (g := F.DEV_RST_CH_LAST) _ _ (by decide) rfl (by decide),
      Dev.get_set_bits (f := F.DEV_RST_CH_CODE) (g := F.DEV_RST_CH_LAST) _ _ (by decide) rfl (by decide), kb]
    exact kg _ rfl
  · rw [ht]; rfl
  · rw [ht]; show X.sec = _; rw [k.eq]; rfl
  · rw [ht]; show X.pend = _; rw [k.eq]; rfl
  · have h0 : 0x2000000 ≤ a := by
      by_contra h; rw [not_in (by omega)] at ha; cases ha
    rw [ht, Dev.rd_set_ne _ _ (by show a ≠ R.DEV_RST_CH; simp only [R.DEV_RST_CH]; omega), Dev.rd_set_ne _ _ (by show a ≠ R.DEV_RST_CH; simp only [R.DEV_RST_CH]; omega)]
    show X.rd a = _
    rw [k.rd a hl (by simp only [R.DEV_PROFILE]; omega), stripped_rd, if_pos ha]
  · rw [ht]; show X.mem = _; rw [k.eq]; rfl

theorem park_no {d : Dev} (h : ∃ c, (d.ch c).active? = true ∨ (d.ch c).faultB ≠ none ∨ (d.ch c).holds ≠ []) : d.parkAllCheck = d := by
  unfold Dev.parkAllCheck
  rw [if_neg]
  rw [Bool.and_eq_true, List.all_eq_true]
  rintro ⟨-, k⟩
  obtain ⟨c, hc⟩ := h
  have := k c (List.mem_finRange c)
  simp only [Bool.and_eq_true, Chan.parked, Bool.not_eq_true', Option.isNone_iff_eq_none, List.isEmpty_iff] at this
  rcases hc with hc | hc | hc
  · rw [hc] at this; exact absurd this.1 (by decide)
  · exact hc this.2.1
  · exact hc this.2.2

theorem park_yes {d : Dev} (h0 : d.flag F.DEV_CTRL_PARK_ALL = true) (h : ∀ c, (d.ch c).st = .idle ∧ (d.ch c).faultB = none ∧ (d.ch c).holds = [])
    (h1 : d.flag F.DEV_CTRL_PENDING = false) : d.parkAllCheck = d.set F.DEV_CTRL_PARK_ALL 0 := by
  unfold Dev.parkAllCheck
  rw [if_pos, if_neg (by rw [h1]; decide)]
  rw [h0, Bool.true_and, List.all_eq_true]
  intro c _
  unfold Chan.active? Chan.parked
  rw [(h c).1, (h c).2.1, (h c).2.2]; rfl

theorem flag_set (d : Dev) : (d.set F.DEV_CTRL_PARK_ALL 1).flag F.DEV_CTRL_PARK_ALL = true ∧ (d.set F.DEV_CTRL_PARK_ALL 1).flag F.DEV_CTRL_PENDING = d.flag F.DEV_CTRL_PENDING := by
  unfold Dev.flag
  rw [Dev.get_set_same _ (by decide), Dev.get_set_bits (f := F.DEV_CTRL_PARK_ALL) (g := F.DEV_CTRL_PENDING) _ _ (by decide) rfl (by decide)]
  exact ⟨rfl, rfl⟩

theorem park_all_eq {d : Dev} (h : d.flag F.DEV_CTRL_PARK_ALL = false) :
    d.parkAll = ((List.finRange 32).foldl (fun (d : Dev) c => if (d.ch c).active? then d.stop c else d) (d.set F.DEV_CTRL_PARK_ALL 1)).parkAllCheck :=
  if_neg (by rw [h]; decide)

end Sys2Proof.Laws
end

