-- ==== Sys2Proof/Laws/EventTime.lean ====
section
/-! SUPPORT. Timers, edges, frames and device time. -/

set_option Elab.async false

namespace Sys2Proof.Laws

open Sys2Proof.Machine Sys2Proof.Claims

theorem tmr_eq (d : Dev) (i : Fin 8) : d.tmrStep i = Claims.counted d i := by
  unfold Dev.tmrStep Claims.counted Dev.tmrLeft
  dsimp only
  generalize hE : ({ d with ev := { d.ev with tmrNext := d.ev.tmrNext.set i (d.ev.tmrNext[i] + 1) } } : Dev) = e
  have g1 : e.get (F.EVT_TMR_PERIOD_PERIOD i) = d.get (F.EVT_TMR_PERIOD_PERIOD i) := by rw [← hE]; rfl
  have g2 : e.get (F.EVT_TMR_CTRL_COUNT i) = d.get (F.EVT_TMR_CTRL_COUNT i) := by rw [← hE]; rfl
  rw [g1, g2]
  by_cases h : d.get (F.EVT_TMR_PERIOD_PERIOD i) ≠ 0 ∧ d.get (F.EVT_TMR_CTRL_COUNT i) = 0
  · rw [if_pos h, if_pos (by simp [h.1, h.2])]
  · rw [if_neg h, if_neg (by simpa using h)]
    unfold Dev.setIf
    generalize (if d.get (F.EVT_TMR_PERIOD_PERIOD i) = 0 then 1 else d.get (F.EVT_TMR_CTRL_COUNT i)) - (d.ev.tmrNext[i] + 1) = left
    by_cases hl : left = 0
    · rw [if_pos hl, if_pos (by simpa using hl), hl]
    · rw [if_neg hl, if_neg (by simpa using hl)]

theorem timerEn_off (d : Dev) (i : Fin 8) : d.timerEn i false = (((d.set (F.EVT_TMR_CTRL_EN i) 0).withdrawFiring i).set (F.EVT_TMR_STAT_RUNNING i) 0).set (F.EVT_TMR_STAT_LEFT i) 0 := by
  unfold Dev.timerEn
  exact if_pos rfl

theorem timerEn_run (d : Dev) (i : Fin 8) (h : (d.set (F.EVT_TMR_CTRL_EN i) 1).flag (F.EVT_TMR_STAT_RUNNING i) = true) : d.timerEn i true = d.set (F.EVT_TMR_CTRL_EN i) 1 := by
  unfold Dev.timerEn
  exact (if_neg (by decide)).trans (if_pos h)

theorem timerEn_on (d : Dev) (i : Fin 8) (h : (d.set (F.EVT_TMR_CTRL_EN i) 1).flag (F.EVT_TMR_STAT_RUNNING i) = false) (e : Dev)
    (he : e = ((d.set (F.EVT_TMR_CTRL_EN i) 1).set (F.EVT_TMR_STAT_RUNNING i) 1).set (F.EVT_TMR_STAT_LEFT i) ((d.set (F.EVT_TMR_CTRL_EN i) 1).tmrLeft i)) :
    d.timerEn i true = { e with ev := { e.ev with tmrNext := e.ev.tmrNext.set i 0, tmrStart := e.ev.tmrStart.set i e.ev.dt } } := by
  subst he
  have hb : bit true = 1 := rfl
  unfold Dev.timerEn
  dsimp only
  rw [hb, if_neg (by decide), if_neg (by rw [h]; decide)]

theorem fire_eq (d : Dev) (i : Fin 8) : d.timerFire i =
    if !d.flag (F.EVT_TMR_STAT_RUNNING i) || !d.ev.counting || !(d.rdTick (R.EVT_TMR_CTRL i)).getLsbD 0 then d
    else if ((d.get64 (R.EVT_TMR_START i 0) + tk (d.ev.tmrNext[i] * d.get (F.EVT_TMR_PERIOD_PERIOD i))) - d.ev.tmrStart[i]).toNat < 32 ||
      2 ^ 63 ≤ ((d.get64 (R.EVT_TMR_START i 0) + tk (d.ev.tmrNext[i] * d.get (F.EVT_TMR_PERIOD_PERIOD i))) - d.ev.tmrStart[i]).toNat then
      ((d.tmrStep i).set (F.EVT_TMR_STAT_LATE i) 1).set F.EVT_IRQ_STATUS_TMR_LATE 1
    else if notAfter (d.get64 (R.EVT_TMR_START i 0) + tk (d.ev.tmrNext[i] * d.get (F.EVT_TMR_PERIOD_PERIOD i))) d.ev.dt then
      (d.emit (BitVec.ofNat 8 (d.get (F.EVT_TMR_CTRL_CODE i))) (d.get64 (R.EVT_TMR_START i 0) + tk (d.ev.tmrNext[i] * d.get (F.EVT_TMR_PERIOD_PERIOD i))) 0 2 (BitVec.ofNat 16 i.val) false
        (d.get64 (R.EVT_TMR_START i 0) + tk (d.ev.tmrNext[i] * d.get (F.EVT_TMR_PERIOD_PERIOD i)))).tmrStep i
    else d := rfl

theorem tmr_addr (i : Fin 8) : R.EVT_TMR_PERIOD i ≠ R.EVT_TMR_STAT i ∧ R.EVT_TMR_PERIOD i ≠ R.EVT_TMR_CTRL i ∧ R.EVT_TMR_CTRL i ≠ R.EVT_TMR_STAT i := by
  simp only [R.EVT_TMR_PERIOD, R.EVT_TMR_STAT, R.EVT_TMR_CTRL]; omega

theorem startEv_eq (d : Dev) : d.startHostEv =
    if !d.flag F.EVT_HOST_EV_AT then (d.emit (BitVec.ofNat 8 (d.get F.EVT_HOST_EV_CODE)) d.ev.dt 0 4 0 false d.ev.dt).hostEvEnds 2
    else if 32 ≤ (d.get64 (R.EVT_HOST_T 0) - d.ev.dt).toNat && (d.get64 (R.EVT_HOST_T 0) - d.ev.dt).toNat < 2 ^ 63 then
      { ((d.set F.EVT_HOST_STATUS_CODE 1).set F.EVT_HOST_EV_GO 1) with ev := { d.ev with hostEv := some (BitVec.ofNat 8 (d.get F.EVT_HOST_EV_CODE), d.get64 (R.EVT_HOST_T 0)) } }
    else d.hostEvEnds 5 := rfl

theorem emit_eq {d : Dev} (h : d.ev.counting = true) (code : BitVec 8) (t : Tick) (m k : BitVec 4) (idx : BitVec 16) (late : Bool) (fa : Tick) :
    d.emit code t m k idx late fa = ({ d with ev := { d.ev with frames := (mergeFrame ⟨code, t, m, k, idx, d.coasting, late, fa, false, 0, [⟨m, k, idx, d.coasting, late, fa⟩]⟩ d.ev.frames).1 } } : Dev).count64 (R.EVT_CNT 1 0)
      (bit (mergeFrame ⟨code, t, m, k, idx, d.coasting, late, fa, false, 0, [⟨m, k, idx, d.coasting, late, fa⟩]⟩ d.ev.frames).2) := by
  unfold Dev.emit
  rw [if_neg (by rw [h]; decide)]

theorem merge_none (e : FrameEv) : ∀ fs : List FrameEv, (∀ f ∈ fs, f.code = e.code → f.stamp = e.stamp → f.closed = true) → mergeFrame e fs = (fs ++ [e], false) := by
  intro fs
  induction fs with
  | nil => intro _; rfl
  | cons f fs ih =>
    intro h
    unfold mergeFrame
    rw [ih fun g hg => h g (List.mem_cons_of_mem _ hg), if_neg]
    · rfl
    · intro k
      simp only [Bool.and_eq_true, decide_eq_true_eq, Bool.not_eq_true'] at k
      have := h f (List.mem_cons_self ..) k.1.1 k.1.2
      rw [this] at k; cases k.2

theorem merge_some (e : FrameEv) : ∀ fs : List FrameEv, (∃ f ∈ fs, f.code = e.code ∧ f.stamp = e.stamp ∧ f.closed = false) → (mergeFrame e fs).2 = true ∧ (mergeFrame e fs).1.length = fs.length := by
  intro fs
  induction fs with
  | nil => rintro ⟨f, hf, -⟩; cases hf
  | cons f fs ih =>
    rintro ⟨g, hg, h⟩
    unfold mergeFrame
    split
    · exact ⟨rfl, rfl⟩
    · next k =>
      rcases List.mem_cons.1 hg with rfl | hg
      · exact absurd (by simp [h]) k
      · have := ih ⟨g, hg, h⟩
        exact ⟨this.1, by simp [this.2]⟩

/-- The pins of the tick noted; the rest of the device is untouched (R415). -/
def pinned (d : Dev) (i : Fin 16) (high : Bool) (m : Fin 16) (held : Nat) : Dev :=
  { d with ev := d.ev.pinEdge i high (d.flag (F.EVT_TRIG_CFG_EN i) && d.ev.trig.getLsbD i ≠ high && held < d.get (F.EVT_TRIG_CFG_MINW i) + 1) m held }

/-- The qualified level of a pin noted (R252). -/
def levelled (d : Dev) (i : Fin 16) (high : Bool) : Dev := { d with ev := { d.ev with trig := setLevel d.ev.trig i high } }

/-- What TRIG_EDGE does: nothing but the pins, the level alone, a suppressed edge, or an event. -/
theorem trig_eq (d : Dev) (i : Fin 16) (high : Bool) (m : Fin 16) (held : Nat) (late : Bool) (p q r : Dev)
    (hp : p = pinned d i high m held) (hq : q = levelled p i high)
    (hr : r = ((({ q with ev := { q.ev with trigLast := q.ev.trigLast.set i (some p.ev.dt) } } : Dev).countMod (F.EVT_TRIG_CNT_EVENTS i)).wr (R.EVT_TRIG_LAST i 0) (p.ev.dt.setWidth 32))) :
    d.trigEdge i high m held late =
    if p.ev.trig.getLsbD i = high then p
    else if d.flag (F.EVT_TRIG_CFG_EN i) && held < p.get (F.EVT_TRIG_CFG_MINW i) + 1 then p
    else if !d.flag (F.EVT_TRIG_CFG_EN i) || !q.ev.counting || !edgeSelected (q.get (F.EVT_TRIG_CFG_EDGE i)) high then q
    else if (match p.ev.trigLast[i] with | some l => decide ((p.ev.dt - l).toNat ≤ q.get (F.EVT_TRIG_CFG_HOLDOFF i)) | none => false) then
      q.countSat (F.EVT_TRIG_CNT_SUPPRESSED i)
    else
      (r.wr (R.EVT_TRIG_LAST i 1) (BitVec.ofNat 32 (m.val + 16 * bit r.coasting + 32))).emit
        (BitVec.ofNat 8 ((r.wr (R.EVT_TRIG_LAST i 1) (BitVec.ofNat 32 (m.val + 16 * bit r.coasting + 32))).get (F.EVT_TRIG_CFG_CODE i))) p.ev.dt
        (BitVec.ofNat 4 m.val) 0 (BitVec.ofNat 16 i.val) false (p.ev.dt + if late then 3 else 2) := by
  subst hr hq hp; rfl

theorem trig_addr (i : Fin 16) : R.EVT_TRIG_CFG i ≠ R.EVT_TRIG_CNT i ∧ R.EVT_TRIG_CFG i ≠ R.EVT_TRIG_LAST i 0 ∧ R.EVT_TRIG_CFG i ≠ R.EVT_TRIG_LAST i 1 ∧
    R.CLK_SPLL_STATUS ≠ R.EVT_TRIG_CNT i ∧ R.CLK_SPLL_STATUS ≠ R.EVT_TRIG_LAST i 0 := by
  have := i.isLt
  simp only [R.EVT_TRIG_CFG, R.EVT_TRIG_CNT, R.EVT_TRIG_LAST, R.CLK_SPLL_STATUS]; omega

theorem get_wr_reg (d : Dev) {a : Nat} (w : W32) (f : Fld) (h : f.addr ≠ a) : (d.wr a w).get f = d.get f := by
  unfold Dev.get; rw [Dev.rd_wr_ne _ _ h]

theorem logWrite_eq {d : Dev} {e : FrameEv} {rest : List FrameEv} (h : d.ev.log = e :: rest) : d.logWrite =
    if d.ctxBad (d.get F.EVT_LOG_CFG_RING) then d.ctxError (d.get F.EVT_LOG_CFG_RING) else if d.ev.logAt = some d.ev.elapsed || !d.liveKind (d.get F.EVT_LOG_CFG_RING) 4 || d.ringFull (d.get F.EVT_LOG_CFG_RING) || d.recordHeld (d.get F.EVT_LOG_CFG_RING) (d.prod (d.get F.EVT_LOG_CFG_RING)) then d
    else ({ d with ev := { d.ev with log := rest, logAt := some d.ev.elapsed } } : Dev).putRecord (d.get F.EVT_LOG_CFG_RING) (eventRecord e) := by
  unfold Dev.logWrite; dsimp only; rw [h]

theorem wakeTick_eq (d : Dev) (c : Fin 32) (f : FrameEv) : (d.presentAt c f).1 = (if d.fast c then f.fastAt + 1 else f.stamp + 24) + (if (d.presentAt c f).2 then 8 else 0) := by
  unfold Dev.presentAt
  by_cases h : d.fast c = true
  · rw [if_pos h, if_pos h]; dsimp only
    unfold wakeDelay
    split <;> rfl
  · rw [if_neg h, if_neg h]; dsimp only
    unfold wakeDelay
    split <;> rfl

/-- The device with an event marked as presented to a channel. -/
def marked (d : Dev) (c : Fin 32) (code : BitVec 8) (stamp : Tick) : Dev :=
  { d with ev := ({ d.ev with frames := d.ev.frames.map fun g => if g.code = code && g.stamp = stamp then
      { g with presented := g.presented ||| BitVec.twoPow 32 c.val } else g } : Events).purge }

theorem present_eq {d : Dev} {c : Fin 32} {code : BitVec 8} {stamp : Tick} {f : FrameEv} (h : (d.ev.frames.find? fun f => f.code = code && f.stamp = stamp) = some f) :
    d.eventPresent c code stamp = if f.presented.getLsbD c || !(f.closed || d.fast c) || !notAfter (d.presentAt c f).1 d.ev.dt then d
      else if d.passes c code then ((marked d c code stamp).eventWake (cluster c)).storeEvent c ⟨code, stamp, d.ev.dt, (d.presentAt c f).2⟩
      else marked d c code stamp := by
  unfold Dev.eventPresent; rw [h]
  rfl

theorem find_head {fs rest : List FrameEv} {f : FrameEv} {code : BitVec 8} {stamp : Tick} (hf : fs = f :: rest) (h1 : f.code = code) (h2 : f.stamp = stamp) :
    (fs.find? fun f => f.code = code && f.stamp = stamp) = some f := by
  rw [hf, List.find?_cons_of_pos]; rw [h1, h2]; simp

theorem present_no {d : Dev} {c : Fin 32} {f : FrameEv} {tick : Tick} (ht : tick = (if d.fast c then f.fastAt + 1 else f.stamp + 24) + (if (d.presentAt c f).2 then 8 else 0))
    (h : f.presented.getLsbD c = false) (h3 : f.closed = true ∨ d.fast c = true) (h4 : notAfter tick d.ev.dt = true) :
    ¬(f.presented.getLsbD c || !(f.closed || d.fast c) || !notAfter (d.presentAt c f).1 d.ev.dt) = true := by
  rw [wakeTick_eq, ← ht, h, h4]
  rcases h3 with h3 | h3 <;> rw [h3] <;> simp

/-- Neither device time nor a memory moves. -/
def Still (d t : Dev) : Prop := t.ev = d.ev ∧ t.mem = d.mem

theorem Still.refl (d : Dev) : Still d d := ⟨rfl, rfl⟩

theorem Still.trans {d e t : Dev} (h : Still d e) (h2 : Still e t) : Still d t := ⟨h2.1.trans h.1, h2.2.trans h.2⟩

theorem Still.count (d : Dev) (a n : Nat) : Still d (d.count64 a n) := by
  unfold Dev.count64; split
  · exact Still.refl d
  · exact ⟨rfl, rfl⟩

theorem Still.setIf (d : Dev) (b : Bool) (f : Fld) (v : Nat) : Still d (d.setIf b f v) := by
  unfold Dev.setIf; split
  · exact ⟨rfl, rfl⟩
  · exact Still.refl d

theorem Still.setCh (d : Dev) (c : Fin 32) (x : Chan) : Still d (d.setCh c x) := ⟨rfl, rfl⟩

theorem Still.ite {d e t : Dev} {p : Prop} [Decidable p] (h1 : Still d e) (h2 : Still d t) : Still d (if p then e else t) := by split <;> assumption

theorem Still.foldl {α : Type} (f : Dev → α → Dev) (h : ∀ d x, Still d (f d x)) : ∀ (l : List α) (d : Dev), Still d (l.foldl f d) := by
  intro l
  induction l with
  | nil => intro d; exact Still.refl d
  | cons a l ih => intro d; rw [List.foldl_cons]; exact (h d a).trans (ih _)

theorem still_render (d : Dev) (c : Fin 32) : Still d (d.renderTick c) := by
  unfold Dev.renderTick
  dsimp only
  refine Still.ite (Still.ite (Still.refl d) (Still.setCh d c _)) ?_
  refine Still.trans ?_ (Still.setIf _ _ _ _)
  refine Still.trans ?_ (Still.setIf _ _ _ _)
  refine Still.trans ?_ (Still.setIf _ _ _ _)
  refine Still.trans ?_ (Still.count _ _ _)
  refine Still.trans ?_ (Still.count _ _ _)
  refine Still.trans ?_ (Still.count _ _ _)
  exact Still.setCh d c _

theorem still_end (d : Dev) (c : Fin 32) : Still d (d.endTick c) := by
  unfold Dev.endTick
  have k := still_render d c
  generalize d.renderTick c = e at *
  dsimp only
  have k2 : Still d (if (decide ((e.ch c).st = ChSt.run) && decide ((e.ch c).stall ≠ Stall.none)) = true then e.count64 (R.CH_SEQ_CNT c 1 0) 2 else e) :=
    Still.ite (k.trans (Still.count _ _ _)) k
  refine Still.ite ?_ k2
  exact k2.trans (Still.setCh _ c _)

theorem load_ok (d : Dev) : d.mayLoad = true ↔ (d.ev.counting = true ∧ (∀ c, (d.ch c).st = .idle) ∧ (∀ i, i < 8 → d.flag (F.EVT_TMR_STAT_RUNNING i) = false) ∧
      d.ev.hostEv = none ∧ d.get F.ABACUS_STATUS_CODE ≠ 1 ∧ d.get F.LINK_STATUS_STATE = 0) := by
  unfold Dev.mayLoad Dev.linkState
  simp only [Bool.and_eq_true, List.all_eq_true, decide_eq_true_eq, Option.isNone_iff_eq_none, List.mem_range, Bool.not_eq_true', and_assoc]
  constructor
  · rintro ⟨a, b, c, d1, e, f⟩; exact ⟨a, fun x => b x (List.mem_finRange x), c, d1, e, f⟩
  · rintro ⟨a, b, c, d1, e, f⟩; exact ⟨a, fun x _ => b x, c, d1, e, f⟩

theorem enter_cons {d : Dev} {e : HeldEv} {rest : List HeldEv} (h : d.link.hold = e :: rest) (h1 : notAfter e.target d.ev.dt = true) :
    d.arrayEventEnter = (({ d with link := { d.link with hold := rest } } : Dev).emit e.code e.target 0 6 (BitVec.ofNat 16 (portIdx e.port)) false d.ev.dt).arrayStop e.code := by
  unfold Dev.arrayEventEnter
  rw [h, List.find?_cons_of_pos (by exact h1)]
  dsimp only
  rw [List.erase_cons_head]

theorem hostEv_eq (d : Dev) : d.linkHostEv = if d.linkState < 2 then (d.set F.LINK_HOST_EV_CODE_ST 6).set F.LINK_IRQ_STATUS_HOST 1
    else if 160 ≤ (d.get64 (R.LINK_HOST_T 0) - d.ev.dt).toNat && (d.get64 (R.LINK_HOST_T 0) - d.ev.dt).toNat < 2 ^ 22 then
      ((d.arrayEvent (BitVec.ofNat 8 (d.get F.LINK_HOST_EV_CODE)) (d.get64 (R.LINK_HOST_T 0))).set F.LINK_HOST_EV_CODE_ST 2).set F.LINK_IRQ_STATUS_HOST 1
    else (d.set F.LINK_HOST_EV_CODE_ST 5).set F.LINK_IRQ_STATUS_HOST 1 := rfl

end Sys2Proof.Laws
end

