-- ==== Sys2Proof/Laws/Units.lean ====
section
/-! SUPPORT. Memory units: writes, reads, poison, windows. -/

set_option Elab.async false

namespace Sys2Proof.Laws

open Sys2Proof.Machine Sys2Proof.Claims

theorem units_mem {u a n x : Nat} (hu : 0 < u) : x ∈ unitsOf u a n ↔ x % u = 0 ∧ x < a + n ∧ a < x + u ∧ 0 < n := by
  unfold unitsOf
  split
  · next h => subst h; simp
  · next h =>
    simp only [List.mem_map, List.mem_range]
    constructor
    · rintro ⟨i, hi, rfl⟩
      have h1 : a / u + i ≤ (a + n - 1) / u := by omega
      have h2 : (a / u + i) * u ≤ a + n - 1 := le_trans (Nat.mul_le_mul_right u h1) (Nat.div_mul_le_self _ _)
      have h3 : a < (a / u + 1) * u := by
        rw [Nat.add_mul, one_mul, Nat.mul_comm]; exact Nat.lt_mul_div_succ a hu |>.trans_eq (by rw [Nat.mul_add, mul_one])
      have h4 : (a / u + 1) * u ≤ (a / u + i) * u + u := by rw [← Nat.succ_mul]; exact Nat.mul_le_mul_right u (by omega)
      refine ⟨Nat.mul_mod_left _ _, by omega, by omega, by omega⟩
    · rintro ⟨h1, h2, h3, h4⟩
      obtain ⟨q, rfl⟩ := Nat.dvd_of_mod_eq_zero h1
      have h5 : a / u ≤ q := by
        rw [← Nat.lt_succ_iff, Nat.div_lt_iff_lt_mul hu]; rw [Nat.succ_mul, Nat.mul_comm]; exact h3
      have h6 : q ≤ (a + n - 1) / u := by rw [Nat.le_div_iff_mul_le hu, Nat.mul_comm]; omega
      exact ⟨q - a / u, by omega, by rw [show a / u + (q - a / u) = q by omega, Nat.mul_comm]⟩

theorem units_nodup {u a n : Nat} (hu : 0 < u) : (unitsOf u a n).Nodup := by
  unfold unitsOf
  split
  · exact List.nodup_nil
  · refine List.Nodup.map (fun i j h => ?_) List.nodup_range
    have := Nat.eq_of_mul_eq_mul_right hu h
    omega

theorem floor_iff {u y x : Nat} (hu : 0 < u) (hy : y % u = 0) : x / u * u = y ↔ y ≤ x ∧ x < y + u := by
  obtain ⟨q, rfl⟩ := Nat.dvd_of_mod_eq_zero hy
  rw [Nat.mul_comm u q]
  constructor
  · intro h
    have := Nat.eq_of_mul_eq_mul_right hu h
    subst this
    exact ⟨Nat.div_mul_le_self _ _, by rw [← Nat.succ_mul, Nat.mul_comm]; exact Nat.lt_mul_div_succ x hu⟩
  · rintro ⟨h1, h2⟩
    have : x / u = q := Nat.div_eq_of_lt_le h1 (by rw [Nat.succ_mul]; exact h2)
    rw [this]

/-- One unit of a write. -/
def oneUnit (u a : Nat) (bs : List Byte) (m : Store) (x : Nat) : Store :=
  let lo := max a x
  let hi := min (a + bs.length) (x + u)
  let part := (bs.drop (lo - a)).take (hi - lo)
  if hi - lo = u then
    { m.write lo part with ce := m.ce.filter (· ≠ x), ue := m.ue.filter (· ≠ x), poison := m.poison.filter (· ≠ x) }
  else if m.poison.contains x || m.ue.contains x then m
  else m.write lo part

theorem bad_or (m : Store) (x : Nat) : (m.poison.contains x || m.ue.contains x) = m.bad x := by
  unfold Store.bad; rw [Bool.or_comm]

theorem part_byte (m : Store) {u a y x : Nat} (bs : List Byte) (h1 : y < a + bs.length) (h2 : a < y + u) :
    (m.write (max a y) ((bs.drop (max a y - a)).take (min (a + bs.length) (y + u) - max a y))).byte x =
      if a ≤ x ∧ x < a + bs.length ∧ y ≤ x ∧ x < y + u then bs.getD (x - a) 0 else m.byte x := by
  rw [Store.byte_write, List.length_take, List.length_drop]
  by_cases h : a ≤ x ∧ x < a + bs.length ∧ y ≤ x ∧ x < y + u
  · rw [if_pos h, if_pos (by omega)]
    rw [List.getD_eq_getElem?_getD, List.getD_eq_getElem?_getD, List.getElem?_take_of_lt (by omega), List.getElem?_drop]
    congr 2; omega
  · rw [if_neg h, if_neg (by omega)]

theorem unit_byte (m : Store) {u a y x : Nat} (bs : List Byte) (h1 : y < a + bs.length) (h2 : a < y + u) :
    (oneUnit u a bs m y).byte x = if a ≤ x ∧ x < a + bs.length ∧ y ≤ x ∧ x < y + u ∧
      (m.bad y = false ∨ (a ≤ y ∧ y + u ≤ a + bs.length)) then bs.getD (x - a) 0 else m.byte x := by
  unfold oneUnit; dsimp only
  split
  · next h =>
    have hw : a ≤ y ∧ y + u ≤ a + bs.length := by omega
    exact (part_byte m bs h1 h2).trans (if_congr (by simp [hw]) rfl rfl)
  · next h =>
    have hw : ¬(a ≤ y ∧ y + u ≤ a + bs.length) := by omega
    rw [bad_or]
    split
    · next hb => rw [if_neg]; simp [hb, hw]
    · next hb => exact (part_byte m bs h1 h2).trans (if_congr (by simp [hb, hw]) rfl rfl)

theorem unit_bad (m : Store) {u a y x : Nat} (bs : List Byte) (hu : 0 < u) (h1 : y < a + bs.length) (_h2 : a < y + u) :
    (oneUnit u a bs m y).bad x = (m.bad x && !decide (x = y ∧ a ≤ y ∧ y + u ≤ a + bs.length)) := by
  unfold oneUnit; dsimp only
  split
  · next h =>
    have hw : a ≤ y ∧ y + u ≤ a + bs.length := by omega
    have f (l : List Nat) : (l.filter (· ≠ y)).contains x = (l.contains x && !decide (x = y)) := by
      rw [Bool.eq_iff_iff]; simp
    simp only [Store.bad, f, hw, and_true, Bool.and_or_distrib_right]
  · next h =>
    have hw : ¬(a ≤ y ∧ y + u ≤ a + bs.length) := by omega
    have : decide (x = y ∧ a ≤ y ∧ y + u ≤ a + bs.length) = false := by simp [hw]
    rw [this, Bool.not_false, Bool.and_true]
    split <;> rfl

theorem fold_units {u a : Nat} (bs : List Byte) (hu : 0 < u) : ∀ (l : List Nat) (m : Store), l.Nodup →
    (∀ y ∈ l, y % u = 0 ∧ y < a + bs.length ∧ a < y + u) →
    (∀ x, (l.foldl (oneUnit u a bs) m).byte x =
      if a ≤ x ∧ x < a + bs.length ∧ x / u * u ∈ l ∧ (m.bad (x / u * u) = false ∨ (a ≤ x / u * u ∧ x / u * u + u ≤ a + bs.length))
      then bs.getD (x - a) 0 else m.byte x) ∧
    (∀ x, (l.foldl (oneUnit u a bs) m).bad x = (m.bad x && !decide (x ∈ l ∧ a ≤ x ∧ x + u ≤ a + bs.length))) := by
  intro l
  induction l with
  | nil => intro m _ _; simp
  | cons y l ih =>
    intro m hn hl
    obtain ⟨hy1, hy2, hy3⟩ := hl y (List.mem_cons_self ..)
    rw [List.nodup_cons] at hn
    obtain ⟨i1, i2⟩ := ih (oneUnit u a bs m y) hn.2 fun z hz => hl z (List.mem_cons_of_mem _ hz)
    constructor
    · intro x
      rw [List.foldl_cons, i1, unit_byte m bs hy2 hy3, unit_bad m bs hu hy2 hy3]
      by_cases hx : x / u * u = y
      · have hy := (floor_iff hu hy1).1 hx
        rw [if_neg (by rw [hx]; exact fun h => hn.1 h.2.2.1)]
        refine if_congr ?_ rfl rfl
        rw [hx]
        simp [hy]
      · have hy : ¬(y ≤ x ∧ x < y + u) := fun h => hx ((floor_iff hu hy1).2 h)
        rw [if_neg (by tauto : ¬(a ≤ x ∧ x < a + bs.length ∧ y ≤ x ∧ x < y + u ∧ _))]
        refine if_congr ?_ rfl rfl
        simp [hx]
    · intro x
      rw [List.foldl_cons, i2, unit_bad m bs hu hy2 hy3]
      by_cases hx : x = y
      · subst hx; simp [hn.1]
      · simp [hx]

theorem wrote (m : Store) {u : Nat} (a : Nat) (bs : List Byte) (hu : 0 < u) : Claims.Wrote m (m.writeUnits u a bs) u a bs := by
  obtain ⟨h1, h2⟩ := fold_units (a := a) bs hu (unitsOf u a bs.length) m (units_nodup hu) fun y hy => by
    obtain ⟨a1, a2, a3, _⟩ := (units_mem hu).1 hy; exact ⟨a1, a2, a3⟩
  constructor
  · intro x
    refine (h1 x).trans ?_
    unfold Claims.written
    refine if_congr ?_ rfl rfl
    have hf := (floor_iff (x := x) hu (Nat.mul_mod_left (x / u) u)).1 rfl
    constructor
    · rintro ⟨a1, a2, a3, a4⟩; exact ⟨a1, a2, a4⟩
    · rintro ⟨a1, a2, a3⟩; exact ⟨a1, a2, (units_mem hu).2 ⟨Nat.mul_mod_left _ _, by omega, by omega, by omega⟩, a3⟩
  · intro x hx
    refine (h2 x).trans ?_
    congr 2
    rw [decide_eq_decide, units_mem hu]
    constructor
    · rintro ⟨_, a1⟩; exact a1
    · rintro ⟨a1, a2⟩; exact ⟨⟨hx, by omega, by omega, by omega⟩, a1, a2⟩

/-- Registers outside waveform memory's. -/
def Far (r : Nat) : Prop := (r < 0x100000 ∨ 0x180100 ≤ r) ∧ r ≠ R.CLK_RUN 0

/-- Waveform-memory traffic: what may differ. -/
structure KeepM (d t : Dev) : Prop where
  rd : ∀ a, Far a → t.rd a = d.rd a
  eq : t = { d with regs := t.regs, hbm := t.hbm, clk := t.clk, mem := { d.mem with hbm := t.mem.hbm } }

theorem KeepM.refl (d : Dev) : KeepM d d := ⟨fun _ _ => rfl, rfl⟩

theorem KeepM.trans {d e t : Dev} (h : KeepM d e) (h2 : KeepM e t) : KeepM d t :=
  ⟨fun a ha => (h2.rd a ha).trans (h.rd a ha), by rw [h2.eq, h.eq]⟩

theorem KeepM.set (d : Dev) {f : Fld} (v : Nat) (h : ¬Far f.addr) : KeepM d (d.set f v) :=
  ⟨fun _ ha => Dev.rd_set_ne d v (fun k => h (k ▸ ha)), rfl⟩

theorem KeepM.wr (d : Dev) {r : Nat} (v : W32) (h : ¬Far r) : KeepM d (d.wr r v) :=
  ⟨fun _ ha => Dev.rd_wr_ne d v (fun k => h (k ▸ ha)), rfl⟩

theorem KeepM.count64 (d : Dev) {lo : Nat} (n : Nat) (h : ¬Far lo) (h2 : ¬Far (lo + 4)) : KeepM d (d.count64 lo n) := by
  unfold Dev.count64
  split
  · exact KeepM.refl d
  · exact ⟨fun a ha => Dev.set64_rd_ne d _ (fun k => h (k ▸ ha)) (fun k => h2 (k ▸ ha)), rfl⟩

theorem KeepM.get {d t : Dev} (h : KeepM d t) (f : Fld) (hf : Far f.addr) : t.get f = d.get f := by
  unfold Dev.get; rw [h.rd _ hf]

theorem KeepM.runs (d : Dev) (n : Nat) (b : Bool) (h : (n - 1) / 32 = 0) : KeepM d (d.setRuns n b) := by
  refine ⟨fun a ha => Dev.rd_set_ne d (f := ⟨R.CLK_RUN ((n - 1) / 32), (n - 1) % 32, 1⟩) (bit b) (fun k => ?_), rfl⟩
  have : a = R.CLK_RUN 0 := by rw [← h]; exact k
  exact ha.2 this

theorem KeepM.fenced {d t : Dev} (h : KeepM d t) (u : Nat) : t.fencedAt u = d.fencedAt u := by
  have hp (p : Nat) : t.pcState p = d.pcState p := h.get _ ⟨Or.inr (Nat.le_add_right _ _), by show 0x180100 + 4 * p ≠ 0x10060; omega⟩
  have hm : t.mapped = d.mapped := by unfold Dev.mapped; simp only [hp]
  unfold Dev.fencedAt Dev.pcOf
  rw [hm, hp]

theorem traffic {d t : Dev} (h : KeepM d t) : Claims.MemoryTraffic d t.follow := by
  refine ⟨?_, ?_, ?_, ?_⟩
  · intro e; rw [Dev.follow_ch, h.eq]; rfl
  · show t.mem = { d.mem with hbm := t.mem.hbm }
    rw [h.eq]
  · intro r hr h0; exact h.rd r ⟨hr, h0⟩
  · rw [h.eq]; exact ⟨rfl, rfl, rfl, rfl, rfl, rfl, rfl, rfl, rfl, rfl, rfl, rfl, rfl, rfl, rfl, rfl, rfl, rfl⟩

theorem near {r : Nat} (h : 0x100000 ≤ r) (h2 : r < 0x180100) : ¬Far r := fun k => by rcases k.1 with a | a <;> omega

theorem pc_lt (d : Dev) (u : Nat) : (mapAddr d.mapped u).1 < 128 := by
  unfold mapAddr
  dsimp only
  generalize (_ : Nat) % _ = i
  rw [List.getD_eq_getElem?_getD]
  by_cases h : i < d.mapped.length
  · rw [List.getElem?_eq_getElem h, Option.getD_some]
    exact List.mem_range.1 (List.mem_of_mem_filter (List.getElem_mem h))
  · rw [List.getElem?_eq_none (by omega)]; decide

theorem keep_wake (d : Dev) {s : Nat} (hs : s < 4) : KeepM d (d.wakeStack s) := by
  unfold Dev.wakeStack
  split
  · refine KeepM.trans (KeepM.set d 2 (near ?_ ?_)) ((KeepM.runs _ _ _ (by omega)).trans (KeepM.runs _ _ _ (by omega)))
    · show 0x100000 ≤ 0x100000 + 0x10000 * s; omega
    · show 0x100000 + 0x10000 * s < _; omega
  · exact KeepM.refl d

theorem keep_request (d : Dev) (u n m : Nat) (hm : m < 2) : KeepM d (d.request u n m) := by
  unfold Dev.request
  dsimp only
  have hp := pc_lt d u
  generalize (mapAddr d.mapped u).1 = p at *
  have hb (b : Bool) : bit b < 2 := by cases b <;> decide
  refine (keep_wake d (s := p / 32) (by omega)).trans (KeepM.trans ?_ ((KeepM.count64 _ _ (near ?_ ?_) (near ?_ ?_)).trans (KeepM.count64 _ _ (near ?_ ?_) (near ?_ ?_))))
  rotate_left
  · show 0x100000 ≤ 0x100010 + 0x10000 * _ + 8 * _ + 4 * 0; omega
  · show 0x100010 + 0x10000 * (p / 32) + 8 * _ + 4 * 0 < _
    have := hb (!(List.contains (d.wakeStack (p / 32)).hbm.pages (32 * p + (mapAddr d.mapped u).2 / 4 % 32, (mapAddr d.mapped u).2 / 128)))
    omega
  · show 0x100000 ≤ 0x100010 + 0x10000 * _ + 8 * _ + 4 * 0 + 4; omega
  · show 0x100010 + 0x10000 * (p / 32) + 8 * _ + 4 * 0 + 4 < _
    have := hb (!(List.contains (d.wakeStack (p / 32)).hbm.pages (32 * p + (mapAddr d.mapped u).2 / 4 % 32, (mapAddr d.mapped u).2 / 128)))
    omega
  · show 0x100000 ≤ 0x100100 + 0x10000 * _ + 0x10 * _ + 8 * _ + 4 * 0; omega
  · show 0x100100 + 0x10000 * (p / 32) + 0x10 * (p % 32) + 8 * _ + 4 * 0 < _; omega
  · show 0x100000 ≤ 0x100100 + 0x10000 * _ + 0x10 * _ + 8 * _ + 4 * 0 + 4; omega
  · show 0x100100 + 0x10000 * (p / 32) + 0x10 * (p % 32) + 8 * _ + 4 * 0 + 4 < _; omega
  · exact ⟨fun a _ => rfl, rfl⟩

theorem request_mem (d : Dev) (u n m : Nat) : (d.request u n m).mem = d.mem := by
  unfold Dev.request
  dsimp only
  have c (d : Dev) (lo n : Nat) : (d.count64 lo n).mem = d.mem := by unfold Dev.count64; split <;> rfl
  have w (d : Dev) (s : Nat) : (d.wakeStack s).mem = d.mem := by unfold Dev.wakeStack; split <;> rfl
  rw [c, c]; exact w _ _

theorem keep_capture (d : Dev) (m a s : Nat) (hm : m < 2) : KeepM d (d.memCapture m a s) := by
  unfold Dev.memCapture
  split
  · exact KeepM.refl d
  · exact (KeepM.wr d _ (near (by show _ ≤ 0x1800A0 + 8 * m + 4 * 0; omega) (by show 0x1800A0 + 8 * m + 4 * 0 < _; omega))).trans
      (KeepM.wr _ _ (near (by show _ ≤ 0x1800A0 + 8 * m + 4 * 1; omega) (by show 0x1800A0 + 8 * m + 4 * 1 < _; omega)))

theorem capture_mem (d : Dev) (m a s : Nat) : (d.memCapture m a s).mem = d.mem := by
  unfold Dev.memCapture
  split
  · rfl
  · rw [Dev.wr_mem, Dev.wr_mem]

theorem markPoison_bad (m : Store) (u x : Nat) (h : m.ue.contains u = true) : (m.markPoison u).bad x = m.bad x := by
  have := List.contains_iff_mem.1 h
  unfold Store.bad Store.markPoison
  dsimp only
  rw [Bool.eq_iff_iff]
  by_cases hx : x = u
  · subst hx; split <;> simp_all
  · split <;> simp [hx]

/-- A read of one unit: bytes and marks read as before. -/
theorem readUnit_keep (d : Dev) (src u n : Nat) : KeepM d (d.readUnit src u n) ∧ (d.readUnit src u n).mem.hbm.cells = d.mem.hbm.cells ∧
    (∀ x, (d.readUnit src u n).mem.hbm.bad x = d.mem.hbm.bad x) := by
  unfold Dev.readUnit
  split
  · exact ⟨KeepM.refl d, rfl, fun _ => rfl⟩
  · dsimp only
    have k := keep_request d u n 0 (by omega)
    have hm := request_mem d u n 0
    generalize d.request u n 0 = e at *
    split
    · next hu =>
      have k2 : KeepM e { e with mem := { e.mem with hbm := e.mem.hbm.markPoison u } } := ⟨fun a _ => rfl, rfl⟩
      have k3 : ({ e with mem := { e.mem with hbm := e.mem.hbm.markPoison u } } : Dev).mem.hbm = e.mem.hbm.markPoison u := rfl
      generalize ({ e with mem := { e.mem with hbm := e.mem.hbm.markPoison u } } : Dev) = g at *
      refine ⟨?_, ?_, ?_⟩
      · refine k.trans (k2.trans (((KeepM.set (f := F.MEM_ECC_COUNT 1) _ _ (near ?_ ?_)).trans ((KeepM.set (f := F.MEM_IRQ_STATUS_UE) _ _ (near ?_ ?_)).trans (keep_capture _ 0 u src (by omega))))))
        all_goals decide
      · rw [capture_mem, Dev.set_mem, countSat_mem, k3, hm]; rfl
      · intro x; rw [capture_mem, Dev.set_mem, countSat_mem, k3, hm]
        rw [hm] at hu
        exact markPoison_bad _ _ _ hu
    · split
      · refine ⟨k.trans (KeepM.set (f := F.MEM_ECC_COUNT 0) _ _ (near (by decide) (by decide))), ?_, ?_⟩
        · rw [countSat_mem, hm]
        · intro x; rw [countSat_mem, hm]
      · exact ⟨k, by rw [hm], fun x => by rw [hm]⟩

theorem reads_keep (d : Dev) (src a n : Nat) : KeepM d (d.hbmRead src a n) ∧ (d.hbmRead src a n).mem.hbm.cells = d.mem.hbm.cells ∧
    (∀ x, (d.hbmRead src a n).mem.hbm.bad x = d.mem.hbm.bad x) := by
  unfold Dev.hbmRead
  refine foldl_keeps (fun t : Dev => KeepM d t ∧ t.mem.hbm.cells = d.mem.hbm.cells ∧ ∀ x, t.mem.hbm.bad x = d.mem.hbm.bad x) _ (fun t u h => ?_) _ d ⟨KeepM.refl d, rfl, fun _ => rfl⟩
  obtain ⟨a1, a2, a3⟩ := readUnit_keep t src u (inUnit a n u)
  exact ⟨h.1.trans a1, a2.trans h.2.1, fun x => (a3 x).trans (h.2.2 x)⟩

theorem poisoned_keep {d t : Dev} (h : KeepM d t) (hb : ∀ x, t.mem.hbm.bad x = d.mem.hbm.bad x) (u : Nat) : t.poisoned u = d.poisoned u := by
  unfold Dev.poisoned; rw [h.fenced, hb]

theorem request_rd (d : Dev) (u n m r : Nat) (hm : m < 2) (hr : 0x180000 ≤ r) : (d.request u n m).rd r = d.rd r := by
  unfold Dev.request
  dsimp only
  have hp := pc_lt d u
  generalize (mapAddr d.mapped u).1 = p at *
  have c (d : Dev) (lo n : Nat) (h : lo + 4 < 0x180000) : (d.count64 lo n).rd r = d.rd r := by
    unfold Dev.count64
    split
    · rfl
    · exact Dev.set64_rd_ne _ _ (by omega) (by omega)
  have w (d : Dev) : (d.wakeStack (p / 32)).rd r = d.rd r := by
    unfold Dev.wakeStack
    split
    · unfold Dev.stackUp
      have rr (e : Dev) (n : Nat) (hn : (n - 1) / 32 = 0) : (e.setRuns n true).rd r = e.rd r :=
        Dev.rd_set_ne e (f := ⟨R.CLK_RUN ((n - 1) / 32), (n - 1) % 32, 1⟩) (bit true) (by
          show r ≠ 0x10060 + 0x4 * ((n - 1) / 32); omega)
      rw [rr _ _ (by omega), rr _ _ (by omega)]
      exact Dev.rd_set_ne d _ (by show r ≠ 0x100000 + 0x10000 * _; omega)
    · rfl
  have hb (b : Bool) : bit b < 2 := by cases b <;> decide
  rw [c _ _ _ (by show 0x100100 + 0x10000 * (p / 32) + 0x10 * (p % 32) + 8 * m + 4 * 0 + 4 < _; omega)]
  refine (c _ _ _ ?_).trans (w d)
  show 0x100010 + 0x10000 * (p / 32) + 8 * bit _ + 4 * 0 + 4 < _
  have := hb (!(List.contains (d.wakeStack (p / 32)).hbm.pages (32 * p + (mapAddr d.mapped u).2 / 4 % 32, (mapAddr d.mapped u).2 / 128)))
  omega

theorem request_get (d : Dev) (u n m : Nat) (f : Fld) (hm : m < 2) (hr : 0x180000 ≤ f.addr) : (d.request u n m).get f = d.get f := by
  unfold Dev.get; rw [request_rd _ _ _ _ _ hm hr]

theorem readUnit_get (d : Dev) (src u n : Nat) {f : Fld} (hr : f = F.MEM_IRQ_STATUS_FENCED_WR ∨ f = F.MEM_IRQ_STATUS_BEYOND) :
    (d.readUnit src u n).get f = d.get f := by
  have ha : f.addr = R.MEM_IRQ_STATUS := by rcases hr with rfl | rfl <;> rfl
  have k := request_get d u n 0 f (by omega) (by rw [ha]; decide)
  unfold Dev.readUnit
  split
  · rfl
  · dsimp only
    generalize d.request u n 0 = e at *
    split
    · have cap (d : Dev) : (d.memCapture 0 u src).get f = d.get f := by
        unfold Dev.memCapture
        split
        · rfl
        · unfold Dev.get; rw [ha, Dev.rd_wr_ne _ _ (by decide), Dev.rd_wr_ne _ _ (by decide)]
      rw [cap, Dev.get_set_bits _ _ (by decide) ha (by rcases hr with rfl | rfl <;> decide)]
      unfold Dev.countSat
      rw [Dev.get_set_reg _ _ (by rw [ha]; decide)]
      exact k
    · split
      · unfold Dev.countSat
        rw [Dev.get_set_reg _ _ (by rw [ha]; decide)]; exact k
      · exact k

theorem part_length (a : Nat) (bs : List Byte) (u : Nat) (h1 : u < a + bs.length) (h2 : a < u + 64) :
    (partOf a bs u).length = min (a + bs.length) (u + 64) - max a u := by
  unfold partOf inUnit; rw [List.length_take, List.length_drop]; omega

theorem part_getD (a : Nat) (bs : List Byte) (u x : Nat) (h1 : max a u ≤ x) (h2 : x < min (a + bs.length) (u + 64)) :
    (partOf a bs u).getD (x - max a u) 0 = bs.getD (x - a) 0 := by
  unfold partOf inUnit
  rw [List.getD_eq_getElem?_getD, List.getD_eq_getElem?_getD, List.getElem?_take_of_lt (by omega), List.getElem?_drop]
  congr 2; omega

/-- One unit of a host write. -/
theorem writeUnit_keep (d : Dev) (a : Nat) (bs : List Byte) {u : Nat} (hu : u % 64 = 0) (h1 : u < a + bs.length) (h2 : a < u + 64) :
    KeepM d (d.writeUnit a bs u) ∧
    (∀ x, (d.writeUnit a bs u).mem.hbm.byte x = if d.fencedAt u = false ∧ a ≤ x ∧ x < a + bs.length ∧ u ≤ x ∧ x < u + 64 ∧
      (d.mem.hbm.bad u = false ∨ (a ≤ u ∧ u + 64 ≤ a + bs.length)) then bs.getD (x - a) 0 else d.mem.hbm.byte x) ∧
    (∀ x, x % 64 = 0 → x ≠ u → (d.writeUnit a bs u).mem.hbm.bad x = d.mem.hbm.bad x) ∧
    (d.fencedAt u = true → (d.writeUnit a bs u).get F.MEM_IRQ_STATUS_FENCED_WR = 1) ∧
    (d.get F.MEM_IRQ_STATUS_FENCED_WR = 1 → (d.writeUnit a bs u).get F.MEM_IRQ_STATUS_FENCED_WR = 1) := by
  have hl := part_length a bs u h1 h2
  have hg := part_getD a bs u
  unfold Dev.writeUnit
  dsimp only
  generalize partOf a bs u = part at *
  by_cases hf : d.fencedAt u = true
  · rw [if_pos hf]
    refine ⟨KeepM.set _ _ (near (by decide) (by decide)), fun x => ?_, fun _ _ _ => rfl, fun _ => ?_, fun _ => ?_⟩
    · rw [if_neg (by simp [hf])]; rfl
    · exact Dev.get_set_same _ (by decide) _
    · exact Dev.get_set_same _ (by decide) _
  · rw [if_neg hf]
    have r : ∃ e, (if part.length < 64 then d.readUnit 3 u 0 else d) = e ∧ KeepM d e ∧ e.mem.hbm.cells = d.mem.hbm.cells ∧
        (∀ x, e.mem.hbm.bad x = d.mem.hbm.bad x) ∧ e.get F.MEM_IRQ_STATUS_FENCED_WR = d.get F.MEM_IRQ_STATUS_FENCED_WR := by
      split
      · obtain ⟨a1, a2, a3⟩ := readUnit_keep d 3 u 0
        exact ⟨_, rfl, a1, a2, a3, readUnit_get _ _ _ _ (Or.inl rfl)⟩
      · exact ⟨d, rfl, KeepM.refl d, rfl, fun _ => rfl, rfl⟩
    obtain ⟨e, he, k1, k2, k3, k4⟩ := r
    rw [he]
    have m1 := keep_request e u part.length 1 (by omega)
    have m2 := request_mem e u part.length 1
    have m3 := request_get e u part.length 1 F.MEM_IRQ_STATUS_FENCED_WR (by omega) (by decide)
    generalize e.request u part.length 1 = g at *
    have hb (x : Nat) : g.mem.hbm.byte x = d.mem.hbm.byte x := by rw [m2]; unfold Store.byte; rw [k2]
    have hbad (x : Nat) : g.mem.hbm.bad x = d.mem.hbm.bad x := by rw [m2, k3]
    have hget : g.get F.MEM_IRQ_STATUS_FENCED_WR = d.get F.MEM_IRQ_STATUS_FENCED_WR := m3.trans k4
    by_cases hp : (decide (part.length < 64) && g.mem.hbm.poison.contains u) = true
    · rw [if_pos hp]
      rw [Bool.and_eq_true, decide_eq_true_eq] at hp
      have hbu : d.mem.hbm.bad u = true := by rw [← hbad, ← bad_or, hp.2]; rfl
      refine ⟨k1.trans (m1.trans (KeepM.set _ _ (near (by decide) (by decide)))), fun x => ?_, fun x _ _ => ?_, fun h => absurd h hf, fun h => ?_⟩
      · rw [Dev.set_mem, hb, if_neg]
        rintro ⟨_, _, _, _, _, h⟩
        rcases h with h | h
        · rw [hbu] at h; cases h
        · omega
      · rw [Dev.set_mem]; exact hbad x
      · rw [Dev.get_set_bits (f := F.MEM_IRQ_STATUS_POISON_RMW) (g := F.MEM_IRQ_STATUS_FENCED_WR) _ _ (by decide) rfl (by decide), hget]; exact h
    · rw [if_neg hp]
      have hw := wrote g.mem.hbm (max a u) part (u := 64) (by omega)
      generalize g.mem.hbm.writeUnits 64 (max a u) part = n at *
      refine ⟨k1.trans (m1.trans ⟨fun _ _ => rfl, rfl⟩), fun x => ?_, fun x hx hxu => ?_, fun h => absurd h hf, fun h => by
        show g.get _ = 1; rw [hget]; exact h⟩
      · show n.byte x = _
        rw [hw.1]
        unfold Claims.written
        rw [hb]
        by_cases hx : max a u ≤ x ∧ x < min (a + bs.length) (u + 64)
        · have hfl := (floor_iff (x := x) (y := u) (u := 64) (by omega) hu).2 (by omega)
          rw [hfl, hbad]
          by_cases hc : d.mem.hbm.bad u = false ∨ (max a u ≤ u ∧ u + 64 ≤ max a u + part.length)
          · rw [if_pos ⟨hx.1, by omega, hc⟩, if_pos ⟨by simpa using hf, by omega, by omega, by omega, by omega, hc.imp id (by omega)⟩]
            exact hg x hx.1 hx.2
          · rw [if_neg (fun h => hc h.2.2), if_neg]
            rintro ⟨_, _, _, _, _, h⟩
            exact hc (h.imp id (by omega))
        · rw [if_neg (by omega), if_neg (by omega)]
      · show n.bad x = _
        rw [hw.2 x hx, hbad, decide_eq_false (by omega), Bool.not_false, Bool.and_true]

theorem hbmWrite_keep (d : Dev) (a : Nat) (bs : List Byte) :
    KeepM d (d.hbmWrite a bs) ∧
    (∀ x, (d.hbmWrite a bs).mem.hbm.byte x =
      if d.fencedAt (x / 64 * 64) = true then d.mem.hbm.byte x else Claims.written d.mem.hbm 64 a bs x) ∧
    (∀ x, a ≤ x → x < a + bs.length → d.fencedAt (x / 64 * 64) = true → (d.hbmWrite a bs).get F.MEM_IRQ_STATUS_FENCED_WR = 1) := by
  have key : ∀ (l : List Nat) (d : Dev), l.Nodup → (∀ y ∈ l, y % 64 = 0 ∧ y < a + bs.length ∧ a < y + 64) →
      KeepM d (l.foldl (fun d u => d.writeUnit a bs u) d) ∧
      (∀ x, (l.foldl (fun d u => d.writeUnit a bs u) d).mem.hbm.byte x =
        if d.fencedAt (x / 64 * 64) = false ∧ a ≤ x ∧ x < a + bs.length ∧ x / 64 * 64 ∈ l ∧
          (d.mem.hbm.bad (x / 64 * 64) = false ∨ (a ≤ x / 64 * 64 ∧ x / 64 * 64 + 64 ≤ a + bs.length))
        then bs.getD (x - a) 0 else d.mem.hbm.byte x) ∧
      (d.get F.MEM_IRQ_STATUS_FENCED_WR = 1 ∨ (∃ y ∈ l, d.fencedAt y = true) →
        (l.foldl (fun d u => d.writeUnit a bs u) d).get F.MEM_IRQ_STATUS_FENCED_WR = 1) := by
    intro l
    induction l with
    | nil => intro d _ _; exact ⟨KeepM.refl d, fun x => by simp, fun h => by rcases h with h | ⟨y, hy, _⟩; exact h; cases hy⟩
    | cons y l ih =>
      intro d hn hl
      obtain ⟨hy1, hy2, hy3⟩ := hl y (List.mem_cons_self ..)
      rw [List.nodup_cons] at hn
      obtain ⟨w1, w2, w3, w4, w5⟩ := writeUnit_keep d a bs hy1 hy2 hy3
      obtain ⟨i1, i2, i3⟩ := ih (d.writeUnit a bs y) hn.2 fun z hz => hl z (List.mem_cons_of_mem _ hz)
      rw [List.foldl_cons]
      refine ⟨w1.trans i1, fun x => ?_, fun h => i3 ?_⟩
      · rw [i2, w1.fenced, w2]
        by_cases hx : x / 64 * 64 = y
        · have hy := (floor_iff (by omega) hy1).1 hx
          rw [if_neg (by rw [hx]; exact fun h => hn.1 h.2.2.2.1)]
          refine if_congr ?_ rfl rfl
          rw [hx]
          simp [hy]
        · have hy : ¬(y ≤ x ∧ x < y + 64) := fun h => hx ((floor_iff (by omega) hy1).2 h)
          rw [w3 _ (Nat.mul_mod_left _ _) hx, if_neg (by tauto : ¬(d.fencedAt y = false ∧ a ≤ x ∧ x < a + bs.length ∧ y ≤ x ∧ x < y + 64 ∧ _))]
          refine if_congr ?_ rfl rfl
          simp [hx]
      · rcases h with h | ⟨z, hz, hf⟩
        · exact Or.inl (w5 h)
        · rcases List.mem_cons.1 hz with rfl | hz
          · exact Or.inl (w4 hf)
          · exact Or.inr ⟨z, hz, by rw [w1.fenced]; exact hf⟩
  obtain ⟨h1, h2, h3⟩ := key (unitsOf 64 a bs.length) d (units_nodup (by omega)) fun y hy => by
    obtain ⟨a1, a2, a3, _⟩ := (units_mem (by omega)).1 hy; exact ⟨a1, a2, a3⟩
  refine ⟨h1, fun x => (h2 x).trans ?_, fun x hx hx2 hf => h3 (Or.inr ⟨x / 64 * 64, (units_mem (by omega)).2 ⟨Nat.mul_mod_left _ _, by omega, by omega, by omega⟩, hf⟩)⟩
  by_cases hf : d.fencedAt (x / 64 * 64) = true
  · rw [if_pos hf, if_neg (by simp [hf])]
  · rw [if_neg hf]
    unfold Claims.written
    refine if_congr ⟨?_, ?_⟩ rfl rfl
    · rintro ⟨_, a1, a2, _, a3⟩; exact ⟨a1, a2, a3⟩
    · rintro ⟨a1, a2, a3⟩
      exact ⟨by simpa using hf, a1, a2, (units_mem (by omega)).2 ⟨Nat.mul_mod_left _ _, by omega, by omega, by omega⟩, a3⟩

theorem beyond_keep (d : Dev) (a : Nat) : KeepM d (d.beyond a) ∧ (d.beyond a).mem = d.mem ∧
    (d.beyond a).get F.MEM_IRQ_STATUS_BEYOND = 1 ∧ (d.get F.MEM_IRQ_STATUS_FENCED_WR = 1 → (d.beyond a).get F.MEM_IRQ_STATUS_FENCED_WR = 1) := by
  unfold Dev.beyond
  have k := keep_capture d 1 a 3 (by omega)
  have m := capture_mem d 1 a 3
  have g : (d.memCapture 1 a 3).get F.MEM_IRQ_STATUS_FENCED_WR = d.get F.MEM_IRQ_STATUS_FENCED_WR := by
    unfold Dev.memCapture
    split
    · rfl
    · unfold Dev.get; rw [Dev.rd_wr_ne _ _ (by decide), Dev.rd_wr_ne _ _ (by decide)]
  generalize d.memCapture 1 a 3 = e at *
  refine ⟨k.trans (KeepM.set _ _ (near (by decide) (by decide))), by rw [Dev.set_mem, m], Dev.get_set_same _ (by decide) _, fun h => ?_⟩
  rw [Dev.get_set_bits (f := F.MEM_IRQ_STATUS_BEYOND) (g := F.MEM_IRQ_STATUS_FENCED_WR) _ _ (by decide) rfl (by decide), g]; exact h

theorem KeepM.reply {d t : Dev} (h : KeepM d t) : t.reply = d.reply := by rw [h.eq]

theorem traffic_plain {d t : Dev} (h : KeepM d t) : Claims.MemoryTraffic d t := by
  refine ⟨fun c => ?_, ?_, fun r hr h0 => h.rd r ⟨hr, h0⟩, ?_⟩
  · rw [h.eq]; rfl
  · rw [h.eq]
  · rw [h.eq]; exact ⟨rfl, rfl, rfl, rfl, rfl, rfl, rfl, rfl, rfl, rfl, rfl, rfl, rfl, rfl, rfl, rfl, rfl, rfl⟩

/-- The oldest write received, made whole. -/
theorem land_one {d : Dev} {a : Nat} {part : List Byte} {rest : List (Nat × List Byte)} (h : d.hbm.posted = (a, part) :: rest) :
    d.land (d.hbm.landed + 1) = { d.hbmWrite a part with hbm := { (d.hbmWrite a part).hbm with posted := rest } } := by
  unfold Dev.land
  dsimp only
  rw [show d.hbm.landed + 1 - d.hbm.landed = 1 by omega, h]
  rfl

theorem landed_keep {d t : Dev} {a : Nat} {part : List Byte} {rest : List (Nat × List Byte)} (h : d.hbm.posted = (a, part) :: rest)
    (ht : t = d.land (d.hbm.landed + 1)) : t.hbm.posted = rest ∧ (∀ x, t.mem.hbm.byte x =
       if d.fencedAt (x / 64 * 64) = true then d.mem.hbm.byte x else Claims.written d.mem.hbm 64 a part x) ∧
     (∀ x, a ≤ x → x < a + part.length → d.fencedAt (x / 64 * 64) = true → t.get F.MEM_IRQ_STATUS_FENCED_WR = 1) ∧
     t.reply = d.reply ∧ Claims.MemoryTraffic d t := by
  obtain ⟨h1, h2, h3⟩ := hbmWrite_keep d a part
  rw [land_one h] at ht
  generalize d.hbmWrite a part = g at *
  have k : KeepM d t := by rw [ht]; exact h1.trans ⟨fun _ _ => rfl, rfl⟩
  exact ⟨by rw [ht], fun x => by rw [ht]; exact h2 x, fun x a1 a2 a3 => by rw [ht]; exact h3 x a1 a2 a3, k.reply, traffic_plain k⟩

theorem abandonOver_eq (d : Dev) (m : Sram) (a n : Nat) : (d.abandonOver m a n).mem = d.mem ∧ (d.abandonOver m a n).chans = d.chans := by
  unfold Dev.abandonOver
  refine foldl_keeps (fun t : Dev => t.mem = d.mem ∧ t.chans = d.chans) _ (fun t u h => ?_) _ d ⟨rfl, rfl⟩
  exact ⟨(abandonAt_mem t m u).trans h.1, (abandonAt_chans t m u).trans h.2⟩

theorem prog_write {d : Dev} {c : Fin 32} {off : Nat} {data : List Byte} (h : off + data.length ≤ 0x40000)
    (h2 : (d.ch c).st ∈ [ChSt.idle, .faulted, .halted]) : d.progWrite c off data =
      { d.abandonOver .programStore (progAt c off) data.length with mem := { d.mem with prog := d.mem.prog.writeUnits 8 (progAt c off) data } } := by
  have q : ((d.ch c).quiet || (d.ch c).st = .halted) = true := by
    unfold Chan.quiet; simp at h2 ⊢; tauto
  refine ((if_neg (by omega)).trans (if_pos q)).trans ?_
  dsimp only
  rw [(abandonOver_eq d _ _ _).1]

theorem desc_write {d : Dev} {k : Fin 8} {off : Nat} {data : List Byte} (h : off + data.length ≤ 0x40000) : d.descriptorWrite k off data =
      { (d.wakeCluster k.val).abandonOver .segTable (segAt k off) data.length with
        mem := { (d.wakeCluster k.val).mem with segtab := (d.wakeCluster k.val).mem.segtab.writeUnits 8 (segAt k off) data } } := by
  refine (if_neg (by omega)).trans ?_
  dsimp only
  rw [(abandonOver_eq _ _ _ _).1]

theorem collide_one (d : Dev) (k : Fin 8) (off : Nat) (data : List Byte) (h : d.inArea k off data.length = false) (h1 : off % 64 = 0) (h2 : data.length = 64) (h3 : off + 64 ≤ 0x800000) :
    d.oasisCollide k off data = if d.mem.oasis.bytes (oasisAt k off) 64 = data then d else d.countSat (F.CL_OASIS_CNT_COUNT k 2) := by
  have u : unitsOf 64 off data.length = [off] := by
    unfold unitsOf
    rw [if_neg (by omega), h2, show (off + 64 - 1) / 64 + 1 - off / 64 = 1 by omega]
    simp only [List.range_one, List.map_cons, List.map_nil, add_zero, List.cons.injEq, and_true]
    omega
  unfold Dev.oasisCollide
  rw [if_neg (by rw [h2, Bool.or_eq_true, decide_eq_true_eq, ← h2, h]; simp; omega), u]
  have e : (data.drop (off - off)).take 64 = data := by rw [Nat.sub_self, List.drop_zero, ← h2, List.take_length]
  simp only [List.foldl_cons, List.foldl_nil, e]
  rw [show (decide (off ≤ off) && decide (off + 64 ≤ off + data.length)) = true by simp; omega, Bool.true_and]
  simp only [decide_eq_true_eq]

theorem oasis_write {d : Dev} {k : Fin 8} {off : Nat} {data : List Byte} (h : off + data.length ≤ 0x800000)
    (h2 : (d.wakeCluster k.val).inArea k off data.length = false) (f : Dev)
    (hf : f = ((unitsOf 64 off data.length).filter fun u => u < off || off + data.length < u + 64).foldl
      (fun (d : Dev) u => d.touchOasis k u) (d.wakeCluster k.val)) : d.oasisWrite k off data =
      { f.abandonOver .oasis (oasisAt k off) data.length with mem := { f.mem with oasis := f.mem.oasis.writeUnits 64 (oasisAt k off) data } } := by
  subst hf
  refine ((if_neg (by omega)).trans (if_neg (by rw [h2]; decide))).trans ?_
  unfold Dev.oasisPut
  dsimp only
  rw [(abandonOver_eq _ _ _ _).1]

/-! contexts -/

structure KeepX (d t : Dev) : Prop where
  rd : ∀ a, a ∉ [R.CLK_RUN 0, R.CARAVAN_IRQ_STATUS, R.CARAVAN_ERR] → t.rd a = d.rd a
  mem : t.mem = { d.mem with ctx := t.mem.ctx }
  chans : t.chans = d.chans

theorem KeepX.refl (d : Dev) : KeepX d d := ⟨fun _ _ => rfl, rfl, rfl⟩

theorem KeepX.trans {d e t : Dev} (h : KeepX d e) (h2 : KeepX e t) : KeepX d t :=
  ⟨fun a ha => (h2.rd a ha).trans (h.rd a ha), by rw [h2.mem, h.mem], h2.chans.trans h.chans⟩

theorem KeepX.set (d : Dev) {f : Fld} (v : Nat) (h : f.addr ∈ [R.CLK_RUN 0, R.CARAVAN_IRQ_STATUS, R.CARAVAN_ERR]) : KeepX d (d.set f v) :=
  ⟨fun _ ha => Dev.rd_set_ne d v (fun k => ha (k ▸ h)), rfl, rfl⟩

theorem wakeCaravan_keep (d : Dev) : KeepX d d.wakeCaravan ∧ d.wakeCaravan.mem = d.mem ∧
    d.wakeCaravan.get F.CARAVAN_IRQ_STATUS_CTX_DENIED = d.get F.CARAVAN_IRQ_STATUS_CTX_DENIED := by
  unfold Dev.wakeCaravan
  split
  · refine ⟨⟨fun a ha => ?_, rfl, rfl⟩, rfl, ?_⟩
    · refine Dev.rd_set_ne d (f := ⟨R.CLK_RUN 0, 5, 1⟩) 1 (fun k => ha ?_)
      rw [k]; decide
    · exact Dev.get_set_reg d (f := ⟨R.CLK_RUN 0, 5, 1⟩) (g := F.CARAVAN_IRQ_STATUS_CTX_DENIED) 1 (by decide)
  · exact ⟨KeepX.refl d, rfl, rfl⟩

theorem ringErr_keep (d : Dev) (q cause : Nat) : KeepX d (d.ringErr q cause F.CARAVAN_IRQ_STATUS_CTX_DENIED) ∧
    (d.ringErr q cause F.CARAVAN_IRQ_STATUS_CTX_DENIED).mem = d.mem ∧ (d.ringErr q cause F.CARAVAN_IRQ_STATUS_CTX_DENIED).get F.CARAVAN_IRQ_STATUS_CTX_DENIED = 1 := by
  unfold Dev.ringErr
  dsimp only
  have k := KeepX.set d (f := F.CARAVAN_IRQ_STATUS_CTX_DENIED) 1 (by decide)
  have m : (d.set F.CARAVAN_IRQ_STATUS_CTX_DENIED 1).mem = d.mem := rfl
  have g : (d.set F.CARAVAN_IRQ_STATUS_CTX_DENIED 1).get F.CARAVAN_IRQ_STATUS_CTX_DENIED = 1 := Dev.get_set_same _ (by decide) _
  generalize d.set F.CARAVAN_IRQ_STATUS_CTX_DENIED 1 = e at *
  split
  · exact ⟨k, m, g⟩
  · refine ⟨k.trans ((KeepX.set _ _ (by decide)).trans ((KeepX.set _ _ (by decide)).trans (KeepX.set _ _ (by decide)))), ?_, ?_⟩
    · rw [Dev.set_mem, Dev.set_mem, Dev.set_mem, m]
    · rw [Dev.get_set_reg _ _ (by decide), Dev.get_set_reg _ _ (by decide), Dev.get_set_reg _ _ (by decide), g]

theorem ctx_rings (d t : Dev) (h : t.mem.ctx.byte = d.mem.ctx.byte) (hb : ∀ x, t.mem.ctx.bad x = d.mem.ctx.bad x) (q : Nat) :
    t.ctxBad q = d.ctxBad q ∧ t.ringState q = d.ringState q := by
  have a : t.ctxBad q = d.ctxBad q := by unfold Dev.ctxBad; simp only [hb]
  refine ⟨a, ?_⟩
  unfold Dev.ringState
  rw [a]
  have : t.ctx q 0x0B 1 = d.ctx q 0x0B 1 := by
    unfold Dev.ctx Store.num
    rw [Store.bytes_congr fun i _ => congrFun h _]
  rw [this]

/-- Byte written by a context write. -/
def ctxPut (d : Dev) (x : Nat) : Bool := if d.ringState (x / 32) = 0 then x % 32 ≠ 0x0B else ctxOpen (x % 32)

theorem ctxByte_put (d : Dev) (a : Nat) (v : Byte) (hg : d.ctxBad (a / 32) = false) (h : ctxPut d a = true) :
    d.ctxByte a v = ({ d with mem := { d.mem with ctx := d.mem.ctx.write a [v] } }, false) := by
  have hb : d.mem.ctx.bad (a / 8 * 8) = false := by
    unfold Dev.ctxBad at hg
    simp only [List.any_cons, List.any_nil, Bool.or_false, Bool.or_eq_false_iff] at hg
    rcases (by omega : a / 8 * 8 = 32 * (a / 32) + 0 ∨ a / 8 * 8 = 32 * (a / 32) + 8 ∨ a / 8 * 8 = 32 * (a / 32) + 16 ∨ a / 8 * 8 = 32 * (a / 32) + 24) with e | e | e | e <;> rw [e]
    · exact hg.1
    · exact hg.2.1
    · exact hg.2.2.1
    · exact hg.2.2.2
  unfold ctxPut at h
  unfold Dev.ctxByte
  dsimp only
  split
  · next h0 =>
    rw [if_pos h0] at h
    rw [if_neg]
    rw [hb]; simpa using h
  · next h0 => rw [if_neg h0] at h; rw [if_pos h]

theorem ctxByte_no (d : Dev) (a : Nat) (v : Byte) (h : ctxPut d a = false) :
    d.ctxByte a v = (d, decide (d.ringState (a / 32) ≠ 0)) := by
  unfold ctxPut at h
  unfold Dev.ctxByte
  dsimp only
  split
  · next h0 =>
    rw [if_pos h0] at h
    rw [if_pos]
    · simp [h0]
    · simpa using Or.inl (by simpa using h)
  · next h0 => rw [if_neg h0] at h; rw [if_neg (by rw [h]; decide)]; simp [h0]

theorem put_ring (d : Dev) (a : Nat) (v : Byte) (h : ctxPut d a = true) (q : Nat) :
    ({ d with mem := { d.mem with ctx := d.mem.ctx.write a [v] } } : Dev).ringState q = d.ringState q := by
  have hne : 32 * q + 0x0B ≠ a := by
    rintro rfl
    unfold ctxPut at h
    rw [show (32 * q + 0x0B) % 32 = 0x0B by omega] at h
    split at h
    · simp at h
    · simp [ctxOpen] at h
  unfold Dev.ringState
  have e : ({ d with mem := { d.mem with ctx := d.mem.ctx.write a [v] } } : Dev).ctx q 0x0B 1 = d.ctx q 0x0B 1 := by
    unfold Dev.ctx Store.num
    rw [Store.bytes_congr fun i hi => ?_]
    rw [Store.byte_write_outside]
    simp only [List.length_cons, List.length_nil]
    omega
  rw [e]
  rfl

theorem ctx_fold (off : Nat) : ∀ (data : List Byte) (j : Nat) (d : Dev), (∀ x, off + j ≤ x → x < off + j + data.length → d.ctxBad (x / 32) = false) →
    ∃ t, (((List.range' j data.length).zip data).foldl (fun (d : Dev) iv =>
      let (d, denied) := d.ctxByte (off + iv.1) iv.2
      if denied then d.ringErr ((off + iv.1) / 32) 0x12 F.CARAVAN_IRQ_STATUS_CTX_DENIED else d) d) = t ∧ KeepX d t ∧
    (∀ x, t.mem.ctx.byte x = if off + j ≤ x ∧ x < off + j + data.length ∧ ctxPut d x = true then data.getD (x - (off + j)) 0 else d.mem.ctx.byte x) ∧
    (d.get F.CARAVAN_IRQ_STATUS_CTX_DENIED = 1 ∨ (∃ x, off + j ≤ x ∧ x < off + j + data.length ∧ d.ringState (x / 32) ≠ 0 ∧ ctxOpen (x % 32) = false) →
      t.get F.CARAVAN_IRQ_STATUS_CTX_DENIED = 1) := by
  intro data
  induction data with
  | nil => intro j d _; exact ⟨d, rfl, KeepX.refl d, fun x => by rw [if_neg]; simp only [List.length_nil]; omega, fun h => by
      rcases h with h | ⟨x, h1, h2, _⟩; exact h; simp only [List.length_nil] at h2; omega⟩
  | cons v data ih =>
    intro j d hb
    simp only [List.length_cons] at hb ⊢
    rw [List.range'_succ, List.zip_cons_cons, List.foldl_cons]
    -- the device after the first byte
    have step : ∃ e, (let (d, denied) := d.ctxByte (off + j) v
        if denied then d.ringErr ((off + j) / 32) 0x12 F.CARAVAN_IRQ_STATUS_CTX_DENIED else d) = e ∧ KeepX d e ∧
        (∀ x, e.mem.ctx.bad x = d.mem.ctx.bad x) ∧ (∀ q, e.ringState q = d.ringState q) ∧
        (∀ x, e.mem.ctx.byte x = if x = off + j ∧ ctxPut d x = true then v else d.mem.ctx.byte x) ∧
        (d.get F.CARAVAN_IRQ_STATUS_CTX_DENIED = 1 ∨ (d.ringState ((off + j) / 32) ≠ 0 ∧ ctxOpen ((off + j) % 32) = false) →
          e.get F.CARAVAN_IRQ_STATUS_CTX_DENIED = 1) := by
      by_cases hp : ctxPut d (off + j) = true
      · rw [ctxByte_put d _ _ (hb _ (by omega) (by omega)) hp]
        refine ⟨_, rfl, ⟨fun _ _ => rfl, rfl, rfl⟩, fun _ => rfl, put_ring d _ _ hp, fun x => ?_, fun h => ?_⟩
        · show (d.mem.ctx.write (off + j) [v]).byte x = _
          rw [Store.byte_write]
          simp only [List.length_cons, List.length_nil]
          by_cases hx : x = off + j
          · subst hx; rw [if_pos (by omega), if_pos ⟨rfl, hp⟩, Nat.sub_self]; rfl
          · rw [if_neg (by omega), if_neg (fun h => hx h.1)]
        · rcases h with h | ⟨h1, h2⟩
          · exact h
          · unfold ctxPut at hp; rw [if_neg h1, h2] at hp; cases hp
      · have hp' : ctxPut d (off + j) = false := by simpa using hp
        rw [ctxByte_no d _ _ hp']
        dsimp only
        have same : ∀ x, d.mem.ctx.byte x = if x = off + j ∧ ctxPut d x = true then v else d.mem.ctx.byte x := by
          intro x; rw [if_neg]; rintro ⟨rfl, h⟩; exact hp h
        by_cases hd : d.ringState ((off + j) / 32) ≠ 0
        · rw [if_pos (by simpa using hd)]
          obtain ⟨r1, r2, r3⟩ := ringErr_keep d ((off + j) / 32) 0x12
          exact ⟨_, rfl, r1, fun x => by rw [r2], fun q => (ctx_rings d _ (by rw [r2]) (fun x => by rw [r2]) q).2, fun x => by rw [r2]; exact same x, fun _ => r3⟩
        · rw [if_neg (by simpa using hd)]
          exact ⟨d, rfl, KeepX.refl d, fun _ => rfl, fun _ => rfl, same, fun h => by
            rcases h with h | h; exact h; exact absurd h.1 hd⟩
    obtain ⟨e, he, k1, k2, k3, k4, k5⟩ := step
    simp only [] at he
    have hcb (q : Nat) : e.ctxBad q = d.ctxBad q := by unfold Dev.ctxBad; simp only [k2]
    obtain ⟨t, i1, i2, i3, i4⟩ := ih (j + 1) e fun x h1 h2 => by rw [hcb]; exact hb x (by omega) (by omega)
    refine ⟨t, ?_, k1.trans i2, fun x => ?_, fun h => i4 ?_⟩
    · rw [← i1, ← he]
    · have hpx : ctxPut e x = ctxPut d x := by unfold ctxPut; rw [k3]
      rw [i3, hpx, k4]
      by_cases hx : x = off + j
      · subst hx
        rw [if_neg (by omega)]
        refine if_congr ?_ (by rw [Nat.sub_self]; rfl) rfl
        simp
      · rw [if_neg (fun h => hx h.1 : ¬(x = off + j ∧ ctxPut d x = true))]
        by_cases h : off + (j + 1) ≤ x
        · rw [show x - (off + j) = x - (off + (j + 1)) + 1 by omega, List.getD_cons_succ]
          refine if_congr ?_ rfl rfl
          constructor <;> rintro ⟨_, a2, a3⟩ <;> exact ⟨by omega, by omega, a3⟩
        · rw [if_neg (by omega), if_neg (by omega)]
    · rcases h with h | ⟨x, h1, h2, h3, h4⟩
      · exact Or.inl (k5 (Or.inl h))
      · by_cases hx : x = off + j
        · subst hx; exact Or.inl (k5 (Or.inr ⟨h3, h4⟩))
        · exact Or.inr ⟨x, by omega, by omega, by rw [k3]; exact h3, h4⟩

/-- An access to the context SRAM abandons at most a test; nothing else moves. -/
theorem abandonOver_ctx (d : Dev) (a n : Nat) : ∃ s : Sirocco, d.abandonOver .context a n = { d with sirocco := s } := by
  unfold Dev.abandonOver
  refine foldl_keeps (fun t : Dev => ∃ s : Sirocco, t = { d with sirocco := s }) _ (fun t u h => ?_) _ d ⟨d.sirocco, rfl⟩
  obtain ⟨s, rfl⟩ := h
  have key : ∀ t : Dev, ∃ s : Sirocco, t.abandonAt .context u = { t with sirocco := s } := by
    intro t
    have hr : regionOf .context u = if u < 0x800000 then some (8, u / 256) else none := rfl
    unfold Dev.abandonAt
    rw [hr]
    by_cases h : u < 0x800000
    · rw [if_pos h]
      dsimp only
      rw [if_neg (by decide : ¬8 < 8)]
      by_cases k : ((t.testing 8).any fun t => t.idx = u / 256) = true
      · exact ⟨_, if_pos k⟩
      · exact ⟨t.sirocco, if_neg k⟩
    · rw [if_neg h]; exact ⟨t.sirocco, rfl⟩
  obtain ⟨r, hr⟩ := key { d with sirocco := s }
  exact ⟨r, hr⟩

theorem ctx_write (off data s) : (0x800000 < off + data.length → Becomes (.contextWrite off data) s s.dev) ∧
    (off + data.length ≤ 0x800000 → (∀ x, off ≤ x → x < off + data.length → s.dev.ctxBad (x / 32) = false) →
      Ends (.contextWrite off data) s fun t =>
        (∀ x, t.mem.ctx.byte x = if off ≤ x ∧ x < off + data.length ∧
          (if s.dev.ringState (x / 32) = 0 then x % 32 ≠ 0x0B else ctxOpen (x % 32) = true)
          then data.getD (x - off) 0 else s.dev.mem.ctx.byte x) ∧
        ((∃ x, off ≤ x ∧ x < off + data.length ∧ s.dev.ringState (x / 32) ≠ 0 ∧ ctxOpen (x % 32) = false) →
          t.get F.CARAVAN_IRQ_STATUS_CTX_DENIED = 1) ∧
        t.mem = { s.dev.mem with ctx := t.mem.ctx } ∧ AllChans s.dev t ∧
        RegsBut s.dev t [R.CLK_RUN 0, R.CARAVAN_IRQ_STATUS, R.CARAVAN_ERR]) := by
  refine ⟨fun h => becomes_of rfl (if_pos h), fun h hb => ?_⟩
  obtain ⟨v1, v2, v3⟩ := wakeCaravan_keep s.dev
  have w1 : KeepX s.dev (s.dev.wakeCaravan.abandonOver .context off data.length) := by
    obtain ⟨r, hr⟩ := abandonOver_ctx s.dev.wakeCaravan off data.length
    rw [hr]; exact v1.trans ⟨fun _ _ => rfl, rfl, rfl⟩
  have w2 : (s.dev.wakeCaravan.abandonOver .context off data.length).mem = s.dev.mem := (abandonOver_eq _ _ _ _).1.trans v2
  have e : s.dev.contextWrite off data = ((List.range data.length).zip data).foldl (fun (d : Dev) iv =>
      let (d, denied) := d.ctxByte (off + iv.1) iv.2
      if denied then d.ringErr ((off + iv.1) / 32) 0x12 F.CARAVAN_IRQ_STATUS_CTX_DENIED else d) ((s.dev.wakeCaravan.abandonOver .context off data.length).ctxRenew off data.length) := if_neg (by omega)
  generalize s.dev.wakeCaravan.abandonOver .context off data.length = G at *
  have hcb (q : Nat) : G.ctxBad q = s.dev.ctxBad q := by unfold Dev.ctxBad; rw [w2]
  have hrs (q : Nat) : G.ringState q = s.dev.ringState q := by unfold Dev.ringState Dev.ctx; rw [hcb, w2]
  have hren : G.ctxRenew off data.length = G := by
    unfold Dev.ctxRenew
    have key : ∀ (l : List Nat), (∀ u ∈ l, G.mem.ctx.bad u = false ∨ ¬(off ≤ u ∧ u + 8 ≤ off + data.length)) →
        l.foldl (fun (d : Dev) u =>
          if off ≤ u && u + 8 ≤ off + data.length && d.mem.ctx.bad u then
            let m := d.mem.ctx.write (u / 32 * 32 + 11) [0]
            { d with mem := { d.mem with ctx := { m with ce := m.ce.filter (· ≠ u), ue := m.ue.filter (· ≠ u),
                                                         poison := m.poison.filter (· ≠ u) } } }
          else d) G = G := by
      intro l
      induction l with
      | nil => intro _; rfl
      | cons u l ih =>
        intro hl
        rw [List.foldl_cons, if_neg, ih fun v hv => hl v (List.mem_cons_of_mem _ hv)]
        rcases hl u (List.mem_cons_self ..) with h1 | h1
        · rw [h1]; simp
        · simp only [Bool.and_eq_true, decide_eq_true_eq]; exact fun h => h1 h.1
    refine key _ fun u hu => ?_
    obtain ⟨u1, u2, u3, u4⟩ := (units_mem (by omega)).1 hu
    by_cases hw : off ≤ u ∧ u + 8 ≤ off + data.length
    · left
      have := hb u hw.1 (by omega)
      rw [w2]
      unfold Dev.ctxBad at this
      simp only [List.any_cons, List.any_nil, Bool.or_false, Bool.or_eq_false_iff] at this
      rcases (by omega : u = 32 * (u / 32) + 0 ∨ u = 32 * (u / 32) + 8 ∨ u = 32 * (u / 32) + 16 ∨ u = 32 * (u / 32) + 24) with e | e | e | e <;> rw [e]
      · exact this.1
      · exact this.2.1
      · exact this.2.2.1
      · exact this.2.2.2
    · exact Or.inr hw
  obtain ⟨t, t1, t2, t3, t4⟩ := ctx_fold off data 0 G fun x h1 h2 => by rw [hcb]; exact hb x (by omega) (by omega)
  have e : s.dev.contextWrite off data = t := by
    rw [e, hren, ← t1, ← List.range_eq_range']
  have k := w1.trans t2
  refine ⟨_, (show exec (.contextWrite off data) s = _ from congrArg (done s) e), rfl, fun x => ?_, fun ⟨x, a1, a2, a3, a4⟩ => ?_, k.mem, fun c => ?_, fun a ha => k.rd a ha⟩
  · show t.mem.ctx.byte x = _
    rw [t3, w2]
    refine if_congr ?_ rfl rfl
    unfold ctxPut
    rw [hrs, add_zero]
    split <;> simp
  · exact t4 (Or.inr ⟨x, a1, a2, by rw [hrs]; exact a3, a4⟩)
  · show t.chans[c] = s.dev.chans[c]; rw [k.chans]

theorem seen_getD (f : Nat → Byte) (n i : Nat) (h : i < n) : ((List.range n).map f).getD i 0 = f i := by
  rw [List.getD_eq_getElem?_getD, List.getElem?_map, List.getElem?_range h]; rfl

theorem first_some (d : Dev) (a n : Nat) : (d.firstPoison a n).isSome = true ↔ ∃ i, i < n ∧ d.poisoned ((a + i) / 64 * 64) = true := by
  unfold Dev.firstPoison
  rw [Option.isSome_map, List.find?_isSome]
  constructor
  · rintro ⟨u, hu, hp⟩
    obtain ⟨h1, h2, h3, h4⟩ := (units_mem (by omega)).1 hu
    refine ⟨max a u - a, by omega, ?_⟩
    rw [(floor_iff (x := a + (max a u - a)) (y := u) (by omega) h1).2 (by omega)]; exact hp
  · rintro ⟨i, hi, hp⟩
    exact ⟨_, (units_mem (by omega)).2 ⟨Nat.mul_mod_left _ _, by omega, by omega, by omega⟩, hp⟩

theorem capture_hbm (d : Dev) (m a s : Nat) : (d.memCapture m a s).hbm = d.hbm := by
  have w (d : Dev) (a : Nat) (v : W32) : (d.wr a v).hbm = d.hbm := rfl
  unfold Dev.memCapture
  split
  · rfl
  · rw [w, w]

theorem beyond_posted (d : Dev) (a : Nat) : (d.beyond a).hbm = d.hbm := by
  exact capture_hbm d 1 a 3

theorem count64_hbm (d : Dev) (a n : Nat) : (d.count64 a n).hbm = d.hbm := by unfold Dev.count64; split <;> rfl

theorem wakeStack_hbm (d : Dev) (s : Nat) : (d.wakeStack s).hbm = d.hbm := by unfold Dev.wakeStack; split <;> rfl

theorem request_posted (d : Dev) (u n m : Nat) : (d.request u n m).hbm.posted = d.hbm.posted := by
  unfold Dev.request; dsimp only
  rw [count64_hbm, count64_hbm]
  show (d.wakeStack _).hbm.posted = _
  rw [wakeStack_hbm]

theorem readUnit_posted (d : Dev) (s u n : Nat) : (d.readUnit s u n).hbm.posted = d.hbm.posted := by
  unfold Dev.readUnit
  split
  · rfl
  · have k := request_posted d u n 0
    dsimp only
    generalize d.request u n 0 = e at *
    split
    · rw [capture_hbm, Dev.set_hbm]
      unfold Dev.countSat
      rw [Dev.set_hbm]
      exact k
    · unfold Dev.countSat
      split
      · rw [Dev.set_hbm]; exact k
      · exact k

/-- What a read of one unit by the PCIe port leaves: only memory traffic; contents, marks and posted writes stay. -/
theorem portRead_keep (d : Dev) (ws : List (Nat × List Byte)) (u n : Nat) : KeepM d (d.portRead ws u n) ∧
    (d.portRead ws u n).mem.hbm.cells = d.mem.hbm.cells ∧ (d.portRead ws u n).hbm.posted = d.hbm.posted := by
  unfold Dev.portRead
  split
  · split
    · exact ⟨KeepM.refl d, rfl, rfl⟩
    · exact ⟨keep_request d u n 0 (by omega), by rw [request_mem], request_posted d u n 0⟩
  · obtain ⟨a1, a2, _⟩ := readUnit_keep d 3 u n
    exact ⟨a1, a2, readUnit_posted d 3 u n⟩

/-- What a BAR4 read answers and leaves. -/
theorem serve_reads (d : Dev) (a n cap : Nat) (v t : Dev) (hc : cap = d.capacity) (hv : v = d.land d.hbm.received) (ht : t = d.bar4Serve a n d.hbm.received) :
      t.reply.data.length = n ∧
      (∀ i, i < n → t.reply.data.getD i 0 = if cap ≤ a + i then 0
        else if v.poisoned ((a + i) / 64 * 64) = true then 0xFF else v.mem.hbm.byte (a + i)) ∧
      (t.reply.ep = true ↔ ∃ i, i < n ∧ a + i < cap ∧ v.poisoned ((a + i) / 64 * 64) = true) ∧
      (∀ x, t.mem.hbm.byte x = d.mem.hbm.byte x) ∧ t.hbm.posted = d.hbm.posted ∧
      (cap < a + n → t.get F.MEM_IRQ_STATUS_BEYOND = 1) ∧ Claims.MemoryTraffic d t := by
  subst hc
  obtain ⟨m, hm⟩ : ∃ m, m = min n (d.capacity - a) := ⟨_, rfl⟩
  have e : ∃ g, KeepM d g ∧ g.mem.hbm.cells = d.mem.hbm.cells ∧ g.hbm.posted = d.hbm.posted ∧ (d.capacity < a + n → g.get F.MEM_IRQ_STATUS_BEYOND = 1) ∧
      t = { g with reply := ⟨v.hbmSeen a m ++ List.replicate (n - m) 0, (v.firstPoison a m).isSome⟩ } := by
    have fold : ∀ ws, KeepM d ((unitsOf 64 a m).foldl (fun (d : Dev) u => d.portRead ws u (inUnit a m u)) d) ∧
        ((unitsOf 64 a m).foldl (fun (d : Dev) u => d.portRead ws u (inUnit a m u)) d).mem.hbm.cells = d.mem.hbm.cells ∧
        ((unitsOf 64 a m).foldl (fun (d : Dev) u => d.portRead ws u (inUnit a m u)) d).hbm.posted = d.hbm.posted := by
      intro ws
      refine foldl_keeps (fun t : Dev => KeepM d t ∧ t.mem.hbm.cells = d.mem.hbm.cells ∧ t.hbm.posted = d.hbm.posted) _ (fun t u h => ?_) _ d ⟨KeepM.refl d, rfl, rfl⟩
      obtain ⟨a1, a2, a3⟩ := portRead_keep t ws u (inUnit a m u)
      exact ⟨h.1.trans a1, a2.trans h.2.1, a3.trans h.2.2⟩
    have e0 : ∃ ws, t = { (if d.capacity < a + n then ((unitsOf 64 a m).foldl (fun (d : Dev) u => d.portRead ws u (inUnit a m u)) d).beyond (max a d.capacity)
        else (unitsOf 64 a m).foldl (fun (d : Dev) u => d.portRead ws u (inUnit a m u)) d) with
        reply := ⟨v.hbmSeen a m ++ List.replicate (n - m) 0, (v.firstPoison a m).isSome⟩ } := by
      subst hv hm; exact ⟨_, ht⟩
    obtain ⟨ws, e0⟩ := e0
    obtain ⟨k1, k2, k3⟩ := fold ws
    generalize (unitsOf 64 a m).foldl (fun (d : Dev) u => d.portRead ws u (inUnit a m u)) d = g at *
    by_cases hc : d.capacity < a + n
    · obtain ⟨b1, b2, b3, b4⟩ := beyond_keep g (max a d.capacity)
      rw [if_pos hc] at e0
      exact ⟨_, k1.trans b1, by rw [b2]; exact k2, by rw [beyond_posted]; exact k3, fun _ => b3, e0⟩
    · rw [if_neg hc] at e0
      exact ⟨g, k1, k2, k3, fun h => absurd h hc, e0⟩
  obtain ⟨g, k1, k2, k3, k4, k5⟩ := e
  have hb (x : Nat) : g.mem.hbm.byte x = d.mem.hbm.byte x := by unfold Store.byte; rw [k2]
  rw [k5]
  refine ⟨?_, fun i hi => ?_, ?_, hb, k3, k4, ?_⟩
  · show (v.hbmSeen a m ++ List.replicate (n - m) 0).length = n
    unfold Dev.hbmSeen
    rw [List.length_append, List.length_map, List.length_range, List.length_replicate]; omega
  · show (v.hbmSeen a m ++ List.replicate (n - m) 0).getD i 0 = _
    unfold Dev.hbmSeen
    by_cases h : i < m
    · rw [List.getD_append _ _ _ _ (by simpa using h), seen_getD _ _ _ h, if_neg (show ¬d.capacity ≤ a + i by omega)]
    · rw [List.getD_append_right _ _ _ _ (by simpa using h), if_pos (by omega)]
      rw [List.getD_eq_getElem?_getD, List.getElem?_replicate]; split <;> rfl
  · show (v.firstPoison a m).isSome = true ↔ _
    rw [first_some]
    constructor
    · rintro ⟨i, h1, h2⟩; exact ⟨i, by omega, by omega, h2⟩
    · rintro ⟨i, h1, h2, h3⟩; exact ⟨i, by omega, h3⟩
  · have := traffic_plain k1
    exact this

/-- What every step keeps, a fold keeps; the states stand as variables, so that no projection of a step is unfolded. -/
theorem foldl_steps {β γ : Type} (p : γ → γ → Prop) (f : γ → β → γ) (hr : ∀ g, p g g) (ht : ∀ g e h, p g e → p e h → p g h)
    (hf : ∀ g b e, e = f g b → p g e) : ∀ (l : List β) (g t : γ), t = l.foldl f g → p g t
  | [], g, t, h => by rw [h]; exact hr g
  | b :: l, g, t, h => ht g (f g b) t (hf g b _ rfl) (foldl_steps p f hr ht hf l (f g b) t h)

/-- A memory read: its contents and marks stay, and so do every other memory and the channels. -/
structure KeepS (get : Mems → Store) (put : Mems → Store → Mems) (d t : Dev) : Prop where
  chans : t.chans = d.chans
  bad : ∀ x, (get t.mem).bad x = (get d.mem).bad x
  cells : (get t.mem).cells = (get d.mem).cells
  mem : t.mem = put d.mem (get t.mem)

theorem KeepS.trans {get : Mems → Store} {put : Mems → Store → Mems} (h : ∀ m a b, put (put m a) b = put m b) {d e t : Dev}
    (h1 : KeepS get put d e) (h2 : KeepS get put e t) : KeepS get put d t :=
  ⟨h2.chans.trans h1.chans, fun x => (h2.bad x).trans (h1.bad x), h2.cells.trans h1.cells,
    h2.mem.trans (by conv_lhs => rw [h1.mem, h])⟩

theorem touchSeg_either (d : Dev) (k : Nat) (u : Nat) : ∃ e, e = d.abandonAt .segTable (segAt k (u / 8 * 8)) ∧ (d.touchSeg k u = e ∨
    (e.mem.segtab.ue.contains (segAt k (u / 8 * 8)) = true ∧
      d.touchSeg k u = ({ e with mem := { e.mem with segtab := e.mem.segtab.markPoison (segAt k (u / 8 * 8)) } } : Dev).ueFound k 1 0 u)) := by
  refine ⟨_, rfl, ?_⟩
  by_cases h : (d.abandonAt .segTable (segAt k (u / 8 * 8))).mem.segtab.ue.contains (segAt k (u / 8 * 8)) = true
  · exact Or.inr (⟨h, if_pos h⟩)
  · exact Or.inl (if_neg h)

theorem touchSeg_keep {d t : Dev} {k : Nat} {u : Nat} (h : t = d.touchSeg k u) : KeepS (·.segtab) (fun m x => { m with segtab := x }) d t := by
  obtain ⟨e, he, hc⟩ := touchSeg_either d k u
  have a1 : e.mem = d.mem := by rw [he, abandonAt_mem]
  have a2 : e.chans = d.chans := by rw [he, abandonAt_chans]
  rw [← h] at hc
  clear he h
  rcases hc with hc | ⟨hu, hc⟩
  · subst hc; exact ⟨a2, fun x => by rw [a1], by rw [a1], by rw [a1]⟩
  · have m1 : t.mem = { e.mem with segtab := e.mem.segtab.markPoison (segAt k (u / 8 * 8)) } := by rw [hc, ueFound_mem]
    refine ⟨by rw [hc, ueFound_chans]; exact a2, fun x => ?_, ?_, ?_⟩
    · show t.mem.segtab.bad x = d.mem.segtab.bad x
      rw [m1, ← a1]; exact markPoison_bad _ _ _ hu
    · show t.mem.segtab.cells = d.mem.segtab.cells
      rw [m1, ← a1]; rfl
    · show t.mem = { d.mem with segtab := t.mem.segtab }
      rw [m1, ← a1]


theorem touchSeg_all {d t : Dev} {k : Nat} {l : List Nat} (h : t = l.foldl (fun (d : Dev) u => d.touchSeg k u) d) : KeepS (·.segtab) (fun m x => { m with segtab := x }) d t :=
  foldl_steps (KeepS (·.segtab) (fun m x => { m with segtab := x })) (fun (d : Dev) u => d.touchSeg k u) (fun _ => ⟨rfl, fun _ => rfl, rfl, rfl⟩) (fun _ _ _ => KeepS.trans (get := (·.segtab)) (put := (fun m x => { m with segtab := x })) fun _ _ _ => rfl)
    (fun _ _ _ h => touchSeg_keep h) l d t h

theorem touchProg_either (d : Dev) (k : Fin 32) (u : Nat) : ∃ e, e = d.abandonAt .programStore (progAt k (u / 8 * 8)) ∧ (d.touchProg k u = e ∨
    (e.mem.prog.ue.contains (progAt k (u / 8 * 8)) = true ∧
      d.touchProg k u = ({ e with mem := { e.mem with prog := e.mem.prog.markPoison (progAt k (u / 8 * 8)) } } : Dev).ueFound (clu k) 2 (sub k) u)) := by
  refine ⟨_, rfl, ?_⟩
  by_cases h : (d.abandonAt .programStore (progAt k (u / 8 * 8))).mem.prog.ue.contains (progAt k (u / 8 * 8)) = true
  · exact Or.inr (⟨h, if_pos h⟩)
  · exact Or.inl (if_neg h)

theorem touchProg_keep {d t : Dev} {k : Fin 32} {u : Nat} (h : t = d.touchProg k u) : KeepS (·.prog) (fun m x => { m with prog := x }) d t := by
  obtain ⟨e, he, hc⟩ := touchProg_either d k u
  have a1 : e.mem = d.mem := by rw [he, abandonAt_mem]
  have a2 : e.chans = d.chans := by rw [he, abandonAt_chans]
  rw [← h] at hc
  clear he h
  rcases hc with hc | ⟨hu, hc⟩
  · subst hc; exact ⟨a2, fun x => by rw [a1], by rw [a1], by rw [a1]⟩
  · have m1 : t.mem = { e.mem with prog := e.mem.prog.markPoison (progAt k (u / 8 * 8)) } := by rw [hc, ueFound_mem]
    refine ⟨by rw [hc, ueFound_chans]; exact a2, fun x => ?_, ?_, ?_⟩
    · show t.mem.prog.bad x = d.mem.prog.bad x
      rw [m1, ← a1]; exact markPoison_bad _ _ _ hu
    · show t.mem.prog.cells = d.mem.prog.cells
      rw [m1, ← a1]; rfl
    · show t.mem = { d.mem with prog := t.mem.prog }
      rw [m1, ← a1]


theorem touchProg_all {d t : Dev} {k : Fin 32} {l : List Nat} (h : t = l.foldl (fun (d : Dev) u => d.touchProg k u) d) : KeepS (·.prog) (fun m x => { m with prog := x }) d t :=
  foldl_steps (KeepS (·.prog) (fun m x => { m with prog := x })) (fun (d : Dev) u => d.touchProg k u) (fun _ => ⟨rfl, fun _ => rfl, rfl, rfl⟩) (fun _ _ _ => KeepS.trans (get := (·.prog)) (put := (fun m x => { m with prog := x })) fun _ _ _ => rfl)
    (fun _ _ _ h => touchProg_keep h) l d t h

theorem touchOasis_either (d : Dev) (k : Nat) (u : Nat) : ∃ e, e = d.abandonAt .oasis (oasisAt k (u / 64 * 64)) ∧ (d.touchOasis k u = e ∨
    (e.mem.oasis.ue.contains (oasisAt k (u / 64 * 64)) = true ∧
      d.touchOasis k u = ({ e with mem := { e.mem with oasis := e.mem.oasis.markPoison (oasisAt k (u / 64 * 64)) } } : Dev).ueFound k 0 0 u) ∨
    d.touchOasis k u = e.countSat (F.CL_OASIS_CNT_COUNT k 0)) := by
  refine ⟨_, rfl, ?_⟩
  by_cases h : (d.abandonAt .oasis (oasisAt k (u / 64 * 64))).mem.oasis.ue.contains (oasisAt k (u / 64 * 64)) = true
  · exact Or.inr (Or.inl ⟨h, if_pos h⟩)
  · by_cases h2 : ((d.abandonAt .oasis (oasisAt k (u / 64 * 64))).mem.oasis.ce.contains (oasisAt k (u / 64 * 64)) &&
        !(d.abandonAt .oasis (oasisAt k (u / 64 * 64))).mem.oasis.poison.contains (oasisAt k (u / 64 * 64))) = true
    · exact Or.inr (Or.inr ((if_neg h).trans (if_pos h2)))
    · exact Or.inl ((if_neg h).trans (if_neg h2))

theorem touchOasis_keep {d t : Dev} {k : Nat} {u : Nat} (h : t = d.touchOasis k u) : KeepS (·.oasis) (fun m x => { m with oasis := x }) d t := by
  obtain ⟨e, he, hc⟩ := touchOasis_either d k u
  have a1 : e.mem = d.mem := by rw [he, abandonAt_mem]
  have a2 : e.chans = d.chans := by rw [he, abandonAt_chans]
  rw [← h] at hc
  clear he h
  rcases hc with hc | ⟨hu, hc⟩ | hc
  · subst hc; exact ⟨a2, fun x => by rw [a1], by rw [a1], by rw [a1]⟩
  · have m1 : t.mem = { e.mem with oasis := e.mem.oasis.markPoison (oasisAt k (u / 64 * 64)) } := by rw [hc, ueFound_mem]
    refine ⟨by rw [hc, ueFound_chans]; exact a2, fun x => ?_, ?_, ?_⟩
    · show t.mem.oasis.bad x = d.mem.oasis.bad x
      rw [m1, ← a1]; exact markPoison_bad _ _ _ hu
    · show t.mem.oasis.cells = d.mem.oasis.cells
      rw [m1, ← a1]; rfl
    · show t.mem = { d.mem with oasis := t.mem.oasis }
      rw [m1, ← a1]
  · have m1 : t.mem = d.mem := by rw [hc, countSat_mem, a1]
    exact ⟨by rw [hc, countSat_chans]; exact a2, fun x => by rw [m1], by rw [m1], by rw [m1]⟩

theorem touchOasis_all {d t : Dev} {k : Nat} {l : List Nat} (h : t = l.foldl (fun (d : Dev) u => d.touchOasis k u) d) : KeepS (·.oasis) (fun m x => { m with oasis := x }) d t :=
  foldl_steps (KeepS (·.oasis) (fun m x => { m with oasis := x })) (fun (d : Dev) u => d.touchOasis k u) (fun _ => ⟨rfl, fun _ => rfl, rfl, rfl⟩) (fun _ _ _ => KeepS.trans (get := (·.oasis)) (put := (fun m x => { m with oasis := x })) fun _ _ _ => rfl)
    (fun _ _ _ h => touchOasis_keep h) l d t h

theorem runs_more (d : Dev) (n : Nat) (b : Bool) : (d.setRuns n b).chans = d.chans ∧ (d.setRuns n b).mem = d.mem ∧ (∀ r, R.CLK_RUN 64 ≤ r → n < 256 → (d.setRuns n b).rd r = d.rd r) :=
  ⟨rfl, rfl, fun r hr hn => Dev.rd_set_ne d (f := ⟨R.CLK_RUN ((n - 1) / 32), (n - 1) % 32, 1⟩) (bit b) (by
    have : R.CLK_RUN 64 = 0x10060 + 4 * 64 := rfl
    show r ≠ 0x10060 + 4 * ((n - 1) / 32); omega)⟩

theorem wakeCluster_more (d : Dev) (k : Nat) (hk : k < 8) : (d.wakeCluster k).chans = d.chans ∧ (d.wakeCluster k).mem = d.mem ∧
    (∀ r, R.CLK_RUN 64 ≤ r → (d.wakeCluster k).rd r = d.rd r) := by
  unfold Dev.wakeCluster
  split
  · exact ⟨rfl, rfl, fun r hr => (runs_more d _ _).2.2 r hr (by omega)⟩
  · exact ⟨rfl, rfl, fun _ _ => rfl⟩

theorem wakeChiplet_mem (d : Dev) (n : Nat) : (d.wakeChiplet n).mem = d.mem := by
  unfold Dev.wakeChiplet
  split
  · rfl
  · dsimp only
    split
    · rfl
    · refine foldl_keeps (fun x : Dev => x.mem = d.mem) _ (fun x c hx => ?_) _ _ rfl
      split
      · exact hx
      · exact hx

theorem window_mem {a : Nat} {w : Window} (h : windowOf a = some w) (d : Dev) : (d.wakeFor a).chans = d.chans ∧ (d.wakeFor a).mem = d.mem := by
  have h1 : 0x800000 ≤ a := by
    unfold windowOf at h
    split at h
    · next k => simp only [Bool.and_eq_true, decide_eq_true_eq] at k; omega
    · split at h
      · next k => simp only [Bool.and_eq_true, decide_eq_true_eq] at k; omega
      · split at h
        · next k => simp only [Bool.and_eq_true, decide_eq_true_eq] at k; omega
        · split at h
          · next k => simp only [Bool.and_eq_true, decide_eq_true_eq] at k; omega
          · cases h
  unfold Dev.wakeFor
  rw [if_neg (by simp; omega)]
  have wc (d : Dev) (k : Nat) : (d.wakeCluster k).chans = d.chans ∧ (d.wakeCluster k).mem = d.mem := by
    unfold Dev.wakeCluster; split <;> exact ⟨rfl, rfl⟩
  have wp (d : Dev) (n : Nat) : (d.wakeChiplet n).chans = d.chans ∧ (d.wakeChiplet n).mem = d.mem := ⟨wakeChiplet_chans d n, wakeChiplet_mem d n⟩
  split
  · obtain ⟨k1, k2, _⟩ := wakeCaravan_keep d
    exact ⟨k1.chans, k2⟩
  · dsimp only
    split
    · split
      · exact wp _ _
      · exact wc _ _
    · split
      · split
        · obtain ⟨a1, a2⟩ := wp (d.wakeCluster ((a - 0x2000000) / 0x100000 / 4)) ((a - 0x2000000) / 0x100000 / 8)
          obtain ⟨b1, b2⟩ := wc d ((a - 0x2000000) / 0x100000 / 4)
          exact ⟨a1.trans b1, a2.trans b2⟩
        · exact wc _ _
      · split
        · exact wc _ _
        · exact ⟨rfl, rfl⟩

theorem window_exec {a len : Nat} {s : State} {w : Window} {n : Nat} (hn : n = min len (4096 - a % 4096)) (hr : s.dev.hostReach = true) (h : windowOf a = some w) :
    exec (.windowRead a len false) s = done s ((((s.dev.wakeFor a).windowBytes w n).1).replyWith (((s.dev.wakeFor a).windowBytes w n).2)
      ((((s.dev.wakeFor a).windowBytes w n).1).windowPoison w n)) := by
  subst hn
  have e : exec (.windowRead a len false) s = done s (s.dev.hostRead a len) := rfl
  rw [e]
  unfold Dev.hostRead Dev.fabricRead
  rw [if_pos hr, h]

theorem seen_congr {m n : Store} (h : m.cells = n.cells) (hb : ∀ x, m.bad x = n.bad x) (u a k : Nat) : m.seen u a k = n.seen u a k := by
  unfold Store.seen
  simp only [hb]
  refine List.map_congr_left fun i _ => ?_
  unfold Store.byte; rw [h]

theorem bytes_get (m : Store) : ∀ (k a i : Nat), i < k → (m.bytes a k).getD i 0 = m.byte (a + i)
  | k + 1, a, 0, _ => rfl
  | k + 1, a, i + 1, h => by
    rw [Store.bytes, List.getD_cons_succ, bytes_get m k (a + 1) i (by omega)]
    congr 1; omega

theorem bytes_len (m : Store) : ∀ k a, (m.bytes a k).length = k
  | 0, _ => rfl
  | k + 1, a => by rw [Store.bytes, List.length_cons, bytes_len m k]

theorem ctxError_keep (d : Dev) (q : Nat) : (d.ctxError q).mem = d.mem ∧ (d.ctxError q).chans = d.chans := by
  have a1 := abandonAt_mem d .context (32 * q)
  have a2 := abandonAt_chans d .context (32 * q)
  unfold Dev.ctxError
  generalize d.abandonAt .context (32 * q) = e at *
  dsimp only
  split
  · exact ⟨a1, a2⟩
  · unfold Dev.countSat
    split
    · rw [Dev.set_mem, Dev.set_chans]; exact ⟨a1, a2⟩
    · rw [Dev.set_mem, Dev.set_chans, Dev.set_mem, Dev.set_chans, Dev.set_mem, Dev.set_chans]; exact ⟨a1, a2⟩

/-- The bytes of one unit of the context SRAM in a read of `n` bytes from `off` on. -/
def ctxUnit (off n : Nat) (p : Dev × List Byte) (u : Nat) : Dev × List Byte :=
  let lo := max off u
  let m := min (off + n) (u + 8) - lo
  let d := p.1.abandonAt .context u
  if d.mem.ctx.bad u then
    let r := (d.ctxError (u / 32)).unstated m
    (r.1, p.2 ++ r.2)
  else (d, p.2 ++ d.mem.ctx.bytes lo m)

theorem ctxUnit_keep (off n : Nat) (p : Dev × List Byte) (u : Nat) : ∃ d bs, ctxUnit off n p u = (d, p.2 ++ bs) ∧ d.mem = p.1.mem ∧ d.chans = p.1.chans ∧
    bs.length = min (off + n) (u + 8) - max off u ∧ (p.1.mem.ctx.bad u = false → bs = p.1.mem.ctx.bytes (max off u) (min (off + n) (u + 8) - max off u)) := by
  have a1 := abandonAt_mem p.1 .context u
  have a2 := abandonAt_chans p.1 .context u
  unfold ctxUnit
  generalize p.1.abandonAt .context u = e at *
  dsimp only
  split
  · next h =>
    obtain ⟨k1, k2⟩ := ctxError_keep e (u / 32)
    refine ⟨_, _, rfl, k1.trans a1, k2.trans a2, ?_, fun hb => ?_⟩
    · show ((List.range _).map _).length = _; rw [List.length_map, List.length_range]
    · rw [a1, hb] at h; cases h
  · exact ⟨_, _, rfl, a1, a2, bytes_len _ _ _, fun _ => by rw [a1]⟩

theorem ctx_seen (off n : Nat) (hn : 0 < n) : ∀ (r i : Nat) (p : Dev × List Byte), i + r = (off + n - 1) / 8 + 1 - off / 8 →
    p.2.length = min n (max off ((off / 8 + i) * 8) - off) → (∀ x, x < p.2.length → p.1.mem.ctx.bad ((off + x) / 8 * 8) = false → p.2.getD x 0 = p.1.mem.ctx.byte (off + x)) →
    ∃ d bs, ((List.range' i r).map fun i => (off / 8 + i) * 8).foldl (ctxUnit off n) p = (d, bs) ∧ d.mem = p.1.mem ∧ d.chans = p.1.chans ∧ bs.length = n ∧
      (∀ x, x < n → p.1.mem.ctx.bad ((off + x) / 8 * 8) = false → bs.getD x 0 = p.1.mem.ctx.byte (off + x)) := by
  intro r
  induction r with
  | zero =>
    intro i p h1 h2 h3
    have h4 : p.2.length = n := by omega
    exact ⟨p.1, p.2, rfl, rfl, rfl, h4, fun x hx => h3 x (by omega)⟩
  | succ r ih =>
    intro i p h1 h2 h3
    rw [List.range'_succ, List.map_cons, List.foldl_cons]
    obtain ⟨d, bs, e, k1, k2, k3, k4⟩ := ctxUnit_keep off n p ((off / 8 + i) * 8)
    rw [e]
    have len : (p.2 ++ bs).length = min n (max off ((off / 8 + (i + 1)) * 8) - off) := by rw [List.length_append, k3]; omega
    obtain ⟨t, b2, e2, j1, j2, j3, j4⟩ := ih (i + 1) (d, p.2 ++ bs) (by omega) len fun x hx hb => by
      show (p.2 ++ bs).getD x 0 = d.mem.ctx.byte (off + x)
      rw [k1] at hb ⊢
      by_cases hx2 : x < p.2.length
      · rw [List.getD_append _ _ _ _ hx2]; exact h3 x hx2 hb
      · have hx3 : x < (p.2 ++ bs).length := hx
        rw [List.length_append] at hx3
        rw [List.getD_append_right _ _ _ _ (by omega)]
        have hu : (off + x) / 8 * 8 = (off / 8 + i) * 8 := by omega
        rw [k4 (by rw [← hu]; exact hb), bytes_get _ _ _ _ (by omega)]
        congr 1; omega
    rw [k1] at j1 j4
    exact ⟨t, b2, e2, j1, j2.trans k2, j3, j4⟩

theorem win_ctx {a len : Nat} {s : State} {n : Nat} (hn : n = min len (4096 - a % 4096)) (hr : s.dev.hostReach = true)
    {off : Nat} (hw : windowOf a = some (.context off)) : Ends (.windowRead a len false) s fun t =>
      t.reply.data.length = n ∧ t.reply.ep = false ∧
      (∀ i, i < n → s.dev.mem.ctx.bad ((off + i) / 8 * 8) = false → t.reply.data.getD i 0 = s.dev.mem.ctx.byte (off + i)) ∧
      t.mem = s.dev.mem ∧ AllChans s.dev t := by
  obtain ⟨w1, w2⟩ := window_mem hw s.dev
  have e := window_exec hn hr hw
  generalize s.dev.wakeFor a = g at *
  have key : ∃ d bs, g.windowBytes (.context off) n = (d, bs) ∧ d.mem = g.mem ∧ d.chans = g.chans ∧ bs.length = n ∧
      (∀ x, x < n → g.mem.ctx.bad ((off + x) / 8 * 8) = false → bs.getD x 0 = g.mem.ctx.byte (off + x)) := by
    have k : g.windowBytes (.context off) n = (unitsOf 8 off n).foldl (ctxUnit off n) (g, []) := rfl
    rw [k]
    unfold unitsOf
    split
    · next h => exact ⟨g, [], rfl, rfl, rfl, h.symm, fun x hx => by omega⟩
    · next h =>
      rw [List.range_eq_range']
      exact ctx_seen off n (by omega) _ 0 (g, []) (by omega) (by show 0 = _; omega) (fun x hx => absurd hx (by show ¬x < 0; omega))
  obtain ⟨d, bs, k0, k1, k2, k3, k4⟩ := key
  rw [k0] at e
  rw [w2] at k1 k4
  refine ⟨_, e, rfl, k3, rfl, k4, k1, fun c => ?_⟩
  show d.chans[c] = s.dev.chans[c]; rw [k2, w1]

theorem win_seg {a len : Nat} {s : State} {n : Nat} (hn : n = min len (4096 - a % 4096)) (hr : s.dev.hostReach = true)
    {k : Fin 8} {off : Nat} (hw : windowOf a = some (.segTable k off)) : Ends (.windowRead a len false) s fun t =>
      t.reply = ⟨s.dev.mem.segtab.seen 8 (segAt k off) n, (unitsOf 8 (segAt k off) n).any s.dev.mem.segtab.bad⟩ ∧
      (∀ x, t.mem.segtab.byte x = s.dev.mem.segtab.byte x) ∧ t.mem = { s.dev.mem with segtab := t.mem.segtab } ∧ AllChans s.dev t := by
  obtain ⟨w1, w2⟩ := window_mem hw s.dev
  have e := window_exec hn hr hw
  generalize s.dev.wakeFor a = g at *
  obtain ⟨t, ht⟩ : ∃ t, t = (unitsOf 8 off n).foldl (fun (d : Dev) u => d.touchSeg k u) g := ⟨_, rfl⟩
  obtain ⟨h1, h2, h3, h4⟩ := touchSeg_all ht
  have key : g.windowBytes (.segTable k off) n = (t, t.mem.segtab.seen 8 (segAt k off) n) := by rw [ht]; rfl
  rw [key] at e
  rw [w2] at h2 h3 h4
  refine ⟨_, e, rfl, ?_, fun x => ?_, h4, fun c => ?_⟩
  · show (⟨t.mem.segtab.seen 8 (segAt k off) n, (unitsOf 8 (segAt k off) n).any t.mem.segtab.bad⟩ : Reply) = _
    rw [seen_congr h3 h2, funext h2]
  · show t.mem.segtab.byte x = _; unfold Store.byte; rw [h3]
  · show t.chans[c] = s.dev.chans[c]; rw [h1, w1]

theorem win_prog {a len : Nat} {s : State} {n : Nat} (hn : n = min len (4096 - a % 4096)) (hr : s.dev.hostReach = true)
    {c : Fin 32} {off : Nat} (hw : windowOf a = some (.program c off)) : Ends (.windowRead a len false) s fun t =>
      t.reply = ⟨s.dev.mem.prog.seen 8 (progAt c off) n, (unitsOf 8 (progAt c off) n).any s.dev.mem.prog.bad⟩ ∧
      (∀ x, t.mem.prog.byte x = s.dev.mem.prog.byte x) ∧ t.mem = { s.dev.mem with prog := t.mem.prog } ∧ AllChans s.dev t := by
  obtain ⟨w1, w2⟩ := window_mem hw s.dev
  have e := window_exec hn hr hw
  generalize s.dev.wakeFor a = g at *
  obtain ⟨t, ht⟩ : ∃ t, t = (unitsOf 8 off n).foldl (fun (d : Dev) u => d.touchProg c u) g := ⟨_, rfl⟩
  obtain ⟨h1, h2, h3, h4⟩ := touchProg_all ht
  have key : g.windowBytes (.program c off) n = (t, t.mem.prog.seen 8 (progAt c off) n) := by rw [ht]; rfl
  rw [key] at e
  rw [w2] at h2 h3 h4
  refine ⟨_, e, rfl, ?_, fun x => ?_, h4, fun c => ?_⟩
  · show (⟨t.mem.prog.seen 8 (progAt c off) n, (unitsOf 8 (progAt c off) n).any t.mem.prog.bad⟩ : Reply) = _
    rw [seen_congr h3 h2, funext h2]
  · show t.mem.prog.byte x = _; unfold Store.byte; rw [h3]
  · show t.chans[c] = s.dev.chans[c]; rw [h1, w1]

theorem win_oasis {a len : Nat} {s : State} {n : Nat} (hn : n = min len (4096 - a % 4096)) (hr : s.dev.hostReach = true)
    {k : Fin 8} {off : Nat} (hw : windowOf a = some (.oasis k off)) : Ends (.windowRead a len false) s fun t =>
      t.reply = ⟨s.dev.mem.oasis.seen 64 (oasisAt k off) n, (unitsOf 64 (oasisAt k off) n).any s.dev.mem.oasis.bad⟩ ∧
      (∀ x, t.mem.oasis.byte x = s.dev.mem.oasis.byte x) ∧ t.mem = { s.dev.mem with oasis := t.mem.oasis } ∧ AllChans s.dev t := by
  obtain ⟨w1, w2⟩ := window_mem hw s.dev
  have e := window_exec hn hr hw
  generalize s.dev.wakeFor a = g at *
  obtain ⟨t, ht⟩ : ∃ t, t = (unitsOf 64 off n).foldl (fun (d : Dev) u => d.touchOasis k u) g := ⟨_, rfl⟩
  obtain ⟨h1, h2, h3, h4⟩ := touchOasis_all ht
  have key : g.windowBytes (.oasis k off) n = (t, t.mem.oasis.seen 64 (oasisAt k off) n) := by rw [ht]; rfl
  rw [key] at e
  rw [w2] at h2 h3 h4
  refine ⟨_, e, rfl, ?_, fun x => ?_, h4, fun c => ?_⟩
  · show (⟨t.mem.oasis.seen 64 (oasisAt k off) n, (unitsOf 64 (oasisAt k off) n).any t.mem.oasis.bad⟩ : Reply) = _
    rw [seen_congr h3 h2, funext h2]
  · show t.mem.oasis.byte x = _; unfold Store.byte; rw [h3]
  · show t.chans[c] = s.dev.chans[c]; rw [h1, w1]

end Sys2Proof.Laws
end

