-- ==== Sys2Proof/Laws/Heads.lean ====
section
/-! SUPPORT. Stage buffers, head loads, copies into Oasis. -/

set_option Elab.async false

namespace Sys2Proof.Laws

open Sys2Proof.Machine Sys2Proof.Claims

theorem ready_of (d : Dev) (c : Fin 32) (f : Fetch) (hx : (d.ch c).nextFetch = some f) :
    d.requestReady c = if (d.flag (F.CL_STAGE_CTRL_EN (clu c) (sub c)) && (d.ch c).stageUsed + f.d.drawBytes ≤ 0x40000 &&
      (match f.ring with | some q => decide ((d.ch c).claimed q + ringRecords f.d.fmt ≤ d.ready q) | none => true)) = true then some f else none := by
  unfold Dev.requestReady
  dsimp only
  rw [hx]
  all_goals (dsimp only; cases f.ring <;> rfl)

theorem request_ok : ∀ c s f x, x = s.dev.ch c → x.nextFetch = some f →
    (s.dev.flag (F.CL_STAGE_CTRL_EN (clu c) (sub c)) = true → x.stageUsed + f.d.drawBytes ≤ 0x40000 →
      (∀ q, f.ring = some q → x.claimed q + ringRecords f.d.fmt ≤ s.dev.ready q) → s.dev.goesFirst c f = true →
      Becomes (.stageRequest c) s (Claims.asked <| s.dev.setCh c { x with
        stage := x.stage ++ [⟨f.pid, f.next, f.d.drawBytes, x.grans f.d.drawBytes, s.dev.hbm.reqs, false, none⟩]
        fetches := x.fetches.map fun g => if g.pid = f.pid then { g with next := g.next + 1 } else g })) ∧
    (s.dev.flag (F.CL_STAGE_CTRL_EN (clu c) (sub c)) = false ∨ 0x40000 < x.stageUsed + f.d.drawBytes ∨
      (∃ q, f.ring = some q ∧ s.dev.ready q < x.claimed q + ringRecords f.d.fmt) ∨ s.dev.goesFirst c f = false →
      Becomes (.stageRequest c) s s.dev) := by
  intro c s f x hx hf
  subst hx
  have r := ready_of s.dev c f hf
  constructor
  · intro h1 h2 h3 h4
    rw [if_pos] at r
    · refine becomes_of rfl ?_
      unfold Dev.stageRequest
      rw [r]
      exact if_pos h4
    · rw [h1, decide_eq_true h2]
      cases hr : f.ring with
      | none => rfl
      | some q => simpa using h3 q hr
  · intro h
    refine becomes_of rfl ?_
    unfold Dev.stageRequest
    rw [r]
    by_cases hc : (s.dev.flag (F.CL_STAGE_CTRL_EN (clu c) (sub c)) && (s.dev.ch c).stageUsed + f.d.drawBytes ≤ 0x40000 &&
      (match f.ring with | some q => decide ((s.dev.ch c).claimed q + ringRecords f.d.fmt ≤ s.dev.ready q) | none => true)) = true
    · rw [if_pos hc]
      rw [Bool.and_eq_true, Bool.and_eq_true, decide_eq_true_eq] at hc
      rcases h with h | h | ⟨q, h, h'⟩ | h
      · rw [h] at hc; cases hc.1.1
      · omega
      · rw [h] at hc; have := of_decide_eq_true hc.2; omega
      · exact if_neg (by rw [h]; decide)
    · rw [if_neg hc]

theorem cause_ch (d : Dev) (c : Fin 32) (f : Fld) : (d.clCause c f).chans = d.chans ∧ (d.clCause c f).mem = d.mem ∧ (d.clCause c f).heads = d.heads := by
  unfold Dev.clCause Dev.setIf
  dsimp only
  split <;> exact ⟨rfl, rfl, rfl⟩

theorem panic_shape (d : Dev) (c : Fin 32) : ∃ b, (d.panicCheck c).chans = (d.setCh c { d.ch c with panic := b }).chans ∧ (d.panicCheck c).mem = d.mem ∧
    (∀ r, r ≠ R.CL_CH_IRQ_STATUS (clu c) (sub c) → r ≠ R.CH_SEQ_IRQ_STATUS c → (d.panicCheck c).rd r = d.rd r) := by
  unfold Dev.panicCheck
  dsimp only
  split
  · refine ⟨_, (cause_ch _ _ _).1, (cause_ch _ _ _).2.1, fun r h1 h2 => ?_⟩
    unfold Dev.clCause Dev.setIf
    dsimp only
    split
    · rw [Dev.rd_set_ne _ _ h2, Dev.rd_set_ne _ _ h1]; rfl
    · rw [Dev.rd_set_ne _ _ h1]; rfl
  · exact ⟨_, rfl, rfl, fun _ _ _ => rfl⟩

theorem ranges_keep (d : Dev) (src : Nat) (rs : List (Nat × Nat)) : KeepM d (d.readRanges src rs).1 ∧
    (d.readRanges src rs).1.mem.hbm.cells = d.mem.hbm.cells ∧ (∀ x, (d.readRanges src rs).1.mem.hbm.bad x = d.mem.hbm.bad x) := by
  unfold Dev.readRanges
  dsimp only
  refine foldl_keeps (fun t : Dev => KeepM d t ∧ t.mem.hbm.cells = d.mem.hbm.cells ∧ ∀ x, t.mem.hbm.bad x = d.mem.hbm.bad x) _ (fun t u h => ?_) _ d ⟨KeepM.refl d, rfl, fun _ => rfl⟩
  obtain ⟨a1, a2, a3⟩ := reads_keep t src u.1 u.2
  exact ⟨h.1.trans a1, a2.trans h.2.1, fun x => (a3 x).trans (h.2.2 x)⟩

theorem pc_keep {d t : Dev} (h : KeepM d t) (u : Nat) : t.pcOf u = d.pcOf u := by
  have hp (p : Nat) : t.pcState p = d.pcState p := h.get _ ⟨Or.inr (Nat.le_add_right _ _), by show 0x180100 + 4 * p ≠ 0x10060; omega⟩
  have hm : t.mapped = d.mapped := by unfold Dev.mapped; simp only [hp]
  unfold Dev.pcOf
  rw [hm]

theorem first_keep {d t : Dev} (h : KeepM d t) (hb : ∀ x, t.mem.hbm.bad x = d.mem.hbm.bad x) (a n : Nat) : t.firstPoison a n = d.firstPoison a n := by
  unfold Dev.firstPoison
  have e1 : t.poisoned = d.poisoned := funext fun u => poisoned_keep h hb u
  have e2 : t.pcOf = d.pcOf := funext fun u => pc_keep h u
  rw [e1, e2]

theorem ranges_val {d t : Dev} (h : KeepM d t) (hc : t.mem.hbm.cells = d.mem.hbm.cells) (hb : ∀ x, t.mem.hbm.bad x = d.mem.hbm.bad x) (src : Nat) (rs : List (Nat × Nat)) :
    (t.readRanges src rs).2 = (rs.flatMap (fun r => d.mem.hbm.bytes r.1 r.2), rs.findSome? fun r => d.firstPoison r.1 r.2) := by
  obtain ⟨a1, a2, a3⟩ := ranges_keep t src rs
  have e : (t.readRanges src rs).2 = (rs.flatMap (fun r => (t.readRanges src rs).1.mem.hbm.bytes r.1 r.2), rs.findSome? fun r => (t.readRanges src rs).1.firstPoison r.1 r.2) := rfl
  rw [e]
  generalize (t.readRanges src rs).1 = g at *
  have b (x k : Nat) : g.mem.hbm.bytes x k = d.mem.hbm.bytes x k := bytes_cells _ _ (a2.trans hc) _ _
  have f (x k : Nat) : g.firstPoison x k = d.firstPoison x k := first_keep (h.trans a1) (fun x => (a3 x).trans (hb x)) x k
  simp only [b, f]

/-! Traffic with Oasis -/

/-- What reads and writes of Oasis may change. -/
structure KeepO (d t : Dev) : Prop where
  rd : ∀ r, (∀ k m, r ≠ R.CL_OASIS_CNT k m) → (∀ k, r ≠ R.CL_OASIS_ERR k) → t.rd r = d.rd r
  eq : t = { d with regs := t.regs, sirocco := t.sirocco, mem := { d.mem with oasis := t.mem.oasis } }

theorem KeepO.refl (d : Dev) : KeepO d d := ⟨fun _ _ _ => rfl, rfl⟩

theorem KeepO.trans {d e t : Dev} (h : KeepO d e) (h2 : KeepO e t) : KeepO d t :=
  ⟨fun r a b => (h2.rd r a b).trans (h.rd r a b), by rw [h2.eq, h.eq]⟩

theorem KeepO.put (d : Dev) (f : Fld) (v k m : Nat) (h : f.addr = R.CL_OASIS_CNT k m) : KeepO d (d.set f v) :=
  ⟨fun _ h1 _ => Dev.rd_set_ne d _ (h ▸ h1 k m), rfl⟩

theorem KeepO.sat (d : Dev) (k m : Nat) : KeepO d (d.countSat (F.CL_OASIS_CNT_COUNT k m)) := by
  unfold Dev.countSat
  exact KeepO.put d _ _ k m rfl

theorem KeepO.set (d : Dev) (f : Fld) (v : Nat) (k : Nat) (h : f.addr = R.CL_OASIS_ERR k) : KeepO d (d.set f v) :=
  ⟨fun _ _ h2 => Dev.rd_set_ne d _ (h ▸ h2 k), rfl⟩

theorem keepO_abandon {d t : Dev} {m : Sram} {a : Nat} (h : t = d.abandonAt m a) : KeepO d t := by
  obtain ⟨s, e | ⟨k, e⟩⟩ := abandonAt_cases d m a <;> rw [e] at h <;> subst h
  · exact ⟨fun _ _ _ => rfl, rfl⟩
  · exact KeepO.trans (e := { d with sirocco := s }) ⟨fun _ _ _ => rfl, rfl⟩ (KeepO.sat _ _ _)

theorem keepO_over {d t : Dev} {m : Sram} {a n : Nat} (h : t = d.abandonOver m a n) : KeepO d t :=
  foldl_steps KeepO (fun (d : Dev) u => d.abandonAt m u) KeepO.refl (fun _ _ _ => KeepO.trans) (fun _ _ _ h => keepO_abandon h) _ d t h

theorem keepO_found (d : Dev) (k m j o : Nat) : KeepO d (d.ueFound k m j o) := by
  rcases ueFound_cases d k m j o with h | h <;> rw [h]
  · exact KeepO.sat _ _ _
  · exact (KeepO.sat _ _ _).trans ((KeepO.set _ _ _ k rfl).trans ((KeepO.set _ _ _ k rfl).trans ((KeepO.set _ _ _ k rfl).trans (KeepO.set _ _ _ k rfl))))

theorem keepO_touch {d t : Dev} {k u : Nat} (h : t = d.touchOasis k u) : KeepO d t := by
  obtain ⟨e, he, hc⟩ := touchOasis_either d k u
  rw [← h] at hc
  rcases hc with hc | ⟨-, hc⟩ | hc
  · rw [hc]; exact keepO_abandon he
  · rw [hc]
    refine (keepO_abandon he).trans (KeepO.trans ?_ (keepO_found _ _ _ _ _))
    exact ⟨fun _ _ _ => rfl, rfl⟩
  · rw [hc]; exact (keepO_abandon he).trans (KeepO.sat _ _ _)

theorem keepO_words {d t : Dev} {k : Nat} {rs : List (Nat × Nat)} (h : t = d.touchWords k rs) : KeepO d t :=
  foldl_steps KeepO (fun (d : Dev) u => d.touchOasis k u) KeepO.refl (fun _ _ _ => KeepO.trans) (fun _ _ _ h => keepO_touch h) _ d t h

theorem words_cells {d t : Dev} {k : Nat} {rs : List (Nat × Nat)} (h : t = d.touchWords k rs) :
    t.mem.oasis.cells = d.mem.oasis.cells ∧ ∀ x, t.mem.oasis.bad x = d.mem.oasis.bad x :=
  have k := touchOasis_all (k := k) h
  ⟨k.cells, k.bad⟩

/-- A write of bytes into Oasis. -/
theorem put_shape {d t : Dev} {k off : Nat} {bs : List Byte} (h : t = d.oasisPut k off bs) :
    KeepO d t ∧ t.mem.oasis = d.mem.oasis.writeUnits 64 (oasisAt k off) bs := by
  obtain ⟨e, he⟩ : ∃ e, e = d.abandonOver .oasis (oasisAt k off) bs.length := ⟨_, rfl⟩
  have ht : t = { e with mem := { e.mem with oasis := e.mem.oasis.writeUnits 64 (oasisAt k off) bs } } := by rw [h, he]; rfl
  have hm : e.mem = d.mem := by rw [he, (abandonOver_eq _ _ _ _).1]
  refine ⟨(keepO_over he).trans ?_, by rw [ht, hm]⟩
  rw [ht]; exact ⟨fun _ _ _ => rfl, rfl⟩

/-- No word of a memory is uncorrectable or marked. -/
def Clean (m : Store) : Prop := m.ue = [] ∧ m.poison = []

theorem Clean.bad {m : Store} (h : Clean m) (x : Nat) : m.bad x = false := by unfold Store.bad; rw [h.1, h.2]; rfl

theorem Clean.write {m : Store} (h : Clean m) (u a : Nat) (bs : List Byte) : Clean (m.writeUnits u a bs) := by
  unfold Store.writeUnits
  refine foldl_keeps Clean _ (fun m x h => ?_) _ m h
  dsimp only
  split
  · refine ⟨?_, ?_⟩
    · show m.ue.filter _ = []; rw [h.1]; rfl
    · show m.poison.filter _ = []; rw [h.2]; rfl
  · split
    · exact h
    · exact h

theorem put_bytes {d t : Dev} {k off : Nat} {bs : List Byte} (h : t = d.oasisPut k off bs) (x : Nat) :
    (Clean d.mem.oasis → t.mem.oasis.byte x = if oasisAt k off ≤ x ∧ x < oasisAt k off + bs.length then bs.getD (x - oasisAt k off) 0 else d.mem.oasis.byte x) ∧
    (¬(oasisAt k off ≤ x ∧ x < oasisAt k off + bs.length) → t.mem.oasis.byte x = d.mem.oasis.byte x) := by
  have e := (wrote d.mem.oasis (oasisAt k off) bs (u := 64) (by decide)).1 x
  rw [← (put_shape h).2] at e
  unfold Claims.written at e
  constructor
  · intro hc
    rw [e]
    refine if_congr ⟨fun h => ⟨h.1, h.2.1⟩, fun h => ⟨h.1, h.2, Or.inl (hc.bad _)⟩⟩ rfl rfl
  · intro hn
    rw [e, if_neg fun h => hn ⟨h.1, h.2.1⟩]

theorem oasis_add (k a n : Nat) : oasisAt k (a + n) = oasisAt k a + n := by
  show k * 0x800000 + (a + n) = k * 0x800000 + a + n; omega

theorem take_getD (l : List Byte) {n i : Nat} (h : i < n) : (l.take n).getD i 0 = l.getD i 0 := by
  rw [List.getD_eq_getElem?_getD, List.getD_eq_getElem?_getD, List.getElem?_take_of_lt h]

theorem drop_getD (l : List Byte) (n i : Nat) : (l.drop n).getD i 0 = l.getD (n + i) 0 := by
  rw [List.getD_eq_getElem?_getD, List.getD_eq_getElem?_getD, List.getElem?_drop]

/-- Bytes written to places of a buffer stand there, place by place; no other byte of Oasis moves. -/
theorem grans_bytes (k base : Nat) (d : Dev) (gs : List Nat) (bs : List Byte) : ∀ t, t = d.writeGrans k base gs bs → bs.length = 32 * gs.length →
    KeepO d t ∧ (∀ x, (∀ g ∈ gs, ¬(oasisAt k (base + 32 * g) ≤ x ∧ x < oasisAt k (base + 32 * g) + 32)) → t.mem.oasis.byte x = d.mem.oasis.byte x) ∧
    (Clean d.mem.oasis → gs.Nodup → ∀ i g, gs[i]? = some g → ∀ j, j < 32 → t.mem.oasis.byte (oasisAt k (base + 32 * g + j)) = bs.getD (32 * i + j) 0) := by
  have o (n : Nat) : oasisAt k (base + 32 * n) = oasisAt k base + 32 * n := oasis_add k base (32 * n)
  have o2 (n j : Nat) : oasisAt k (base + 32 * n + j) = oasisAt k base + 32 * n + j := by rw [oasis_add, o]
  induction d, gs, bs using Dev.writeGrans.induct k base with
  | case1 d bs => intro t h _; rw [Dev.writeGrans] at h; rw [h]; exact ⟨KeepO.refl d, fun _ _ => rfl, fun _ _ i g hi => by simp at hi⟩
  | case2 d g bs =>
    intro t h hl
    rw [Dev.writeGrans] at h
    have e32 : (bs.take 32).length = 32 := by rw [List.length_take, hl]; rfl
    refine ⟨(put_shape h).1, fun x hx => (put_bytes h x).2 (by rw [e32]; exact hx g (List.mem_singleton.2 rfl)), fun hc _ i g' hi j hj => ?_⟩
    have h0 : i = 0 ∧ g' = g := by cases i with
      | zero => simp at hi; exact ⟨rfl, hi.symm⟩
      | succ i => simp at hi
    obtain ⟨rfl, rfl⟩ := h0
    rw [(put_bytes h _).1 hc, o, o2, if_pos (by omega), take_getD _ (by omega)]
    congr 1; omega
  | case3 d g h' gs bs hp ih =>
    intro t h hl
    rw [Dev.writeGrans, if_pos hp] at h
    simp only [List.length_cons] at hl
    simp only [Bool.and_eq_true, decide_eq_true_eq] at hp
    obtain ⟨-, rfl⟩ := hp
    obtain ⟨e, he⟩ : ∃ e, e = d.oasisPut k (base + 32 * g) (bs.take 64) := ⟨_, rfl⟩
    rw [← he] at h ih
    have e64 : (bs.take 64).length = 64 := by rw [List.length_take]; omega
    obtain ⟨a1, a2, a3⟩ := ih t h (by rw [List.length_drop]; omega)
    refine ⟨(put_shape he).1.trans a1, fun x hx => ?_, fun hc hn i g' hi j hj => ?_⟩
    · rw [a2 x fun y hy => hx y (by simp [hy]), (put_bytes he x).2]
      have x1 := hx g (by simp)
      have x2 := hx (g + 1) (by simp)
      rw [e64, o]
      rw [o] at x1 x2
      generalize oasisAt k base = O at *
      omega
    · have hcl : Clean e.mem.oasis := by rw [(put_shape he).2]; exact hc.write _ _ _
      rw [List.nodup_cons, List.nodup_cons] at hn
      have old : ∀ y, (y = g ∨ y = g + 1) → t.mem.oasis.byte (oasisAt k (base + 32 * y + j)) = e.mem.oasis.byte (oasisAt k (base + 32 * y + j)) := by
        intro y hy
        refine a2 _ fun z hz => ?_
        have z1 : z ≠ g := fun q => hn.1 (by subst q; exact List.mem_cons_of_mem _ hz)
        have z2 : z ≠ g + 1 := fun q => hn.2.1 (by subst q; exact hz)
        rw [o2, o]; rcases hy with rfl | rfl <;> omega
      match i, hi with
      | 0, hi =>
        have : g' = g := by simpa using hi.symm
        subst this
        rw [old _ (Or.inl rfl), (put_bytes he _).1 hc, e64, o, o2, if_pos (by omega), take_getD _ (by omega)]
        congr 1; omega
      | 1, hi =>
        have : g' = g + 1 := by simpa using hi.symm
        subst this
        rw [old _ (Or.inr rfl), (put_bytes he _).1 hc, e64, o, o2, if_pos (by omega), take_getD _ (by omega)]
        congr 1; omega
      | i + 2, hi =>
        have hi : gs[i]? = some g' := by simpa using hi
        rw [a3 hcl hn.2.2 i g' hi j hj, drop_getD]
        congr 1; omega
  | case4 d g h' gs bs hp ih =>
    intro t h hl
    rw [Dev.writeGrans, if_neg hp] at h
    simp only [List.length_cons] at hl
    obtain ⟨e, he⟩ : ∃ e, e = d.oasisPut k (base + 32 * g) (bs.take 32) := ⟨_, rfl⟩
    rw [← he] at h ih
    have e32 : (bs.take 32).length = 32 := by rw [List.length_take]; omega
    obtain ⟨a1, a2, a3⟩ := ih t h (by rw [List.length_drop, List.length_cons]; omega)
    refine ⟨(put_shape he).1.trans a1, fun x hx => ?_, fun hc hn i g' hi j hj => ?_⟩
    · rw [a2 x fun y hy => hx y (List.mem_cons_of_mem _ hy), (put_bytes he x).2 (by rw [e32]; exact hx g (List.mem_cons_self ..))]
    · have hcl : Clean e.mem.oasis := by rw [(put_shape he).2]; exact hc.write _ _ _
      rw [List.nodup_cons] at hn
      match i, hi with
      | 0, hi =>
        have : g' = g := by simpa using hi.symm
        subst this
        rw [a2, (put_bytes he _).1 hc, e32, o, o2, if_pos (by omega), take_getD _ (by omega)]
        · congr 1; omega
        · intro z hz
          have z1 : z ≠ g' := fun q => hn.1 (by subst q; exact hz)
          rw [o2, o]; omega
      | i + 1, hi =>
        have hi : (h' :: gs)[i]? = some g' := by simpa using hi
        rw [a3 hcl hn.2 i g' hi j hj, drop_getD]
        congr 1; omega

theorem ends_rec (d : Dev) (c : Fin 32) (i : Fin 16) (code abrt reason : Nat) (h : code ≠ 4) (h2 : code ≠ 6) :
    d.tgtEnds c i code abrt reason = Claims.targetRecord d c i code abrt reason := by
  unfold Dev.tgtEnds Claims.targetRecord
  dsimp only
  rw [if_neg (by simp [h, h2])]

theorem ends_fail (d : Dev) (c : Fin 32) (i : Fin 16) (code reason : Nat) (h : code = 4 ∨ code = 6) :
    d.tgtEnds c i code 0 reason = Claims.targetFails d c i code reason := by
  unfold Dev.tgtEnds Claims.targetFails Claims.targetRecord
  dsimp only
  rw [if_pos (by simpa using h)]

theorem empty_eq (d : Dev) (c : Fin 32) (i : Fin 16) : d.emptySlot c i = Claims.slotEmpty d c i := rfl

theorem start_load (d : Dev) (c : Fin 32) (i : Fin 16) : d.startLoad c i = Claims.loadStarts d c i := by
  unfold Dev.startLoad Claims.loadStarts
  dsimp only
  rw [empty_eq]
  generalize Claims.slotEmpty (d.wakeCluster (clu c)) c i = e
  cases h : e.flag (F.CL_STAGE_CTRL_HEAD_EN (clu c) (sub c))
  · exact (if_pos rfl).trans ((ends_fail _ _ _ _ _ (Or.inr rfl)).trans (if_pos rfl).symm)
  · rw [ends_rec e c i 1 0 0 (by decide) (by decide)]
    exact (if_neg (by decide)).trans (if_neg (by decide)).symm

theorem request_load (d : Dev) (c : Fin 32) (i : Fin 16) : d.requestLoad c i =
    if d.hbm.loads.any (·.1 = entryKey c i) = true then d.set (F.CL_TGT_CFG_PENDING (clu c) (sub c) i) 1 else Claims.loadStarts d c i := by
  unfold Dev.requestLoad Dev.loading
  rw [start_load]

theorem first_none (d : Dev) (a n : Nat) (h : ∀ i, i < n → d.poisoned ((a + i) / 64 * 64) = false) : d.firstPoison a n = none := by
  have := (first_some d a n).not.2 (by rintro ⟨i, h1, h2⟩; rw [h i h1] at h2; cases h2)
  simpa using this

theorem record_read (d : Dev) (c : Fin 32) (i : Fin 16) (code abrt reason : Nat) (hc : code < 8) (hr : reason < 8) :
    (Claims.targetRecord d c i code abrt reason).get (F.CL_TGT_STAT_CODE (clu c) (sub c) i) = code ∧
    (Claims.targetRecord d c i code abrt reason).get (F.CL_TGT_STAT_REASON (clu c) (sub c) i) = reason ∧
    (Claims.targetRecord d c i code abrt reason).heads = d.heads ∧ (Claims.targetRecord d c i code abrt reason).mem = d.mem := by
  have ne : R.CL_TGT_STAT (clu c) (sub c) i ≠ R.CL_TGT_CFG (clu c) (sub c) i := by
    show 0x1000200 + 0x100000 * clu c + 0x40 * sub c + 0x4 * i.val ≠ 0x1000100 + 0x100000 * clu c + 0x40 * sub c + 0x4 * i.val; omega
  unfold Claims.targetRecord
  refine ⟨?_, ?_, rfl, rfl⟩
  · rw [Dev.get_set_reg (f := F.CL_TGT_CFG_RELOAD (clu c) (sub c) i) (g := F.CL_TGT_STAT_CODE (clu c) (sub c) i) _ _ ne,
      Dev.get_set_bits (f := F.CL_TGT_STAT_REASON (clu c) (sub c) i) (g := F.CL_TGT_STAT_CODE (clu c) (sub c) i) _ _ (show 8 + 3 ≤ 32 by decide) rfl (Or.inl (show 0 + 4 ≤ 8 by decide)),
      Dev.get_set_bits (f := F.CL_TGT_STAT_ABRT (clu c) (sub c) i) (g := F.CL_TGT_STAT_CODE (clu c) (sub c) i) _ _ (show 4 + 2 ≤ 32 by decide) rfl (Or.inl (show 0 + 4 ≤ 4 by decide)),
      Dev.get_set_same _ (show 0 + 4 ≤ 32 by decide)]
    exact Nat.mod_eq_of_lt (show code < 2 ^ 4 by omega)
  · rw [Dev.get_set_reg (f := F.CL_TGT_CFG_RELOAD (clu c) (sub c) i) (g := F.CL_TGT_STAT_REASON (clu c) (sub c) i) _ _ ne,
      Dev.get_set_same _ (show 8 + 3 ≤ 32 by decide)]
    exact Nat.mod_eq_of_lt (show reason < 2 ^ 3 by omega)

theorem cause_read (d : Dev) (c : Fin 32) (b : Nat) (r : Nat) (h1 : r ≠ R.CL_CH_IRQ_STATUS (clu c) (sub c)) (h2 : r ≠ R.CH_SEQ_IRQ_STATUS c) :
    (d.clCause c ⟨R.CL_CH_IRQ_STATUS (clu c) (sub c), b, 1⟩).rd r = d.rd r := by
  unfold Dev.clCause Dev.setIf
  dsimp only
  split
  · rw [Dev.rd_set_ne _ _ h2, Dev.rd_set_ne _ _ (by exact h1)]
  · rw [Dev.rd_set_ne _ _ (by exact h1)]

theorem stat_far (c : Fin 32) (i : Fin 16) : R.CL_TGT_STAT (clu c) (sub c) i ≠ R.CL_CH_IRQ_STATUS (clu c) (sub c) ∧ R.CL_TGT_STAT (clu c) (sub c) i ≠ R.CH_SEQ_IRQ_STATUS c := by
  have n0 : R.CL_TGT_STAT (clu c) (sub c) i = 0x1000200 + 0x100000 * clu c + 0x40 * sub c + 0x4 * i.val := rfl
  have n1 : R.CL_CH_IRQ_STATUS (clu c) (sub c) = 0x1000030 + 0x100000 * clu c + 0x4 * sub c := rfl
  have n2 : R.CH_SEQ_IRQ_STATUS c = 0x2000044 + 0x100000 * c.val := rfl
  have n3 : clu c < 8 := by show c.val / 4 < 8; omega
  have n4 : sub c < 4 := Nat.mod_lt _ (by decide)
  omega

/-- A copy's first units: what may differ. -/
structure KeepF (k : Fin 8) (d t : Dev) : Prop where
  rd : ∀ a, Far a → a ≠ R.CL_PORT_BYTES k 1 0 → a ≠ R.CL_PORT_BYTES k 1 0 + 4 → (∀ k m, a ≠ R.CL_OASIS_CNT k m) → (∀ k, a ≠ R.CL_OASIS_ERR k) → t.rd a = d.rd a
  chans : t.chans = d.chans
  fills : t.fills = d.fills
  cells : t.mem.hbm.cells = d.mem.hbm.cells
  bad : ∀ x, t.mem.hbm.bad x = d.mem.hbm.bad x

theorem KeepF.refl (k) (d : Dev) : KeepF k d d := ⟨fun _ _ _ _ _ _ => rfl, rfl, rfl, rfl, fun _ => rfl⟩

theorem KeepF.trans {k} {d e t : Dev} (h : KeepF k d e) (h2 : KeepF k e t) : KeepF k d t :=
  ⟨fun a p q r u v => (h2.rd a p q r u v).trans (h.rd a p q r u v), h2.chans.trans h.chans, h2.fills.trans h.fills, h2.cells.trans h.cells, fun x => (h2.bad x).trans (h.bad x)⟩

theorem fence_lt {d t : Dev} (k : Fin 8) (h : KeepF k d t) (u : Nat) : t.poisoned u = d.poisoned u := by
  have hp (p : Nat) (hp : p < 128) : t.pcState p = d.pcState p := by
    have n0 : R.CL_PORT_BYTES k 1 0 = 0x1000080 + 0x100000 * k.val + 0x8 * 1 + 0x4 * 0 := rfl
    have n1 : R.MEM_PC_STAT p = 0x180100 + 4 * p := rfl
    unfold Dev.pcState Dev.get
    rw [h.rd _ ⟨Or.inr (Nat.le_add_right _ _), by show 0x180100 + 4 * p ≠ 0x10060; omega⟩ (by show R.MEM_PC_STAT p ≠ _; omega) (by show R.MEM_PC_STAT p ≠ _; omega)
      (fun k m => by show 0x180100 + 4 * p ≠ 0x1000410 + 0x100000 * k + 0x4 * m; omega) (fun k => by show 0x180100 + 4 * p ≠ 0x1000400 + 0x100000 * k; omega)]
  have hm : t.mapped = d.mapped := by
    unfold Dev.mapped
    refine List.filter_congr fun p hp2 => ?_
    rw [hp p (List.mem_range.1 hp2)]
  have hpc : t.pcOf u = d.pcOf u := by unfold Dev.pcOf; rw [hm]
  unfold Dev.poisoned Dev.fencedAt
  rw [hpc, hp (d.pcOf u) (pc_lt d u), h.bad]

theorem keepF_oasis {k : Fin 8} {d t : Dev} (h : KeepO d t) : KeepF k d t :=
  ⟨fun a _ _ _ h1 h2 => h.rd a h1 h2, (congrArg Dev.chans h.eq).trans rfl, (congrArg Dev.fills h.eq).trans rfl,
    (congrArg (fun e : Dev => e.mem.hbm.cells) h.eq).trans rfl, fun x => (congrArg (fun e : Dev => e.mem.hbm.bad x) h.eq).trans rfl⟩

theorem copy_step (d : Dev) (k : Fin 8) (f : FillOp) (i : Nat) (_hd : f.dst % 64 = 0) :
    ∃ g _t : Dev, KeepF k d g ∧ g.mem.oasis = d.mem.oasis ∧
    (if d.poisoned (f.src + 64 * i) then (g, false) else (g.oasisPut k (f.dst + 64 * i) (g.mem.hbm.bytes (f.src + 64 * i) 64), true)) =
      (let u := f.src + 64 * i
       let d := (d.readUnit 1 u 64).count64 (R.CL_PORT_BYTES k 1 0) 64
       if d.poisoned u then (d, false)
       else (d.oasisPut k (f.dst + 64 * i) (d.mem.hbm.bytes u 64), true)) := by
  obtain ⟨r1, r2, r3⟩ := readUnit_keep d 1 (f.src + 64 * i) 64
  generalize hr : d.readUnit 1 (f.src + 64 * i) 64 = e at *
  obtain ⟨g, hg, g1, g2, g3, g4⟩ : ∃ g : Dev, e.count64 (R.CL_PORT_BYTES k 1 0) 64 = g ∧ g.chans = e.chans ∧ g.mem = e.mem ∧ g.fills = e.fills ∧
      (∀ a, a ≠ R.CL_PORT_BYTES k 1 0 → a ≠ R.CL_PORT_BYTES k 1 0 + 4 → g.rd a = e.rd a) := by
    refine ⟨_, rfl, ?_, ?_, ?_, fun a h1 h2 => ?_⟩ <;> unfold Dev.count64 <;> rw [if_neg (by decide)]
    · rfl
    · rfl
    · rfl
    · exact Dev.set64_rd_ne _ _ h1 h2
  have kf : KeepF k d g := ⟨fun a h1 h2 h3 _ _ => (g4 a h2 h3).trans (r1.rd a h1), by rw [g1, r1.eq], by rw [g3, r1.eq], by rw [g2, r2], fun x => by rw [g2, r3]⟩
  refine ⟨g, g, kf, by rw [g2, r1.eq], ?_⟩
  dsimp only
  rw [hr, hg, fence_lt k kf]

theorem copy_fold (k : Fin 8) (f : FillOp) (hd : f.dst % 64 = 0) (d : Dev) (n : Nat) :
    ∃ t ok m, d.copyUnits k f n = (t, ok) ∧ m ≤ n ∧ KeepF k d t ∧ Claims.Copied d k f m t.mem.oasis ∧
      (∀ i, i < m → d.poisoned (f.src + 64 * i) = false) ∧ (ok = true → m = n) ∧ (ok = false → m < n ∧ d.poisoned (f.src + 64 * m) = true) := by
  induction n with
  | zero => exact ⟨d, true, 0, rfl, le_refl _, KeepF.refl k d, fun x => by rw [if_neg (by omega)], fun i h => by omega, fun _ => rfl, fun h => by cases h⟩
  | succ n ih =>
    obtain ⟨t, ok, m, h1, h2, h3, h4, h5, h6, h7⟩ := ih
    have st : d.copyUnits k f (n + 1) = (fun (r : Dev × Bool) i =>
      if !r.2 then r
      else
        let u := f.src + 64 * i
        let d := (r.1.readUnit 1 u 64).count64 (R.CL_PORT_BYTES k 1 0) 64
        if d.poisoned u then (d, false)
        else (d.oasisPut k (f.dst + 64 * i) (d.mem.hbm.bytes u 64), true)) (d.copyUnits k f n) n := by
      unfold Dev.copyUnits
      rw [List.range_succ, List.foldl_append]; rfl
    rw [h1] at st
    cases ok with
    | false =>
      obtain ⟨a1, a2⟩ := h7 rfl
      refine ⟨t, false, m, st.trans (if_pos rfl), by omega, h3, h4, h5, fun h => (by cases h), fun _ => ⟨by omega, a2⟩⟩
    | true =>
      obtain rfl := h6 rfl
      have st2 := st.trans (if_neg (show ¬(!true) = true by decide))
      obtain ⟨g, _, g1, g2, g3⟩ := copy_step t k f m hd
      rw [← g3] at st2
      rw [fence_lt k h3] at st2
      by_cases hp : d.poisoned (f.src + 64 * m) = true
      · rw [if_pos hp] at st2
        refine ⟨g, false, m, st2, by omega, h3.trans g1, ?_, h5, fun h => (by cases h), fun _ => ⟨by omega, hp⟩⟩
        intro x; rw [g2]; exact h4 x
      · rw [if_neg hp] at st2
        have kk := h3.trans g1
        obtain ⟨w, hw⟩ : ∃ w, w = g.oasisPut k (f.dst + 64 * m) (g.mem.hbm.bytes (f.src + 64 * m) 64) := ⟨_, rfl⟩
        rw [← hw] at st2
        obtain ⟨w1, w2⟩ := put_shape hw
        refine ⟨_, true, m + 1, st2, le_refl _, kk.trans (keepF_oasis w1), ?_, fun i hi => ?_, fun _ => rfl, fun h => (by cases h)⟩
        · intro x
          rw [w2, (wrote _ _ _ (by decide)).1, g2]
          unfold Claims.written
          rw [h4, bytes_len _ _ _]
          have na : oasisAt k (f.dst + 64 * m) = oasisAt k f.dst + 64 * m := by show k.val * 0x800000 + (f.dst + 64 * m) = k.val * 0x800000 + f.dst + 64 * m; omega
          have nb : oasisAt k f.dst % 64 = 0 := by show (k.val * 0x800000 + f.dst) % 64 = 0; omega
          rw [na]
          generalize oasisAt k f.dst = o at *
          by_cases hx : o + 64 * m ≤ x ∧ x < o + 64 * m + 64
          · rw [if_pos ⟨hx.1, hx.2, Or.inr (by omega)⟩, if_pos (by omega), bytes_get _ _ _ _ (by omega)]
            unfold Store.byte
            rw [kk.cells, show f.src + 64 * m + (x - (o + 64 * m)) = f.src + (x - o) by omega]
          · rw [if_neg (fun h => hx ⟨h.1, h.2.1⟩)]
            exact if_congr (by omega) rfl rfl
        · rcases Nat.lt_succ_iff_lt_or_eq.1 hi with h | rfl
          · exact h5 i h
          · simpa using hp

theorem record_shape (d : Dev) (k : Fin 8) (code abrt reason : Nat) (h1 : code < 16) (h2 : abrt < 4) (h3 : reason < 8) : ∃ t, d.fillRecord k code abrt reason = t ∧
    t.get (F.CL_FILL_STATUS_CODE k) = code ∧ t.get (F.CL_FILL_STATUS_ABRT k) = abrt ∧ t.get (F.CL_FILL_STATUS_REASON k) = reason ∧
    t.get (F.CL_FILL_CTRL_GO k) = 0 ∧ t.get (F.CL_IRQ_STATUS_FILL k) = 1 ∧ t.get (F.CL_FILL_CTRL_PENDING k) = d.get (F.CL_FILL_CTRL_PENDING k) ∧
    t.fills = d.fills.set k none ∧ t.chans = d.chans ∧ t.mem = d.mem := by
  have es (d : Dev) (m src : Nat) (b : List Byte) : (d.emitStatus m src b).regs = d.regs ∧ (d.emitStatus m src b).fills = d.fills ∧ (d.emitStatus m src b).chans = d.chans ∧ (d.emitStatus m src b).mem = d.mem := by
    unfold Dev.emitStatus
    split
    · exact ⟨rfl, rfl, rfl, rfl⟩
    · split <;> exact ⟨rfl, rfl, rfl, rfl⟩
  have n1 : R.CL_FILL_STATUS k.val = 0x1000074 + 0x100000 * k.val := rfl
  have n2 : R.CL_FILL_CTRL k.val = 0x1000070 + 0x100000 * k.val := rfl
  have n3 : (F.CL_IRQ_STATUS_FILL k.val).addr = R.CL_IRQ_STATUS k.val := rfl
  have n4 : R.CL_IRQ_STATUS k.val = 0x1000020 + 0x100000 * k.val := rfl
  refine ⟨_, rfl, ?_⟩
  unfold Dev.fillRecord
  dsimp only
  generalize ([2, BitVec.ofNat 8 k.val, BitVec.ofNat 8 (code + 16 * abrt), BitVec.ofNat 8 reason] : List Byte) = body
  obtain ⟨w, hw⟩ : ∃ w : Dev, w = ((((d.set (F.CL_FILL_STATUS_CODE k) code).set (F.CL_FILL_STATUS_ABRT k) abrt).set (F.CL_FILL_STATUS_REASON k) reason).set (F.CL_IRQ_STATUS_FILL k) 1).set (F.CL_FILL_CTRL_GO k) 0 := ⟨_, rfl⟩
  rw [← hw]
  have w1 : w.get (F.CL_FILL_STATUS_CODE k) = code := by
    rw [hw, Dev.get_set_reg _ _ (by show R.CL_FILL_STATUS k.val ≠ R.CL_FILL_CTRL k.val; omega), Dev.get_set_reg _ _ (by show R.CL_FILL_STATUS k.val ≠ R.CL_IRQ_STATUS k.val; omega),
      Dev.get_set_bits (f := F.CL_FILL_STATUS_REASON k) (g := F.CL_FILL_STATUS_CODE k) _ _ (show 6 + 3 ≤ 32 by decide) rfl (Or.inl (show 0 + 4 ≤ 6 by decide)),
      Dev.get_set_bits (f := F.CL_FILL_STATUS_ABRT k) (g := F.CL_FILL_STATUS_CODE k) _ _ (show 4 + 2 ≤ 32 by decide) rfl (Or.inl (show 0 + 4 ≤ 4 by decide)),
      Dev.get_set_same _ (show 0 + 4 ≤ 32 by decide)]
    exact Nat.mod_eq_of_lt (show code < 2 ^ 4 by omega)
  have w2 : w.get (F.CL_FILL_STATUS_ABRT k) = abrt := by
    rw [hw, Dev.get_set_reg _ _ (by show R.CL_FILL_STATUS k.val ≠ R.CL_FILL_CTRL k.val; omega), Dev.get_set_reg _ _ (by show R.CL_FILL_STATUS k.val ≠ R.CL_IRQ_STATUS k.val; omega),
      Dev.get_set_bits (f := F.CL_FILL_STATUS_REASON k) (g := F.CL_FILL_STATUS_ABRT k) _ _ (show 6 + 3 ≤ 32 by decide) rfl (Or.inl (show 4 + 2 ≤ 6 by decide)),
      Dev.get_set_same _ (show 4 + 2 ≤ 32 by decide)]
    exact Nat.mod_eq_of_lt (show abrt < 2 ^ 2 by omega)
  have w3 : w.get (F.CL_FILL_STATUS_REASON k) = reason := by
    rw [hw, Dev.get_set_reg _ _ (by show R.CL_FILL_STATUS k.val ≠ R.CL_FILL_CTRL k.val; omega), Dev.get_set_reg _ _ (by show R.CL_FILL_STATUS k.val ≠ R.CL_IRQ_STATUS k.val; omega),
      Dev.get_set_same _ (show 6 + 3 ≤ 32 by decide)]
    exact Nat.mod_eq_of_lt (show reason < 2 ^ 3 by omega)
  have w4 : w.get (F.CL_FILL_CTRL_GO k) = 0 := by rw [hw]; exact Dev.get_set_same _ (show 0 + 1 ≤ 32 by decide) _
  have w5 : w.get (F.CL_IRQ_STATUS_FILL k) = 1 := by
    rw [hw, Dev.get_set_reg _ _ (by show R.CL_IRQ_STATUS k.val ≠ R.CL_FILL_CTRL k.val; omega)]
    exact Dev.get_set_same _ (show 0 + 1 ≤ 32 by decide) _
  have w6 : w.get (F.CL_FILL_CTRL_PENDING k) = d.get (F.CL_FILL_CTRL_PENDING k) := by
    rw [hw, Dev.get_set_bits (f := F.CL_FILL_CTRL_GO k) (g := F.CL_FILL_CTRL_PENDING k) _ _ (show 0 + 1 ≤ 32 by decide) rfl (Or.inr (show 0 + 1 ≤ 2 by decide)),
      Dev.get_set_reg _ _ (by show R.CL_FILL_CTRL k.val ≠ R.CL_IRQ_STATUS k.val; omega),
      Dev.get_set_reg _ _ (by show R.CL_FILL_CTRL k.val ≠ R.CL_FILL_STATUS k.val; omega), Dev.get_set_reg _ _ (by show R.CL_FILL_CTRL k.val ≠ R.CL_FILL_STATUS k.val; omega), Dev.get_set_reg _ _ (by show R.CL_FILL_CTRL k.val ≠ R.CL_FILL_STATUS k.val; omega)]
  have w7 : w.fills = d.fills ∧ w.chans = d.chans ∧ w.mem = d.mem := by rw [hw]; exact ⟨rfl, rfl, rfl⟩
  clear hw
  obtain ⟨e1, e2, e3, e4⟩ := es { w with fills := w.fills.set k none } 2 k.val body
  have rdw (f : Fld) : (({ w with fills := w.fills.set k none } : Dev).emitStatus 2 k.val body).get f = w.get f := by
    unfold Dev.get Dev.rd; rw [e1]
  refine ⟨?_, ?_, ?_, ?_, ?_, ?_, ?_, ?_, ?_⟩
  · rw [rdw, w1]
  · rw [rdw, w2]
  · rw [rdw, w3]
  · rw [rdw, w4]
  · rw [rdw, w5]
  · rw [rdw, w6]
  · rw [e2]; show w.fills.set k none = _; rw [w7.1]
  · rw [e3]; exact w7.2.1
  · rw [e4]; exact w7.2.2

/-! The checks of a segment (R176) -/

theorem flag_get1 (d : Dev) (a lo : Nat) : d.flag ⟨a, lo, 1⟩ = true ↔ d.get ⟨a, lo, 1⟩ = 1 := by
  have h : d.get ⟨a, lo, 1⟩ < 2 ^ 1 := Dev.get_lt d _
  unfold Dev.flag
  rw [bne_iff_ne]
  omega

theorem overlap_iff (a n b m : Nat) (hm : 0 < m) : overlap a n b m = true ↔ 0 < n ∧ a < b + m ∧ b < a + n := by
  unfold overlap
  simp only [Bool.and_eq_true, decide_eq_true_eq, bne_iff_ne, ne_eq]
  omega

theorem in_area (d : Dev) (k off n : Nat) : d.inArea k off n = true ↔ Claims.Reserves d k off n := by
  have one {p : Bool} {b m : Nat} : ((if p = true then [(b, m)] else []) : List (Nat × Nat)).any (fun q => overlap off n q.1 q.2) = true ↔ p = true ∧ overlap off n b m = true := by
    cases p <;> simp
  unfold Dev.inArea Dev.areas Claims.Reserves
  rw [List.any_flatMap, List.any_eq_true]
  simp only [List.any_append, Bool.or_eq_true, one, List.mem_range]
  simp only [flag_get1, overlap_iff _ _ _ 0x40000 (by decide), overlap_iff _ _ _ 0x10000 (by decide)]
  constructor
  · rintro ⟨j, hj, h | h⟩
    · exact ⟨h.2.1, j, hj, Or.inl ⟨h.1, h.2.2⟩⟩
    · exact ⟨h.2.1, j, hj, Or.inr ⟨h.1, h.2.2⟩⟩
  · rintro ⟨hn, j, hj, h | h⟩
    · exact ⟨j, hj, Or.inl ⟨h.1, hn, h.2⟩⟩
    · exact ⟨j, hj, Or.inr ⟨h.1, hn, h.2⟩⟩

theorem block_size (x : Desc) : x.blockBytes = Claims.blockSize x := by
  have h : bits x.w0 2 1 < 4 := by unfold bits; exact Nat.mod_lt _ (by decide)
  unfold Desc.blockBytes fmtBytes Desc.fmt Claims.blockSize
  interval_cases bits x.w0 2 1 <;> rfl

theorem desc_reserved (x : Desc) : x.reserved = true ↔ (let fmt := bits x.w0 2 1; let msrc := bits x.w0 6 5
    (fmt = 0 ∧ msrc = 3) ∨ ((fmt = 1 ∨ fmt = 2) ∧ msrc ≠ 1 ∧ msrc ≠ 2) ∨ (fmt = 3 ∧ msrc ≠ 0) ∨ (x.w0.getLsbD 7 = true ∧ fmt ≠ 3) ∨
      (fmt ≠ 2 ∧ bits x.w2 15 0 ≠ 0) ∨ (x.w3 ≠ 0 ∧ msrc ≠ 2) ∨ x.w0.getLsbD 4 = true ∨ bits x.w2 23 16 ≠ 0) := by
  have h : bits x.w0 2 1 < 4 := by unfold bits; exact Nat.mod_lt _ (by decide)
  have h2 : bits x.w0 6 5 < 4 := by unfold bits; exact Nat.mod_lt _ (by decide)
  have h3 : (x.w2.setWidth 16 ≠ (0 : BitVec 16)) ↔ bits x.w2 15 0 ≠ 0 := by
    rw [ne_eq, ne_eq, not_iff_not, ← BitVec.toNat_inj, BitVec.toNat_setWidth]
    unfold bits
    simp
  unfold Desc.reserved Desc.fmt Desc.msrc Desc.m4code
  dsimp only
  simp only [Bool.or_eq_true, Bool.and_eq_true, Bool.not_eq_true', decide_eq_true_eq, or_assoc]
  rw [h3]
  generalize bits x.w0 2 1 = f at *
  generalize bits x.w0 6 5 = m at *
  interval_cases f <;> interval_cases m <;> simp

/-- The check finds the lowest sub-cause that applies. -/
theorem seg_check (d : Dev) (c : Fin 32) (x : Desc) : (∀ n, d.segCheck c x = some n → Claims.SegCause d c x n ∧ ∀ k, k < n → ¬Claims.SegCause d c x k) ∧
    (d.segCheck c x = none → ∀ n, ¬Claims.SegCause d c x n) := by
  have c1 : Claims.SegCause d c x 1 ↔ x.valid = false := Iff.rfl
  have c2 : Claims.SegCause d c x 2 ↔ x.reserved = true := (desc_reserved x).symm
  have c3 : Claims.SegCause d c x 3 ↔ ((if x.streamed = true then d.capacity else 0x800000) < x.addr + x.dataBytes ∨
      (x.hasTrack = true ∧ (if x.streamed = true then d.capacity else 0x800000) < x.track + x.trackBytes)) := by
    have e1 : x.addr + x.dataBytes = 32 * x.w1.toNat + (bits x.w0 31 8 + 1) * Claims.blockSize x := by
      unfold Desc.addr Desc.dataBytes; rw [block_size, Nat.mul_comm]; rfl
    have e2 : x.track + x.trackBytes = 32 * x.w3.toNat + if bits x.w0 6 5 = 2 then 32 * (bits x.w0 31 8 + 1) else 0 := by
      unfold Desc.track Desc.trackBytes Desc.hasTrack Desc.msrc Desc.len; simp only [decide_eq_true_eq]
      rw [Nat.mul_comm, Nat.mul_comm (bits x.w0 31 8 + 1) 32]
    have e3 : x.hasTrack = true ↔ bits x.w0 6 5 = 2 := by unfold Desc.hasTrack Desc.msrc; exact decide_eq_true_iff
    rw [e1, e2, e3]
    constructor
    · rintro ⟨cap, rfl, h⟩; exact h
    · intro h; exact ⟨_, rfl, h⟩
  have c4 : Claims.SegCause d c x 4 ↔ x.streamed = true ∧ d.flag (F.CL_STAGE_CTRL_EN (clu c) (sub c)) = false := by
    show x.streamed = true ∧ d.get (F.CL_STAGE_CTRL_EN (clu c) (sub c)) = 0 ↔ _
    unfold Dev.flag
    rw [bne_eq_false_iff_eq]
  have c5 : Claims.SegCause d c x 5 ↔ x.streamed = false ∧ (d.inArea (clu c) x.addr x.dataBytes = true ∨ d.inArea (clu c) x.track x.trackBytes = true) := by
    have e1 : x.dataBytes = (bits x.w0 31 8 + 1) * Claims.blockSize x := by unfold Desc.dataBytes; rw [block_size]; rfl
    have e2 : x.trackBytes = if bits x.w0 6 5 = 2 then 32 * (bits x.w0 31 8 + 1) else 0 := by
      unfold Desc.trackBytes Desc.hasTrack Desc.msrc Desc.len; simp only [decide_eq_true_eq]; rw [Nat.mul_comm]
    rw [in_area, in_area, e1, e2]
    unfold Desc.addr Desc.track
    rw [Nat.mul_comm, Nat.mul_comm x.w3.toNat]
    exact Iff.rfl
  have c0 : ¬Claims.SegCause d c x 0 := id
  have cg : ∀ n, 6 ≤ n → ¬Claims.SegCause d c x n := fun n hn => by
    obtain ⟨m, rfl⟩ : ∃ m, n = m + 6 := ⟨n - 6, by omega⟩
    exact id
  unfold Dev.segCheck
  dsimp only
  generalize (if x.streamed = true then d.capacity else 0x800000) = cap at *
  split
  · next h =>
    rw [Bool.not_eq_true'] at h
    exact ⟨fun n e => by injection e with e; subst e; exact ⟨c1.2 h, fun k hk => by rw [show k = 0 by omega]; exact c0⟩, fun e => by cases e⟩
  · next h1 =>
    have n1 : ¬Claims.SegCause d c x 1 := fun k => h1 (by rw [c1.1 k]; rfl)
    split
    · next h =>
      exact ⟨fun n e => by injection e with e; subst e; exact ⟨c2.2 h, fun k hk => by
        rcases (by omega : k = 0 ∨ k = 1) with rfl | rfl; exact c0; exact n1⟩, fun e => by cases e⟩
    · next h2 =>
      have n2 : ¬Claims.SegCause d c x 2 := fun k => h2 (c2.1 k)
      split
      · next h =>
        rw [Bool.or_eq_true, Bool.and_eq_true, decide_eq_true_eq, decide_eq_true_eq] at h
        exact ⟨fun n e => by injection e with e; subst e; exact ⟨c3.2 h, fun k hk => by
          rcases (by omega : k = 0 ∨ k = 1 ∨ k = 2) with rfl | rfl | rfl; exact c0; exact n1; exact n2⟩, fun e => by cases e⟩
      · next h3 =>
        rw [Bool.or_eq_true, Bool.and_eq_true, decide_eq_true_eq, decide_eq_true_eq] at h3
        have n3 : ¬Claims.SegCause d c x 3 := fun k => h3 (c3.1 k)
        split
        · next h =>
          rw [Bool.and_eq_true, Bool.not_eq_true'] at h
          exact ⟨fun n e => by injection e with e; subst e; exact ⟨c4.2 h, fun k hk => by
            rcases (by omega : k = 0 ∨ k = 1 ∨ k = 2 ∨ k = 3) with rfl | rfl | rfl | rfl; exact c0; exact n1; exact n2; exact n3⟩, fun e => by cases e⟩
        · next h4 =>
          rw [Bool.and_eq_true, Bool.not_eq_true'] at h4
          have n4 : ¬Claims.SegCause d c x 4 := fun k => h4 (c4.1 k)
          split
          · next h =>
            rw [Bool.and_eq_true, Bool.not_eq_true', Bool.or_eq_true] at h
            exact ⟨fun n e => by injection e with e; subst e; exact ⟨c5.2 h, fun k hk => by
              rcases (by omega : k = 0 ∨ k = 1 ∨ k = 2 ∨ k = 3 ∨ k = 4) with rfl | rfl | rfl | rfl | rfl; exact c0; exact n1; exact n2; exact n3; exact n4⟩, fun e => by cases e⟩
          · next h5 =>
            rw [Bool.and_eq_true, Bool.not_eq_true', Bool.or_eq_true] at h5
            refine ⟨fun n e => (by cases e), fun _ n => ?_⟩
            rcases (by omega : n = 0 ∨ n = 1 ∨ n = 2 ∨ n = 3 ∨ n = 4 ∨ n = 5 ∨ 6 ≤ n) with rfl | rfl | rfl | rfl | rfl | rfl | h
            · exact c0
            · exact n1
            · exact n2
            · exact n3
            · exact n4
            · exact fun k => h5 (c5.1 k)
            · exact cg n h

end Sys2Proof.Laws
end

