-- ==== Sys2Proof/Laws/RingUnits.lean ====
section
/-! SUPPORT. Rings, doorbells, record fetches and writes. -/

set_option Elab.async false

namespace Sys2Proof.Laws

open Sys2Proof.Machine Sys2Proof.Claims

theorem c64_mem (d : Dev) (lo n : Nat) : (d.count64 lo n).mem = d.mem ∧ (d.count64 lo n).chans = d.chans ∧ (d.count64 lo n).rings = d.rings := by
  unfold Dev.count64; split <;> exact ⟨rfl, rfl, rfl⟩

theorem c64_get (d : Dev) (lo n : Nat) : (d.count64 lo n).get64 lo = d.get64 lo + tk n := by
  unfold Dev.count64
  split
  · next h => rw [h]; exact (BitVec.add_zero _).symm
  · exact Dev.get64_set64 _ _ _

theorem unb (e : Dev) (q : Nat) : ({ (e.setRingState q 0 0).clearStale q with
      rings := { ((e.setRingState q 0 0).clearStale q).rings with doorbells := ((e.setRingState q 0 0).clearStale q).rings.doorbells.filter (·.q ≠ q) },
      chans := ((e.setRingState q 0 0).clearStale q).chans.map fun (x : Chan) => { x with recs := x.recs.filter (·.q ≠ q) } } : Dev) =
    { Claims.ringNow e q 0 0 with
        rings := { e.rings with stale := e.rings.stale.filter (·.1 ≠ q)
                                doorbells := e.rings.doorbells.filter (·.q ≠ q) }
        chans := e.chans.map fun (x : Chan) => { x with recs := x.recs.filter (·.q ≠ q) } } := rfl

theorem cnt_far : Far (R.CARAVAN_CNT 0 0) ∧ Far (R.CARAVAN_CNT 0 0 + 4) ∧ Far (R.CARAVAN_CNT 1 0) ∧ Far (R.CARAVAN_CNT 1 0 + 4) := by
  refine ⟨⟨?_, ?_⟩, ⟨?_, ?_⟩, ⟨?_, ?_⟩, ⟨?_, ?_⟩⟩ <;> decide

theorem KeepM.g64 {d t : Dev} (h : KeepM d t) (a : Nat) (h1 : Far a) (h2 : Far (a + 4)) : t.get64 a = d.get64 a := by
  unfold Dev.get64; rw [h.rd _ h1, h.rd _ h2]

theorem read_record (e : Dev) (q : Nat) (i : W32) : ∃ g, e.readRecord q i = (g, e.mem.hbm.bytes (e.recAddr q i) 64, e.firstPoison (e.recAddr q i) 64) ∧
    g.mem.hbm.cells = e.mem.hbm.cells ∧ g.mem.ctx = e.mem.ctx ∧ g.rings = e.rings ∧ g.chans = e.chans ∧
    g.get64 (R.CARAVAN_CNT 0 0) = e.get64 (R.CARAVAN_CNT 0 0) + 1 := by
  obtain ⟨k1, k2, k3⟩ := reads_keep e 2 (e.recAddr q i) 64
  have hr : e.readRecord q i = ((e.hbmRead 2 (e.recAddr q i) 64).count64 (R.CARAVAN_CNT 0 0) 1,
    ((e.hbmRead 2 (e.recAddr q i) 64).count64 (R.CARAVAN_CNT 0 0) 1).mem.hbm.bytes (e.recAddr q i) 64,
    ((e.hbmRead 2 (e.recAddr q i) 64).count64 (R.CARAVAN_CNT 0 0) 1).firstPoison (e.recAddr q i) 64) := rfl
  rw [hr]
  clear hr
  have f1 := first_keep k1 k3 (e.recAddr q i) 64
  rw [← f1]
  generalize e.hbmRead 2 (e.recAddr q i) 64 = w at *
  obtain ⟨c1, c2, c3⟩ := c64_mem w (R.CARAVAN_CNT 0 0) 1
  have rw_ (r : Nat) (h1 : r ≠ R.CARAVAN_CNT 0 0) (h2 : r ≠ R.CARAVAN_CNT 0 0 + 4) : (w.count64 (R.CARAVAN_CNT 0 0) 1).rd r = w.rd r := Dev.set64_rd_ne _ _ h1 h2
  have hp (p : Nat) (hp : p < 128) : (w.count64 (R.CARAVAN_CNT 0 0) 1).pcState p = w.pcState p := by
    unfold Dev.pcState Dev.get
    have : 0x200000 ≤ R.CARAVAN_CNT 0 0 := by decide
    rw [rw_ _ (by show 0x180100 + 4 * p ≠ _; omega) (by show 0x180100 + 4 * p ≠ _; omega)]
  have hm : (w.count64 (R.CARAVAN_CNT 0 0) 1).mapped = w.mapped := by
    unfold Dev.mapped
    exact List.filter_congr fun p hp2 => by rw [hp p (List.mem_range.1 hp2)]
  have hpc : (w.count64 (R.CARAVAN_CNT 0 0) 1).pcOf = w.pcOf := by funext u; unfold Dev.pcOf; rw [hm]
  have hpo : (w.count64 (R.CARAVAN_CNT 0 0) 1).poisoned = w.poisoned := by
    funext u
    unfold Dev.poisoned Dev.fencedAt
    rw [hpc, hp (w.pcOf u) (pc_lt w u), c1]
  refine ⟨w.count64 (R.CARAVAN_CNT 0 0) 1, ?_, by rw [c1, k2], by rw [c1, k1.eq], by rw [c3, k1.eq], by rw [c2, k1.eq], ?_⟩
  · have hb : (w.count64 (R.CARAVAN_CNT 0 0) 1).mem.hbm.bytes (e.recAddr q i) 64 = e.mem.hbm.bytes (e.recAddr q i) 64 := by rw [c1]; exact bytes_cells _ _ k2 _ _
    have hf : (w.count64 (R.CARAVAN_CNT 0 0) 1).firstPoison (e.recAddr q i) 64 = w.firstPoison (e.recAddr q i) 64 := by unfold Dev.firstPoison; rw [hpo, hpc]
    rw [hb, hf]
  · rw [c64_get, k1.g64 _ cnt_far.1 cnt_far.2.1]; rfl

theorem wake_caravan (d : Dev) : d.wakeCaravan.mem = d.mem ∧ d.wakeCaravan.chans = d.chans ∧ d.wakeCaravan.rings.statusQ = d.rings.statusQ ∧
    (∀ r, 0x100000 ≤ r → d.wakeCaravan.rd r = d.rd r) := by
  unfold Dev.wakeCaravan
  split
  · refine ⟨rfl, rfl, rfl, fun r hr => ?_⟩
    exact Dev.rd_set_ne d (f := ⟨R.CLK_RUN 0, 5, 1⟩) 1 (by show r ≠ 0x10060 + 4 * 0; omega)
  · exact ⟨rfl, rfl, rfl, fun _ _ => rfl⟩

/-- A look at a ring's context: memory, channels, rings stay, and every register but the two counts of what was met. -/
theorem ctx_look (d : Dev) (q : Nat) : (d.ctxError q).mem = d.mem ∧ (d.ctxError q).chans = d.chans ∧ (d.ctxError q).rings = d.rings ∧
    (∀ r, r ≠ R.CARAVAN_SRAM_ERR → (∀ k, r ≠ R.CL_OASIS_CNT k 3) → (d.ctxError q).rd r = d.rd r) := by
  have sr (d : Dev) (f : Fld) (v : Nat) : (d.set f v).rings = d.rings := rfl
  obtain ⟨e, he, e1, e2⟩ : ∃ e, e = d.abandonAt .context (32 * q) ∧ e.rings = d.rings ∧ (∀ r, (∀ k, r ≠ R.CL_OASIS_CNT k 3) → e.rd r = d.rd r) := by
    refine ⟨_, rfl, ?_⟩
    obtain ⟨s, h | ⟨k, h⟩⟩ := abandonAt_cases d .context (32 * q) <;> rw [h]
    · exact ⟨rfl, fun _ _ => rfl⟩
    · unfold Dev.countSat
      refine ⟨sr _ _ _, fun r hr => ?_⟩
      rw [Dev.rd_set_ne _ _ (hr k)]; rfl
  refine ⟨(ctxError_keep d q).1, (ctxError_keep d q).2, ?_⟩
  unfold Dev.ctxError
  rw [← he]
  dsimp only
  split
  · exact ⟨e1, fun r _ h => e2 r h⟩
  · unfold Dev.countSat
    split
    · exact ⟨(sr _ _ _).trans e1, fun r h1 h2 => (Dev.rd_set_ne _ _ h1).trans (e2 r h2)⟩
    · exact ⟨(sr _ _ _).trans ((sr _ _ _).trans ((sr _ _ _).trans e1)), fun r h1 h2 =>
        (Dev.rd_set_ne _ _ h1).trans ((Dev.rd_set_ne _ _ h1).trans ((Dev.rd_set_ne _ _ h1).trans (e2 r h2)))⟩

theorem look_cnt (d : Dev) (q m : Nat) (hm : m < 2) : (d.ctxError q).get64 (R.CARAVAN_CNT m 0) = d.get64 (R.CARAVAN_CNT m 0) := by
  have a : R.CARAVAN_CNT m 0 = R.CARAVAN_CNT 0 0 + 8 * m := by show 0x200100 + 0x8 * m + 0x4 * 0 = 0x200100 + 0x8 * 0 + 0x4 * 0 + 8 * m; omega
  have b : R.CARAVAN_SRAM_ERR < R.CARAVAN_CNT 0 0 ∨ R.CARAVAN_CNT 0 0 + 16 ≤ R.CARAVAN_SRAM_ERR := by decide
  have c : R.CARAVAN_CNT 0 0 + 16 < 0x1000000 := by decide
  obtain ⟨-, -, -, h⟩ := ctx_look d q
  unfold Dev.get64
  rw [h _ (by omega) (fun k => by show _ ≠ 0x1000410 + 0x100000 * k + 0x4 * 3; omega), h _ (by omega) (fun k => by show _ ≠ 0x1000410 + 0x100000 * k + 0x4 * 3; omega)]

theorem look_fenced (d : Dev) (q a : Nat) : (d.ctxError q).fencedAt a = d.fencedAt a := by
  obtain ⟨-, -, -, h⟩ := ctx_look d q
  have hp (p : Nat) (hp : p < 128) : (d.ctxError q).pcState p = d.pcState p := by
    have b : R.CARAVAN_SRAM_ERR ≥ 0x200000 := by decide
    unfold Dev.pcState Dev.get
    rw [h _ (by show 0x180100 + 4 * p ≠ _; omega) (fun k => by show 0x180100 + 4 * p ≠ 0x1000410 + 0x100000 * k + 0x4 * 3; omega)]
  have hm : (d.ctxError q).mapped = d.mapped := by
    unfold Dev.mapped
    exact List.filter_congr fun p hp2 => by rw [hp p (List.mem_range.1 hp2)]
  have hpc : (d.ctxError q).pcOf a = d.pcOf a := by unfold Dev.pcOf; rw [hm]
  unfold Dev.fencedAt
  rw [hpc, hp (d.pcOf a) (pc_lt d a)]

theorem fresh_eq (e g : Dev) (q : Nat) (i : W32) (h : g.mem.ctx = e.mem.ctx) (_hc : g.mem.hbm.cells = e.mem.hbm.cells) :
    g.fresh q i (e.mem.hbm.bytes (e.recAddr q i) 64) = decide (e.mem.hbm.byte (e.recAddr q i) = e.gen q i) := by
  have b : byteAt (e.mem.hbm.bytes (e.recAddr q i) 64) 0 = e.mem.hbm.byte (e.recAddr q i) := by
    unfold byteAt
    rw [bytes_get _ _ _ _ (by omega), add_zero]
  have gn : g.gen q i = e.gen q i := by unfold Dev.gen Dev.log2 Dev.ctx; rw [h]
  unfold Dev.fresh
  rw [b, gn]

theorem emitStatus_keep (d : Dev) (m src : Nat) (b : List Byte) : (d.emitStatus m src b).regs = d.regs ∧ (d.emitStatus m src b).chans = d.chans ∧ (d.emitStatus m src b).mem = d.mem ∧
    (d.emitStatus m src b).rings.stale = d.rings.stale := by
  unfold Dev.emitStatus
  split
  · exact ⟨rfl, rfl, rfl, rfl⟩
  · split <;> exact ⟨rfl, rfl, rfl, rfl⟩

theorem ringErr_more (d : Dev) (q cause : Nat) : (d.ringErr q cause F.CARAVAN_IRQ_STATUS_RING_ERR).mem = d.mem ∧ (d.ringErr q cause F.CARAVAN_IRQ_STATUS_RING_ERR).chans = d.chans ∧
    (d.ringErr q cause F.CARAVAN_IRQ_STATUS_RING_ERR).get F.CARAVAN_IRQ_STATUS_RING_ERR = 1 := by
  unfold Dev.ringErr
  dsimp only
  have m : (d.set F.CARAVAN_IRQ_STATUS_RING_ERR 1).mem = d.mem := rfl
  have k : (d.set F.CARAVAN_IRQ_STATUS_RING_ERR 1).chans = d.chans := rfl
  have g : (d.set F.CARAVAN_IRQ_STATUS_RING_ERR 1).get F.CARAVAN_IRQ_STATUS_RING_ERR = 1 := Dev.get_set_same _ (by decide) _
  generalize d.set F.CARAVAN_IRQ_STATUS_RING_ERR 1 = e at *
  split
  · exact ⟨m, k, g⟩
  · refine ⟨?_, ?_, ?_⟩
    · rw [Dev.set_mem, Dev.set_mem, Dev.set_mem, m]
    · rw [Dev.set_chans, Dev.set_chans, Dev.set_chans, k]
    · rw [Dev.get_set_reg _ _ (by decide), Dev.get_set_reg _ _ (by decide), Dev.get_set_reg _ _ (by decide), g]

theorem stall_shape (d : Dev) (q cause : Nat) : (d.stall q cause).chans = d.chans ∧ (d.stall q cause).mem = (Claims.ringNow d q 2 cause).mem ∧
    (d.stall q cause).get F.CARAVAN_IRQ_STATUS_RING_ERR = 1 := by
  have e0 : d.stall q cause = ((Claims.ringNow d q 2 cause).ringErr q cause F.CARAVAN_IRQ_STATUS_RING_ERR).emitStatus 3 q ([3, 0, 0, BitVec.ofNat 8 cause] ++ leBytes 4 q) := rfl
  rw [e0]
  obtain ⟨a1, a2, a3⟩ := ringErr_more (Claims.ringNow d q 2 cause) q cause
  obtain ⟨b1, b2, b3, b4⟩ := emitStatus_keep ((Claims.ringNow d q 2 cause).ringErr q cause F.CARAVAN_IRQ_STATUS_RING_ERR) 3 q ([3, 0, 0, BitVec.ofNat 8 cause] ++ leBytes 4 q)
  refine ⟨b2.trans (a2.trans rfl), b3.trans a1, ?_⟩
  unfold Dev.get Dev.rd at a3 ⊢
  rw [b1]; exact a3

theorem wake_stale (d : Dev) : d.wakeCaravan.rings.stale = d.rings.stale := by
  unfold Dev.wakeCaravan
  split <;> rfl

theorem stall_stale (d : Dev) (q cause : Nat) : (d.stall q cause).rings.stale = d.rings.stale := by
  have e0 : d.stall q cause = ((Claims.ringNow d q 2 cause).ringErr q cause F.CARAVAN_IRQ_STATUS_RING_ERR).emitStatus 3 q ([3, 0, 0, BitVec.ofNat 8 cause] ++ leBytes 4 q) := rfl
  have sr (d : Dev) (f : Fld) (v : Nat) : (d.set f v).rings = d.rings := rfl
  rw [e0, (emitStatus_keep _ _ _ _).2.2.2]
  unfold Dev.ringErr
  dsimp only
  split
  · rw [sr]; rfl
  · rw [sr, sr, sr, sr]; rfl

theorem wake_cluster (d : Dev) (k : Nat) : (d.wakeCluster k).mem = d.mem ∧ (d.wakeCluster k).chans = d.chans ∧ (d.wakeCluster k).rings = d.rings := by
  unfold Dev.wakeCluster
  split <;> exact ⟨rfl, rfl, rfl⟩

/-- A fetch that may run has its ring bound: the owner's cluster wakes. -/
theorem fetch_wakes {d : Dev} {q : Nat} {i : W32} (hf : d.fetchable q i = true) (e : Dev) (he : e.mem = d.mem) :
    e.wakeOwner q = e.wakeCluster (clu (d.owner q)) := by
  have hs : e.ringState q = d.ringState q := by unfold Dev.ringState Dev.ctxBad Dev.ctx; rw [he]
  have hk : e.ringKind q = d.ringKind q := by unfold Dev.ringKind Dev.ctx; rw [he]
  have ho : e.owner q = d.owner q := by unfold Dev.owner Dev.ctx; congr 2; rw [he]
  unfold Dev.fetchable at hf
  simp only [Bool.and_eq_true, Bool.or_eq_true, decide_eq_true_eq] at hf
  have h0 : d.ringState q ≠ 0 := by
    intro h
    have : d.ready q = 0 := by unfold Dev.ready; rw [h]; cases d.staleOf q <;> rfl
    have := hf.1.1.1.1.2
    omega
  unfold Dev.wakeOwner
  rw [hs, hk, ho, if_pos]
  rcases hf.1.1.1.1.1 with h | h <;> simp [h0, h, kindH2d]

theorem fetch_fresh (q : BitVec 18) (i s e a) (he : e = (s.dev.wakeCaravan.ctxError q.toNat).wakeCluster (clu (s.dev.owner q.toNat))) (ha : a = e.recAddr q.toNat i)
    (hx : s.dev.ctxBad q.toNat = false) (hf : s.dev.fetchable q.toNat i = true)
    (hp : (e.firstPoison a 64).isSome = true ∨ e.mem.hbm.byte a = e.gen q.toNat i) : Ends (.recordFetch q i) s fun t =>
      t.ch (e.owner q.toNat) = { s.dev.ch (e.owner q.toNat) with
        recs := (s.dev.ch (e.owner q.toNat)).recs ++ [⟨q.toNat, i, e.mem.hbm.bytes a 64, e.firstPoison a 64⟩] } ∧
      OtherChans s.dev t (e.owner q.toNat) ∧ t.mem.ctx = s.dev.mem.ctx ∧
      (∀ x, t.mem.hbm.byte x = s.dev.mem.hbm.byte x) ∧
      t.get64 (R.CARAVAN_CNT 0 0) = e.get64 (R.CARAVAN_CNT 0 0) + 1 := by
  subst ha
  obtain ⟨w1, w2, w3⟩ : e.mem = s.dev.mem ∧ e.chans = s.dev.chans ∧ e.rings.stale = s.dev.rings.stale := by
    obtain ⟨a1, a2, a3, -⟩ := ctx_look s.dev.wakeCaravan q.toNat
    obtain ⟨b1, b2, b3⟩ := wake_cluster (s.dev.wakeCaravan.ctxError q.toNat) (clu (s.dev.owner q.toNat))
    rw [← he] at b1 b2 b3
    exact ⟨b1.trans (a1.trans (wake_caravan _).1), b2.trans (a2.trans (wake_caravan _).2.1), (congrArg _ (b3.trans a3)).trans (wake_stale _)⟩
  obtain ⟨g, hg, g1, g2, g3, g4, g5⟩ := read_record e q.toNat i
  have e0 : s.dev.recordFetch q.toNat i = g.bufferRecord q.toNat i (e.mem.hbm.bytes (e.recAddr q.toNat i) 64) (e.firstPoison (e.recAddr q.toNat i) 64) := by
    unfold Dev.recordFetch
    rw [if_neg (by rw [hx]; decide), if_neg (by rw [hf]; decide)]
    dsimp only
    rw [fetch_wakes hf _ ((ctx_look _ _).1.trans (wake_caravan _).1), ← he, hg]
    dsimp only
    rw [fresh_eq e g _ _ g2 g1, if_pos (by rcases hp with h | h <;> simp [h])]
  generalize e.mem.hbm.bytes (e.recAddr q.toNat i) 64 = bs at *
  generalize e.firstPoison (e.recAddr q.toNat i) 64 = fp at *
  have how : g.owner q.toNat = e.owner q.toNat := by unfold Dev.owner Dev.ctx; congr 2; rw [g2]
  have hch : g.ch (e.owner q.toNat) = s.dev.ch (e.owner q.toNat) := by unfold Dev.ch; rw [g4, w2]
  have hok : ((s.dev.ch (e.owner q.toNat)).recs.length < 64 && (s.dev.ch (e.owner q.toNat)).active.contains (g.ctx q.toNat 0x06 2) && !((s.dev.ch (e.owner q.toNat)).recs.any fun r => r.q = q.toNat && r.index = i)) = true := by
    unfold Dev.fetchable at hf
    have ho : s.dev.owner q.toNat = e.owner q.toNat := by unfold Dev.owner Dev.ctx; congr 2; rw [w1]
    have hx : s.dev.ctx q.toNat 0x06 2 = g.ctx q.toNat 0x06 2 := by unfold Dev.ctx; rw [g2, w1]
    rw [ho, hx] at hf
    simp only [Bool.and_eq_true] at hf ⊢
    exact ⟨⟨hf.1.1.1.2, hf.1.1.2⟩, hf.1.2⟩
  refine ⟨_, (show exec (.recordFetch q i) s = _ from congrArg (done s) e0), rfl, ?_, fun c hc => ?_, ?_, fun x => ?_, ?_⟩
  all_goals clear e0
  · rw [Dev.follow_ch]
    unfold Dev.bufferRecord
    rw [how, Dev.modCh_ch_same, hch, if_pos hok]
  · rw [Dev.follow_ch]
    unfold Dev.bufferRecord
    rw [how, Dev.modCh_ch_ne _ _ _ hc]
    unfold Dev.ch; rw [g4, w2]
  · show g.mem.ctx = _; rw [g2, w1]
  · show g.mem.hbm.byte x = _; unfold Store.byte; rw [g1, w1]
  · show g.get64 _ = _; exact g5

theorem fetch_stale (q : BitVec 18) (i s e a) (he : e = (s.dev.wakeCaravan.ctxError q.toNat).wakeCluster (clu (s.dev.owner q.toNat))) (ha : a = e.recAddr q.toNat i)
    (hx : s.dev.ctxBad q.toNat = false) (hf : s.dev.fetchable q.toNat i = true)
    (hp : e.firstPoison a 64 = none) (hb : e.mem.hbm.byte a ≠ e.gen q.toNat i) : Ends (.recordFetch q i) s fun t =>
      t.rings.stale = s.dev.rings.stale.filter (·.1 ≠ q.toNat) ++ [(q.toNat, i)] ∧
      (e.ringState q.toNat = 1 → t.mem.ctx.byte (32 * q.toNat + 0x0B) = BitVec.ofNat 8 (2 + 4 * 0x10) ∧
        t.get F.CARAVAN_IRQ_STATUS_RING_ERR = 1) ∧
      (e.ringState q.toNat ≠ 1 → t.mem.ctx = s.dev.mem.ctx) ∧ AllChans s.dev t ∧ (∀ x, t.mem.hbm.byte x = s.dev.mem.hbm.byte x) := by
  subst ha
  obtain ⟨w1, w2, w3⟩ : e.mem = s.dev.mem ∧ e.chans = s.dev.chans ∧ e.rings.stale = s.dev.rings.stale := by
    obtain ⟨a1, a2, a3, -⟩ := ctx_look s.dev.wakeCaravan q.toNat
    obtain ⟨b1, b2, b3⟩ := wake_cluster (s.dev.wakeCaravan.ctxError q.toNat) (clu (s.dev.owner q.toNat))
    rw [← he] at b1 b2 b3
    exact ⟨b1.trans (a1.trans (wake_caravan _).1), b2.trans (a2.trans (wake_caravan _).2.1), (congrArg _ (b3.trans a3)).trans (wake_stale _)⟩
  obtain ⟨g, hg, g1, g2, g3, g4, g5⟩ := read_record e q.toNat i
  have e0 : s.dev.recordFetch q.toNat i = { (if g.ringState q.toNat = 1 then g.stall q.toNat 0x10 else g) with
      rings := { (if g.ringState q.toNat = 1 then g.stall q.toNat 0x10 else g).rings with
        stale := (if g.ringState q.toNat = 1 then g.stall q.toNat 0x10 else g).rings.stale.filter (·.1 ≠ q.toNat) ++ [(q.toNat, i)] } } := by
    unfold Dev.recordFetch
    rw [if_neg (by rw [hx]; decide), if_neg (by rw [hf]; decide)]
    dsimp only
    rw [fetch_wakes hf _ ((ctx_look _ _).1.trans (wake_caravan _).1), ← he, hg]
    dsimp only
    rw [fresh_eq e g _ _ g2 g1, if_neg (by rw [hp]; simpa using hb)]
  have hr : g.ringState q.toNat = e.ringState q.toNat := by unfold Dev.ringState Dev.ctxBad Dev.ctx; rw [g2]
  rw [hr] at e0
  obtain ⟨w, hw, k1, k2, k3, k4, k5⟩ : ∃ w, w = (if e.ringState q.toNat = 1 then g.stall q.toNat 0x10 else g) ∧ w.chans = g.chans ∧
      w.rings.stale = g.rings.stale ∧ w.mem.hbm = g.mem.hbm ∧
      (e.ringState q.toNat = 1 → w.mem = (Claims.ringNow g q.toNat 2 0x10).mem ∧ w.get F.CARAVAN_IRQ_STATUS_RING_ERR = 1) ∧
      (e.ringState q.toNat ≠ 1 → w.mem = g.mem) := by
    refine ⟨_, rfl, ?_⟩
    obtain ⟨s1, s2, s3⟩ := stall_shape g q.toNat 0x10
    have s4 := stall_stale g q.toNat 0x10
    by_cases h : e.ringState q.toNat = 1
    · rw [if_pos h]
      exact ⟨s1, s4, by rw [s2]; rfl, fun _ => ⟨s2, s3⟩, fun n => absurd h n⟩
    · rw [if_neg h]
      exact ⟨rfl, rfl, rfl, fun n => absurd n h, fun _ => rfl⟩
  rw [← hw] at e0
  clear hw
  refine ⟨_, (show exec (.recordFetch q i) s = _ from congrArg (done s) e0), rfl, ?_, fun h => ⟨?_, (k4 h).2⟩, fun h => ?_, fun c => ?_, fun x => ?_⟩
  · show w.rings.stale.filter _ ++ _ = _; rw [k2, g3, w3]
  · show w.mem.ctx.byte _ = _
    rw [(k4 h).1]
    show (g.mem.ctx.write (32 * q.toNat + 0x0B) [BitVec.ofNat 8 (2 + 4 * 0x10)]).byte _ = _
    rw [Store.byte_write, if_pos ⟨le_refl _, by simp⟩, Nat.sub_self]; rfl
  · show w.mem.ctx = _; rw [k5 h, g2, w1]
  · show w.chans[c] = s.dev.chans[c]; rw [k1, g4, w2]
  · show w.mem.hbm.byte x = _
    rw [k3]
    unfold Store.byte; rw [g1, w1]

theorem watermark_keep (d : Dev) (q o : Nat) : (d.watermark q o).mem = d.mem ∧ (d.watermark q o).chans = d.chans ∧ (d.watermark q o).rings = d.rings ∧ (d.watermark q o).regs = d.regs := by
  unfold Dev.watermark
  dsimp only
  generalize (if kindH2d (d.ringKind q) = true then _ else _ : Bool) = cr
  split <;> exact ⟨rfl, rfl, rfl, rfl⟩

theorem arrival_keep (d : Dev) (q : Nat) : (d.arrival q).mem = d.mem ∧ (d.arrival q).chans = d.chans ∧ (d.arrival q).rings = d.rings ∧
    (∀ r, 0x100000 ≤ r → (d.arrival q).rd r = d.rd r) := by
  unfold Dev.arrival
  split
  · generalize (BitVec.ofNat 8 (d.ctx q 0x0A 1)) = code
    generalize d.ev.dt = st
    unfold Dev.emit
    split
    · exact ⟨rfl, rfl, rfl, fun _ _ => rfl⟩
    · dsimp only
      generalize (mergeFrame _ d.ev.frames) = mf
      obtain ⟨c1, c2, c3⟩ := c64_mem ({ d with ev := { d.ev with frames := mf.1 } } : Dev) (R.EVT_CNT 1 0) (bit mf.2)
      refine ⟨c1, c2, c3, fun r hr => ?_⟩
      unfold Dev.count64
      split
      · rfl
      · have : R.EVT_CNT 1 0 + 4 < 0x100000 := by decide
        exact Dev.set64_rd_ne _ _ (by omega) (by omega)
  · exact ⟨rfl, rfl, rfl, fun _ _ => rfl⟩

theorem hbm_whole (d : Dev) (a : Nat) (bs : List Byte) (h : bs.length = 64) (ha : a % 64 = 0) (hf : d.fencedAt a = false) (x : Nat) :
    (d.hbmWrite a bs).mem.hbm.byte x = if a ≤ x ∧ x < a + 64 then bs.getD (x - a) 0 else d.mem.hbm.byte x := by
  rw [(hbmWrite_keep d a bs).2.1]
  unfold Claims.written
  by_cases hx : a ≤ x ∧ x < a + 64
  · rw [(floor_iff (by omega) ha).2 hx, hf, if_neg (by decide), if_pos hx, if_pos ⟨hx.1, by omega, Or.inr (by omega)⟩]
  · rw [if_neg hx, if_neg (show ¬(a ≤ x ∧ x < a + bs.length ∧ _) by rw [h]; exact fun k => hx ⟨k.1, k.2.1⟩)]
    split <;> rfl

theorem put_ok (s : State) (r : StatusRec) (q : Nat) (e : Dev) (a : Nat) 
    (hm : s.dev.liveKind q 5 = true → s.dev.rings.again = [] ∧ s.dev.heldAt (s.dev.recAddr q (s.dev.prod q)) 64 = false)
    (hr : s.dev.rings.statusQ.find? (fun r => !(s.dev.liveKind r.ring 5 && s.dev.ringFull r.ring)) = some r) (hq : q = r.ring)
    (he : e = ({ s.dev with rings := { s.dev.rings with statusQ := s.dev.rings.statusQ.erase r } } : Dev).ctxError q) (ha : a = e.recAddr q (e.prod q)) :
    (e.liveKind q 5 = false → Becomes .d2hRecordWrite s (e.statusLost q)) ∧
    (e.liveKind q 5 = true → e.wakeCaravan.fencedAt a = true →
      Becomes .d2hRecordWrite s (((e.wakeCaravan.ctxError q).ringLost q).stall q 0x11)) ∧
    (e.liveKind q 5 = true → e.wakeCaravan.fencedAt a = false → r.data.length = 64 → Ends .d2hRecordWrite s fun t =>
      (∀ x, t.mem.hbm.byte x = if a ≤ x ∧ x < a + 64 then (e.gen q (e.prod q) :: r.data.tail).getD (x - a) 0
        else s.dev.mem.hbm.byte x) ∧
      t.mem.ctx = s.dev.mem.ctx.write (32 * q + 0x0C) (leBytes 4 ((e.prod q).toNat + 1)) ∧
      t.rings.statusQ = s.dev.rings.statusQ.erase r ∧ AllChans s.dev t ∧
      t.get64 (R.CARAVAN_CNT 1 0) = e.get64 (R.CARAVAN_CNT 1 0) + 1) := by
  subst hq
  have e0 : s.dev.d2hRecordWrite = if e.liveKind r.ring 5 = true then e.putRecord r.ring r.data else e.statusLost r.ring := by
    unfold Dev.d2hRecordWrite
    rw [hr]
    dsimp only
    rw [if_neg, ← he]
    unfold Dev.recordHeld
    intro h
    simp only [Bool.and_eq_true] at h
    rw [(hm h.1).1, (hm h.1).2] at h
    simp at h
  obtain ⟨em, ec, es⟩ : e.mem = s.dev.mem ∧ e.chans = s.dev.chans ∧ e.rings.statusQ = s.dev.rings.statusQ.erase r := by
    obtain ⟨a1, a2, a3, -⟩ := ctx_look ({ s.dev with rings := { s.dev.rings with statusQ := s.dev.rings.statusQ.erase r } } : Dev) r.ring
    rw [he]
    exact ⟨a1, a2, congrArg _ a3⟩
  clear he
  obtain ⟨w, hw, wr, w1, w2, w3, wf, w4⟩ : ∃ w, w = e.wakeCaravan.ctxError r.ring ∧ True ∧ w.mem = e.mem ∧ w.chans = e.chans ∧ w.rings.statusQ = e.rings.statusQ ∧
      w.fencedAt a = e.wakeCaravan.fencedAt a ∧ w.get64 (R.CARAVAN_CNT 1 0) = e.get64 (R.CARAVAN_CNT 1 0) := by
    obtain ⟨a1, a2, a3, a4⟩ := ctx_look e.wakeCaravan r.ring
    obtain ⟨b1, b2, b3, b4⟩ := wake_caravan e
    refine ⟨_, rfl, trivial, a1.trans b1, a2.trans b2, (congrArg _ a3).trans b3, look_fenced _ _ _, ?_⟩
    have b : 0x100000 ≤ R.CARAVAN_CNT 1 0 := by decide
    rw [look_cnt _ _ _ (by decide)]
    unfold Dev.get64
    rw [b4 _ b, b4 _ (by omega)]
  have e1 : e.putRecord r.ring r.data = if w.fencedAt a = true then (w.ringLost r.ring).stall r.ring 0x11
      else ((((w.hbmWrite a (w.gen r.ring (e.prod r.ring) :: r.data.tail)).setCtx r.ring 0x0C 4 ((e.prod r.ring).toNat + 1)).count64 (R.CARAVAN_CNT 1 0) 1).watermark r.ring (w.occ r.ring)).arrival r.ring := by
    rw [ha, hw]; unfold Dev.putRecord; dsimp only
  rw [← hw, ← wf]
  clear hw wf wr
  refine ⟨fun h => becomes_of rfl (e0.trans (if_neg (by rw [h]; decide))), fun h h2 => becomes_of rfl (e0.trans ((if_pos h).trans (e1.trans (if_pos h2)))), fun h h2 hl => ?_⟩
  have a64 : a % 64 = 0 := by rw [ha]; unfold Dev.recAddr; omega
  have hg : w.gen r.ring (e.prod r.ring) = e.gen r.ring (e.prod r.ring) := by unfold Dev.gen Dev.log2 Dev.ctx; rw [w1]
  have hb := hbm_whole w a (e.gen r.ring (e.prod r.ring) :: r.data.tail) (by simp; omega) a64 h2
  obtain ⟨k1, _, _⟩ := hbmWrite_keep w a (e.gen r.ring (e.prod r.ring) :: r.data.tail)
  have e2 := e0.trans ((if_pos h).trans (e1.trans (if_neg (by rw [h2]; decide))))
  clear e0 e1
  rw [hg] at e2
  generalize w.hbmWrite a (e.gen r.ring (e.prod r.ring) :: r.data.tail) = v at *
  obtain ⟨u, hu, u1, u2, u3, u4⟩ : ∃ u : Dev, v.setCtx r.ring 0x0C 4 ((e.prod r.ring).toNat + 1) = u ∧ u.chans = v.chans ∧ u.rings = v.rings ∧ u.regs = v.regs ∧
      u.mem = { v.mem with ctx := v.mem.ctx.write (32 * r.ring + 0x0C) (leBytes 4 ((e.prod r.ring).toNat + 1)) } := ⟨_, rfl, rfl, rfl, rfl, rfl⟩
  rw [hu] at e2
  obtain ⟨c1, c2, c3⟩ := c64_mem u (R.CARAVAN_CNT 1 0) 1
  have c4 := c64_get u (R.CARAVAN_CNT 1 0) 1
  generalize u.count64 (R.CARAVAN_CNT 1 0) 1 = x1 at *
  obtain ⟨m1, m2, m3, m4⟩ := watermark_keep x1 r.ring (w.occ r.ring)
  generalize x1.watermark r.ring (w.occ r.ring) = x2 at *
  obtain ⟨n1, n2, n3, n4⟩ := arrival_keep x2 r.ring
  generalize x2.arrival r.ring = x3 at *
  refine ⟨_, (show exec .d2hRecordWrite s = _ from congrArg (done s) e2), rfl, fun x => ?_, ?_, ?_, fun c => ?_, ?_⟩
  · show x3.mem.hbm.byte x = _
    rw [n1, m1, c1, u4]
    show v.mem.hbm.byte x = _
    rw [hb, w1, em]
  · show x3.mem.ctx = _
    rw [n1, m1, c1, u4]
    show v.mem.ctx.write _ _ = _
    rw [k1.eq]
    show w.mem.ctx.write _ _ = _
    rw [w1, em]
  · show x3.rings.statusQ = _
    rw [n3, m3, c3, u2, k1.eq]
    show w.rings.statusQ = _
    rw [w3, es]
  · show x3.chans[c] = s.dev.chans[c]
    have hv : v.chans = w.chans := by rw [k1.eq]
    rw [n2, m2, c2, u1, hv, w2, ec]
  · show x3.get64 _ = _
    have b : 0x100000 ≤ R.CARAVAN_CNT 1 0 := by decide
    have g1 : x3.get64 (R.CARAVAN_CNT 1 0) = x1.get64 (R.CARAVAN_CNT 1 0) := by
      unfold Dev.get64; rw [n4 _ b, n4 _ (by omega)]; unfold Dev.rd; rw [m4]
    have g2 : u.get64 (R.CARAVAN_CNT 1 0) = e.get64 (R.CARAVAN_CNT 1 0) := by
      have : u.get64 (R.CARAVAN_CNT 1 0) = v.get64 (R.CARAVAN_CNT 1 0) := by unfold Dev.get64 Dev.rd; rw [u3]
      rw [this, k1.g64 _ cnt_far.2.2.1 cnt_far.2.2.2]
      exact w4
    rw [g1, c4, g2]; rfl

end Sys2Proof.Laws
end

