-- ==== Sys2Proof/Laws/Links.lean ====
section
/-! SUPPORT. Arrays and link words. -/

set_option Elab.async false

namespace Sys2Proof.Laws

open Sys2Proof.Machine Sys2Proof.Claims

theorem rec_eq (d : Dev) (a b c e : Nat) : d.linkCmdEnds a b c e = Claims.linkRecord d a b c e := rfl

theorem flag0 {d : Dev} {f : Fld} (h : d.flag f = false) : ¬d.flag f = true := by rw [h]; decide

theorem reason_eq (d : Dev) : (¬Claims.clockOk d → d.formReason = some 5) ∧
    (Claims.clockOk d → (∃ c, (d.ch c).st ≠ .idle) → d.formReason = some 4) ∧
    (Claims.clockOk d → (∀ c, (d.ch c).st = .idle) → d.formReason = none) := by
  have k : (d.stage < 3 || (d.get F.CLK_SPLL_STATUS_STATE ≠ 2 && d.get F.CLK_SPLL_STATUS_STATE ≠ 3)) = true ↔ ¬Claims.clockOk d := by
    unfold Claims.clockOk
    simp only [Bool.or_eq_true, Bool.and_eq_true, decide_eq_true_eq]
    omega
  unfold Dev.formReason
  refine ⟨fun h => if_pos (k.2 h), fun h ⟨c, hc⟩ => (if_neg fun n => k.1 n h).trans (if_pos ?_), fun h hi => (if_neg fun n => k.1 n h).trans (if_neg ?_)⟩
  · rw [Bool.not_eq_true', Bool.eq_false_iff]
    intro n
    exact hc (of_decide_eq_true (List.all_eq_true.1 n c (List.mem_finRange c)))
  · rw [Bool.not_eq_true', Bool.eq_false_iff, not_not]
    exact List.all_eq_true.2 fun c _ => decide_eq_true (hi c)

theorem form_ok (s : State) (d : Dev) (hd : d = s.dev) : (d.flag F.LINK_CMD_FORM = true →
      (d.flag F.LINK_CMD_PENDING = true → Becomes .form s d) ∧
      (d.flag F.LINK_CMD_PENDING = false → Becomes .form s
        { d.set F.LINK_CMD_PENDING 1 with link := { d.link with queuedLeave := false } })) ∧
    (d.flag F.LINK_CMD_FORM = false →
      (d.flag F.LINK_CFG_ROLE = false ∨ d.get F.LINK_CFG_N_M1 = 0 ∨ d.flag F.LINK_CFG_EN = false ∨
        d.get F.LINK_STATUS_STATE ≠ 0 → Becomes .form s (Claims.linkRecord d 6 0 0 0)) ∧
      (d.flag F.LINK_CFG_ROLE = true → d.get F.LINK_CFG_N_M1 ≠ 0 → d.flag F.LINK_CFG_EN = true → d.get F.LINK_STATUS_STATE = 0 →
        (¬Claims.clockOk d →
          Becomes .form s (Claims.linkRecord d 4 0 5 (d.get F.LINK_CFG_POS))) ∧
        (Claims.clockOk d → (∃ c, (d.ch c).st ≠ .idle) →
          Becomes .form s (Claims.linkRecord d 4 0 4 (d.get F.LINK_CFG_POS))) ∧
        (∀ g, Claims.clockOk d → (∀ c, (d.ch c).st = .idle) →
          g = ((((Claims.linkRecord d 1 0 0 0).set F.LINK_IRQ_STATUS_FORM (d.get F.LINK_IRQ_STATUS_FORM)).set
            F.LINK_CMD_FORM 1).set F.LINK_STATUS_STATE 1) →
          Becomes .form s (({ g with link := { g.link with timed := false } } : Dev).enterPhase 1)))) := by
  subst hd
  refine ⟨fun h => ⟨fun hp => becomes_of rfl ((if_pos h).trans (if_pos hp)), fun hp => becomes_of rfl ((if_pos h).trans (if_neg (flag0 hp)))⟩, fun h => ⟨fun h1 => becomes_of rfl ((if_neg (flag0 h)).trans (if_pos ?_)), fun h1 h2 h3 h4 => ?_⟩⟩
  · unfold Dev.manager Dev.arrayN Dev.linkState
    rcases h1 with h1 | h1 | h1 | h1 <;> simp [h1]
  · have e0 : s.dev.startForm = match s.dev.formReason with
        | some r => s.dev.linkCmdEnds 4 0 r s.dev.arrayPos
        | none =>
          let d := (s.dev.linkCmdEnds 1 0 0 0).set F.LINK_IRQ_STATUS_FORM (s.dev.get F.LINK_IRQ_STATUS_FORM)
          let d := (d.set F.LINK_CMD_FORM 1).set F.LINK_STATUS_STATE 1
          ({ d with link := { d.link with timed := false } } : Dev).enterPhase 1 := by
      have hn : ¬(!s.dev.manager || s.dev.arrayN < 2 || !s.dev.flag F.LINK_CFG_EN || s.dev.linkState ≠ 0) = true := by
        unfold Dev.manager Dev.arrayN Dev.linkState
        rw [h1, h3, h4]
        simp
        omega
      exact if_neg hn
    obtain ⟨r5, r4, r0⟩ := reason_eq s.dev
    have e2 : s.dev.form = s.dev.startForm := if_neg (flag0 h)
    refine ⟨fun h5 => becomes_of rfl (e2.trans ?_), fun h5 hc => becomes_of rfl (e2.trans ?_), fun g h5 h7 hg => becomes_of rfl (e2.trans ?_)⟩
    · rw [r5 h5] at e0; exact e0
    · rw [r4 h5 hc] at e0; exact e0
    · rw [r0 h5 h7] at e0
      rw [e0, hg]; rfl

theorem watch_ok (d : Dev) : (d.formReason = none ∨ d.get F.LINK_STATUS_STATE ≠ 1 → d.formWatch = d) ∧
    (∀ r, d.formReason = some r → d.get F.LINK_STATUS_STATE = 1 → d.formWatch = (d.phaseFails r).nextLinkCmd) := by
  unfold Dev.formWatch
  refine ⟨fun h => ?_, fun r h h1 => ?_⟩
  · split
    · next r hr =>
      refine if_neg fun h1 => ?_
      rcases h with h | h
      · rw [h] at hr; cases hr
      · exact h h1
    · rfl
  · rw [h]; exact if_pos h1

theorem portDown_eq (d e : Dev) (p : Port) (k : Nat) (he : e = ((d.setUp p false).dropQueue p).setIf (decide (k = 1)) (F.LINK_PORT_LANES (portIdx p)) 0)
    (h : d.portUp p = true) : (e.linkState = 0 → d.portDown p k = e) ∧ (e.linkState = 1 → d.portDown p k = (e.phaseFails 7).nextLinkCmd) ∧
    (∀ g, 2 ≤ e.linkState → g = e.parkActive.recordBreak e.arrayPos (portIdx p) k → d.portDown p k = (g.sendWord (portOther p)
          ⟨1, 2, controlBody 10 (BitVec.ofNat 32 (g.arrayPos + 16 * portIdx p + 32 * k)) g.arrayPos (g.arrayN - 1), false⟩).setIf
        (!(g.sendWord (portOther p)
          ⟨1, 2, controlBody 10 (BitVec.ofNat 32 (g.arrayPos + 16 * portIdx p + 32 * k)) g.arrayPos (g.arrayN - 1), false⟩).manager) F.LINK_STATUS_TIME_COAST 1) := by
  have hn : ¬(!d.portUp p) = true := by rw [h]; decide
  refine ⟨fun h2 => ?_, fun h2 => ?_, fun g h2 hg => ?_⟩
  · unfold Dev.portDown; rw [if_neg hn]; dsimp only; rw [← he]; split <;> first | rfl | (exfalso; simp_all)
  · unfold Dev.portDown; rw [if_neg hn]; dsimp only; rw [← he]; split <;> first | rfl | (exfalso; simp_all)
  · unfold Dev.portDown; rw [if_neg hn]; dsimp only; rw [← he]
    split
    · omega
    · omega
    · rw [← hg]

/-- A port out of service (R315). -/
def portOff (p : LinkPort) : LinkPort :=
  { p with trained := false, cells := 0, sendQ := [], seqExp := none, slips := 0, sent := 0, scrambled := false }

theorem leaveNow_eq (d a b : Dev) (ha : a = ((((((d.set F.LINK_STATUS_STATE 0).set F.LINK_STATUS_E_UP 0).set F.LINK_STATUS_W_UP 0).set (F.LINK_PORT_LANES 0) 0).set (F.LINK_PORT_LANES 1) 0).set F.LINK_STATUS_TIME_COAST 0))
    (hb : b = ({ a with link := { a.link with e := portOff a.link.e, w := portOff a.link.w, timed := false, phaseAt := none, timeHi := none, dtLoad := none, eDone := false, wDone := false } } : Dev)) :
    d.leaveNow = b.linkCmdEnds 2 0 0 0 := by
  unfold Dev.leaveNow
  dsimp only
  rw [← ha, hb]
  rfl

theorem lost_many (d : Dev) (n : Nat) : ((List.range n).foldl (fun d _ => d.evLost) d).get F.LINK_EVCNT_EV_LOST =
      min (d.get F.LINK_EVCNT_EV_LOST + n) (2 ^ F.LINK_EVCNT_EV_LOST.len - 1) ∧
    ((List.range n).foldl (fun d _ => d.evLost) d).link = d.link := by
  have lt := Dev.get_lt d F.LINK_EVCNT_EV_LOST
  have top (v : Nat) : min v (2 ^ F.LINK_EVCNT_EV_LOST.len - 1) % 2 ^ F.LINK_EVCNT_EV_LOST.len = min v (2 ^ F.LINK_EVCNT_EV_LOST.len - 1) := by
    generalize 2 ^ F.LINK_EVCNT_EV_LOST.len = m at *
    exact Nat.mod_eq_of_lt (by omega)
  generalize hm : 2 ^ F.LINK_EVCNT_EV_LOST.len = m at *
  induction n with
  | zero =>
    refine ⟨?_, rfl⟩
    change d.get F.LINK_EVCNT_EV_LOST = min (d.get F.LINK_EVCNT_EV_LOST + 0) (m - 1)
    omega
  | succ n ih =>
    rw [List.range_succ, List.foldl_append]
    generalize (List.range n).foldl (fun d _ => d.evLost) d = e at *
    have hl : e.evLost.link = e.link := by unfold Dev.evLost Dev.countSat; rw [Dev.set_link, Dev.set_link]
    refine ⟨?_, hl.trans ih.2⟩
    change (e.evLost).get F.LINK_EVCNT_EV_LOST = _
    unfold Dev.evLost Dev.countSat
    rw [Dev.get_set_reg _ _ (by decide), Dev.get_set_same _ (by decide), hm, top, ih.1]
    omega

/-- Dropping a port's queue: it carries words no more, the other port is untouched, and its event words are counted lost (R315). -/
theorem drop_port (d : Dev) (p : Port) (n : Nat) (hn : n = ((d.link.port p).sendQ.filter (·.word.ty = 1)).length) :
    (d.dropQueue p).link.port p = { d.link.port p with
      trained := false, cells := 0, sendQ := [], seqExp := none, slips := 0, scrambled := false } ∧
    (d.dropQueue p).link.port (portOther p) = d.link.port (portOther p) ∧
    (d.dropQueue p).get F.LINK_EVCNT_EV_LOST = min (d.get F.LINK_EVCNT_EV_LOST + n) (2 ^ F.LINK_EVCNT_EV_LOST.len - 1) := by
  unfold Dev.dropQueue
  dsimp only
  rw [← hn]
  obtain ⟨h1, h2⟩ := lost_many ({ d with link := { d.link.setPort p { d.link.port p with trained := false, cells := 0, sendQ := [], seqExp := none, slips := 0, scrambled := false } with
    eDone := d.link.eDone && decide (p ≠ .e), wDone := d.link.wDone && decide (p ≠ .w) } } : Dev) n
  rw [h1, h2]
  refine ⟨?_, ?_, rfl⟩ <;> cases p <;> rfl

theorem follow_get (t : Dev) (f : Fld) : t.follow.get f = t.get f := by unfold Dev.get Dev.rd; rfl

theorem follow_rd (t : Dev) (a : Nat) : t.follow.rd a = t.rd a := by unfold Dev.rd; rfl

theorem leave_queued (s : State) (d : Dev) (hd : d = s.dev) (h : d.flag F.LINK_CMD_FORM = true) :
    (d.flag F.LINK_CMD_PENDING = true → Becomes .leave s d) ∧
    (d.flag F.LINK_CMD_PENDING = false → Becomes .leave s { d.set F.LINK_CMD_PENDING 1 with link := { d.link with queuedLeave := true } }) := by
  subst hd
  exact ⟨fun hp => becomes_of rfl ((if_pos h).trans (if_pos hp)), fun hp => becomes_of rfl ((if_pos h).trans (if_neg (flag0 hp)))⟩

theorem leave_ok (s : State) (d : Dev) (hd : d = s.dev) (h : d.flag F.LINK_CMD_FORM = false) : Ends .leave s fun t =>
      t.get F.LINK_STATUS_STATE = 0 ∧ t.get F.LINK_STATUS_E_UP = 0 ∧ t.get F.LINK_STATUS_W_UP = 0 ∧
      t.get (F.LINK_PORT_LANES 0) = 0 ∧ t.get (F.LINK_PORT_LANES 1) = 0 ∧ t.link.e.sendQ = [] ∧ t.link.w.sendQ = [] ∧
      t.get F.LINK_CMD_STATUS_CODE = 2 ∧ AllChans d t ∧ t.mem = d.mem ∧
      RegsBut d t [R.LINK_STATUS, R.LINK_PORT 0, R.LINK_PORT 1, R.LINK_CMD, R.LINK_CMD_STATUS, R.LINK_IRQ_STATUS] := by
  subst hd
  have e0 : s.dev.leave = s.dev.leaveNow := if_neg (flag0 h)
  obtain ⟨a, ha⟩ : ∃ a : Dev, a = ((((((s.dev.set F.LINK_STATUS_STATE 0).set F.LINK_STATUS_E_UP 0).set F.LINK_STATUS_W_UP 0).set (F.LINK_PORT_LANES 0) 0).set (F.LINK_PORT_LANES 1) 0).set F.LINK_STATUS_TIME_COAST 0) := ⟨_, rfl⟩
  have e1 := leaveNow_eq s.dev a _ ha rfl
  have g1 : a.get F.LINK_STATUS_STATE = 0 := by
    rw [ha, Dev.get_set_bits (f := F.LINK_STATUS_TIME_COAST) (g := F.LINK_STATUS_STATE) _ _ (by decide) rfl (by decide), Dev.get_set_reg _ _ (by decide), Dev.get_set_reg _ _ (by decide),
      Dev.get_set_bits (f := F.LINK_STATUS_W_UP) (g := F.LINK_STATUS_STATE) _ _ (by decide) rfl (by decide), Dev.get_set_bits (f := F.LINK_STATUS_E_UP) (g := F.LINK_STATUS_STATE) _ _ (by decide) rfl (by decide), Dev.get_set_same _ (by decide)]
    rfl
  have g2 : a.get F.LINK_STATUS_E_UP = 0 := by
    rw [ha, Dev.get_set_bits (f := F.LINK_STATUS_TIME_COAST) (g := F.LINK_STATUS_E_UP) _ _ (by decide) rfl (by decide), Dev.get_set_reg _ _ (by decide), Dev.get_set_reg _ _ (by decide),
      Dev.get_set_bits (f := F.LINK_STATUS_W_UP) (g := F.LINK_STATUS_E_UP) _ _ (by decide) rfl (by decide), Dev.get_set_same _ (by decide)]
    rfl
  have g3 : a.get F.LINK_STATUS_W_UP = 0 := by
    rw [ha, Dev.get_set_bits (f := F.LINK_STATUS_TIME_COAST) (g := F.LINK_STATUS_W_UP) _ _ (by decide) rfl (by decide), Dev.get_set_reg _ _ (by decide), Dev.get_set_reg _ _ (by decide),
      Dev.get_set_same _ (by decide)]
    rfl
  have g4 : a.get (F.LINK_PORT_LANES 0) = 0 := by
    rw [ha, Dev.get_set_reg _ _ (by decide), Dev.get_set_reg _ _ (by decide), Dev.get_set_same _ (by decide)]; rfl
  have g5 : a.get (F.LINK_PORT_LANES 1) = 0 := by
    rw [ha, Dev.get_set_reg _ _ (by decide), Dev.get_set_same _ (by decide)]; rfl
  have g6 : a.chans = s.dev.chans ∧ a.mem = s.dev.mem ∧ a.link = s.dev.link := by rw [ha]; exact ⟨rfl, rfl, rfl⟩
  have g7 : ∀ r, r ≠ R.LINK_STATUS → r ≠ R.LINK_PORT 0 → r ≠ R.LINK_PORT 1 → a.rd r = s.dev.rd r := by
    intro r h1 h2 h3
    rw [ha, Dev.rd_set_ne _ _ h1, Dev.rd_set_ne _ _ h3, Dev.rd_set_ne _ _ h2, Dev.rd_set_ne _ _ h1, Dev.rd_set_ne _ _ h1, Dev.rd_set_ne _ _ h1]
  clear ha
  obtain ⟨b, hb, b1⟩ : ∃ b : Dev, ({ a with link := { a.link with e := portOff a.link.e, w := portOff a.link.w, timed := false, phaseAt := none, timeHi := none, dtLoad := none, eDone := false, wDone := false } } : Dev) = b ∧
    b.regs = a.regs ∧ b.chans = a.chans ∧ b.mem = a.mem ∧ b.link.e.sendQ = [] ∧ b.link.w.sendQ = [] := ⟨_, rfl, rfl, rfl, rfl, rfl, rfl⟩
  rw [hb, rec_eq] at e1
  obtain ⟨b1, b2, b3, b4, b5⟩ := b1
  have bg (f : Fld) : b.get f = a.get f := by unfold Dev.get Dev.rd; rw [b1]
  have far (f : Fld) (h1 : f.addr ≠ R.LINK_CMD) (h2 : f.addr ≠ R.LINK_CMD_STATUS) (h3 : f.addr ≠ R.LINK_IRQ_STATUS) :
      (Claims.linkRecord b 2 0 0 0).get f = a.get f := by
    unfold Claims.linkRecord
    rw [Dev.get_set_reg _ _ h3, Dev.get_set_reg _ _ h2, Dev.get_set_reg _ _ h2, Dev.get_set_reg _ _ h2, Dev.get_set_reg _ _ h2, bg]
  have f8 : (Claims.linkRecord b 2 0 0 0).get F.LINK_CMD_STATUS_CODE = 2 := by
    unfold Claims.linkRecord
    rw [Dev.get_set_reg _ _ (by decide), Dev.get_set_bits (f := F.LINK_CMD_STATUS_POS_FAIL) (g := F.LINK_CMD_STATUS_CODE) _ _ (by decide) rfl (by decide),
      Dev.get_set_bits (f := F.LINK_CMD_STATUS_REASON) (g := F.LINK_CMD_STATUS_CODE) _ _ (by decide) rfl (by decide), Dev.get_set_bits (f := F.LINK_CMD_STATUS_ABRT) (g := F.LINK_CMD_STATUS_CODE) _ _ (by decide) rfl (by decide), Dev.get_set_same _ (by decide)]
    rfl
  have f9 : ∀ r, r ≠ R.LINK_STATUS → r ≠ R.LINK_PORT 0 → r ≠ R.LINK_PORT 1 → r ≠ R.LINK_CMD → r ≠ R.LINK_CMD_STATUS → r ≠ R.LINK_IRQ_STATUS →
      (Claims.linkRecord b 2 0 0 0).rd r = s.dev.rd r := by
    intro r h1 h2 h3 h4 h5 h6
    unfold Claims.linkRecord
    rw [Dev.rd_set_ne _ _ h6, Dev.rd_set_ne _ _ h5, Dev.rd_set_ne _ _ h5, Dev.rd_set_ne _ _ h5, Dev.rd_set_ne _ _ h5, ← g7 r h1 h2 h3]
    unfold Dev.rd; rw [b1]
  have f10 : (Claims.linkRecord b 2 0 0 0).link = b.link ∧ (Claims.linkRecord b 2 0 0 0).chans = b.chans ∧
    (Claims.linkRecord b 2 0 0 0).mem = b.mem := ⟨rfl, rfl, rfl⟩
  have f1 := (far F.LINK_STATUS_STATE (by decide) (by decide) (by decide)).trans g1
  have f2 := (far F.LINK_STATUS_E_UP (by decide) (by decide) (by decide)).trans g2
  have f3 := (far F.LINK_STATUS_W_UP (by decide) (by decide) (by decide)).trans g3
  have f4 := (far (F.LINK_PORT_LANES 0) (by decide) (by decide) (by decide)).trans g4
  have f5 := (far (F.LINK_PORT_LANES 1) (by decide) (by decide) (by decide)).trans g5
  obtain ⟨f11, f12, f13⟩ := f10
  generalize Claims.linkRecord b 2 0 0 0 = t at e1 f1 f2 f3 f4 f5 f8 f9 f11 f12 f13
  refine ⟨_, (show exec .leave s = done s s.dev.leave from rfl).trans (congrArg (done s) (e0.trans e1)), rfl, (follow_get _ _).trans f1, (follow_get _ _).trans f2, (follow_get _ _).trans f3, (follow_get _ _).trans f4, (follow_get _ _).trans f5, (congrArg (fun l : Link => l.e.sendQ) f11).trans b4, (congrArg (fun l : Link => l.w.sendQ) f11).trans b5, (follow_get _ _).trans f8, fun c => ?_, f13.trans (b3.trans g6.2.1), fun r hr => ?_⟩
  · show t.chans[c] = s.dev.chans[c]; rw [f12, b2, g6.1]
  · simp only [List.mem_cons, List.not_mem_nil, or_false, not_or] at hr
    obtain ⟨h1, h2, h3, h4, h5, h6⟩ := hr
    exact (follow_rd _ _).trans (f9 r h1 h2 h3 h4 h5 h6)

theorem not_up {d : Dev} {p : Port} (h : d.portUp p = true) : ¬(!d.portUp p) = true := by rw [h]; decide

theorem down_same (d : Dev) (p : Port) (x : W32) (o h' : Nat) (b : BitVec 54) (v0 v1 v2 v3 : W64) :
    ((d.link.port p).trained = false → d.hello p x o = d ∧ d.phase p x o h' = d ∧ d.result p x o h' = d ∧ d.cellReceive p v0 v1 v2 v3 = d) ∧
    (d.portUp p = false → d.probe p x = d ∧ d.echo p x = d ∧ d.timeHi p x o h' = d ∧ d.timeLo p x o h' = d ∧
      d.beacon p x o h' = d ∧ d.verify p x o h' = d ∧ d.breakNotice p x o h' = d ∧ d.arrayEventReceive p b = d) := by
  refine ⟨fun h => ?_, fun h => ?_⟩
  · have hc : d.carries p = false := h
    and_intros <;> exact if_pos (by rw [hc]; simp)
  · and_intros <;> exact if_pos (by rw [h]; simp)

theorem off_same (d : Dev) (p : Port) (x : W32) (o h' : Nat) :
    (d.linkState ≠ 1 → d.timeHi p x o h' = d ∧ d.timeLo p x o h' = d ∧ d.verify p x o h' = d) ∧
    (2 ≤ d.linkState → d.phase p x o h' = d ∧ d.result p x o h' = d) := by
  refine ⟨fun h => ?_, fun h => ?_⟩
  · have hb : decide (d.linkState ≠ 1) = true := decide_eq_true h
    and_intros <;> exact if_pos (by rw [hb]; simp)
  · have hb : decide (2 ≤ d.linkState) = true := decide_eq_true h
    and_intros <;> exact if_pos (by rw [hb]; simp)

theorem low_same (d : Dev) (p : Port) (h : d.linkState < 2) (x : W32) (o h' : Nat) (b : BitVec 54) :
    d.beacon p x o h' = d ∧ d.breakNotice p x o h' = d ∧ d.arrayEventReceive p b = d := by
  have hb : decide (d.linkState < 2) = true := decide_eq_true h
  and_intros <;> exact if_pos (by rw [hb]; simp)

theorem queue_trained (d : Dev) (p q : Port) (f : Bool) (w : LinkWord) (hw : w.ty ≠ 1) :
    ((d.queueWord p f w).link.port q).trained = (d.link.port q).trained ∧ ((d.queueWord p f w).link.port q).scrambled = (d.link.port q).scrambled ∧
    (d.queueWord p f w).regs = d.regs := by
  unfold Dev.queueWord
  split
  · cases p <;> cases q <;> exact ⟨rfl, rfl, rfl⟩
  · exact ⟨rfl, rfl, rfl⟩

theorem get_regs {d e : Dev} (h : e.regs = d.regs) (f : Fld) : e.get f = d.get f := by unfold Dev.get Dev.rd; rw [h]

theorem up_regs {d e : Dev} (h : e.regs = d.regs) (p : Port) : e.portUp p = d.portUp p := by
  cases p <;> (show (_ != 0) = (_ != 0); rw [get_regs h])

theorem set_up (d : Dev) (p q : Port) : (d.setUp p true).portUp q = (d.portUp q || decide (q = p)) := by
  cases p <;> cases q <;> (show ((_ : Nat) != 0) = _)
  · exact (congrArg (· != 0) (Dev.get_set_same (f := F.LINK_STATUS_E_UP) d (by decide) _)).trans (by simp [bit])
  · exact (congrArg (· != 0) (Dev.get_set_bits (f := F.LINK_STATUS_E_UP) (g := F.LINK_STATUS_W_UP) d _ (by decide) rfl (by decide))).trans (by simp [Dev.portUp, Dev.flag])
  · exact (congrArg (· != 0) (Dev.get_set_bits (f := F.LINK_STATUS_W_UP) (g := F.LINK_STATUS_E_UP) d _ (by decide) rfl (by decide))).trans (by simp [Dev.portUp, Dev.flag])
  · exact (congrArg (· != 0) (Dev.get_set_same (f := F.LINK_STATUS_W_UP) d (by decide) _)).trans (by simp [bit])

theorem switch_eq (d : Dev) (p : Port) (e : Dev) (he : e = d.queueWord p false ⟨1, 2, controlBody 1 d.helloContent d.arrayPos 1, false⟩) :
    (d.portUp p = true → d.switchOver p = d) ∧
    (d.portUp p = false → (d.link.port p).trained = true → d.switchOver p = { e.setUp p true with
      link := e.link.setPort p { e.link.port p with sent := 0, seqExp := none, slips := 0, scrambled := true } }) := by
  obtain ⟨k1, k2, k3⟩ := queue_trained d p p false ⟨1, 2, controlBody 1 d.helloContent d.arrayPos 1, false⟩ (by show (2 : BitVec 2) ≠ 1; decide)
  rw [← he] at k1 k3
  refine ⟨fun h => if_pos h, fun h1 h2 => (if_neg (by rw [h1]; decide)).trans ?_⟩
  show (d.queueWord p false ⟨1, 2, controlBody 1 d.helloContent d.arrayPos 1, false⟩).enterService p = _
  rw [← he]
  unfold Dev.enterService
  rw [if_neg]
  unfold Dev.carries
  rw [k1, h2, up_regs k3, h1]; decide

theorem hello_off (d : Dev) (p : Port) (x : W32) (o : Nat) (h : d.flag F.LINK_CFG_EN = false) : d.hello p x o = d := if_pos (by rw [h]; simp)

theorem hello_run {d : Dev} {p : Port} (hc : (d.link.port p).trained = true) (he : d.flag F.LINK_CFG_EN = true) (x : W32) (o : Nat) :
    (2 ≤ d.get F.LINK_STATUS_STATE → d.hello p x o = d.switchOver p) ∧
    (d.get F.LINK_STATUS_STATE < 2 → d.flag F.LINK_CFG_ROLE = true → d.hello p x o =
      if (d.get F.LINK_STATUS_STATE ≠ 1 || d.phaseNow ≠ 1) = true then d else if d.helloDiffers p x o = true then (d.phaseFails 2).nextLinkCmd else d.portShare p) ∧
    (d.get F.LINK_STATUS_STATE < 2 → d.flag F.LINK_CFG_ROLE = false → d.hello p x o =
      if d.get F.LINK_STATUS_STATE = 1 then d else d.trainReport p (d.helloDiffers p x o)) := by
  have hb : ¬(!d.carries p || !d.flag F.LINK_CFG_EN) = true := by rw [show d.carries p = true from hc, he]; decide
  refine ⟨fun h => (if_neg hb).trans (if_pos h), fun h hm => (if_neg hb).trans ((if_neg ?_).trans (if_pos hm)),
    fun h hm => (if_neg hb).trans ((if_neg ?_).trans (if_neg (flag0 hm)))⟩ <;> (show ¬2 ≤ d.get F.LINK_STATUS_STATE; omega)

theorem differs_iff (d : Dev) (p : Port) (x : W32) (o : Nat) : d.helloDiffers p x o = true ↔
    bits x 3 0 ≠ d.get F.LINK_CFG_N_M1 ∨ o ≠ d.neighbour p ∨ (x.getLsbD 4 && d.flag F.LINK_CFG_ROLE) = true ∨ x.getLsbD 4 ≠ decide (o = 0) := by
  unfold Dev.helloDiffers Dev.manager
  have h : ((x.getLsbD 4 = true) ≠ (o = 0)) ↔ x.getLsbD 4 ≠ decide (o = 0) := by
    by_cases ho : o = 0 <;> cases x.getLsbD 4 <;> simp [ho]
  simp only [Bool.or_eq_true, decide_eq_true_eq, or_assoc, h]

theorem train_eq (d e : Dev) (p : Port) (he : e = (match p with
      | .e => { d with link := { d.link with eDone := true } } | .w => { d with link := { d.link with wDone := true } } : Dev)) :
    d.trainReport p true = d.sendControl 9 17 false ∧
    ((e.link.eDone && e.link.wDone) = true → d.trainReport p false = e.sendControl 9 (BitVec.ofNat 32 (1 + 8 * e.formReason.getD 0)) false) ∧
    ((e.link.eDone && e.link.wDone) = false → d.trainReport p false = e) := by
  have hp : d.portDone p = e := by rw [he]; cases p <;> rfl
  unfold Dev.trainReport
  rw [hp]
  exact ⟨if_pos rfl, fun h => (if_neg (by decide)).trans (if_pos h), fun h => (if_neg (by decide)).trans (if_neg (by rw [h]; decide))⟩

theorem phase_eq {d : Dev} {p : Port} (x : W32) (o h : Nat) (hc : (d.link.port p).trained = true) (hs : d.linkState < 2) (e : Dev)
    (he : e = d.forwardWord p 1 2 (controlBody 2 x o) h) : d.phase p x o h = if d.flag F.LINK_CFG_ROLE = true then d
      else if (e.linkState = 1 || bits x 2 0 = 2) = true then { e with link := { e.link with phaseAt := some (bits x 2 0, bits x 26 3) } } else e := by
  have hb : (!d.carries p || 2 ≤ d.linkState || d.manager) = d.flag F.LINK_CFG_ROLE := by
    rw [show d.carries p = true from hc, decide_eq_false (by omega : ¬2 ≤ d.linkState)]; rfl
  unfold Dev.phase
  rw [hb]
  dsimp only
  rw [← he]

theorem begin_eq (d : Dev) (n : Nat) : (d.get F.LINK_STATUS_STATE ≠ 0 → d.beginPhase n = d.enterPhase n) ∧
    (d.get F.LINK_STATUS_STATE = 0 →
      d.beginPhase n = ({ d.set F.LINK_STATUS_STATE 1 with link := { d.link with timed := false } } : Dev).enterPhase n) := by
  refine ⟨fun h => ?_, fun h => ?_⟩
  · unfold Dev.beginPhase; rw [if_neg (show ¬d.linkState = 0 from h)]
  · unfold Dev.beginPhase; rw [if_pos (show d.linkState = 0 from h)]

theorem service_eq (d : Dev) (p q : Port) : ((d.enterService p).link.port q).trained = (d.link.port q).trained ∧
    (q ≠ p → (d.enterService p).portUp q = d.portUp q ∧ ((d.enterService p).link.port q).scrambled = (d.link.port q).scrambled) ∧
    (d.portUp p = false → (d.link.port p).trained = true → (d.enterService p).portUp p = true ∧ ((d.enterService p).link.port p).scrambled = true) := by
  unfold Dev.enterService Dev.carries
  split
  · next h =>
    refine ⟨rfl, fun _ => ⟨rfl, rfl⟩, fun h1 h2 => ?_⟩
    rw [h1, h2] at h; cases h
  · refine ⟨?_, fun h => ⟨?_, ?_⟩, fun h1 h2 => ⟨?_, ?_⟩⟩
    · cases p <;> cases q <;> rfl
    · exact (up_regs rfl q).trans ((set_up d p q).trans (by simp [h]))
    · cases p <;> cases q <;> first | rfl | exact absurd rfl h
    · exact (up_regs rfl p).trans ((set_up d p p).trans (by simp))
    · cases p <;> rfl

/-- With LATENCY a port whose lanes have locked enters service (R298). -/
theorem latency_serves (d : Dev) (p : Port) (hu : d.portUp p = false) (ht : (d.link.port p).trained = true) :
    (d.enterPhase 2).portUp p = true ∧ ((d.enterPhase 2).link.port p).scrambled = true := by
  have hw (ty : Nat) (c : W32) (o : Nat) (b : Bool) : (⟨1, 2, controlBody ty c o 1, b⟩ : LinkWord).ty ≠ 1 := by show (2 : BitVec 2) ≠ 1; decide
  have key (a b : Dev) (hab : b.link.e = a.link.e ∧ b.link.w = a.link.w ∧ b.regs = a.regs) (h1 : a.portUp p = true) (h2 : (a.link.port p).scrambled = true) :
      ((b.sendNeighbour .e 3 0 true).sendNeighbour .w 3 0 true).portUp p = true ∧
      (((b.sendNeighbour .e 3 0 true).sendNeighbour .w 3 0 true).link.port p).scrambled = true := by
    obtain ⟨-, x2, x3⟩ := queue_trained b .e p false ⟨1, 2, controlBody 3 0 b.arrayPos 1, true⟩ (hw _ _ _ _)
    obtain ⟨-, y2, y3⟩ := queue_trained (b.sendNeighbour .e 3 0 true) .w p false ⟨1, 2, controlBody 3 0 (b.sendNeighbour .e 3 0 true).arrayPos 1, true⟩ (hw _ _ _ _)
    refine ⟨(up_regs (y3.trans (x3.trans hab.2.2)) p).trans h1, (y2.trans x2).trans ?_⟩
    cases p
    · show b.link.e.scrambled = _; rw [hab.1]; exact h2
    · show b.link.w.scrambled = _; rw [hab.2.1]; exact h2
  have e0 : (d.set F.LINK_CMD_STATUS_PHASE 2).portUp p = false := by
    cases p <;> (show ((d.set _ _).get _ != 0) = false; rw [Dev.get_set_reg _ _ (by decide)]; exact hu)
  have e1 : ((d.set F.LINK_CMD_STATUS_PHASE 2).link.port p).trained = true := by rw [Dev.set_link]; exact ht
  generalize hd : d.set F.LINK_CMD_STATUS_PHASE 2 = c at *
  have hs : (((c.enterService .e).enterService .w).portUp p = true) ∧ (((c.enterService .e).enterService .w).link.port p).scrambled = true := by
    obtain ⟨a1, a2, a3⟩ := service_eq c .e p
    obtain ⟨b1, b2, b3⟩ := service_eq (c.enterService .e) .w p
    cases p
    · obtain ⟨s1, s2⟩ := a3 e0 e1
      obtain ⟨t1, t2⟩ := b2 (by decide)
      exact ⟨t1.trans s1, t2.trans s2⟩
    · obtain ⟨s1, s2⟩ := a2 (by decide)
      exact b3 (s1.trans e0) (a1.trans e1)
  generalize hf : (c.enterService .e).enterService .w = f at *
  have : d.enterPhase 2 = ((({ f with link := { f.link with eDone := false, wDone := false, reported := false, results := [], phaseAt := none
                                                            since := f.ev.elapsed, aligned := false } } : Dev).sendNeighbour .e 3 0 true).sendNeighbour .w 3 0 true) := by
    unfold Dev.enterPhase
    rw [hd]
    simp only [le_refl, if_true, hf]
  rw [this]
  exact key f _ ⟨rfl, rfl, rfl⟩ hs.1 hs.2

theorem echo_eq (d : Dev) (p : Port) (x : W32) (hp : d.portUp p = true) (trip : Nat) (ht : trip = (d.ev.dt.toNat + 2 ^ 24 - bits x 23 0) % 2 ^ 24 - bits x 31 24) :
    d.echo p x = if (decide (d.linkState = 1) && decide (d.phaseNow = 2)) = true then
      if 28 < trip then (d.phaseFails 3).nextLinkCmd else (d.set (F.LINK_PORT_RAW (portIdx p)) (8 * trip)).portShare p else d := by
  unfold Dev.echo
  rw [if_neg (not_up hp)]
  dsimp only
  rw [← ht]

theorem timeHi_eq (d : Dev) (p : Port) (x : W32) (o h : Nat) (hp : d.portUp p = true) (hs : d.linkState = 1) (hn : d.phaseNow = 4) (e : Dev)
    (he : e = d.forwardWord p 1 2 (controlBody 5 x o) h) : d.timeHi p x o h = { e with link := { e.link with timeHi := some x } } := by
  unfold Dev.timeHi
  rw [if_neg (by rw [hp, hs, hn]; decide), ← he]

theorem timeLo_eq (d : Dev) (p : Port) (x : W32) (o h : Nat) (hp : d.portUp p = true) (hs : d.linkState = 1) (hn : d.phaseNow = 4) :
    (d.link.timeHi = none → d.timeLo p x o h = d) ∧ ∀ hi (e : Dev), d.link.timeHi = some hi → e = d.forwardWord p 1 2 (controlBody 6 x o) h →
      d.timeLo p x o h = { e with link := { e.link with timeHi := none, dtLoad := some (e.ev.elapsed + (256 - 16 * e.travelled p o), (hi ++ x : W64) + 256) } } := by
  unfold Dev.timeLo
  rw [if_neg (by rw [hp, hs, hn]; decide)]
  refine ⟨fun h => by rw [h], fun hi e h he => by rw [h]; dsimp only; rw [← he]⟩

theorem beacon_eq (d : Dev) (p : Port) (x : W32) (o h : Nat) (hp : d.portUp p = true) (hs : 2 ≤ d.linkState) (e : Dev)
    (he : e = d.forwardWord p 1 2 (controlBody 7 x o) h) : d.beacon p x o h =
      if (!e.manager && decide (e.ev.dt.setWidth 32 ≠ x + BitVec.ofNat 32 (16 * e.travelled p o))) = true then e.portDown p 4 else e := by
  unfold Dev.beacon
  rw [if_neg (by rw [hp]; simp; omega)]
  dsimp only
  rw [← he]

theorem verify_eq (d : Dev) (p : Port) (x : W32) (o h : Nat) (hp : d.portUp p = true) (hs : d.linkState = 1) (hn : d.phaseNow = 5) (hm : d.manager = false) (e : Dev)
    (he : e = d.forwardWord p 1 2 (controlBody 8 x o) h) : d.verify p x o h =
      if e.ev.dt.toNat % 2 ^ 24 = (bits x 23 0 + 16 * e.travelled p o) % 2 ^ 24 then e.shareDone else (e.phaseFails 6).nextLinkCmd := by
  unfold Dev.verify
  rw [if_neg (by rw [hp, hs, hn, hm]; decide)]
  dsimp only
  rw [← he]

theorem result_eq {d : Dev} {p : Port} (x : W32) (o h : Nat) (hc : (d.link.port p).trained = true) (hs : d.linkState < 2) (e : Dev)
    (he : e = d.forwardWord p 1 2 (controlBody 9 x o) h) : d.result p x o h = if e.linkState ≠ 1 then e else
      if bits x 6 3 ≠ 0 then (e.formFails (bits x 6 3) o).nextLinkCmd else if bits x 2 0 = e.phaseNow then (e.positionEnds o).nextLinkCmd else e := by
  have hb : ¬(!d.carries p || 2 ≤ d.linkState) = true := by
    rw [show d.carries p = true from hc, decide_eq_false (by omega : ¬2 ≤ d.linkState)]; decide
  unfold Dev.result
  rw [if_neg hb]
  dsimp only
  rw [← he]

/-- Forwarding a word moves no register but the two of lost event words; a control word moves none. -/
theorem forward_regs (d : Dev) (p : Port) (r : Nat) (b : Nat → BitVec 54) (h : Nat) : (d.forwardWord p r 2 b h).regs = d.regs := by
  unfold Dev.forwardWord
  split
  · rfl
  · exact (queue_trained d _ p _ _ (by show (2 : BitVec 2) ≠ 1; decide)).2.2

theorem setIf_not (d : Dev) (b : Bool) (f : Fld) (v : Nat) : d.setIf (!b) f v = if b = true then d else d.set f v := by
  unfold Dev.setIf
  cases b
  · exact (if_pos rfl).trans (if_neg (by decide)).symm
  · exact (if_neg (by decide)).trans (if_pos rfl).symm

theorem notice_eq (d : Dev) (p : Port) (x : W32) (o h : Nat) (hp : d.portUp p = true) (hs : 2 ≤ d.linkState) (g e t : Dev)
    (hg : g = d.forwardWord p 1 2 (controlBody 10 x o) h)
    (he : e = (if g.flag F.LINK_CFG_ROLE then g.recordBreak (bits x 3 0) (bits x 4 4) (bits x 7 5)
      else (g.recordBreak (bits x 3 0) (bits x 4 4) (bits x 7 5)).set F.LINK_STATUS_TIME_COAST 1))
    (ht : t = (if bits x 4 4 = 0 ∧ (bits x 3 0 + 1) % e.arrayN = e.get F.LINK_CFG_POS then e.portDown .w 5
      else if bits x 4 4 = 1 ∧ (e.get F.LINK_CFG_POS + 1) % e.arrayN = bits x 3 0 then e.portDown .e 5 else e)) :
    d.breakNotice p x o h = if t.flag F.LINK_CFG_ON_BREAK = true then t.parkActive else t := by
  unfold Dev.breakNotice
  rw [if_neg (by rw [hp]; simp; omega)]
  dsimp only
  rw [← hg]
  have e2 : (g.recordBreak (bits x 3 0) (bits x 4 4) (bits x 7 5)).setIf (!g.manager) F.LINK_STATUS_TIME_COAST 1 = e := by
    exact (setIf_not _ _ _ _).trans he.symm
  rw [e2]
  have : (if (decide (bits x 4 4 = 0) && decide ((bits x 3 0 + 1) % e.arrayN = e.arrayPos)) = true then e.portDown .w 5
      else if (decide (bits x 4 4 = 1) && decide ((e.arrayPos + 1) % e.arrayN = bits x 3 0)) = true then e.portDown .e 5 else e) = t := by
    rw [ht]
    exact if_congr (by rw [Bool.and_eq_true, decide_eq_true_eq, decide_eq_true_eq]; exact Iff.rfl) rfl
      (if_congr (by rw [Bool.and_eq_true, decide_eq_true_eq, decide_eq_true_eq]; exact Iff.rfl) rfl rfl)
  rw [this]

theorem aer_eq (d : Dev) (p : Port) (b : BitVec 54) (hp : d.portUp p = true) (hs : 2 ≤ d.linkState) (code : BitVec 8) (t : Tick) (e : Dev)
    (hc : code = BitVec.ofNat 8 (bits b 7 0)) (ht : t = expand24 d.ev.dt (BitVec.ofNat 24 (bits b 31 8)))
    (he : e = (((d.count64 (R.LINK_CNT (portIdx p) 1 0) 1).forwardWord p 0 1 (eventBody code t (bits b 35 32)) (bits b 39 36)).takeCopy p code t)) :
    d.arrayEventReceive p b = if before t e.ev.dt = true then e.arrayStop code else e := by
  unfold Dev.arrayEventReceive
  rw [if_neg (by rw [hp]; simp; omega)]
  dsimp only
  rw [← hc, ← ht, ← he]

theorem cell_eq (d : Dev) (p : Port) (v0 v1 v2 v3 : W64) (hp : (d.link.port p).trained = true) :
    (d.seqExp p v0 = none → d.cellReceive p v0 v1 v2 v3 = d.portDown p 2) ∧
    (∀ q e r0 r1 slip n f g k l m t, d.seqExp p v0 = some q →
      e = ({ d with link := d.link.setPort p { d.link.port p with
        seqExp := if (d.link.port p).scrambled then some (q + 1) else none } } : Dev) →
      r0 = takeWord v0 v2 q → r1 = takeWord v1 v3 q →
      slip = ((r0.any fun r => r.2.1) || r1.any fun r => r.2.1) → n = (if slip then (d.link.port p).slips + 1 else 0) →
      f = (if r0.any fun r => r.2.2 then e.countSat (F.LINK_PORT_CORRECTED (portIdx p)) else e) →
      g = (if r1.any fun r => r.2.2 then f.countSat (F.LINK_PORT_CORRECTED (portIdx p)) else f) →
      k = (if slip then g.countSat (F.LINK_PORT_SLIPPED (portIdx p)) else g) →
      l = ({ k with link := k.link.setPort p { k.link.port p with slips := n } } : Dev) →
      m = (match r0 with | some (w, _) => l.linkWordIn p w | none => l) →
      t = (match r1 with | some (w, _) => m.linkWordIn p w | none => m) →
      d.cellReceive p v0 v1 v2 v3 = if (r0.isNone || r1.isNone) = true then t.portDown p 2 else if 4 ≤ n then t.portDown p 3 else t) := by
  unfold Dev.cellReceive
  rw [if_neg (by rw [show d.carries p = true from hp]; decide)]
  refine ⟨fun h => by rw [h], fun q e r0 r1 slip n f g k l m t h he h0 h1 hs hn hf hg hk hl hm ht => ?_⟩
  rw [h]
  dsimp only
  rw [← he, ← h0, ← h1, ← hs]
  have ef : e.corrected p r0 = f := hf.symm
  have eg : f.corrected p r1 = g := hg.symm
  have el : g.slipped p slip (d.link.port p).slips = l := by
    unfold Dev.slipped
    dsimp only
    rw [← hk, ← hn, hl]
  have em : l.takenWord p r0 = m := by rw [hm]; cases r0 <;> rfl
  have et : m.takenWord p r1 = t := by rw [ht]; cases r1 <;> rfl
  rw [ef, eg, el, em, et, ← hn]

end Sys2Proof.Laws
end

