-- ==== Sys2Proof/Laws/Health.lean ====
section
/-! SUPPORT. Refresh, scrub, marches, rates, training. -/

set_option Elab.async false

namespace Sys2Proof.Laws

open Sys2Proof.Machine Sys2Proof.Claims

theorem readUnit_health (d : Dev) (src u n : Nat) : (d.readUnit src u n).rd R.MEM_HEALTH = d.rd R.MEM_HEALTH := by
  have k := request_rd d u n 0 R.MEM_HEALTH (by omega) (by decide)
  unfold Dev.readUnit
  split
  · rfl
  · dsimp only
    generalize d.request u n 0 = e at *
    split
    · have cap (d : Dev) : (d.memCapture 0 u src).rd R.MEM_HEALTH = d.rd R.MEM_HEALTH := by
        unfold Dev.memCapture
        split
        · rfl
        · rw [Dev.rd_wr_ne _ _ (by decide), Dev.rd_wr_ne _ _ (by decide)]
      rw [cap, Dev.rd_set_ne _ _ (by decide)]
      unfold Dev.countSat
      rw [Dev.rd_set_ne _ _ (by decide)]
      exact k
    · split
      · unfold Dev.countSat
        rw [Dev.rd_set_ne _ _ (by decide)]; exact k
      · exact k

theorem cap_eq {d t : Dev} (h : KeepM d t) (h2 : t.rd R.MEM_HEALTH = d.rd R.MEM_HEALTH) : t.capacity = d.capacity := by
  have a : t.stage = d.stage := h.get F.DEV_STAGE_STAGE ⟨Or.inl (by decide), by decide⟩
  have b : t.get F.MEM_HEALTH_MAPPED = d.get F.MEM_HEALTH_MAPPED := by
    unfold Dev.get; rw [show F.MEM_HEALTH_MAPPED.addr = R.MEM_HEALTH from rfl, h2]
  unfold Dev.capacity
  rw [a, b]

theorem traffic' {d t : Dev} (h : KeepM d t) : Claims.MemoryTraffic d t := by
  refine ⟨?_, ?_, ?_, ?_⟩
  · intro e; rw [h.eq]; rfl
  · rw [h.eq]
  · intro r hr h0; exact h.rd r ⟨hr, h0⟩
  · rw [h.eq]; exact ⟨rfl, rfl, rfl, rfl, rfl, rfl, rfl, rfl, rfl, rfl, rfl, rfl, rfl, rfl, rfl, rfl, rfl, rfl⟩

theorem scrub_eq (d : Dev) (a : Nat) (raced : Bool) (u : Nat) (hu : u = a / 64 * 64) (h1 : d.flag F.MEM_SCRUB_EN = true) (h2 : u + 64 ≤ d.capacity)
    (h3 : d.heldAt u 64 = false) (h5 : u = d.hbm.scrubAt) (h6 : u = 0 → d.passDue = true) : ∃ e, KeepM d e ∧ (∀ x, e.mem.hbm.byte x = d.mem.hbm.byte x) ∧ (d.fencedAt u = true → e = d) ∧
    (d.fencedAt u = false → d.mem.hbm.ce.contains u = true → d.mem.hbm.bad u = false → raced = false → u ∉ e.mem.hbm.ce) ∧
    e.capacity = d.capacity ∧ d.scrubRead a raced = e.scrubOn u := by
  obtain ⟨k, k2, k3⟩ := readUnit_keep d 5 u 64
  have k4 := readUnit_health d 5 u 64
  have e0 : d.scrubRead a raced = (if d.fencedAt u = true then d.scrubOn u
      else (if (d.mem.hbm.ce.contains u && !d.mem.hbm.bad u && !raced) = true then
          ({ (d.readUnit 5 u 64).request u 64 1 with mem := { ((d.readUnit 5 u 64).request u 64 1).mem with hbm :=
            { ((d.readUnit 5 u 64).request u 64 1).mem.hbm with ce := ((d.readUnit 5 u 64).request u 64 1).mem.hbm.ce.filter (· ≠ u) } } } : Dev)
        else d.readUnit 5 u 64).scrubOn u) := by
    unfold Dev.scrubRead
    dsimp only
    rw [← hu, if_neg]
    have b6 : (decide (u = 0) && !d.passDue) = false := by
      by_cases h : u = 0
      · rw [h6 h]; simp
      · rw [decide_eq_false h]; rfl
    rw [b6, h1, h3, decide_eq_false (show ¬d.capacity < u + 64 by omega), decide_eq_false (show ¬u ≠ d.hbm.scrubAt from fun h => h h5)]; decide
  rw [e0]
  by_cases hf : d.fencedAt u = true
  · rw [if_pos hf]
    exact ⟨d, KeepM.refl d, fun _ => rfl, fun _ => rfl, fun h => (by rw [hf] at h; cases h), rfl, rfl⟩
  · rw [if_neg hf]
    by_cases hc : (d.mem.hbm.ce.contains u && !d.mem.hbm.bad u && !raced) = true
    · rw [if_pos hc]
      generalize d.readUnit 5 u 64 = g at *
      have q := keep_request g u 64 1 (by omega)
      have qm := request_mem g u 64 1
      have q4 := request_rd g u 64 1 R.MEM_HEALTH (by omega) (by decide)
      generalize g.request u 64 1 = w at *
      have kk : KeepM w { w with mem := { w.mem with hbm := { w.mem.hbm with ce := w.mem.hbm.ce.filter (· ≠ u) } } } := ⟨fun _ _ => rfl, rfl⟩
      have ks := k.trans (q.trans kk)
      obtain ⟨e, he⟩ : ∃ e : Dev, e = { w with mem := { w.mem with hbm := { w.mem.hbm with ce := w.mem.hbm.ce.filter (· ≠ u) } } } := ⟨_, rfl⟩
      have he2 : e.mem.hbm.ce = w.mem.hbm.ce.filter (· ≠ u) := by rw [he]
      have he3 : e.mem.hbm.cells = w.mem.hbm.cells := by rw [he]
      have he4 : e.rd R.MEM_HEALTH = w.rd R.MEM_HEALTH := by rw [he]; rfl
      rw [← he] at ks ⊢
      refine ⟨e, ks, fun x => ?_, fun h => absurd h hf, fun _ _ _ _ => ?_, ?_, rfl⟩
      · unfold Store.byte; rw [he3, qm, k2]
      · rw [he2]; simp
      · exact cap_eq ks (he4.trans (q4.trans k4))
    · rw [if_neg hc]
      refine ⟨_, k, fun x => ?_, fun h => absurd h hf, fun _ a b c => ?_, ?_, rfl⟩
      · unfold Store.byte; rw [k2]
      · rw [a, b, c] at hc; exact absurd rfl hc
      · exact cap_eq k k4

theorem scrubOn_eq (e f : Dev) (u : Nat) (hf : f = (if u = 0 then { e with hbm := { e.hbm with passAt := some e.ev.elapsed } } else e)) :
    (u + 64 < e.capacity → e.scrubOn u = { f with hbm := { f.hbm with scrubAt := u + 64 } }) ∧
    (u + 64 = e.capacity → e.scrubOn u = ({ f with hbm := { f.hbm with scrubAt := 0 } } : Dev).countSat F.MEM_SCRUB_PASSES) := by
  have hc : f.capacity = e.capacity := by rw [hf]; split <;> rfl
  unfold Dev.scrubOn
  dsimp only
  rw [← hf, hc]
  constructor
  · intro h; rw [if_neg (by omega), if_neg (by omega)]
  · intro h; rw [if_pos h, if_pos h]

theorem live_iff (d : Dev) (k : Nat) (hk : k < 4) : d.liveStacks.contains k = true ↔ ∃ p, p ∈ d.mapped ∧ p / 32 = k := by
  unfold Dev.liveStacks
  rw [List.contains_iff_mem, List.mem_filter, List.mem_range]
  unfold Dev.stackMapped Dev.mapped
  rw [List.any_eq_true]
  constructor
  · rintro ⟨_, i, h1, h2⟩
    rw [List.mem_range] at h1
    exact ⟨32 * k + i, List.mem_filter.2 ⟨List.mem_range.2 (by omega), h2⟩, by omega⟩
  · rintro ⟨p, h1, h2⟩
    rw [List.mem_filter, List.mem_range] at h1
    exact ⟨hk, p % 32, List.mem_range.2 (by omega), by rw [show 32 * k + p % 32 = p by omega]; exact h1.2⟩

theorem runs_get (d : Dev) (n : Nat) (on : Bool) (f : Fld) (h : f.addr ≠ R.CLK_RUN ((n - 1) / 32)) : (d.setRuns n on).get f = d.get f := by
  unfold Dev.setRuns
  exact Dev.get_set_reg d _ h

theorem sleep_ok (d : Dev) (k : Fin 4) : (d.sleepStack k).get (F.HBM_STATUS_POWER k) = 1 ∧ (d.sleepStack k).hbm.pages = d.hbm.pages.filter (fun x => x.1 / 1024 ≠ k.val) ∧
    (d.sleepStack k).mem = d.mem ∧ (d.sleepStack k).chans = d.chans := by
  refine ⟨?_, rfl, rfl, rfl⟩
  show (d.set (F.HBM_STATUS_POWER k) 1).get (F.HBM_STATUS_POWER k) = 1
  rw [Dev.get_set_same _ (by simp)]
  rfl

theorem refresh_eq (d : Dev) (p : Fin 128) (b : Fin 32) (w x : Bool) : d.refresh p b w x =
    if (decide (d.stage < 4) || decide (d.get (F.HBM_STATUS_POWER (p.val / 32)) < 2) || d.memHeld) = true then d
    else if (!w) = true then Claims.bankClosed d p b
    else if x = true then (Claims.bankClosed d p b).countSat (F.HBM_REF_FORCED (p.val / 32)) else d := rfl

theorem and3 (a b r : Bool) (h : a = false ∨ b = true ∨ r = true) : ¬((a && !b) && !r) = true := by
  rcases h with h | h | h <;> rw [h] <;> simp

/-! Sirocco -/

theorem region_lt {m : Sram} {a e i : Nat} (h : regionOf m a = some (e, i)) : e < 9 := by
  unfold regionOf at h
  cases m <;> dsimp only at h <;> split at h <;> simp only [Option.some.injEq, Prod.mk.injEq, reduceCtorEq] at h <;> omega

theorem region_step (d : Dev) (e : Fin 9) (m : Sram) (a : Nat) (acc : Bool) (r : MarchResult) (hr : d.engineRuns e = true) :
    (d.testing e = none → d.siroccoRegion e m a acc r = d.takeRegion e) ∧
    (∀ t, d.testing e = some t → d.siroccoRegion e m a acc r =
      if (decide (regionOf m a ≠ some (e.val, t.idx)) || (!acc && decide (r = .clean) && decide (d.ev.elapsed < t.start + 3072))) = true then d
      else if acc = true then (d.abandonAt m a).takeRegion e else (d.marchEnds e m a r).takeRegion e) := by
  unfold Dev.siroccoRegion
  rw [if_neg (by rw [hr]; decide)]
  exact ⟨fun h => by rw [h], fun t h => by rw [h]⟩

theorem test_set (v : Vector (Option RegionTest) 9) (e : Fin 9) (x : Option RegionTest) : (v.setIfInBounds e x)[e.val]?.join = x := by
  rw [Vector.getElem?_setIfInBounds_self_of_lt e.isLt]; rfl

theorem abandon_eq (d : Dev) (m : Sram) (a : Nat) (e : Fin 9) (i : Nat) (t : RegionTest) (h : regionOf m a = some (e.val, i)) (ht : d.testing e = some t) :
    (t.idx ≠ i → d.abandonAt m a = d) ∧
    (t.idx = i → (d.abandonAt m a).testing e = none ∧ (d.abandonAt m a).sirocco.again[e] = d.sirocco.again[e] ++ [(i, 64)] ∧ (d.abandonAt m a).mem = d.mem) := by
  refine ⟨fun hi => ?_, fun hi => ⟨?_, ?_, abandonAt_mem d m a⟩⟩
  · unfold Dev.abandonAt
    rw [h]
    dsimp only
    rw [if_neg (by rw [ht]; simpa using hi)]
  all_goals
    have hs : (d.abandonAt m a).sirocco = d.sirocco.giveUp e i 64 := by
      unfold Dev.abandonAt
      rw [h]
      dsimp only
      rw [if_pos (by rw [ht]; simpa using hi)]
      split <;> rfl
  · unfold Dev.testing; rw [hs]; exact test_set _ _ _
  · rw [hs]
    show (d.sirocco.again.setIfInBounds e (d.sirocco.again[e.val]?.getD [] ++ [(i, 64)]))[e.val] = _
    rw [Vector.getElem_setIfInBounds_self, Vector.getElem?_eq_getElem e.isLt]
    rfl

theorem done_eq (d : Dev) (e : Fin 9) : (d.regionDone e).testing e = none ∧ (d.regionDone e).sirocco.again[e] = d.sirocco.again[e].map fun p => (p.1, p.2 - 1) := by
  constructor
  · exact test_set _ _ _
  · show (d.sirocco.again.setIfInBounds e ((d.sirocco.again[e.val]?.getD []).map fun p => (p.1, p.2 - 1)))[e.val] = _
    rw [Vector.getElem_setIfInBounds_self, Vector.getElem?_eq_getElem e.isLt]
    rfl

theorem take_eq (d : Dev) (e : Fin 9) (again : List (Nat × Nat)) (ha : again = d.sirocco.again[e]) :
    (∀ p, again.find? (fun p => p.2 = 0 && d.testable e p.1) = some p → d.takeRegion e =
      ({ d with sirocco := { d.sirocco with again := d.sirocco.again.set e (again.erase p) } } : Dev).saveRegion e p.1) ∧
    (∀ i f, again.find? (fun p => p.2 = 0 && d.testable e p.1) = none → i = d.skipTo e 4 d.sirocco.next[e] →
      f = (if i < passRegions e ∨ 8 ≤ e.val then d else d.countSat (F.CL_SIR_STATUS_PASSES e)) →
      ∀ n, n = (if i < passRegions e then i else 0) → d.takeRegion e =
        ({ f with sirocco := { f.sirocco with next := f.sirocco.next.set e (n + 1) } } : Dev).saveRegion e n) := by
  have g : d.sirocco.again[e.val]?.getD [] = again := by rw [ha, Vector.getElem?_eq_getElem e.isLt]; rfl
  have g2 : d.sirocco.next[e.val]?.getD 0 = d.sirocco.next[e] := by rw [Vector.getElem?_eq_getElem e.isLt]; rfl
  have se {α : Type} (v : Vector α 9) (x : α) : v.setIfInBounds e.val x = v.set e.val x := by
    unfold Vector.setIfInBounds Vector.set; congr 1; exact Array.setIfInBounds_def .. ▸ by rw [dif_pos (by simp)]
  unfold Dev.takeRegion
  dsimp only
  rw [g, g2]
  refine ⟨fun p h => ?_, fun i f h hi hf n hn => ?_⟩
  · rw [h]
    dsimp only
    rw [se]
  · rw [h]
    dsimp only
    rw [← hi]
    have hd : (if (decide (passRegions e ≤ i) && decide (e.val < 8)) = true then d.countSat (F.CL_SIR_STATUS_PASSES e) else d) = f := by
      rw [hf]
      by_cases h1 : i < passRegions e
      · rw [if_neg (by simp; omega), if_pos (Or.inl h1)]
      · by_cases h2 : 8 ≤ e.val
        · rw [if_neg (by simp; omega), if_pos (Or.inr h2)]
        · rw [if_pos (by simp; omega), if_neg (by omega)]
    have hi2 : (if passRegions e ≤ i then 0 else i) = n := by
      rw [hn]
      by_cases h1 : i < passRegions e
      · rw [if_neg (by omega), if_pos h1]
      · rw [if_pos (by omega), if_neg h1]
    rw [hd, hi2, se]

theorem skip_spec (d : Dev) (e n : Nat) : n ≤ d.skipTo e 4 n ∧ (d.skipTo e 4 n < passRegions e → d.testable e (d.skipTo e 4 n) = true) ∧
    (∀ j, n ≤ j → j < d.skipTo e 4 n → j < passRegions e → d.testable e j = false) := by
  have big (i : Nat) (h : d.testable e i = false) : e < 8 ∧ 33792 ≤ i := by
    unfold Dev.testable regionChannel at h
    by_cases hc : (decide (e < 8) && decide (33792 ≤ i)) = true
    · simpa using hc
    · rw [if_neg hc] at h; cases h
  have same (i j : Nat) (h : d.testable e i = false) (hj : i ≤ j) (h2 : j < (i - 33792) / 1024 * 1024 + 34816) : d.testable e j = false := by
    obtain ⟨h1, h3⟩ := big i h
    have hk : (j - 33792) / 1024 = (i - 33792) / 1024 := by omega
    rw [← h]
    unfold Dev.testable regionChannel
    rw [if_pos (by simp; omega), if_pos (by simp; omega), hk]
  have key : ∀ f n, n ≤ d.skipTo e f n ∧ (∀ j, n ≤ j → j < d.skipTo e f n → j < passRegions e → d.testable e j = false) ∧
      ((d.skipTo e f n < passRegions e → d.testable e (d.skipTo e f n) = true) ∨
        (e < 8 ∧ 33792 ≤ n ∧ ((n - 33792) / 1024 + f) * 1024 + 33792 ≤ d.skipTo e f n)) := by
    intro f
    induction f with
    | zero =>
      intro n
      refine ⟨le_refl _, fun j h1 h2 => absurd h2 (by show ¬j < n; omega), ?_⟩
      cases ht : d.testable e (d.skipTo e 0 n)
      · obtain ⟨b1, b2⟩ := big n ht
        exact Or.inr ⟨b1, b2, by show _ ≤ n; omega⟩
      · exact Or.inl fun _ => rfl
    | succ f ih =>
      intro n
      by_cases hc : (decide (n < passRegions e) && !d.testable e n) = true
      · have e0 : d.skipTo e (f + 1) n = d.skipTo e f ((n - 33792) / 1024 * 1024 + 34816) := by rw [Dev.skipTo, if_pos hc]
        simp only [Bool.and_eq_true, decide_eq_true_eq, Bool.not_eq_true'] at hc
        obtain ⟨b1, b2⟩ := big n hc.2
        obtain ⟨i1, i2, i3⟩ := ih ((n - 33792) / 1024 * 1024 + 34816)
        rw [e0]
        refine ⟨by omega, fun j h1 h2 h3 => ?_, ?_⟩
        · by_cases hj : j < (n - 33792) / 1024 * 1024 + 34816
          · exact same n j hc.2 h1 hj
          · exact i2 j (by omega) h2 h3
        · rcases i3 with i3 | ⟨i3, i4, i5⟩
          · exact Or.inl i3
          · refine Or.inr ⟨i3, b2, ?_⟩
            rw [show ((n - 33792) / 1024 * 1024 + 34816 - 33792) / 1024 = (n - 33792) / 1024 + 1 by omega] at i5
            rwa [Nat.add_assoc, Nat.add_comm 1 f] at i5
      · have e0 : d.skipTo e (f + 1) n = n := by rw [Dev.skipTo, if_neg hc]
        rw [e0]
        refine ⟨le_refl _, fun j h1 h2 => absurd h2 (by omega), Or.inl fun h => ?_⟩
        rw [decide_eq_true h] at hc
        simpa using hc
  obtain ⟨k1, k2, k3⟩ := key 4 n
  refine ⟨k1, fun h => ?_, k2⟩
  rcases k3 with k3 | ⟨k3, k4, k5⟩
  · exact k3 h
  · have : passRegions e = 37888 := if_pos k3
    omega

/-! A region taken under test: only the reads of its units come before -/

theorem save_eq (d : Dev) (e : Fin 9) (i : Nat) : ∃ t, (d.saveRegion e i).testing e = some t ∧ t.idx = i ∧ t.saved.length = 256 := by
  unfold Dev.saveRegion
  dsimp only
  refine ⟨_, test_set _ _ _, rfl, bytes_len _ _ _⟩

theorem cellFail_eq (d : Dev) (k : Fin 8) (m : Sram) (a : Nat) : (d.cellFail k m a).get (F.CL_SIR_STATUS_FAIL k) = 1 ∧
    (d.flag (F.CL_SIR_FAIL_ADDR_VALID k) = true → d.cellFail k m a = d.set (F.CL_SIR_STATUS_FAIL k) 1) ∧
    (d.flag (F.CL_SIR_FAIL_ADDR_VALID k) = false → (d.cellFail k m a).get (F.CL_SIR_FAIL_ADDR_VALID k) = 1) := by
  have ne : R.CL_SIR_STATUS k ≠ R.CL_SIR_FAIL_ADDR k := by
    have a : R.CL_SIR_STATUS k = R.CL_SIR_STATUS 0 + 0x100000 * k.val := by show _ + _ * _ = _ + _ * 0 + _; omega
    have b : R.CL_SIR_FAIL_ADDR k = R.CL_SIR_FAIL_ADDR 0 + 0x100000 * k.val := by show _ + _ * _ = _ + _ * 0 + _; omega
    have c : R.CL_SIR_STATUS 0 ≠ R.CL_SIR_FAIL_ADDR 0 := by decide
    omega
  have g : (d.set (F.CL_SIR_STATUS_FAIL k) 1).get (F.CL_SIR_STATUS_FAIL k) = 1 := Dev.get_set_same _ (by simp) _
  have hv : (d.set (F.CL_SIR_STATUS_FAIL k) 1).flag (F.CL_SIR_FAIL_ADDR_VALID k) = d.flag (F.CL_SIR_FAIL_ADDR_VALID k) := by
    unfold Dev.flag; rw [Dev.get_set_reg _ _ ne.symm]
  unfold Dev.cellFail
  dsimp only
  rw [if_neg (by omega), hv]
  generalize d.set (F.CL_SIR_STATUS_FAIL k) 1 = e at *
  refine ⟨?_, fun h => if_pos h, fun h => ?_⟩
  · split
    · exact g
    · rw [Dev.get_set_reg _ _ ne, Dev.get_set_reg _ _ ne, Dev.get_set_reg _ _ ne, Dev.get_set_reg _ _ ne]; exact g
  · rw [if_neg (by rw [h]; decide)]
    exact Dev.get_set_same _ (by simp) _

theorem devFail_eq (d : Dev) (m : Sram) (a : Nat) : d.cellFail 8 m a = { d with sirocco := { d.sirocco with
    fails := d.sirocco.fails + 1
    failed := if d.sirocco.failed.isSome then d.sirocco.failed else some (m, a / 64 * 64) } } := rfl

theorem counted_get (d : Dev) (f : Fld) (h : d.get f < 2 ^ f.len - 1) (hw : f.lo + f.len ≤ 32) : (d.countSat f).get f = d.get f + 1 := by
  unfold Dev.countSat
  rw [Dev.get_set_same _ hw]
  have : min (d.get f + 1) (2 ^ f.len - 1) = d.get f + 1 := by omega
  rw [this]
  exact Nat.mod_eq_of_lt (by omega)

theorem freq_eq (d : Dev) (r : Bool) (v acc : Nat) (h : d.pendingOf F.MEM_FREQ_CTRL_RATE = some (v, acc)) (e : Dev) (he : e = d.dropPending F.MEM_FREQ_CTRL_RATE) :
    d.freqChange r = if (!d.freqIdle || d.memHeld || d.hbm.deferred.isSome || d.tripped || decide (d.ev.elapsed < acc + 2)) = true then d
    else if v = e.pinRate then (e.set F.MEM_FREQ_STATUS_CODE 2).set F.MEM_FREQ_STATUS_REASON 0
    else if (!e.hbm.trained.contains v) = true then ((e.set F.MEM_FREQ_STATUS_CODE 6).set F.MEM_FREQ_STATUS_REASON 1).set F.MEM_IRQ_STATUS_FREQ 1
    else if e.hbm.slice.isSome = true then
      { (e.set F.MEM_FREQ_STATUS_CODE 1).set F.MEM_FREQ_STATUS_DEFERRED 1 with hbm := { e.hbm with deferred := some (v, r) } }
    else e.startChange v r := by
  unfold Dev.freqChange
  rw [h, he]
  rfl

theorem start_change (e : Dev) (v : Nat) (r : Bool) (t : Dev) (ht : t = e.startChange v r) : t.hbm.newRate = some v ∧ t.hbm.pages = [] ∧ t.get F.MEM_FREQ_STATUS_CODE = 1 ∧
    t.hbm.changeAt = e.ev.elapsed ∧ (r = false → t.hbm.changeEnd = none) ∧
    (r = true → ∃ n, t.hbm.changeEnd = some n ∧ e.ev.elapsed < n ∧ n ≤ e.ev.elapsed + 4800) ∧ t.mem = e.mem ∧ t.chans = e.chans := by
  obtain ⟨g, hg, g1, g2, g3⟩ : ∃ g : Dev, g = e.liveStacks.foldl (fun d s => d.set (F.HBM_STATUS_POWER s) 3) e ∧ g.mem = e.mem ∧ g.chans = e.chans ∧ g.ev = e.ev := by
    refine ⟨_, rfl, ?_⟩
    exact foldl_keeps (fun t : Dev => t.mem = e.mem ∧ t.chans = e.chans ∧ t.ev = e.ev) (fun (d : Dev) s => d.set (F.HBM_STATUS_POWER s) 3) (fun t s h => by rw [Dev.set_mem, Dev.set_chans, Dev.set_ev]; exact h) _ e ⟨rfl, rfl, rfl⟩
  have h0 : t = { g.set F.MEM_FREQ_STATUS_CODE 1 with free := (g.set F.MEM_FREQ_STATUS_CODE 1).free + 1, hbm := { (g.set F.MEM_FREQ_STATUS_CODE 1).hbm with
      newRate := some v, pages := [], changeAt := (g.set F.MEM_FREQ_STATUS_CODE 1).ev.elapsed
      changeEnd := if r = true then some ((g.set F.MEM_FREQ_STATUS_CODE 1).ev.elapsed + 1 + Config.changeTicks (g.set F.MEM_FREQ_STATUS_CODE 1).free % 4800) else none } } := by
    rw [ht, hg]; rfl
  have hc : (g.set F.MEM_FREQ_STATUS_CODE 1).get F.MEM_FREQ_STATUS_CODE = 1 := Dev.get_set_same _ (by decide) _
  have he : (g.set F.MEM_FREQ_STATUS_CODE 1).ev = e.ev := by rw [Dev.set_ev, g3]
  have hm : (g.set F.MEM_FREQ_STATUS_CODE 1).mem = e.mem := by rw [Dev.set_mem, g1]
  have hch : (g.set F.MEM_FREQ_STATUS_CODE 1).chans = e.chans := by rw [Dev.set_chans, g2]
  generalize g.set F.MEM_FREQ_STATUS_CODE 1 = w at *
  subst h0
  refine ⟨rfl, rfl, hc, congrArg (·.elapsed) he, fun h => ?_, fun h => ?_, hm, hch⟩
  · show (if r = true then _ else none) = none; rw [h]; rfl
  · refine ⟨_, if_pos h, ?_, ?_⟩
    · rw [he]; omega
    · rw [he]
      have := Nat.mod_lt (Config.changeTicks w.free) (show 0 < 4800 by decide)
      omega

theorem drop_keep (d : Dev) (f : Fld) : (d.dropPending f).mem = d.mem ∧ (d.dropPending f).chans = d.chans ∧ (d.dropPending f).ev = d.ev ∧
    (d.dropPending f).regs = d.regs ∧ (d.dropPending f).hbm = d.hbm := ⟨rfl, rfl, rfl, rfl, rfl⟩

theorem change_ends (d e : Dev) (code reason : Nat)
    (he : e = d.liveStacks.foldl (fun (d : Dev) k => ((d.set (F.HBM_STATUS_POWER k) 2).setRuns (23 + k) true).setRuns (27 + k) true)
       { d with hbm := { d.hbm with newRate := none, changeEnd := none } }) :
    d.changeEnds code reason = (((e.set F.MEM_FREQ_STATUS_CODE code).set F.MEM_FREQ_STATUS_REASON reason).set F.MEM_IRQ_STATUS_FREQ 1).memServes := by
  have el : ({ d with hbm := { d.hbm with newRate := none, changeEnd := none } } : Dev).liveStacks = d.liveStacks := rfl
  unfold Dev.changeEnds
  dsimp only
  unfold Dev.stackUp
  rw [el, ← he]

theorem remap_eq (d : Dev) (h : d.flag F.MEM_MAP_CTRL_REMAP = false) : d.remap =
    if (!(List.finRange 32).all (fun c => (d.ch c).quiet)) = true then d.remapEnds 6 1
    else if d.boundRings.any (fun q => d.ringState q ≠ 0) = true then d.remapEnds 6 2
    else if d.fills.toList.any (·.isSome) = true then d.remapEnds 6 3
    else if (d.memHeld || d.hbm.slice.isSome) = true then (d.set F.MEM_MAP_CTRL_REMAP 1).set F.MEM_MAP_STATUS_CODE 1
    else d.remapNow := (if_neg (flag0 h)).trans rfl

theorem remapResume_eq (d : Dev) : (d.flag F.MEM_MAP_CTRL_REMAP = false ∨ d.memHeld = true ∨ d.hbm.slice ≠ none → d.remapResume = d) ∧
     (d.flag F.MEM_MAP_CTRL_REMAP = true → d.memHeld = false → d.hbm.slice = none →
       (d.remapNow.flag F.MEM_MAP_CTRL_PENDING = false → d.remapResume = d.remapNow) ∧
       (d.remapNow.flag F.MEM_MAP_CTRL_PENDING = true → d.remapResume = (d.remapNow.set F.MEM_MAP_CTRL_PENDING 0).takeRemap)) := by
  unfold Dev.remapResume Dev.memBusy
  constructor
  · intro h
    refine if_pos ?_
    rcases h with h | h | h
    · rw [h]; rfl
    · rw [h]; simp
    · rw [Option.isSome_iff_ne_none.2 h]; simp
  · intro h1 h2 h3
    rw [if_neg (by rw [h1, h2, h3]; decide)]
    dsimp only
    exact ⟨fun h => if_neg (flag0 h), fun h => if_pos h⟩

theorem stacks_fold (l : List Nat) (d : Dev) : ∀ t, t = l.foldl (fun (d : Dev) s => if (!d.stackMapped s && decide (d.get (F.HBM_STATUS_POWER s) ≠ 0)) = true then d.sleepStack s else d) d →
    t.mem = d.mem ∧ t.heads = d.heads ∧ t.hbm.posted = d.hbm.posted ∧ (d.hbm.pages = [] → t.hbm.pages = []) ∧ (∀ p, p < 128 → t.pcState p = d.pcState p) := by
  induction l generalizing d with
  | nil => rintro t rfl; exact ⟨rfl, rfl, rfl, fun h => h, fun _ _ => rfl⟩
  | cons s l ih =>
    intro t ht
    rw [List.foldl_cons] at ht
    obtain ⟨e, he, e1, e2, e3, e4, e5⟩ : ∃ e : Dev, (if (!d.stackMapped s && decide (d.get (F.HBM_STATUS_POWER s) ≠ 0)) = true then d.sleepStack s else d) = e ∧
        e.mem = d.mem ∧ e.heads = d.heads ∧ e.hbm.posted = d.hbm.posted ∧ (d.hbm.pages = [] → e.hbm.pages = []) ∧ (∀ p, p < 128 → e.pcState p = d.pcState p) := by
      by_cases h : (!d.stackMapped s && decide (d.get (F.HBM_STATUS_POWER s) ≠ 0)) = true
      · refine ⟨_, if_pos h, rfl, rfl, rfl, fun h => ?_, fun p hp => ?_⟩
        · show d.hbm.pages.filter _ = []; rw [h]; rfl
        · show (d.set (F.HBM_STATUS_POWER s) 1).get (F.MEM_PC_STAT_STATE p) = _
          exact Dev.get_set_reg (f := F.HBM_STATUS_POWER s) (g := F.MEM_PC_STAT_STATE p) d 1 (by show 0x180100 + 0x4 * p ≠ 0x100000 + 0x10000 * s; omega)
      · exact ⟨d, if_neg h, rfl, rfl, rfl, fun h => h, fun _ _ => rfl⟩
    rw [he] at ht
    obtain ⟨i1, i2, i3, i4, i5⟩ := ih e t ht
    exact ⟨i1.trans e1, i2.trans e2, i3.trans e3, fun h => i4 (e4 h), fun p hp => (i5 p hp).trans (e5 p hp)⟩

theorem empty_state (d : Dev) (c : Fin 32) (i : Fin 16) (p : Nat) (hp : p < 128) : (d.emptySlot c i).pcState p = d.pcState p := by
  unfold Dev.emptySlot Dev.pcState
  have ha : R.MEM_PC_STAT p ≠ R.CL_TGT_STAT (clu c) (sub c) i := by
    show 0x180100 + 0x4 * p ≠ 0x1000200 + 0x100000 * _ + 0x40 * _ + 0x4 * _; omega
  rw [Dev.get_set_reg (f := F.CL_TGT_STAT_PINNED (clu c) (sub c) i) (g := F.MEM_PC_STAT_STATE p) _ _ ha, Dev.get_set_reg (f := F.CL_TGT_STAT_RESIDENT (clu c) (sub c) i) (g := F.MEM_PC_STAT_STATE p) _ _ ha]
  unfold Dev.get Dev.rd; rfl

theorem empty_fold (d : Dev) (p : Nat) (hp : p < 128) : ((List.finRange 32).foldl (fun (d : Dev) c => (List.finRange 16).foldl (fun d i => d.emptySlot c i) d) d).pcState p = d.pcState p := by
  refine foldl_keeps (fun t : Dev => t.pcState p = d.pcState p) (fun (d : Dev) c => (List.finRange 16).foldl (fun d i => d.emptySlot c i) d) (fun t c h => ?_) _ d rfl
  exact foldl_keeps (fun t : Dev => t.pcState p = d.pcState p) (fun (d : Dev) i => d.emptySlot c i) (fun t i h => (empty_state t c i p hp).trans h) _ t h

theorem heads_in (c : Fin 32) (l : List (Fin 16)) (d : Dev) : ∀ x, x ∈ (l.foldl (fun (d : Dev) i => d.emptySlot c i) d).heads → x ∈ d.heads ∧ ∀ i, i ∈ l → x.1 ≠ entryKey c i := by
  induction l generalizing d with
  | nil => exact fun x h => ⟨h, fun i hi => by cases hi⟩
  | cons i l ih =>
    intro x h
    obtain ⟨h1, h2⟩ := ih (d.emptySlot c i) x h
    have h3 : x ∈ d.heads.filter (·.1 ≠ entryKey c i) := h1
    rw [List.mem_filter, decide_eq_true_eq] at h3
    refine ⟨h3.1, fun j hj => ?_⟩
    rcases List.mem_cons.1 hj with hj | hj
    · rw [hj]; exact h3.2
    · exact h2 j hj

theorem heads_out (l : List (Fin 32)) (d : Dev) : ∀ x, x ∈ (l.foldl (fun (d : Dev) c => (List.finRange 16).foldl (fun d i => d.emptySlot c i) d) d).heads → x ∈ d.heads ∧ ∀ c, c ∈ l → ∀ i, x.1 ≠ entryKey c i := by
  induction l generalizing d with
  | nil => exact fun x h => ⟨h, fun i hi => by cases hi⟩
  | cons c l ih =>
    intro x h
    obtain ⟨h1, h2⟩ := ih ((List.finRange 16).foldl (fun d i => d.emptySlot c i) d) x h
    obtain ⟨h3, h4⟩ := heads_in c _ d x h1
    refine ⟨h3, fun j hj => ?_⟩
    rcases List.mem_cons.1 hj with hj | hj
    · rw [hj]; exact fun i => h4 i (List.mem_finRange i)
    · exact h2 j hj

theorem state3 (d : Dev) (l : List Nat) (p : Nat) : (l.foldl (fun (d : Dev) p => d.set (F.MEM_PC_STAT_STATE p) 3) d).pcState p = if p ∈ l then 3 else d.pcState p := by
  induction l generalizing d with
  | nil => rfl
  | cons q l ih =>
    rw [List.foldl_cons, ih]
    by_cases h : p ∈ l
    · rw [if_pos h, if_pos (List.mem_cons_of_mem _ h)]
    · rw [if_neg h]
      by_cases hq : p = q
      · rw [if_pos (by rw [hq]; exact List.mem_cons_self ..), hq]
        unfold Dev.pcState
        rw [Dev.get_set_same _ (by simp)]; rfl
      · rw [if_neg (by intro k; rcases List.mem_cons.1 k with k | k; exact hq k; exact h k)]
        unfold Dev.pcState
        exact Dev.get_set_reg (f := F.MEM_PC_STAT_STATE q) (g := F.MEM_PC_STAT_STATE p) d 3 (by show 0x180100 + 0x4 * p ≠ 0x180100 + 0x4 * q; omega)

theorem index_fold (d : Dev) (v : Nat → Dev → Nat) (l : List Nat) (p : Nat) : (l.foldl (fun (d : Dev) p => d.set (F.MEM_PC_STAT_INDEX p) (v p d)) d).pcState p = d.pcState p := by
  refine foldl_keeps (fun t : Dev => t.pcState p = d.pcState p) (fun (d : Dev) p => d.set (F.MEM_PC_STAT_INDEX p) (v p d)) (fun t q h => Eq.trans ?_ h) _ d rfl
  unfold Dev.pcState
  by_cases hq : p = q
  · subst hq
    exact Dev.get_set_bits (f := F.MEM_PC_STAT_INDEX p) (g := F.MEM_PC_STAT_STATE p) t _ (by simp) rfl (by simp)
  · exact Dev.get_set_reg (f := F.MEM_PC_STAT_INDEX q) (g := F.MEM_PC_STAT_STATE p) t _ (by show 0x180100 + 0x4 * p ≠ 0x180100 + 0x4 * q; omega)

theorem mapSync_state (d : Dev) (p : Nat) : d.mapSync.pcState p = d.pcState p := by
  unfold Dev.mapSync
  dsimp only
  have h := index_fold d (fun p d => if d.pcState p = 3 then 0 else List.idxOf p d.mapped) (List.range 128) p
  have h := index_fold d (fun p e => if e.pcState p = 3 then 0 else List.idxOf p d.mapped) (List.range 128) p
  generalize List.foldl _ d _ = e at h ⊢
  refine Eq.trans ?_ h
  unfold Dev.pcState
  have ha : ∀ p, R.MEM_PC_STAT p ≠ R.MEM_HEALTH := by intro p; show 0x180100 + 0x4 * p ≠ 0x180000; omega
  rw [Dev.get_set_reg (f := F.MEM_HEALTH_DEGRADED) (g := F.MEM_PC_STAT_STATE p) _ _ (ha p), Dev.get_set_reg (f := F.MEM_HEALTH_FENCED) (g := F.MEM_PC_STAT_STATE p) _ _ (ha p),
    Dev.get_set_reg (f := F.MEM_HEALTH_RETIRED) (g := F.MEM_PC_STAT_STATE p) _ _ (ha p), Dev.get_set_reg (f := F.MEM_HEALTH_MAPPED) (g := F.MEM_PC_STAT_STATE p) _ _ (ha p)]

theorem rest_fold (d : Dev) (v : Nat → Dev → Nat) (l : List Nat) : (l.foldl (fun (d : Dev) p => d.set (F.MEM_PC_STAT_INDEX p) (v p d)) d).mem = d.mem ∧
    (l.foldl (fun (d : Dev) p => d.set (F.MEM_PC_STAT_INDEX p) (v p d)) d).hbm = d.hbm ∧ (l.foldl (fun (d : Dev) p => d.set (F.MEM_PC_STAT_INDEX p) (v p d)) d).heads = d.heads :=
  foldl_keeps (fun t : Dev => t.mem = d.mem ∧ t.hbm = d.hbm ∧ t.heads = d.heads) (fun (d : Dev) p => d.set (F.MEM_PC_STAT_INDEX p) (v p d)) (fun t s h => by rw [Dev.set_mem, Dev.set_hbm, Dev.set_heads]; exact h) l d ⟨rfl, rfl, rfl⟩

theorem mapSync_rest (d : Dev) : d.mapSync.mem = d.mem ∧ d.mapSync.hbm = d.hbm ∧ d.mapSync.heads = d.heads := by
  unfold Dev.mapSync
  dsimp only
  have h := rest_fold d (fun p e => if e.pcState p = 3 then 0 else List.idxOf p d.mapped) (List.range 128)
  generalize List.foldl _ d _ = e at h ⊢
  refine ⟨?_, ?_, ?_⟩
  · rw [Dev.set_mem, Dev.set_mem, Dev.set_mem, Dev.set_mem]; exact h.1
  · rw [Dev.set_hbm, Dev.set_hbm, Dev.set_hbm, Dev.set_hbm]; exact h.2.1
  · rw [Dev.set_heads, Dev.set_heads, Dev.set_heads, Dev.set_heads]; exact h.2.2

theorem state3_heads (d : Dev) (l : List Nat) : (l.foldl (fun (d : Dev) p => d.set (F.MEM_PC_STAT_STATE p) 3) d).heads = d.heads :=
  foldl_keeps (fun t : Dev => t.heads = d.heads) (fun (d : Dev) p => d.set (F.MEM_PC_STAT_STATE p) 3) (fun t s h => by rw [Dev.set_heads]; exact h) l d rfl

theorem remapEnds_rest (d : Dev) : (d.remapEnds 2 0).mem = d.mem ∧ (d.remapEnds 2 0).hbm = d.hbm ∧ (d.remapEnds 2 0).heads = d.heads := by
  unfold Dev.remapEnds
  dsimp only
  refine ⟨?_, ?_, ?_⟩
  · rw [Dev.set_mem, Dev.set_mem, Dev.set_mem, Dev.set_mem]
  · rw [Dev.set_hbm, Dev.set_hbm, Dev.set_hbm, Dev.set_hbm]
  · rw [Dev.set_heads, Dev.set_heads, Dev.set_heads, Dev.set_heads]

theorem remapEnds_get (d : Dev) : (d.remapEnds 2 0).get F.MEM_MAP_STATUS_CODE = 2 ∧ (d.remapEnds 2 0).get F.MEM_MAP_STATUS_REASON = 0 ∧
    (d.remapEnds 2 0).get F.MEM_MAP_CTRL_REMAP = 0 ∧ (d.remapEnds 2 0).get F.MEM_IRQ_STATUS_REMAP = 1 ∧ ∀ p, (d.remapEnds 2 0).pcState p = d.pcState p := by
  unfold Dev.remapEnds
  dsimp only
  refine ⟨?_, ?_, ?_, ?_, fun p => ?_⟩
  · rw [Dev.get_set_reg _ _ (by decide), Dev.get_set_reg _ _ (by decide), Dev.get_set_bits (f := F.MEM_MAP_STATUS_REASON) (g := F.MEM_MAP_STATUS_CODE) _ _ (by decide) rfl (by decide), Dev.get_set_same _ (by decide)]; rfl
  · rw [Dev.get_set_reg _ _ (by decide), Dev.get_set_reg _ _ (by decide), Dev.get_set_same _ (by decide)]; rfl
  · rw [Dev.get_set_same _ (by decide)]; rfl
  · rw [Dev.get_set_reg _ _ (by decide), Dev.get_set_same _ (by decide)]; rfl
  · unfold Dev.pcState
    have ha : ∀ f : Fld, f.addr < 0x180100 → R.MEM_PC_STAT p ≠ f.addr := by intro f hf; show 0x180100 + 0x4 * p ≠ _; omega
    rw [Dev.get_set_reg (f := F.MEM_MAP_CTRL_REMAP) (g := F.MEM_PC_STAT_STATE p) _ _ (ha _ (by decide)), Dev.get_set_reg (f := F.MEM_IRQ_STATUS_REMAP) (g := F.MEM_PC_STAT_STATE p) _ _ (ha _ (by decide)),
      Dev.get_set_reg (f := F.MEM_MAP_STATUS_REASON) (g := F.MEM_PC_STAT_STATE p) _ _ (ha _ (by decide)), Dev.get_set_reg (f := F.MEM_MAP_STATUS_CODE) (g := F.MEM_PC_STAT_STATE p) _ _ (ha _ (by decide))]

theorem remap_ok (d : Dev) : ∃ t, d.remapNow = t ∧ t.mem.hbm = Store.empty ∧ t.hbm.pages = [] ∧ t.hbm.posted = [] ∧ (∀ x, x ∈ t.heads → ∀ c i, x.1 ≠ entryKey c i) ∧
    t.get F.MEM_MAP_STATUS_CODE = 2 ∧ t.get F.MEM_MAP_STATUS_REASON = 0 ∧ t.get F.MEM_MAP_CTRL_REMAP = 0 ∧ t.get F.MEM_IRQ_STATUS_REMAP = 1 ∧
    (∀ p, p < 128 → t.pcState p = (if d.pcState p = 2 then 3 else d.pcState p)) := by
  obtain ⟨e, he⟩ : ∃ e, e = (List.finRange 32).foldl (fun (d : Dev) c => (List.finRange 16).foldl (fun d i => d.emptySlot c i) d) d := ⟨_, rfl⟩
  obtain ⟨f, hf⟩ : ∃ f, f = (e.inPcState 2).foldl (fun (d : Dev) p => d.set (F.MEM_PC_STAT_STATE p) 3) e := ⟨_, rfl⟩
  obtain ⟨g, hg⟩ : ∃ g : Dev, g = { f with mem := { f.mem with hbm := Store.empty }, hbm := { f.hbm with pages := [], posted := [], scrubAt := 0 } } := ⟨_, rfl⟩
  obtain ⟨k, hk⟩ : ∃ k, k = (List.range 4).foldl (fun (d : Dev) s => if (!d.stackMapped s && decide (d.get (F.HBM_STATUS_POWER s) ≠ 0)) = true then d.sleepStack s else d) g := ⟨_, rfl⟩
  have e0 : d.remapNow = (if k.stage < 4 then k else k.mapSync).remapEnds 2 0 := by
    unfold Dev.remapNow
    dsimp only
    rw [← he, ← hf, ← hg, ← hk]
  have h1 : ∀ p, p < 128 → e.pcState p = d.pcState p := fun p hp => he ▸ empty_fold d p hp
  have h2 : ∀ x, x ∈ e.heads → x ∈ d.heads ∧ ∀ c, c ∈ List.finRange 32 → ∀ i, x.1 ≠ entryKey c i := he ▸ heads_out (List.finRange 32) d
  clear he
  have h3 : ∀ p, f.pcState p = if p ∈ e.inPcState 2 then 3 else e.pcState p := fun p => hf ▸ state3 e (e.inPcState 2) p
  have h4 : f.heads = e.heads := hf ▸ state3_heads e (e.inPcState 2)
  clear hf
  have g1 : g.mem.hbm = Store.empty := by rw [hg]
  have g2 : g.hbm.pages = [] := by rw [hg]
  have g3 : g.heads = f.heads := by rw [hg]
  have g4 : ∀ p, g.pcState p = f.pcState p := by intro p; rw [hg]; unfold Dev.pcState Dev.get Dev.rd; rfl
  have g5 : g.hbm.posted = [] := by rw [hg]
  clear hg
  obtain ⟨s1, s2, s3, s4, s5⟩ := stacks_fold _ g k hk
  clear hk
  refine ⟨_, e0, ?_⟩
  clear e0
  obtain ⟨m, hm, k1, k2, k3, k4⟩ : ∃ m, (if k.stage < 4 then k else k.mapSync) = m ∧ m.mem = k.mem ∧ m.hbm = k.hbm ∧ m.heads = k.heads ∧
      ∀ p, m.pcState p = k.pcState p := by
    refine ⟨_, rfl, ?_⟩
    split
    · exact ⟨rfl, rfl, rfl, fun _ => rfl⟩
    · exact ⟨(mapSync_rest k).1, (mapSync_rest k).2.1, (mapSync_rest k).2.2, mapSync_state k⟩
  rw [hm]
  clear hm
  obtain ⟨r1, r2, r3, r4, r5⟩ := remapEnds_get m
  refine ⟨?_, ?_, ?_, ?_, r1, r2, r3, r4, fun p hp => ?_⟩
  · rw [(remapEnds_rest m).1, k1, s1, g1]
  · rw [(remapEnds_rest m).2.1, k2, s4 g2]
  · rw [(remapEnds_rest m).2.1, k2, s3, g5]
  · intro x hx c i
    rw [(remapEnds_rest m).2.2, k3, s2, g3, h4] at hx
    exact (h2 x hx).2 c (List.mem_finRange c) i
  · rw [r5, k4, s5 p hp, g4, h3, h1 p hp]
    have : p ∈ e.inPcState 2 ↔ d.pcState p = 2 := by
      unfold Dev.inPcState
      rw [List.mem_filter, List.mem_range, decide_eq_true_eq, h1 p hp]
      exact ⟨fun k => k.2, fun k => ⟨hp, k⟩⟩
    by_cases hh : d.pcState p = 2
    · rw [if_pos (this.2 hh), if_pos hh]
    · rw [if_neg (fun k => hh (this.1 k)), if_neg hh]

theorem sleep_queued (d : Dev) (s : Nat) : (if (!d.stackMapped s && decide (d.get (F.HBM_STATUS_POWER s) ≠ 0)) = true then d.sleepStack s else d).get F.MEM_MAP_CTRL_PENDING =
    d.get F.MEM_MAP_CTRL_PENDING := by
  split
  · show (d.set (F.HBM_STATUS_POWER s) 1).get F.MEM_MAP_CTRL_PENDING = _
    exact Dev.get_set_reg (f := F.HBM_STATUS_POWER s) d 1 (by show 0x180020 ≠ 0x100000 + 0x10000 * s; omega)
  · rfl

theorem cleared_queued (f : Dev) : ({ f with mem := { f.mem with hbm := Store.empty }, hbm := { f.hbm with pages := [], posted := [], scrubAt := 0 } } : Dev).get F.MEM_MAP_CTRL_PENDING =
    f.get F.MEM_MAP_CTRL_PENDING := rfl

/-- A REMAP leaves a queued one queued. -/
theorem remapNow_queued (d : Dev) : d.remapNow.get F.MEM_MAP_CTRL_PENDING = d.get F.MEM_MAP_CTRL_PENDING := by
  unfold Dev.remapNow
  dsimp only
  have out {f : Fld} (t : Dev) (v : Nat) (h : F.MEM_MAP_CTRL_PENDING.addr ≠ f.addr) : (t.set f v).get F.MEM_MAP_CTRL_PENDING = t.get F.MEM_MAP_CTRL_PENDING :=
    Dev.get_set_reg t v h
  have h1 := foldl_keeps (fun t : Dev => t.get F.MEM_MAP_CTRL_PENDING = d.get F.MEM_MAP_CTRL_PENDING)
    (fun (d : Dev) c => (List.finRange 16).foldl (fun d i => d.emptySlot c i) d)
    (fun t c h => foldl_keeps (fun t : Dev => t.get F.MEM_MAP_CTRL_PENDING = d.get F.MEM_MAP_CTRL_PENDING) (fun (d : Dev) i => d.emptySlot c i)
      (fun t i h => by
        have ha : 0x180020 ≠ R.CL_TGT_STAT (clu c) (sub c) i := by show _ ≠ 0x1000200 + 0x100000 * _ + 0x40 * _ + 0x4 * _; omega
        unfold Dev.emptySlot
        rw [out _ _ ha, out _ _ ha]; refine Eq.trans ?_ h; unfold Dev.get Dev.rd; rfl) _ t h) (List.finRange 32) d rfl
  generalize List.foldl _ d _ = e at h1 ⊢
  have h2 := foldl_keeps (fun t : Dev => t.get F.MEM_MAP_CTRL_PENDING = d.get F.MEM_MAP_CTRL_PENDING) (fun (d : Dev) p => d.set (F.MEM_PC_STAT_STATE p) 3)
    (fun t p h => (out t 3 (by show 0x180020 ≠ 0x180100 + 0x4 * p; omega)).trans h) (e.inPcState 2) e h1
  generalize List.foldl _ e _ = f at h2 ⊢
  have h3 := foldl_keeps (fun t : Dev => t.get F.MEM_MAP_CTRL_PENDING = d.get F.MEM_MAP_CTRL_PENDING)
    (fun (d : Dev) s => if (!d.stackMapped s && decide (d.get (F.HBM_STATUS_POWER s) ≠ 0)) = true then d.sleepStack s else d)
    (fun t s h => (sleep_queued t s).trans h) (List.range 4)
    { f with mem := { f.mem with hbm := Store.empty }, hbm := { f.hbm with pages := [], posted := [], scrubAt := 0 } } ((cleared_queued f).trans h2)
  generalize List.foldl _ _ (List.range 4) = g at h3 ⊢
  have h5 : (if g.stage < 4 then g else g.mapSync).get F.MEM_MAP_CTRL_PENDING = d.get F.MEM_MAP_CTRL_PENDING := by
    split
    · exact h3
    unfold Dev.mapSync
    dsimp only
    have h4 := foldl_keeps (fun t : Dev => t.get F.MEM_MAP_CTRL_PENDING = d.get F.MEM_MAP_CTRL_PENDING)
      (fun (d : Dev) p => d.set (F.MEM_PC_STAT_INDEX p) (if d.pcState p = 3 then 0 else g.mapped.idxOf p))
      (fun t p h => (out t _ (by show 0x180020 ≠ 0x180100 + 0x4 * p; omega)).trans h) (List.range 128) g h3
    generalize List.foldl _ g _ = k at h4 ⊢
    iterate 4 rw [out _ _ (by decide)]
    exact h4
  generalize (if g.stage < 4 then g else g.mapSync) = k at h5 ⊢
  unfold Dev.remapEnds
  dsimp only
  rw [Dev.get_set_bits (f := F.MEM_MAP_CTRL_REMAP) (g := F.MEM_MAP_CTRL_PENDING) _ _ (by decide) rfl (by decide)]
  iterate 3 rw [out _ _ (by decide)]
  exact h5

theorem startR_eq (d : Dev) (ps : List Nat) (hp : ps = (if d.flag F.MEM_TRAIN_CMD_ALL = true then d.mapped else [d.get F.MEM_TRAIN_CMD_P]).filter (fun p => d.pcState p < 2))
    (g : Dev) (hg : g = (d.set F.MEM_TRAIN_CMD_RETRAIN 1).set F.MEM_TRAIN_STATUS_CODE 1) :
    d.startRetrain = if (!d.flag F.MEM_TRAIN_CMD_ALL && decide (d.pcState (d.get F.MEM_TRAIN_CMD_P) = 3)) = true then d.retrainEnds 6
      else if ps.isEmpty = true then d.retrainEnds 2 else ({ g with hbm := { g.hbm with named := ps, namedBad := false } } : Dev).makeDue ps := by
  unfold Dev.startRetrain
  dsimp only
  rw [← hp, ← hg]

theorem named_no (d : Dev) (h1 : d.flag F.MEM_TRAIN_CMD_ALL = true ∨ d.pcState (d.get F.MEM_TRAIN_CMD_P) ≠ 3) :
    ¬(!d.flag F.MEM_TRAIN_CMD_ALL && decide (d.pcState (d.get F.MEM_TRAIN_CMD_P) = 3)) = true := by
  rcases h1 with h1 | h1
  · rw [h1]; simp
  · rw [decide_eq_false h1]; simp

theorem wake_rest (d : Dev) (s : Nat) : (d.wakeStack s).hbm = d.hbm ∧ (d.wakeStack s).ev = d.ev ∧ (d.wakeStack s).chans = d.chans ∧ (d.wakeStack s).mem = d.mem := by
  unfold Dev.wakeStack; split <;> exact ⟨rfl, rfl, rfl, rfl⟩

theorem flag0' {b : Bool} (h : b = false) : ¬b = true := by rw [h]; decide

theorem slice_ok (d t : Dev) (rate p : Nat) (r : SliceResult) (hp : p < 128) (ht : t = d.startSlice rate p r) : t.hbm.lastSlice = some d.ev.elapsed ∧ t.hbm.slices = d.hbm.slices + 1 ∧
    t.hbm.training = some (rate, p) ∧ (∃ n, t.hbm.slice = some (r, n) ∧ d.ev.elapsed < n ∧ n ≤ d.ev.elapsed + 3200) ∧
    t.get F.MEM_TRAIN_STATUS_CUR = p ∧ t.get (F.HBM_STATUS_POWER (p / 32)) = 3 ∧ t.chans = d.chans ∧ t.mem = d.mem := by
  obtain ⟨h1, h2, h3, h4⟩ := wake_rest d (p / 32)
  unfold Dev.startSlice at ht
  dsimp only at ht
  generalize d.wakeStack (p / 32) = e at *
  have q : ∀ (w : Dev) (b : Bool), w.hbm = d.hbm → w.ev = d.ev → w.chans = d.chans → w.mem = d.mem → w.get F.MEM_TRAIN_STATUS_CUR = p → w.get (F.HBM_STATUS_POWER (p / 32)) = 3 →
      ∃ g, g = w.setIf b F.MEM_TRAIN_STATUS_BUSY 1 ∧ g.hbm = d.hbm ∧ g.ev = d.ev ∧ g.chans = d.chans ∧ g.mem = d.mem ∧ g.get F.MEM_TRAIN_STATUS_CUR = p ∧ g.get (F.HBM_STATUS_POWER (p / 32)) = 3 := by
    intro w b w1 w2 w3 w4 w5 w6
    refine ⟨_, rfl, ?_⟩
    unfold Dev.setIf
    cases b
    · rw [if_neg (by decide)]; exact ⟨w1, w2, w3, w4, w5, w6⟩
    · rw [if_pos rfl]
      refine ⟨by rw [Dev.set_hbm, w1], by rw [Dev.set_ev, w2], by rw [Dev.set_chans, w3], by rw [Dev.set_mem, w4], ?_, ?_⟩
      · rw [Dev.get_set_bits (f := F.MEM_TRAIN_STATUS_BUSY) (g := F.MEM_TRAIN_STATUS_CUR) _ _ (by decide) rfl (by decide)]; exact w5
      · rw [Dev.get_set_reg (f := F.MEM_TRAIN_STATUS_BUSY) (g := F.HBM_STATUS_POWER (p / 32)) _ _ (by
          have : R.MEM_TRAIN_STATUS ≥ 0x180000 := by decide
          show 0x100000 + 0x10000 * (p / 32) ≠ R.MEM_TRAIN_STATUS; omega)]; exact w6
  obtain ⟨g, hg, g1, g2, g3, g4, g5, g6⟩ := q ((e.set (F.HBM_STATUS_POWER (p / 32)) 3).set F.MEM_TRAIN_STATUS_CUR p)
    (decide (rate = ((e.set (F.HBM_STATUS_POWER (p / 32)) 3).set F.MEM_TRAIN_STATUS_CUR p).pinRate))
    (by rw [Dev.set_hbm, Dev.set_hbm, h1]) (by rw [Dev.set_ev, Dev.set_ev, h2]) (by rw [Dev.set_chans, Dev.set_chans, h3]) (by rw [Dev.set_mem, Dev.set_mem, h4])
    (by rw [Dev.get_set_same _ (by decide)]; exact Nat.mod_eq_of_lt hp)
    (by
      rw [Dev.get_set_reg (f := F.MEM_TRAIN_STATUS_CUR) (g := F.HBM_STATUS_POWER (p / 32)) _ _ (by
          have : R.MEM_TRAIN_STATUS ≥ 0x180000 := by decide
          show 0x100000 + 0x10000 * (p / 32) ≠ R.MEM_TRAIN_STATUS; omega), Dev.get_set_same _ (by simp)]
      rfl)
  rw [← hg] at ht
  clear hg q
  subst ht
  refine ⟨congrArg (fun x => some x.elapsed) g2, congrArg (fun h => h.slices + 1) g1, rfl, ⟨_, rfl, ?_, ?_⟩, ?_, ?_, g3, g4⟩
  · rw [g2]; omega
  · rw [g2]
    have := Nat.mod_lt (Config.sliceTicks g.free) (show 0 < 3200 by decide)
    omega
  · exact g5
  · exact g6

theorem slice_step (d : Dev) (p : Fin 128) (r : SliceResult) (rate q : Nat) (hq : d.nextSlice = some (rate, q)) :
    d.retrainSlice p r = if (!d.sliceReady || decide (q ≠ p.val) || (decide (r = .more) && decide (15 ≤ d.hbm.slices))) = true then d else d.startSlice rate p r := by
  unfold Dev.retrainSlice
  rw [hq]

theorem setIf_dec (d : Dev) (p : Prop) [Decidable p] (f : Fld) (v : Nat) : d.setIf (decide p) f v = if p then d.set f v else d := by
  unfold Dev.setIf
  by_cases h : p
  · rw [if_pos h, decide_eq_true h]; exact if_pos rfl
  · rw [if_neg h, decide_eq_false h]; exact if_neg (by decide)

theorem slice_tick (d : Dev) (r : SliceResult) (n rate p : Nat) (ht : d.tripped = false) (hs : d.hbm.slice = some (r, n)) (hg : d.hbm.training = some (rate, p)) :
    (d.ev.elapsed < n → d.sliceTick = d) ∧
     (∀ e f, n ≤ d.ev.elapsed →
       e = (if d.get (F.HBM_STATUS_POWER (p / 32)) = 3 then d.set (F.HBM_STATUS_POWER (p / 32)) 2 else d) →
       f = ({ e with hbm := { e.hbm with slice := none } } : Dev).sliceFound rate p r →
       d.sliceTick = f.afterSlice) := by
  unfold Dev.sliceTick
  rw [if_neg (flag0' ht), hs, hg]
  dsimp only
  refine ⟨fun h => if_neg (by omega), fun e f h he hf => ?_⟩
  rw [if_pos h]
  unfold Dev.sliceEnds Dev.letGo
  rw [hf, setIf_dec, ← he]

theorem after_slice (d : Dev) : (d.hbm.deferred = none → d.afterSlice = d.memServes) ∧
    (∀ v relocked, d.hbm.deferred = some (v, relocked) → d.afterSlice =
      Dev.startChange { d.set F.MEM_FREQ_STATUS_DEFERRED 0 with hbm := { d.hbm with deferred := none } } v relocked) := by
  unfold Dev.afterSlice
  exact ⟨fun h => by rw [h], fun v r h => by rw [h]⟩

theorem pcState_keep (d : Dev) (p v : Nat) : (d.setPcState p v).hbm.training = d.hbm.training ∧ (d.setPcState p v).hbm.slice = d.hbm.slice := by
  unfold Dev.setPcState
  dsimp only
  rw [Dev.set_hbm, Dev.set_hbm, Dev.set_hbm]
  exact ⟨rfl, rfl⟩

/-- The pseudo-channels of a stack that loses its source become FENCED, and a slice of one of them ends (R374). -/
theorem fence_stack (d : Dev) (k : Nat) (ps : List Nat) (g : Dev) (hp : ps = (List.range 32).map (fun i => 32 * k + i))
    (hg : g = ((ps.foldl (fun (d : Dev) p => if d.pcState p < 2 then d.setPcState p 2 else d) d).set F.MEM_IRQ_STATUS_FENCED 1).makeDue []) :
    ((∀ r p, d.hbm.training = some (r, p) → p / 32 ≠ k) → d.fenceStack k = g.namedEnd ps true) ∧
    (∀ r p e f, d.hbm.training = some (r, p) → p / 32 = k →
      e = (if d.hbm.slice ≠ none ∧ g.get (F.HBM_STATUS_POWER k) = 3 then g.set (F.HBM_STATUS_POWER k) 2 else g) →
      f = ({ e.set F.MEM_TRAIN_STATUS_BUSY 0 with hbm := { e.hbm with slice := none, training := none, slices := 0 } } : Dev).namedEnd
        ps true →
      (d.hbm.slice = none → d.fenceStack k = f) ∧ (d.hbm.slice ≠ none → d.fenceStack k = f.afterSlice)) := by
  have hin (p : Nat) : ps.contains p = decide (p / 32 = k) := by
    rw [Bool.eq_iff_iff, List.contains_iff_mem, decide_eq_true_eq, hp, List.mem_map]
    exact ⟨fun ⟨i, hi, he⟩ => by have := List.mem_range.1 hi; omega, fun h => ⟨p % 32, List.mem_range.2 (by omega), by omega⟩⟩
  have k0 : (ps.foldl (fun (d : Dev) p => if d.pcState p < 2 then d.setPcState p 2 else d) d).hbm.training = d.hbm.training ∧
      (ps.foldl (fun (d : Dev) p => if d.pcState p < 2 then d.setPcState p 2 else d) d).hbm.slice = d.hbm.slice :=
    foldl_keeps (fun t : Dev => t.hbm.training = d.hbm.training ∧ t.hbm.slice = d.hbm.slice) (fun (d : Dev) p => if d.pcState p < 2 then d.setPcState p 2 else d)
      (fun t p h => by split; exact ⟨(pcState_keep t p 2).1.trans h.1, (pcState_keep t p 2).2.trans h.2⟩; exact h) ps d ⟨rfl, rfl⟩
  have k1 : g.hbm.training = d.hbm.training ∧ g.hbm.slice = d.hbm.slice := by rw [hg]; exact k0
  have e0 : d.fenceStack k = match g.hbm.training with
      | some (_, p) => if ps.contains p = true then
          (if g.hbm.slice.isSome = true then
            (({ ((if g.hbm.slice.isSome = true then g.letGo p else g).set F.MEM_TRAIN_STATUS_BUSY 0) with
              hbm := { (if g.hbm.slice.isSome = true then g.letGo p else g).hbm with training := none, slices := 0 } } : Dev).namedEnd ps true).afterSlice
          else ({ ((if g.hbm.slice.isSome = true then g.letGo p else g).set F.MEM_TRAIN_STATUS_BUSY 0) with
              hbm := { (if g.hbm.slice.isSome = true then g.letGo p else g).hbm with training := none, slices := 0 } } : Dev).namedEnd ps true)
        else g.namedEnd ps true
      | none => g.namedEnd ps true := by
    unfold Dev.fenceStack
    dsimp only
    rw [← hp, ← hg]
    all_goals rfl
  rw [k1.1, k1.2] at e0
  refine ⟨fun h => ?_, fun r p e f h hpk he hf => ⟨fun hs => ?_, fun hs => ?_⟩⟩
  · rw [e0]
    split
    · next r p hh => exact if_neg (by rw [hin]; simpa using h r p hh)
    · rfl
  · rw [h, hs] at e0
    rw [if_neg (by rw [hs]; simp)] at he
    rw [e0]
    dsimp only
    rw [if_pos (by rw [hin]; simpa using hpk), if_neg (by decide), if_neg (by decide), hf, he]
    have hs2 := k1.2.trans hs
    rw [← hs2]
  · rw [h, Option.isSome_iff_ne_none.2 hs] at e0
    rw [e0]
    dsimp only
    rw [if_pos (by rw [hin]; simpa using hpk), if_pos rfl, if_pos rfl, hf]
    unfold Dev.letGo
    rw [hpk, setIf_dec]
    have : e = if g.get (F.HBM_STATUS_POWER k) = 3 then g.set (F.HBM_STATUS_POWER k) 2 else g := by
      rw [he]
      exact if_congr ⟨fun h => h.2, fun h => ⟨hs, h⟩⟩ rfl rfl
    rw [← this]
    rfl

end Sys2Proof.Laws
end

