-- ==== Sys2Proof/Laws/Clocks.lean ====
section
/-! SUPPORT. PLLs, dividers, sources, domains. -/

set_option Elab.async false

namespace Sys2Proof.Laws

open Sys2Proof.Machine Sys2Proof.Claims

theorem pll_eq (d : Dev) (v : Nat) : d.setPll v = Claims.pllState d v := by
  unfold Dev.setPll Claims.pllState Dev.setIf
  by_cases h : v = 4
  · rw [if_pos h, if_neg (by simp [h])]
  · rw [if_neg h, if_pos (by simp [h])]

theorem applyEnds_eq (d : Dev) (a b : Nat) : d.applyEnds a b = Claims.applyEnds d a b := rfl

theorem runs_eq (d : Dev) (r : Bool) (m : Nat) (hm : m = Claims.stagedMult d) :
    (((d.set F.CLK_SPLL_CTRL_APPLY 1).set F.CLK_SPLL_STATUS_CODE 1).set F.CLK_SPLL_STATUS_REASON 0).modClk
      (fun k => { k with apply := some (r, m, ((d.set F.CLK_SPLL_CTRL_APPLY 1).set F.CLK_SPLL_STATUS_CODE 1).ev.elapsed) }) = Claims.applyRuns d r := by
  obtain ⟨e, he⟩ : ∃ e : Dev, e = ((d.set F.CLK_SPLL_CTRL_APPLY 1).set F.CLK_SPLL_STATUS_CODE 1).set F.CLK_SPLL_STATUS_REASON 0 := ⟨_, rfl⟩
  have h1 : ((d.set F.CLK_SPLL_CTRL_APPLY 1).set F.CLK_SPLL_STATUS_CODE 1).ev.elapsed = e.ev.elapsed := by rw [he, Dev.set_ev, Dev.set_ev, Dev.set_ev, Dev.set_ev, Dev.set_ev]
  have h2 : Claims.applyRuns d r = { e with clk := { e.clk with apply := some (r, m, e.ev.elapsed) } } := by
    unfold Claims.applyRuns
    rw [← hm, ← he]
  rw [h1, ← he, h2]
  clear h1 h2 he
  rfl

theorem startApply_eq (d : Dev) (dist : Nat) (h : dist = max (Claims.stagedMult d - d.clk.lockMult) (d.clk.lockMult - Claims.stagedMult d)) : d.startApply =
    if (d.flag F.CLK_REFIN_FREQ_VALID && !d.spllInRange) = true then Claims.applyEnds d 6 1
    else if d.pll = 4 then Claims.applyEnds d 6 2
    else if (!d.flag F.CLK_REFIN_FREQ_VALID) = true then Claims.applyEnds d 6 1
    else if (decide (d.pll = 2) && decide (d.get F.CLK_SPLL_CFG_PRE_M1 + 1 = d.clk.lockPre) && decide (dist * 1000000 ≤ 50 * d.clk.lockMult)) = true then (Claims.applyRuns d false).setPll 3
    else if (!(List.finRange 32).all (fun c => (d.ch c).st = .idle) || decide (d.linkState ≠ 0)) = true then Claims.applyEnds d 6 3
    else (((Claims.applyRuns d true).toBypass 1).set F.CLK_SPLL_STATUS_WINS 0).modClk fun k => { k with pre := d.get F.CLK_SPLL_CFG_PRE_M1 + 1, mult := Claims.stagedMult d } := by
  unfold Dev.startApply
  have hm : d.get F.CLK_SPLL_CFG_N * 2 ^ 32 + d.get F.CLK_SPLL_FRAC_F = Claims.stagedMult d := rfl
  dsimp only
  rw [hm, ← h, runs_eq d true _ rfl, runs_eq d false _ rfl, applyEnds_eq, applyEnds_eq, applyEnds_eq]

theorem lw_eq (d : Dev) (count n : Nat) (e : Dev) (h : d.sourceDown 9 = false) (hn : n = if windowPasses d.clk.mult count = true then min 8 (d.get F.CLK_SPLL_STATUS_WINS + 1) else 0)
    (he : e = d.set F.CLK_SPLL_STATUS_WINS n) : (d.pll = 1 → d.lockWindow count = if n = 8 then e.lockDeclared else e) ∧
    (d.pll = 2 → d.lockWindow count = e.setIf (!windowPasses d.clk.mult count) F.CLK_IRQ_STATUS_WIN_FAIL 1) ∧
    (d.pll = 3 → d.lockWindow count = e) ∧
    (d.pll = 4 → d.lockWindow count = if (d.clk.beyond || d.bypassed) = true then d
      else if n = 8 then (((e.modClk fun k => { k with pulling := k.pulling || windowPasses d.clk.mult count }).setPll 2).modClk fun k => { k with pulling := false })
      else (e.modClk fun k => { k with pulling := k.pulling || windowPasses d.clk.mult count })) ∧
    (d.pll ≠ 1 → d.pll ≠ 2 → d.pll ≠ 3 → d.pll ≠ 4 → d.lockWindow count = d) := by
  unfold Dev.lockWindow
  rw [if_neg (by rw [h]; decide)]
  dsimp only
  rw [← hn, ← he]
  refine ⟨?_, ?_, ?_, ?_, fun k1 k2 k3 k4 => ?_⟩
  iterate 4 exact fun k => by rw [k]; rfl
  split <;> first | contradiction | rfl

theorem ok_iff (d : Dev) (count : Nat) : windowPasses d.clk.mult count = true ↔ Claims.windowOk d count := by
  unfold windowPasses Claims.windowOk
  rw [Bool.and_eq_true, decide_eq_true_eq, decide_eq_true_eq]

theorem align_iff (d : Dev) : d.aligning = true ↔ d.get F.LINK_STATUS_STATE = 1 ∧ d.phaseNow = 3 ∧ d.link.aligned = false := by
  unfold Dev.aligning
  rw [Bool.and_eq_true, Bool.and_eq_true, decide_eq_true_eq, decide_eq_true_eq, Bool.not_eq_true']
  exact ⟨fun ⟨⟨a, b⟩, c⟩ => ⟨a, b, c⟩, fun ⟨a, b, c⟩ => ⟨⟨a, b⟩, c⟩⟩

theorem edge_eq (d : Dev) (pin : Bool) : d.syncEdge pin =
    if (pin && decide (d.stage = 0)) = true then d
    else if (pin && d.aligning) = true then { d.release with link := { d.link with aligned := true } }
    else if (decide (d.pll = 5) && d.clk.firstTick.isNone && decide ((pin = true) = (d.get F.CLK_SYNC_CFG_SRC = 1))) = true then d.release
    else if pin = true then d.countSat F.CLK_SYNC_STATUS_SEEN else d := by
  rfl

theorem release_eq (d : Dev) : d.release = { d.set F.CLK_SYNC_STATUS_WAITING 0 with
    clk := { d.clk with firstTick := some (d.ev.elapsed + (256 + d.get F.CLK_SYNC_CFG_DLY + 15) / 16) } } := rfl

theorem first_eq (d : Dev) (t : Nat) (h : d.clk.firstTick = some t) :
    (d.get F.CLK_SPLL_STATUS_STATE = 5 → d.ev.started = false → t ≤ d.ev.elapsed → d.firstStart = d.clocksReturn) ∧
     (d.ev.elapsed < t → d.firstStart = d ∧ d.alignTick = d) ∧
     (∀ e, d.get F.CLK_SPLL_STATUS_STATE ≠ 5 → t ≤ d.ev.elapsed → d.get F.LINK_STATUS_STATE = 1 → d.phaseNow = 3 →
       d.flag F.LINK_CFG_ROLE = false → e = ({ d with clk := { d.clk with firstTick := none } } : Dev) →
       d.alignTick = e.sendNeighbour .w 3 0 true) := by
  refine ⟨fun h1 h2 h3 => if_pos ?_, fun h1 => ⟨if_neg ?_, if_neg ?_⟩, fun e h1 h2 h3 h4 h5 he => ?_⟩
  · unfold Dev.boundaryReached Dev.pll; rw [h, h1, h2]; simp; exact h3
  · unfold Dev.boundaryReached; rw [h]; simp; omega
  · rw [h]; simp; omega
  · have c : (decide (d.pll ≠ 5) && d.clk.firstTick.any fun t => decide (t ≤ d.ev.elapsed)) = true := by
      rw [h, show decide (d.pll ≠ 5) = true from decide_eq_true h1]; simpa using h2
    have m : d.modClk (fun k => { k with firstTick := none }) = e := he.symm
    unfold Dev.alignTick
    rw [if_pos c]
    dsimp only
    rw [m]
    refine if_pos ?_
    have e1 : e.regs = d.regs := by rw [he]
    have l : e.linkState = 1 := (get_regs e1 _).trans h3
    have ph : e.phaseNow = 3 := (get_regs e1 _).trans h4
    have mg : e.manager = false := by unfold Dev.manager Dev.flag; rw [get_regs e1]; exact h5
    rw [l, ph, mg]; decide

theorem pulse_eq (d : Dev) : (d.clk.pulse.isSome = true → d.emitSync = d.set F.CLK_SYNC_CFG_PENDING 1) ∧
     (∀ e, d.clk.pulse = none → d.get F.CLK_SYNC_CFG_OUT = 2 → d.flag F.CLK_SPLL_STATUS_MUTED = false → e = d.set F.CLK_SYNC_CFG_EMIT 1 →
       d.emitSync = { e with clk := { e.clk with pulse := some (e.ev.elapsed + 17) } }) ∧
     (d.clk.pulse = none → d.get F.CLK_SYNC_CFG_OUT ≠ 2 ∨ d.flag F.CLK_SPLL_STATUS_MUTED = true → d.emitSync = d) := by
  unfold Dev.emitSync
  refine ⟨fun h => if_pos h, fun e h1 h2 h3 he => ?_, fun h1 h2 => ?_⟩
  · rw [if_neg (by rw [h1]; decide)]
    unfold Dev.startPulse
    rw [if_pos (by rw [h2, h3]; decide), ← he]
    have : d.ev = e.ev := by rw [he, Dev.set_ev]
    rw [this]; rfl
  · rw [if_neg (by rw [h1]; decide)]
    refine if_neg ?_
    rcases h2 with h2 | h2
    · rw [decide_eq_false h2]; simp
    · rw [h2]; simp

theorem gerr_eq (d : Dev) (n : Fin 45) (m t : Nat) (h : d.clk.gates.find? (·.1 = n.val) = some (m, t)) (e f : Dev)
    (he : e = { d with clk := { d.clk with gates := d.clk.gates.filter (·.1 ≠ n.val) } }) (hf : f = (e.countSat F.CLK_GATE_ERR_COUNT).set F.CLK_IRQ_STATUS_GATE_ERR 1) :
    d.gateErr n = if t + d.gateLimit n ≤ d.ev.elapsed then (if f.flag F.CLK_GATE_ERR_VALID = true then f else (f.set F.CLK_GATE_ERR_DOMAIN n).set F.CLK_GATE_ERR_VALID 1) else d := by
  unfold Dev.gateErr
  rw [h]
  dsimp only
  have : d.modClk (fun k => { k with gates := k.gates.filter (·.1 ≠ n.val) }) = e := by rw [he]; rfl
  rw [this, ← hf]

theorem lost_eq (d : Dev) (i : Nat) : d.recordLoss i = Claims.lost d i := rfl

theorem back_eq (d : Dev) (i : Nat) : d.recordBack i = Claims.back d i := rfl

theorem sysCoasts_eq (d : Dev) : (d.set F.CLK_PLL_STATUS_SYS_COAST 1).modClk (fun k => { k with sysCoastAt := d.ev.elapsed }) = Claims.sysCoasts d := by
  unfold Claims.sysCoasts
  dsimp only
  rw [Dev.set_ev]
  rfl

theorem coasts_eq (d : Dev) : (((d.set F.CLK_SPLL_STATUS_STATE 4).set F.CLK_IRQ_STATUS_COAST 1).set F.CLK_SPLL_STATUS_WINS 0).modClk
    (fun k => { k with coastAt := (((d.set F.CLK_SPLL_STATUS_STATE 4).set F.CLK_IRQ_STATUS_COAST 1).set F.CLK_SPLL_STATUS_WINS 0).ev.elapsed, pulling := false, beyond := false }) = Claims.coasts d := rfl

theorem beyond_eq (d : Dev) : d.beyondLimits = Claims.beyondLimits d := rfl

theorem lost_flag (d : Dev) : ((Claims.lost d 9).set F.CLK_REFIN_FREQ_VALID 0).flag F.CLK_PLL_STATUS_SYS_COAST = d.flag F.CLK_PLL_STATUS_SYS_COAST := by
  unfold Dev.flag
  rw [Dev.get_set_reg _ _ (by decide)]
  obtain ⟨e, he⟩ : ∃ e : Dev, e = ((d.set ⟨R.CLK_LOSS, 9, 1⟩ 1).set ⟨R.CLK_LOSS, 16 + 9, 1⟩ 0).set F.CLK_IRQ_STATUS_LOSS 1 := ⟨_, rfl⟩
  have h : (Claims.lost d 9).get F.CLK_PLL_STATUS_SYS_COAST = e.get F.CLK_PLL_STATUS_SYS_COAST := by
    unfold Claims.lost; rw [← he]; unfold Dev.get Dev.rd; rfl
  rw [h, he, Dev.get_set_reg _ _ (by decide), Dev.get_set_reg _ _ (by decide), Dev.get_set_reg _ _ (by decide)]

theorem lost_refin (d : Dev) : ((Claims.lost d 9).set F.CLK_REFIN_FREQ_VALID 0).clk.sysRefin = d.clk.sysRefin := by
  rw [Dev.set_clk]
  obtain ⟨e, he⟩ : ∃ e : Dev, e = ((d.set ⟨R.CLK_LOSS, 9, 1⟩ 1).set ⟨R.CLK_LOSS, 16 + 9, 1⟩ 0).set F.CLK_IRQ_STATUS_LOSS 1 := ⟨_, rfl⟩
  have h : (Claims.lost d 9).clk.sysRefin = e.clk.sysRefin := by
    unfold Claims.lost; rw [← he]
  rw [h, he, Dev.set_clk, Dev.set_clk, Dev.set_clk]

theorem refin_eq (d e : Dev) (he : e = (if d.clk.sysRefin && !d.flag F.CLK_PLL_STATUS_SYS_COAST then Claims.sysCoasts ((Claims.lost d 9).set F.CLK_REFIN_FREQ_VALID 0)
      else (Claims.lost d 9).set F.CLK_REFIN_FREQ_VALID 0)) :
  (e.pll = 2 → d.refinLoss = Claims.coasts e) ∧
  (∀ m t, e.pll = 3 → e.clk.apply = some (false, m, t) → ∃ v g, min m e.clk.mult ≤ v ∧ v ≤ max m e.clk.mult ∧
     g = ({ e with clk := { e.clk with mult := v }, free := e.free + 1 } : Dev) ∧ d.refinLoss = (Claims.applyEnds (Claims.coasts g) 4 5).nextApply) ∧
  (e.pll = 3 → (∀ m t, e.clk.apply ≠ some (false, m, t)) → d.refinLoss = (Claims.applyEnds (Claims.coasts e) 4 5).nextApply) ∧
  (e.pll = 4 → d.refinLoss = e.modClk fun k => { k with pulling := false }) ∧
  (e.pll = 5 → d.refinLoss = (((e.setPll 1).set F.CLK_SPLL_STATUS_WINS 0).set F.CLK_SYNC_STATUS_WAITING 0).modClk fun k => { k with firstTick := none }) ∧
  (e.pll = 1 → d.refinLoss = e.set F.CLK_SPLL_STATUS_WINS 0) ∧
  (e.pll = 0 ∨ 6 ≤ e.pll → d.refinLoss = e) := by
  unfold Dev.refinLoss
  dsimp only
  rw [lost_eq]
  have h1 := lost_flag d
  have h2 := lost_refin d
  generalize (Claims.lost d 9).set F.CLK_REFIN_FREQ_VALID 0 = g at *
  rw [h1, h2, sysCoasts_eq, ← he]
  have p4 (w : Dev) : w.setPll 4 = w.set F.CLK_SPLL_STATUS_STATE 4 := (pll_eq w 4).trans rfl
  refine ⟨fun k => by rw [k, p4]; exact coasts_eq e, fun m t k ha => ?_, fun k ha => ?_, ?_, ?_, ?_, fun k => ?_⟩
  · have hs : e.slewCut = { e with clk := { e.clk with mult := min m e.clk.mult + Config.slewStop e.free % (max m e.clk.mult - min m e.clk.mult + 1) }, free := e.free + 1 } := by
      unfold Dev.slewCut; rw [ha]; rfl
    refine ⟨min m e.clk.mult + Config.slewStop e.free % (max m e.clk.mult - min m e.clk.mult + 1), _, ?_, ?_, rfl, ?_⟩
    · exact Nat.le_add_right _ (Config.slewStop e.free % (max m e.clk.mult - min m e.clk.mult + 1))
    · have := Nat.mod_lt (Config.slewStop e.free) (show 0 < max m e.clk.mult - min m e.clk.mult + 1 by omega)
      have : min m e.clk.mult ≤ max m e.clk.mult := by omega
      omega
    · rw [k]
      show (((((e.slewCut.setPll 4).set F.CLK_IRQ_STATUS_COAST 1).set F.CLK_SPLL_STATUS_WINS 0).modClk fun k =>
        { k with coastAt := (((e.slewCut.setPll 4).set F.CLK_IRQ_STATUS_COAST 1).set F.CLK_SPLL_STATUS_WINS 0).ev.elapsed, pulling := false, beyond := false }).applyEnds 4 5).nextApply = _
      rw [hs, p4, coasts_eq, applyEnds_eq]
  · have hs : e.slewCut = e := by
      unfold Dev.slewCut
      split
      · rename_i h; exact absurd h (ha _ _)
      · rfl
    rw [k]
    show (((((e.slewCut.setPll 4).set F.CLK_IRQ_STATUS_COAST 1).set F.CLK_SPLL_STATUS_WINS 0).modClk fun k =>
      { k with coastAt := (((e.slewCut.setPll 4).set F.CLK_IRQ_STATUS_COAST 1).set F.CLK_SPLL_STATUS_WINS 0).ev.elapsed, pulling := false, beyond := false }).applyEnds 4 5).nextApply = _
    rw [hs, p4, coasts_eq, applyEnds_eq]
  iterate 3 exact fun k => by rw [k]; rfl
  split <;> first | omega | rfl

theorem coast_iff (d : Dev) : d.coastWatched = true ↔ d.get F.CLK_SPLL_STATUS_STATE = 4 ∧ d.clk.pulling = false ∧ d.clk.beyond = false ∧ d.bypassed = false := by
  unfold Dev.coastWatched
  rw [Bool.and_eq_true, Bool.and_eq_true, Bool.and_eq_true, decide_eq_true_eq, Bool.not_eq_true', Bool.not_eq_true', Bool.not_eq_true']
  exact ⟨fun ⟨⟨⟨a, b⟩, c⟩, d⟩ => ⟨a, b, c, d⟩, fun ⟨a, b, c, d⟩ => ⟨⟨⟨a, b⟩, c⟩, d⟩⟩

theorem return_eq (d e : Dev) (h : d.sourceDown 9 = true) (he : e = (if (Claims.back d 9).clk.sysRefin && (Claims.back d 9).flag F.CLK_PLL_STATUS_SYS_COAST then (Claims.back d 9).coastOver else Claims.back d 9)) :
    d.refinReturn = if ((e.setIf (e.pll ≠ 2) F.CLK_SPLL_STATUS_WINS 0).pll = 4 && (e.setIf (e.pll ≠ 2) F.CLK_SPLL_STATUS_WINS 0).bypassed) = true then
      (e.setIf (e.pll ≠ 2) F.CLK_SPLL_STATUS_WINS 0).setPll 1 else e.setIf (e.pll ≠ 2) F.CLK_SPLL_STATUS_WINS 0 := by
  unfold Dev.refinReturn
  rw [if_neg (by rw [h]; decide)]
  dsimp only
  rw [back_eq, ← he]

theorem loss_of (d : Dev) (i : Fin 9) (h : d.sourceDown i = false) : d.sourceLoss i = (Claims.lost d i).lossAction i := if_neg (by rw [h]; decide)

theorem back_of (d : Dev) (i : Fin 9) (h : d.sourceDown i = true) (e : Dev) (he : e = Claims.back d i) : d.sourceBack i =
    if (i.val = 0 && !e.clk.sysRefin && e.flag F.CLK_PLL_STATUS_SYS_COAST) = true then e.coastOver else e := by
  subst he
  exact if_neg (by rw [h]; decide)

theorem sysReturn_clk (d : Dev) : d.sysReturn.clk = d.clk := by
  unfold Dev.sysReturn
  exact foldl_keeps (fun t : Dev => t.clk = d.clk) (fun (d : Dev) c => d.restartCheck c) (fun t c h => h) _ _ (by rw [Dev.set_clk, Dev.set_clk, Dev.set_clk])

theorem restart_ok (d e f g h : Dev) (he : e = (if d.clk.stopped.getLsbD 1 && !d.sourceDown 1 then d.sysReturn else d))
    (hc : e.clk = d.clk) (hf : f = (if d.clk.stopped.getLsbD 7 && !d.sourceDown 7 then e.set F.CLK_PLL_STATUS_PCIE_LOCK 1 else e))
    (hg : g = (if d.clk.stopped.getLsbD 8 && !d.sourceDown 8 && !f.bypassed then f.set F.CLK_PLL_STATUS_LINK_LOCK 1 else f))
    (hh : h = (if g.pll = 6 ∧ d.sourceDown 2 = false then (g.setPll 1).set F.CLK_SPLL_STATUS_WINS 0 else g)) :
    d.relock = { h with clk := { h.clk with stopped := h.clk.stopped &&& (h.clk.down ||| 0x78) } } := by
  have m (w : Dev) (hw : w.clk = d.clk) (i : Nat) : w.mayRelock i = (d.clk.stopped.getLsbD i && !d.sourceDown i) := by
    unfold Dev.mayRelock Dev.sourceStopped Dev.sourceDown; rw [hw]
  have fc : f.clk = d.clk := by rw [hf]; split; rw [Dev.set_clk, hc]; exact hc
  have gc : g.clk = d.clk := by rw [hg]; split; rw [Dev.set_clk, fc]; exact fc
  unfold Dev.relock
  dsimp only
  rw [m d rfl, ← he, m e hc]
  have a : e.setIf (d.clk.stopped.getLsbD 7 && !d.sourceDown 7) F.CLK_PLL_STATUS_PCIE_LOCK 1 = f := hf.symm
  rw [a, m f fc]
  have b : f.setIf (d.clk.stopped.getLsbD 8 && !d.sourceDown 8 && !f.bypassed) F.CLK_PLL_STATUS_LINK_LOCK 1 = g := hg.symm
  rw [b]
  have s : g.sourceDown 2 = d.sourceDown 2 := by unfold Dev.sourceDown; rw [gc]
  have c : (if (decide (g.pll = 6) && !g.sourceDown 2) = true then (g.setPll 1).set F.CLK_SPLL_STATUS_WINS 0 else g) = h := by
    rw [hh, s]
    exact if_congr (by rw [Bool.and_eq_true, decide_eq_true_eq, Bool.not_eq_true']) rfl rfl
  rw [c]
  rfl

theorem sys_eq (d : Dev) (p : Nat) (hp : p = d.get F.CLK_SYS_CFG_SYS_PRE) (e : Dev) (he : e = ({ d.senseLost with clk := { d.senseLost.clk with sysRefin := d.flag F.CLK_SYS_CFG_SRC } } : Dev)) :
    d.sysApply = if (decide (p = 0) || decide (20 < p)) = true then d.clkCmdEnds 6 3
      else (if (if e.clk.sysRefin then e.sourceDown 9 else e.sourceDown 0) = true then Claims.sysCoasts e else e.coastOver).clkCmdEnds 2 0 := by
  unfold Dev.sysApply
  have h : d.senseLost.modClk (fun k => { k with sysRefin := d.flag F.CLK_SYS_CFG_SRC }) = e := by rw [he]; unfold Dev.modClk; dsimp only
  dsimp only
  rw [h, sysCoasts_eq, ← hp]

end Sys2Proof.Laws
end

