-- ==== Sys2Proof/Laws/Boot.lean ====
section
/-! SUPPORT. Start-up, mailbox, security and board. -/

set_option Elab.async false

namespace Sys2Proof.Laws

open Sys2Proof.Machine Sys2Proof.Claims

theorem fold_cut (d : Dev) (l : List (Fin 32)) (h : ∀ c, (d.cal c).saving = none) : l.foldl (fun d c => d.cutWrite c) d = d := by
  induction l with
  | nil => rfl
  | cons c l ih =>
    rw [List.foldl_cons]
    have : d.cutWrite c = d := by unfold Dev.cutWrite; dsimp only; rw [if_pos (by rw [h c]; rfl)]
    rw [this, ih]

theorem mtp_keeps (e : Dev) (a : Nat) (bs : List Byte) : (e.mtpWrite a bs).mem.flash = e.mem.flash ∧ (e.mtpWrite a bs).mgmt = e.mgmt := ⟨rfl, rfl⟩

theorem modCal_mgmt (e : Dev) (c : Fin 32) (f : Cal → Cal) : (e.modCal c f).mgmt = e.mgmt := rfl

theorem write_flash (e : Dev) (a : Nat) (bs : List Byte) (c : Fin 32) (f : Cal → Cal) : ((e.mtpWrite a bs).modCal c f).mem.flash = e.mem.flash := rfl

theorem cut_flash (d : Dev) (l : List (Fin 32)) : (l.foldl (fun (d : Dev) c => d.cutWrite c) d).mem.flash = d.mem.flash := by
  refine foldl_keeps (fun t : Dev => t.mem.flash = d.mem.flash) (fun (d : Dev) c => d.cutWrite c) (fun t c h => ?_) l d rfl
  unfold Dev.cutWrite
  dsimp only
  split
  · exact h
  · rw [write_flash]; exact h

theorem sense_rest (d : Dev) (a b : Nat) : (d.sense a b).chans = d.chans ∧ (d.sense a b).mem = d.mem ∧ (d.sense a b).board = d.board := by
  unfold Dev.sense
  dsimp only
  generalize wordOf 4 (fun r => d.sec.roots.toList.getD r 0 ≠ 0) = w
  refine ⟨?_, ?_, ?_⟩
  · iterate 8 rw [Dev.set_chans]
  · iterate 8 rw [Dev.set_mem]
  · iterate 8 rw [Dev.set_board]

theorem por (d : Dev) : d.powerOnReset.chans = Vector.replicate 32 Chan.reset ∧ d.powerOnReset.mem = ⟨Store.empty, Store.empty, Store.empty, Store.empty, Store.empty, Store.empty, d.mem.mtp, d.mem.flash⟩ ∧ d.powerOnReset.board.good = false := by
  unfold Dev.powerOnReset
  dsimp only
  obtain ⟨n, hn⟩ : ∃ n : Dev, n = ({ Dev.cold d.mem.mtp d.mem.flash d.sec d.free with board := { (Dev.cold d.mem.mtp d.mem.flash d.sec d.free).board with rails := d.board.rails, analog := d.board.analog } } : Dev) := ⟨_, rfl⟩
  have h1 : n.chans = Vector.replicate 32 Chan.reset := by rw [hn]; rfl
  have h2 : n.mem = ⟨Store.empty, Store.empty, Store.empty, Store.empty, Store.empty, Store.empty, d.mem.mtp, d.mem.flash⟩ := by rw [hn]; rfl
  have h3 : n.board.good = false := by rw [hn]; rfl
  rw [← hn]
  obtain ⟨a1, a2, a3⟩ := sense_rest n (d.get F.SEC_LC_BURNED) (d.get F.SEC_LC_IDKEY_RETIRED)
  exact ⟨a1.trans h1, a2.trans h2, (congrArg Board.good a3).trans h3⟩

theorem por_ch (d : Dev) (c : Fin 32) : d.powerOnReset.ch c = Chan.reset := by
  show d.powerOnReset.chans[c] = _
  rw [(por d).1]
  exact Vector.getElem_replicate ..

theorem stage_set (d : Dev) (n : Nat) (h : n < 8) : (d.set F.DEV_STAGE_STAGE n).stage = n := by
  unfold Dev.stage
  rw [Dev.get_set_same _ (by decide)]
  exact Nat.mod_eq_of_lt (Nat.lt_trans h (by decide))

theorem ends_stage {i : Instr} {s : State} {d : Dev} {p : Nat → Prop} (h : exec i s = done s d) (hp : p d.stage) : Ends i s fun t => p t.stage :=
  ⟨_, h, rfl, by
    have : d.follow.stage = d.stage := follow_get _ _
    show p d.follow.stage
    rw [this]; exact hp⟩

theorem root_getD (v : Vector (BitVec 256) 4) (i : Fin 4) : v.toList.getD i.val 0 = v[i] := by
  rw [List.getD_eq_getElem?_getD, List.getElem?_eq_getElem (by rw [Vector.length_toList]; exact i.isLt)]
  rfl

theorem adv0 (d : Dev) (h : d.flag F.DEV_STAGE_STOPPED = false) (hn : d.stage = 0) : d.stageAdvance .done = d.stageA := by
  unfold Dev.stageAdvance; rw [if_neg (flag0 h), hn]; rfl

theorem adv1 (d : Dev) (h : d.flag F.DEV_STAGE_STOPPED = false) (hn : d.stage = 1) : d.stageAdvance .done = d.boot := by
  unfold Dev.stageAdvance; rw [if_neg (flag0 h), hn]; rfl

theorem slot_first (d : Dev) (first : Bool) (hf : first = decide (d.slotWord false 2 < d.slotWord true 2)) :
    d.bootSlot = if d.slotBoots first = true then some first
      else if d.slotBoots (!first) = true then some !first else none := by
  subst hf
  unfold Dev.bootSlot Dev.firstSlot
  rw [List.find?_cons, List.find?_cons, List.find?_nil]
  generalize decide (d.slotWord false 2 < d.slotWord true 2) = f
  cases h1 : d.slotBoots f <;> cases h2 : d.slotBoots (!f) <;> rfl

theorem boot_hot (d : Dev) (h : d.hot = true) : d.boot = d := by
  unfold Dev.boot; rw [if_pos h]

theorem boot_some (d : Dev) (b : Bool) (h : d.hot = false) (hb : d.bootSlot = some b) : d.boot = d.stageB b := by
  unfold Dev.boot; rw [if_neg (by rw [h]; decide), hb]

theorem boot_none (d : Dev) (h : d.hot = false) (hb : d.bootSlot = none) : d.boot =
    Claims.stops d (if (d.slotVerifies false || d.slotVerifies true) = true then 0x12 else 0x11) := by
  unfold Dev.boot; rw [if_neg (by rw [h]; decide), hb]; rfl

theorem verifies_iff (d : Dev) (b : Bool) : d.slotVerifies b = true ↔ d.slotWord b 0 = 0x574B4653 ∧ d.slotWord b 1 = 0x10001 ∧ d.slotWord b 3 ≤ 1044464 ∧
    d.get F.SEC_LC_MIN_SVN ≤ d.slotWord b 2 / 2 ^ 24 ∧ Config.xmssVerifies (d.slotBlock b) (d.slotImage b) = true ∧
    ∃ r : Fin 4, d.sec.roots[r] ≠ 0 ∧ d.get F.SEC_LC_ROOT_REVOKED / 2 ^ r.val % 2 = 0 ∧
      digest32 ((d.slotBlock b).take 68) = leBytes 32 d.sec.roots[r].toNat := by
  unfold Dev.slotVerifies Dev.blockSigns
  dsimp only
  generalize digest32 ((d.slotBlock b).take 68) = h
  generalize Config.xmssVerifies (d.slotBlock b) (d.slotImage b) = v
  simp only [Bool.and_eq_true, decide_eq_true_eq, List.any_eq_true, and_assoc]
  constructor
  · rintro ⟨a, b1, c, e, ⟨r, hr, r1, r2, r3⟩, f⟩
    have hr4 := List.mem_range.1 hr
    rw [root_getD d.sec.roots ⟨r, hr4⟩] at r1 r3
    exact ⟨a, b1, c, e, f, ⟨r, hr4⟩, r1, r2, r3⟩
  · rintro ⟨a, b1, c, e, f, r, r1, r2, r3⟩
    refine ⟨a, b1, c, e, ⟨r.val, List.mem_range.2 r.isLt, ?_, r2, ?_⟩, f⟩
    · rw [root_getD]; exact r1
    · rw [root_getD]; exact r3

theorem adv2 (d : Dev) (h : d.flag F.DEV_STAGE_STOPPED = false) (hn : d.stage = 2) : d.stageAdvance .done = d.stageC := by
  unfold Dev.stageAdvance; rw [if_neg (flag0 h), hn]; rfl

theorem adv3 (d : Dev) (ps : BitVec 128) (h : d.flag F.DEV_STAGE_STOPPED = false) (hn : d.stage = 3) : d.stageAdvance (.trained ps) = d.stageD ps := by
  unfold Dev.stageAdvance; rw [if_neg (flag0 h), hn]; rfl

theorem stop_iff (n c : Nat) : ((decide (n = 1) && (decide (c = 0x10) || decide (c = 0x13))) || (decide (n = 2) && decide (0x20 ≤ c) && decide (c ≤ 0x23)) || (decide (n = 3) && (decide (c = 0x30) || decide (c = 0x31)))) = true ↔
    ((n = 1 ∧ (c = 0x10 ∨ c = 0x13)) ∨ (n = 2 ∧ 0x20 ≤ c ∧ c ≤ 0x23) ∨ (n = 3 ∧ (c = 0x30 ∨ c = 0x31))) := by
  simp only [Bool.or_eq_true, Bool.and_eq_true, decide_eq_true_eq, and_assoc, or_assoc]

theorem adv_stop (d : Dev) (code : BitVec 8) (h : d.flag F.DEV_STAGE_STOPPED = false) : d.stageAdvance (.stop code) =
    if ((decide (d.stage = 1) && (decide (code.toNat = 0x10) || decide (code.toNat = 0x13))) || (decide (d.stage = 2) && decide (0x20 ≤ code.toNat) && decide (code.toNat ≤ 0x23)) || (decide (d.stage = 3) && (decide (code.toNat = 0x30) || decide (code.toNat = 0x31)))) = true
      then d.stopStart code.toNat else d := by
  unfold Dev.stageAdvance
  rw [if_neg (flag0 h)]
  generalize d.stage = n
  rcases n with _ | _ | _ | _ | n <;> rfl

theorem adv4 (d : Dev) (r : StageResult) (h : d.flag F.DEV_STAGE_STOPPED = false) (hn : 4 ≤ d.stage) : d.stageAdvance r = d := by
  cases r with
  | stop code =>
    rw [adv_stop d code h, if_neg]
    rw [stop_iff]; omega
  | _ =>
    unfold Dev.stageAdvance; rw [if_neg (flag0 h)]
    generalize d.stage = n at hn ⊢
    rcases n with _ | _ | _ | _ | n
    · omega
    · omega
    · omega
    · omega
    · rfl

theorem stageB_fields (d : Dev) (b : Bool) : (d.stageB b).stage = 2 := by
  unfold Dev.stageB
  dsimp only
  generalize Dev.bootApply _ = e
  exact stage_set _ 2 (by decide)

theorem stageC_stage (d : Dev) (h : d.pll = 2) (h2 : d.ev.counting = true) : d.stageC.stage = 3 := by
  unfold Dev.stageC
  rw [if_pos (by rw [h, h2]; rfl)]
  dsimp only
  generalize Dev.profileSync _ = e
  exact stage_set _ 3 (by decide)

theorem good_iff (d : Dev) (ps : BitVec 128) : (List.range 128).any (fun p => ps.getLsbD p && decide (d.pcState p ≠ 3)) = true ↔ ∃ p, p < 128 ∧ ps.getLsbD p = true ∧ d.pcState p ≠ 3 := by
  rw [List.any_eq_true]
  constructor
  · rintro ⟨p, h1, h2⟩
    rw [Bool.and_eq_true, decide_eq_true_eq] at h2
    exact ⟨p, List.mem_range.1 h1, h2.1, h2.2⟩
  · rintro ⟨p, h1, h2, h3⟩
    exact ⟨p, List.mem_range.2 h1, by rw [h2, decide_eq_true h3]; rfl⟩

theorem stageD_stage (d : Dev) (ps : BitVec 128) (h : ∃ p, p < 128 ∧ ps.getLsbD p = true ∧ d.pcState p ≠ 3) : (d.stageD ps).stage = 4 ∨ (d.stageD ps).stage = 5 := by
  have hg := (good_iff d ps).2 h
  have e1 : ∃ (e : Dev) (n : Nat), d.stageD ps = e.set F.DEV_STAGE_STAGE (if n = 2 then 5 else 4) := by
    unfold Dev.stageD
    dsimp only
    rw [if_neg (by rw [hg]; decide)]
    exact ⟨_, _, rfl⟩
  obtain ⟨e, n, e1⟩ := e1
  rw [e1]
  by_cases hn : n = 2
  · rw [if_pos hn]; exact Or.inr (stage_set _ 5 (by decide))
  · rw [if_neg hn]; exact Or.inl (stage_set _ 4 (by decide))

theorem stageD_none (d : Dev) (ps : BitVec 128) (h : ∀ p, p < 128 → ps.getLsbD p = false ∨ d.pcState p = 3) : d.stageD ps = Claims.stops d 0x30 := by
  refine if_pos ?_
  have : ¬(List.range 128).any (fun p => ps.getLsbD p && decide (d.pcState p ≠ 3)) = true := by
    rw [good_iff]
    rintro ⟨p, h1, h2, h3⟩
    rcases h p h1 with h | h
    · rw [h] at h2; cases h2
    · exact h3 h
  rw [Bool.not_eq_true] at this
  rw [this]; rfl

theorem spoil_flash (d : Dev) (i : Nat) : (d.spoilEnd i).mem.flash = d.mem.flash := by
  unfold Dev.spoilEnd
  dsimp only
  rw [(mtp_keeps _ _ _).1]

theorem reserve_flash (d : Dev) (n : Nat) : (d.reserve n).mem.flash = d.mem.flash := by
  have h : (d.spoilEnds d.nextEndSlot n).mem.flash = d.mem.flash :=
    foldl_keeps (fun t : Dev => t.mem.flash = d.mem.flash) (fun (e : Dev) j => e.spoilEnd (d.nextEndSlot + j)) (fun t j h => (spoil_flash t _).trans h) (List.range n) d rfl
  unfold Dev.reserve Dev.putEnd
  dsimp only
  rw [Dev.set_mem, (mtp_keeps _ _ _).1, h]

/-- A cut mailbox command leaves the flash as it was unless it is FLASH_WRITE. -/
theorem command_flash (d : Dev) (p : Bool) (h : ∀ args, d.mgmt.cmd ≠ some (0x11, args)) : (d.cutCommand p).mem.flash = d.mem.flash := by
  unfold Dev.cutCommand
  split
  · next op args hc =>
    split
    · dsimp only
      generalize (Config.unstatedByte d.free).toNat % 3 = n
      split
      · rfl
      · split
        · split
          · exact spoil_flash _ _
          · rfl
        · exact reserve_flash _ _
    · split
      · next h1 => rw [h1] at hc; exact absurd hc (h args)
      · rfl
  · rfl

theorem cutWrites_cmd (d : Dev) (l : List (Fin 32)) : (l.foldl (fun (d : Dev) c => d.cutWrite c) d).mgmt = d.mgmt := by
  refine foldl_keeps (fun t : Dev => t.mgmt = d.mgmt) (fun (d : Dev) c => d.cutWrite c) (fun t c h => ?_) l d rfl
  unfold Dev.cutWrite
  split
  · exact h
  · dsimp only
    rw [modCal_mgmt, (mtp_keeps _ _ _).2]; exact h

theorem cutWrites_flash (d : Dev) (h : ∀ args, d.mgmt.cmd ≠ some (0x11, args)) : d.cutWrites.mem.flash = d.mem.flash := by
  unfold Dev.cutWrites
  rw [command_flash _ _ (by rw [cutWrites_cmd]; exact h), cut_flash]

theorem supply_ok (d g : Dev) (a : Bool) (hg : d.supplyFail a = g) : ((∀ args, d.mgmt.cmd ≠ some (0x11, args)) → g.mem.flash = d.mem.flash) ∧
    (∀ c, g.ch c = Chan.reset) ∧ g.board.good = false := by
  subst hg
  unfold Dev.supplyFail
  have hf := cutWrites_flash d
  generalize d.cutWrites = w at *
  refine ⟨fun h => ?_, fun c => por_ch _ c, (por _).2.2⟩
  rw [(por _).2.1]; exact hf h

theorem stands_iff (d : Dev) (op : Nat) : d.mgmtStands op = true ↔ Claims.stands d op := by
  unfold Dev.mgmtStands Claims.stands
  rw [Bool.and_eq_true, Bool.not_eq_true', ← Bool.not_eq_true, List.contains_iff_mem]
  simp

theorem mailbox_of (i : Instr) (op vals fn : Nat) (f g : Dev → List W32 → Dev) (hi : ∀ s, exec i s = done s (s.dev.mailbox ⟨op, vals, fn⟩ g))
    (hfg : ∀ d args, g d args = f d args) : Claims.Mailbox i op vals fn f := by
  have hg : g = f := funext fun d => funext fun a => hfg d a
  subst hg
  refine ⟨fun s args h h2 => ⟨fun k => becomes_of (hi s) ?_, fun k => becomes_of (hi s) ?_⟩, fun s o args h h2 => becomes_of (hi s) ?_,
    fun s a e h ha he => ⟨fun h2 => becomes_of (hi s) ?_, fun o args h2 k => becomes_of (hi s) ?_⟩⟩
  · unfold Dev.mailbox Sel.is
    rw [h]
    exact (if_pos (by rw [decide_eq_true h2]; simp)).trans (if_pos ((stands_iff _ _).2 k))
  · unfold Dev.mailbox Sel.is
    rw [h]
    exact (if_pos (by rw [decide_eq_true h2]; simp)).trans (if_neg fun n => k ((stands_iff _ _).1 n))
  · unfold Dev.mailbox Sel.is
    rw [h]
    refine if_neg ?_
    rw [Bool.and_eq_true, decide_eq_true_eq, decide_eq_true_eq]
    rintro ⟨k1, k2⟩
    rcases h2 with h2 | h2
    · exact h2 k1
    · exact h2 k2
  · unfold Dev.mailbox
    rw [h]
    dsimp only
    rw [← ha, ← he]
    split
    · next cmd hc =>
      rcases h2 with h2 | h2
      · rw [h2] at hc; cases hc
      · exact if_pos ((stands_iff _ _).2 h2)
    · rfl
  · unfold Dev.mailbox
    rw [h]
    dsimp only
    rw [← ha, ← he, h2]
    exact if_neg fun n => k ((stands_iff _ _).1 n)

theorem abort_eq (d e : Dev) (he : e = d.set F.MGMT_CMD_PENDING 0) : (e.mgmt.cmd = none → d.mgmtAbort = e.set F.MGMT_STATUS_ABRT 2) ∧
    (∀ op args, e.mgmt.cmd = some (op, args) → d.mgmtAbort = if op = 0x11 then
      (if (args.getD 2 0).toNat % 2 = 1 then e.flashSpoil (args.getD 0 0).toNat 4096 else e.flashSpoil (args.getD 0 0).toNat (min 4096 (args.getD 1 0).toNat)).mgmtOver 3 1 0
      else e.set F.MGMT_STATUS_ABRT 2) := by
  unfold Dev.mgmtAbort
  dsimp only
  rw [← he]
  refine ⟨fun h => by rw [h], fun op args h => by rw [h]; rfl⟩

theorem mends_eq (d : Dev) (code abrt reason : Nat) (e f g : Dev) (he : e = (((((d.set F.MGMT_STATUS_CODE code).set F.MGMT_STATUS_ABRT abrt).set F.MGMT_STATUS_REASON
      reason).set F.MGMT_CMD_GO 0).set F.MGMT_IRQ_STATUS_DONE 1))
    (hf : f = (if code = 2 then e else e.set F.MGMT_LEN_BYTES 0)) (hg : g = ({ f with mgmt := { f.mgmt with cmd := none } } : Dev)) :
    d.mgmtRecord code abrt reason = g ∧
    (g.secServe.flag F.MGMT_CMD_PENDING = false → d.mgmtOver code abrt reason = g.secServe) ∧
    (g.secServe.flag F.MGMT_CMD_PENDING = true → d.mgmtOver code abrt reason = (g.secServe.set F.MGMT_CMD_PENDING 0).mgmtTake) ∧
    d.mgmtEnds code reason = d.mgmtOver code (d.get F.MGMT_STATUS_ABRT) reason := by
  have h1 : d.mgmtRecord code abrt reason = g := by
    unfold Dev.mgmtRecord
    dsimp only
    rw [← he, show e.setIf (code ≠ 2) F.MGMT_LEN_BYTES 0 = f by
      rw [hf, setIf_dec]
      by_cases h : code = 2
      · rw [if_neg (by simp [h]), if_pos h]
      · rw [if_pos h, if_neg h], hg]
  refine ⟨h1, fun h => ?_, fun h => ?_, rfl⟩ <;> unfold Dev.mgmtOver <;> rw [h1]
  · exact if_neg (flag0 h)
  · exact if_pos h

theorem serve_eq (d : Dev) (q : Nat × Nat × Nat) (e : Dev) : (d.mgmt.sec = none → d.secServe = d) ∧
    (d.mgmt.sec = some q → e = ({ d with mgmt := { d.mgmt with sec := none } } : Dev).secRun q →
      (e.flag F.SEC_CMD_PENDING = false → d.secServe = e) ∧
      (e.flag F.SEC_CMD_PENDING = true → d.secServe = (e.set F.SEC_CMD_PENDING 0).secRun e.secArgs)) := by
  refine ⟨fun h => by unfold Dev.secServe; rw [h], fun h he => ?_⟩
  unfold Dev.secServe
  rw [h]
  dsimp only
  rw [← he]
  exact ⟨fun h => if_neg (flag0 h), fun h => if_pos h⟩

/-- A security command is queued behind one that waits, and waits behind a mailbox command that runs (R58, R429). -/
theorem sec_waits {i : Instr} {s : State} {e : Dev} (h : exec i s = done s e.secGo) : Claims.SecWaits i s e := by
  refine ⟨fun k => becomes_of h ?_, fun k k2 => becomes_of h ?_⟩
  · exact if_pos (Option.isSome_iff_ne_none.2 k)
  · refine (if_neg (by rw [k]; decide)).trans (if_pos ?_)
    rcases k2 with k2 | k2
    · rw [Option.isSome_iff_ne_none.2 k2]; rfl
    · rw [k2]; simp

theorem sec_free {e : Dev} (h : Claims.secFree e) : e.secGo = e.secRun e.secArgs :=
  (if_neg (by rw [h.1]; decide)).trans (if_neg (by rw [h.2.1, h.2.2]; decide))

theorem revoke_eq (d e : Dev) (r : Fin 4) (he : e = (d.set F.SEC_CMD_R r).set F.SEC_CMD_OP 3) : e.secRun e.secArgs =
    if (decide (e.sec.roots.toList.getD r.val 0 = 0) || decide ((List.range 4).filter (fun i => e.sec.roots.toList.getD i 0 ≠ 0 && !e.sec.revoked.getLsbD i) = [r.val])) = true then Claims.secEnds e 6
    else Claims.secEnds { e with sec := { e.sec with revoked := e.sec.revoked ||| BitVec.twoPow 4 r } } 2 := by
  have h1 : e.get F.SEC_CMD_OP = 3 := by rw [he, Dev.get_set_same _ (by decide)]; rfl
  have h2 : e.get F.SEC_CMD_R = r.val := by
    rw [he, Dev.get_set_bits (f := F.SEC_CMD_OP) (g := F.SEC_CMD_R) _ _ (by decide) rfl (by decide), Dev.get_set_same _ (by decide)]
    exact Nat.mod_eq_of_lt r.isLt
  unfold Dev.secRun Dev.secArgs
  rw [h1, h2]
  rfl

theorem live_eq (v : Vector (BitVec 256) 4) (w : BitVec 4) (r : Fin 4) : (List.range 4).filter (fun i => v.toList.getD i 0 ≠ 0 && !w.getLsbD i) = [r.val] ↔
    ((∀ q : Fin 4, q ≠ r → v[q] = 0 ∨ w.getLsbD q = true) ∧ v[r] ≠ 0 ∧ w.getLsbD r = false) := by
  have key : ∀ (p : Nat → Bool) (r : Fin 4), (List.range 4).filter p = [r.val] ↔ ((∀ q : Fin 4, q ≠ r → p q.val = false) ∧ p r.val = true) := by
    intro p r
    have : List.range 4 = [0, 1, 2, 3] := rfl
    rw [this]
    cases h0 : p 0 <;> cases h1 : p 1 <;> cases h2 : p 2 <;> cases h3 : p 3 <;> fin_cases r <;> simp [h0, h1, h2, h3, List.filter, Fin.forall_fin_succ]
  rw [key]
  have c : ∀ q : Fin 4, (v.toList.getD q.val 0 ≠ 0 && !w.getLsbD q) = true ↔ (v[q] ≠ 0 ∧ w.getLsbD q = false) := by
    intro q
    rw [root_getD, Bool.and_eq_true, decide_eq_true_eq, Bool.not_eq_true']
  constructor
  · rintro ⟨h1, h2⟩
    refine ⟨fun q hq => ?_, (c r).1 h2⟩
    have := h1 q hq
    rw [← Bool.not_eq_true, c] at this
    by_cases hz : v[q] = 0
    · exact Or.inl hz
    · right
      cases hh : w.getLsbD q
      · exact absurd ⟨hz, hh⟩ this
      · rfl
  · rintro ⟨h1, h2⟩
    refine ⟨fun q hq => ?_, (c r).2 h2⟩
    rw [← Bool.not_eq_true, c]
    rintro ⟨k1, k2⟩
    rcases h1 q hq with k | k
    · exact k1 k
    · rw [k] at k2; cases k2

theorem jtag_eq (d e : Dev) (ir : BitVec 8) (hr : d.board.rails = true) (he : e = { d with board := { d.board with jtag := ir } }) :
    d.jtag ir = if (e.board.pinsTaken && !d.board.pinsTaken) = true then e.parkAll else e := by
  subst he; unfold Dev.jtag; rw [if_neg (by rw [hr]; decide)]

theorem priv_iff (ir : BitVec 8) : privateOpcode ir = true ↔ ir.toNat ∉ [0, 1, 2, 4, 5, 6, 7, 0xFF] := by
  unfold privateOpcode
  rw [Bool.not_eq_true', ← Bool.not_eq_true, List.contains_iff_mem]

end Sys2Proof.Laws
end

