-- ==== Sys2Proof/Laws/Converters.lean ====
section
/-! SUPPORT. Rotation, calibration, ranges, sensors. -/

set_option Elab.async false

namespace Sys2Proof.Laws

open Sys2Proof.Machine Sys2Proof.Claims

theorem rot_off (d : Dev) (c : Fin 32) (b : Bool) (r : CheckResult)
    (h : (d.cal c).run.isSome = true ∨ (d.cal c).swapDue.isSome = true ∨ d.runs (19 + chiplet c) = false ∨ d.flag F.CLK_PLL_STATUS_SYS_BYPASS = true ∨
      d.underCheck c = none ∨ (∃ u, d.underCheck c = some u ∧ (d.ev.elapsed < d.checkStart c u ∨ (b = false ∧ d.ev.elapsed < d.checkStart c u + 20000)))) :
    d.rotationStep c b r = d := by
  unfold Dev.rotationStep
  dsimp only
  split
  · rfl
  · next hg =>
    simp only [Bool.or_eq_true, Bool.not_eq_true', not_or, Bool.not_eq_true] at hg
    obtain ⟨⟨⟨g1, g2⟩, g3⟩, g4⟩ := hg
    rcases h with h | h | h | h | h | ⟨u, h, h2⟩
    · rw [g1] at h; cases h
    · rw [g2] at h; cases h
    · exact absurd h g3
    · rw [g4] at h; cases h
    · rw [h]
    · rw [h]; dsimp only
      rcases h2 with h2 | ⟨h2, h3⟩
      · rw [if_pos h2]
      · split
        · rfl
        · simp [h2]

theorem rot_on (d : Dev) (c : Fin 32) (b : Bool) (r : CheckResult) (u : Nat) (h1 : (d.cal c).run = none) (h2 : (d.cal c).swapDue = none)
    (h3 : d.runs (19 + chiplet c) = true) (h4 : d.flag F.CLK_PLL_STATUS_SYS_BYPASS = false) (h5 : d.underCheck c = some u)
    (h6 : d.checkStart c u ≤ d.ev.elapsed) : d.rotationStep c b r =
      if b = true then d.checkLost c u fun d => (d.countSat (F.CH_CAL_CNT_LO c 1)).modCal c fun x => { x with stepAt := d.ev.elapsed + 1 }
      else if d.ev.elapsed < d.checkStart c u + 20000 then d
      else if checkGood r = true then (d.takeCheck c u r).checkPassed c u
      else if (d.cal c).failedOnce = some u then d.checkLost c u fun d => Claims.checkRestarts ((Claims.failedOnce d c none).failSub c u) c
      else d.checkLost c u fun d => Claims.checkRestarts (Claims.failedOnce d c (some u)) c := by
  unfold Dev.rotationStep
  dsimp only
  rw [if_neg (by rw [h1, h2, h3, h4]; decide), h5]
  dsimp only
  rw [if_neg (by omega)]
  rfl

theorem check_lost_eq (d : Dev) (c : Fin 32) (u : Nat) (go : Dev → Dev) :
    (d.role c u = 1 ∧ d.flag (F.CH_DAC_CTRL_ROT c) = false → d.checkLost c u go = Claims.failedOnce (d.setRole c u 2) c none) ∧
    (d.role c u ≠ 1 ∨ d.flag (F.CH_DAC_CTRL_ROT c) = true → d.checkLost c u go = go d) := by
  unfold Dev.checkLost
  constructor
  · rintro ⟨h1, h2⟩; rw [if_pos (by rw [h1, h2]; rfl)]; rfl
  · rintro (h | h)
    · rw [if_neg (by rw [decide_eq_false h]; simp)]
    · rw [if_neg (by rw [h]; simp)]

theorem checkGood_iff (r : CheckResult) : checkGood r = true ↔ r.passed = true ∧ popcount r.use = 64 ∧ r.rinl.toNat ≤ 16 := by
  unfold checkGood
  rw [Bool.and_eq_true, Bool.and_eq_true, decide_eq_true_eq, decide_eq_true_eq, and_assoc]

theorem passed_eq (d : Dev) (c : Fin 32) (u : Nat) (e : Dev) (he : e = Claims.checkRestarts (Claims.failedOnce d c none) c) :
    d.checkPassed c u = if e.role c u ≠ 1 then e else if e.flag (F.CH_DAC_CTRL_ROT c) = true then Claims.swapDue e c (some u) else e.setRole c u 2 := by
  subst he; rfl

theorem frame_rest (d : Dev) (c : Fin 32) (h : ((d.cal c).vacant = [] ∧ (d.cal c).swapDue = none) ∨ d.ev.dt.toNat % (16 / d.spt c) ≠ 0) : d.frameTick c = d := by
  unfold Dev.frameTick
  refine if_pos ?_
  rcases h with ⟨h1, h2⟩ | h
  · rw [h1, h2]; rfl
  · rw [Bool.or_eq_true, decide_eq_true_eq]; exact Or.inr h

theorem frame_swap (d : Dev) (c : Fin 32) (u : Nat) (g : Dev) (h1 : (d.cal c).vacant = []) (h2 : (d.cal c).swapDue = some u) (h3 : d.ev.dt.toNat % (16 / d.spt c) = 0)
    (hg : g = Claims.checkRestarts (((Claims.swapDue d c none).swapIn c u).countSat (F.CH_CAL_CNT_HI c 0)) c) : d.frameTick c = (g.roleMix c).spurSync c := by
  have f : d.fillVacant c = d := by unfold Dev.fillVacant; rw [h1]
  unfold Dev.frameTick
  rw [if_neg (by unfold Dev.frameTicks; rw [h1, h2, h3]; simp), f, f, hg]
  dsimp only
  rw [h2]
  rfl

theorem frame_fill (d : Dev) (c : Fin 32) (p w : Nat) (h1 : (d.cal c).vacant = [p]) (h2 : (d.cal c).swapDue = none) (h4 : d.inRole c 2 = some w)
    (h3 : d.ev.dt.toNat % (16 / d.spt c) = 0) : d.frameTick c = ((Claims.vacant (d.serve c w p) c []).roleMix c).spurSync c := by
  have f : d.fillVacant c = Claims.vacant (d.serve c w p) c [] := by unfold Dev.fillVacant; rw [h1]; dsimp only; rw [h4]; rfl
  have k : ((Claims.vacant (d.serve c w p) c []).cal c).vacant = [] ∧ ((Claims.vacant (d.serve c w p) c []).cal c).swapDue = none := by
    have q : (d.serve c w p).cal c = d.cal c := by unfold Dev.serve Dev.cal; simp only [Dev.set_cals]
    constructor
    · unfold Claims.vacant Dev.cal; simp
    · rw [← h2, ← q]; unfold Claims.vacant Dev.cal; simp
  have f2 : (Claims.vacant (d.serve c w p) c []).fillVacant c = Claims.vacant (d.serve c w p) c [] := by unfold Dev.fillVacant; rw [k.1]
  unfold Dev.frameTick
  rw [if_neg (by unfold Dev.frameTicks; rw [h1, h2, h3]; simp), f, f2]
  dsimp only
  rw [k.2]

/-- The node voltages of a string rise along it, whatever its drops are (R212). -/
theorem vtap_mono (drops : List Nat) : Monotone (vtap drops) := by
  intro i j h
  have q : ((drops.take i).sum : ℚ) ≤ ((drops.take j).sum : ℚ) := by
    exact_mod_cast (List.take_sublist_take_left h).sum_le_sum fun _ _ => Nat.zero_le _
  exact div_le_div_of_nonneg_right q (by positivity)

/-- The level `x` sixty-fourths of a coarse step up a string whose node voltages are `t`. -/
def levelAt (t : Nat → Rat) (x : Nat) : Rat := t (x / 64) + ((x % 64 : Nat) : Rat) / 64 * (t (x / 64 + 1) - t (x / 64))

theorem levelAt_mono {t : Nat → Rat} (ht : Monotone t) : Monotone (levelAt t) := by
  refine monotone_nat_of_le_succ fun x => ?_
  unfold levelAt
  have h : t (x / 64) ≤ t (x / 64 + 1) := ht (Nat.le_succ _)
  rcases Nat.lt_or_ge (x % 64) 63 with k | k
  · rw [show (x + 1) / 64 = x / 64 by omega, show (x + 1) % 64 = x % 64 + 1 by omega]
    push_cast
    linarith
  · rw [show (x + 1) / 64 = x / 64 + 1 by omega, show (x + 1) % 64 = 0 by omega, show x % 64 = 63 by omega]
    push_cast
    linarith

/-- A code further up the string lies at or above one further down, whatever the drops are (R212). -/
theorem convert_mono (drops : List Nat) (a b : BitVec 12) (h : a.toInt ≤ b.toInt) : convert drops a ≤ convert drops b :=
  levelAt_mono (vtap_mono drops) (Int.toNat_le_toNat (by omega))

theorem modCal_get (d : Dev) (c : Fin 32) (f : Cal → Cal) (g : Fld) : (d.modCal c f).get g = d.get g := by unfold Dev.get Dev.rd Dev.modCal; rfl

theorem modCal_cal (d : Dev) (c : Fin 32) (f : Cal → Cal) : (d.modCal c f).cal c = f (d.cal c) := by
  unfold Dev.cal Dev.modCal; simp

theorem modCal_ev (d : Dev) (c : Fin 32) (f : Cal → Cal) : (d.modCal c f).ev = d.ev := by unfold Dev.modCal; rfl

theorem modCh_get' (d : Dev) (c : Fin 32) (f : Chan → Chan) (g : Fld) : (d.modCh c f).get g = d.get g := by unfold Dev.get Dev.rd Dev.modCh Dev.setCh; rfl

theorem follow_cal (d : Dev) (c : Fin 32) : d.follow.cal c = d.cal c := by unfold Dev.cal; rw [Dev.follow_cals]

def beganAt (g : Dev) (c : Fin 32) (kind : CalKind) : Dev :=
  (((((g.set (F.CH_CAL_STATUS_RUNNING c) 1).set (F.CH_CAL_STATUS_STALE c) 1).set (F.CH_CAL_STATUS_KIND c) (kindOf kind)).set (F.CH_CAL_STATUS_CODE c) 1).setIf
    (kind = .forced) (F.CH_CAL_IRQ_STATUS_FORCED c) 1)

theorem began_fields (g : Dev) (c : Fin 32) (kind : CalKind) :
    (beganAt g c kind).get (F.CH_CAL_STATUS_RUNNING c) = 1 ∧ (beganAt g c kind).get (F.CH_CAL_STATUS_STALE c) = 1 ∧ (beganAt g c kind).get (F.CH_CAL_STATUS_CODE c) = 1 ∧
    (beganAt g c kind).get (F.CH_CAL_STATUS_KIND c) = kindOf kind ∧ (kind = .forced → (beganAt g c kind).get (F.CH_CAL_IRQ_STATUS_FORCED c) = 1) := by
  obtain ⟨e, he⟩ : ∃ e, e = (((g.set (F.CH_CAL_STATUS_RUNNING c) 1).set (F.CH_CAL_STATUS_STALE c) 1).set (F.CH_CAL_STATUS_KIND c) (kindOf kind)).set (F.CH_CAL_STATUS_CODE c) 1 := ⟨_, rfl⟩
  have b : beganAt g c kind = e.setIf (kind = .forced) (F.CH_CAL_IRQ_STATUS_FORCED c) 1 := by rw [he]; rfl
  have q : ∀ f : Fld, f.addr = R.CH_CAL_STATUS c → (beganAt g c kind).get f = e.get f := by
    intro f hf
    rw [b]; unfold Dev.setIf
    split
    · exact Dev.get_set_reg _ _ (by rw [hf]; simp)
    · rfl
  have kk : kindOf kind < 4 := by cases kind <;> decide
  refine ⟨?_, ?_, ?_, ?_, fun h => ?_⟩
  · rw [q _ rfl, he, get_set_bits' _ _ (by omega) (by omega), get_set_bits' _ _ (by omega) (by omega), get_set_bits' _ _ (by omega) (by omega), Dev.get_set_same _ (by simp)]
    rfl
  · rw [q _ rfl, he, get_set_bits' _ _ (by omega) (by omega), get_set_bits' _ _ (by omega) (by omega), Dev.get_set_same _ (by simp)]
    rfl
  · rw [q _ rfl, he, Dev.get_set_same _ (by simp)]
    rfl
  · rw [q _ rfl, he, get_set_bits' _ _ (by omega) (by omega), Dev.get_set_same _ (by simp)]
    exact Nat.mod_eq_of_lt kk
  · rw [b]; unfold Dev.setIf
    rw [if_pos (by simp [h]), Dev.get_set_same _ (by simp)]
    rfl

theorem began_eq (d : Dev) (c : Fin 32) (kind : CalKind) (h : d.runMayStart c kind = true) :
    ∃ g : Dev, d.calRunStart c kind = ((beganAt g c kind).modCh c fun x => { x with calWin := none }).modCal c fun k =>
      { k with run := some (kind, (beganAt g c kind).ev.elapsed), ranAt := (beganAt g c kind).ev.elapsed, ranKind := kind
               hold := ((beganAt g c kind).ch c).hist.head?, staleEnd := none
               fromPark := ((beganAt g c kind).ch c).hist.head?.all (·.parked), runTemp := (beganAt g c kind).tempWord c } := by
  unfold Dev.calRunStart
  rw [if_neg (by rw [h]; decide)]
  exact ⟨_, rfl⟩

theorem runEnd_eq (d : Dev) (c : Fin 32) (g o : BitVec 16) (fs : BitVec 18) (kind : CalKind) (t : Nat) (a b e : Dev)
    (h : (d.cal c).run = some (kind, t)) (ht : t + 48000 ≤ d.ev.elapsed)
    (ha : a = d.modCal c fun k => { k with outs := k.outs.setIfInBounds (d.get (F.CH_DAC_CTRL_RANGE c)) ⟨g, o, d.tempWord c, true, d.ev.elapsed⟩, run := none, dueKept := d.flag (F.CH_CAL_CTRL_RUN c), moved := false })
    (hb : b = ((((((a.holdEnds c).calEnds c 2 0 (kindOf kind)).countSat (F.CH_CAL_CNT_LO c 0)).set (F.CH_CAL_IRQ_STATUS_DONE c) 1).set
      (F.CH_CAL_AGE_FROM_MTP c) 0).set (F.CH_CAL_STATUS_FORCE_DUE c) 0).dueSync c)
    (he : e = (List.range 18).foldl (fun d u => if fs.getLsbD u && d.role c u = 0 then d.failSub c u else d) b) :
    d.calRunEnd c g o fs = Claims.checkRestarts (e.requestRecord c) c := by
  unfold Dev.calRunEnd
  rw [h]
  refine (if_neg (by omega)).trans ?_
  rw [he, hb, ha]
  rfl

theorem aborted_eq (d : Dev) (c : Fin 32) (r : Nat) (kind : CalKind) (t : Nat) (h : (d.cal c).run = some (kind, t)) :
    ∃ (x : Dev) (f : Cal → Cal) (p : Bool), d.calAbortNow c r = (if p = true then ((x.modCal c f).restartCheck c).holdEnds c else (x.modCal c f).restartCheck c) ∧ ∀ k, (f k).run = none := by
  unfold Dev.calAbortNow
  rw [h]
  exact ⟨_, _, _, rfl, fun k => rfl⟩

theorem set_cal (d : Dev) (c : Fin 32) (f : Fld) (v : Nat) : (d.set f v).cal c = d.cal c := by unfold Dev.cal; rw [Dev.set_cals]

theorem aborted_run (d : Dev) (c : Fin 32) (r : Nat) (kind : CalKind) (t : Nat) (h : (d.cal c).run = some (kind, t)) : ((d.calAbortNow c r).cal c).run = none := by
  obtain ⟨x, f, p, e, hf⟩ := aborted_eq d c r kind t h
  rw [e]
  have k : ((x.modCal c f).restartCheck c).cal c = { f (x.cal c) with stepAt := (x.modCal c f).ev.elapsed } := by
    unfold Dev.restartCheck; rw [modCal_cal, modCal_cal]
  split
  · unfold Dev.holdEnds; rw [modCal_cal, set_cal, k]; exact hf _
  · rw [k]; exact hf _

theorem run_cmd_eq (d e : Dev) (c : Fin 32) (he : e = d.wakeChiplet (chiplet c)) : d.calRun c = if e.flag (F.CH_CAL_CTRL_RUN c) = true then
    (if e.flag (F.CH_CAL_CTRL_PENDING c) = true then e else (e.set (F.CH_CAL_CTRL_PENDING c) 1).modCal c fun k => { k with queuedSave := false })
  else ((e.set (F.CH_CAL_CTRL_RUN c) 1).modCal c fun k => { k with dueKept := true }).dueSync c := by subst he; rfl

theorem save_cmd_eq (d e : Dev) (c : Fin 32) (he : e = d.wakeChiplet (chiplet c)) : d.calSave c = if e.flag (F.CH_CAL_CTRL_SAVE c) = true then
    (if e.flag (F.CH_CAL_CTRL_PENDING c) = true then e else (e.set (F.CH_CAL_CTRL_PENDING c) 1).modCal c fun k => { k with queuedSave := true })
  else e.startSave c := by subst he; rfl

theorem start_save_eq (d e : Dev) (c : Fin 32) (he : e = (d.set (F.CH_CAL_CTRL_SAVE c) 1).set (F.CH_CAL_MTP_DEFERRED c) 0) : d.startSave c =
    if (e.cal c).saving.isSome = true then e.modCal c fun k => { k with saveNext := true }
    else if e.flag F.MGMT_STATUS_READY = true then Claims.writeBegins e c else e.set (F.CH_CAL_MTP_DEFERRED c) 1 := by
  subst he; unfold Dev.startSave Dev.writerFree
  dsimp only
  split
  · rfl
  · next h => rw [Option.not_isSome_iff_eq_none.1 h]; rfl

theorem abort_eq' (d : Dev) (c : Fin 32) (r : BitVec 4) :
    (((1 ≤ r.toNat ∧ r.toNat ≤ 5) ∨ (r.toNat = 6 ∧ d.tempSlewed c = true)) → d.calAbort c r = d.calAbortNow c r.toNat) ∧
    (r.toNat = 0 ∨ 7 ≤ r.toNat ∨ (r.toNat = 6 ∧ d.tempSlewed c = false) ∨ (d.cal c).run = none → d.calAbort c r = d) := by
  have e6 : decide (r = 6) = decide (r.toNat = 6) := decide_eq_decide.2 ⟨fun h => by rw [h]; rfl, fun h => BitVec.eq_of_toNat_eq h⟩
  unfold Dev.calAbort
  rw [e6]
  constructor
  · intro h
    rw [if_pos]
    rw [Bool.or_eq_true, Bool.and_eq_true, Bool.and_eq_true, decide_eq_true_eq, decide_eq_true_eq, decide_eq_true_eq]; exact h
  · intro h
    by_cases hr : (d.cal c).run = none
    · split
      · unfold Dev.calAbortNow; rw [hr]
      · rfl
    · rw [if_neg]
      rw [Bool.or_eq_true, Bool.and_eq_true, Bool.and_eq_true, decide_eq_true_eq, decide_eq_true_eq, decide_eq_true_eq]
      rintro (k | k)
      · rcases h with h | h | h | h
        · omega
        · omega
        · omega
        · exact hr h
      · rcases h with h | h | h | h
        · omega
        · omega
        · rw [h.2] at k; cases k.2
        · exact hr h

def forceStep (f : Dev) (c : Fin 32) : Dev :=
  let lim := f.get (F.CH_CAL_CTRL_CAL_FORCE c)
  let force := lim ≠ 0 && f.flag (F.CH_CAL_STATUS_DUE c) && f.tempMoved c (16 * lim)
  (if force && !f.flag (F.CH_CAL_STATUS_FORCE_DUE c) then f.modCal c fun k => { k with forceAt := f.ev.elapsed } else f).set (F.CH_CAL_STATUS_FORCE_DUE c) (bit force)

theorem compare_eq (s a d e f : Dev) (c : Fin 32) (ht : (s.cal c).compAt + 400000 ≤ s.ev.elapsed) (ha : a = s.modCal c fun k => { k with compAt := s.ev.elapsed })
    (hd : d = a.setIf (a.tempValid c) (F.CH_CAL_TEMP_NOW c) (a.tempWord c).toNat)
    (he : e = match (d.cal c).barred with
      | some t => if d.tempValid c && d.calDelta c < tempMove (d.tempWord c) t then d.modCal c fun k => { k with barred := none } else d
      | none => d) (hf : f = (e.modCal c fun k => { k with moved := e.tempMoved c (e.calDelta c) }).dueSync c) : s.calCompare c = forceStep f c := by
  rw [hf, he, hd, ha]; unfold Dev.calCompare; rw [if_neg (by omega)]; rfl

theorem force_eq (f : Dev) (c : Fin 32) (g : Bool) (hg : g = decide (f.get (F.CH_CAL_CTRL_CAL_FORCE c) ≠ 0 ∧ f.flag (F.CH_CAL_STATUS_DUE c) = true ∧
      f.tempMoved c (16 * f.get (F.CH_CAL_CTRL_CAL_FORCE c)) = true)) :
    forceStep f c = (if (g && !f.flag (F.CH_CAL_STATUS_FORCE_DUE c)) = true then f.modCal c fun k => { k with forceAt := f.ev.elapsed } else f).set (F.CH_CAL_STATUS_FORCE_DUE c) (bit g) := by
  have h : (decide (f.get (F.CH_CAL_CTRL_CAL_FORCE c) ≠ 0) && f.flag (F.CH_CAL_STATUS_DUE c) && f.tempMoved c (16 * f.get (F.CH_CAL_CTRL_CAL_FORCE c))) = g := by
    rw [hg, ← Bool.decide_coe (_ && _), decide_eq_decide, Bool.and_eq_true, Bool.and_eq_true, decide_eq_true_eq, and_assoc]
  rw [← h]
  rfl

theorem record_eq (d : Dev) (c : Fin 32) (ok : Bool) (bs : List Byte) (gen i : Nat) (h1 : (d.cal c).saving = some bs) (h2 : d.flag F.MGMT_STATUS_READY = true) (h3 : d.tripped = false) (hg : gen = d.get (F.CH_CAL_GEN_GEN c))
    (hi : i = usableSlot (d.cal c).badSlots 16 (if gen = 0 then 0 else d.get (F.CH_CAL_MTP_SLOT c) + 1)) (e e' g f : Dev)
    (he : e = (d.mtpWrite (slotAt c i) bs).set (F.CH_CAL_MTP_SLOT c) i) (he' : e' = e.set (F.CH_CAL_GEN_GEN c) (e.get (F.CH_CAL_GEN_GEN c) + 1))
    (hgg : g = ({ d with free := d.free + 512 } : Dev).mtpWrite (slotAt c i) ((List.range 512).map fun j => Config.unstatedByte (d.free + j)))
    (hf : f = g.modCal c fun k => { k with badSlots := k.badSlots ++ [i], fails := k.fails + 1 }) :
    d.mtpRecordWrite c ok = if ok = true then (e'.modCal c fun k => { k with lastWrite := some e'.ev.elapsed }).saveEnds c
      else if 3 ≤ (f.cal c).fails then (f.set (F.CH_CAL_IRQ_STATUS_MTP_ERR c) 1).saveEnds c else f := by
  unfold Dev.mtpRecordWrite Dev.writeSlot
  rw [h1]
  dsimp only
  rw [if_neg (by rw [h2, h3]; decide), hf, hgg, he', he, hi, hg]

theorem may_write (d : Dev) (c : Fin 32) :
    d.mayWrite c = ((d.cal c).lastWrite.all fun t => t + 400000000 * max 60 (d.get (F.CH_CAL_MTP_MTP_MIN c)) ≤ d.ev.elapsed) := by
  unfold Dev.mayWrite seconds
  cases (d.cal c).lastWrite with
  | none => rfl
  | some t => dsimp only [Option.all_some]; rw [Nat.mul_comm (max 60 _)]

theorem request_record (d : Dev) (c : Fin 32) (may : Bool) (hm : d.mayWrite c = may) : d.requestRecord c =
    if ((d.cal c).saving.isNone && d.flag F.MGMT_STATUS_READY && may) = true then Claims.writeBegins d c else d.set (F.CH_CAL_MTP_DEFERRED c) 1 := by
  unfold Dev.requestRecord Dev.writerFree
  rw [hm]; rfl

theorem defer_eq (d : Dev) (c : Fin 32) (may : Bool) (hm : d.mayWrite c = may) : d.mtpDeferExpiry c =
    if (d.flag (F.CH_CAL_MTP_DEFERRED c) && ((d.cal c).saving.isNone && d.flag F.MGMT_STATUS_READY) && (d.flag (F.CH_CAL_CTRL_SAVE c) || may)) = true then
      Claims.writeBegins (d.set (F.CH_CAL_MTP_DEFERRED c) 0) c else d := by
  unfold Dev.mtpDeferExpiry Dev.writerFree
  rw [hm]; rfl

theorem mtpWrite_cals (d : Dev) (a : Nat) (bs : List Byte) : (d.mtpWrite a bs).cals = d.cals := by unfold Dev.mtpWrite; rfl

theorem range_eq (d e : Dev) (c : Fin 32) (v : Nat) (acc : Nat) (h : d.pendingOf (F.CH_DAC_CTRL_RANGE c) = some (v, acc)) (he : e = (d.wakeChiplet (chiplet c)).dropPending (F.CH_DAC_CTRL_RANGE c)) :
    d.rangeChange c = if (decide ((d.ch c).st ≠ .idle) || decide (d.ev.elapsed < acc + 2) || d.flag (F.CH_DAC_STATUS_RANGING c)) = true then d
      else if v = e.get (F.CH_DAC_CTRL_RANGE c) then e
      else ((((e.preempt c).set (F.CH_DAC_CTRL_RANGE c) v).set (F.CH_DAC_STATUS_RANGING c) 1).modCal c fun k => { k with rangeEnd := ((e.preempt c).set (F.CH_DAC_CTRL_RANGE c) v).ev.elapsed + 8000 }) := by
  unfold Dev.rangeChange
  rw [h, he]

theorem rate_eq (d e : Dev) (n : Fin 4) (v acc : Nat) (h : d.pendingOf (rateFld n) = some (v, acc)) (he : e = d.dropPending (rateFld n)) :
    d.rateChange n = if (!(channelsOf n).all (fun c => (d.ch c).st = .idle) || decide (d.ev.elapsed < acc + 2) || d.flag (rateBusy n)) = true then d else e.beginRate n v := by
  unfold Dev.rateChange
  rw [h, he]

theorem rate_begins (e f : Dev) (n : Fin 4) (v : Nat) (hv : e.get (rateFld n) ≠ v) (hf : f = ((e.wakeChiplet n).set (rateFld n) v).set (rateBusy n) 1) :
    e.beginRate n v = ((channelsOf n).foldl (fun d c => (Claims.checkRestarts d c).spurSync c) { f with rateEnd := f.rateEnd.set n (f.ev.elapsed + 4000) }).profileSync := by
  unfold Dev.beginRate
  rw [if_neg hv, hf]
  rfl

theorem all_idle (d : Dev) (n : Nat) : (channelsOf n).all (fun c => (d.ch c).st = .idle) = true ↔ ∀ c, chiplet c = n → (d.ch c).st = .idle := by
  rw [List.all_eq_true]
  constructor
  · intro h c hc
    have := h c (List.mem_filter.2 ⟨List.mem_finRange c, by rw [decide_eq_true_eq]; exact hc⟩)
    rwa [decide_eq_true_eq] at this
  · intro h c hc
    rw [decide_eq_true_eq]
    exact h c (by have := (List.mem_filter.1 hc).2; rwa [decide_eq_true_eq] at this)

theorem rateEnd_eq (d e : Dev) (n : Fin 4) (he : e = (d.set (rateBusy n) 0).set F.TELEM_IRQ_STATUS_RATE 1) : d.rateChangeEnd n =
    if (d.flag (rateBusy n) && decide (d.rateEnd[n] ≤ d.ev.elapsed)) = true then ((channelsOf n).foldl (fun (d : Dev) (c : Fin 32) => (d.modCal c fun k => { k with
        stepAt := d.ev.elapsed, failedOnce := none, swapDue := none, dueKept := true, subs := k.subs.map fun x => { x with checked := 0 } }).dueSync c) e) else d := by
  subst he; rfl

theorem runs_off (d : Dev) (m n : Nat) (h : n = m ∨ d.runs n = false) : (d.setRuns m false).runs n = false := by
  have e : (d.setRuns m false).runs n = ((d.wr (R.CLK_RUN ((m - 1) / 32)) ((⟨R.CLK_RUN ((m - 1) / 32), (m - 1) % 32, 1⟩ : Fld).write (d.rd (R.CLK_RUN ((m - 1) / 32))) 0)).rd (R.CLK_RUN ((n - 1) / 32))).getLsbD ((n - 1) % 32) := rfl
  rw [e, Dev.rd_wr]
  have hm : (m - 1) % 32 < 32 := Nat.mod_lt _ (by decide)
  split
  · next k =>
    rw [write_bit (by show (m - 1) % 32 + 1 ≤ 32; omega) _ _ _ (Nat.mod_lt _ (by decide))]
    split
    · simp
    · next q =>
      rcases h with h | h
      · subst h; exact absurd (by dsimp only; omega) q
      · rw [← k]; exact h
  · next k =>
    rcases h with h | h
    · subst h; exact absurd rfl k
    · exact h

theorem runs_offs (l : List Nat) : ∀ (d : Dev) (n : Nat), n ∈ l ∨ d.runs n = false → (l.foldl (fun (d : Dev) m => d.setRuns m false) d).runs n = false := by
  induction l with
  | nil => intro d n h; rcases h with h | h; cases h; exact h
  | cons m l ih =>
    intro d n h
    refine ih _ n ?_
    rcases h with h | h
    · rcases List.mem_cons.1 h with h | h
      · exact Or.inr (runs_off d m n (Or.inl h))
      · exact Or.inl h
    · exact Or.inr (runs_off d m n (Or.inr h))

theorem not_tripped {d : Dev} (h : d.get F.TELEM_THERM_LEVEL ≠ 3) : d.tripped = false := by
  unfold Dev.tripped; exact decide_eq_false h

theorem is_tripped {d : Dev} (h : d.get F.TELEM_THERM_LEVEL = 3) : d.tripped = true := by
  unfold Dev.tripped; exact decide_eq_true h

theorem trip_eq (d e : Dev) (i : Fin 24) (h : d.stage ≠ 0) (he : e = { d with board := { d.board with tripSites := d.board.tripSites ||| BitVec.twoPow 24 i } }) :
    (d.tripped = true → d.trip i = e) ∧
    (d.tripped = false → ∃ f : Dev, f = ((e.cutWrites.undoGos.set F.TELEM_THERM_LEVEL 3).set F.TELEM_THERM_SENSOR i).set F.TELEM_IRQ_STATUS_TRIP 1 ∧
      d.trip i = ((List.range 25).map (6 + ·) ++ [33, 34, 35, 36, 37, 41, 42, 43, 44]).foldl (fun (d : Dev) n => d.setRuns n false)
        ((List.range 4).foldl (fun (d : Dev) s => if d.get (F.HBM_STATUS_POWER s) = 0 then d else d.sleepStack s) f.parkStopped.toSafe.loseReads)) := by
  have ht : e.tripped = d.tripped := by rw [he]; rfl
  have hs : e.stage = d.stage := by rw [he]; rfl
  unfold Dev.trip
  rw [if_neg h, ← he]
  dsimp only
  rw [ht, hs]
  constructor
  · intro k; rw [k, Bool.or_true, if_pos rfl]
  · intro k; rw [k, if_neg (by rw [decide_eq_false h]; decide)]; exact ⟨_, rfl, rfl⟩

theorem ok_no (valid : Bool) (v : BitVec 16) (h : valid = false ∨ v.toInt < -880 ∨ 2400 < v.toInt) : (valid && decide (-880 ≤ v.toInt) && decide (v.toInt ≤ 2400)) = false := by
  rcases h with h | h | h
  · rw [h]; rfl
  · rw [decide_eq_false (p := -880 ≤ v.toInt) (by omega)]; simp
  · rw [decide_eq_false (p := v.toInt ≤ 2400) (by omega)]; simp

theorem ok_yes (valid : Bool) (v : BitVec 16) (h : valid = true) (h1 : -880 ≤ v.toInt) (h2 : v.toInt ≤ 2400) : (valid && decide (-880 ≤ v.toInt) && decide (v.toInt ≤ 2400)) = true := by
  rw [h, decide_eq_true h1, decide_eq_true h2]; rfl

theorem temp_bad (d a : Dev) (i : Nat) (valid : Bool) (v : BitVec 16) (h : (valid && decide (-880 ≤ v.toInt) && decide (v.toInt ≤ 2400)) = false)
    (ha : a = (if valid then d.set (F.TELEM_TEMP_VALUE i) v.toNat else d)) :
    d.tempConversion i valid v = ((a.set (F.TELEM_TEMP_VALID i) 0).set F.TELEM_IRQ_STATUS_SENSOR 1).levelSync i := by
  subst ha; unfold Dev.tempConversion; dsimp only; rw [h]; rfl

theorem temp_good (d w b : Dev) (i : Nat) (v : BitVec 16) (h1 : -880 ≤ v.toInt) (h2 : v.toInt ≤ 2400) (hw : w = if v.toInt < 2000 then Claims.siteCool d i else d)
    (hb : b = (w.set (F.TELEM_TEMP_VALUE i) v.toNat).set (F.TELEM_TEMP_VALID i) 1) :
    d.tempConversion i true v = (if (BitVec.ofNat 16 (b.get F.TELEM_PEAK_VALUE)).toInt < v.toInt then
      (b.set F.TELEM_PEAK_VALUE v.toNat).set F.TELEM_PEAK_SENSOR i else b).levelSync i := by
  unfold Dev.tempConversion
  dsimp only
  rw [decide_eq_true h1, decide_eq_true h2]
  simp only [Bool.true_and, decide_eq_true_eq]
  rw [show (if v.toInt < 2000 then d.tripOver i else d) = w from hw.symm]
  subst hb
  rfl

theorem level_holds (d : Dev) (l th : Nat) : d.levelHolds l th = true ↔ Claims.LevelHolds d l th := by
  unfold Dev.levelHolds Claims.LevelHolds Dev.sensors
  dsimp only
  rw [List.any_eq_true]
  simp only [List.mem_filter, List.mem_range, Bool.or_eq_true, Bool.and_eq_true, decide_eq_true_eq]
  constructor
  · rintro ⟨i, ⟨hi, hv⟩, h⟩
    exact ⟨i, _, hi, by
      have k := Dev.get_lt d (F.TELEM_TEMP_VALID i)
      unfold Dev.flag at hv
      simp only [bne_iff_ne] at hv
      simp only [F.TELEM_TEMP_VALID] at k hv ⊢
      omega, rfl, h⟩
  · rintro ⟨i, v, hi, hv, rfl, h⟩
    exact ⟨i, ⟨hi, by unfold Dev.flag; rw [hv]; rfl⟩, h⟩

theorem level_by (d : Dev) (n : Nat) (h : Claims.LevelIs d n) : d.levelBy = n := by
  obtain ⟨crit, warn, hc, hw, h⟩ := h
  have c : d.critAt = crit := hc.symm
  have w : d.warnAt = warn := by rw [hw]; unfold Dev.warnAt; rw [c]
  unfold Dev.levelBy
  rcases h with ⟨k, rfl⟩ | ⟨k, h⟩
  · rw [if_pos (is_tripped k)]
  · rw [if_neg (by rw [not_tripped k]; decide), c, w]
    rcases h with ⟨h, rfl⟩ | ⟨h, ⟨h2, rfl⟩ | ⟨h2, rfl⟩⟩
    · rw [if_pos ((level_holds ..).2 h)]
    · rw [if_neg (fun k => h ((level_holds ..).1 k)), if_pos ((level_holds ..).2 h2)]
    · rw [if_neg (fun k => h ((level_holds ..).1 k)), if_neg (fun k => h2 ((level_holds ..).1 k))]

theorem level_sync (d a b f e : Dev) (i old new : Nat) (ho : old = d.get F.TELEM_THERM_LEVEL) (hn : Claims.LevelIs d new)
    (ha : a = d.set F.TELEM_THERM_LEVEL new) (hb : b = (if old < new then a.set F.TELEM_THERM_SENSOR i else a))
    (hf : f = (if old = 0 ∧ 0 < new then b.set F.TELEM_IRQ_STATUS_WARN 1 else b)) (he : e = (if new < old then f.set F.TELEM_IRQ_STATUS_COOL 1 else f)) :
    d.levelSync i = if old < 2 ∧ new = 2 then (e.set F.TELEM_IRQ_STATUS_CRIT 1).critStop else e := by
  have hw : (decide (old < 1) && decide (1 ≤ new)) = decide (old = 0 ∧ 0 < new) := by
    rw [← Bool.decide_and, decide_eq_decide]; omega
  unfold Dev.levelSync
  dsimp only
  rw [level_by d new hn, ← ho, hw, ← ha, show a.setIf (decide (old < new)) _ i = b by rw [hb, setIf_dec],
    show b.setIf (decide (old = 0 ∧ 0 < new)) _ 1 = f by rw [hf, setIf_dec], show f.setIf (decide (new < old)) _ 1 = e by rw [he, setIf_dec], ← Bool.decide_and]
  simp only [decide_eq_true_eq]

theorem crit_stop (u : Dev) : u.critStop = ((List.finRange 32).foldl (fun (d : Dev) c => if (d.ch c).active? then d.stop c else d)
    ((List.finRange 32).foldl (fun (d : Dev) c => if (d.ch c).active? ∧ (d.ch c).goTick = d.ev.dt then d.endEarly c 6 0 else d) u)).parkAllCheck := by
  unfold Dev.critStop Dev.undoGos Dev.undoGo
  simp only [Bool.and_eq_true, decide_eq_true_eq]

theorem volt_eq (d : Dev) (i : Nat) (valid : Bool) (v : BitVec 16) (e : Dev) (he : e = d.set (F.TELEM_VOLT_VALID i) (bit valid)) : d.voltConversion i valid v =
    if (!valid) = true then e.set F.TELEM_IRQ_STATUS_SENSOR 1
    else (((e.set (F.TELEM_VOLT_MV i) v.toNat).set (F.TELEM_VOLT_LOW i) (bit (decide (v.toNat < e.get (F.TELEM_VLIM_LO i))))).set (F.TELEM_VOLT_HIGH i) (bit (decide (e.get (F.TELEM_VLIM_HI i) < v.toNat)))).setIf
      (decide (v.toNat < e.get (F.TELEM_VLIM_LO i)) || decide (e.get (F.TELEM_VLIM_HI i) < v.toNat)) F.TELEM_IRQ_STATUS_VOLT 1 := by
  subst he; rfl

theorem conv_low (d e : Dev) (i : Fin 40) (valid : Bool) (v : BitVec 16) (h : d.stage ≠ 0) (hi : i.val < 24)
    (he : e = ((List.finRange 32).filter fun c => c.val / 2 = i.val).foldl (fun (d : Dev) c => d.slewCheck c) (d.tempConversion i valid v)) : d.conversion i valid v =
    if 20 ≤ i.val then e.stackReading (i.val - 20) else e := by
  subst he
  unfold Dev.conversion
  rw [if_neg h, if_pos hi]
  rfl

theorem slew_eq (d : Dev) (c : Fin 32) : ((d.cal c).run = none ∨ d.tempSlewed c = false → d.slewCheck c = d) ∧
    ((d.cal c).run.isSome = true → d.tempSlewed c = true → d.slewCheck c = d.calAbortNow c 6) := by
  unfold Dev.slewCheck
  constructor
  · rintro (h | h)
    · rw [if_neg (by rw [h]; simp)]
    · rw [if_neg (by rw [h]; simp)]
  · intro h1 h2; rw [if_pos (by rw [h1, h2]; rfl)]

theorem conv_high (d : Dev) (i : Fin 40) (valid : Bool) (v : BitVec 16) (h : d.stage ≠ 0) (hi : 24 ≤ i.val) : d.conversion i valid v = d.voltConversion (i.val - 24) valid v := by
  unfold Dev.conversion
  rw [if_neg h, if_neg (by omega)]

theorem of_conv {i : Fin 40} {valid : Bool} {v : BitVec 16} {s : State} {e : Dev} (h : s.dev.conversion i valid v = e) : Becomes (.telemConversion i valid v) s e :=
  becomes_of (d := s.dev.conversion i valid v) rfl h

theorem due_sync (d e : Dev) (c : Fin 32) (due : Bool) (hd : d.calDue c = due) (he : e = d.set (F.CH_CAL_STATUS_DUE c) (bit due)) :
    d.dueSync c = if due = true ∧ d.get (F.CH_CAL_CTRL_CAL_FORCE c) ≠ 0 then e else e.set (F.CH_CAL_STATUS_FORCE_DUE c) 0 := by
  unfold Dev.dueSync Dev.setIf
  rw [hd, ← he]
  cases due <;> simp

theorem due_iff (d : Dev) (c : Fin 32) : d.calDue c = true ↔ (d.cal c).dueKept = true ∨ (d.outVal c).valid = false ∨ (d.cal c).moved = true := by
  unfold Dev.calDue
  simp only [Bool.or_eq_true, Bool.not_eq_true', or_assoc]

theorem active_iff (x : Chan) : x.active? = true ↔ x.st ∈ [.armed, .run, .halted, .drain] := by
  unfold Chan.active?; cases x.st <;> decide

theorem run_free (d : Dev) (c : Fin 32) : d.runFree c = true ↔ Claims.RunFree d c := by
  unfold Dev.runFree Claims.RunFree
  simp only [Bool.and_eq_true, decide_eq_true_eq, Option.isNone_iff_eq_none, Bool.not_eq_true', and_assoc]

theorem may_idle (d : Dev) (c : Fin 32) : d.runMayStart c .idle = true ↔ Claims.RunFree d c ∧ (d.ch c).st = .idle ∧ d.flag (F.CH_CAL_CTRL_IDLE_EN c) = true ∧
    d.flag (F.CH_CAL_STATUS_DUE c) = true ∧ d.flag (F.CH_DAC_STATUS_RANGING c) = false ∧ (d.cal c).retryAt ≤ d.ev.elapsed ∧ d.runs (19 + chiplet c) = true := by
  unfold Dev.runMayStart Dev.idleRunDue
  simp only [Bool.and_eq_true, decide_eq_true_eq, Bool.not_eq_true', run_free]
  tauto

theorem may_window (d : Dev) (c : Fin 32) : d.runMayStart c .window = true ↔ Claims.RunFree d c ∧ ∃ n, (d.ch c).calWin = some (d.ev.dt, n) := by
  unfold Dev.runMayStart
  dsimp only
  rw [Bool.and_eq_true, run_free]
  refine and_congr_right fun _ => ?_
  rcases (d.ch c).calWin with _ | ⟨t, n⟩ <;> simp

theorem may_forced (d : Dev) (c : Fin 32) (x : Chan) (k : Cal) (hx : x = d.ch c) (hk : k = d.cal c) : d.runMayStart c .forced = true ↔ Claims.RunFree d c ∧ x.st ∈ [.armed, .run, .halted, .drain] ∧
      d.flag (F.CH_CAL_STATUS_FORCE_DUE c) = true ∧ k.barred = none ∧
      (x.nextS ≠ none ∨ x.blks ≠ [] → (∃ b ∈ x.blks, b.first = d.ev.dt) ∧ k.forceAt + 32 ≤ d.ev.elapsed) ∧
      (x.nextS = none → x.blks = [] → k.forceAt + 1 ≤ d.ev.elapsed) := by
  have hp : d.playing c = true ↔ x.nextS ≠ none ∨ x.blks ≠ [] := by
    unfold Dev.playing; rw [← hx, Bool.or_eq_true, Option.isSome_iff_ne_none, Bool.not_eq_true', List.isEmpty_eq_false_iff]
  have hb : d.atBoundary c = true ↔ ∃ b ∈ x.blks, b.first = d.ev.dt := by
    unfold Dev.atBoundary; rw [← hx, List.any_eq_true]; simp only [decide_eq_true_eq]
  unfold Dev.runMayStart
  dsimp only
  rw [← hx, ← hk]
  simp only [Bool.and_eq_true, run_free, active_iff, Option.isNone_iff_eq_none, and_assoc]
  refine and_congr_right fun _ => and_congr_right fun _ => and_congr_right fun _ => and_congr_right fun _ => ?_
  by_cases h : x.nextS ≠ none ∨ x.blks ≠ []
  · rw [if_pos (hp.2 h), Bool.and_eq_true, hb, decide_eq_true_eq]
    exact ⟨fun k => ⟨fun _ => k, fun a b => absurd h (by simp [a, b])⟩, fun k => k.1 h⟩
  · rw [if_neg (fun k => h (hp.1 k)), decide_eq_true_eq]
    exact ⟨fun k => ⟨fun a => absurd a h, fun _ _ => k⟩, fun k => k.2 (by tauto) (by tauto)⟩

theorem new_park (d : Dev) (c : Fin 32) (x : Chan) (k : Cal) (hx : x = d.ch c) (hk : k = d.cal c) : d.newPark c = true ↔
    Claims.InHold x d.ev.dt ∨ (∃ p, x.parkAt = some p ∧ Claims.SinceRun d c p) ∨ (∃ h ∈ x.holds, Claims.SinceRun d c h.2) ∨
      (∃ b, x.blockAt d.ev.dt = some b ∧ b.kind = .park ∧ Claims.SinceRun d c b.start) ∨
      (k.ranKind ≠ .idle ∧ (x.st = .idle ∨ x.st = .faulted ∨ before (d.ev.dt - tk (d.ev.elapsed - k.ranAt)) x.goTick = true)) := by
  unfold Dev.newPark Claims.InHold Claims.SinceRun Chan.holdAt Chan.quiet
  dsimp only
  rw [← hx, ← hk]
  rcases x.blockAt d.ev.dt with _ | b <;> rcases x.parkAt with _ | p <;>
    simp only [Bool.or_eq_true, List.any_eq_true, Bool.and_eq_true, decide_eq_true_eq, Option.any_none, Option.any_some, or_assoc, Bool.false_eq_true, false_or, false_and,
      exists_false, Option.some.injEq, exists_eq_left', reduceCtorEq, true_and]

theorem pin_state (d : Dev) (c : Fin 32) (off hold : Prop)
    (ho : off ↔ d.stage = 0 ∨ d.ranging c = true ∨ d.runs (19 + chiplet c) = false ∨ d.flag F.CLK_SPLL_STATUS_BYPASS = true ∨ d.clk.safe = true)
    (hh : hold ↔ ((d.cal c).fromPark = true ∧ d.newPark c = false) ∨ (d.carriesPark c = false ∧ ¬Claims.InHold (d.ch c) d.ev.dt)) (ha : d.board.analog = true) :
    (off → d.pinState c = .park) ∧
    (¬off → d.flag (F.CH_CAL_STATUS_STALE c) = true → (hold → d.pinState c = .calHold) ∧ (¬hold → d.pinState c = .park)) ∧
    (¬off → d.flag (F.CH_CAL_STATUS_STALE c) = false → (d.carriesPark c = true → d.pinState c = .park) ∧ (d.carriesPark c = false → d.pinState c = .active)) := by
  have h1 : d.heldOff c = true ↔ off := by
    rw [ho]; unfold Dev.heldOff Dev.bypassed
    simp only [Bool.or_eq_true, decide_eq_true_eq, Bool.not_eq_true', or_assoc]
  have h2 : (((d.cal c).fromPark && !d.newPark c) || !d.parksNow c) = true ↔ hold := by
    rw [hh]; unfold Dev.parksNow Claims.InHold Chan.holdAt
    simp only [Bool.or_eq_true, Bool.and_eq_true, Bool.not_eq_true', ← Bool.not_eq_true, List.any_eq_true, not_or]
  unfold Dev.pinState
  rw [ha]
  refine ⟨fun h => ?_, fun h hs => ⟨fun k => ?_, fun k => ?_⟩, fun h hs => ⟨fun k => ?_, fun k => ?_⟩⟩
  · rw [if_neg (by decide), if_pos (h1.2 h)]
  · rw [if_neg (by decide), if_neg (fun k => h (h1.1 k)), if_pos hs, if_pos (h2.2 k)]
  · rw [if_neg (by decide), if_neg (fun k => h (h1.1 k)), if_pos hs, if_neg (fun j => k (h2.1 j))]
  · rw [if_neg (by decide), if_neg (fun k => h (h1.1 k)), if_neg (by rw [hs]; decide), if_pos k]
  · rw [if_neg (by decide), if_neg (fun k => h (h1.1 k)), if_neg (by rw [hs]; decide), if_neg (by rw [k]; decide)]

theorem emit_rings (d e : Dev) (m n : Nat) (b : List Byte) (hr : e.rings = d.rings) (he : e.ev = d.ev)
    (hf : ∀ a, a = R.CARAVAN_STAT_RING m ∨ a = R.CARAVAN_STAT_MASK m → e.rd a = d.rd a) : (e.emitStatus m n b).rings = (d.emitStatus m n b).rings := by
  have g : ∀ f : Fld, f.addr = R.CARAVAN_STAT_RING m ∨ f.addr = R.CARAVAN_STAT_MASK m → e.get f = d.get f := fun f h => by unfold Dev.get; rw [hf _ h]
  unfold Dev.emitStatus Dev.flag
  rw [g _ (Or.inl rfl), g (F.CARAVAN_STAT_MASK_MASK m) (Or.inr rfl), g (F.CARAVAN_STAT_RING_Q m) (Or.inl rfl), he, hr]
  split
  · exact hr
  · split
    · exact hr
    · rfl

/-- What an abort leaves beside the hold of the pins. -/
def abortBase (d : Dev) (c : Fin 32) (r code : Nat) (kind : CalKind) : Dev :=
  (((((d.calEnds c code r (kindOf kind)).set (F.CH_CAL_ABORT_REASON c) r).set (F.CH_CAL_ABORT_KIND c) (kindOf kind)).countSat (F.CH_CAL_ABORT_COUNT c)).set
    (F.CH_CAL_ABORT_VALID c) 1).set (F.CH_CAL_IRQ_STATUS_ABORT c) 1

theorem abort_shape (d : Dev) (c : Fin 32) (r code : Nat) (kind : CalKind) (at_ : Nat) (h : (d.cal c).run = some (kind, at_)) (hc : code = if r = 7 then 3 else 4) (b z : Dev)
    (hb : b = abortBase d c r code kind) (hz : z = (b.modCal c fun k => { k with
      run := none, dueKept := k.dueKept || b.flag (F.CH_CAL_STATUS_DUE c), barred := if r ≤ 3 then some (b.tempWord c) else k.barred
      retryAt := if r ≤ 3 then k.retryAt else b.ev.elapsed + 40000000, staleEnd := some (b.ev.elapsed + 64) }).restartCheck c) :
    d.calAbortNow c r = if ((b.ch c).st = .idle ∨ r = 7) then z.holdEnds c else z := by
  unfold Dev.calAbortNow
  rw [h]
  dsimp only
  rw [← hc, show (((((d.calEnds c code r (kindOf kind)).set (F.CH_CAL_ABORT_REASON c) r).set (F.CH_CAL_ABORT_KIND c) (kindOf kind)).countSat (F.CH_CAL_ABORT_COUNT c)).set
    (F.CH_CAL_ABORT_VALID c) 1).set (F.CH_CAL_IRQ_STATUS_ABORT c) 1 = b from hb.symm, ← hz]
  have q : z.ch c = b.ch c := by rw [hz]; rfl
  rw [q]
  simp only [Bool.or_eq_true, decide_eq_true_eq]

theorem abort_base (d : Dev) (c : Fin 32) (r code : Nat) (kind : CalKind) (hr : r ≤ 7) (hcode : code < 8) : ∃ b, b = abortBase d c r code kind ∧
    b.get (F.CH_CAL_STATUS_CODE c) = code ∧ b.get (F.CH_CAL_STATUS_RUNNING c) = 0 ∧ b.get (F.CH_CAL_ABORT_REASON c) = r ∧
    b.get (F.CH_CAL_ABORT_KIND c) = kindOf kind ∧ b.get (F.CH_CAL_ABORT_VALID c) = 1 ∧ b.get (F.CH_CAL_IRQ_STATUS_ABORT c) = 1 ∧
    b.get (F.CH_CAL_STATUS_STALE c) = d.get (F.CH_CAL_STATUS_STALE c) ∧ b.get (F.CH_CAL_STATUS_DUE c) = d.get (F.CH_CAL_STATUS_DUE c) ∧
    b.rings = (d.emitStatus 1 c.val [1, BitVec.ofNat 8 c.val, BitVec.ofNat 8 code, BitVec.ofNat 8 (r + 16 * kindOf kind)]).rings ∧
    b.tempWord c = d.tempWord c ∧ b.cals = d.cals ∧ b.chans = d.chans ∧ b.mem = d.mem ∧ b.ev = d.ev := by
  refine ⟨_, rfl, ?_⟩
  obtain ⟨w, hw⟩ : ∃ w, w = (d.set (F.CH_CAL_STATUS_CODE c) code).set (F.CH_CAL_STATUS_RUNNING c) 0 := ⟨_, rfl⟩
  obtain ⟨q, hq⟩ := emitStatus_regs w 1 c.val [1, BitVec.ofNat 8 c.val, BitVec.ofNat 8 code, BitVec.ofNat 8 (r + 16 * kindOf kind)]
  have hq2 : q = (d.emitStatus 1 c.val [1, BitVec.ofNat 8 c.val, BitVec.ofNat 8 code, BitVec.ofNat 8 (r + 16 * kindOf kind)]).rings := by
    rw [← emit_rings d w 1 c.val _ (by rw [hw, Dev.set_rings, Dev.set_rings]) (by rw [hw, Dev.set_ev, Dev.set_ev]) (fun a ha => by
      have : a ≠ R.CH_CAL_STATUS c := by
        rcases ha with rfl | rfl <;> simp only [R.CARAVAN_STAT_RING, R.CARAVAN_STAT_MASK, R.CH_CAL_STATUS] <;> omega
      rw [hw, Dev.rd_set_ne _ _ this, Dev.rd_set_ne _ _ this]), hq]
  have hx : d.calEnds c code r (kindOf kind) = { w with rings := q } := by unfold Dev.calEnds; dsimp only; rw [← hw]; exact hq
  unfold abortBase Dev.countSat
  rw [hx]
  obtain ⟨x, hx2⟩ : ∃ x : Dev, x = { w with rings := q } := ⟨_, rfl⟩
  have xr : x.regs = w.regs := by rw [hx2]
  have xg : ∀ f, x.get f = w.get f := fun f => get_regs xr f
  have kk : kindOf kind < 4 := by cases kind <;> decide
  rw [← hx2]
  have e1 : x.rings = q := by rw [hx2]
  have e2 : x.cals = d.cals := by
    have k : x.cals = w.cals := by rw [hx2]
    rw [k, hw, Dev.set_cals, Dev.set_cals]
  have e3 : x.chans = d.chans := by
    have k : x.chans = w.chans := by rw [hx2]
    rw [k, hw, Dev.set_chans, Dev.set_chans]
  have e4 : x.mem = d.mem := by
    have k : x.mem = w.mem := by rw [hx2]
    rw [k, hw, Dev.set_mem, Dev.set_mem]
  have e5 : x.ev = d.ev := by
    have k : x.ev = w.ev := by rw [hx2]
    rw [k, hw, Dev.set_ev, Dev.set_ev]
  have st : ∀ (f : Fld), f.addr = R.CH_CAL_STATUS c → ∀ v, (((((x.set (F.CH_CAL_ABORT_REASON c) r).set (F.CH_CAL_ABORT_KIND c) (kindOf kind)).set (F.CH_CAL_ABORT_COUNT c) v).set
      (F.CH_CAL_ABORT_VALID c) 1).set (F.CH_CAL_IRQ_STATUS_ABORT c) 1).get f = w.get f := by
    intro f hf v
    have n1 : R.CH_CAL_STATUS c ≠ R.CH_CAL_ABORT c := by simp only [R.CH_CAL_STATUS, R.CH_CAL_ABORT]; omega
    have n2 : R.CH_CAL_STATUS c ≠ R.CH_CAL_IRQ_STATUS c := by simp only [R.CH_CAL_STATUS, R.CH_CAL_IRQ_STATUS]; omega
    rw [Dev.get_set_reg _ _ (by rw [hf]; exact n2), Dev.get_set_reg _ _ (by rw [hf]; exact n1), Dev.get_set_reg _ _ (by rw [hf]; exact n1),
      Dev.get_set_reg _ _ (by rw [hf]; exact n1), Dev.get_set_reg _ _ (by rw [hf]; exact n1), xg]
  have n2 : R.CH_CAL_ABORT c ≠ R.CH_CAL_IRQ_STATUS c := by simp only [R.CH_CAL_ABORT, R.CH_CAL_IRQ_STATUS]; omega
  refine ⟨?_, ?_, ?_, ?_, ?_, ?_, ?_, ?_, ?_, ?_, ?_, ?_, ?_, ?_⟩
  · rw [st _ rfl, hw, get_set_bits' _ _ (by omega) (by omega), Dev.get_set_same _ (by simp)]; exact Nat.mod_eq_of_lt (by show code < 2 ^ 4; omega)
  · rw [st _ rfl, hw, Dev.get_set_same _ (by simp)]; rfl
  · rw [Dev.get_set_reg _ _ n2, get_set_bits' _ _ (by omega) (by omega), get_set_bits' _ _ (by omega) (by omega), get_set_bits' _ _ (by omega) (by omega), Dev.get_set_same _ (by simp)]
    exact Nat.mod_eq_of_lt (by show r < 2 ^ 4; omega)
  · rw [Dev.get_set_reg _ _ n2, get_set_bits' _ _ (by omega) (by omega), get_set_bits' _ _ (by omega) (by omega), Dev.get_set_same _ (by simp)]
    exact Nat.mod_eq_of_lt kk
  · rw [Dev.get_set_reg _ _ n2, Dev.get_set_same _ (by simp)]; rfl
  · rw [Dev.get_set_same _ (by simp)]; rfl
  · rw [st _ rfl, hw, get_set_bits' _ _ (by omega) (by omega), get_set_bits' _ _ (by omega) (by omega)]
  · rw [st _ rfl, hw, get_set_bits' _ _ (by omega) (by omega), get_set_bits' _ _ (by omega) (by omega)]
  · rw [Dev.set_rings, Dev.set_rings, Dev.set_rings, Dev.set_rings, Dev.set_rings]; rw [e1, hq2]
  · unfold Dev.tempWord
    have : ∀ f : Fld, f.addr ≠ R.CH_CAL_STATUS c → f.addr ≠ R.CH_CAL_ABORT c → f.addr ≠ R.CH_CAL_IRQ_STATUS c → ∀ v, (((((x.set (F.CH_CAL_ABORT_REASON c) r).set (F.CH_CAL_ABORT_KIND c) (kindOf kind)).set (F.CH_CAL_ABORT_COUNT c) v).set
      (F.CH_CAL_ABORT_VALID c) 1).set (F.CH_CAL_IRQ_STATUS_ABORT c) 1).get f = d.get f := by
      intro f h1 h2 h3 v
      rw [Dev.get_set_reg _ _ h3, Dev.get_set_reg _ _ h2, Dev.get_set_reg _ _ h2, Dev.get_set_reg _ _ h2, Dev.get_set_reg _ _ h2, xg, hw,
        Dev.get_set_reg _ _ h1, Dev.get_set_reg _ _ h1]
    have hs := c.isLt
    rw [this _ (by simp only [R.TELEM_TEMP, R.CH_CAL_STATUS, sensorOf]; omega) (by simp only [R.TELEM_TEMP, R.CH_CAL_ABORT, sensorOf]; omega) (by simp only [R.TELEM_TEMP, R.CH_CAL_IRQ_STATUS, sensorOf]; omega)]
  · rw [Dev.set_cals, Dev.set_cals, Dev.set_cals, Dev.set_cals, Dev.set_cals]; exact e2
  · rw [Dev.set_chans, Dev.set_chans, Dev.set_chans, Dev.set_chans, Dev.set_chans]; exact e3
  · rw [Dev.set_mem, Dev.set_mem, Dev.set_mem, Dev.set_mem, Dev.set_mem]; exact e4
  · rw [Dev.set_ev, Dev.set_ev, Dev.set_ev, Dev.set_ev, Dev.set_ev]; exact e5

end Sys2Proof.Laws
end

