-- ==== Sys2Proof/Laws/Steps.lean ====
section
/-! SUPPORT. Every step at once. -/

set_option Elab.async false

namespace Sys2Proof.Laws

open Sys2Proof.Machine Sys2Proof.Claims

theorem follow_flag' (d : Dev) (f : Fld) : d.follow.flag f = d.flag f := by unfold Dev.flag; rw [follow_get]

theorem follow_summary (d : Dev) : d.follow.summary = d.summary := by
  have c : ∀ a b, d.follow.cause a b = d.cause a b := fun a b => by unfold Dev.cause; rw [follow_rd, follow_rd]
  have h1 : d.follow.irqBlk = d.irqBlk := by
    refine congrArg (wordOf 22) (funext fun i => ?_)
    have : d.follow.blkCause i = d.blkCause i := by
      unfold Dev.blkCause
      simp only [c, follow_rd, follow_flag']
    rw [this, follow_rd]
  have h2 : d.follow.irqCh = d.irqCh := by
    refine congrArg (wordOf 32) (funext fun i => ?_)
    have : d.follow.chCause i = d.chCause i := by unfold Dev.chCause; rw [c, c]
    rw [this, follow_rd]
  unfold Dev.summary
  rw [follow_flag', h1, h2]

theorem follow_seen (d : Dev) : d.follow.msix.seen = d.follow.summary := by rw [follow_summary]; rfl

theorem exec_done (i : Instr) (s : State) : (∃ d, exec i s = done s d) ∨ (∃ ir, i = .jtagInstruction ir ∧ exec i s = .refused .privateJtag) := by
  cases i
  case jtagInstruction ir =>
    by_cases h : (privateOpcode ir && s.dev.board.rails && s.dev.flag F.SEC_DBG_CTRL_JTAG) = true
    · exact Or.inr ⟨ir, rfl, if_pos h⟩
    · exact Or.inl ⟨_, if_neg h⟩
  case registerWrite cfg => cases cfg <;> exact Or.inl ⟨_, rfl⟩
  all_goals exact Or.inl ⟨_, rfl⟩

theorem beyond_ends {i : Instr} {s : State} {c : Fin 32} {w : W64} {eff : Effect} {y : Chan} (hi : exec i s = done s (s.dev.issue c w eff)) (h : MayIssue s.dev c w)
    (he0 : eff s.dev c w = .done (s.dev.setCh c y) 32768) (hb : y.breakReq = (s.dev.ch c).breakReq) (hs : y.stepping = (s.dev.ch c).stepping) (hst : y.st = (s.dev.ch c).st) (hpc : y.pc = (s.dev.ch c).pc)
    (hb2 : Claims.BeyondAlone s.dev c y) :
    Ends i s fun t =>
      t.rd (R.CH_SEQ_FAULT c) = BitVec.ofNat 32 (1 + 2 * 1 + 16 * 1) ∧
      t.rd (R.CH_SEQ_FAULT_PC c) = BitVec.ofNat 32 ((s.dev.ch c).pc.toNat % 32768) ∧ t.rd (R.CH_SEQ_FAULT_ARG c) = 0 ∧
      (t.ch c).st = .faulted ∧ (t.ch c).rets = y.rets ∧ t.get (F.CH_SEQ_STATUS_CODE c) = 4 ∧ OtherChans s.dev t c ∧
      RegsBut s.dev t (faultRegs c ++ issuedRegs c) ∧ t.mem = s.dev.mem := by
  have hr : (s.dev.ch c).st = .run := by
    have := h.1; simp only [Chan.canIssue, Bool.and_eq_true, decide_eq_true_eq] at this; exact this.1.1
  have he : exec i s = done s (((s.dev.count64 (R.CH_SEQ_CNT c 0 0) 1).setCh c (y.passed 32768)).fetchBeyond c) := by
    rw [hi, Dev.issue_eff _ h, he0]
    show done s ((s.dev.setCh c y).complete c 32768) = _
    unfold Dev.complete
    have e1 : (s.dev.setCh c y).count64 (R.CH_SEQ_CNT c 0 0) 1 = (s.dev.count64 (R.CH_SEQ_CNT c 0 0) 1).setCh c y := rfl
    have p1 := h.2.1
    have p2 := h.2.2.1
    rw [← hb] at p1
    rw [← hs] at p2
    have p3 : y.st = .run := hst.trans hr
    rw [e1]
    simp [p1, p2, p3, Dev.setIf, Chan.passed, setCh_setCh]
  refine ⟨_, he, rfl, ?_⟩
  generalize hd : (s.dev.count64 (R.CH_SEQ_CNT c 0 0) 1).setCh c (y.passed 32768) = e
  have hc : e.ch c = y.passed 32768 := by rw [← hd, Dev.setCh_ch_same]
  have ho : OtherChans s.dev e c := fun k hk => by
    rw [← hd, Dev.setCh_ch_ne _ _ _ hk]; simp only [Dev.count64, if_neg (by decide : ¬(1 : Nat) = 0), Dev.set64_ch]
  have hm : e.mem = s.dev.mem := by rw [← hd]; simp only [Dev.count64, if_neg (by decide : ¬(1 : Nat) = 0), Dev.setCh_mem, Dev.set64_mem]
  have hrg : RegsBut s.dev e (issuedRegs c) := by
    intro a ha
    simp only [issuedRegs, List.mem_cons, List.not_mem_nil, or_false, not_or] at ha
    rw [← hd]
    simp only [Dev.count64, if_neg (by decide : ¬(1 : Nat) = 0), Dev.setCh_rd]
    rw [Dev.set64_rd_ne _ _ ha.1 ha.2]
  have ho2 : e.outputFaults c = false := by rw [← hd]; exact hb2
  obtain ⟨f1, f2, f3, f4, f5, _, f6, f7, f8, f9, f10, f11, f12, f13⟩ := seqFaultAt_spec e c 1 1 0 (e.ch c).leadPc.toNat ho2 _ rfl
  refine ⟨f1, ?_, f4, ?_, ?_, f5, ?_, ?_, ?_⟩
  · refine Eq.trans f2 ?_
    rw [hc]; simp only [Chan.passed, hpc]
    congr 1
    simp [BitVec.toNat_setWidth]
  · refine Eq.trans (congrArg Chan.st f8) rfl
  · refine Eq.trans (congrArg Chan.rets f8) ?_
    show (e.ch c).rets = y.rets
    rw [hc]; rfl
  · intro k hk; exact Eq.trans (f9 k hk) (ho k hk)
  · intro a ha
    simp only [List.mem_append, not_or] at ha
    exact Eq.trans (f10 a ha.1) (hrg a ha.2)
  · exact Eq.trans f11 hm

end Sys2Proof.Laws
end

