-- ==== Sys2Proof/WellFormed.lean ====
section
/-! DEFINITION. Which commands are well formed: their addresses and lengths lie in the space they name. Every other operand
is bounded by its type. -/

namespace Sys2Proof

/-- A size written to BAR4 is one that the function offers (R400). -/
def configOk : Option ConfigWrite → Bool
  | some (.bar4 n) => 28 ≤ n && n ≤ 37
  | some (.power _) | some (.msix _ _) | none => true

/-- The operands of a command lie in the spaces they name (R41, R45, R54). -/
def Instr.wellFormed : Instr → Bool
  | .programStoreWrite _ off data => !data.isEmpty && decide (off + data.length ≤ 0x40000)
  | .registerWrite addr _ _ _ more _ cfg => decide (addr + 4 * more.length < 0x10000000) && configOk cfg
  | .applyPoint pt block => pt ≠ .imm && decide (block < 0x130)
  | .aliasWrite addr _ => decide (0x4000000 ≤ addr) && decide (addr < 0x6400000) && addr % 4 = 0
  | .lockWrite addr _ _ => addr = 0x40020
  | .pairCommit addrHi _ _ => decide (addrHi < 0x4000000) && addrHi % 4 = 0
  | .descriptorWrite _ off data => !data.isEmpty && decide (off + data.length ≤ 0x40000)
  | .oasisWrite _ off data _ => !data.isEmpty && decide (off + data.length ≤ 0x800000)
  | .contextWrite off data => !data.isEmpty && decide (off + data.length ≤ 0x800000)
  | .doorbell off size _ => decide (off + size ≤ 0x200000) && decide (0 < size)
  | .bar4Write addr data => !data.isEmpty && decide (addr + data.length ≤ 0x2000000000)
  | .bar4Read addr len => decide (0 < len) && decide (len ≤ 4096) && decide (addr + len ≤ 0x2000000000)
  | .scrubRead addr _ => addr % 64 = 0 && decide (addr < 0x2000000000)
  | .sramScrub _ addr _ => decide (addr < 0x4000000)
  | .siroccoRegion _ _ addr _ _ => decide (addr < 0x4000000)
  | .lockWindow count => decide (count < 0x100000000)
  | .regRead off => decide (off < 0x10000000)
  | .regWrite off _ _ => decide (off < 0x10000000)
  | .windowRead addr len bar2 cfg => decide (0 < len) && decide (addr + len ≤ if cfg then 0x1000 else if bar2 then 0x200000 else 0x10000000)
  | .frequencyMonitorWindow khz => decide (khz < 0x100000000)
  | .nop .. | .halt .. | .jmp .. | .jcc .. | .call .. | .ret .. | .loop .. | .endl .. => true
  | .mov .. | .add .. | .sub .. | .mul .. | .and .. | .or .. | .xor .. | .shl .. => true
  | .shr .. | .sar .. | .min .. | .max .. | .movi .. | .addi .. | .subi .. | .muli .. => true
  | .andi .. | .ori .. | .xori .. | .shli .. | .shri .. | .sari .. | .mini .. | .maxi .. => true
  | .waitImm .. | .waitReg .. | .waitt .. | .sync .. | .waitev .. | .play .. | .playg .. | .playgRing .. => true
  | .playn .. | .hold .. | .park .. | .jev .. | .bev .. | .sig .. | .sigArray .. | .mark .. => true
  | .setf .. | .setfp .. | .setfSlot .. | .setfpSlot .. | .setp .. | .shiftp .. | .self .. | .seta .. => true
  | .mix .. | .pop .. | .popLedger .. | .peek .. | .rdy .. | .ack .. | .calw .. | .tstamp .. => true
  | .irq .. | .irqAt .. | .runaheadResume .. | .queueFullResume .. | .ringReadyResume .. | .ringTimeout .. | .decisionResolve .. | .waitevMatch .. => true
  | .waitevTimeout .. | .actionDispatch .. | .actionTakeEffect .. | .blockCommit .. | .scheduleDry .. | .faultPark .. | .stopEnd .. | .drainEnd .. => true
  | .eventStart .. | .go .. | .stop .. | .brk .. | .resume .. | .step .. | .faultClear .. | .gWrite .. => true
  | .ncoWrite .. | .ledgerWr .. | .ledgerRd .. | .firCoefWrite .. | .abacusGo .. | .abacusAbort .. | .abacusCopy .. | .abacusDone .. => true
  | .parkAll .. | .profileApply .. | .deviceReset .. | .channelReset .. | .msixRearm .. | .msixMessage .. | .stageRequest .. | .stageFillArrive .. => true
  | .tgtCfgWrite .. | .reload .. | .headLoadEnd .. | .fillGo .. | .fillAbort .. | .fillEnd .. | .trigEdge .. | .markerEdge .. => true
  | .timerEn .. | .timerFire .. | .hostEvGo .. | .hostEvEmit .. | .frameClose .. | .eventPresent .. | .dtLoad .. | .dtResume .. => true
  | .logWrite .. | .bind .. | .unbind .. | .recheck .. | .prodAdvance .. | .recordFetch .. | .d2hRecordWrite .. | .statusRecord .. => true
  | .form .. | .linkAbort .. | .leave .. | .cellReceive .. | .hello .. | .phase .. | .probe .. | .echo .. => true
  | .timeHi .. | .timeLo .. | .beacon .. | .verify .. | .result .. | .breakNotice .. | .arrayEventReceive .. | .arrayEventEnter .. => true
  | .linkHostEv .. | .portDown .. | .linkRecalibration .. | .fence .. | .fenceDone .. | .refresh .. | .freqChange .. | .freqRelockTimeout .. => true
  | .retrain .. | .retrainSlice .. | .remap .. | .selfRefreshEntry .. | .spllApply .. | .syncEdge .. | .syncTimeout .. | .emit .. => true
  | .refinLoss .. | .coastWindow .. | .lockTmo .. | .sourceLoss .. | .restart .. | .sysApply .. | .gateRequest .. | .gateErr .. => true
  | .clusterWake .. | .aonStable .. | .powerGood .. | .nresetLow .. | .supplyFail .. | .stageAdvance .. | .otherSlotVerify .. | .reckonerRestart .. => true
  | .reckonerReady .. | .info .. | .calRead .. | .health .. | .mgmtRestart .. | .report .. | .identity .. | .extend .. => true
  | .flashWrite .. | .challenge .. | .respond .. | .mgmtAbort .. | .smbStatus .. | .alertSrc .. | .smbReset .. | .alertResponse .. => true
  | .pcieLinkLoss .. | .jtagInstruction .. | .rotationStep .. | .calCompare .. | .calRunStart .. | .calRunEnd .. | .calAbort .. | .run .. => true
  | .save .. | .mtpRecordWrite .. | .mtpDeferExpiry .. | .rangeChange .. | .rangeEnd .. | .rateChange .. | .rateChangeEnd .. | .telemConversion .. => true
  | .trip .. | .advanceSvn .. | .scrap .. | .revokeRoot .. | .dbgCtrlWrite .. | .tick .. | .laneLock .. | .refinReturn .. => true
  | .sourceBack .. | .slewEnd .. | .applyLockTimeout .. | .sysBypass .. | .formPhaseLimit .. | .stackWake .. => true

end Sys2Proof
end

