-- ==== Sys2Proof/Tests/Slice0.lean ====
section
/-! SUPPORT. Tests: a witness for the hypotheses of every statement (concrete states and operands that meet the conditions
of each of its clauses, at the ends of their ranges), ill-formed commands, and worked examples of the spec. -/

set_option Elab.async false

open Sys2Proof Sys2Proof.Machine Sys2Proof.Claims

/-! ### States and checks of the tests -/

/-- The state with device `d` and no command waiting. -/
def Sys2Proof.Tests.at_ (d : Dev) : State := ⟨d, []⟩

/-- The device after reset. -/
def Sys2Proof.Tests.d0 : Dev := State.reset.dev

/-- The device after reset with channel 0 changed. -/
def Sys2Proof.Tests.ch0 (f : Chan → Chan) : Dev := State.reset.dev.modCh 0 f

/-- Channel 0 in RUN with its first SC at 64, changed further. -/
def Sys2Proof.Tests.run0 (f : Chan → Chan) : Dev := Tests.ch0 fun x => f { x with st := .run, sc := 64, firstSc := 64 }

/-- No memory test is under way. -/
def Sys2Proof.Tests.noTests (d : Dev) : Bool := d.sirocco.test.toList.all (·.isNone)

/-- `MayIssue` as a check, with no memory test under way. -/
def Sys2Proof.Tests.may (d : Dev) (c : Fin 32) (w : W64) : Bool :=
  (d.ch c).canIssue && !(d.ch c).breakReq && !(d.ch c).stepping && (!d.mem.prog.bad (progAt c (8 * (d.ch c).pc.toNat)) && Tests.noTests d) &&
  (!scheduling w (tickCount (d.ch c) w) || !d.aheadTooFar c) && (!places w (tickCount (d.ch c) w) || decide ((d.ch c).queue.length < 64)) &&
  opDefined (opOf w) && encOk w

/-- `Free` as a check. -/
def Sys2Proof.Tests.free (d : Dev) (c : Fin 32) (w : W64) : Bool := Tests.may d c w && decide ((d.ch c).pc ≠ 32767)

/-- A device at Stage D with its supplies good, the sample PLL and the PCIe PLL locked. -/
def Sys2Proof.Tests.up : Dev :=
  { ((((d0.set F.DEV_STAGE_STAGE 4).set F.CLK_SPLL_STATUS_BYPASS 0).set F.CLK_SPLL_STATUS_STATE 2).set F.CLK_PLL_STATUS_PCIE_LOCK 1) with
    ev := { d0.ev with counting := true, started := true }, board := { d0.board with rails := true, analog := true, good := true } }

/-- The register at an address, and its indices. -/
def Sys2Proof.Tests.card (a : Nat) : Card × List Nat := (cardAt a).getD (⟨"", 0, [], .powerOn, []⟩, [])

/-- A register at address `a` that the host reaches, no pair, with no effect of its own and a field of class `cls` and apply point `ap`. -/
def Sys2Proof.Tests.plain (a : Nat) (cls : Cls) (ap : Apply) : Bool :=
  Tests.up.hostReach && decide (cardAt a = some (Tests.card a)) && a % 4 = 0 && (windowOf a).isNone && (aliasOf a).isNone && a < 0x8000000 &&
  !(ownEffect.contains (Tests.card a).1.base) && (pairOf (Tests.card a).1 (Tests.card a).2 a).isNone && (Tests.up.wakeFor a).pend.isEmpty &&
  ((Tests.card a).1.writeFields.any fun f => f.cls = cls && f.ap = ap)

/-- Waveform memory of 1 GiB mapped. -/
def Sys2Proof.Tests.hb : Dev := Tests.up.set F.MEM_HEALTH_MAPPED 1

/-- Ring 5 of kind `kind` in state `st`, its 64 records from 4 KiB on. -/
def Sys2Proof.Tests.ring (kind st : Byte) : Dev :=
  { Tests.hb with mem := { Tests.hb.mem with ctx := Tests.hb.mem.ctx.write 160 [1, 0, 0, 0, kind, 6, 0, 0, if 4 ≤ kind.toNat then 0x20 else 0, 0, 0, st] } }

/-- A manager of two devices with EN, in stage Link OFF (tests). -/
def Sys2Proof.Tests.lk (role st : Nat) : Dev := (((Tests.up.set F.LINK_CFG_ROLE role).set F.LINK_CFG_N_M1 1).set F.LINK_CFG_EN 1).set F.LINK_STATUS_STATE st

theorem Sys2Proof.Tests.no_test (d : Dev) (h : Tests.noTests d = true) (m : Sram) (a : Nat) : d.abandonAt m a = d := by
  have k : ∀ e, d.testing e = none := fun e => by
    unfold Dev.testing
    by_cases he : e < 9
    · have := List.all_eq_true.1 h d.sirocco.test[e] (by rw [Vector.mem_toList_iff]; exact Vector.getElem_mem he)
      rw [Vector.getElem?_eq_getElem he, Option.join_some]
      exact Option.isNone_iff_eq_none.1 this
    · rw [Vector.getElem?_eq_none (by omega)]; rfl
  unfold Dev.abandonAt
  split
  · rfl
  · rw [k]; rfl

theorem Sys2Proof.Tests.clean_fetch (d : Dev) (c : Fin 32) (h : Tests.noTests d = true) (hb : d.mem.prog.bad (progAt c (8 * (d.ch c).pc.toNat)) = false) : CleanFetch d c := by
  refine ⟨hb, ?_⟩
  unfold Dev.touchProg
  dsimp only
  rw [no_test d h, Nat.mul_div_cancel_left _ (by decide : 0 < 8), Nat.mul_comm _ 8, if_neg]
  unfold Store.bad at hb
  rw [Bool.or_eq_false_iff] at hb
  rw [hb.1]; decide

theorem Sys2Proof.Tests.may_imp (d : Dev) (c : Fin 32) (w : W64) (h : Tests.may d c w = true) : MayIssue d c w := by
  unfold Tests.may at h
  simp only [Bool.and_eq_true, Bool.or_eq_true, Bool.not_eq_true', decide_eq_true_eq, and_assoc] at h
  obtain ⟨h1, h2, h3, h4, h9, h5, h6, h7, h8⟩ := h
  exact ⟨h1, h2, h3, Tests.clean_fetch d c h9 h4, fun k => h5.resolve_left (by simp [k]), fun k => h6.resolve_left (by simp [k]), h7, h8⟩

theorem Sys2Proof.Tests.free_imp (s : State) (c : Fin 32) (w : W64) (h : Tests.free s.dev c w = true) : Free s c w := by
  unfold Tests.free at h
  rw [Bool.and_eq_true, decide_eq_true_eq] at h
  exact ⟨Tests.may_imp _ c w h.1, h.2⟩

open Tests

/-! ### Witnesses: what the hypotheses of each statement ask is met (the checks `may` and `free` imply MayIssue and Free) -/

/-- ArithmeticWritesOneRegister. -/
theorem wit_arithmetic : ∀ i : Fin 12, free (run0 id) 0 (mkWord (BitVec.ofNat 8 (0x10 + i)) 0 0 0) = true ∧ free (run0 id) 0 (mkWord (BitVec.ofNat 8 (0x20 + i)) 0 0 0xFFFFFFFF) = true := by
  decide +kernel

/-- TimeIsMovedReadAndReported: SYNC at its largest j, 32. -/
theorem wit_timing : free (run0 id) 0 (mkWord 0x30 0 0 0xFFFFFFFF) = true ∧ free (run0 id) 0 (mkWord 0x31 0 15 0) = true ∧ free (run0 id) 0 (mkWord 0x33 0 0 32) = true := by
  decide +kernel

/-- WaittTakesTheNearestTime: A time at SC, the first that is not late, and one tick before it. -/
theorem wit_waitt : free (run0 fun x => { x with g := x.g.set 0 64 }) 0 (mkWord 0x32 0 1 0) = true ∧ ((64 : Tick) - 64).toNat < 2 ^ 31 ∧
    free (run0 fun x => { x with g := x.g.set 0 63 }) 0 (mkWord 0x32 0 1 0) = true ∧ 2 ^ 64 - 2 ^ 31 ≤ ((63 : Tick) - 64).toNat := by
  decide +kernel

/-- InstructionsAreHeldBack: Channel 0 idle, and in the tick of a fault of both; a bad program word; SC 4,097 ticks ahead; a full queue of 64; NOP with a field that must be 0; the
output with and without a fault of its own (`Faults`). -/
theorem wit_held_back : wordOfRow (.waitImm 0 0 0 1) = some (0, mkWord 0x30 0 0 1) ∧ wordOfRow (.mark 0 0 0 0) = some (0, mkWord 0x63 0 0 0) ∧ wordOfRow (.nop 0 1 0 0) = some (0, mkWord 0x00 1 0 0) ∧
    (d0.ch 0).canIssue = false ∧ ((run0 id).ch 0).canIssue = true ∧ (run0 id).mem.prog.bad 0 = false ∧
    ({ Store.empty with ue := [0] } : Store).bad (progAt 0 (8 * ((run0 id).ch 0).pc.toNat)) = true ∧
    (run0 fun x => { x with sc := 4097 }).aheadTooFar 0 = true ∧ scheduling (mkWord 0x30 0 0 1) (tickCount ((run0 id).ch 0) (mkWord 0x30 0 0 1)) = true ∧
    ((run0 fun x => { x with queue := List.replicate 64 ⟨64, .irq⟩ }).ch 0).canIssue = true ∧ places (mkWord 0x63 0 0 0) 0 = true ∧ (run0 id).aheadTooFar 0 = false ∧
    encOk (mkWord 0x00 1 0 0) = false ∧ noTests (run0 id) = true ∧ (run0 id).outputFaults 0 = false ∧ (run0 fun x => { x with queue := [⟨31, .play (.table 16384) 0⟩] }).outputFaults 0 = true ∧
    (let x := (run0 fun x => { x with st := .faulted, seqFault := true }).ch 0; x.canIssue = false ∧ x.faultedIn 0 = true ∧ x.seqFault = true) := by
  decide +kernel

/-- PlainControlAndLoopsMoveThePc: LOOP of count 0 and of count 1, with 3 and with 4 loops open; ENDL on its last pass, on an earlier one, and with no loop. -/
theorem wit_loops : free (run0 id) 0 (mkWord 0x06 0 0 0) = true ∧ free (run0 fun x => { x with loops := [1, 1, 1] }) 0 (mkWord 0x06 0 0 0x10000) = true ∧
    BitVec.ofNat 32 (bits (0 : BitVec 48) 47 16) = 0 ∧ BitVec.ofNat 32 (bits (0x10000 : BitVec 48) 47 16) ≠ 0 ∧
    free (run0 fun x => { x with loops := [1], l := x.l.set 0 1 }) 0 (mkWord 0x07 0 0 0) = true ∧ free (run0 fun x => { x with loops := [1], l := x.l.set 0 2 }) 0 (mkWord 0x07 0 0 0) = true ∧
    may (run0 fun x => { x with loops := [1, 1, 1, 1] }) 0 (mkWord 0x06 0 0 0x10000) = true ∧ may (run0 id) 0 (mkWord 0x07 0 0 0) = true := by
  decide +kernel

/-- PlainControlAndLoopsMoveThePc: NOP, HALT and JMP; a NOP at 32,767. -/
theorem wit_plain_control : free (run0 id) 0 (mkWord 0x00 0 0 0) = true ∧ free (run0 id) 0 (mkWord 0x01 0 0 0) = true ∧ may (run0 id) 0 (mkWord 0x02 0 0 0x7FFF) = true ∧
    may (run0 fun x => { x with pc := 32767 }) 0 (mkWord 0x00 0 0 0) = true ∧
    BeyondAlone (run0 fun x => { x with pc := 32767 }) 0 ((run0 fun x => { x with pc := 32767 }).ch 0) := by
  unfold BeyondAlone
  decide +kernel

/-- JccBranchesOnItsCondition: Every condition of JCC, at the last address from which it may go on in sequence. -/
theorem wit_jcc : ∀ k : Fin 8, free (run0 fun x => { x with pc := 32766 }) 0 (mkWord 0x03 0 0 (BitVec.ofNat 48 (k.val * 0x10000))) = true := by
  decide +kernel

/-- CallAndReturnUseTheReturnStack. -/
theorem wit_call_return : may (run0 fun x => { x with rets := List.replicate 7 1 }) 0 (mkWord 0x04 0 0 0) = true ∧ may (run0 fun x => { x with rets := List.replicate 8 1 }) 0 (mkWord 0x04 0 0 0) = true ∧
    may (run0 id) 0 (mkWord 0x05 0 0 0) = true ∧ may (run0 fun x => { x with rets := [32767] }) 0 (mkWord 0x05 0 0 0) = true ∧ may (run0 fun x => { x with rets := [32768] }) 0 (mkWord 0x05 0 0 0) = true ∧
    BeyondAlone (run0 fun x => { x with rets := [32768] }) 0 { (run0 fun x => { x with rets := [32768] }).ch 0 with rets := [] } := by
  unfold BeyondAlone
  decide +kernel

/-- PlaysAreScheduledAtSc: Spans of 0 ticks and of 1; table plays of index 16,383 and 16,384. -/
theorem wit_plays : (∀ op ∈ ([0x42, 0x43, 0x44] : List Nat), free (run0 id) 0 (mkWord (.ofNat 8 op) 0 0 0) = true ∧ free (run0 id) 0 (mkWord (.ofNat 8 op) 0 0 1) = true) ∧ free (run0 id) 0 (mkWord 0x40 0 0 0x3FFF) = true ∧
    free (run0 fun x => { x with g := x.g.set 0 16383 }) 0 (mkWord 0x41 0 0 (withBit (withBit 0 14 false) 15 false)) = true ∧
    free (run0 fun x => { x with g := x.g.set 0 16384 }) 0 (mkWord 0x41 0 0 (withBit (withBit 0 14 false) 15 false)) = true := by
  decide +kernel

/-- ActionsStandAtSc: Slots 255 and 256, tuning words of G[B+1] = 65,535 and 65,536. -/
theorem wit_actions : free (run0 id) 0 (mkWord 0x62 0 0 (withBit 0 8 false)) = true ∧ (∀ op ∈ ([0x63, 0x70, 0x71, 0x76, 0x77, 0xA0] : List Nat), free (run0 id) 0 (mkWord (.ofNat 8 op) 0 0 0) = true) ∧
    (∀ op ∈ ([0x73, 0x74] : List Nat), free (run0 id) 0 (mkWord (.ofNat 8 op) 0 0 0) = true ∧ free (run0 id) 0 (mkWord (.ofNat 8 op) 0 0 0x100) = true) ∧
    (∀ op ∈ ([0x73, 0x74] : List Nat), free (run0 fun x => { x with g := x.g.set 0 255 }) 0 (mkWord (.ofNat 8 op) 0 0 0x200) = true ∧ may (run0 fun x => { x with g := x.g.set 0 256 }) 0 (mkWord (.ofNat 8 op) 0 0 0x200) = true) ∧
    free (run0 fun x => { x with g := x.g.set 0 255 }) 0 (mkWord 0x75 0 0 0x100) = true ∧ may (run0 fun x => { x with g := x.g.set 0 256 }) 0 (mkWord 0x75 0 0 0x100) = true ∧
    free (run0 id) 0 (mkWord 0xA2 0 0 (withBit 0 0 true)) = true ∧
    (∀ p ∈ [false, true], free (run0 fun x => { x with g := (x.g.set 0 255).set 3 65535 }) 0 (mkWord 0x72 0 2 (withBit 0x100 9 p)) = true ∧
      may (run0 fun x => { x with g := (x.g.set 0 255).set 3 65536 }) 0 (mkWord 0x72 0 2 (withBit 0x100 9 p)) = true ∧ may (run0 fun x => { x with g := x.g.set 0 256 }) 0 (mkWord 0x72 0 2 (withBit 0x100 9 p)) = true) := by
  decide +kernel

/-- TimeIsMovedReadAndReported: every selector of TSTAMP; IRQ in its issue cycle. -/
theorem wit_system : (∀ sel : Fin 5, free (run0 id) 0 (mkWord 0xA1 0 0 (BitVec.ofNat 48 sel)) = true) ∧ free (run0 id) 0 (mkWord 0xA2 0 0 (withBit 0 0 false)) = true := by
  decide +kernel

/-- The device with device time at `t`. -/
def Sys2Proof.Tests.atDt (t : Tick) (d : Dev) : Dev := { d with ev := { d.ev with dt := t } }

/-- DecisionsBranchOnTheirWindow: The tick at which the decision resolves, and the one before it, in both event modes; windows with no event and with one. -/
theorem wit_decisions : (∀ op ∈ ([0x60, 0x61] : List Nat), free (atDt 23 (run0 id)) 0 (mkWord (.ofNat 8 op) 0 0 0) = true ∧ free (atDt 24 (run0 id)) 0 (mkWord (.ofNat 8 op) 0 0 0) = true) ∧
    (run0 id).fast 0 = false ∧ notAfter ((64 : Tick) - 40) 24 = true ∧ notAfter ((64 : Tick) - 40) 23 = false ∧
    (∀ op ∈ ([0x60, 0x61] : List Nat), free ((atDt 30 (run0 id)).set (F.CH_SEQ_MODE_EVMODE 0) 1) 0 (mkWord (.ofNat 8 op) 0 0 0) = true ∧ free ((atDt 31 (run0 id)).set (F.CH_SEQ_MODE_EVMODE 0) 1) 0 (mkWord (.ofNat 8 op) 0 0 0) = true) ∧
    (run0 id).presentsDue 0 = false ∧ (((run0 id)).set (F.CH_SEQ_MODE_EVMODE 0) 1).fast 0 = true ∧ notAfter ((64 : Tick) - 33) 31 = true ∧ notAfter ((64 : Tick) - 33) 30 = false := by
  decide +kernel

/-- The device with an event of code 1 due at channel 0 in this tick. -/
def Sys2Proof.Tests.due0 (d : Dev) : Dev :=
  { d.wr (R.CL_XBAR_MASK 0 0 0) 2 with ev := { d.ev with dt := 24, counting := true, frames := [⟨1, 0, 0, 0, 0, false, false, 0, true, 0, []⟩] } }

/-- EventWaitsMatchOrTimeOut: A presentation due in this tick; an event matches; none does with no time limit; none does before the deadline and at it. -/
theorem wit_event_waits : free (run0 fun x => { x with store := [⟨5, 1, 1, false⟩] }) 0 (mkWord 0x34 0 0 5) = true ∧ free (run0 id) 0 (mkWord 0x34 0 0 0) = true ∧
    free (atDt 88 (run0 id)) 0 (mkWord 0x34 0 0 0x640000) = true ∧ free (atDt 124 (run0 id)) 0 (mkWord 0x34 0 0 0x640000) = true ∧ bits (0x640000 : BitVec 48) 39 16 = 100 ∧
    (run0 id).presentsDue 0 = false ∧ (due0 (run0 id)).presentsDue 0 = true ∧ free (due0 (run0 id)) 0 (mkWord 0x34 0 0 0) = true ∧ notAfter (tmax 88 ((64 : Tick) + tk 100 - 40)) 88 = false ∧ notAfter (tmax 124 ((64 : Tick) + tk 100 - 40)) 124 = true := by
  decide +kernel

/-- ArraySignalsNeedLead: Array SIG with the link OFF and with an array FORMED: SC 159 and 160 ticks after DT, SC too far ahead, a full send queue. -/
theorem wit_array_signals : (∀ k ∈ [159, 160], may (run0 fun x => { x with sc := BitVec.ofNat 64 k }) 0 (mkWord 0x62 0 0 (withBit 0 8 true)) = true) ∧
    may (run0 fun x => { x with sc := 4097 }) 0 (mkWord 0x62 0 0 (withBit 0 8 true)) = true ∧ (run0 fun x => { x with sc := 4097 }).aheadTooFar 0 = true ∧ (run0 fun x => { x with sc := 160 }).aheadTooFar 0 = false ∧ before (159 : Tick) (0 + 160) = true ∧ before (160 : Tick) (0 + 160) = false ∧
    (run0 id).linkState = 0 ∧ (run0 id).link.hold = [] ∧ ((run0 id).set F.LINK_STATUS_STATE 2).linkState = 2 ∧ ((run0 id).set F.LINK_STATUS_STATE 2).sendFull .e = false ∧
    (let d := ((run0 id).set F.LINK_STATUS_STATE 2).sendBoth 2 1 false (fun h => eventBody 0 160 ((run0 id).set F.LINK_STATUS_STATE 2).arrayPos h); d.link.hold.length < 1024) ∧ (run0 id).link.hold.length < 1024 ∧
    ({ (run0 id) with link := { (run0 id).link with e := { (run0 id).link.e with sendQ := List.replicate 64 ⟨⟨0, 0, 0, false⟩, 0, false⟩ } } } : Dev).sendFull .e = true := by
  decide +kernel

/-- Channel 0 in RUN with ring 0 bound to its slot 0: its kind, its state, its PROD, and the records in the buffer. -/
def Sys2Proof.Tests.ring0 (kind st prod : Nat) (rs : List RecCopy) : Dev :=
  (((run0 fun x => { x with recs := rs }).setCtx 0 0x04 1 kind).setCtx 0 0x0B 1 st).setCtx 0 0x0C 4 prod

/-- A sound record of ring 0 at index 0. -/
def Sys2Proof.Tests.rec0 : RecCopy := ⟨0, 0, List.replicate 64 0, none⟩

/-- What `Claims.Names` asks of slot 0 and ring 0. -/
def Sys2Proof.Tests.names0 (d : Dev) (k : Nat) : Bool := d.ringOfSlot 0 0 = some 0 && decide (d.ringKind 0 = k) && decide (d.probeSlot 0 0 = d) && Tests.noTests d

/-- RingInstructionsConsumeWaitOrFault: One record ready and in the buffer; none ready; a poisoned one; a ring of another kind; a slot with no ring; slot 8,192. -/
theorem wit_rings : (names0 (ring0 1 1 1 [rec0]) 1 && names0 (ring0 2 1 1 [rec0]) 2 && names0 (ring0 3 1 1 [rec0]) 3) = true ∧
    (∀ op ∈ ([0x90, 0x91, 0x92, 0x93] : List Nat), may (ring0 1 1 1 [rec0]) 0 (mkWord (.ofNat 8 op) 0 0 0) = true ∧ ringSlot ((ring0 1 1 1 [rec0]).ch 0) (mkWord (.ofNat 8 op) 0 0 0) = 0) ∧
    may (ring0 1 1 1 [rec0]) 0 (mkWord 0x90 0 0 (withBit 0 18 true)) = true ∧ may (ring0 2 1 1 [rec0]) 0 (mkWord 0x41 0 0 (ringSrc 0)) = true ∧
    (ring0 1 1 1 [rec0]).ready 0 = 1 ∧ ((ring0 1 1 1 [rec0]).nameSlot 0 0).headCopy 0 0 = some rec0 ∧
    (ring0 1 1 0 []).ready 0 = 0 ∧ may (ring0 1 1 0 []) 0 (mkWord 0x90 0 0 (withBit 0 18 false)) = true ∧ names0 (ring0 1 1 0 []) 1 = true ∧
    (ring0 1 1 0 []).get (F.CH_SEQ_RING_TMO_TMO 0) ≠ 0 ∧ ((ring0 1 1 0 []).set (F.CH_SEQ_RING_TMO_TMO 0) 0).get (F.CH_SEQ_RING_TMO_TMO 0) = 0 ∧
    names0 (ring0 1 1 1 [{ rec0 with poison := some 5 }]) 1 = true ∧ (ring0 2 1 1 [rec0]).ringKind 0 ≠ 1 ∧
    (run0 id).ringOfSlot 0 0 = none ∧ (run0 id).probeSlot 0 0 = run0 id ∧ may (run0 id) 0 (mkWord 0x90 0 0 (withBit 0 18 false)) = true := by
  decide +kernel

/-- HeldInstructionsEndOrTimeOut: Each STALL with an instruction held; the conditions it waits for unmet and met; a starved ring before its limit and at it. -/
theorem wit_held : (∀ st ∈ [Stall.runahead, .queueFull, .ring, .decision, .event],
      let ch := (run0 fun x => { x with held := some (mkWord 0x00 0 0 0), stall := st }).ch 0
      ch.held = some (mkWord 0x00 0 0 0) ∧ ch.st = .run ∧ ch.stopB = none ∧ ch.stall = st) ∧
    opDefined (opOf (mkWord 0x00 0 0 0)) = true ∧ encOk (mkWord 0x00 0 0 0) = true ∧
    (run0 fun x => { x with held := some (mkWord 0x30 0 0 1), stall := .runahead, sc := 4097 }).aheadTooFar 0 = true ∧
    (run0 fun x => { x with held := some (mkWord 0x63 0 0 0), stall := .queueFull, queue := List.replicate 64 ⟨64, .irq⟩ }).aheadTooFar 0 = false ∧
    ((run0 fun x => { x with held := some (mkWord 0x34 0 0 0), stall := .event, store := [⟨0, 1, 1, false⟩] }).waitMatch 0 (mkWord 0x34 0 0 0)).isSome = true ∧
    ((run0 fun x => { x with held := some (mkWord 0x34 0 0 0), stall := .event }).waitMatch 0 (mkWord 0x34 0 0 0)).isNone = true ∧
    ((ring0 1 1 0 []).modCh 0 fun x => { x with held := some (mkWord 0x90 0 0 0), stall := .ring }).starved 0 = some 0 ∧
    (ring0 1 1 0 []).get (F.CH_SEQ_RING_TMO_TMO 0) > ((ring0 1 1 0 []).ch 0).ringWait := by
  decide +kernel

/-- ActionsTakeEffectAtTheirTick: An action whose tick is the present one, and a later one behind it. -/
theorem wit_take_effect : (∀ a ∈ [Act.mark 1 1, .setf (.slot 1) 1, .setfp (.osc 1) 1, .setp (.slot 255) 1, .shiftp (.slot 0) 1, .self 7 255, .seta 0 1, .mix 1 true, .calw 48000, .irq, .sig 255,
      .ledger [(1, Slot.zero)]], let ch := (run0 fun x => { x with dispatched := [⟨0, a⟩, ⟨1, .irq⟩] }).ch 0
      ch.dispatched = ⟨0, a⟩ :: [⟨1, .irq⟩]) ∧ notAfter 0 (run0 id).ev.dt = true ∧ notAfter 1 (run0 id).ev.dt = false := by
  decide +kernel

/-- ActionsAreDispatchedAndChecked: Actions 32 and 31 ticks ahead; CALW of 47,999 and of 48,000 ticks, with and without a run due; a play of index 16,384, of a bad
descriptor, of one that fails a check, and of a sound pinned record. -/
theorem wit_dispatch : notAfter ((32 : Tick) - 31) (run0 id).ev.dt = false ∧ notAfter ((31 : Tick) - 31) (run0 id).ev.dt = true ∧
    (Act.irq).output = false ∧ (47999 : W32).toNat < 48000 ∧ 48000 ≤ (48000 : W32).toNat ∧ (run0 id).flag (F.CH_CAL_STATUS_DUE 0) = false ∧ ((run0 id).set (F.CH_CAL_STATUS_DUE 0) 1).flag (F.CH_CAL_STATUS_DUE 0) = true ∧
    before (31 : Tick) (31 + (1 : W32).setWidth 64) = true ∧ 16384 ≤ (16384 : W32).toNat ∧
    ({ (run0 id) with mem := { (run0 id).mem with segtab := { Store.empty with ue := [0] } } } : Dev).hintAt 0 0 = none ∧
    (run0 id).touchDesc 0 0 = run0 id ∧ (run0 id).segCheck 0 ((run0 id).descAt 0 0) = some 1 ∧
    (run0 id).segCheck 0 ⟨1, 0, 0, 0⟩ = none ∧ (⟨1, 0, 0, 0⟩ : Desc).streamed = false ∧ (⟨1, 0, 0, 0⟩ : Desc).hasTrack = false ∧ 0 < (run0 id).blockTicks 0 ∧
    (noTests (run0 id) = true ∧ ((run0 id).ch 0).faultedIn (run0 id).ev.dt = false ∧ (run0 id).panicCheck 0 = run0 id ∧ ((run0 id).noteHint 0 0 ⟨0, 0, 0, 0⟩).segCheck 0 ((run0 id).descAt 0 0) ≠ none) := by
  decide +kernel

/-- WordsRunAsTheirRows. -/
theorem wit_words : wordOfRow (.nop 0 0 0 0) = some (0, 0) := by
  decide +kernel

/-- BlocksAreCommittedInTime: Blocks 32 and 31 ticks ahead: rest, a span that lasts one tick more or has ended, and a streamed block not in the stage buffer. -/
theorem wit_blocks : notAfter ((32 : Tick) - 31) (run0 id).ev.dt = false ∧ notAfter ((31 : Tick) - 31) (run0 id).ev.dt = true ∧
    (∀ k ∈ [CurKind.rest, .osc, .hold, .park], let ch := (run0 fun x => { x with cur := ⟨k, 0, 32⟩, nextS := some 31 }).ch 0
      ch.nextS = some 31 ∧ ch.queue = [] ∧ ch.parkAt = none ∧ ch.faultB = none ∧ ch.cur.kind = k ∧ before 31 ch.cur.stop = true) ∧
    before (31 : Tick) 31 = false ∧
    (let p : SegPlay := ⟨⟨0x109, 0, 0, 0⟩, 0, 0, none, true, none⟩
     let ch := (run0 fun x => { x with cur := ⟨.seg p, 31, 39⟩, nextS := some 31 }).ch 0
     ch.cur.kind = .seg p ∧ p.d.streamed = true ∧ ch.stage = [] ∧ (31 - ch.cur.first).toNat / (run0 id).blockTicks 0 = 0 ∧ 0 < p.d.len ∧ ch.faultedIn 0 = false ∧
       (let d := run0 fun x => { x with cur := ⟨.seg p, 31, 39⟩, nextS := some 31, panic := true }; d.panicCheck 0 = d)) := by
  decide +kernel

/-- RunsEndAtTheirBoundaryOrDry: a boundary reached and not; a DRAIN that has reached SC and one that has not. -/
theorem wit_runs_end : (run0 id).flag F.DEV_CTRL_PARK_ALL = false ∧ notAfter (0 : Tick) (run0 id).ev.dt = true ∧ notAfter (1 : Tick) (run0 id).ev.dt = false ∧
    ((run0 fun x => { x with stopB := some 0 }).ch 0).stopB = some 0 ∧ ((run0 fun x => { x with stopB := some 1 }).ch 0).stopB = some 1 ∧
    (let ch := (run0 fun x => { x with st := .drain, sc := 0 }).ch 0; ch.st = .drain ∧ ch.stopB = none ∧ ch.sc = 0) ∧
    (let ch := (run0 fun x => { x with st := .drain, sc := 1 }).ch 0; ch.st = .drain ∧ ch.sc = 1 ∧ ch.goReq = false) ∧ (run0 id).flag (F.CH_SEQ_CTRL_PENDING 0) = false := by
  decide +kernel

/-- RunsEndAtTheirBoundaryOrDry: SC 32 and 33 ticks after DT, a declared wait, a STOP; a fault hold that has ended, in FAULTED and in RUN, and one that has not. -/
theorem wit_dry : notAfter ((32 : Tick) - 32) (run0 id).ev.dt = true ∧ notAfter ((33 : Tick) - 32) (run0 id).ev.dt = false ∧ ((run0 id).ch 0).st = .run ∧ ((run0 id).ch 0).stopB = none ∧ ((run0 id).ch 0).stall ≠ .event ∧
    ((run0 fun x => { x with stall := .event }).ch 0).stall = .event ∧ ((run0 fun x => { x with stopB := some 0 }).ch 0).stopB ≠ none ∧
    (∀ st ∈ [ChSt.faulted, .idle, .run], let ch := (run0 fun x => { x with st := st, faultB := some 0, faultEnd := 1 }).ch 0; ch.faultB = some 0 ∧ ch.faultEnd = 1 ∧ ch.st = st) ∧
    ((run0 fun x => { x with faultB := some 0 }).ch 0).faultEnd = 0 ∧ (run0 id).flag F.DEV_CTRL_PARK_ALL = false ∧
    notAfter (0 : Tick) (run0 id).ev.dt = true ∧ notAfter (1 : Tick) (run0 id).ev.dt = false := by
  decide +kernel

/-- RunsStartByGoOrEvent: GO at every start mode, with a lead of 63, 64 and more than 2^63 ticks; a held SEQ_MODE; rejections; states that queue it. -/
theorem wit_go : (up.wakeChiplet 0).goRejected 0 = false ∧ ((up.wakeChiplet 0).ch 0).st = .idle ∧ (up.wakeChiplet 0).waiting (R.CH_SEQ_MODE 0) = false ∧ (up.wakeChiplet 0).waiting (R.CH_SEQ_START 0 0) = false ∧
    (up.wakeChiplet 0).waiting (R.CH_SEQ_START 0 1) = false ∧ ((up.wakeChiplet 0).cal 0).run = none ∧ (up.wakeChiplet 0).linkState = 0 ∧
    (up.wakeChiplet 0).get (F.CH_SEQ_MODE_START_MODE 0) = 0 ∧ ((up.set (F.CH_SEQ_MODE_START_MODE 0) 1).wakeChiplet 0).get (F.CH_SEQ_MODE_START_MODE 0) = 1 ∧
    ((up.set (F.CH_SEQ_MODE_START_MODE 0) 2).wakeChiplet 0).get (F.CH_SEQ_MODE_START_MODE 0) = 2 ∧ ((up.set (F.CH_SEQ_MODE_START_MODE 0) 2).wakeChiplet 0).goRejected 0 = false ∧
    ((up.set (F.CH_SEQ_MODE_START_MODE 0) 1).wakeChiplet 0).goRejected 0 = false ∧ ((up.set64 (R.CH_SEQ_START 0 0) 64).wakeChiplet 0).get64 (R.CH_SEQ_START 0 0) = 64 ∧
    64 ≤ ((64 : Tick) - 0).toNat ∧ ((63 : Tick) - 0).toNat < 64 ∧ 2 ^ 63 ≤ ((0x8000000000000000 : Tick) - 0).toNat ∧ d0.stage < 3 ∧ ((d0.wakeChiplet 0).ch 0).st = .idle ∧
    ({ d0 with pend := [⟨R.CH_SEQ_MODE 0, 1, 0, .idle, 0, none⟩] } : Dev).waiting (R.CH_SEQ_MODE 0) = true ∧ (ch0 fun x => { x with st := .faulted }).goHeld 0 = false ∧ ((ch0 fun x => { x with st := .faulted }).ch 0).st = .faulted ∧ ((run0 id).ch 0).st = .run := by
  decide +kernel

/-- RunsStartByGoOrEvent: An armed channel with its START_EV after the cutoff, with one at the cutoff, in both modes; a channel not armed. -/
theorem wit_event_start : (let ch := (ch0 fun x => { x with st := .armed, store := [⟨0, 1, 1, false⟩] }).ch 0
      ch.st = .armed ∧ ch.store = [⟨0, 1, 1, false⟩] ∧ before ch.cutoff 1 = true) ∧ d0.get (F.CH_SEQ_MODE_START_EV 0) = 0 ∧
    (let ch := (ch0 fun x => { x with st := .armed, store := [⟨0, 0, 0, false⟩] }).ch 0; before ch.cutoff 0 = false) ∧ d0.fast 0 = false ∧ (d0.set (F.CH_SEQ_MODE_EVMODE 0) 1).fast 0 = true ∧ (d0.ch 0).st ≠ .armed ∧ d0.presentsDue 0 = false ∧
    (due0 (ch0 fun x => { x with st := .armed })).presentsDue 0 = true := by
  decide +kernel

/-- RunControlStopsHaltsAndResumes: The channel states of each clause. -/
theorem wit_run_control : (let b := (run0 id).boundaryAfter 0 32; b = 64 ∧ before (63 : Tick) b = true ∧ before (64 : Tick) b = false) ∧
    (∀ st ∈ [ChSt.idle, .armed, .run, .halted, .drain, .faulted], ((ch0 fun x => { x with st := st }).ch 0).st = st ∧ ((ch0 fun x => { x with st := st }).ch 0).stopB = none ∧
      ((ch0 fun x => { x with st := st, committed := true, stopB := some 32 }).ch 0).stopB ≠ none ∧ ((ch0 fun x => { x with st := st, committed := true }).ch 0).committed = true ∧
      ((ch0 fun x => { x with st := st }).ch 0).committed = false ∧ ((ch0 fun x => { x with st := st, stepping := true }).ch 0).stepping = true ∧ ((ch0 fun x => { x with st := st }).ch 0).pc ≠ 32768) ∧
    (∀ w ∈ [Stall.none, .decision, .event, .ring], ((run0 fun x => { x with stall := w }).ch 0).stall = w) := by
  decide +kernel

/-- HostWritesOfAChannelNeedItsState: Each state of the channel; an oscillator register and a Ledger slot when they are free and when not; FTW and PHI at 2^48 - 1 and 2^48; both FIR banks. -/
theorem wit_host_writes : (∀ st ∈ [ChSt.idle, .faulted, .halted, .armed, .run, .drain], ((ch0 fun x => { x with st := st }).ch 0).st = st) ∧
    ((ch0 fun x => { x with st := .halted }).ch 0).stepping = false ∧ ((ch0 fun x => { x with st := .halted, stepping := true }).ch 0).stepping = true ∧
    (run0 id).ncoFree 0 = false ∧ d0.ncoFree 0 = true ∧ mergeBytes (BitVec.ofNat 32 ((d0.ch 0).mixEna.toNat + 256 * bit (d0.ch 0).baseband)) 15 0x1FF = 0x1FF ∧
    ((8 : Fin 9).val = (7 : Fin 8).val + 1) ∧ (d0.set64 (R.CH_LEDGER_STG_FTW 0 0) 0xFFFFFFFFFFFF).get64 (R.CH_LEDGER_STG_FTW 0 0) = 0xFFFFFFFFFFFF ∧
    (0xFFFFFFFFFFFF : W64).toNat < 2 ^ 48 ∧ 2 ^ 48 ≤ ((d0.set64 (R.CH_LEDGER_STG_FTW 0 0) 0x1000000000000).get64 (R.CH_LEDGER_STG_FTW 0 0)).toNat ∧
    2 ^ 48 ≤ ((d0.set64 (R.CH_LEDGER_STG_PHI 0 0) 0x1000000000000).get64 (R.CH_LEDGER_STG_PHI 0 0)).toNat ∧ (d0.get64 (R.CH_LEDGER_STG_PHI 0 0)).toNat < 2 ^ 48 ∧
    (run0 id).get (F.CH_FIR_CTRL_BANK 0) = (0 : Fin 2).val ∧ (run0 id).get (F.CH_FIR_CTRL_BANK 0) ≠ (1 : Fin 2).val ∧ (run0 id).pend = [] ∧ ((run0 id).ch 0).st ≠ .idle ∧ ((run0 id).ch 0).st ≠ .faulted := by
  decide +kernel

/-- RegisterWritesFollowTheirClasses: Registers with fields of each class and apply point, and a value that is ignored and one that is not. -/
theorem wit_register_classes : plain R.DEV_PROFILE .ro .imm = true ∧ plain R.DEV_PROFILE .w1c .imm = true ∧ plain R.DEV_PROFILE .rwh .idle = true ∧
    plain R.DEV_ALERT_MASK .rw .imm = true ∧ plain R.CLK_SPLL_CTRL .rwh .imm = false ∧ plain R.TELEM_SW_RATE .rwh .idle = true ∧
    ignoredValue R.DEV_PROFILE [] 0 2 = false ∧ ignoredValue R.DEV_PROFILE [] 0 3 = true ∧ (⟨R.DEV_PROFILE, 0, 3⟩ : Fld).mask &&& byteMask 15 ≠ 0 := by
  decide +kernel

/-- AccessesWithoutARegisterAreRefused. -/
theorem wit_refused_accesses : d0.hostReach = false ∧ up.hostReach = true ∧ windowOf 0x14 = none ∧ windowOf 0x8000000 = none ∧ windowOf 0xBFFFFFC = none ∧ cardAt 0x7FFFFC = none ∧
    windowOf 0x7FFFFC = none ∧ aliasOf 0x7FFFFC = none ∧ 0x15 % 4 ≠ 0 ∧ aliasOf 0x3FFFFFC = none ∧ (15 : BitVec 4) ≠ 0 ∧
    (let a := 0x4000000 + R.SEC_DBG_CTRL * 32; aliasOf a = some (R.SEC_DBG_CTRL, 0) ∧ windowOf a = none ∧ a % 4 = 0 ∧ a < 0x8000000 ∧ cardAt R.SEC_DBG_CTRL = some (card R.SEC_DBG_CTRL) ∧
      (card R.SEC_DBG_CTRL).1.bitsOf (· = .lock) &&& BitVec.twoPow 32 0 ≠ 0) ∧
    (let a := 0x4000000 + R.DEV_PROFILE * 32 + 124; aliasOf a = some (R.DEV_PROFILE, 31) ∧ (card R.DEV_PROFILE).1.bitsOf (· = .lock) &&& BitVec.twoPow 32 31 = 0 ∧
      (card R.DEV_PROFILE).1.bitsOf (· = .ro) &&& BitVec.twoPow 32 31 ≠ 0) ∧ (aliasOf (0x4000000 + 0x7FFFC * 32)).map (·.1) = some 0x7FFFC ∧ cardAt 0x7FFFC = none ∧
    R.DEV_PROFILE ≠ R.SEC_DBG_CTRL ∧ isPairHi R.DEV_PROFILE = false ∧ ({ up with locked := [R.SEC_DBG_CTRL] } : Dev).debugFixed = true ∧ up.debugFixed = false ∧
    (up.set F.SEC_LC_STATE 3).lifecycle = 3 ∧ (up.set F.SEC_LC_STATE 1).lifecycle = 1 ∧ (up.set F.SEC_LC_STATE 2).lifecycle ≠ 1 ∧ (up.set F.SEC_LC_STATE 2).lifecycle ≠ 3 ∧ mergeBytes 0 15 (1 : W32) &&& 7 ≠ 0 ∧ mergeBytes 0 15 (8 : W32) &&& 7 = 0 ∧
    0x10 % 8 = 0 ∧ 0x14 % 8 ≠ 0 ∧ (7 : BitVec 4) ≠ 0xF := by
  decide +kernel

/-- AccessesWithoutARegisterAreRefused: The first bit of the first RW field with the IMM point, and of the first W1C field, of the register at `r`, through its alias address. -/
def Sys2Proof.Tests.aliased (r : Nat) (cls : Cls) : Bool :=
  let q := card r
  match q.1.writeFields.find? fun f => f.cls = cls && f.ap = .imm with
  | none => false
  | some f =>
    let a := 0x4000000 + 32 * r + 4 * f.lo
    up.hostReach && (windowOf a).isNone && a % 4 = 0 && a < 0x8000000 && aliasOf a = some (r, f.lo) && decide (cardAt r = some q) &&
    decide (q.1.bitsOf (· = .lock) &&& BitVec.twoPow 32 f.lo = 0) && decide (q.1.bitsOf (· = .ro) &&& BitVec.twoPow 32 f.lo = 0) &&
    !(ownEffect.contains q.1.base) && (pairOf q.1 q.2 r).isNone && f.lo < f.lo + f.len && f.lo < 32 && (up.wakeFor r).pend.isEmpty

/-- AccessesWithoutARegisterAreRefused: An RW bit and a W1C bit through their alias addresses; the RW register ignores no value. -/
theorem wit_alias : aliased R.DEV_ALERT_MASK .rw = true ∧ aliased R.DEV_PROFILE .w1c = true ∧
    (∀ lo n, ignoredValue (card R.DEV_ALERT_MASK).1.base (card R.DEV_ALERT_MASK).2 lo n = false) := by
  refine ⟨by decide +kernel, by decide +kernel, fun lo n => ?_⟩
  have h : (card R.DEV_ALERT_MASK).1.base = R.DEV_ALERT_MASK := by decide +kernel
  rw [h]
  simp [ignoredValue, R.DEV_ALERT_MASK, R.DEV_PROFILE]

/-- WritesWaitForTheirPairAndPoint: Both halves of a pair, one staged and one not; a held value whose point has come, has not, and stands elsewhere; a written profile. -/
theorem wit_held_values : up.hostReach = true ∧ cardAt (R.EVT_HOST_T 0) = some (card (R.EVT_HOST_T 0)) ∧
    pairOf (card (R.EVT_HOST_T 0)).1 (card (R.EVT_HOST_T 0)).2 (R.EVT_HOST_T 0) = some (R.EVT_HOST_T 0, false) ∧
    pairOf (card (R.EVT_HOST_T 1)).1 (card (R.EVT_HOST_T 1)).2 (R.EVT_HOST_T 1) = some (R.EVT_HOST_T 0, true) ∧ cardAt (R.EVT_HOST_T 1) = some (card (R.EVT_HOST_T 1)) ∧
    R.EVT_HOST_T 1 = R.EVT_HOST_T 0 + 4 ∧ ((card (R.EVT_HOST_T 1)).1.fields.headD ⟨0, 0, .ro, .imm, 0⟩).ap = .imm ∧
    ((card (R.CH_SEQ_START 0 1)).1.fields.headD ⟨0, 0, .ro, .imm, 0⟩).ap ≠ .imm ∧ (pairOf (card (R.CH_SEQ_START 0 1)).1 (card (R.CH_SEQ_START 0 1)).2 (R.CH_SEQ_START 0 1)) = some (R.CH_SEQ_START 0 0, true) ∧
    (let p : PendW := ⟨R.CH_SEQ_RING_TMO 0, 0xFFFFFFFF, 1, .idle, 0, none⟩
     let d : Dev := { d0 with pend := [p], ev := { d0.ev with elapsed := 2 } }
     d.pend = [p] ∧ (∀ c, (d.ch c).goReq = false) ∧ p.timer = none ∧ (∀ k ∈ List.range 8, ∀ j ∈ List.range 4, p.addr ≠ R.CL_STAGE_CTRL k j) ∧ p.addr ≠ R.CH_DAC_CTRL (channelOf p.addr) ∧
       p.addr ≠ R.CH_SEQ_MODE (channelOf p.addr) ∧ comesWith .idle p.ap = true ∧ comesWith .block p.ap = false ∧ unitOf p.addr = 0x110 ∧ d.pointReached p = true ∧ d0.pointReached p = false) ∧
    d0.pendingOf F.DEV_PROFILE_PROFILE = none ∧ ({ d0 with pend := [⟨R.DEV_PROFILE, 7, 2, .idle, 0, none⟩] } : Dev).pendingOf F.DEV_PROFILE_PROFILE = some (2, 0) ∧
    (∀ c, (d0.ch c).st = .idle) ∧ d0.ev.elapsed < 0 + 2 ∧ 0 + 2 ≤ ({ d0.ev with elapsed := 2 } : Events).elapsed ∧ ((run0 id).ch 0).st ≠ .idle := by
  decide +kernel

/-- SnapshotsCopyAtTheirTarget: A target 31, 32 and 2^63 ticks ahead, before and after DT; a running snapshot, copied or not, with a lead of 31 and 32. -/
theorem wit_snapshot : d0.snap = none ∧ d0.ev.counting = false ∧ up.ev.counting = true ∧ up.snap = none ∧
    ((31 : Tick) - 0).toNat < 32 ∧ 32 ≤ ((32 : Tick) - 0).toNat ∧ ((32 : Tick) - 0).toNat < 2 ^ 63 ∧ 2 ^ 63 ≤ ((0x8000000000000000 : Tick) - 0).toNat ∧
    (up.set64 R.ABACUS_TIME_LO 32).get64 R.ABACUS_TIME_LO = 32 ∧ up.ev.dt = 0 ∧
    (∀ c ∈ [true, false], let x : Abacus := ⟨0, [], [], c⟩; ({ up with snap := some x } : Dev).snap = some x ∧ x.copied = c ∧ notAfter x.target up.ev.dt = true ∧ (x.target - up.ev.dt).toNat < 32) ∧
    (let x : Abacus := ⟨32, [], [], false⟩; x.copied = false ∧ 32 ≤ (x.target - up.ev.dt).toNat ∧ (x.target - up.ev.dt).toNat < 2 ^ 63) ∧
    notAfter (1 : Tick) up.ev.dt = false ∧ up.flag F.ABACUS_CTRL_PENDING = false ∧ (up.set F.ABACUS_CTRL_PENDING 1).flag F.ABACUS_CTRL_PENDING = true := by
  decide +kernel

/-- ResetsAndParkAll: PARK_ALL running and not, with a run and without; a reset at stage 0 and later; a reset of an idle, a faulted and a running channel. -/
theorem wit_resets : d0.flag F.DEV_CTRL_PARK_ALL = false ∧ (d0.set F.DEV_CTRL_PARK_ALL 1).flag F.DEV_CTRL_PARK_ALL = true ∧
    (((run0 fun x => { x with committed := true }).set F.DEV_CTRL_PARK_ALL 1).stop 0 |>.ch 0).active? = true ∧
    (∀ c, (d0.ch c).st = .idle ∧ (d0.ch c).faultB = none) ∧ d0.flag F.DEV_CTRL_PENDING = false ∧ d0.stage = 0 ∧ up.stage ≠ 0 ∧ (∀ c, (up.cal c).saving = none) ∧
    cardAt R.DEV_PROFILE = some (card R.DEV_PROFILE) ∧ R.DEV_PROFILE ∉ keptStatus ∧ (∀ c : Fin 32, R.DEV_PROFILE ≠ R.CH_DAC_STATUS c) ∧
    ({ d0 with board := { d0.board with rst := some 1 } } : Dev).board.rst ≠ none ∧ d0.board.rst = none ∧ ((ch0 fun x => { x with st := .faulted }).ch 0).faultB = none ∧
    inChannel 0 (R.CH_SEQ_RING_TMO 0) = true ∧ R.CH_SEQ_RING_TMO 0 < R.CH_DAC_CTRL 0 ∧
    (let s := run0 fun x => { x with committed := true }
     let d : Dev := { (((s.set F.DEV_RST_CH_C 0).set F.DEV_RST_CH_GO 1).set F.DEV_RST_CH_CODE 1).set F.DEV_RST_CH_LAST 0 with board := { s.board with rst := some 0 }, sec := { s.sec with challenge := none } }
     s.board.rst = none ∧ (s.ch 0).active? = true ∧ (d.stop 0).board = d.board ∧ ((d.stop 0).ch 0).active? = true ∧ ((d.stop 0).ch 0).stopB ≠ none) := by
  decide +kernel

/-- MessagesFollowLatches: Vector 0 latched and not, masked, sent just before and long before, with and without its summary bit. -/
theorem wit_messages :
    (let d := ((((up.set (F.CH_SEQ_IRQ_STATUS_BREAK 0) 1).set (F.CH_SEQ_IRQ_EN_BREAK 0) 1).set F.DEV_CTRL_IRQ_EN 1).wr R.DEV_IRQ_MASK_CH 1); d.summary.getLsbD 22 = true ∧ vectorOf 22 = (32 : Fin 2048).val) ∧
    d0.summary = 0 ∧ 32 ∉ d0.msix.latch ∧
    d0.board.msixOn = true ∧ d0.board.funcMask = false ∧ d0.board.d0 = true ∧ (d0.set (F.DEV_MSIX_CTRL_MASK 0) 0).flag (F.DEV_MSIX_CTRL_MASK 0) = false ∧ d0.flag (F.DEV_MSIX_CTRL_MASK 0) = true ∧
    (let m : Msix := { d0.msix with latch := [0], last := [(0, 5)] }; 0 ∈ m.latch ∧ m.last.find? (·.1 = 0) = some (0, 5)) ∧ 0 ∉ d0.msix.latch ∧ d0.msix.last.find? (·.1 = 0) = none := by
  decide +kernel

/-- TimersAndHostEventsEmit: A running timer whose firing has lead 31, 32, 2^63 and has come or not, endless and not; a host event at a lead of 31 and 32, pending and not. -/
theorem wit_timers : d0.flag (F.EVT_TMR_STAT_RUNNING 0) = false ∧ (d0.set (F.EVT_TMR_STAT_RUNNING 0) 1 |>.set (F.EVT_TMR_CTRL_EN 0) 1).flag (F.EVT_TMR_STAT_RUNNING 0) = true ∧
    (d0.set (F.EVT_TMR_CTRL_EN 0) 1).flag (F.EVT_TMR_STAT_RUNNING 0) = false ∧ d0.get (F.EVT_TMR_PERIOD_PERIOD 0) = 0 ∧
    (d0.rdTick (R.EVT_TMR_CTRL 0)).getLsbD 0 = false ∧
    (let d := (((up.set (F.EVT_TMR_STAT_RUNNING 0) 1).set (F.EVT_TMR_CTRL_EN 0) 1).set (F.EVT_TMR_PERIOD_PERIOD 0) 16).set64 (R.EVT_TMR_START 0 0) 32
     let f := d.get64 (R.EVT_TMR_START 0 0) + tk (d.ev.tmrNext[0] * d.get (F.EVT_TMR_PERIOD_PERIOD 0))
     d.flag (F.EVT_TMR_STAT_RUNNING 0) = true ∧ d.ev.counting = true ∧ (d.rdTick (R.EVT_TMR_CTRL 0)).getLsbD 0 = true ∧ f = 32 ∧ 32 ≤ (f - d.ev.tmrStart[0]).toNat ∧ (f - d.ev.tmrStart[0]).toNat < 2 ^ 63 ∧ notAfter f d.ev.dt = false ∧
       notAfter f ({ d.ev with dt := 32 } : Events).dt = true) ∧
    ((31 : Tick) - 0).toNat < 32 ∧ 2 ^ 63 ≤ ((0x8000000000000000 : Tick) - 0).toNat ∧
    d0.ev.hostEv = none ∧ ({ d0.ev with hostEv := some (1, 32) } : Events).hostEv = some (1, 32) ∧ d0.flag F.EVT_HOST_EV_AT = false ∧ (d0.set F.EVT_HOST_EV_AT 1).flag F.EVT_HOST_EV_AT = true ∧
    (d0.set64 (R.EVT_HOST_T 0) 32).get64 (R.EVT_HOST_T 0) - d0.ev.dt = 32 ∧ (d0.set64 (R.EVT_HOST_T 0) 31).get64 (R.EVT_HOST_T 0) - d0.ev.dt = 31 ∧ notAfter (32 : Tick) 31 = false ∧ notAfter (32 : Tick) 32 = true ∧
    (let d := up.set F.EVT_HOST_EV_PENDING 1; ((d.emit 1 0 0 4 0 false 0).hostEvEnds 2).flag F.EVT_HOST_EV_PENDING = true ∧ ((up.emit 1 0 0 4 0 false 0).hostEvEnds 2).flag F.EVT_HOST_EV_PENDING = false) := by
  decide +kernel

/-- A frame entry in state `d` (tests). -/
def Sys2Proof.Tests.frame (closed : Bool) : FrameEv := ⟨1, 0, 0, 0, 0, false, false, 0, closed, 0, []⟩

/-- EdgesAndFramesPresentEvents: An open and a closed entry of the code; an edge too short (held = MINW) and long enough, in the hold-off and past it; 
a frame 19 and 20 ticks old; an event presented before, due, not due, masked, a second and a third; a log ring that takes a record. -/
theorem wit_edges : (∀ c ∈ [true, false], ∀ f ∈ ({ up.ev with frames := [frame c] } : Events).frames, f.code = 1 ∧ f.stamp = 0 ∧ f.closed = c) ∧
    up.ev.trig.getLsbD 0 = false ∧ (up.set (F.EVT_TRIG_CFG_EN 0) 1).flag (F.EVT_TRIG_CFG_EN 0) = true ∧ up.flag (F.EVT_TRIG_CFG_EN 0) = false ∧
    (let d := ((up.set (F.EVT_TRIG_CFG_EN 0) 1).set (F.EVT_TRIG_CFG_MINW 0) 3).set (F.EVT_TRIG_CFG_HOLDOFF 0) 5
     d.flag (F.EVT_TRIG_CFG_EN 0) = true ∧ 3 ≤ d.get (F.EVT_TRIG_CFG_MINW 0) ∧ d.get (F.EVT_TRIG_CFG_MINW 0) < 4 ∧ ((5 : Tick) - 0).toNat ≤ d.get (F.EVT_TRIG_CFG_HOLDOFF 0) ∧ d.get (F.EVT_TRIG_CFG_HOLDOFF 0) < ((6 : Tick) - 0).toNat) ∧
    d0.ev.counting = false ∧ up.ev.counting = true ∧ up.ev.trigLast[0] = none ∧ (up.ev.trigLast.set 0 (some 0))[0] = some 0 ∧ (∃ x ∈ [0, 1, 2, 3], edgeSelected x true = true) ∧ (∃ x ∈ [0, 1, 2, 3], edgeSelected x true = false) ∧
    notAfter ((0 : Tick) + 20) 19 = false ∧ notAfter ((0 : Tick) + 20) 20 = true ∧
    (let f := frame true
     f.presented.getLsbD 0 = false ∧ (BitVec.twoPow 32 0).getLsbD 0 = true ∧ (frame false).closed = false ∧ up.fast 0 = false ∧ (up.set (F.CH_SEQ_MODE_EVMODE 0) 1).fast 0 = true ∧ notAfter (f.stamp + 24 + 0) 24 = true ∧ notAfter (f.stamp + 24 + 8) 31 = false ∧
     (up.presentAt 0 f).2 = false ∧ (up.rdTick (R.CL_XBAR_MASK (clu 0) (sub 0) ((1 : BitVec 8).toNat / 32))).getLsbD 1 = false ∧
     ((up.wr (R.CL_XBAR_MASK (clu 0) (sub 0) 0) 2).rdTick (R.CL_XBAR_MASK (clu 0) (sub 0) ((1 : BitVec 8).toNat / 32))).getLsbD 1 = true ∧
     (([⟨1, 0, 0, false⟩] : List StoreEv).filter (·.code = 1)).length < 2 ∧ 2 ≤ (([⟨1, 0, 0, false⟩, ⟨1, 1, 1, false⟩] : List StoreEv).filter (·.code = 1)).length) ∧
    up.ev.log = [] := by
  decide +kernel

/-- EdgesAndFramesPresentEvents: A marker train that falls at sample 0 and stays; one with an edge after the first of the tick; a LIVE log ring with room, a full one, one with an unreadable context. -/
theorem wit_marker_and_log : (let d := (up.modCh 0 fun x => { x with outs := [1] }).set (F.EVT_MK_CFG_EN 0) 1 |>.set (F.EVT_MK_CFG_EDGE 0) 1
      let train := d.markerTrain 0 (d.get (F.EVT_MK_CFG_BIT 0))
      (0 : Fin 32).val = d.get (F.EVT_MK_CFG_CH 0) % 32 ∧ d.flag (F.EVT_MK_CFG_EN 0) = true ∧ d.ev.counting = true ∧ d.ev.mkLast[0] ≠ some d.ev.dt ∧ edgeSelected (d.get (F.EVT_MK_CFG_EDGE 0)) false = true ∧
      train[(0 : Fin 16).val]? = some (!false) ∧ train[(0 : Fin 16).val + 1]? = some false ∧ train[(1 : Fin 16).val]? ≠ some (!false) ∧
      (∀ n, n < (0 : Fin 16).val → ∀ up : Bool, edgeSelected (d.get (F.EVT_MK_CFG_EDGE 0)) up = true → train[n]? = some (!up) → train[n + 1]? ≠ some up)) ∧
    (let train := [false, true, false]
     train[0]? = some (!true) ∧ train[0 + 1]? = some true ∧ train[1]? = some (!false) ∧ train[1 + 1]? = some false) ∧
    (let d : Dev := { ring 4 1 with ev := { (ring 4 1).ev with log := [frame true] } }
     d.ctxBad 5 = false ∧ d.ev.log = frame true :: [] ∧ d.ev.logAt ≠ some d.ev.elapsed ∧ d.liveKind 5 4 = true ∧ d.ringFull 5 = false ∧ d.memHeld = false ∧ (d.set F.EVT_LOG_CFG_RING 5).get F.EVT_LOG_CFG_RING = 5) ∧
    ({ up.ev with logAt := some 0 } : Events).logAt = some up.ev.elapsed ∧ up.liveKind 5 4 = false ∧
    ({ up with mem := { up.mem with ctx := ⟨[], [], [160], []⟩ } } : Dev).ctxBad 5 = true := by
  decide +kernel

/-- DeviceTimeCountsLoadsAndResumes: DT_LOAD with all its conditions met, and not, one that waits, a LOAD queued; a held DT released, at its first tick and before; TICK at stage 0 and later; a link event at stage OFF and after, with a lead of 159, 160, 2^22; a held array event due and not; STOP_EN. -/
theorem wit_device_time : (let d := up.set F.EVT_IRQ_STATUS_LOAD 1
      up.ev.counting = true ∧ (∀ c, (up.ch c).st = .idle) ∧ (∀ i, i < 8 → d.flag (F.EVT_TMR_STAT_RUNNING i) = false) ∧ up.ev.hostEv = none ∧ d.get F.ABACUS_STATUS_CODE ≠ 1 ∧ d.get F.LINK_STATUS_STATE = 0 ∧ d.ev.load = none) ∧
    ({ up.ev with load := some 0 } : Events).load = some 0 ∧ up.flag F.EVT_CTRL_PENDING = false ∧ (up.set F.EVT_CTRL_PENDING 1).flag F.EVT_CTRL_PENDING = true ∧
    d0.ev.counting = false ∧ d0.get F.CLK_SPLL_STATUS_STATE ≠ 5 ∧ (d0.set F.CLK_SPLL_STATUS_STATE 5).get F.CLK_SPLL_STATUS_STATE = 5 ∧ up.ev.started = true ∧ d0.ev.started = false ∧ ({ d0.clk with firstTick := some 0 } : Clk).firstTick = some 0 ∧ 0 ≤ d0.ev.elapsed ∧ d0.ev.elapsed < 1 ∧
    d0.get F.DEV_STAGE_STAGE = 0 ∧ up.get F.DEV_STAGE_STAGE ≠ 0 ∧ d0.get F.LINK_STATUS_STATE < 2 ∧ 2 ≤ (d0.set F.LINK_STATUS_STATE 2).get F.LINK_STATUS_STATE ∧
    ((d0.set64 (R.LINK_HOST_T 0) 160).get64 (R.LINK_HOST_T 0) - d0.ev.dt).toNat = 160 ∧ ((d0.set64 (R.LINK_HOST_T 0) 159).get64 (R.LINK_HOST_T 0) - d0.ev.dt).toNat < 160 ∧
    2 ^ 22 ≤ ((d0.set64 (R.LINK_HOST_T 0) 0x400000).get64 (R.LINK_HOST_T 0) - d0.ev.dt).toNat ∧
    (∀ e ∈ up.link.hold, notAfter e.target up.ev.dt = false) ∧ notAfter (0 : Tick) up.ev.dt = true ∧ notAfter (1 : Tick) up.ev.dt = false ∧
    (let d := ({ up with link := { up.link with hold := [] } } : Dev).emit 7 0 0 6 0 false 0
     d.flag F.LINK_CFG_STOP_EN = false ∧ ((d.set F.LINK_CFG_STOP_EN 1).set F.LINK_CFG_STOP_CODE 7).flag F.LINK_CFG_STOP_EN = true ∧ ((d.set F.LINK_CFG_STOP_EN 1).set F.LINK_CFG_STOP_CODE 7).get F.LINK_CFG_STOP_CODE = (7 : BitVec 8).toNat ∧
       d.get F.LINK_CFG_STOP_CODE ≠ (7 : BitVec 8).toNat) := by
  decide +kernel

/-- MemoriesAreWrittenAndReadByUnits: Accesses at the last byte of a window and past it, with the channel quiet and in RUN, inside and outside an enabled area, of an OFF and a LIVE ring, below and above the capacity, in and out of reach, held and not, of poisoned and good units; a received write; registers aligned and not; the last doorbell. -/
theorem wit_memory_accesses : 0x3FFFF + [(1 : Byte)].length ≤ 0x40000 ∧ 0x40000 < 0x40000 + [(1 : Byte)].length ∧ 0x7FFFFF + [(1 : Byte)].length ≤ 0x800000 ∧ 0x800000 < 0x800000 + [(1 : Byte)].length ∧
    ¬(((run0 id).wakeCluster (clu 0)).ch 0).st ∈ [ChSt.idle, .faulted, .halted] ∧ ((d0.wakeCluster (clu 0)).ch 0).st ∈ [ChSt.idle, .faulted, .halted] ∧
    (let e := (up.set (F.CL_STAGE_CTRL_EN 0 0) 1).wakeCluster 0; e.inArea 0 0x3FFFF 1 = true ∧ e.inArea 0 0x40000 1 = false ∧ e.inArea 0 0x40000 64 = false) ∧ (List.replicate 64 (0 : Byte)).length = 64 ∧
    (∀ x ∈ List.range 32, hb.ctxBad ((160 + x) / 32) = false) ∧ hb.ringState 5 = 0 ∧ (ring 1 1).ringState 5 = 1 ∧ ctxOpen (0xAC % 32) = false ∧ ctxOpen (0xA9 % 32) = true ∧
    hb.tripped = false ∧ (hb.set F.TELEM_THERM_LEVEL 3).tripped = true ∧ hb.capacity < 0x40000000 + [(1 : Byte)].length ∧ ([1, 2] : List Byte).take (hb.capacity - 0x3FFFFFFF) = [1] ∧
    hb.fencedAt 0 = false ∧ (hb.set (F.MEM_PC_STAT_STATE 0) 2).fencedAt 0 = true ∧ hb.poisoned 0 = false ∧ (hb.set (F.MEM_PC_STAT_STATE 0) 2).poisoned 0 = true ∧
    d0.hostReach = false ∧ hb.bar4Reach 0x3FFFFFFF 2 = true ∧ d0.bar4Reach 0 1 = false ∧ hb.bar4Reach (2 ^ hb.board.barLog2) 1 = false ∧
    (let d : Dev := { hb with hbm := { hb.hbm with posted := [(0, [1, 2])], received := 1 } }
     d.hbm.posted = (0, [1, 2]) :: [] ∧ d.fencedAt (0 / 64 * 64) = false ∧ (d.set (F.MEM_PC_STAT_STATE 0) 2).fencedAt (1 / 64 * 64) = true) ∧
    hb.memHeld = false ∧ ({ hb with hbm := { hb.hbm with newRate := some 1 } } : Dev).memHeld = true ∧
    windowOf 0x14 = none ∧ 0x14 % 4 = 0 ∧ 4 < 0x14 % 4 + 5 ∧ 4 < 0x16 % 4 + 3 ∧ 0x14 % 8 ≠ 0 ∧ (12 : Nat) ≠ 8 ∧
    up.mem.ctx.bad (32 * 262143 + 8) = false ∧ up.mem.ctx.bad (32 * 262143 + 16) = false ∧
    windowOf 0x7FFFFF = none ∧ windowOf 0x800000 = some (.context 0) ∧ windowOf 0x1040000 = some (.segTable 0 0) ∧ windowOf 0x2040000 = some (.program 0 0) ∧ windowOf 0xC000000 = some (.oasis 0 0) ∧ up.hostReach = true ∧
    min 64 (4096 - 0x800FF8 % 4096) = 8 ∧ (∀ i ∈ List.range 8, up.mem.ctx.bad (i / 8 * 8) = false) := by
  decide +kernel

/-- A streamed S16 segment of 2 blocks. -/
def Sys2Proof.Tests.seg2 : Desc := ⟨0x109, 0, 0, 0⟩

/-- A device whose channel 0 has a streamed play to serve and whose stage buffer is enabled. -/
def Sys2Proof.Tests.fed (f : Chan → Chan) : Dev :=
  (hb.set (F.CL_STAGE_CTRL_EN 0 0) 1).modCh 0 fun x => f { x with fetches := [⟨0, seg2, none, 0, 0⟩] }

/-- StageBuffersFillInOrder: A play to serve with the buffer enabled, disabled, full, behind another channel; none to serve; a requested block, one behind an older request of another channel, and none. -/
theorem wit_stage_buffer : ((fed id).ch 0).nextFetch = some ⟨0, seg2, none, 0, 0⟩ ∧ (fed id).flag (F.CL_STAGE_CTRL_EN (clu 0) (sub 0)) = true ∧ ((fed id).ch 0).stageUsed + seg2.drawBytes ≤ 0x40000 ∧
    (fed id).goesFirst 0 ⟨0, seg2, none, 0, 0⟩ = true ∧ (up.flag (F.CL_STAGE_CTRL_EN (clu 0) (sub 0))) = false ∧ 0x40000 < ((fed fun x => { x with stage := [⟨0, 0, 0x40000, [], 0, false, none⟩] }).ch 0).stageUsed + seg2.drawBytes ∧
    (up.ch 0).nextFetch = none ∧ up.memHeld = false ∧ ({ up with hbm := { up.hbm with newRate := some 1 } } : Dev).memHeld = true ∧ (up.ch 0).stage.find? (!·.arrived) = none ∧
    (let d := fed fun x => { x with stage := [⟨0, 0, 128, [0, 1, 2, 3], 5, false, none⟩] }; let x := d.ch 0
     x.stage.find? (!·.arrived) = some ⟨0, 0, 128, [0, 1, 2, 3], 5, false, none⟩ ∧ x.fetches.find? (·.pid = 0) = some ⟨0, seg2, none, 0, 0⟩ ∧
     ((d.blockPlace 0 ⟨0, seg2, none, 0, 0⟩ 0).1.flatMap (fun r => d.mem.hbm.bytes r.1 r.2)).length = 32 * 4 ∧
     (∀ e, clu e = clu 0 → ∀ y ∈ (d.ch e).stage, y.arrived = false → 5 ≤ y.seq) ∧ (∃ e, clu e = clu 0 ∧ ∃ y ∈ ((d.modCh 1 fun x => { x with stage := [⟨0, 0, 128, [], 4, false, none⟩] }).ch e).stage, y.arrived = false ∧ y.seq < 5) ∧
     d.mem.oasis.ue = [] ∧ d.mem.oasis.poison = [] ∧ ([0, 1, 2, 3] : List Nat).Nodup) ∧
    (ring 3 1).ready 5 < ((ring 3 1).ch 0).claimed 5 + ringRecords seg2.fmt := by
  decide +kernel

/-- The segment table of cluster 0 holds `x` at index 0, and target entry 0 of channel 0 is enabled, its load running. -/
def Sys2Proof.Tests.load (x : List Byte) : Dev :=
  let d := ((hb.set (F.CL_TGT_CFG_EN 0 0 0) 1).set (F.CL_STAGE_CTRL_EN 0 0) 1).set (F.CL_STAGE_CTRL_HEAD_EN 0 0) 1
  { d with mem := { d.mem with segtab := d.mem.segtab.write 0 x }, hbm := { d.hbm with loads := [(entryKey 0 0, 0)] } }

/-- TargetsLoadTheirHeads: EN 0 and 1, RELOAD 0 and 1, a load that runs and none; an unreadable, an unfit, a pinned and a streamed descriptor, and poison; a slot word that cannot be read back; a slot that serves a play. -/
theorem wit_heads : (0x4000 : W32).getLsbD 14 = true ∧ (0 : W32).getLsbD 14 = false ∧ ((15 : BitVec 4).getLsbD 1 && (0 : W32).getLsbD 15) = false ∧ ((15 : BitVec 4).getLsbD 1 && (0xC000 : W32).getLsbD 15) = true ∧
    hb.hbm.loads.any (·.1 = entryKey 0 0) = false ∧ (load []).hbm.loads.any (·.1 = entryKey 0 0) = true ∧ hb.flag (F.CL_TGT_CFG_EN (clu 0) (sub 0) 0) = false ∧ (load []).flag (F.CL_TGT_CFG_EN (clu 0) (sub 0) 0) = true ∧
    hb.hbm.loads.find? (·.1 = entryKey 0 0) = none ∧ (load []).hbm.loads.find? (·.1 = entryKey 0 0) = some (entryKey 0 0, 0) ∧ (load []).memHeld = false ∧
    (let e (x : List Byte) := (loadDropped (load x) 0 0).touchDesc 0 0
     (e []).hintAt 0 0 = some ⟨0, 0, 0, 0⟩ ∧ ((e []).segCheck 0 ⟨0, 0, 0, 0⟩).isSome = true ∧
     (e [9, 1, 0, 0]).hintAt 0 0 = some seg2 ∧ (e [9, 1, 0, 0]).segCheck 0 seg2 = none ∧ seg2.streamed = true ∧ (∀ a ∈ List.range 64, (e [9, 1, 0, 0]).poisoned ((seg2.addr + 64 * a) / 64 * 64) = false) ∧ 0 < seg2.headN * seg2.blockBytes ∧ seg2.hasTrack = false ∧
     ((e [9, 1, 0, 0]).set (F.MEM_PC_STAT_STATE 0) 2).poisoned ((seg2.addr + 0) / 64 * 64) = true ∧
     (let g := (e [9, 1, 0, 0]).oasisPut 0 ((e [9, 1, 0, 0]).slotBase 0 0) ((e [9, 1, 0, 0]).headBytes seg2 seg2.headN)
      g.badWord 0 [(g.slotBase 0 0, seg2.headN * seg2.drawBytes)] = none ∧
      (({ g with mem := { g.mem with oasis := { g.mem.oasis with ue := [oasisAt 0 (g.slotBase 0 0)] } } } : Dev).badWord 0 [(g.slotBase 0 0, seg2.headN * seg2.drawBytes)]).isSome = true)) ∧
    (load []).loadNext 0 (entryKey 0 0) = true ∧
    (let p : SegPlay := ⟨seg2, 0, 0, some 0, false, none⟩
     ((load []).modCh 0 fun x => { x with cur := ⟨.seg p, 0, 31⟩, nextS := some 0 }).loadNext 0 (entryKey 0 0) = false) ∧
    (load []).flag (F.CL_TGT_CFG_PENDING 0 0 0) = false ∧ ((load []).set (F.CL_TGT_CFG_PENDING 0 0 0) 1).flag (F.CL_TGT_CFG_PENDING 0 0 0) = true ∧
    (let d := load []; let e : Dev := { d with mem := { d.mem with segtab := { d.mem.segtab with ue := [0] } } }; ((loadDropped e 0 0).touchDesc 0 0).hintAt 0 0 = none) := by
  decide +kernel

/-- CopiesFillOasis: A copy with LEN 0, beyond the capacity, past Oasis, into an enabled area, and one that runs to its last unit; poison at its first and its last unit. -/
theorem wit_copies : hb.fills[(0 : Fin 8)] = none ∧ ({ hb with fills := hb.fills.set (0 : Fin 8) (some ⟨0, 0, 64⟩) } : Dev).fills[(0 : Fin 8)] = some ⟨0, 0, 64⟩ ∧
    ((hb.set (F.CL_FILL_LEN_LEN 0) 64).get (F.CL_FILL_LEN_LEN 0)) = 64 ∧ hb.get (F.CL_FILL_LEN_LEN 0) = 0 ∧ (hb.wakeCluster 0).capacity < 0x40000000 + 64 ∧ 0x3FFFFFC0 + 64 ≤ (hb.wakeCluster 0).capacity ∧
    0x800000 < 0x7FFFC0 + 128 ∧ 0x7FFFC0 + 64 ≤ 0x800000 ∧ ((hb.set (F.CL_STAGE_CTRL_EN 0 0) 1).wakeCluster 0).inArea 0 0x3FFC0 64 = true ∧ ((hb.set (F.CL_STAGE_CTRL_EN 0 0) 1).wakeCluster 0).inArea 0 0x40000 64 = false ∧
    hb.memHeld = false ∧ hb.hbm.loads = [] ∧ (∃ p ∈ (load []).hbm.loads, p.1 / 64 = 0 ∧ (load []).slotBusy (keyCh p.1) (p.1 % 16) = false) ∧ hb.flag (F.CL_FILL_CTRL_PENDING 0) = false ∧ hb.poisoned 0 = false ∧ hb.poisoned 64 = false ∧ (hb.set (F.MEM_PC_STAT_STATE 0) 2).poisoned 0 = true ∧
    (let p (u : Nat) : Dev := { hb with mem := { hb.mem with hbm := { hb.mem.hbm with poison := [u] } } }; (p 64).poisoned 64 = true ∧ (p 64).poisoned 0 = false ∧ (p 0).poisoned 0 = true) := by
  decide +kernel

/-- RingsAreBoundAndMoved: An OFF ring, a wrong kind, a ring beyond the capacity, PROD and CONS apart, a taken slot, a good ring; a LIVE ring, a busy one, a STALLED one with and without its record. -/
theorem wit_ring_commands : (ring 1 1).ringState 5 ≠ 0 ∧ (ring 1 0).ringState 5 = 0 ∧ (ring 0 0).badFields 5 = true ∧ (ring 1 0).badFields 5 = false ∧ (ring 5 0).badFields 5 = false ∧
    (ring 1 0).ctx 5 0 4 % 2 ^ 25 * 4096 + 64 * 2 ^ (ring 1 0).log2 5 ≤ (ring 1 0).capacity ∧ ((ring 1 0).set F.MEM_HEALTH_MAPPED 0).capacity < (ring 1 0).ctx 5 0 4 % 2 ^ 25 * 4096 + 64 * 2 ^ (ring 1 0).log2 5 ∧
    (ring 1 0).prod 5 = (ring 1 0).cons 5 ∧ ((ring 1 0).setCtx 5 0x0C 4 1).prod 5 ≠ ((ring 1 0).setCtx 5 0x0C 4 1).cons 5 ∧ (ring 1 0).slotTaken 5 = false ∧
    (let d := ring 1 0; let e : Dev := { d with mem := { d.mem with ctx := d.mem.ctx.write 192 [2, 0, 0, 0, 1, 6, 0, 0, 0, 0, 0, 1] } }; e.slotTaken 5 = true ∧ e.ringState 5 = 0 ∧ e.badFields 5 = false) ∧
    (kindH2d ((ring 1 1).ringKind 5) && ((ring 1 1).ch ((ring 1 1).owner 5)).active.length < 16) = true ∧ (kindH2d ((ring 5 1).ringKind 5) && ((ring 5 1).ch ((ring 5 1).owner 5)).active.length < 16) = false ∧
    (kindH2d ((ring 1 1).ringKind 5) && !((ring 1 1).ch ((ring 1 1).owner 5)).quiet) = false ∧ (let d := (ring 1 1).modCh 0 fun x => { x with st := .run }; (kindH2d (d.ringKind 5) && !(d.ch (d.owner 5)).quiet) = true) ∧
    (ring 1 1).ringState 5 ≠ 2 ∧ (ring 1 2).ringState 5 = 2 ∧ (ring 1 2).staleOf 5 = none ∧ ({ ring 1 2 with rings := { (ring 1 2).rings with stale := [(5, 0)] } } : Dev).staleOf 5 = some 0 ∧
    (ring 1 2).mem.hbm.byte ((ring 1 2).recAddr 5 0) = (ring 1 2).gen 5 0 ∧ (ring 1 2).mem.hbm.byte ((ring 1 2).recAddr 5 64) ≠ (ring 1 2).gen 5 64 ∧ (ring 1 2).firstPoison ((ring 1 2).recAddr 5 64) 64 = none ∧
    (((ring 1 2).set (F.MEM_PC_STAT_STATE ((ring 1 2).pcOf 4096)) 2).firstPoison ((ring 1 2).recAddr 5 0) 64).isSome = true := by
  decide +kernel

/-- RingsAreBoundAndMoved: A doorbell at the last ring and past it, of a wrong size, of an OFF ring, with a wrong check word, with its index at the window's end and past it, for both directions, with none of the ring before it and one; the doorbell that takes effect, behind writes that have landed and not. -/
theorem wit_doorbells : 2 ^ 18 ≤ 0x200000 / 8 ∧ 0x1FFFF8 / 8 < 2 ^ 18 ∧ 0x1FFFF8 % 8 = 0 ∧ 0x1FFFFC % 8 ≠ 0 ∧
    (let e := (ring 1 1).wakeCaravan.ctxError 5; let p := e.prod 5
     (ring 1 1).hostReach = true ∧ d0.hostReach = false ∧ 40 / 8 = 5 ∧ 40 % 8 = 0 ∧ (e.rings.doorbells.filter (·.q = 5)).getLast? = none ∧
     (([⟨5, 7, 0⟩, ⟨6, 1, 0⟩] : List PendDb).filter (·.q = 5)).getLast? = some ⟨5, 7, 0⟩ ∧ e.ringState 5 ≠ 0 ∧ bits (0x500000040 : W64) 63 32 = 5 % 2 ^ 16 ∧ bits (0x400000040 : W64) 63 32 ≠ 5 % 2 ^ 16 ∧ kindH2d (e.ringKind 5) = true ∧
     (((0x500000040 : W64).setWidth 32 : W32) - p).toNat ≤ 2 ^ e.log2 5 - (p - e.cons 5).toNat ∧ 2 ^ e.log2 5 - (p - e.cons 5).toNat < (((0x500000041 : W64).setWidth 32 : W32) - p).toNat) ∧
    ((ring 1 0).wakeCaravan.ctxError 5).ringState 5 = 0 ∧
    (let e := (ring 5 1).wakeCaravan.ctxError 5; kindH2d (e.ringKind 5) = false ∧ kindD2h (e.ringKind 5) = true ∧ (e.prod 5 - e.cons 5).toNat < (((0x500000001 : W64).setWidth 32 : W32) - e.cons 5).toNat ∧
     (((0x500000000 : W64).setWidth 32 : W32) - e.cons 5).toNat ≤ (e.prod 5 - e.cons 5).toNat) ∧
    (∀ b ∈ [(⟨5, 1, 0⟩ : PendDb), ⟨5, 0, 0⟩], ({ (ring 1 1).rings with doorbells := [b] } : Rings).doorbells = b :: [] ∧ b.q = (5 : BitVec 18).toNat ∧ b.writes ≤ (ring 1 1).hbm.landed) ∧ (ring 1 1).rings.doorbells = [] ∧ (ring 1 1).hbm.landed < 1 ∧ (ring 1 1).memHeld = false ∧
    ({ hb with hbm := { hb.hbm with newRate := some 1 } } : Dev).memHeld = true ∧
    (ring 1 1).prod 5 = 0 ∧ (ring 1 1).ctx 5 0x09 1 % 2 ≠ 1 ∧ ((ring 1 1).setCtx 5 0x09 1 1).ctx 5 0x09 1 % 2 = 1 ∧ (((ring 1 1).setCtx 5 0x09 1 1).arrival 5).ringState 5 ≠ 2 ∧ (ring 1 2).ringState 5 = 2 := by
  decide +kernel

/-- RecordsAreFetchedAndWritten: A record to fetch, fresh, poisoned and stale; a STATUS record due with the queue at 255 and at 256; a queued record for a LIVE, a full and an OFF ring, with its place good and FENCED. -/
theorem wit_records : (ring 1 1).fetchable 5 0 = false ∧
    (let d := ((ring 1 1).setCtx 5 0x0C 4 1).modCh 0 fun x => { x with active := [0] }; d.fetchable 5 0 = true ∧ d.wakeCaravan.mem.hbm.byte (d.wakeCaravan.recAddr 5 0) = d.wakeCaravan.gen 5 0 ∧ d.wakeCaravan.firstPoison (d.wakeCaravan.recAddr 5 0) 64 = none) ∧
    (let d := (((ring 1 1).setCtx 5 0x0C 4 65).setCtx 5 0x10 4 64).modCh 0 fun x => { x with active := [0] }; d.fetchable 5 64 = true ∧ d.wakeCaravan.mem.hbm.byte (d.wakeCaravan.recAddr 5 64) ≠ d.wakeCaravan.gen 5 64) ∧
    (let r : StatusRec := ⟨0, 0, 5, List.replicate 64 0⟩
     ({ d0.rings with due := [r] } : Rings).due.find? (fun r => r.cls = 0 && r.src = 0) = some r ∧ d0.rings.due.find? (fun r => r.cls = 0 && r.src = 0) = none ∧ (List.replicate 255 r).length < 256 ∧ 256 ≤ (List.replicate 256 r).length ∧
     r.data.length = 64 ∧ (∀ d ∈ [ring 5 1, ring 5 0], let d : Dev := { d with rings := { d.rings with statusQ := [r] } }; d.memHeld = false ∧ d.rings.statusQ.find? (fun r => !(d.liveKind r.ring 5 && d.ringFull r.ring)) = some r) ∧
     (ring 5 1).liveKind 5 5 = true ∧ (ring 5 0).liveKind 5 5 = false ∧ (ring 5 1).wakeCaravan.fencedAt ((ring 5 1).recAddr 5 0) = false ∧
     ((ring 5 1).set (F.MEM_PC_STAT_STATE ((ring 5 1).pcOf 4096)) 2).wakeCaravan.fencedAt ((ring 5 1).recAddr 5 0) = true ∧ (!((ring 5 1).setCtx 5 0x0C 4 64 |>.liveKind 5 5) || (!(((ring 5 1).setCtx 5 0x0C 4 64).ringFull 5))) = false) := by
  decide +kernel

/-- ArraysFormAndBreak: Every condition of FORM, LEAVE, a phase's limit, a lane, the clock offset. -/
theorem wit_array : (lk 1 0).flag F.LINK_CMD_FORM = false ∧ ((lk 1 0).set F.LINK_CMD_FORM 1).flag F.LINK_CMD_FORM = true ∧ (lk 1 0).flag F.LINK_CFG_ROLE = true ∧ (lk 1 0).get F.LINK_CFG_N_M1 ≠ 0 ∧ (lk 1 0).flag F.LINK_CFG_EN = true ∧ (lk 1 0).get F.LINK_STATUS_STATE = 0 ∧
    (lk 0 0).flag F.LINK_CFG_ROLE = false ∧ up.get F.LINK_CFG_N_M1 = 0 ∧ up.flag F.LINK_CFG_EN = false ∧ (lk 1 1).get F.LINK_STATUS_STATE = 1 ∧ (lk 1 2).get F.LINK_STATUS_STATE = 2 ∧ 3 ≤ (lk 1 0).stage ∧ (lk 1 0).get F.CLK_SPLL_STATUS_STATE = 2 ∧ (∀ c, ((lk 1 0).ch c).st = .idle) ∧ d0.stage < 3 ∧
    ((lk 1 0).set F.LINK_CMD_PENDING 1).flag F.LINK_CMD_PENDING = true ∧ (lk 1 0).flag F.LINK_CMD_PENDING = false ∧
    (lk 1 1).ev.elapsed < (lk 1 1).link.since + phaseLimit (lk 1 1).phaseNow ∧ (let e := phaseLimit (lk 1 1).phaseNow; (lk 1 1).link.since + phaseLimit (lk 1 1).phaseNow ≤ ({ (lk 1 1).ev with elapsed := e } : Events).elapsed) ∧
    (let e := (lk 1 0).set ⟨R.LINK_PORT (portIdx .e), 8, 1⟩ 1; e.get (F.LINK_PORT_LANES (portIdx .e)) ≠ 15 ∧ (e.set (F.LINK_PORT_LANES (portIdx .e)) 15).get (F.LINK_PORT_LANES (portIdx .e)) = 15 ∧ e.portUp .e = false ∧ (e.setUp .e true).portUp .e = true) ∧
    (lk 1 1).phaseNow ≠ 3 ∧ ((lk 1 1).set F.LINK_CMD_STATUS_PHASE 3).phaseNow = 3 ∧ (lk 1 1).link.aligned = false ∧ ({ (lk 1 1).link with aligned := true } : Link).aligned = true ∧
    (((lk 1 0).modCh 31 fun x => { x with st := .run }).ch 31).st ≠ .idle ∧ (lk 1 2).get F.LINK_TICK_OFS_RESID = 0 ∧ (312 : BitVec 10).toNat < 0 + 313 ∧ 0 + 313 ≤ (313 : BitVec 10).toNat := by
  decide +kernel

/-- LinkWordsActByTheirType: A port down and up; words with 1 and 2 hops left; HELLO as the neighbour sends it; PHASE 1 and 5; a trip of 28 and 29 ticks; TIME_LO with and without TIME_HI; right and wrong BEACON and VERIFY; RESULT of success, of failure, of another phase;
a break of a neighbour; an event in time and late; cells that parse and cells that do not, the fourth slip in a row. -/
theorem wit_link_words : (lk 1 1).portUp .e = false ∧ ((lk 1 1).setUp .e true).portUp .e = true ∧ ((lk 1 1).setUp .e true).get F.LINK_STATUS_STATE = 1 ∧ (lk 1 0).get F.LINK_STATUS_STATE < 2 ∧
    (let d := ((lk 1 1).setUp .e true).set F.LINK_CMD_STATUS_PHASE 1
     d.phaseNow = 1 ∧ bits (0x1 : W32) 3 0 = d.get F.LINK_CFG_N_M1 ∧ (1 : BitVec 4).toNat = d.neighbour .e ∧ ((0x1 : W32).getLsbD 4 && d.flag F.LINK_CFG_ROLE) = false ∧ (0x1 : W32).getLsbD 4 = decide ((1 : BitVec 4).toNat = 0) ∧ bits (0x2 : W32) 3 0 ≠ d.get F.LINK_CFG_N_M1) ∧
    (let d := ((lk 1 1).setUp .e true).set F.LINK_CMD_STATUS_PHASE 2; d.phaseNow = 2 ∧ (d.ev.dt.toNat + 2 ^ 24 - bits (0xFFFFE4 : W32) 23 0) % 2 ^ 24 - bits (0xFFFFE4 : W32) 31 24 = 28 ∧ (d.ev.dt.toNat + 2 ^ 24 - bits (0xFFFFE3 : W32) 23 0) % 2 ^ 24 - bits (0xFFFFE3 : W32) 31 24 = 29) ∧
    (let d := ((lk 0 1).setUp .e true).set F.LINK_CMD_STATUS_PHASE 4; d.phaseNow = 4 ∧ d.link.timeHi = none ∧ ({ d.link with timeHi := some 0 } : Link).timeHi = some 0) ∧
    (let d := (lk 0 2).setUp .e true; 2 ≤ d.get F.LINK_STATUS_STATE ∧ d.flag F.LINK_CFG_ROLE = false ∧ d.ev.dt.setWidth 32 = (0 - BitVec.ofNat 32 (16 * d.travelled .e 0) : W32) + BitVec.ofNat 32 (16 * d.travelled .e 0) ∧
       d.ev.dt.setWidth 32 ≠ (1 - BitVec.ofNat 32 (16 * d.travelled .e 0) : W32) + BitVec.ofNat 32 (16 * d.travelled .e 0)) ∧
    (let d := ((lk 0 1).setUp .e true).set F.LINK_CMD_STATUS_PHASE 5; let x : W32 := BitVec.ofNat 32 (2 ^ 24 - 16 * d.travelled .e 0); d.phaseNow = 5 ∧ d.ev.dt.toNat % 2 ^ 24 = (bits x 23 0 + 16 * d.travelled .e 0) % 2 ^ 24 ∧ d.ev.dt.toNat % 2 ^ 24 ≠ (bits (x + 1) 23 0 + 16 * d.travelled .e 0) % 2 ^ 24) ∧
    bits (0x9 : W32) 6 3 ≠ 0 ∧ bits (0x1 : W32) 6 3 = 0 ∧ (((lk 1 1).set F.LINK_CMD_STATUS_PHASE 1).forwardWord .e 1 2 (controlBody 9 1 1) 1).phaseNow = bits (0x1 : W32) 2 0 ∧ bits (0x2 : W32) 2 0 ≠ 1 ∧
    (lk 1 2).flag F.LINK_CFG_ON_BREAK = false ∧ ((lk 1 2).set F.LINK_CFG_ON_BREAK 1).flag F.LINK_CFG_ON_BREAK = true ∧ before (expand24 0 1) (0 : Tick) = false ∧ before (expand24 100 1) (100 : Tick) = true ∧
    (let v (s : BitVec 8) : W64 := crc8 0 s ++ (0 : BitVec 56); let d := (lk 1 1).setUp .e true
     d.seqExp .e (v 0) = some 0 ∧ takeWord (v 0) (v 0) 0 = some (v 0, false, false) ∧ takeWord (v 1) (v 5) 0 = some (v 1, true, true) ∧ takeWord (v 5) (v 5) 0 = none ∧ (d.link.port .e).slips + 1 < 4 ∧ 4 ≤ 3 + 1) ∧
    bits (0 : W64) 55 54 ≠ 1 ∧ bits (0 : W64) 55 54 ≠ 2 := by
  decide +kernel

/-- LinkWordsActByTheirType: A worker that may form, has no lock, is busy; a port before and past its switch-over; an ECHO; a port with nothing to send; a cell of which one word is lost. -/
theorem wit_link_more : (lk 0 0).formReason = none ∧ d0.formReason = some 5 ∧
    ((lk 0 0).modCh 31 fun x => { x with st := .run }).formReason = some 4 ∧ 1 < ((lk 0 1).set F.LINK_CMD_STATUS_PHASE 2).phaseNow ∧ (lk 0 0).phaseNow ≤ 1 ∧
    (⟨1, 2, controlBody 4 0 0 1, true⟩ : LinkWord).stamped = true ∧ bits (controlBody 4 0 0 1) 53 48 = 4 ∧ (lk 1 2).clk.safe = false ∧ ((lk 1 2).link.port .e).sendQ = [] ∧ (lk 1 2).ev.counting = true ∧
    (let v (s : BitVec 8) : W64 := crc8 0 s ++ (0 : BitVec 56); (takeWord (v 0) (v 1) 0).isSome = true ∧ (takeWord (v 5) (v 5) 0).isNone = true ∧ ((lk 1 1).seqExp .e (v 0)).isSome = true) := by
  decide +kernel

/-- A memory unit in each error state (tests). -/
def Sys2Proof.Tests.err (ce ue : List Nat) : Store := ⟨[], ce, ue, []⟩

/-- MemoriesAreKeptAndTested: FENCE in each state; refresh and scrub taken and left; idle and busy stacks; good, correctable and bad units of each SRAM; the first unit of a pass and the last. -/
theorem wit_memory_upkeep : hb.flag F.MEM_FENCE_GO = false ∧ (hb.set F.MEM_FENCE_GO 1).flag F.MEM_FENCE_GO = true ∧ hb.memHeld = false ∧ hb.flag F.MEM_FENCE_PENDING = false ∧ (hb.set F.MEM_FENCE_PENDING 1).flag F.MEM_FENCE_PENDING = true ∧
    d0.stage < 4 ∧ 4 ≤ hb.stage ∧ (hb.set (F.HBM_STATUS_POWER 0) 2).get (F.HBM_STATUS_POWER 0) = 2 ∧ hb.get (F.HBM_STATUS_POWER 0) ≠ 2 ∧
    (hb.set F.MEM_SCRUB_EN 1).flag F.MEM_SCRUB_EN = true ∧ (hb.set F.MEM_SCRUB_EN 0).flag F.MEM_SCRUB_EN = false ∧ 0x3FFFFFC0 + 64 = hb.capacity ∧ hb.capacity < 0x40000000 + 64 ∧ 0 + 64 < hb.capacity ∧ hb.tripped = false ∧ hb.fencedAt 0 = false ∧
    (err [64] []).ce.contains 64 = true ∧ (err [64] []).bad 64 = false ∧ (err [] [64]).ue.contains 64 = true ∧ (err [] [64]).bad 64 = true ∧ (err [] []).ce.contains 64 = false ∧
    (let d : Dev := { (hb.set (F.HBM_STATUS_POWER 0) 2).set F.TELEM_PWR_CTRL_HBM_SLEEP 1 |>.set F.TELEM_PWR_CTRL_HBM_IDLE 1 with ev := { hb.ev with elapsed := 4000 } }
     d.get (F.HBM_STATUS_POWER 0) = 2 ∧ d.flag F.TELEM_PWR_CTRL_HBM_SLEEP = true ∧ d.stacksKept = false ∧ d.memHeld = false ∧ d.hbm.lastReq[(0 : Fin 4)] + 4000 * max 1 (d.get F.TELEM_PWR_CTRL_HBM_IDLE) ≤ d.ev.elapsed) ∧
    hb.ev.elapsed < hb.hbm.lastReq[(0 : Fin 4)] + 4000 * max 1 (hb.get F.TELEM_PWR_CTRL_HBM_IDLE) ∧ 0 ∈ hb.mapped ∧ (hb.set (F.HBM_STATUS_POWER 0) 1).get (F.HBM_STATUS_POWER 0) = 1 ∧
    (let d : Dev := { hb.set F.MEM_SCRUB_EN 1 with hbm := { hb.hbm with scrubAt := 0x3FFFFFC0, passAt := some 0 } }
     0x3FFFFFC0 = d.hbm.scrubAt ∧ 0 ≠ d.hbm.scrubAt ∧ hb.hbm.scrubAt = 0 ∧ hb.hbm.passAt = none ∧ d.ev.elapsed < 0 + 3600 * 400000000 * max 1 (d.get F.MEM_SCRUB_PERIOD) ∧
       0 + 3600 * 400000000 * max 1 (d.get F.MEM_SCRUB_PERIOD) ≤ 3600 * 400000000 * 256) := by
  decide +kernel

/-- MemoriesAreKeptAndTested: A snapshot that waits, one that has copied and none; the regions of each engine, its last region; a test begun, over, and tried again. -/
theorem wit_marching : hb.snap = none ∧ (∀ c ∈ [true, false], let x : Abacus := ⟨0, [], [], c⟩; ({ hb with snap := some x } : Dev).snap = some x ∧ x.copied = c) ∧
    3 ≤ hb.stage ∧ regionOf .oasis 0 = some (0, 0) ∧ regionOf .oasis 0x4000000 = none ∧ regionOf .programStore 0x7FFF00 = some (7, 37887) ∧ regionOf .context 0x7FFF00 = some (8, 32767) ∧ regionOf .reckoner 0xFFF00 = some (8, 36863) ∧
    (hb.set (F.CL_SIR_CTRL_EN 7) 1).flag (F.CL_SIR_CTRL_EN 7) = true ∧ (hb.set (F.CL_SIR_CTRL_EN 7) 0).flag (F.CL_SIR_CTRL_EN 7) = false ∧ hb.testing 7 = none ∧
    (let d := hb.saveRegion 7 37887; (d.testing 7).any (fun t => t.idx = 37887 && d.ev.elapsed < t.start + 3072 && t.start + 3072 ≤ ({ d.ev with elapsed := 3072 } : Events).elapsed) = true) ∧
    ([(5, 0)] : List (Nat × Nat)).find? (fun p => p.2 = 0 && hb.testable 7 p.1) = some (5, 0) ∧ ([(5, 1)] : List (Nat × Nat)).find? (fun p => p.2 = 0 && hb.testable 7 p.1) = none ∧
    hb.skipTo 7 4 37887 < passRegions 7 ∧ passRegions 7 ≤ hb.skipTo 7 4 37888 ∧ hb.flag (F.CL_SIR_FAIL_ADDR_VALID 0) = false ∧ (hb.set (F.CL_SIR_FAIL_ADDR_VALID 0) 1).flag (F.CL_SIR_FAIL_ADDR_VALID 0) = true := by
  decide +kernel

/-- RatesMapsAndTraining: A held new rate: the rate in force, an untrained one, a trained one, before its point; a rate change that holds the memory; REMAP idle and in each rejection. -/
theorem wit_rates : hb.pendingOf F.MEM_FREQ_CTRL_RATE = none ∧
    (let d : Dev := { hb with pend := [⟨R.MEM_FREQ_CTRL, 3, 1, .idle, 0, none⟩], ev := { hb.ev with elapsed := 2 } }; let e := d.dropPending F.MEM_FREQ_CTRL_RATE
     d.pendingOf F.MEM_FREQ_CTRL_RATE = some (1, 0) ∧ d.freqIdle = true ∧ d.memHeld = false ∧ d.hbm.deferred = none ∧ d.tripped = false ∧ 0 + 2 ≤ d.ev.elapsed ∧ ({ d.ev with elapsed := 1 } : Events).elapsed < 0 + 2 ∧ e.hbm.slice = none ∧ e.get F.MEM_FREQ_CTRL_RATE ≠ 1 ∧ e.get F.MEM_FREQ_CTRL_RATE = 0 ∧ e.hbm.trained.contains 1 = false ∧
     ({ e.hbm with trained := [1] } : Hbm).trained.contains 1 = true) ∧
    ((run0 id).ch 0).quiet = false ∧ (∀ c, (hb.ch c).quiet = true) ∧ 5 ∈ (ring 1 1).boundRings ∧ (ring 1 1).ringState 5 ≠ 0 ∧ hb.boundRings = [] ∧ (∀ f ∈ hb.fills.toList, f = none) ∧
    (let f := hb.fills.set (0 : Fin 8) (some ⟨0, 0, 64⟩); some ⟨0, 0, 64⟩ ∈ f.toList) ∧ hb.flag F.MEM_MAP_CTRL_REMAP = false := by
  decide +kernel

/-- RatesMapsAndTraining: RETRAIN of none, one and all; slices in each state. -/
theorem wit_retrain : hb.flag F.MEM_TRAIN_CMD_RETRAIN = false ∧ (hb.set F.MEM_TRAIN_CMD_RETRAIN 1).flag F.MEM_TRAIN_CMD_RETRAIN = true ∧ hb.flag F.MEM_TRAIN_CMD_ALL = false ∧ (hb.set F.MEM_TRAIN_CMD_ALL 1).flag F.MEM_TRAIN_CMD_ALL = true ∧
    (hb.set (F.MEM_PC_STAT_STATE 0) 3).pcState ((hb.set (F.MEM_PC_STAT_STATE 0) 3).get F.MEM_TRAIN_CMD_P) = 3 ∧ [hb.get F.MEM_TRAIN_CMD_P].filter (fun p => hb.pcState p < 2) ≠ [] ∧
    (let d := hb.set (F.MEM_PC_STAT_STATE 0) 2; [d.get F.MEM_TRAIN_CMD_P].filter (fun p => d.pcState p < 2) = [] ∧ d.pcState (d.get F.MEM_TRAIN_CMD_P) ≠ 3) ∧ d0.sliceReady = false ∧ (hb.set F.MGMT_STATUS_READY 1).sliceReady = true ∧ hb.hbm.due = [] ∧
    ({ hb.hbm with due := [0] } : Hbm).due = 0 :: [] ∧ hb.hbm.slices < 15 ∧ 15 ≤ ({ hb.hbm with slices := 15 } : Hbm).slices := by
  decide +kernel

/-- RatesMapsAndTraining: A change, a slice and a deferred change under way, and the ends of their times. -/
theorem wit_slices : (let d : Dev := { hb with hbm := { hb.hbm with newRate := some 1, slice := some (.passed, 3200), training := some (0, 0), deferred := some (1, true) } }
     d.memHeld = true ∧ d.hbm.changeEnd = none ∧ d.hbm.slice ≠ none ∧ d.hbm.training = some (0, 0) ∧ d.ev.elapsed < 3200 ∧ d.ev.elapsed < d.hbm.changeAt + 8000 ∧ d.hbm.reads = []) ∧
    hb.hbm.changeAt + 8000 ≤ ({ hb.ev with elapsed := 8000 } : Events).elapsed ∧ ({ hb.hbm with changeEnd := some 1 } : Hbm).changeEnd = some 1 ∧
    hb.nextSlice.isSome = true ∧ ({ hb with hbm := { hb.hbm with trained := [0, 1, 2] } } : Dev).nextSlice = none := by
  decide +kernel

/-- RatesMapsAndTraining: A REMAP that waited for a rate change, alone and with a queued one. -/
theorem wit_relock_timeout : (let e := hb.set F.MEM_MAP_CTRL_REMAP 1
      e.flag F.MEM_MAP_CTRL_REMAP = true ∧ e.memHeld = false ∧ e.hbm.slice = none ∧ e.remapNow.flag F.MEM_MAP_CTRL_PENDING = false ∧
      (e.set F.MEM_MAP_CTRL_PENDING 1).remapNow.flag F.MEM_MAP_CTRL_PENDING = true) := by
  dsimp only [Dev.flag]
  rw [Laws.remapNow_queued, Laws.remapNow_queued]
  decide +kernel

/-- RatesMapsAndTraining: The background training of a set not trained. -/
theorem wit_background : hb.nextTraining.isSome = true ∧ ({ hb with hbm := { hb.hbm with trained := [0, 1, 2] } } : Dev).nextTraining = none := by
  decide +kernel

/-- TheSamplePllAppliesAndLocks: APPLY running and not, in range and not, in COAST, LOCKED with a step of 50 ppm and more; a running slew and relock, overdue or not; windows at 4 cycles off and 5; the seventh and eighth. -/
theorem wit_sample_pll : d0.flag F.CLK_SPLL_CTRL_APPLY = false ∧ (d0.set F.CLK_SPLL_CTRL_APPLY 1).flag F.CLK_SPLL_CTRL_APPLY = true ∧ d0.spllInRange = false ∧
    (let d := ((d0.set F.CLK_REFIN_FREQ_KHZ 100000).set F.CLK_REFIN_FREQ_VALID 1).set F.CLK_SPLL_CFG_N 128
     d.spllInRange = true ∧ (d.set F.CLK_SPLL_STATUS_STATE 4).get F.CLK_SPLL_STATUS_STATE = 4 ∧ (d.set F.CLK_SPLL_STATUS_STATE 2).get F.CLK_SPLL_STATUS_STATE = 2 ∧ d.get F.CLK_SPLL_CFG_PRE_M1 + 1 = d.clk.lockPre ∧
     (let dist := max (stagedMult d - d.clk.lockMult) (d.clk.lockMult - stagedMult d); dist * 1000000 ≤ 50 * d.clk.lockMult) ∧
     (let e := d.set F.CLK_SPLL_CFG_N 129; 50 * e.clk.lockMult < max (stagedMult e - e.clk.lockMult) (e.clk.lockMult - stagedMult e) * 1000000)) ∧
    (∀ c, (d0.ch c).st = .idle) ∧ d0.get F.LINK_STATUS_STATE = 0 ∧ (lk 1 2).get F.LINK_STATUS_STATE ≠ 0 ∧ ({ d0.clk with apply := some (false, 0, 0) } : Clk).apply = some (false, 0, 0) ∧ (d0.set F.CLK_SPLL_STATUS_STATE 3).get F.CLK_SPLL_STATUS_STATE = 3 ∧
    d0.clk.apply = none ∧ ({ d0.clk with apply := some (true, 0, 0) } : Clk).apply = some (true, 0, 0) ∧ 0 + 100 * 400000 ≤ ({ d0.ev with elapsed := 40000000 } : Events).elapsed ∧ d0.ev.elapsed < 0 + 100 * 400000 ∧
    d0.flag F.CLK_SPLL_CTRL_PENDING = false ∧ (d0.set F.CLK_SPLL_CTRL_PENDING 1).flag F.CLK_SPLL_CTRL_PENDING = true ∧ d0.sourceDown 9 = false ∧ ({ d0 with clk := { d0.clk with down := 0x200 } } : Dev).sourceDown 9 = true ∧
    4194304 * 2 ^ 17 = d0.clk.mult ∧ (4194308 * 2 ^ 17 ≤ d0.clk.mult + 4 * 2 ^ 17) ∧ ¬(4194309 * 2 ^ 17 ≤ d0.clk.mult + 4 * 2 ^ 17) ∧ d0.clk.mult ≤ (4194300 + 4) * 2 ^ 17 ∧
    min 8 ((d0.set F.CLK_SPLL_STATUS_WINS 6).get F.CLK_SPLL_STATUS_WINS + 1) = 7 ∧ min 8 ((d0.set F.CLK_SPLL_STATUS_WINS 7).get F.CLK_SPLL_STATUS_WINS + 1) = 8 ∧ d0.clk.beyond = false ∧ up.bypassed = false ∧ d0.bypassed = true := by
  decide +kernel

/-- ClockSourcesAreLostAndReturn: Every state of the sample PLL; FERR at 20 ppm and past it; a coast at its limit; each source running and stopped; a legal SYS_PRE and both bounds. -/
theorem wit_clock_sources : (∀ st ∈ [0, 1, 2, 3, 4, 5, 6], (d0.set F.CLK_SPLL_STATUS_STATE st).get F.CLK_SPLL_STATUS_STATE = st) ∧ (-2000 ≤ (-2000 : W32).toInt) ∧ (2000 : W32).toInt ≤ 2000 ∧ (-2001 : W32).toInt < -2000 ∧ 2000 < (2001 : W32).toInt ∧
    d0.clk.pulling = false ∧ d0.clk.beyond = false ∧ up.bypassed = false ∧ d0.ev.elapsed < d0.clk.coastAt + 400000 * max 1 (d0.get F.CLK_MON_CFG_LOCK_TMO) ∧
    (let d := d0.set F.CLK_MON_CFG_LOCK_TMO 1; d.clk.coastAt + 400000 * max 1 (d.get F.CLK_MON_CFG_LOCK_TMO) ≤ ({ d.ev with elapsed := 400000 } : Events).elapsed) ∧
    (∀ i ∈ List.range 10, d0.sourceDown i = false ∧ (lost d0 i).sourceDown i = true ∧ (lost d0 i).flag ⟨R.CLK_LOSS, i, 1⟩ = true ∧ (lost d0 i).flag F.CLK_PLL_STATUS_SYS_COAST = false ∧ (back (lost d0 i) i).clk.sysRefin = false ∧
      (back ((lost d0 i).set F.CLK_PLL_STATUS_SYS_COAST 1) i).flag F.CLK_PLL_STATUS_SYS_COAST = true ∧ (back (lost d0 i) i).sourceDown i = false) ∧
    (∀ i ∈ List.range 9, d0.flag ⟨R.CLK_LOSS, i, 1⟩ = false) ∧ ({ d0.clk with sysRefin := true } : Clk).sysRefin = true ∧
    (d0.set F.CLK_SYS_CFG_SYS_PRE 0).get F.CLK_SYS_CFG_SYS_PRE = 0 ∧ (d0.set F.CLK_SYS_CFG_SYS_PRE 20).get F.CLK_SYS_CFG_SYS_PRE = 20 ∧ 20 < (d0.set F.CLK_SYS_CFG_SYS_PRE 21).get F.CLK_SYS_CFG_SYS_PRE ∧
    (let d := (d0.set F.CLK_PLL_STATUS_SYS_COAST 1).set F.CLK_MON_CFG_LOCK_TMO 1; d.flag F.CLK_PLL_STATUS_SYS_COAST = true ∧ (d.set F.CLK_PLL_STATUS_SYS_BYPASS 0).flag F.CLK_PLL_STATUS_SYS_BYPASS = false ∧ (d.set F.CLK_PLL_STATUS_SYS_BYPASS 1).flag F.CLK_PLL_STATUS_SYS_BYPASS = true ∧
      d.clk.sysCoastAt + 400000 * max 1 (d.get F.CLK_MON_CFG_LOCK_TMO) ≤ ({ d.ev with elapsed := 400000 } : Events).elapsed) ∧ d0.board.good = false ∧ ({ d0.board with good := true } : Board).good = true := by
  decide +kernel

/-- ClockSourcesAreLostAndReturn: A slew running and none; khz at 0 and past it; sources that wait for RESTART, running again and not. -/
theorem wit_restart : ({ d0.clk with apply := some (false, 5, 0) } : Clk).apply = some (false, 5, 0) ∧ d0.clk.apply = none ∧ ((1 : Nat) ≠ 0) ∧
    (lost d0 1).clk.stopped.getLsbD 1 = true ∧ d0.clk.stopped.getLsbD 1 = false ∧ (lost d0 7).clk.stopped.getLsbD 7 = true ∧ (lost d0 8).clk.stopped.getLsbD 8 = true ∧ (back (lost d0 8) 8).clk.stopped.getLsbD 8 = true ∧
    (back (lost d0 8) 8).sourceDown 8 = false ∧ (back (lost d0 3) 3).flag ⟨R.CLK_LOSS, 3, 1⟩ = true ∧ (d0.set F.CLK_SPLL_STATUS_STATE 6).get F.CLK_SPLL_STATUS_STATE = 6 ∧ d0.sourceDown 2 = false ∧
    (if ({ d0.clk with sysRefin := true } : Clk).sysRefin then d0.sourceDown 9 else d0.sourceDown 0) = false ∧ ({ d0.clk with pulling := true } : Clk).pulling = true ∧ ({ d0.clk with beyond := true } : Clk).beyond = true := by
  decide +kernel

/-- DividersAndDomainsFollowTheirEdges: A held divider with each edge source; a timeout at its limit; a pulse running and not; domains that may be gated, are busy, have a handshake running and overdue; clusters stopped and running. -/
theorem wit_dividers : (d0.set F.CLK_SPLL_STATUS_STATE 5).get F.CLK_SPLL_STATUS_STATE = 5 ∧ d0.clk.firstTick = none ∧ ({ d0.clk with firstTick := some 1 } : Clk).firstTick = some 1 ∧ d0.ev.elapsed < 1 ∧ (true = decide ((d0.set F.CLK_SYNC_CFG_SRC 1).get F.CLK_SYNC_CFG_SRC = 1)) ∧ d0.get F.CLK_SYNC_CFG_SRC ≠ 1 ∧ d0.get F.CLK_SPLL_STATUS_STATE ≠ 5 ∧
    ¬(d0.get F.LINK_STATUS_STATE = 1 ∧ d0.phaseNow = 3 ∧ d0.link.aligned = false) ∧
    (let d := (lk 0 1).set F.LINK_CMD_STATUS_PHASE 3; d.get F.LINK_STATUS_STATE = 1 ∧ d.phaseNow = 3 ∧ d.link.aligned = false ∧ d.flag F.LINK_CFG_ROLE = false ∧ d.get F.CLK_SPLL_STATUS_STATE ≠ 5) ∧
    (let d := d0.set F.CLK_SYNC_CFG_SYNC_TMO 1; d.clk.waitAt + 40000 * max 1 (d.get F.CLK_SYNC_CFG_SYNC_TMO) ≤ ({ d.ev with elapsed := 40000 } : Events).elapsed ∧ d.ev.elapsed < d.clk.waitAt + 40000 * max 1 (d.get F.CLK_SYNC_CFG_SYNC_TMO)) ∧
    up.ev.started = true ∧ d0.ev.started = false ∧ d0.clk.pulse = none ∧ ({ d0.clk with pulse := some 1 } : Clk).pulse.isSome = true ∧ (d0.set F.CLK_SYNC_CFG_OUT 2).get F.CLK_SYNC_CFG_OUT = 2 ∧ (d0.set F.CLK_SPLL_STATUS_MUTED 0).flag F.CLK_SPLL_STATUS_MUTED = false ∧ (d0.set F.CLK_SPLL_STATUS_MUTED 1).flag F.CLK_SPLL_STATUS_MUTED = true ∧
    (let d : Dev := { (up.set F.TELEM_PWR_CL_GATED 1).setRuns 7 true with ev := { up.ev with elapsed := 100000000 } }; d.runs 7 = true ∧ d.domainIdle 7 = true ∧ d.clk.gates = []) ∧ (up.setRuns 7 false).runs 7 = false ∧ (((up.set F.TELEM_PWR_CL_GATED 1).setRuns 7 true).modCh 0 fun x => { x with st := .run }).domainIdle 7 = false ∧
    (let g : List (Nat × Nat) := [(7, 0)]; g.find? (·.1 = 7) = some (7, 0) ∧ ((7, 0) : Nat × Nat) ∈ g ∧ (512 - 1 : Nat) < 0 + up.gateLimit 7 ∧ 0 + up.gateLimit 7 ≤ 512) ∧ up.clk.gates.find? (·.1 = 7) = none ∧ d0.flag F.CLK_GATE_ERR_VALID = false ∧ (d0.set F.CLK_GATE_ERR_VALID 1).flag F.CLK_GATE_ERR_VALID = true ∧
    d0.stage < 3 ∧ 3 ≤ up.stage := by
  decide +kernel

/-- The device with version word `v` in the header of image slot A, and MAGIC word `m` in a header in slot B. -/
def Sys2Proof.Tests.img (v m : Nat) : Dev :=
  (d0.flashPut (imageAt false + 8) (leBytes 4 v)).flashPut (imageAt true) (leBytes 4 m ++ leBytes 4 0x00010001 ++ leBytes 4 0x200000 ++ leBytes 4 1044464)

/-- StartUpAdvancesStageByStage: Two slots whose headers hold, B with the higher VERSION and a mask that allows the state, A with one that does not; a die not too hot. -/
theorem wit_boot : (let d := img 0 0x574B4653
      (∀ b ∈ [false, true], d.slotWord b 0 = 0x574B4653 ∧ d.slotWord b 1 = 0x10001 ∧ d.slotWord b 3 ≤ 1044464 ∧ d.get F.SEC_LC_MIN_SVN ≤ d.slotWord b 2 / 2 ^ 24) ∧
      d.firstSlot = true ∧ d.slotWord true 2 / 2 ^ (20 + d.get F.SEC_LC_STATE) % 2 = 1 ∧ d.slotWord false 2 / 2 ^ (20 + d.get F.SEC_LC_STATE) % 2 = 0) ∧
    (img 0x200000 0).firstSlot = false ∧ (img 0 0).slotVerifies true = false ∧ d0.hot = false := by
  decide +kernel

/-- StartUpAdvancesStageByStage: a slot whose header, lifecycle mask and signature hold boots. Whether a signature verifies is a free value (log entry 11), so it stands as a hypothesis. -/
theorem wit_boots (d : Dev) (h : d.slotVerifies d.firstSlot = true) (hl : d.slotWord d.firstSlot 2 / 2 ^ (20 + d.get F.SEC_LC_STATE) % 2 = 1) : d.bootSlot = some d.firstSlot := by
  unfold Dev.bootSlot Dev.slotBoots
  rw [List.find?_cons_of_pos]
  rw [h, hl]; rfl

/-- StartUpAdvancesStageByStage: Every stage, stopped and not; a good and a bad supply; the ends of each pulse length; the stop codes at the ends of their ranges; Reckoner ready and not, with RESTART and another command. -/
theorem wit_start_up : d0.board.good = false ∧ ({ d0.board with good := true } : Board).good = true ∧ 99 < 100 ∧ 100 ≤ 999 ∧ 999 < 1000 ∧ (∀ c, (d0.cal c).saving = none) ∧ d0.flag F.DEV_STAGE_STOPPED = false ∧ (d0.set F.DEV_STAGE_STOPPED 1).flag F.DEV_STAGE_STOPPED = true ∧
    (∀ n ∈ List.range 6, (d0.set F.DEV_STAGE_STAGE n).stage = n ∧ (d0.set F.DEV_STAGE_STAGE n).flag F.DEV_STAGE_STOPPED = false) ∧ d0.clk.aon = false ∧ ({ d0.clk with aon := true } : Clk).aon = true ∧ d0.hot = false ∧
    up.get F.CLK_SPLL_STATUS_STATE = 2 ∧ up.ev.counting = true ∧ d0.get F.CLK_SPLL_STATUS_STATE ≠ 2 ∧ d0.ev.counting = false ∧ (1 : BitVec 128).getLsbD 0 = true ∧ up.pcState 0 ≠ 3 ∧ (∀ p ∈ List.range 128, (0 : BitVec 128).getLsbD p = false) ∧
    (∀ p ∈ [(1, 0x10), (1, 0x13), (2, 0x20), (2, 0x23), (3, 0x30), (3, 0x31)], (p.1 = 1 ∧ ((BitVec.ofNat 8 p.2).toNat = 0x10 ∨ (BitVec.ofNat 8 p.2).toNat = 0x13)) ∨ (p.1 = 2 ∧ 0x20 ≤ (BitVec.ofNat 8 p.2).toNat ∧ (BitVec.ofNat 8 p.2).toNat ≤ 0x23) ∨
      (p.1 = 3 ∧ ((BitVec.ofNat 8 p.2).toNat = 0x30 ∨ (BitVec.ofNat 8 p.2).toNat = 0x31))) ∧ ¬((0x11 : BitVec 8).toNat = 0x10 ∨ (0x11 : BitVec 8).toNat = 0x13) ∧
    up.flag F.SEC_BOOT_OTHER_DONE = false ∧ (up.set F.SEC_BOOT_OTHER_DONE 1).flag F.SEC_BOOT_OTHER_DONE = true ∧ up.flag F.MGMT_STATUS_READY = false ∧ (up.set F.MGMT_STATUS_READY 1).flag F.MGMT_STATUS_READY = true ∧ up.mgmt.cmd = none ∧
    (∀ op ∈ [4, 1], ({ up.mgmt with cmd := some (op, []) } : Mgmt).cmd = some (op, [])) := by
  decide +kernel

/-- MailboxCommandsEndWithTheirRecord: The mailbox with the matching command, another one and none; a GO that is taken and one that is rejected; the queue behind a record. -/
theorem wit_mailbox : ({ up.mgmt with cmd := some (0x10, [2]) } : Mgmt).cmd = some (0x10, [2]) ∧ ((([2] : List W32).headD 0).toNat % 4 = 2) ∧ (([1] : List W32).headD 0).toNat % 4 ≠ 2 ∧ (1 : Nat) ≠ 0x10 ∧ up.mgmt.cmd = none ∧
    (let s := up.set F.MGMT_STATUS_READY 1; let e := ((s.wr (R.MGMT_ARG 0) (BitVec.ofNat 32 (0 / 4 * 4 + 2))).wr (R.MGMT_ARG 1) 1 |>.set F.MGMT_CMD_OP 0x10).mgmtTake; s.mgmt.cmd = none ∧ (s.rd (R.MGMT_ARG 0)).toNat = 0 ∧ (e.mgmt.cmd.map (·.1)) = some 0x10) ∧
    (((up.wr (R.MGMT_ARG 0) 0).set F.MGMT_CMD_OP 0x3F).mgmtTake.mgmt.cmd = none) ∧ (([0, 0, 1] : List W32).getD 2 0).toNat % 2 = 1 ∧ (([0, 0, 0] : List W32).getD 2 0).toNat % 2 ≠ 1 := by
  decide +kernel

/-- SecurityCommandsAndBoardPorts: Security commands before and from Stage B, confirmed and not, on the last root, a revoked and an unprogrammed one; SMBus at STAGE 0 and later; ALERT; test-port opcodes. -/
theorem wit_security_ports : d0.stage < 2 ∧ 2 ≤ up.stage ∧ ((up.set F.SEC_CMD_OP 2).set F.SEC_CMD_CONFIRM 0x5C4A).get F.SEC_CMD_CONFIRM = 0x5C4A ∧ (up.set F.SEC_CMD_OP 2).get F.SEC_CMD_CONFIRM ≠ 0x5C4A ∧
    up.sec.roots[(1 : Fin 4)] = 0 ∧ up.sec.roots[(0 : Fin 4)] ≠ 0 ∧ up.sec.revoked.getLsbD 0 = false ∧ (∀ q : Fin 4, q ≠ 0 → up.sec.roots[q] = 0 ∨ up.sec.revoked.getLsbD q = true) ∧
    (let s : Sec := { up.sec with roots := up.sec.roots.set (1 : Fin 4) 5 }; s.roots[(0 : Fin 4)] ≠ 0 ∧ ∃ q : Fin 4, q ≠ 0 ∧ s.roots[q] ≠ 0 ∧ s.revoked.getLsbD q = false) ∧ d0.stage = 0 ∧ up.stage ≠ 0 ∧ up.smbServes R.DEV_PROFILE = true ∧ (up.set F.DEV_STAGE_STAGE 1).smbServes R.EVT_CTRL = false ∧
    up.alert = false ∧ (up.set F.LINK_IRQ_STATUS_BREAK 1).alert = true ∧ (up.set F.LINK_IRQ_STATUS_BREAK 1).stage ≠ 0 ∧ (0xD2 : Byte) ≠ 0xD3 ∧
    (3 : BitVec 8).toNat ∉ [0, 1, 2, 4, 5, 6, 7, 0xFF] ∧ (0 : BitVec 8).toNat ∈ [0, 1, 2, 4, 5, 6, 7, 0xFF] ∧ (up.set F.SEC_DBG_CTRL_JTAG 1).flag F.SEC_DBG_CTRL_JTAG = true ∧ up.flag F.SEC_DBG_CTRL_JTAG = false ∧
    up.board.rails = true ∧ d0.board.rails = false ∧ ({ up.board with jtag := 0 } : Board).pinsTaken = true ∧ up.board.pinsTaken = false := by
  decide +kernel

/-- RotationChecksAndSwaps: A check at its end, just before, and before it begins; a first failure and a second; a STANDBY and a CAL sub-DAC under check, with rotation and without; a good result at its bounds and past them. -/
theorem wit_rotation : (let d : Dev := { ((up.setRuns 19 true).set F.CLK_PLL_STATUS_SYS_BYPASS 0).setRole 0 17 1 with ev := { up.ev with elapsed := 20000 } }
      (d.cal 0).run = none ∧ (d.cal 0).swapDue = none ∧ d.runs (19 + chiplet 0) = true ∧ d.flag F.CLK_PLL_STATUS_SYS_BYPASS = false ∧ d.underCheck 0 = some 17 ∧ d.checkStart 0 17 ≤ d.ev.elapsed ∧ d.checkStart 0 17 + 20000 ≤ d.ev.elapsed ∧
      up.ev.elapsed < d.checkStart 0 17 + 20000 ∧ d.role 0 17 = 1 ∧ (d.cal 0).failedOnce ≠ some 17 ∧ ((failedOnce d 0 (some 17)).cal 0).failedOnce = some 17 ∧
      ({ d with cals := d.cals.set 0 { d.cals[0] with stepAt := 20001 } } : Dev).checkStart 0 17 > 20000) ∧
    (up.setRuns 19 false).runs (19 + chiplet 0) = false ∧ (swapDue up 0 (some 17)).cals[0].swapDue = some 17 ∧ (up.setRole 0 17 2).role 0 17 ≠ 1 ∧
    (up.set (F.CH_DAC_CTRL_ROT 0) 0).flag (F.CH_DAC_CTRL_ROT 0) = false ∧ (up.set (F.CH_DAC_CTRL_ROT 0) 1).flag (F.CH_DAC_CTRL_ROT 0) = true ∧
    popcount (0xFFFFFFFFFFFFFFFF : BitVec 80) = 64 ∧ popcount (0xFFFFFFFFFFFFFFF : BitVec 80) ≠ 64 ∧ (16 : BitVec 16).toNat ≤ 16 ∧ 16 < (17 : BitVec 16).toNat := by
  decide +kernel

/-- RotationChecksAndSwaps: A tick at a frame boundary and one between, with no swap due, a swap due, and a vacant position; a STANDBY to take over and none; rotation off; a victim; two codes in order. -/
theorem wit_swaps : (up.cal 0).vacant = [] ∧ ((vacant up 0 [3]).cal 0).vacant = [3] ∧ (up.cal 0).swapDue = none ∧ ((swapDue up 0 (some 17)).cal 0).swapDue = some 17 ∧ up.ev.dt.toNat % (16 / up.spt 0) = 0 ∧
    (1 : Tick).toNat % (16 / (up.set (rateFld 0) 2).spt 0) ≠ 0 ∧
    (up.set (F.CH_DAC_STATUS_ROT_ACTIVE 0) 0).flag (F.CH_DAC_STATUS_ROT_ACTIVE 0) = false ∧ (up.set (F.CH_DAC_STATUS_ROT_ACTIVE 0) 1).flag (F.CH_DAC_STATUS_ROT_ACTIVE 0) = true ∧
    ((up.setRole 0 17 2).inRole 0 2).isSome = true ∧ ((List.range 18).foldl (fun d u => d.setRole 0 u 0) up).inRole 0 2 = none ∧ ((List.range 18).foldl (fun d u => d.setRole 0 u 0) up |>.victim 0).isSome = true ∧
    (up.setRole 0 17 3).role 0 17 = 3 ∧ (0x800 : BitVec 12).toInt ≤ (0x7FF : BitVec 12).toInt := by
  decide +kernel

/-- CalibrationRunsStartAndEnd: A run that may start and one that may not; a run at its end and before it; abort reasons 0, 1, 6 and 7; a sensor 1 °C off and 1/16 °C more; RUN and SAVE with each queue, with a record write running and none. -/
theorem wit_calibration_runs : d0.runMayStart 0 .idle = false ∧ (up.modCh 0 fun x => { x with calWin := some (0, 1) }).runMayStart 0 .window = true ∧ (d0.cal 0).run = none ∧ ({ d0.cal 0 with run := some (.window, 0) } : Cal).run = some (.window, 0) ∧ d0.ev.elapsed < 0 + 48000 ∧ 0 + 48000 ≤ ({ d0.ev with elapsed := 48000 } : Events).elapsed ∧
    (0 : BitVec 4).toNat = 0 ∧ 1 ≤ (1 : BitVec 4).toNat ∧ (6 : BitVec 4).toNat ≤ 6 ∧ 7 ≤ (7 : BitVec 4).toNat ∧ d0.flag (F.CH_CAL_CTRL_RUN 0) = false ∧ (d0.set (F.CH_CAL_CTRL_RUN 0) 1).flag (F.CH_CAL_CTRL_RUN 0) = true ∧
    d0.flag (F.CH_CAL_CTRL_PENDING 0) = false ∧ (d0.set (F.CH_CAL_CTRL_PENDING 0) 1).flag (F.CH_CAL_CTRL_PENDING 0) = true ∧ d0.flag (F.CH_CAL_CTRL_SAVE 0) = false ∧ (d0.set (F.CH_CAL_CTRL_SAVE 0) 1).flag (F.CH_CAL_CTRL_SAVE 0) = true ∧
    ((d0.set (F.TELEM_TEMP_VALID 0) 1).set (F.TELEM_TEMP_VALUE 0) 17).tempValid 0 = true ∧ 16 < tempMove (((d0.set (F.TELEM_TEMP_VALID 0) 1).set (F.TELEM_TEMP_VALUE 0) 17).tempWord 0) (d0.cal 0).runTemp ∧
    ¬(16 < tempMove (((d0.set (F.TELEM_TEMP_VALID 0) 1).set (F.TELEM_TEMP_VALUE 0) 16).tempWord 0) (d0.cal 0).runTemp) ∧ (d0.cal 0).saving = none ∧ ({ d0.cal 0 with saving := some [] } : Cal).saving.isSome = true := by
  decide +kernel

/-- CalibrationIsDueAndRecorded: A comparison 1 ms after the last and before; a barred run whose temperature has moved and one whose has not; FORCE_DUE set and not; a record write that is good, the second and the third that fail; a deferred write that may begin and one that may not. -/
theorem wit_calibration_due : (let d := (d0.set (F.TELEM_TEMP_VALID 0) 1); (d0.cal 0).barred = none ∧ ({ d0.cal 0 with barred := some 0 } : Cal).barred = some 0 ∧ d.tempValid 0 = true ∧ d0.tempValid 0 = false) ∧ d0.calDelta 0 < tempMove 0x1000 0 ∧ ¬(d0.calDelta 0 < tempMove 0 0) ∧
    d0.ev.elapsed < (d0.cal 0).compAt + 400000 ∧ (d0.cal 0).compAt + 400000 ≤ ({ d0.ev with elapsed := 400000 } : Events).elapsed ∧
    (d0.set (F.CH_CAL_CTRL_CAL_FORCE 0) 0).get (F.CH_CAL_CTRL_CAL_FORCE 0) = 0 ∧ (let f := (((d0.set (F.CH_CAL_CTRL_CAL_FORCE 0) 1).set (F.TELEM_TEMP_VALID 0) 1).set (F.TELEM_TEMP_VALUE 0) 0x1000 |>.modCal 0 fun x => { x with dueKept := true, outs := Vector.replicate 3 ⟨0, 0, 0, true, 0⟩ }).dueSync 0
     f.get (F.CH_CAL_CTRL_CAL_FORCE 0) ≠ 0 ∧ f.flag (F.CH_CAL_STATUS_DUE 0) = true ∧ f.tempMoved 0 (16 * f.get (F.CH_CAL_CTRL_CAL_FORCE 0)) = true ∧ f.flag (F.CH_CAL_STATUS_FORCE_DUE 0) = false ∧ (f.set (F.CH_CAL_STATUS_FORCE_DUE 0) 1).flag (F.CH_CAL_STATUS_FORCE_DUE 0) = true) ∧
    (d0.cal 0).saving = none ∧ ({ d0.cal 0 with saving := some [1] } : Cal).saving = some [1] ∧ d0.flag F.MGMT_STATUS_READY = false ∧ (d0.set F.MGMT_STATUS_READY 1).flag F.MGMT_STATUS_READY = true ∧ ({ d0.cal 0 with fails := 1 } : Cal).fails < 2 ∧ 2 ≤ ({ d0.cal 0 with fails := 2 } : Cal).fails ∧
    d0.flag (F.CH_CAL_MTP_DEFERRED 0) = false ∧ (d0.set (F.CH_CAL_MTP_DEFERRED 0) 1).flag (F.CH_CAL_MTP_DEFERRED 0) = true ∧
    ((d0.cal 0).lastWrite.all fun t => t + 400000000 * max 60 (d0.get (F.CH_CAL_MTP_MTP_MIN 0)) ≤ d0.ev.elapsed) = true ∧
    ((some 0 : Option Nat).all fun t => t + 400000000 * max 60 (d0.get (F.CH_CAL_MTP_MTP_MIN 0)) ≤ d0.ev.elapsed) = false := by
  decide +kernel

/-- RangesAndRatesChangeInIdle: A pending range and rate, new and as in force, before their point, with the channel running and idle; a change at its end and before. -/
theorem wit_ranges_rates : up.pendingOf (F.CH_DAC_CTRL_RANGE 0) = none ∧ ({ up with pend := [⟨R.CH_DAC_CTRL 0, (F.CH_DAC_CTRL_RANGE 0).mask, 2, .idle, 0, none⟩] } : Dev).pendingOf (F.CH_DAC_CTRL_RANGE 0) = some (2, 0) ∧ (up.ch 0).st = .idle ∧ up.ev.elapsed < 0 + 2 ∧ 0 + 2 ≤ ({ up.ev with elapsed := 2 } : Events).elapsed ∧ up.flag (F.CH_DAC_STATUS_RANGING 0) = false ∧
    up.get (F.CH_DAC_CTRL_RANGE 0) ≠ 2 ∧ (up.set (F.CH_DAC_CTRL_RANGE 0) 2).get (F.CH_DAC_CTRL_RANGE 0) = 2 ∧ (up.set (F.CH_DAC_STATUS_RANGING 0) 1).flag (F.CH_DAC_STATUS_RANGING 0) = true ∧ (up.cal 0).rangeEnd ≤ up.ev.elapsed ∧ up.ev.elapsed < ({ up.cal 0 with rangeEnd := 1 } : Cal).rangeEnd ∧
    up.pendingOf (rateFld 0) = none ∧ ({ up with pend := [⟨(rateFld 0).addr, (rateFld 0).mask, 2, .idle, 0, none⟩] } : Dev).pendingOf (rateFld 0) = some (2, 0) ∧ (∀ c, (up.ch c).st = .idle) ∧ up.flag (rateBusy 0) = false ∧ (up.set (rateBusy 0) 1).flag (rateBusy 0) = true ∧ up.get (rateFld 0) ≠ 2 ∧
    (up.set (rateFld 0) 2).get (rateFld 0) = 2 ∧ up.rateEnd[(0 : Fin 4)] ≤ up.ev.elapsed ∧ up.ev.elapsed < (up.rateEnd.set (0 : Fin 4) 1)[(0 : Fin 4)] ∧ ((run0 id).ch 0).st ≠ .idle ∧ chiplet 0 = (0 : Fin 4).val := by
  decide +kernel

/-- SensorsConvertAndTrip: Readings at and past each bound; a sensor of each group; a run whose sensor has moved and one whose has not; TRIP before and after. -/
theorem wit_sensors : d0.stage = 0 ∧ up.stage ≠ 0 ∧ (19 : Fin 40).val < 20 ∧ 20 ≤ (20 : Fin 40).val ∧ (23 : Fin 40).val < 24 ∧ 24 ≤ (24 : Fin 40).val ∧ (-880 ≤ (-880 : BitVec 16).toInt) ∧ (-881 : BitVec 16).toInt < -880 ∧ (2400 : BitVec 16).toInt ≤ 2400 ∧ 2400 < (2401 : BitVec 16).toInt ∧
    (BitVec.ofNat 16 (up.get F.TELEM_PEAK_VALUE)).toInt < (2400 : BitVec 16).toInt ∧ (-880 : BitVec 16).toInt ≤ (BitVec.ofNat 16 ((up.set F.TELEM_PEAK_VALUE 5).get F.TELEM_PEAK_VALUE)).toInt ∧ up.get F.TELEM_THERM_LEVEL ≠ 3 ∧ (up.set F.TELEM_THERM_LEVEL 3).get F.TELEM_THERM_LEVEL = 3 ∧
    (up.cal 0).run = none ∧ ({ up.cal 0 with run := some (.idle, 0) } : Cal).run.isSome = true ∧ up.tempSlewed 0 = false ∧ ((up.set (F.TELEM_TEMP_VALID 0) 1).set (F.TELEM_TEMP_VALUE 0) 17).tempSlewed 0 = true := by
  decide +kernel

/-- VoltageReadingsRaiseOnlyTheirFlags: A reading at each limit of its rail and one past each. -/
theorem wit_voltages : (let d := (((up.set (F.TELEM_VOLT_VALID 0) 1).set (F.TELEM_VLIM_LO 0) 100).set (F.TELEM_VLIM_HI 0) 200)
      up.stage ≠ 0 ∧ decide ((100 : BitVec 16).toNat < d.get (F.TELEM_VLIM_LO 0)) = false ∧ decide ((99 : BitVec 16).toNat < d.get (F.TELEM_VLIM_LO 0)) = true ∧ decide (d.get (F.TELEM_VLIM_HI 0) < (200 : BitVec 16).toNat) = false ∧ decide (d.get (F.TELEM_VLIM_HI 0) < (201 : BitVec 16).toNat) = true) := by
  decide +kernel

/-- StepRunsTheFrontCommand: A queue with a command at its front, and an empty one. -/
theorem wit_step : (⟨d0, [.tick, .abacusGo]⟩ : State).pending = .tick :: [.abacusGo] ∧ State.reset.pending = [] := by
  decide +kernel

/-- EveryStepKeepsTheSummarySeen, EveryStepContinues: The reset state meets what the step statements ask, and a step from it answers a next state; a private opcode is refused. -/
theorem wit_steps : Safe.seen State.reset ∧ (∃ t, step State.reset = .next t) ∧
    exec (.jtagInstruction 3) (at_ (up.set F.SEC_DBG_CTRL_JTAG 1)) = .refused .privateJtag := by
  exact ⟨by show State.reset.dev.msix.seen = State.reset.dev.summary; decide +kernel, ⟨_, rfl⟩, rfl⟩

/-- InstructionsAreHeldBack: a row that schedules, one that places an action, a span of no ticks, which does neither; a word that fits and one that does not. -/
theorem wit_rows : schedules ((run0 id).ch 0) (.waitImm 0 0 0 1) ∧ placesAction ((run0 id).ch 0) (.mark 0 0 0 0) ∧ ¬placesAction ((run0 id).ch 0) (.playn 0 0 0 0) ∧
    ¬schedules ((run0 id).ch 0) (.nop 0 0 0 0) ∧ encFits (.nop 0 0 0 0) ∧ ¬encFits (.nop 0 1 0 0) :=
  ⟨trivial, trivial, fun h => h (by decide +kernel), id, ⟨rfl, rfl, rfl⟩, fun h => absurd h.1 (by decide)⟩

/-- PlainControlAndLoopsMoveThePc: a LOOP and a last ENDL at 32,767, an ENDL whose loop starts at 32,768. -/
theorem wit_loop_edges : (let d := run0 fun x => { x with pc := 32767 }
      may d 0 (mkWord 0x06 0 0 0x10000) = true ∧ BeyondAlone d 0 { d.ch 0 with l := (d.ch 0).l.setIfInBounds 0 1, loops := [32768] }) ∧
    (let d := run0 fun x => { x with pc := 32767, loops := [1], l := x.l.set 0 1 }
     may d 0 (mkWord 0x07 0 0 0) = true ∧ BeyondAlone d 0 { d.ch 0 with l := (d.ch 0).l.setIfInBounds 0 0, loops := [] }) ∧
    (let d := run0 fun x => { x with loops := [32768], l := x.l.set 0 2 }
     may d 0 (mkWord 0x07 0 0 0) = true ∧ BeyondAlone d 0 { d.ch 0 with l := (d.ch 0).l.setIfInBounds 0 1 }) := by
  unfold BeyondAlone
  decide +kernel

/-- What a ring row asks of a device: that its word may issue and names slot `n`. -/
def Sys2Proof.Tests.ringRow (d : Dev) (i : Instr) (n : Nat) : Bool :=
  match ringUse d i with
  | some (c, w, slot, _, _, _) => c = 0 && may d 0 w && slot = n
  | none => false

/-- RingInstructionsConsumeWaitOrFault: every ring row, with slot 0 and slot 8,192; a record ready and not in the buffer; a poisoned one in it. -/
theorem wit_ring_rows : (∀ i ∈ [Instr.pop 0 0 0 0, .popLedger 0 0 0 0, .peek 0 0 0 0, .rdy 0 0 0 0, .ack 0 0 0 0, .playgRing 0 0 0 0x4000], ringRow (ring0 1 1 1 [rec0]) i 0 = true) ∧
    (let d := run0 fun x => { x with g := x.g.set 0 8192 }
     (∀ i ∈ [Instr.pop 0 0 0 0x2000, .popLedger 0 0 0 0x2000, .peek 0 0 0 0x2000, .rdy 0 0 0 0x2000, .ack 0 0 0 0x2000, .playgRing 0 0 0 0x8000], ringRow d i 8192 = true) ∧
     d.wakeCaravan = d ∧ d.probeSlot 0 8192 = d) ∧
    (ring0 1 1 1 [rec0]).wakeCaravan = ring0 1 1 1 [rec0] ∧ (ring0 1 1 1 []).ready 0 = 1 ∧ ((ring0 1 1 1 []).nameSlot 0 0).headCopy 0 0 = none ∧
    (((ring0 1 1 1 [{ rec0 with poison := some 5 }]).nameSlot 0 0).headCopy 0 0).map (·.poison) = some (some 5) := by
  decide +kernel

/-- HeldInstructionsEndOrTimeOut: an instruction held under each STALL that is not its command's; none held, in RUN and after the run. -/
theorem wit_held_others : (∀ st ∈ [Stall.none, .runahead, .queueFull, .ring, .decision, .event], ∃ u ∈ [Stall.none, .runahead], ((run0 fun x => { x with stall := st }).ch 0).stall ≠ u) ∧
    ((run0 id).ch 0).held = none ∧ (let ch := (run0 fun x => { x with st := .faulted, held := some 0 }).ch 0; ch.quiet = true ∧ ch.held ≠ none) ∧
    ((run0 fun x => { x with st := .idle, held := some 0 }).ch 0).lateFault 0 = false ∧
    (let d := (ring0 1 1 0 []).modCh 0 fun x => { x with held := some (mkWord 0x90 0 0 (withBit 0 18 false)), stall := .ring, ringWait := 9 }
     (ringUse d (.pop 0 0 0 0)).isSome = true ∧ d.ready 0 < 1 ∧ d.ringOfSlot 0 0 = some 0 ∧ (d.ch 0).quiet = false ∧ ((d.set (F.CH_SEQ_RING_TMO_TMO 0) 9).get (F.CH_SEQ_RING_TMO_TMO 0) ≤ (d.ch 0).ringWait)) := by
  decide +kernel

/-- ActionsTakeEffectAtTheirTick: an action that is due behind one that is not; two due at once; a Ledger record of no entry and of two. -/
theorem wit_take_effect_more : (let ch := (run0 fun x => { x with dispatched := [⟨1, .irq⟩, ⟨0, .irq⟩] }).ch 0
      ch.dispatched = [⟨1, .irq⟩] ++ ⟨0, .irq⟩ :: [] ∧ ∀ b ∈ ([⟨1, .irq⟩] : List TAct), notAfter b.tick (run0 id).ev.dt = false) ∧
    (∀ a ∈ [Act.ledger [], .ledger [(1, Slot.zero), (1, Slot.zero)]], ((run0 fun x => { x with dispatched := [⟨0, a⟩] }).ch 0).dispatched = [⟨0, a⟩]) := by
  decide +kernel

/-- Channel 0 in RUN with a play of table index 0 at tick 31 in its queue; the descriptor's first word is `w`. -/
def Sys2Proof.Tests.tab0 (w : Byte) (f : Chan → Chan) : Dev :=
  { (run0 fun x => f { x with queue := [⟨31, .play (.table 0) 7⟩] }) with mem := { (run0 id).mem with segtab := (run0 id).mem.segtab.write 0 [w] } }

/-- ActionsAreDispatchedAndChecked: a table play whose descriptor passes every check, one that fails one, with a hint that differs and without. -/
theorem wit_dispatch_table : (∀ w ∈ ([1, 0, 9] : List Byte), let d := (tab0 w id).setCh 0 { (tab0 w id).ch 0 with queue := [] }
      d.touchDesc 0 0 = d ∧ (d.hintAt 0 0).isSome = true ∧ d.panicCheck 0 = d ∧ (let e := d.noteHint 0 7 (d.descAt 0 0); e.probeStream 0 (d.descAt 0 0) (some 0) = e)) ∧
    (∀ n, ¬SegCause (tab0 1 id) 0 ((tab0 1 id).descAt 0 0) n) ∧ SegCause (tab0 0 id) 0 ((tab0 0 id).descAt 0 0) 1 ∧ SegCause (tab0 9 id) 0 ((tab0 9 id).descAt 0 0) 3 ∧
    HintDiffers ((tab0 1 fun x => { x with fetches := [⟨7, ⟨9, 0, 0, 0⟩, none, 0, 0⟩] }).ch 0) 7 ((tab0 1 id).descAt 0 0) ∧ ¬HintDiffers ((tab0 1 id).ch 0) 7 ((tab0 1 id).descAt 0 0) := by
  refine ⟨by decide +kernel, (Laws.seg_check _ _ _).2 (by decide +kernel), ((Laws.seg_check _ _ _).1 1 (by decide +kernel)).1, ((Laws.seg_check _ _ _).1 3 (by decide +kernel)).1, ⟨⟨7, ⟨9, 0, 0, 0⟩, none, 0, 0⟩, by decide +kernel⟩, ?_⟩
  rintro ⟨f, h, -⟩
  exact absurd (h.symm.trans (by decide +kernel : _ = none)) (by simp)

/-- BlocksAreCommittedInTime: a pinned block whose words are sound; one whose first word reads bad; an arrived block with a poison mark; a play that has ended. -/
theorem wit_blocks_segment : (let p : SegPlay := ⟨⟨1, 0, 0, 0⟩, 0, 0, none, false, none⟩
      BlockLies (run0 id) 0 p 0 [(0, 128)] [] ∧ 0 < p.d.len ∧ p.d.len ≤ 1 ∧ ¬Buffered p 0 ∧ (∀ r ∈ wordsOf [(0, 128)], (run0 id).mem.oasis.bad (oasisAt (clu 0) r) = false) ∧
      (wordsOf [(0, 128)]).find? (fun r => (⟨[], [], [0], []⟩ : Store).bad (oasisAt (clu 0) r)) = some 0) ∧
    (let p : SegPlay := ⟨⟨0x109, 0, 0, 0⟩, 0, 0, none, true, none⟩
     let ch := (run0 fun x => { x with stage := [⟨0, 0, 128, [0, 1, 2, 3], 0, true, some 3⟩] }).ch 0
     Buffered p 0 ∧ (ch.staged p 0).map (·.poison) = some (some 3)) := by
  refine ⟨⟨Or.inl ⟨by decide, by decide, by decide⟩, by decide, by decide, fun h => absurd h.1 (by decide), by decide +kernel, by decide +kernel⟩, ⟨by decide, fun h e => by cases e⟩, by decide +kernel⟩

/-- EveryStepKeepsTheCanonicalForm, EveryStepKeepsTheBounds, ResetLeavesTheStatedState: The reset state has the canonical form and keeps the bounds; a step from it answers a next state. -/
theorem wit_kept : Safe.canonical State.reset.dev = true ∧ Bounded State.reset.dev ∧ step State.reset = .next State.reset := by
  refine ⟨by decide +kernel, fun c x h => ?_, rfl⟩
  have k : x = Chan.reset := h.trans ((by decide +kernel : ∀ c, State.reset.dev.ch c = Chan.reset) c)
  subst k
  exact ⟨by decide, by decide, by decide, fun k => by simp [Chan.reset]⟩

/-- HostWritesOfAChannelNeedItsState: NcoOpen in each of its forms and not; an FIR bank named by a pending BANK value. -/
theorem wit_open : (∀ f ∈ [(fun x => x : Chan → Chan), fun x => { x with st := .faulted }, fun x => { x with st := .halted }], NcoOpen ((ch0 f).ch 0) 1) ∧
    (∀ f ∈ [(fun x => { x with st := .faulted, holds := [(0, 32)] } : Chan → Chan), fun x => { x with st := .halted, sc := 1 }, fun x => { x with st := .run }], ¬NcoOpen ((ch0 f).ch 0) 1) ∧
    (let d : Dev := { run0 id with pend := [⟨R.CH_FIR_CTRL 0, 1, 1, .tick, 0, none⟩] }
     ∃ p ∈ d.pend, p.addr = R.CH_FIR_CTRL 0 ∧ p.mask.getLsbD 0 = true ∧ (if p.val.getLsbD 0 then 1 else 0) = (1 : Fin 2).val) ∧ ((run0 id).wakeCluster 0).pend = [] := by
  unfold NcoOpen
  decide +kernel

/-- `Reached` as a check. -/
def Sys2Proof.Tests.reached (d : Dev) (p : PendW) : Bool :=
  let x := d.ch (channelOf p.addr)
  decide (p.addr ≠ R.DEV_PROFILE ∧ p.addr ≠ R.MEM_FREQ_CTRL ∧ p.addr ≠ R.TELEM_SW_RATE ∧ (p.addr = R.CH_DAC_CTRL (channelOf p.addr) → p.mask ≠ 3)) &&
  match p.ap with
  | .imm | .tick => decide (p.acc + 2 ≤ d.ev.elapsed)
  | .idle => decide (p.acc + 2 ≤ d.ev.elapsed ∧
      if p.addr = R.LINK_CFG then d.get F.LINK_STATUS_STATE = 0
      else if p.addr < 0x40000 then d.get (F.EVT_TMR_STAT_RUNNING ((p.addr - 0x30300) / 0x20)) = 0
      else x.st = .idle ∨ (x.st = .faulted ∧ 0x2000000 ≤ p.addr ∧ p.addr ≠ R.CH_DP_MDLY (channelOf p.addr) ∧ p.addr ≠ R.CH_DAC_CTRL (channelOf p.addr)))
  | .block | .seg => decide (x.nextS = none ∧ x.blks = [] ∧ (p.due = none → p.acc + 2 ≤ d.ev.elapsed)) || p.due.any fun t => notAfter t d.ev.dt

theorem Sys2Proof.Tests.reached_iff (d : Dev) (p : PendW) : Tests.reached d p = true ↔ Reached d p := by
  unfold Tests.reached Reached
  dsimp only
  rw [Bool.and_eq_true, decide_eq_true_eq]
  refine and_congr_right fun _ => ?_
  cases p.ap <;> simp only [Bool.or_eq_true, decide_eq_true_eq, Option.any_eq_true]

/-- WritesWaitForTheirPairAndPoint: A value held to each kind of point whose point has come, and one whose has not; a pair's apply point with nothing pending; a stage setting that clashes; a chiplet whose rate changes and one whose does not. -/
theorem wit_reached : (∀ p ∈ [(⟨R.CH_SEQ_RING_TMO 0, 0xFFFFFFFF, 1, .idle, 0, none⟩ : PendW), ⟨R.LINK_CFG, 1, 1, .idle, 0, none⟩, ⟨R.EVT_TMR_START 0 0, 1, 1, .idle, 0, none⟩, ⟨R.CL_XBAR_MASK 0 0 0, 1, 1, .tick, 0, none⟩,
      ⟨R.CH_DP_GAIN 0, 1, 1, .block, 0, none⟩, ⟨R.CH_DP_GAIN 0, 1, 1, .block, 0, some 0⟩, ⟨R.CH_FIR_CTRL 0, 1, 1, .seg, 0, none⟩, ⟨R.CH_SEQ_MODE 0, 3, 1, .idle, 0, none⟩, ⟨R.CL_STAGE_CTRL 0 0, 1, 1, .idle, 0, none⟩],
      Reached { d0 with pend := [p], ev := { d0.ev with elapsed := 2 } } p ∧ (p.due = none → ¬Reached { d0 with pend := [p] } p) ∧ (∀ c, (d0.ch c).goReq = false)) ∧
    ¬Reached (run0 fun x => { x with nextS := some 0 }) ⟨R.CH_DP_GAIN 0, 1, 1, .block, 0, some 1⟩ ∧ ¬Reached d0 ⟨R.DEV_PROFILE, 7, 2, .idle, 0, none⟩ ∧ (up.wakeFor (R.CH_SEQ_START 0 1)).pend = [] ∧
    areasClash (((up.set (F.CL_STAGE_CTRL_EN 0 0) 1).set (F.CL_STAGE_CTRL_EN 0 1) 1).areas 0) = true ∧ up.get (rateBusy 0) = 0 ∧ (up.set (rateBusy 0) 1).get (rateBusy 0) = 1 := by
  simp only [← reached_iff]
  decide +kernel

/-- ResetsAndParkAll: A channel whose STOP leaves a hold that goes on; no channel in reset, no hold. -/
theorem wit_holds_left : (let d := (run0 fun x => { x with holds := [(0, 32)] }).stop 0; (d.ch 0).active? = false ∧ (d.ch 0).holds ≠ []) ∧ (∀ c, (d0.ch c).holds = []) ∧ d0.board.rst = none ∧
    (∀ args, up.mgmt.cmd ≠ some (0x10, args)) := by
  refine ⟨by decide +kernel, by decide +kernel, by decide +kernel, fun args h => ?_⟩
  exact absurd (h.symm.trans (by decide +kernel : up.mgmt.cmd = none)) (by simp)

/-- RunControlStopsHaltsAndResumes: A channel in RUN with no fault in the tick; one whose schedule is dry. -/
theorem wit_calm : Calm (run0 id) 0 ∧ ¬Calm (run0 fun x => { x with sc := 32 }) 0 ∧ Calm (ch0 fun x => { x with st := .armed }) 0 ∧ Calm (run0 fun x => { x with st := .drain }) 0 ∧
    ((run0 fun x => { x with st := .faulted }).ch 0).faultedIn 1 = false := by
  refine ⟨⟨fun q h => ?_, by decide +kernel, by decide +kernel⟩, fun h => absurd (h.2.2 (by decide +kernel)) (by decide +kernel), ⟨fun q h => ?_, by decide +kernel, by decide +kernel⟩, ⟨fun q h => ?_, by decide +kernel, by decide +kernel⟩, by decide +kernel⟩
  all_goals exact absurd (h.symm.trans (by decide +kernel : _ = none)) (by simp)

/-- A frame entry of tick `t` with the occurrences `os` (tests). -/
def Sys2Proof.Tests.merged (t : Tick) (os : List Occ) : FrameEv := ⟨1, t, 0, 2, 0, false, false, 0, false, 0, os⟩

/-- TimersAndHostEventsEmit: A firing of timer 0 that stands alone, another occurrence alone, and both merged, in either order. -/
theorem wit_withdrawn : (let o : Occ := ⟨0, 2, 0, false, false, 0⟩; let p : Occ := ⟨3, 0, 5, false, false, 3⟩
      (∀ os ∈ [[o], [p], [o, p], [p, o]], let d : Dev := { up with ev := { up.ev with frames := [merged 0 os] } }
        d.ev.frames = [merged 0 os] ∧ (merged 0 os).stamp = d.ev.dt ∧ (merged 0 os).closed = false ∧ (merged 0 os).occs = os) ∧
      o.kind = 2 ∧ o.idx.toNat = (0 : Fin 8).val ∧ (p.kind ≠ 2 ∨ p.idx.toNat ≠ (0 : Fin 8).val)) := by
  decide +kernel

/-- EdgesAndFramesPresentEvents: An edge too short to count and one long enough; an event that finds the gated cluster asleep, one that finds it woken since it came, and one that finds it awake; a cluster to wake, awake and after a TRIP; a log whose record waits. -/
theorem wit_presented : (let d := ((up.set (F.EVT_TRIG_CFG_EN 0) 1).set (F.EVT_TRIG_CFG_MINW 0) 3)
      d.flag (F.EVT_TRIG_CFG_EN 0) = true ∧ d.ev.trig.getLsbD 0 ≠ true ∧ 3 ≤ d.get (F.EVT_TRIG_CFG_MINW 0) ∧ ¬(4 ≤ d.get (F.EVT_TRIG_CFG_MINW 0)) ∧ d.ev.trig.getLsbD 0 = false) ∧
    (let d := (up.wr (R.CL_XBAR_MASK (clu 0) (sub 0) 0) 2).set F.TELEM_PWR_CL_GATED 1
     (d.rdTick (R.CL_XBAR_MASK (clu 0) (sub 0) 0)).getLsbD 1 = true ∧ d.get F.TELEM_PWR_CL_GATED / 2 ^ (clu 0) % 2 = 1 ∧ (d.setRuns 7 false).runs (7 + clu 0) = false ∧ (d.setRuns 7 true).runs (7 + clu 0) = true ∧
     d.ev.wokeAt[cluster 0] = none ∧ (d.ev.wokeAt.set (cluster 0) (some 30))[cluster 0] = some 30 ∧ before ((frame true).stamp + 23) 30 = true ∧ before ((frame true).stamp + 23) 23 = false ∧
     notAfter ((frame true).stamp + 23 + 1 + 8) 31 = false ∧ notAfter ((frame true).stamp + 23 + 1 + 8) 32 = true) ∧
    up.get F.TELEM_THERM_LEVEL ≠ 3 ∧ (up.set F.TELEM_THERM_LEVEL 3).get F.TELEM_THERM_LEVEL = 3 ∧ before (0 : Tick) 0 = false ∧ ((run0 id).ch 0).active? = true ∧ (up.ch 0).active? = false ∧
    (ring 4 1).recordHeld 5 ((ring 4 1).prod 5) = false ∧ ({ ring 4 1 with rings := { (ring 4 1).rings with again := [3] } } : Dev).recordHeld 5 0 = true := by
  decide +kernel

/-- Channel 0 carrying block `b`, its history one sample of code 5 and marker 1, in tick 0 (tests). -/
def Sys2Proof.Tests.carry (b : Blk) (f : Chan → Chan) : Dev :=
  up.modCh 0 fun x => f { x with st := .run, sc := 64, nextS := some 32, blks := [b], hist := [⟨320, 5, 1, false, true, false⟩], outs := [0x51] }

/-- SamplesFollowTheDatapath: Each kind of sample: parked, in a hold and past it, with no block, resting, in each kind of block and behind its end; the two forms of MSRC and those of each format; every quarter of the sine; a value on a grid point and beside it. -/
theorem wit_samples : (∀ b ∈ [(⟨0, 0, 32, .rest⟩ : Blk), ⟨0, 0, 32, .osc⟩, ⟨0, 0, 32, .hold⟩, ⟨0, 0, 32, .park⟩, ⟨0, 0, 32, .seg seg2 [] []⟩, ⟨0, 0, 0, .osc⟩],
      let x := (carry b id).ch 0
      x.blockAt 0 = some b ∧ x.hist.head?.isSome = true ∧ (before 0 b.stop = true ∨ b.stop = 0) ∧ x.parkAt = none ∧ x.holds = []) ∧
    ((carry ⟨1, 1, 32, .osc⟩ id).ch 0).blockAt 0 = none ∧ ParkedSince ((carry ⟨0, 0, 32, .osc⟩ fun x => { x with parkAt := some 0 }).ch 0) 0 ∧
    ¬ParkedSince ((carry ⟨0, 0, 32, .osc⟩ id).ch 0) 0 ∧ InHold ((carry ⟨0, 0, 32, .osc⟩ fun x => { x with holds := [(0, 32)] }).ch 0) 31 ∧ ¬InHold ((carry ⟨0, 0, 32, .osc⟩ id).ch 0) 0 ∧
    PastHold ((carry ⟨0, 0, 32, .osc⟩ fun x => { x with holds := [(0, 32)] }).ch 0) 32 ∧ ¬PastHold ((carry ⟨0, 0, 32, .osc⟩ id).ch 0) 0 ∧
    (∀ f ∈ List.range 4, (⟨BitVec.ofNat 32 (2 * f), 0, 0, 0⟩ : Desc).fmt = f) ∧ (∀ f ∈ List.range 3, (⟨BitVec.ofNat 32 (32 * f), 0, 0, 0⟩ : Desc).msrc = f) ∧
    (256 % 256 = 0 ∧ 257 % 256 ≠ 0) ∧ (∀ q ∈ List.range 4, (BitVec.ofNat 48 (q * 2 ^ 46)).toNat / 2 ^ 46 = q) := by
  refine ⟨by decide +kernel, by decide +kernel, ⟨0, rfl, rfl⟩, ?_, ⟨(0, 32), List.mem_singleton.2 rfl, by decide, by decide⟩, ?_, ⟨(0, 32), List.mem_singleton.2 rfl, by decide, ?_⟩, ?_, by decide +kernel, by decide +kernel, by decide, by decide +kernel⟩
  · rintro ⟨p, h, -⟩; exact absurd (h.symm.trans (by decide +kernel : _ = none)) (by simp)
  · rintro ⟨h, m, -⟩; exact absurd ((by decide +kernel : ((carry ⟨0, 0, 32, .osc⟩ id).ch 0).holds = []) ▸ m) (by simp)
  · rintro b ⟨old, new, h, -, -⟩
    have k : b = ⟨0, 0, 32, .osc⟩ := List.mem_singleton.1 (((by decide +kernel : _ = [(⟨0, 0, 32, .osc⟩ : Blk)]).symm.trans h) ▸ List.mem_append_right _ List.mem_cons_self)
    subst k; decide
  · rintro ⟨h, m, -⟩; exact absurd ((by decide +kernel : ((carry ⟨0, 0, 32, .osc⟩ id).ch 0).holds = []) ▸ m) (by simp)

/-- SamplesFollowTheDatapath: A tick that the output carries and one that it does not; the output stage parked and not; each state of a pin; a channel with settings in force, FIR on and off; rates of 16, 8 and 4 samples a tick; drops with a sum and without. -/
theorem wit_outputs : (let d := carry ⟨0, 0, 32, .osc⟩ id
      d.spt 0 ≤ (d.present 0).length ∧ ((d.ch 0).blockAt 0).isSome = true ∧ (d.ch 0).blks ≠ [] ∧ d.pend = [] ∧ (∀ a ∈ (d.ch 0).dispatched, notAfter a.tick 0 = false) ∧
      d.get (F.CH_FIR_CTRL_EN 0) = 0 ∧ (d.set (F.CH_FIR_CTRL_EN 0) 1).get (F.CH_FIR_CTRL_EN 0) = 1 ∧ ¬StageParked d 0 ∧ StageParked (d.set (F.CH_DAC_STATUS_RANGING 0) 1) 0 ∧ (d.setRuns 19 true).pinState 0 = .active ∧
      ((d.setRuns 19 true).set (F.CH_CAL_STATUS_STALE 0) 1).pinState 0 = .calHold) ∧ (∀ r ∈ [0, 1, 2], (up.set (rateFld 0) r).spt 0 = 16 / 2 ^ r) ∧
    up.pinState 0 = .park ∧ d0.pinState 0 = .unpowered ∧ (up.ch 0).blks = [] ∧ (up.cal 0).hold = none ∧ ({ up.cal 0 with hold := some ⟨0, 5, 0, false, true, false⟩ } : Cal).hold.isSome = true ∧
    ((List.replicate 64 1).take 64).sum ≠ 0 := by
  refine ⟨⟨by decide +kernel, by decide +kernel, by decide +kernel, by decide +kernel, by decide +kernel, by decide +kernel, by decide +kernel, ?_, Or.inl (by decide +kernel), by decide +kernel, by decide +kernel⟩, by decide +kernel, by decide +kernel, by decide +kernel, by decide +kernel, by decide +kernel, by decide +kernel, by decide⟩
  rintro (h | h | ⟨u, h, -⟩)
  · exact h (by decide +kernel)
  · exact absurd h (by decide +kernel)
  · exact absurd (h.symm.trans (by decide +kernel : _ = none)) (by simp)

/-- A slice of pseudo-channel 0 running (tests). -/
def Sys2Proof.Tests.sliced : Dev := { hb with hbm := { hb.hbm with slice := some (.passed, 3200), training := some (0, 0) } }

/-- MemoriesAreWrittenAndReadByUnits, StageBuffersFillInOrder, TargetsLoadTheirHeads, CopiesFillOasis: Accesses that a slice holds and that none holds, a TRIP, a read that waits before; a length at and past 4,096; a write through a window of two dwords and of many. -/
theorem wit_held_at : sliced.heldAt 0 64 = true ∧ hb.heldAt 0 4096 = false ∧ ({ hb with hbm := { hb.hbm with newRate := some 1 } } : Dev).heldAt 0 64 = true ∧ (hb.set F.TELEM_THERM_LEVEL 3).heldAt 0 1 = true ∧
    (hb.set F.TELEM_THERM_LEVEL 3).tripped = true ∧ hb.tripped = false ∧ hb.bar4Reach 0 4096 = true ∧ hb.hbm.reads = [] ∧ ({ hb.hbm with reads := [(0, 1, 0)] } : Hbm).reads ≠ [] ∧
    (∃ u ∈ unitsOf 256 0 64, sliced.pcOf u = 0) ∧
    ((let d : Dev := { fed (fun x => { x with stage := [⟨0, 0, 128, [0, 1, 2, 3], 5, false, none⟩] }) with hbm := sliced.hbm }
      let pl := d.blockPlace 0 ⟨0, seg2, none, 0, 0⟩ 0; (∃ r ∈ pl.1 ++ pl.2, d.heldAt r.1 r.2 = true) ∧ (∀ r ∈ pl.1 ++ pl.2, hb.heldAt r.1 r.2 = false)) ∧
     (let d := load [9, 1, 0, 0]; (∀ r ∈ d.headRanges 0 0, d.heldAt r.1 r.2 = false) ∧ d.headRanges 0 0 ≠ [] ∧ ∃ r ∈ d.headRanges 0 0, sliced.heldAt r.1 r.2 = true)) ∧
    (∀ a ∈ [0x800000, 0x1040000, 0x2040000, 0xC000000], (windowOf a).isSome = true ∧ (([1, 2, 3] : List W32).flatMap (fun x => leBytes 4 x.toNat)).length = 12) := by
  decide +kernel

/-- RingsAreBoundAndMoved: Doorbells of both directions behind each other; a stale record that the memory holds, one behind others that wait, and one that is read again; writes that a slice holds and that none holds. -/
theorem wit_ring_more : kindD2h ((ring 5 1).ringKind 5) = true ∧ kindD2h ((ring 1 1).ringKind 5) = false ∧
    (let d : Dev := { ring 1 2 with rings := { (ring 1 2).rings with stale := [(5, 0)] } }
     d.staleOf 5 = some 0 ∧ d.rings.again = [] ∧ d.heldAt (d.recAddr 5 0) 64 = false ∧ ({ d with hbm := { d.hbm with newRate := some 1 } } : Dev).heldAt (d.recAddr 5 0) 64 = true ∧ ({ d.rings with again := [4] } : Rings).again ≠ []) ∧
    (let d : Dev := { sliced with hbm := { sliced.hbm with posted := [(0, [1])], received := 1 } }; d.writesHeld 1 = true ∧ d.writesHeld 0 = false ∧ ∃ w ∈ d.hbm.posted.take (1 - (d.hbm.received - d.hbm.posted.length)), d.heldAt w.1 w.2.length = true) ∧
    ((({ ring 1 1 with rings := { (ring 1 1).rings with doorbells := [⟨5, 1, 0⟩, ⟨6, 1, 0⟩] } } : Dev).writesHeld 0) = false) ∧ (ring 1 2).ringState 5 = 2 := by
  decide +kernel

/-- RecordsAreFetchedAndWritten: A ring whose context cannot be read; a fetch that may go, one whose slot is not active, one behind waiting re-reads; a queue whose LIVE ring's place is held. -/
theorem wit_record_more : ({ ring 1 1 with mem := { (ring 1 1).mem with ctx := { (ring 1 1).mem.ctx with ue := [160] } } } : Dev).ctxBad 5 = true ∧ (ring 1 1).ctxBad 5 = false ∧
    (let d := ((ring 1 1).setCtx 5 0x0C 4 1).modCh 0 fun x => { x with active := [0] }
     d.ringKind 5 = 1 ∧ ((0 : W32) - d.cons 5).toNat < min 4 (d.ready 5) ∧ (d.ch (d.owner 5)).recs.length < 64 ∧ d.ctx 5 0x06 2 ∈ (d.ch (d.owner 5)).active ∧ d.rings.again = [] ∧ d.heldAt (d.recAddr 5 0) 64 = false ∧
     ({ d with hbm := { d.hbm with newRate := some 1 } } : Dev).fetchable 5 0 = false) ∧
    (let r : StatusRec := ⟨0, 0, 5, List.replicate 64 0⟩; let d : Dev := { ring 5 1 with rings := { (ring 5 1).rings with statusQ := [r] } }
     d.liveKind 5 5 = true ∧ d.rings.again = [] ∧ d.heldAt (d.recAddr 5 (d.prod 5)) 64 = false ∧ ({ d with hbm := { d.hbm with newRate := some 1 } } : Dev).heldAt (d.recAddr 5 (d.prod 5)) 64 = true) := by
  decide +kernel

/-- ArraysFormAndBreak, LinkWordsActByTheirType: A device that may form and one that may not; a port trained and not, in service and not; the manager and a worker with one share done and with both; cells before the switch and after, timed and not. -/
theorem wit_forming : clockOk (lk 1 0) ∧ ¬clockOk d0 ∧ (lk 1 1).formReason = none ∧ d0.formReason = some 5 ∧
    (let d := (fun d : Dev => ({ d with link := d.link.setPort .e { d.link.port .e with trained := true } } : Dev)) (lk 0 0)
     (d.link.port .e).trained = true ∧ d.portUp .e = false ∧ (d.link.port .w).trained = false ∧ d.flag F.LINK_CFG_EN = true ∧ d.get F.LINK_STATUS_STATE = 0 ∧ d.flag F.LINK_CFG_ROLE = false ∧ (d.link.port .e).scrambled = false ∧
     bits (0x1 : W32) 3 0 = d.get F.LINK_CFG_N_M1 ∧ (1 : BitVec 4).toNat = d.neighbour .e ∧ (0x1 : W32).getLsbD 4 = decide ((1 : BitVec 4).toNat = 0) ∧ (0x11 : W32).getLsbD 4 ≠ decide ((1 : BitVec 4).toNat = 0) ∧
     (d.link.eDone && d.link.wDone) = false ∧ (({ d.link with eDone := true, wDone := true } : Link).eDone && ({ d.link with eDone := true, wDone := true } : Link).wDone) = true) ∧
    (let d := (fun d : Dev => ({ d with link := d.link.setPort .e { d.link.port .e with trained := true, scrambled := true, seqExp := some 5 } } : Dev)) (lk 1 1)
     (d.link.port .e).scrambled = true ∧ d.link.timed = false ∧ (d.link.port .e).seqExp = some 5 ∧ ({ d.link with timed := true } : Link).timed = true) ∧
    bits (0x2 : W32) 2 0 = 2 ∧ bits (0x1 : W32) 2 0 ≠ 2 ∧ (lk 1 2).link.slip = 0 ∧ (lk 1 0).clk.safe = false := by
  unfold clockOk
  decide +kernel

/-- MemoriesAreKeptAndTested: A fence behind writes that a slice holds and one behind none; a stack that a waiting request asks for and one that none does; a TRIP. -/
theorem wit_asked : ({ sliced with hbm := { sliced.hbm with posted := [(0, [1])], received := 1, fences := [1] } } : Dev).writesHeld 1 = true ∧ hb.writesHeld (hb.hbm.fences.headD 0) = false ∧
    (let d : Dev := { hb with hbm := { hb.hbm with posted := [(0, [1])], received := 1 } }; d.stackAsked 0 = true ∧ d.stackAsked 1 = false ∧ (0, 1) ∈ d.hbm.posted.map (fun w => (w.1, w.2.length)) ∧ ∃ u ∈ unitsOf 256 0 1, d.pcOf u / 32 = 0) ∧
    (∀ p ∈ ((List.range 32).foldl (fun (d : Dev) i => d.set (F.MEM_PC_STAT_STATE (96 + i)) 3) hb).mapped, p / 32 ≠ 3) ∧ hb.heldAt 0 64 = false ∧ sliced.heldAt 0 64 = true ∧ (hb.set F.TELEM_THERM_LEVEL 3).tripped = true := by
  decide +kernel

/-- RatesMapsAndTraining: A slice and a change under way with nothing else, a deferred change alone; a stack that trains and one that does not, with a slice and without; reads and re-reads that wait, held and not. -/
theorem wit_after_slice : sliced.hbm.slice = some (.passed, 3200) ∧ sliced.hbm.training = some (0, 0) ∧ sliced.tripped = false ∧ 3200 ≤ ({ sliced.ev with elapsed := 3200 } : Events).elapsed ∧ sliced.hbm.deferred = none ∧
    (0 / 32 = 0 ∧ 0 / 32 ≠ 1) ∧ ({ sliced.hbm with slice := none } : Hbm).slice = none ∧
    ({ hb with hbm := { hb.hbm with newRate := some 1, changeEnd := some 4 } } : Dev).hbm.changeEnd = some 4 ∧ hb.heldAt 0 (min 4 (hb.capacity - 0)) = false ∧ sliced.heldAt 0 (min 4 (sliced.capacity - 0)) = true ∧
    (ring 1 2).staleOf 5 = none ∧ (hb.set F.MGMT_STATUS_READY 1).sliceReady = true := by
  decide +kernel

/-- TheSamplePllAppliesAndLocks, ClockSourcesAreLostAndReturn, DividersAndDomainsFollowTheirEdges: REFIN measured and not; a TRIP with a cluster stopped. -/
theorem wit_refin : d0.flag F.CLK_REFIN_FREQ_VALID = false ∧ (d0.set F.CLK_REFIN_FREQ_VALID 1).flag F.CLK_REFIN_FREQ_VALID = true ∧ (d0.set F.CLK_SPLL_STATUS_STATE 4).bypassed = true ∧
    (up.set F.TELEM_THERM_LEVEL 3).tripped = true ∧ up.tripped = false ∧ d0.stage = 0 := by
  decide +kernel

/-- StartUpAdvancesStageByStage: A die too hot for Stage A's end; no slot that verifies; Reckoner back with no command waiting, and with one. -/
theorem wit_start_more : ({ d0 with board := { d0.board with tripSites := 1 } } : Dev).hot = true ∧ ((img 0 0).flashPut (imageAt false) (leBytes 4 0)).bootSlot = none ∧ (∀ c, (up.cal c).saving = none) ∧ up.mgmt.cmd = none ∧ up.tripped = false := by
  decide +kernel

/-- MailboxCommandsEndWithTheirRecord: A command that a TRIP stands and one that it does not; every OP at the ends of what its arguments may be; a SEC.CMD command that waits. -/
theorem wit_mailbox_more : stands (up.set F.TELEM_THERM_LEVEL 3) 0x11 ∧ ¬stands (up.set F.TELEM_THERM_LEVEL 3) 4 ∧ ¬stands up 0x11 ∧
    (let d := up.set F.MGMT_STATUS_READY 1
     up.mgmtRejects 1 [] = some 4 ∧ d.mgmtRejects 4 [] = none ∧ d.mgmtRejects 2 [0, 15] = none ∧ d.mgmtRejects 2 [0, 16] = some 2 ∧ d.mgmtRejects 2 [0, 0xFF] = none ∧ d.mgmtRejects 0x10 [3] = some 2 ∧ d.mgmtRejects 0x10 [2, 4097] = some 2 ∧
     d.mgmtRejects 0x10 [2, 4096] = none ∧ d.mgmtRejects 0x11 [1, 1] = some 2 ∧ d.mgmtRejects 0x11 [0, 0] = some 2 ∧ d.mgmtRejects 0x11 [0x100000, 1] = some 8 ∧ d.mgmtRejects 0x11 [0x200000, 4096] = none ∧ (d.set F.SEC_LC_STATE 3).mgmtRejects 0x12 [0] = some 3 ∧
     (d.set F.SEC_LC_STATE 2).mgmtRejects 0x12 [1] = none ∧ d.mgmtRejects 5 [] = some 1) ∧
    ({ up.mgmt with sec := some (2, 0, 0x5C4A) } : Mgmt).sec = some (2, 0, 0x5C4A) ∧ up.mgmt.sec = none ∧ (up.flag F.MGMT_CMD_PENDING = false) ∧ ((up.set F.MGMT_CMD_PENDING 1).flag F.MGMT_CMD_PENDING = true) ∧
    (1 : BitVec 4).toNat = 1 := by
  unfold stands
  decide +kernel

/-- SecurityCommandsAndBoardPorts: A security command free to run, one behind a mailbox command, one behind another; a write that is discarded and one that is not; sizes of BAR4 at both ends and past them; the link up and down; nFAULT asserted and not. -/
theorem wit_ports : secFree up ∧ ({ up.mgmt with cmd := some (1, []) } : Mgmt).cmd ≠ none ∧ ({ up.mgmt with sec := some (2, 0, 0) } : Mgmt).sec ≠ none ∧ up.writeDiscarded 0x8000000 0 = true ∧ up.writeDiscarded R.DEV_ALERT_MASK 0 = false ∧
    up.smbServes R.DEV_ALERT_MASK = true ∧ (28 ≤ 28 ∧ 37 ≤ 37 ∧ 27 < 28 ∧ 37 < 38) ∧ up.linkUp = true ∧ d0.linkUp = false ∧ up.nFault = false ∧ ({ d0 with board := { d0.board with analog := true } } : Dev).nFault = true := by
  unfold secFree
  decide +kernel

/-- RotationChecksAndSwaps: A check that has saturated after it began, one that has not begun. -/
theorem wit_saturated : (let d : Dev := (up.setRuns 19 true).setRole 0 17 1; d.underCheck 0 = some 17 ∧ d.checkStart 0 17 ≤ d.ev.elapsed ∧
      ({ d with cals := d.cals.set 0 { d.cals[0] with stepAt := 1 } } : Dev).checkStart 0 17 = 1) := by
  decide +kernel

/-- CalibrationRunsStartAndEnd: A FORCED run of a channel in ARMED and of one that plays, one too early; an IDLE run; a run that a new park ends; each reason that does not bar; a due calibration with CAL_FORCE and without. -/
theorem wit_run_starts : (let d := ((((ch0 fun x => { x with st := .armed }).set F.DEV_STAGE_STAGE 3).set (F.CH_CAL_STATUS_FORCE_DUE 0) 1).set F.CLK_PLL_STATUS_SYS_BYPASS 0)
      RunFree d 0 ∧ d.runMayStart 0 .forced = false ∧ ({ d with ev := { d.ev with elapsed := 1 } } : Dev).runMayStart 0 .forced = true ∧
      (let e : Dev := { d.modCh 0 (fun x => { x with st := .run, nextS := some 32, blks := [⟨0, 0, 32, .rest⟩] }) with ev := { d.ev with elapsed := 32 } }; e.runMayStart 0 .forced = true ∧ (∃ b ∈ (e.ch 0).blks, b.first = e.ev.dt)) ∧
      ((((d.modCh 0 fun x => { x with st := .idle }).set (F.CH_CAL_CTRL_IDLE_EN 0) 1).set (F.CH_CAL_STATUS_DUE 0) 1).setRuns 19 true).runMayStart 0 .idle = true) ∧
    SinceRun up 0 0 ∧ (∀ r ∈ [4, 5, 6, 7], 3 < r) ∧ ({ up.cal 0 with dueKept := true } : Cal).dueKept = true ∧ (up.set (F.CH_CAL_CTRL_CAL_FORCE 0) 1).get (F.CH_CAL_CTRL_CAL_FORCE 0) ≠ 0 := by
  unfold RunFree SinceRun
  decide +kernel

/-- SensorsConvertAndTrip: Each level by its readings, held by the hysteresis and not; a level rising to CRIT and not; a channel whose GO came in the tick and one whose did not. -/
theorem wit_levels : (∃ i v, i < 24 ∧ (let d := (up.set (F.TELEM_TEMP_VALID 0) 1).set (F.TELEM_TEMP_VALUE 0) (16 * 110); d.get (F.TELEM_TEMP_VALID i) = 1 ∧ v = (BitVec.ofNat 16 (d.get (F.TELEM_TEMP_VALUE i))).toInt ∧ 16 * (110 : Int) ≤ v)) ∧
    ¬LevelHolds up 1 100 ∧ ¬LevelHolds up 2 110 ∧ LevelIs (up.set F.TELEM_THERM_LEVEL 3) 3 ∧ (2000 : BitVec 16).toInt = 2000 ∧ (1999 : BitVec 16).toInt < 2000 ∧ ((run0 id).ch 0).goTick = (run0 id).ev.dt ∧
    ((run0 fun x => { x with goTick := 1 }).ch 0).goTick ≠ (run0 id).ev.dt := by
  refine ⟨⟨0, 1760, by decide +kernel⟩, ?_, ?_, ⟨_, _, rfl, rfl, Or.inl ⟨by decide +kernel, rfl⟩⟩, by decide, by decide, by decide +kernel, by decide +kernel⟩
  all_goals
    rintro ⟨i, v, hi, hv, -⟩
    exact absurd hv ((by decide +kernel : ∀ i < 24, up.get (F.TELEM_TEMP_VALID i) ≠ 1) i hi)

/-! ### Worked examples of the spec, and single commands -/

/-- The device that a command leaves when it answers a next state. -/
def Sys2Proof.Tests.next (i : Instr) (d : Dev) : Option Dev :=
  match exec i (at_ d) with
  | .next t => some t.dev
  | _ => none

/-- Worked mapping (spec/13, R318, R319): p 9 and 77 RETIRED, address 0x3_2000_0000 lies in p 27 at offset 0x659_6500; the next granule in p 28. -/
theorem test_worked_mapping : let l := (List.range 128).filter fun p => p ≠ 9 ∧ p ≠ 77
    mapAddr l 0x320000000 = (27, 416101) ∧ mapAddr l 0x320000100 = (28, 416101) ∧ mapOffset 416101 0x320000000 = 0x6596500 := by
  decide +kernel

/-- Worked mixing sample (spec/06): an eighth of a turn, amplitude 0.5, I 0.5 give 23,171. -/
theorem test_worked_mixing : cosSin 0x200000000000 = (92681, 92681) ∧
    (({ Chan.reset with mixEna := 1, osc := Chan.reset.osc.set 0 ⟨0, 0x4000⟩ }.setSlot 0 ⟨0, 0x200000000000, 0⟩).mixed 16 0 0 16384 0 = 23171) := by
  decide +kernel

/-- Worked sample (spec/07): gain 1.5 and offset -8 give 34,725, code 543. -/
theorem test_worked_sample : gainStage 0x6000 (-8) 23171 = (34725, false) ∧ clip12 ((34725 + 32) / 64) = (543, false) := by
  decide +kernel

/-- Worked program (spec/04): the slots' phases at ticks 2,000, 2,228 and 2,260. -/
theorem test_worked_phases : (⟨0x040000000000, 0x400000000000, 1000⟩ : Slot).phase 2000 = 0x400000000000 ∧ (⟨0x060000000000, 0, 0⟩ : Slot).phase 2228 = 0x800000000000 ∧
    (⟨0x040000000000, 0x400000000000, 1000⟩ : Slot).phase 2260 = 0x400000000000 := by
  decide +kernel

/-- Channel 9 of the worked program in RUN at SC `t`, `gauss` at descriptor 18 of cluster 2. -/
def Sys2Proof.Tests.ch9 (t : Tick) : Dev :=
  ({ up with mem := { up.mem with segtab := up.mem.segtab.write (segAt 2 288) [0x23, 7, 0, 0] } } : Dev).modCh 9 fun x => { x with st := .run, sc := t, firstSc := t }

/-- Worked program: PLAY of 8 IQ16 blocks advances SC from 2,000 to 2,032 and WAIT 44 on to 2,076; LOOP 3 puts 3 into L0; HALT drains. -/
theorem test_worked_program : ((next (.play 9 0 0 0x12) (ch9 2000)).map fun d => (d.ch 9).sc) = some 2032 ∧ ((next (.waitImm 9 0 0 44) (ch9 2032)).map fun d => (d.ch 9).sc) = some 2076 ∧
    ((next (.loop 9 0 0 0x30008) (ch9 2000)).map fun d => (d.ch 9).l[0]) = some 3 ∧ ((next (.halt 9 0 0 0) (ch9 2292)).map fun d => (d.ch 9).st) = some .drain := by
  decide +kernel

/-- Worked example of rings (spec/11): ring 70,000 with BASE 0x0020_0400 and LOG2 6; index 64 lies at 0x2_0040_0000 in generation 1, index 63 at 0x2_0040_0FC0 in generation 0. -/
theorem test_worked_ring : let d : Dev := { up with mem := { up.mem with ctx := up.mem.ctx.write (32 * 70000) [0, 4, 0x20, 0, 1, 6, 5, 0, 9, 0, 0, 1] } }
    d.recAddr 70000 64 = 0x200400000 ∧ d.recAddr 70000 63 = 0x200400FC0 ∧ d.gen 70000 64 = 1 ∧ d.gen 70000 63 = 0 ∧ (0x800000 : Nat) + 32 * 70000 = 0xA22E00 := by
  decide +kernel

/-! ### Ill-formed commands -/

/-- One ill-formed term for each check of wellFormed (R41, R45, R54), each beside its nearest well-formed term. -/
theorem test_ill_formed_program : Instr.wellFormed (.programStoreWrite 0 0x40000 [1]) = false ∧ Instr.wellFormed (.programStoreWrite 0 0 []) = false ∧ Instr.wellFormed (.programStoreWrite 0 0x3FFFF [1]) = true := by decide
theorem test_ill_formed_register : Instr.wellFormed (.registerWrite 0x10000000 15 0 false []) = false ∧ Instr.wellFormed (.registerWrite 0xFFFFFFC 15 0 false [0]) = false ∧
    Instr.wellFormed (.registerWrite 0xFFFFFFC 15 0 false []) = true := by decide
theorem test_ill_formed_point : Instr.wellFormed (.applyPoint .imm 0) = false ∧ Instr.wellFormed (.applyPoint .tick 0x130) = false ∧ Instr.wellFormed (.applyPoint .tick 0x12F) = true := by decide
theorem test_ill_formed_alias : Instr.wellFormed (.aliasWrite 0x3FFFFFC 1) = false ∧ Instr.wellFormed (.aliasWrite 0x6400000 1) = false ∧ Instr.wellFormed (.aliasWrite 0x4000001 1) = false ∧ Instr.wellFormed (.aliasWrite 0x4000000 1) = true := by decide
theorem test_ill_formed_lock : Instr.wellFormed (.lockWrite 0x40024 15 0) = false ∧ Instr.wellFormed (.lockWrite 0x40020 15 0) = true := by decide
theorem test_ill_formed_pair : Instr.wellFormed (.pairCommit 0x4000000 15 0) = false ∧ Instr.wellFormed (.pairCommit 2 15 0) = false ∧ Instr.wellFormed (.pairCommit 0x2000014 15 0) = true := by decide
theorem test_ill_formed_descriptor : Instr.wellFormed (.descriptorWrite 0 0x40000 [1]) = false ∧ Instr.wellFormed (.descriptorWrite 0 0 []) = false ∧ Instr.wellFormed (.descriptorWrite 0 0x3FFFF [1]) = true := by decide
theorem test_ill_formed_oasis : Instr.wellFormed (.oasisWrite 0 0x800000 [1] false) = false ∧ Instr.wellFormed (.oasisWrite 0 0 [] false) = false ∧ Instr.wellFormed (.oasisWrite 0 0x7FFFFF [1] false) = true := by decide
theorem test_ill_formed_context : Instr.wellFormed (.contextWrite 0x800000 [1]) = false ∧ Instr.wellFormed (.contextWrite 0 []) = false ∧ Instr.wellFormed (.contextWrite 0x7FFFFF [1]) = true := by decide
theorem test_ill_formed_doorbell : Instr.wellFormed (.doorbell 0x1FFFFC 8 0) = false ∧ Instr.wellFormed (.doorbell 0 0 0) = false ∧ Instr.wellFormed (.doorbell 0x1FFFF8 8 0) = true := by decide
theorem test_ill_formed_bar4 : Instr.wellFormed (.bar4Write 0x2000000000 [1]) = false ∧ Instr.wellFormed (.bar4Write 0 []) = false ∧ Instr.wellFormed (.bar4Read 0 0) = false ∧ Instr.wellFormed (.bar4Read 0x2000000000 1) = false ∧
    Instr.wellFormed (.bar4Write 0x1FFFFFFFFF [1]) = true ∧ Instr.wellFormed (.bar4Read 0x1FFFFFFFFF 1) = true := by decide
theorem test_ill_formed_scrub : Instr.wellFormed (.scrubRead 32 false) = false ∧ Instr.wellFormed (.scrubRead 0x2000000000 false) = false ∧ Instr.wellFormed (.scrubRead 64 false) = true := by decide
theorem test_ill_formed_sram : Instr.wellFormed (.sramScrub .oasis 0x4000000 false) = false ∧ Instr.wellFormed (.siroccoRegion 0 .oasis 0x4000000 false .clean) = false ∧ Instr.wellFormed (.sramScrub .oasis 0x3FFFFC0 false) = true ∧
    Instr.wellFormed (.siroccoRegion 0 .oasis 0x3FFFFC0 false .clean) = true := by decide
theorem test_ill_formed_windows : Instr.wellFormed (.lockWindow 0x100000000) = false ∧ Instr.wellFormed (.frequencyMonitorWindow 0x100000000) = false ∧ Instr.wellFormed (.windowRead 0 0 false) = false ∧ Instr.wellFormed (.windowRead 0x10000000 4 false) = false ∧ Instr.wellFormed (.windowRead 0x1FFFFC 8 true) = false ∧
    Instr.wellFormed (.lockWindow 0xFFFFFFFF) = true ∧ Instr.wellFormed (.frequencyMonitorWindow 100000) = true ∧ Instr.wellFormed (.windowRead 0x800000 4 false) = true ∧ Instr.wellFormed (.windowRead 0x1FFFF8 8 true) = true := by decide
theorem test_ill_formed_smbus : Instr.wellFormed (.regRead 0x10000000) = false ∧ Instr.wellFormed (.regWrite 0x10000000 0) = false ∧ Instr.wellFormed (.regRead 0) = true ∧ Instr.wellFormed (.regWrite 0x20 0) = true := by decide

/-- The table gives no row any bits, so no word spells a command. -/
theorem test_no_words : decodeTableWord 64 0 = none ∧ (State.reset.withFetchWord 64 0).pending = [] := by decide

/-- R94, R96: GO before Stage C ends REJECTED (6); FENCE starts RUNNING (R323); POWER_GOOD at the power-on reset (R382). -/
theorem test_first_commands : ((next (.go 0) d0).map fun d => d.get (F.CH_SEQ_STATUS_CODE 0)) = some 6 ∧ ((next .fence d0).map fun d => d.get F.MEM_FENCE_CODE) = some 1 ∧ ((next .powerGood d0).map fun d => d.board.good) = some true := by
  decide +kernel
end

section
/-! The control and timing rows whose outcome depends on register values: WAITT (R117) and JCC (R110). -/

namespace Sys2Proof.Proofs

open Sys2Proof.Machine Sys2Proof.Claims Sys2Proof.Laws

/-! ### WAITT: the time nearest SC with a given low word (R117) -/

/-- The distance `e` of a time from SC lies from -2^31 up to, but not at, 2^31 (R117). -/
def NearSc (e : Tick) : Prop := e.toNat < 2 ^ 31 ∨ 2 ^ 64 - 2 ^ 31 ≤ e.toNat

/-- T of WAITT: SC and the signed distance from its low word to `low`. -/
def nearestTime (sc : Tick) (low : W32) : Tick := sc + (low - sc.setWidth 32).signExtend 64

theorem toNat_signExtend_tick (e : W32) :
    (e.signExtend 64).toNat = if e.toNat < 2 ^ 31 then e.toNat else e.toNat + (2 ^ 64 - 2 ^ 32) := by
  have he := e.isLt
  rw [BitVec.toNat_signExtend, BitVec.toNat_setWidth, Nat.mod_eq_of_lt (by omega), BitVec.msb_eq_decide]
  simp only [decide_eq_true_eq]
  split <;> split <;> omega

theorem signExtend_tick_lt_iff (e : W32) : (e.signExtend 64).toNat < 2 ^ 31 ↔ e.toNat < 2 ^ 31 := by
  rw [toNat_signExtend_tick]; split <;> omega

theorem nearSc_signExtend (e : W32) : NearSc (e.signExtend 64) := by
  have he := e.isLt
  unfold NearSc
  rw [toNat_signExtend_tick]
  split <;> omega

theorem setWidth_signExtend_tick (e : W32) : (e.signExtend 64).setWidth 32 = e := by
  have he := e.isLt
  apply BitVec.eq_of_toNat_eq
  rw [BitVec.toNat_setWidth, toNat_signExtend_tick]
  split <;> omega

theorem low_sub (t u : Tick) : (t - u).setWidth 32 = t.setWidth 32 - u.setWidth 32 := by
  rw [BitVec.sub_eq_add_neg, BitVec.setWidth_add _ _ (by decide), BitVec.setWidth_neg_of_le (by decide), ← BitVec.sub_eq_add_neg]

/-- A near distance is told by its low word. -/
theorem eq_signExtend_of_nearSc {e : Tick} (h : NearSc e) : e = (e.setWidth 32).signExtend 64 := by
  have he := e.isLt
  apply BitVec.eq_of_toNat_eq
  rw [toNat_signExtend_tick, BitVec.toNat_setWidth]
  rcases h with h | h <;> split <;> omega

@[simp] theorem nearestTime_sub_sc (sc : Tick) (low : W32) :
    nearestTime sc low - sc = (low - sc.setWidth 32).signExtend 64 := by
  rw [nearestTime, BitVec.add_comm, BitVec.add_sub_cancel]

theorem nearestTime_low (sc : Tick) (low : W32) : (nearestTime sc low).setWidth 32 = low := by
  rw [nearestTime, BitVec.setWidth_add _ _ (by decide), setWidth_signExtend_tick, BitVec.add_comm, BitVec.sub_add_cancel]

/-- No other near time has the low word (R117: T is unique). -/
theorem eq_nearestTime {sc u : Tick} {low : W32} (hlow : u.setWidth 32 = low) (hnear : NearSc (u - sc)) :
    u = nearestTime sc low := by
  have hd : (u - sc).setWidth 32 = low - sc.setWidth 32 := by rw [low_sub, hlow]
  rw [nearestTime, ← hd, ← eq_signExtend_of_nearSc hnear, BitVec.add_comm, BitVec.sub_add_cancel]

section
variable {d : Dev} {c : Fin 32} {a b : BitVec 4} {x : BitVec 48} {t : Tick}
  (ht : t = nearestTime (d.ch c).sc ((d.ch c).rg a))
include ht

/-- WAITT of a time at or after SC (R117). -/
theorem effWaitt_of_ahead (h : (t - (d.ch c).sc).toNat < 2 ^ 31) :
    effWaitt d c (mkWord 0x32 a b x) =
      .done (d.setCh c (({ d.ch c with sc := t } : Chan).setG b 0)) ((d.ch c).pc + 1) := by
  subst ht
  rw [nearestTime_sub_sc, signExtend_tick_lt_iff] at h
  have hmsb : ((d.ch c).rg a - (d.ch c).sc.setWidth 32).msb = false := by
    rw [BitVec.msb_eq_false_iff_two_mul_lt]
    omega
  simp only [effWaitt, fA_mkWord, fB_mkWord, if_pos h, Res.next, Dev.setCh_ch_same, Chan.setG, nearestTime,
    BitVec.signExtend_eq_setWidth_of_msb_false hmsb]

/-- WAITT of a time before SC (R117). -/
theorem effWaitt_of_late (h : 2 ^ 64 - 2 ^ 31 ≤ (t - (d.ch c).sc).toNat) :
    effWaitt d c (mkWord 0x32 a b x) =
      .done (d.setCh c ((d.ch c).setG b (((d.ch c).sc - t).setWidth 32))) ((d.ch c).pc + 1) := by
  subst ht
  have hlate : ¬ ((d.ch c).rg a - (d.ch c).sc.setWidth 32).toNat < 2 ^ 31 := by
    rw [nearestTime_sub_sc] at h
    rw [← signExtend_tick_lt_iff]
    omega
  have hlow : ((d.ch c).sc - nearestTime (d.ch c).sc ((d.ch c).rg a)).setWidth 32 = -((d.ch c).rg a - (d.ch c).sc.setWidth 32) := by
    rw [low_sub, nearestTime_low, neg_sub]
  simp only [effWaitt, fA_mkWord, fB_mkWord, if_neg hlate, Res.next, Dev.setCh_ch_same, Chan.setG, hlow]

end

/-- Settles O3: T is SC and the sign-extended difference of the low words. -/
theorem waittTakesTheNearestTime : Obligations.WaittTakesTheNearestTime := by
  unfold Obligations.WaittTakesTheNearestTime
  rintro c a b x s _ rfl hfree
  refine ⟨nearestTime (s.dev.ch c).sc ((s.dev.ch c).rg a), nearestTime_low _ _, ?_, fun _ => eq_nearestTime,
    fun h => ?_, fun h => ?_⟩
  · rw [nearestTime_sub_sc]
    exact nearSc_signExtend _
  · exact nexts rfl hfree (effWaitt_of_ahead rfl h) rfl rfl
  · exact nexts rfl hfree (effWaitt_of_late rfl h) rfl rfl

/-! ### JCC: the conditions of its table (R110) -/

/-- The table of R110; a reserved COND holds of nothing. -/
theorem condHolds_eq_some_true_iff (cond : Nat) (l r : W32) : condHolds cond l r = some true ↔
    (cond = 0 ∧ l = r) ∨ (cond = 1 ∧ l ≠ r) ∨ (cond = 2 ∧ l.toInt < r.toInt) ∨ (cond = 3 ∧ r.toInt ≤ l.toInt) ∨
    (cond = 4 ∧ l.toNat < r.toNat) ∨ (cond = 5 ∧ r.toNat ≤ l.toNat) ∨ (cond = 6 ∧ l &&& r ≠ 0) ∨ (cond = 7 ∧ l &&& r = 0) := by
  match cond with
  | 0 | 1 | 2 | 3 | 4 | 5 | 6 | 7 => simp [condHolds]
  | _ + 8 => simp [condHolds]

/-- A JCC whose encoding is allowed has a COND of the table (R102). -/
theorem jcc_cond_lt {a b : BitVec 4} {x : BitVec 48} (h : encOk (mkWord 0x03 a b x) = true) : bits x 19 16 < 8 := by
  unfold encOk at h
  simp only [opOf_mkWord, xr_mkWord, BitVec.reduceToNat, Bool.and_eq_true, decide_eq_true_eq] at h
  exact h.1.2

/-- Settles O6: JCC changes the PC alone, by the table of R110. -/
theorem jccBranchesOnItsCondition : Obligations.JccBranchesOnItsCondition := by
  unfold Obligations.JccBranchesOnItsCondition
  rintro c a b x s l r p hfree rfl hr hp
  obtain ⟨-, -, -, -, -, -, -, henc⟩ := hfree.1
  refine ⟨jcc_cond_lt henc, goes (eff := effJcc) rfl hfree.1 ?_ rfl rfl ?_⟩
  · rw [setCh_self]
    simp only [effJcc, fA_mkWord, fB_mkWord, xr_mkWord, xb_mkWord, ← hr, condHolds_eq_some_true_iff, ← hp]
  · rw [hp]
    split
    · exact lt15
    · exact pcne hfree.2

end Sys2Proof.Proofs
end

section
/-! Telemetry: a valid conversion of a voltage sensor (R437). -/

namespace Sys2Proof.Proofs

open Sys2Proof.Machine Sys2Proof.Claims Sys2Proof.Laws

/-- A valid reading `v` of V(n): `d` shows it as VALID, `e` holds it with its flags `low` and `high`, and VOLT follows them. -/
theorem voltConversion_valid {d₀ d e : Dev} {n : Nat} {v : BitVec 16} {low high : Bool} (hd : d = d₀.set (F.TELEM_VOLT_VALID n) 1)
    (hlow : low = decide (v.toNat < d.get (F.TELEM_VLIM_LO n))) (hhigh : high = decide (d.get (F.TELEM_VLIM_HI n) < v.toNat))
    (he : e = ((d.set (F.TELEM_VOLT_MV n) v.toNat).set (F.TELEM_VOLT_LOW n) (bit low)).set (F.TELEM_VOLT_HIGH n) (bit high)) :
    d₀.voltConversion n true v = e.setIf (low || high) F.TELEM_IRQ_STATUS_VOLT 1 := by
  rw [volt_eq d₀ n true v d hd, ← hlow, ← hhigh, ← he]
  exact if_neg Bool.false_ne_true

/-- Settles O54: inside both limits no interrupt bit is written; past either one VOLT alone is. -/
theorem voltageReadingsRaiseOnlyTheirFlags : Obligations.VoltageReadingsRaiseOnlyTheirFlags := by
  unfold Obligations.VoltageReadingsRaiseOnlyTheirFlags
  intro i v s n d e low high hstage hi hn hd hlow hhigh he
  have hconv : s.dev.conversion i true v = e.setIf (low || high) F.TELEM_IRQ_STATUS_VOLT 1 := by
    rw [conv_high s.dev i true v hstage hi, ← hn]
    exact voltConversion_valid hd hlow hhigh he
  constructor
  · intro hl hh
    have hin : ¬(low || high) = true := by rw [hl, hh]; exact Bool.false_ne_true
    exact of_conv (hconv.trans (if_neg hin))
  · intro hout
    exact of_conv (hconv.trans (if_pos ((Bool.or_eq_true low high).mpr hout)))

end Sys2Proof.Proofs
end
